-- ==== Sys2Proof/Word.lean ====
section
/-! DEFINITION. The word types of the Q4 (00_scope.md R5 to R9): bytes, instruction words, token payloads, and
finite maps kept in one canonical form (keys strictly rising), which every table of the state uses. -/

namespace Sys2Proof

/-- One byte (R7). -/
abbrev Byte := BitVec 8
/-- An instruction word or a block header (R7, R87). -/
abbrev Word := BitVec 32
/-- A token's payload (R21). -/
abbrev Payload := BitVec 64

/-- A finite map from natural keys, as plain data. -/
abbrev Table (α : Type) := List (Nat × α)

/-- The sixteen-bit iteration tags wrap (R27). -/
def iterMod : Nat := 65536

end Sys2Proof
end

