-- ==== Sys2Proof/Syntax.lean ====
section
/-! DEFINITION. The steps of the Celaizal Q4: the 106 instruction words of R97 and the 87 events of the table of
operations (file 95), one constructor each, with the types of their operands and payloads. -/

namespace Sys2Proof

/-- The format tags of R64 (codes 0x18 to 0x1E are reserved and are no tag). -/
inductive Tag where
  | null | i8 | n8 | i16 | n16 | i32 | n32 | i64 | n64 | addr | pred | handle | future | fp64
  | fp32 | fp16 | bf16 | e4m3 | e5m2 | e2m1 | e8m0 | time | tern | bi | poison
  deriving DecidableEq, Repr

/-- A token's payload with its tag (R21, R65). -/
structure Token where
  tag : Tag
  val : Payload
  deriving DecidableEq, Repr

/-- The four ports of a slot (R51, R89). -/
inductive Port where
  | l | r | p | x
  deriving DecidableEq, Repr

/-- A target: slot and port (R89). -/
structure Dest where
  slot : BitVec 7
  port : Port
  deriving DecidableEq, Repr

/-- A target field; none is the code 0x1FF (R89). -/
abbrev Tgt := Option Dest

/-- Tag arithmetic (R23). -/
inductive TA where
  | same | next | zero | prev
  deriving DecidableEq, Repr

/-- The predicate mode (R90); code 01 is no instruction. -/
inductive Pm where
  | always | onTrue | onFalse
  deriving DecidableEq, Repr

/-- Scopes of R268. -/
inductive Scope where
  | pane | die | device | system
  deriving DecidableEq, Repr

/-- Q of a global access: plain, or ordered at a scope (R94, R148). -/
inductive Order where
  | plain
  | ordered (s : Scope)
  deriving DecidableEq, Repr

/-- Branch kinds of R92. -/
inductive BranchKind where
  | jump | call | next
  deriving DecidableEq, Repr

/-- Comparisons of TST (R95, R129). -/
inductive Cmp where
  | eq | ne | lt | le | gt | ge | un | ord
  deriving DecidableEq, Repr

/-- Kinds of RED (R95, R138). -/
inductive RedKind where
  | add | min | max | and | or | xor
  deriving DecidableEq, Repr

/-- Wait of LLD (R94, R159). -/
inductive LldWait where
  | none | keep | take
  deriving DecidableEq, Repr

/-- Operations of the global atomics and of LAMO (R154, R162). -/
inductive AtomOp where
  | add | min | max | and | or | xor | swp | cas
  deriving DecidableEq, Repr

/-- Placement of SPAWN (R95, R193). -/
inductive SpawnPlace where
  | region | die | any
  deriving DecidableEq, Repr

/-- Levels of work that WAITC and CANCEL name (R31, R95). -/
inductive Level where
  | launch | graph | phase | job
  deriving DecidableEq, Repr

/-- The common fields of a format-G word (R87). -/
structure GF where
  t0 : Tgt
  t1 : Tgt
  ta : TA
  pm : Pm
  deriving DecidableEq, Repr

/-- A format-I word (R87). -/
structure IF where
  t0  : Tgt
  imm : BitVec 12
  ta  : TA
  pm  : Pm
  deriving DecidableEq, Repr

/-- A format-C word whose FMT field is a tag (R87, R96). -/
structure CF where
  t0  : Tgt
  t1  : Tgt
  fmt : Tag
  pm  : Pm
  deriving DecidableEq, Repr

/-- A format-M word with a format name (R87, R94). -/
structure MF where
  t0   : Tgt
  ord  : Order
  fmt  : Tag
  lsid : BitVec 5
  pm   : Pm
  deriving DecidableEq, Repr

/-- A word in a block instance: the task's key, the iteration, the block's offset and the slot (R12, R21). -/
structure Firing where
  tid   : Nat
  iter  : Nat
  block : Nat
  slot  : Nat
  deriving DecidableEq, Repr

/-- Where a message or a record comes from (R173, R195, R247). -/
structure Origin where
  vi     : Nat
  job    : Nat
  launch : Nat
  die    : Nat
  pane   : Nat
  colour : Nat
  iter   : Nat
  block  : Nat
  slot   : Nat
  deriving DecidableEq, Repr

/-- An activation of a block instance (R12). `mayNext`: its BR.NEXT may activate a successor (R302).
`loopHead`: the instance begins a loop (R353). `next`: a BR.NEXT activates it, before its activator commits (R22). -/
structure Activation where
  tid      : Nat
  iter     : Nat
  block    : Nat
  mayNext  : Bool
  loopHead : Bool
  next     : Bool
  deriving DecidableEq, Repr

/-- A token under way to a port (R21, R23), with the iteration of its producer and whether it is a READ's of a
committed register (R297). -/
structure TokMsg where
  tid   : Nat
  iter  : Nat
  block : Nat
  slot  : Nat
  port  : Port
  tok   : Token
  src   : Nat
  fromRead : Bool
  deriving DecidableEq, Repr

/-- A value that a returning word's block waits for after commit (R145). -/
structure RetMsg where
  tid   : Nat
  iter  : Nat
  launch : Nat
  reg   : Option Nat
  tok   : Token
  flags : BitVec 8
  deriving DecidableEq, Repr

/-- A change of a future's count on its way to the home (R42, R195). `src` is the task that sent it, whose changes keep
their order. -/
structure RefMsg where
  fut    : Payload
  up     : Bool
  src    : Option Nat
  origin : Option Origin
  deriving DecidableEq, Repr

/-- An EXIT's result on its way to the future's home (R41, R42). -/
structure ExitMsg where
  fut : Payload
  tid : Nat
  tok : Token
  dealt : Bool
  deriving DecidableEq, Repr

/-- Who asks the allocator (R231): an ALLOC, a dealt chunk, a SPAWN, or a SPAWN of another device (R315). -/
inductive Asker where
  | word (f : Firing)
  | deal (launch : Nat)
  | spawn (f : Firing)
  | remote (num : Nat)
  deriving DecidableEq, Repr

/-- An allocation request (R174, R231). `arena` is the arena's key, `size` its granules. -/
structure AllocReq where
  asker     : Asker
  arena     : Nat
  size      : Nat
  count     : Nat
  cell      : Nat
  slot      : Nat
  iterRank  : Nat
  colour    : Nat
  age       : Nat
  overtakes : Nat
  deriving DecidableEq, Repr

/-- A release of granules of a record (R178): the whole of it, or extents that a RELS has cut off; of a spilled record the
granules of its copy, by interface, data and state address. -/
structure ReleaseMsg where
  pane   : Nat
  index  : Nat
  whole  : Bool
  cut    : List (Nat × Nat)
  copies : List (Nat × Nat × Nat)
  gseq   : Nat
  deriving DecidableEq, Repr

/-- A global write on its way to its home (R270). `after`: it performs only when no effect of its task with a
lower sequence number is unperformed (R148, R153). -/
structure WriteMsg where
  tid    : Nat
  seq    : Nat
  after  : Nat
  launch : Nat
  vi     : Nat
  va     : Nat
  pa     : Nat
  rdev   : Nat
  bytes  : List Byte
  poison : Bool
  release : Option Scope
  checked : Bool
  mst    : Bool
  die    : Nat
  colour : Nat
  deriving DecidableEq, Repr

/-- A global read on its way to its home (R142, R149, R270). `fwd` are the bytes forwarded from lower-LSID
stores of the block (R146). An element of a PLD may run over a page (R116): `got` are the bytes its first part has read,
`rest` the address, device and bytes of the second part. -/
structure ReadMsg where
  f      : Firing
  seq    : Nat
  after  : Nat
  lsid   : Option Nat
  acq    : Bool
  va     : Nat
  pa     : Nat
  rdev   : Nat
  width  : Nat
  fmt    : Tag
  half   : Option Nat
  fwd    : List (Option Byte)
  fwdPoison : Bool
  checked : Bool
  t0     : Tgt
  got    : List Byte
  rest   : Option (Nat × Nat × Nat)
  deriving DecidableEq, Repr

/-- A global atomic on its way to its home (R154, R155). -/
structure AtomMsg where
  tid    : Nat
  iter   : Nat
  seq    : Nat
  after  : Nat
  release : Option Scope
  launch : Nat
  pa     : Nat
  rdev   : Nat
  op     : AtomOp
  fmt    : Tag
  r      : Token
  x      : Token
  reg    : Option Nat
  die    : Nat
  colour : Nat
  vi     : Nat
  va     : Nat
  deriving DecidableEq, Repr

/-- What asks for a walk (R142, R172, R355). -/
inductive Walker where
  | word (f : Firing)
  | engine (ctx : Nat)
  | device
  deriving DecidableEq, Repr

/-- A walk for a TLB miss (R142, R254). -/
structure WalkMsg where
  die   : Nat
  pane  : Nat
  vi    : Nat
  va    : Nat
  write : Bool
  who   : Walker
  deriving DecidableEq, Repr

/-- A write to a system register on its way to the register's owner (R206). -/
structure SysW where
  die    : Nat
  pane   : Nat
  n      : Nat
  val    : Payload
  tid    : Option Nat
  launch : Option Nat
  deriving DecidableEq, Repr

/-- A TICKW's descriptor on its way to d0, with the time of its commit in nanoseconds (R202, R213). -/
structure TickMsg where
  source : Nat
  die    : Nat
  launch : Nat
  desc   : BitVec 256
  vi     : Nat
  job    : Nat
  tid    : Nat
  iter   : Nat
  reg    : Option Nat
  at_    : Nat
  deriving DecidableEq, Repr

/-- A write to the TICK set of a source (R211): one register by SYSWR, or a whole descriptor by TICKW. -/
inductive TickSet where
  | reg (w : SysW)
  | install (m : TickMsg)
  deriving DecidableEq, Repr

/-- The data of an Announce (IEEE 1588-2019, by R304): its sender, the grandmaster's priority 1, class, accuracy, variance,
priority 2 and identity, the steps to it, and the interval of the Announces in ns. -/
structure Announce where
  sender   : Nat
  prio1    : Nat
  cls      : Nat
  accuracy : Nat
  variance : Nat
  prio2    : Nat
  gm       : Nat
  steps    : Nat
  interval : Nat
  deriving DecidableEq, Repr

/-- What reaches the PTP unit on d0 (R304): firmware's choice of the domain and of a port's delay mechanism, and messages at a
port, with the times they carry in nanoseconds. The unit stamps what a port receives or sends with its own time. -/
inductive PtpMsg where
  | setDomain (domain : Nat)
  | setPeerDelay (port : Nat) (on : Bool)
  | announce (port domain : Nat) (a : Announce)
  | sync (port sender domain seq : Nat) (twoStep : Bool) (origin : Nat)
  | followUp (port sender domain seq origin : Nat)
  | delayReqSent (port seq : Nat)
  | delayResp (port sender domain seq recv : Nat)
  | pdelayReq (port domain seq : Nat)
  | pdelayReqSent (port seq : Nat)
  | pdelayResp (port domain seq recv : Nat)
  | pdelayFollowUp (port domain seq sent : Nat)
  deriving DecidableEq, Repr

/-- A stream packet as its flits carry it (R317): the first word (VI in [5:0], stream in [10:6], last-of-slot mark in [11],
length in bytes in [31:16]), the TIME stamp, the word of the byte offset, and the data. -/
structure Packet where
  head   : BitVec 64
  ts     : Payload
  offset : BitVec 64
  data   : List Byte
  deriving DecidableEq, Repr

/-- What firmware gives an interface (R318). -/
structure ViConf where
  vi        : Nat
  inboxAt   : Nat
  root      : Nat
  faultBase : Nat
  ringN     : Nat
  saveBase  : Nat
  saveSize  : Nat
  peers     : List Nat
  tickGrant : BitVec 16
  deriving DecidableEq, Repr

/-- How a boot step went (R321, R322). -/
structure BootOut where
  step   : Nat
  passed : Bool
  altPassed : Bool
  die    : Nat
  detail : Nat
  deriving DecidableEq, Repr

/-- Lifecycle states (R323). -/
inductive Lifecycle where
  | manufacture | provisioned | deployed | returned
  deriving DecidableEq, Repr

/-- A write of a peer or of the host, performed at this device's home (R315): bytes within a line under its mask; a store of
POISON; the sender's engine command, where one makes the write (R149). -/
structure RemoteWrite where
  pa     : Nat
  bytes  : List (Option Byte)
  poison : Bool
  cmd    : Option Nat
  deriving DecidableEq, Repr

/-- A remote read with the requester's tag (R315). -/
structure RemoteRead where
  tag   : Nat
  pa    : Nat
  width : Nat
  deriving DecidableEq, Repr

/-- A remote atomic (R284, R315). -/
structure RemoteAmo where
  tag : Nat
  pa  : Nat
  op  : AtomOp
  fmt : Tag
  r   : Token
  x   : Token
  deriving DecidableEq, Repr

/-- A remote SPAWN message (R35, R193, R315): the requester's tag, the launch on this device, the entry block, the argument,
and the spawner's g59. -/
structure RemoteSpawn where
  tag    : Nat
  launch : Nat
  entry  : Nat
  arg    : Token
  card   : Token
  deriving DecidableEq, Repr

/-- A remote count message: a reference change, or units of a level (R35, R315). -/
inductive RemoteCount where
  | ref (c : RefMsg)
  | level (launch : Nat) (up : Bool)
  deriving DecidableEq, Repr

/-- The steps of the part: one constructor per row of the table of operations and events. -/
inductive Instr where
  -- tokens and registers (05)
  | read (t0 t1 : Tgt) (reg : BitVec 6)
  | write (wid : BitVec 5) (reg : BitVec 6) (pm : Pm)
  | mov (g : GF)
  | movi (i : IF)
  | nul (g : GF)
  | sel (t0 t1 : Tgt) (ta : TA)
  | retag (c : CF)
  | pld (i : IF)
  | tagof (g : GF)
  | br (off : BitVec 21) (bk : BranchKind) (pm : Pm)
  | brr (call : Bool) (pm : Pm)
  | exit (pm : Pm)
  | trap (imm : BitVec 12) (pm : Pm)
  | bkpt (imm : BitVec 12) (pm : Pm)
  | fence (scope : Scope) (lsid : BitVec 5) (pm : Pm)
  | add (g : GF) (sat : Bool)
  | sub (g : GF) (sat : Bool)
  | mul (g : GF) (sat : Bool)
  | mulh (g : GF)
  | div (g : GF)
  | rem (g : GF)
  | fma (g : GF)
  | min (g : GF)
  | max (g : GF)
  | abs (g : GF)
  | neg (g : GF)
  | addi (i : IF)
  | muli (i : IF)
  | tst (g : GF) (cc : Cmp)
  | teqi (i : IF)
  | tlti (i : IF)
  | and (g : GF)
  | or (g : GF)
  | xor (g : GF)
  | not (g : GF)
  | andi (i : IF)
  | ori (i : IF)
  | xori (i : IF)
  | shl (g : GF)
  | shr (g : GF)
  | sar (g : GF)
  | shli (i : IF)
  | shri (i : IF)
  | sari (i : IF)
  | clz (g : GF)
  | popc (g : GF)
  | bfx (g : GF)
  | sqrt (g : GF)
  | rcp (g : GF)
  | rsqrt (g : GF)
  | exp2 (g : GF)
  | log2 (g : GF)
  | tanh (g : GF)
  | cvt (c : CF)
  | cvtz (c : CF)
  | ldexp (g : GF)
  | fclass (g : GF)
  | red (g : GF) (kind : RedKind)
  -- memories (06)
  | ld (m : MF)
  | st (ord : Order) (fmt : Tag) (lsid : BitVec 5) (pm : Pm)
  | aadd (m : MF)
  | amin (m : MF)
  | amax (m : MF)
  | aand (m : MF)
  | aor (m : MF)
  | axor (m : MF)
  | aswp (m : MF)
  | acas (m : MF)
  | mst (ord : Order) (fmt : Tag) (lsid : BitVec 5) (pm : Pm)
  | pref (lsid : BitVec 5) (pm : Pm)
  | lld (t0 : Tgt) (wait : LldWait) (fmt : Tag) (lsid : BitVec 5) (pm : Pm)
  | lst (fmt : Tag) (lsid : BitVec 5) (pm : Pm)
  | lamo (t0 : Tgt) (op : AtomOp) (fmt : Tag) (lsid : BitVec 5) (pm : Pm)
  | few (t0 : Tgt) (lsid : BitVec 5) (pm : Pm)
  | fes (lsid : BitVec 5) (pm : Pm)
  | binit (lsid : BitVec 5) (pm : Pm)
  | barr (t0 : Tgt) (lsid : BitVec 5) (pm : Pm)
  | lsz (t0 : Tgt) (lsid : BitVec 5) (pm : Pm)
  -- queues, tables and counters (07)
  | alloc (g : GF) (arena : BitVec 3)
  | free (pm : Pm)
  | rels (pm : Pm)
  | cp (t0 : Tgt) (ctx : BitVec 2) (rv : Bool) (ta : TA) (pm : Pm)
  | cpg (t0 : Tgt) (ctx : BitVec 2) (ta : TA) (pm : Pm)
  | cps (t0 : Tgt) (ctx : BitVec 2) (ta : TA) (pm : Pm)
  | pset (t0 : Tgt) (reg : BitVec 3) (ta : TA) (pm : Pm)
  | cpp (t0 : Tgt) (ctx : BitVec 2) (ta : TA) (pm : Pm)
  | twait (g : GF) (ctx : BitVec 2)
  | tread (g : GF) (ctx : BitVec 2)
  | wload (t0 : Tgt) (k : BitVec 2) (j : BitVec 2) (pm : Pm)
  | wmma (t0 : Tgt) (k : BitVec 2) (j : BitVec 2) (sat : Bool) (pm : Pm)
  | cvtt (t0 : Tgt) (n : BitVec 4) (pm : Pm)
  | spawn (g : GF) (place : SpawnPlace)
  | ref (pm : Pm)
  | drop (pm : Pm)
  | await (g : GF)
  | launch (t0 : Tgt) (ta : TA) (pm : Pm)
  | waitc (g : GF) (level : Level)
  | cancel (level : Level) (pm : Pm)
  | tnow (g : GF)
  | tickw (t0 : Tgt) (ta : TA) (pm : Pm)
  | swq (g : GF)
  | kvgrow (t0 : Tgt) (ta : TA) (pm : Pm)
  | sysrd (i : IF)
  | syswr (imm : BitVec 12) (pm : Pm)
  | prof (imm : BitVec 12) (pm : Pm)
  | self (g : GF)
  -- events (95)
  | blockActivate (a : Activation)
  | tokenArrive (m : TokMsg)
  | cellIssue (die pane cell : Nat)
  | readyPromote (f : Firing)
  | blockCommit (tid iter : Nat)
  | returnValueArrive (m : RetMsg)
  | dealChunk (launch : Nat)
  | refChangeArrive (m : RefMsg)
  | futureExitArrive (m : ExitMsg)
  | colourDrainDone (die colour : Nat)
  | allocRequestArrive (r : AllocReq)
  | quietSpill (arena : Nat)
  | spillComplete (arena : Nat)
  | allocationRelease (m : ReleaseMsg)
  | engineCmdStart (ctx : Nat)
  | gatherRow (ctx : Nat)
  | wloadRun (ctx : Nat)
  | wmmaRow (ctx : Nat)
  | cvttRow (ctx : Nat)
  | engineCmdEnd (ctx : Nat)
  | granuleWake (f : Firing)
  | awaitWake (f : Firing)
  | twaitWake (f : Firing)
  | waitcWake (f : Firing)
  | launchComplete (launch : Nat)
  | levelComplete (level : Level) (key : Nat)
  | phaseBegin (job : Nat)
  | hostInboxWrite (vi slot : Nat) (v : BitVec 512)
  | inboxLoad (vi : Nat)
  | inboxSeal (vi : Nat)
  | inboxPhase (vi : Nat)
  | inboxLaunch (vi : Nat)
  | inboxCancel (vi : Nat)
  | inboxEnd (vi : Nat)
  | shutterRaise (graph : Nat)
  | shutterMarkerArrive (graph cell : Nat)
  | cutComplete (graph : Nat)
  | savePagesWrite (graph : Nat)
  | contextResume (graph : Nat)
  | fwTaskResume (tid : Nat)
  | fwTaskReclaim (tid : Nat)
  | parityError (f : Firing) (port : Port)
  | pageFaultAnswer (die vi va : Nat) (entry : Option (BitVec 64))
  | pageWalk (m : WalkMsg)
  | tlbInvalidate (die vi lo hi : Nat)
  | invalidateComplete (id : Nat)
  | bindRecordWrite (die index : Nat) (v : BitVec 64)
  | bindHeldApply (die index : Nat)
  | homeLineFill (line : Nat)
  | globalWritePerform (m : WriteMsg)
  | homeRead (m : ReadMsg)
  | atomicPerform (m : AtomMsg)
  | scrubRow (pane : Nat)
  | eccWriteback (pane row : Nat)
  | ptpMessage (m : PtpMsg)
  | tick (source : Nat)
  | graceExpiry (source : Nat)
  | tickDeferredLaunch (source : Nat)
  | ingestPacket (p : Packet)
  | tickSetWrite (w : TickSet)
  | streamSetWrite (w : SysW)
  | viCtlWrite (w : SysW)
  | badnodeWrite (w : SysW)
  | perfCntClearRead (pane c : Nat)
  | triggerWrite (w : SysW)
  | ovpWrite (w : SysW)
  | sysregWrite (w : SysW)
  | latchPropagate (die : Nat)
  | mailboxAnswer (pane : Nat) (page : Option Nat)
  | grantCacheRefill (pane page : Nat)
  | remoteMemoryRead (r : RemoteRead)
  | remoteMemoryWrite (w : RemoteWrite)
  | remoteAmo (r : RemoteAmo)
  | remoteMst (w : RemoteWrite) (graph : Nat)
  | remoteSpawn (r : RemoteSpawn)
  | remoteCount (c : RemoteCount)
  | viConfigure (c : ViConf)
  | viUnconfigure (vi : Nat)
  | reset (outs : List BootOut)
  | startLogRead
  | lifecycleMove (dest : Lifecycle) (signed : Bool)
  | attestationRequest (nonce : BitVec 256)
  | powerThrottle (die : Nat)
  | clockRestore (die : Nat)
  | thermalThrottle (die : Nat)
  | thermalStop (die : Nat)
  | ptpMasterLoss
  deriving DecidableEq, Repr

end Sys2Proof
end

