-- ==== Sys2Proof/WellFormed.lean ====
section
/-! DEFINITION. What a well-formed instruction word is, apart from its block: the field limits of R93 to R96
(`Instr.fieldsOk`, which the decoder checks: a word outside them is not an instruction, R102) and the context-free target
rules of R89, R91 and R145 (`Instr.targetsOk`, check 5 of R98). -/

namespace Sys2Proof

/-- Tags that the loads and stores accept (R94, R66): integer, float, narrow float, predicate or reference. -/
def Tag.loadable : Tag → Bool
  | .null | .poison | .tern | .bi => false
  | _ => true

/-- Integer tags (R64). -/
def Tag.isInt : Tag → Bool
  | .i8 | .n8 | .i16 | .n16 | .i32 | .n32 | .i64 | .n64 => true
  | _ => false

/-- FMT of AADD, AMIN, AMAX (R154). -/
def Tag.atomArith : Tag → Bool
  | .i32 | .n32 | .i64 | .n64 | .fp32 | .fp64 | .bf16 => true
  | _ => false

/-- FMT of AAND, AOR, AXOR (R154). -/
def Tag.atomLogic : Tag → Bool
  | .i32 | .n32 | .i64 | .n64 => true
  | _ => false

/-- FMT of ASWP (R154). -/
def Tag.atomSwap : Tag → Bool
  | .i32 | .n32 | .i64 | .n64 | .fp32 | .fp64 | .addr | .handle | .time => true
  | _ => false

/-- FMT of ACAS (R154). -/
def Tag.atomCas : Tag → Bool
  | .i32 | .n32 | .i64 | .n64 | .addr => true
  | _ => false

/-- FMT of LAMO for each operation (R94, R162). -/
def lamoFmtOk : AtomOp → Tag → Bool
  | .add, f | .min, f | .max, f => f.atomArith
  | .and, f | .or, f | .xor, f => f.atomLogic
  | .swp, f => f.loadable && f != .future
  | .cas, _ => false

/-- FMT of RETAG (R96): any code but the tile tags and the reserved ones. -/
def Tag.retagOk : Tag → Bool
  | .tern | .bi => false
  | _ => true

/-- FMT of CVT and CVTZ (R96): codes 0x01 to 0x09 and 0x0D to 0x15. -/
def Tag.cvtOk : Tag → Bool
  | .null | .pred | .handle | .future | .tern | .bi | .poison => false
  | _ => true

/-- An immediate of 0 to 2,047 (R93). -/
def immNonneg (i : BitVec 12) : Bool := i.toNat < 2048

/-- The field limits of R93 to R96: a word that breaks them is not an instruction (R102). -/
def Instr.fieldsOk : Instr → Bool
  | .retag c => c.fmt.retagOk
  | .cvt c | .cvtz c => c.fmt.cvtOk
  | .pld i => i.imm.toNat < 8
  | .shli i | .shri i | .sari i => i.imm.toNat < 64
  | .trap i _ | .bkpt i _ | .syswr i _ | .prof i _ => immNonneg i
  | .sysrd i => immNonneg i.imm
  | .ld m => m.fmt.loadable
  | .st _ f _ _ | .mst _ f _ _ => f.loadable
  | .aadd m | .amin m | .amax m => m.fmt.atomArith
  | .aand m | .aor m | .axor m => m.fmt.atomLogic
  | .aswp m => m.fmt.atomSwap
  | .acas m => m.fmt.atomCas
  | .lld _ _ f _ _ | .lst f _ _ => f.loadable
  | .lamo _ op f _ _ => lamoFmtOk op f
  | .wload _ k _ _ | .wmma _ k _ _ _ => k != 3#2
  | .cvtt _ n _ => n != 0#4
  | _ => true

/-- Port X of slot 127 has the code of "no target" (R51, R89). -/
def tgtOk : Tgt → Bool
  | some d => d.slot != 127#7 || d.port != .x
  | none => true

/-- The two targets of a word differ (R89). -/
def distinctOk : Tgt → Tgt → Bool
  | some a, some b => a != b
  | _, _ => true

/-- Tag arithmetic needs a target (R91). -/
def taOk (ta : TA) (t0 t1 : Tgt) : Bool := ta == .same || t0.isSome || t1.isSome

def GF.ok (g : GF) : Bool := tgtOk g.t0 && tgtOk g.t1 && distinctOk g.t0 g.t1 && taOk g.ta g.t0 g.t1

def IF.ok (i : IF) : Bool := tgtOk i.t0 && taOk i.ta i.t0 none

def CF.ok (c : CF) : Bool := tgtOk c.t0 && tgtOk c.t1 && distinctOk c.t0 c.t1

/-- The T0 of a returning word: none, or port L (of a WRITE) (R145, R169). -/
def retOk : Tgt → Bool
  | some d => d.port == .l
  | none => true

/-- The context-free part of check 5 (R98). -/
def Instr.targetsOk : Instr → Bool
  | .read t0 t1 _ => tgtOk t0 && tgtOk t1 && distinctOk t0 t1
  | .sel t0 t1 ta => tgtOk t0 && tgtOk t1 && distinctOk t0 t1 && taOk ta t0 t1
  | .mov g | .nul g | .tagof g | .mulh g | .div g | .rem g | .fma g | .min g | .max g | .abs g | .neg g => g.ok
  | .add g _ | .sub g _ | .mul g _ | .tst g _ => g.ok
  | .and g | .or g | .xor g | .not g | .shl g | .shr g | .sar g | .clz g | .popc g | .bfx g => g.ok
  | .sqrt g | .rcp g | .rsqrt g | .exp2 g | .log2 g | .tanh g | .ldexp g | .fclass g => g.ok
  | .red g _ | .alloc g _ | .twait g _ | .tread g _ | .spawn g _ | .waitc g _ => g.ok
  | .await g | .tnow g | .swq g | .self g => g.ok
  | .movi i | .pld i | .addi i | .muli i | .teqi i | .tlti i | .andi i | .ori i | .xori i => i.ok
  | .shli i | .shri i | .sari i | .sysrd i => i.ok
  | .retag c | .cvt c | .cvtz c => c.ok
  | .ld m => tgtOk m.t0
  | .lld t0 _ _ _ _ | .few t0 _ _ | .lsz t0 _ _ => tgtOk t0
  | .aadd m | .amin m | .amax m | .aand m | .aor m | .axor m | .aswp m | .acas m => tgtOk m.t0 && retOk m.t0
  | .lamo t0 _ _ _ _ | .barr t0 _ _ | .wload t0 _ _ _ | .wmma t0 _ _ _ _ | .cvtt t0 _ _ => tgtOk t0 && retOk t0
  | .cp t0 _ _ ta _ | .cpg t0 _ ta _ | .cps t0 _ ta _ | .pset t0 _ ta _ | .cpp t0 _ ta _ | .launch t0 ta _
  | .tickw t0 ta _ | .kvgrow t0 ta _ => tgtOk t0 && retOk t0 && taOk ta t0 none
  | _ => true

/-- A well-formed instruction. -/
def Instr.wf (i : Instr) : Bool := i.fieldsOk && i.targetsOk

end Sys2Proof
end

