-- ==== Sys2Proof/Decode.lean ====
section
/-! DEFINITION. The decoder of the Q4's instruction words (R87 to R97), total and rejecting by name, and after it the encoder
written from the same tables. Bit 0 is the least significant bit of the word (R7). -/

namespace Sys2Proof

/-- Why a word is not an instruction (R102). -/
inductive Reject where
  | opcode (op : Nat)   -- opcode 0x00 or a "—" code of R97
  | pm                  -- PM = 01 (R90)
  | bk                  -- BK = 11 (R92)
  | reserved            -- R88: a zero bit, an unused SUB bit or an unused target holds another value
  | field               -- a field value outside R93 to R96
  | target              -- R169: a T1 other than 0x1FF on a word whose value returns after commit
  | ta                  -- TA other than 00 on a word that has no targets (R91)
  | short               -- fewer than four bytes
  deriving DecidableEq, Repr

/-- Bits [lo+width-1 : lo] of a word. -/
def fld (w : Word) (lo width : Nat) : Nat := w.toNat / 2 ^ lo % 2 ^ width

/-! ### Codes of the fields -/

def Tag.code : Tag → Nat
  | .null => 0x00 | .i8 => 0x01 | .n8 => 0x02 | .i16 => 0x03 | .n16 => 0x04 | .i32 => 0x05 | .n32 => 0x06
  | .i64 => 0x07 | .n64 => 0x08 | .addr => 0x09 | .pred => 0x0A | .handle => 0x0B | .future => 0x0C | .fp64 => 0x0D
  | .fp32 => 0x0E | .fp16 => 0x0F | .bf16 => 0x10 | .e4m3 => 0x11 | .e5m2 => 0x12 | .e2m1 => 0x13 | .e8m0 => 0x14
  | .time => 0x15 | .tern => 0x16 | .bi => 0x17 | .poison => 0x1F

/-- The tag of a code (R64); 0x18 to 0x1E are reserved. -/
def Tag.ofCode : Nat → Option Tag
  | 0x00 => some .null | 0x01 => some .i8 | 0x02 => some .n8 | 0x03 => some .i16 | 0x04 => some .n16
  | 0x05 => some .i32 | 0x06 => some .n32 | 0x07 => some .i64 | 0x08 => some .n64 | 0x09 => some .addr
  | 0x0A => some .pred | 0x0B => some .handle | 0x0C => some .future | 0x0D => some .fp64 | 0x0E => some .fp32
  | 0x0F => some .fp16 | 0x10 => some .bf16 | 0x11 => some .e4m3 | 0x12 => some .e5m2 | 0x13 => some .e2m1
  | 0x14 => some .e8m0 | 0x15 => some .time | 0x16 => some .tern | 0x17 => some .bi | 0x1F => some .poison
  | _ => none

def Port.code : Port → Nat
  | .l => 0 | .r => 1 | .p => 2 | .x => 3

def Port.ofCode : Nat → Port
  | 0 => .l | 1 => .r | 2 => .p | _ => .x

/-- A target's nine bits (R89). -/
def tgtCode : Tgt → Nat
  | some d => d.slot.toNat * 4 + d.port.code
  | none => 0x1FF

def tgtOf (n : Nat) : Tgt := if n = 0x1FF then none else some ⟨BitVec.ofNat 7 (n / 4), Port.ofCode (n % 4)⟩

def TA.code : TA → Nat
  | .same => 0 | .next => 1 | .zero => 2 | .prev => 3

def TA.ofCode : Nat → TA
  | 0 => .same | 1 => .next | 2 => .zero | _ => .prev

def Pm.code : Pm → Nat
  | .always => 0 | .onTrue => 2 | .onFalse => 3

/-- PM (R90): 01 is not an instruction. -/
def Pm.ofCode : Nat → Except Reject Pm
  | 0 => .ok .always | 2 => .ok .onTrue | 3 => .ok .onFalse | _ => .error .pm

def Scope.code : Scope → Nat
  | .pane => 0 | .die => 1 | .device => 2 | .system => 3

def Scope.ofCode : Nat → Scope
  | 0 => .pane | 1 => .die | 2 => .device | _ => .system

/-- Q of the global accesses (R94). -/
def Order.code : Order → Nat
  | .plain => 0
  | .ordered s => 8 + s.code

def Order.ofCode (q : Nat) : Except Reject Order :=
  if q = 0 then .ok .plain else if 8 ≤ q ∧ q < 12 then .ok (.ordered (Scope.ofCode (q - 8))) else .error .field

def BranchKind.code : BranchKind → Nat
  | .jump => 0 | .call => 1 | .next => 2

def BranchKind.ofCode : Nat → Except Reject BranchKind
  | 0 => .ok .jump | 1 => .ok .call | 2 => .ok .next | _ => .error .bk

def Cmp.code : Cmp → Nat
  | .eq => 0 | .ne => 1 | .lt => 2 | .le => 3 | .gt => 4 | .ge => 5 | .un => 6 | .ord => 7

def Cmp.ofCode : Nat → Cmp
  | 0 => .eq | 1 => .ne | 2 => .lt | 3 => .le | 4 => .gt | 5 => .ge | 6 => .un | _ => .ord

def RedKind.code : RedKind → Nat
  | .add => 0 | .min => 1 | .max => 2 | .and => 3 | .or => 4 | .xor => 5

def RedKind.ofCode : Nat → Except Reject RedKind
  | 0 => .ok .add | 1 => .ok .min | 2 => .ok .max | 3 => .ok .and | 4 => .ok .or | 5 => .ok .xor | _ => .error .field

def LldWait.code : LldWait → Nat
  | .none => 0 | .keep => 1 | .take => 2

def LldWait.ofCode : Nat → Except Reject LldWait
  | 0 => .ok .none | 1 => .ok .keep | 2 => .ok .take | _ => .error .field

def AtomOp.code : AtomOp → Nat
  | .add => 0 | .min => 1 | .max => 2 | .and => 3 | .or => 4 | .xor => 5 | .swp => 6 | .cas => 7

/-- LAMO's operation in Q (R94). -/
def AtomOp.ofCode : Nat → Except Reject AtomOp
  | 0 => .ok .add | 1 => .ok .min | 2 => .ok .max | 3 => .ok .and | 4 => .ok .or | 5 => .ok .xor | 6 => .ok .swp
  | _ => .error .field

def SpawnPlace.code : SpawnPlace → Nat
  | .region => 0 | .die => 1 | .any => 2

def SpawnPlace.ofCode : Nat → Except Reject SpawnPlace
  | 0 => .ok .region | 1 => .ok .die | 2 => .ok .any | _ => .error .field

def Level.code : Level → Nat
  | .launch => 0 | .graph => 1 | .phase => 2 | .job => 3

def Level.ofCode : Nat → Except Reject Level
  | 0 => .ok .launch | 1 => .ok .graph | 2 => .ok .phase | 3 => .ok .job | _ => .error .field

def Bool.ofCode (n : Nat) : Bool := n = 1

/-- A FMT code as a tag; the reserved codes are outside R94 and R96. -/
def fmtOf (n : Nat) : Except Reject Tag :=
  match Tag.ofCode n with
  | some t => .ok t
  | none => .error .field

/-! ### Formats (R87) -/

def pmOf (w : Word) : Except Reject Pm := Pm.ofCode (fld w 7 2)
def t0Of (w : Word) : Tgt := tgtOf (fld w 23 9)
def t1Of (w : Word) : Tgt := tgtOf (fld w 14 9)
def taOf (w : Word) : TA := TA.ofCode (fld w 9 2)
def subOf (w : Word) : Nat := fld w 11 3

/-- Format G: its common fields (R87). -/
def gfOf (w : Word) : Except Reject GF :=
  match pmOf w with
  | .ok pm => .ok ⟨t0Of w, t1Of w, taOf w, pm⟩
  | .error e => .error e

/-- Format I. -/
def ifOf (w : Word) : Except Reject IF :=
  match pmOf w with
  | .ok pm => .ok ⟨t0Of w, BitVec.ofNat 12 (fld w 11 12), taOf w, pm⟩
  | .error e => .error e

/-- Format C with a tag in FMT. -/
def cfOf (w : Word) : Except Reject CF :=
  match pmOf w, fmtOf (fld w 9 5) with
  | .ok pm, .ok f => .ok ⟨t0Of w, t1Of w, f, pm⟩
  | .error e, _ => .error e
  | _, .error e => .error e

/-- Format M with a tag in FMT and an order in Q. -/
def mfOf (w : Word) : Except Reject MF :=
  match pmOf w, fmtOf (fld w 14 5), Order.ofCode (fld w 19 4) with
  | .ok pm, .ok f, .ok o => .ok ⟨t0Of w, o, f, BitVec.ofNat 5 (fld w 9 5), pm⟩
  | .error e, _, _ => .error e
  | _, .error e, _ => .error e
  | _, _, .error e => .error e

/-- R88: a place that must hold a fixed value. -/
def need (b : Bool) (e : Except Reject Instr) : Except Reject Instr := if b then e else .error .reserved

/-- A format-G word with SUB = 000. -/
def plainG (w : Word) (k : GF → Instr) : Except Reject Instr :=
  need (subOf w = 0) ((gfOf w).map k)

/-- T1 of a word whose value returns after commit is 0x1FF (R169). -/
def noT1 (w : Word) (e : Except Reject Instr) : Except Reject Instr := if fld w 14 9 = 0x1FF then e else .error .target

/-- A format-G word whose value returns (R168, R169); `k` sees T0, TA and PM. -/
def retG (w : Word) (k : Tgt → TA → Pm → Except Reject Instr) : Except Reject Instr :=
  noT1 w ((gfOf w).bind fun g => k g.t0 g.ta g.pm)

/-- A format-G word without targets: T0 and T1 are 0x1FF (R88); `decode` looks at its TA. -/
def bareG (w : Word) (k : Pm → Except Reject Instr) : Except Reject Instr :=
  need (fld w 14 9 = 0x1FF && fld w 23 9 = 0x1FF) ((pmOf w).bind k)

/-- A format-I word without target: T0 is 0x1FF (R93); `decode` looks at its TA. -/
def bareI (w : Word) (k : BitVec 12 → Pm → Instr) : Except Reject Instr :=
  need (fld w 23 9 = 0x1FF) ((pmOf w).map (k (BitVec.ofNat 12 (fld w 11 12))))

/-- A format-M word with FMT = 0x00 and Q = 0b0000. -/
def bareM (w : Word) (t0Free : Bool) (k : Tgt → BitVec 5 → Pm → Instr) : Except Reject Instr :=
  need (t0Free || fld w 23 9 = 0x1FF)
    (if fld w 14 5 = 0 ∧ fld w 19 4 = 0 then (pmOf w).map (k (t0Of w) (BitVec.ofNat 5 (fld w 9 5)))
     else .error .field)

/-- A format-C word whose FMT field holds other things than a tag (WLOAD, WMMA, CVTT). -/
def tileC (w : Word) (k : Tgt → Pm → Except Reject Instr) : Except Reject Instr :=
  noT1 w ((pmOf w).bind fun pm => k (t0Of w) pm)

/-- The arithmetic words with SUB[0] = saturate (R95). -/
def satG (w : Word) (k : GF → Bool → Instr) : Except Reject Instr :=
  need (subOf w < 2) ((gfOf w).map fun g => k g (Bool.ofCode (subOf w)))

/-- Engine words with a context in SUB[1:0] and SUB[2] = 0. -/
def ctxG (w : Word) (k : Tgt → BitVec 2 → TA → Pm → Instr) : Except Reject Instr :=
  retG w fun t0 ta pm => need (subOf w < 4) (.ok (k t0 (BitVec.ofNat 2 (subOf w)) ta pm))

/-! ### The opcode map (R97), by the upper three bits of OP -/

/-- DEDUCED (log 20): a SEL whose PM is not 00 is refused by R90, which names no check; its PM is a field, check 4. -/
def decode0 (op : Nat) (w : Word) : Except Reject Instr :=
  match op with
  | 0x01 => need (fld w 13 1 = 0) (.ok (.read (t0Of w) (t1Of w) (BitVec.ofNat 6 (fld w 7 6))))
  | 0x02 => need (fld w 20 12 = 0)
      ((pmOf w).map (.write (BitVec.ofNat 5 (fld w 15 5)) (BitVec.ofNat 6 (fld w 9 6))))
  | 0x03 => plainG w .mov
  | 0x04 => (ifOf w).map .movi
  | 0x05 => plainG w .nul
  | 0x06 => need (subOf w = 0) (if fld w 7 2 = 0 then .ok (.sel (t0Of w) (t1Of w) (taOf w)) else .error .field)
  | 0x07 => (cfOf w).map .retag
  | 0x08 => (ifOf w).map .pld
  | 0x09 => plainG w .tagof
  | 0x0A => match pmOf w, BranchKind.ofCode (fld w 9 2) with
      | .ok pm, .ok bk => .ok (.br (BitVec.ofNat 21 (fld w 11 21)) bk pm)
      | .error e, _ => .error e
      | _, .error e => .error e
  | 0x0B => bareG w fun pm => if subOf w < 2 then .ok (.brr (Bool.ofCode (subOf w)) pm) else .error .field
  | 0x0C => bareG w fun pm => need (subOf w = 0) (.ok (.exit pm))
  | 0x0D => bareI w .trap
  | 0x0E => bareI w .bkpt
  | 0x0F => need (fld w 23 9 = 0x1FF)
      (if fld w 14 5 = 0 ∧ 8 ≤ fld w 19 4 ∧ fld w 19 4 < 12 then
        (pmOf w).map (.fence (Scope.ofCode (fld w 19 4 - 8)) (BitVec.ofNat 5 (fld w 9 5)))
       else .error .field)
  | _ => .error (.opcode op)

def decode1 (op : Nat) (w : Word) : Except Reject Instr :=
  match op with
  | 0x10 => satG w .add
  | 0x11 => satG w .sub
  | 0x12 => satG w .mul
  | 0x13 => plainG w .mulh
  | 0x14 => plainG w .div
  | 0x15 => plainG w .rem
  | 0x16 => plainG w .fma
  | 0x17 => plainG w .min
  | 0x18 => plainG w .max
  | 0x19 => plainG w .abs
  | 0x1A => plainG w .neg
  | 0x1B => (ifOf w).map .addi
  | 0x1C => (ifOf w).map .muli
  | 0x1D => (gfOf w).map fun g => .tst g (Cmp.ofCode (subOf w))
  | 0x1E => (ifOf w).map .teqi
  | 0x1F => (ifOf w).map .tlti
  | _ => .error (.opcode op)

def decode2 (op : Nat) (w : Word) : Except Reject Instr :=
  match op with
  | 0x20 => plainG w .and
  | 0x21 => plainG w .or
  | 0x22 => plainG w .xor
  | 0x23 => plainG w .not
  | 0x24 => (ifOf w).map .andi
  | 0x25 => (ifOf w).map .ori
  | 0x26 => (ifOf w).map .xori
  | 0x27 => plainG w .shl
  | 0x28 => plainG w .shr
  | 0x29 => plainG w .sar
  | 0x2A => (ifOf w).map .shli
  | 0x2B => (ifOf w).map .shri
  | 0x2C => (ifOf w).map .sari
  | 0x2D => plainG w .clz
  | 0x2E => plainG w .popc
  | 0x2F => plainG w .bfx
  | _ => .error (.opcode op)

def decode3 (op : Nat) (w : Word) : Except Reject Instr :=
  match op with
  | 0x30 => plainG w .sqrt
  | 0x31 => plainG w .rcp
  | 0x32 => plainG w .rsqrt
  | 0x33 => plainG w .exp2
  | 0x34 => plainG w .log2
  | 0x35 => plainG w .tanh
  | 0x36 => (cfOf w).map .cvt
  | 0x37 => (cfOf w).map .cvtz
  | 0x38 => plainG w .ldexp
  | 0x39 => plainG w .fclass
  | 0x3A => match gfOf w, RedKind.ofCode (subOf w) with
      | .ok g, .ok k => .ok (.red g k)
      | .error e, _ => .error e
      | _, .error e => .error e
  | _ => .error (.opcode op)

def decode4 (op : Nat) (w : Word) : Except Reject Instr :=
  match op with
  | 0x40 => (mfOf w).map .ld
  | 0x41 => need (fld w 23 9 = 0x1FF) ((mfOf w).map fun m => .st m.ord m.fmt m.lsid m.pm)
  | 0x42 => (mfOf w).map .aadd
  | 0x43 => (mfOf w).map .amin
  | 0x44 => (mfOf w).map .amax
  | 0x45 => (mfOf w).map .aand
  | 0x46 => (mfOf w).map .aor
  | 0x47 => (mfOf w).map .axor
  | 0x48 => (mfOf w).map .aswp
  | 0x49 => (mfOf w).map .acas
  | 0x4A => need (fld w 23 9 = 0x1FF) ((mfOf w).map fun m => .mst m.ord m.fmt m.lsid m.pm)
  | 0x4B => bareM w false fun _ l pm => .pref l pm
  | _ => .error (.opcode op)

def decode5 (op : Nat) (w : Word) : Except Reject Instr :=
  match op with
  | 0x50 => match pmOf w, fmtOf (fld w 14 5), LldWait.ofCode (fld w 19 4) with
      | .ok pm, .ok f, .ok q => .ok (.lld (t0Of w) q f (BitVec.ofNat 5 (fld w 9 5)) pm)
      | .error e, _, _ => .error e
      | _, .error e, _ => .error e
      | _, _, .error e => .error e
  | 0x51 => need (fld w 23 9 = 0x1FF)
      (match pmOf w, fmtOf (fld w 14 5) with
       | .ok pm, .ok f => if fld w 19 4 = 0 then .ok (.lst f (BitVec.ofNat 5 (fld w 9 5)) pm) else .error .field
       | .error e, _ => .error e
       | _, .error e => .error e)
  | 0x52 => match pmOf w, fmtOf (fld w 14 5), AtomOp.ofCode (fld w 19 4) with
      | .ok pm, .ok f, .ok q => .ok (.lamo (t0Of w) q f (BitVec.ofNat 5 (fld w 9 5)) pm)
      | .error e, _, _ => .error e
      | _, .error e, _ => .error e
      | _, _, .error e => .error e
  | 0x53 => bareM w true .few
  | 0x54 => bareM w false fun _ l pm => .fes l pm
  | 0x55 => bareM w false fun _ l pm => .binit l pm
  | 0x56 => bareM w true .barr
  | 0x57 => bareM w true .lsz
  | _ => .error (.opcode op)

def decode6 (op : Nat) (w : Word) : Except Reject Instr :=
  match op with
  | 0x60 => (gfOf w).map fun g => .alloc g (BitVec.ofNat 3 (subOf w))
  | 0x61 => bareG w fun pm => need (subOf w = 0) (.ok (.free pm))
  | 0x62 => bareG w fun pm => need (subOf w = 0) (.ok (.rels pm))
  | 0x63 => retG w fun t0 ta pm => .ok (.cp t0 (BitVec.ofNat 2 (subOf w)) (Bool.ofCode (subOf w / 4)) ta pm)
  | 0x64 => ctxG w .cpg
  | 0x65 => ctxG w .cps
  | 0x66 => retG w fun t0 ta pm => .ok (.pset t0 (BitVec.ofNat 3 (subOf w)) ta pm)
  | 0x67 => ctxG w .cpp
  | 0x68 => need (subOf w < 4) ((gfOf w).map fun g => .twait g (BitVec.ofNat 2 (subOf w)))
  | 0x69 => need (subOf w < 4) ((gfOf w).map fun g => .tread g (BitVec.ofNat 2 (subOf w)))
  | 0x6A => tileC w fun t0 pm => if fld w 9 1 = 0 then
        .ok (.wload t0 (BitVec.ofNat 2 (fld w 12 2)) (BitVec.ofNat 2 (fld w 10 2)) pm) else .error .field
  | 0x6B => tileC w fun t0 pm =>
        .ok (.wmma t0 (BitVec.ofNat 2 (fld w 12 2)) (BitVec.ofNat 2 (fld w 10 2)) (Bool.ofCode (fld w 9 1)) pm)
  | 0x6C => tileC w fun t0 pm => if fld w 13 1 = 0 then .ok (.cvtt t0 (BitVec.ofNat 4 (fld w 9 4)) pm)
        else .error .field
  | _ => .error (.opcode op)

def decode7 (op : Nat) (w : Word) : Except Reject Instr :=
  match op with
  | 0x70 => match gfOf w, SpawnPlace.ofCode (subOf w) with
      | .ok g, .ok p => .ok (.spawn g p)
      | .error e, _ => .error e
      | _, .error e => .error e
  | 0x71 => bareG w fun pm => need (subOf w = 0) (.ok (.ref pm))
  | 0x72 => bareG w fun pm => need (subOf w = 0) (.ok (.drop pm))
  | 0x73 => plainG w .await
  | 0x74 => retG w fun t0 ta pm => need (subOf w = 0) (.ok (.launch t0 ta pm))
  | 0x75 => match gfOf w, Level.ofCode (subOf w) with
      | .ok g, .ok l => .ok (.waitc g l)
      | .error e, _ => .error e
      | _, .error e => .error e
  | 0x76 => bareG w fun pm => (Level.ofCode (subOf w)).map fun l => .cancel l pm
  | 0x77 => plainG w .tnow
  | 0x78 => retG w fun t0 ta pm => need (subOf w = 0) (.ok (.tickw t0 ta pm))
  | 0x79 => plainG w .swq
  | 0x7A => retG w fun t0 ta pm => need (subOf w = 0) (.ok (.kvgrow t0 ta pm))
  | 0x7B => (ifOf w).map .sysrd
  | 0x7C => bareI w .syswr
  | 0x7D => bareI w .prof
  | 0x7E => plainG w .self
  | _ => .error (.opcode op)

/-- The layout of the word, before the limits of R93 to R96. -/
def decodeRaw (w : Word) : Except Reject Instr :=
  match fld w 4 3 with
  | 0 => decode0 (fld w 0 7) w
  | 1 => decode1 (fld w 0 7) w
  | 2 => decode2 (fld w 0 7) w
  | 3 => decode3 (fld w 0 7) w
  | 4 => decode4 (fld w 0 7) w
  | 5 => decode5 (fld w 0 7) w
  | 6 => decode6 (fld w 0 7) w
  | _ => decode7 (fld w 0 7) w

/-- The words of formats G and I that never have a target (R93, R95): their TA is 00. -/
def Instr.bare : Instr → Bool
  | .brr _ _ | .exit _ | .trap _ _ | .bkpt _ _ | .free _ | .rels _ | .ref _ | .drop _ | .cancel _ _ | .syswr _ _ | .prof _ _ => true
  | _ => false

/-- The word with 0x1FF in T1. -/
def withoutT1 (w : Word) : Word := w ||| BitVec.ofNat 32 (0x1FF * 2 ^ 14)

/-- The decoder: an instruction, or the reason why the word is none (R91, R102). A T1 that R169 refuses is named where the
word is an instruction without it: check 4 comes before check 5 (R98). -/
def decode (w : Word) : Except Reject Instr :=
  match decodeRaw w with
  | .ok i => if !i.fieldsOk then .error .field else if i.bare && fld w 9 2 ≠ 0 then .error .ta else .ok i
  | .error .target =>
    (match decodeRaw (withoutT1 w) with
      | .ok i => if !i.fieldsOk then .error .field else .error .target
      | .error e => .error e)
  | .error e => .error e

/-- A word from its four bytes, lowest address first (R7). -/
def wordOfBytes (b0 b1 b2 b3 : Byte) : Word :=
  BitVec.ofNat 32 (b0.toNat + 256 * b1.toNat + 65536 * b2.toNat + 16777216 * b3.toNat)

/-- The four bytes of a word, lowest address first (R7). -/
def bytesOfWord (w : Word) : List Byte :=
  [BitVec.ofNat 8 w.toNat, BitVec.ofNat 8 (w.toNat / 256), BitVec.ofNat 8 (w.toNat / 65536),
   BitVec.ofNat 8 (w.toNat / 16777216)]

/-- Decoding any bytes: the first instruction and the bytes after it. -/
def decodeBytes : List Byte → Except Reject (Instr × List Byte)
  | b0 :: b1 :: b2 :: b3 :: rest => (decode (wordOfBytes b0 b1 b2 b3)).map fun i => (i, rest)
  | _ => .error .short

/-! ### The encoder -/

def encG (op sub : Nat) (g : GF) : Nat :=
  tgtCode g.t0 * 2 ^ 23 + tgtCode g.t1 * 2 ^ 14 + sub * 2 ^ 11 + g.ta.code * 2 ^ 9 + g.pm.code * 2 ^ 7 + op

def encI (op : Nat) (i : IF) : Nat :=
  tgtCode i.t0 * 2 ^ 23 + i.imm.toNat * 2 ^ 11 + i.ta.code * 2 ^ 9 + i.pm.code * 2 ^ 7 + op

def encC (op : Nat) (t0 t1 : Tgt) (fmt : Nat) (pm : Pm) : Nat :=
  tgtCode t0 * 2 ^ 23 + tgtCode t1 * 2 ^ 14 + fmt * 2 ^ 9 + pm.code * 2 ^ 7 + op

def encM (op : Nat) (t0 : Tgt) (q fmt : Nat) (lsid : BitVec 5) (pm : Pm) : Nat :=
  tgtCode t0 * 2 ^ 23 + q * 2 ^ 19 + fmt * 2 ^ 14 + lsid.toNat * 2 ^ 9 + pm.code * 2 ^ 7 + op

def encMF (op : Nat) (m : MF) : Nat := encM op m.t0 m.ord.code m.fmt.code m.lsid m.pm

/-- A format-G word whose T1 is 0x1FF. -/
def encR (op sub : Nat) (t0 : Tgt) (ta : TA) (pm : Pm) : Nat := encG op sub ⟨t0, none, ta, pm⟩

def b2n (b : Bool) : Nat := if b then 1 else 0

/-- The word of an instruction; none for an event, which has no encoding. -/
def encodeNat : Instr → Option Nat
  | .read t0 t1 r => some (tgtCode t0 * 2 ^ 23 + tgtCode t1 * 2 ^ 14 + r.toNat * 2 ^ 7 + 0x01)
  | .write w r pm => some (w.toNat * 2 ^ 15 + r.toNat * 2 ^ 9 + pm.code * 2 ^ 7 + 0x02)
  | .mov g => some (encG 0x03 0 g)
  | .movi i => some (encI 0x04 i)
  | .nul g => some (encG 0x05 0 g)
  | .sel t0 t1 ta => some (encG 0x06 0 ⟨t0, t1, ta, .always⟩)
  | .retag c => some (encC 0x07 c.t0 c.t1 c.fmt.code c.pm)
  | .pld i => some (encI 0x08 i)
  | .tagof g => some (encG 0x09 0 g)
  | .br off bk pm => some (off.toNat * 2 ^ 11 + bk.code * 2 ^ 9 + pm.code * 2 ^ 7 + 0x0A)
  | .brr c pm => some (encR 0x0B (b2n c) none .same pm)
  | .exit pm => some (encR 0x0C 0 none .same pm)
  | .trap i pm => some (encI 0x0D ⟨none, i, .same, pm⟩)
  | .bkpt i pm => some (encI 0x0E ⟨none, i, .same, pm⟩)
  | .fence s l pm => some (encM 0x0F none (8 + s.code) 0 l pm)
  | .add g s => some (encG 0x10 (b2n s) g)
  | .sub g s => some (encG 0x11 (b2n s) g)
  | .mul g s => some (encG 0x12 (b2n s) g)
  | .mulh g => some (encG 0x13 0 g)
  | .div g => some (encG 0x14 0 g)
  | .rem g => some (encG 0x15 0 g)
  | .fma g => some (encG 0x16 0 g)
  | .min g => some (encG 0x17 0 g)
  | .max g => some (encG 0x18 0 g)
  | .abs g => some (encG 0x19 0 g)
  | .neg g => some (encG 0x1A 0 g)
  | .addi i => some (encI 0x1B i)
  | .muli i => some (encI 0x1C i)
  | .tst g c => some (encG 0x1D c.code g)
  | .teqi i => some (encI 0x1E i)
  | .tlti i => some (encI 0x1F i)
  | .and g => some (encG 0x20 0 g)
  | .or g => some (encG 0x21 0 g)
  | .xor g => some (encG 0x22 0 g)
  | .not g => some (encG 0x23 0 g)
  | .andi i => some (encI 0x24 i)
  | .ori i => some (encI 0x25 i)
  | .xori i => some (encI 0x26 i)
  | .shl g => some (encG 0x27 0 g)
  | .shr g => some (encG 0x28 0 g)
  | .sar g => some (encG 0x29 0 g)
  | .shli i => some (encI 0x2A i)
  | .shri i => some (encI 0x2B i)
  | .sari i => some (encI 0x2C i)
  | .clz g => some (encG 0x2D 0 g)
  | .popc g => some (encG 0x2E 0 g)
  | .bfx g => some (encG 0x2F 0 g)
  | .sqrt g => some (encG 0x30 0 g)
  | .rcp g => some (encG 0x31 0 g)
  | .rsqrt g => some (encG 0x32 0 g)
  | .exp2 g => some (encG 0x33 0 g)
  | .log2 g => some (encG 0x34 0 g)
  | .tanh g => some (encG 0x35 0 g)
  | .cvt c => some (encC 0x36 c.t0 c.t1 c.fmt.code c.pm)
  | .cvtz c => some (encC 0x37 c.t0 c.t1 c.fmt.code c.pm)
  | .ldexp g => some (encG 0x38 0 g)
  | .fclass g => some (encG 0x39 0 g)
  | .red g k => some (encG 0x3A k.code g)
  | .ld m => some (encMF 0x40 m)
  | .st o f l pm => some (encM 0x41 none o.code f.code l pm)
  | .aadd m => some (encMF 0x42 m)
  | .amin m => some (encMF 0x43 m)
  | .amax m => some (encMF 0x44 m)
  | .aand m => some (encMF 0x45 m)
  | .aor m => some (encMF 0x46 m)
  | .axor m => some (encMF 0x47 m)
  | .aswp m => some (encMF 0x48 m)
  | .acas m => some (encMF 0x49 m)
  | .mst o f l pm => some (encM 0x4A none o.code f.code l pm)
  | .pref l pm => some (encM 0x4B none 0 0 l pm)
  | .lld t0 q f l pm => some (encM 0x50 t0 q.code f.code l pm)
  | .lst f l pm => some (encM 0x51 none 0 f.code l pm)
  | .lamo t0 op f l pm => some (encM 0x52 t0 op.code f.code l pm)
  | .few t0 l pm => some (encM 0x53 t0 0 0 l pm)
  | .fes l pm => some (encM 0x54 none 0 0 l pm)
  | .binit l pm => some (encM 0x55 none 0 0 l pm)
  | .barr t0 l pm => some (encM 0x56 t0 0 0 l pm)
  | .lsz t0 l pm => some (encM 0x57 t0 0 0 l pm)
  | .alloc g a => some (encG 0x60 a.toNat g)
  | .free pm => some (encR 0x61 0 none .same pm)
  | .rels pm => some (encR 0x62 0 none .same pm)
  | .cp t0 c rv ta pm => some (encR 0x63 (c.toNat + 4 * b2n rv) t0 ta pm)
  | .cpg t0 c ta pm => some (encR 0x64 c.toNat t0 ta pm)
  | .cps t0 c ta pm => some (encR 0x65 c.toNat t0 ta pm)
  | .pset t0 r ta pm => some (encR 0x66 r.toNat t0 ta pm)
  | .cpp t0 c ta pm => some (encR 0x67 c.toNat t0 ta pm)
  | .twait g c => some (encG 0x68 c.toNat g)
  | .tread g c => some (encG 0x69 c.toNat g)
  | .wload t0 k j pm => some (encC 0x6A t0 none (k.toNat * 8 + j.toNat * 2) pm)
  | .wmma t0 k j s pm => some (encC 0x6B t0 none (k.toNat * 8 + j.toNat * 2 + b2n s) pm)
  | .cvtt t0 n pm => some (encC 0x6C t0 none n.toNat pm)
  | .spawn g p => some (encG 0x70 p.code g)
  | .ref pm => some (encR 0x71 0 none .same pm)
  | .drop pm => some (encR 0x72 0 none .same pm)
  | .await g => some (encG 0x73 0 g)
  | .launch t0 ta pm => some (encR 0x74 0 t0 ta pm)
  | .waitc g l => some (encG 0x75 l.code g)
  | .cancel l pm => some (encR 0x76 l.code none .same pm)
  | .tnow g => some (encG 0x77 0 g)
  | .tickw t0 ta pm => some (encR 0x78 0 t0 ta pm)
  | .swq g => some (encG 0x79 0 g)
  | .kvgrow t0 ta pm => some (encR 0x7A 0 t0 ta pm)
  | .sysrd i => some (encI 0x7B i)
  | .syswr i pm => some (encI 0x7C ⟨none, i, .same, pm⟩)
  | .prof i pm => some (encI 0x7D ⟨none, i, .same, pm⟩)
  | .self g => some (encG 0x7E 0 g)
  | _ => none

/-- The words of a well-formed instruction. -/
def encode (i : Instr) : Option Word := (encodeNat i).map (BitVec.ofNat 32)

/-- The decoder on a word numbered as spec/opcode_table.json numbers it: the row's bits, the bits above them zero,
laid out as four bytes, lowest address first. -/
def decodeTableWord (nbits w : Nat) : Option Instr :=
  match decodeBytes (bytesOfWord (BitVec.ofNat 32 (w % 2 ^ nbits))) with
  | .ok (i, _) => some i
  | .error _ => none

end Sys2Proof
end

