-- ==== Sys2Proof/Machine/Formats.lean ====
section
/-! DEFINITION. Payloads of the format tags (R64, R67, R68) and the float formats (R69, R71): how many payload bits a tag
uses, how a payload is put into canonical form, and the exact value a payload stands for. -/

namespace Sys2Proof.Machine

/-- Payload bits a tag uses (R64). -/
def tagBits : Tag → Nat
  | .null | .poison | .tern | .bi => 0
  | .pred => 1
  | .e2m1 => 4
  | .i8 | .n8 | .e4m3 | .e5m2 | .e8m0 => 8
  | .i16 | .n16 | .fp16 | .bf16 => 16
  | .i32 | .n32 | .handle | .fp32 => 32
  | .addr => 52
  | .i64 | .n64 | .future | .fp64 | .time => 64

/-- The signed integer tags (R64). -/
def tagSigned : Tag → Bool
  | .i8 | .i16 | .i32 | .i64 => true
  | _ => false

/-- The Float tags of R122. -/
def tagFloat : Tag → Bool
  | .fp64 | .fp32 | .fp16 | .bf16 => true
  | _ => false

/-- The narrow floats of R71. -/
def tagNarrow : Tag → Bool
  | .e4m3 | .e5m2 | .e2m1 | .e8m0 => true
  | _ => false

/-- The numeric tags of R72: integers and all floats. -/
def tagNumeric (t : Tag) : Bool := t.isInt || tagFloat t || tagNarrow t

/-- The tags with 64-bit formats (R29). -/
def tagWide : Tag → Bool
  | .i64 | .n64 | .fp64 | .addr | .time | .future => true
  | _ => false

/-- The value of the low `w` bits of `n` as a two's complement integer. -/
def toSigned (w n : Nat) : Int :=
  let m := n % 2 ^ w
  if 2 * m < 2 ^ w then (m : Int) else (m : Int) - 2 ^ w

/-- `v` modulo 2^64 as a payload. -/
def payloadOfInt (v : Int) : Payload := BitVec.ofInt 64 v

/-- A payload in canonical form under a tag (R64): sign-extended for I8, I16, I32, zero above the used bits otherwise. -/
def canonical (t : Tag) (n : Nat) : Payload :=
  if tagSigned t then payloadOfInt (toSigned (tagBits t) n)
  else BitVec.ofNat 64 (n % 2 ^ tagBits t)

/-- A token with the value `n` modulo the tag's width. -/
def mkTok (t : Tag) (n : Nat) : Token := ⟨t, canonical t n⟩

/-- A token with the integer value `v` modulo the tag's width (R67). -/
def mkInt (t : Tag) (v : Int) : Token := mkTok t (v % 2 ^ tagBits t).toNat

/-- The used payload bits of a token (R64). -/
def tokBits (t : Token) : Nat := t.val.toNat % 2 ^ tagBits t.tag

/-- The mathematical value of an integer token: signed for I tags, unsigned for N tags (R67). -/
def tokInt (t : Token) : Int :=
  if tagSigned t.tag then toSigned (tagBits t.tag) t.val.toNat else (tokBits t : Int)

def nullTok : Token := ⟨.null, 0⟩
def poisonTok : Token := ⟨.poison, 0⟩
def predTok (b : Bool) : Token := ⟨.pred, if b then 1 else 0⟩
/-- The truth of a PRED token (R68). -/
def tokTrue (t : Token) : Bool := t.val.toNat % 2 = 1

/-- Least and greatest value of an integer tag (R67). -/
def intMin (t : Tag) : Int := if tagSigned t then -(2 ^ (tagBits t - 1)) else 0
def intMax (t : Tag) : Int := if tagSigned t then 2 ^ (tagBits t - 1) - 1 else 2 ^ tagBits t - 1

/-! ### Float formats -/

/-- A binary format: exponent and fraction bits, bias, the code of its largest finite magnitude, whether it has
infinities, and its canonical NaN if it has one (R69, R71). -/
structure FloatFmt where
  ebits  : Nat
  fbits  : Nat
  bias   : Nat
  maxFin : Nat
  hasInf : Bool
  nan    : Option Nat
  deriving DecidableEq, Repr

/-- An IEEE format: all ones in the exponent is infinity or NaN. -/
def ieeeFmt (ebits fbits bias : Nat) : FloatFmt :=
  ⟨ebits, fbits, bias, (2 ^ ebits - 1) * 2 ^ fbits - 1, true,
   some ((2 ^ ebits - 1) * 2 ^ fbits + 2 ^ (fbits - 1))⟩

/-- The format of a float tag with sign, exponent and fraction; E8M0 has a layout of its own (R75). -/
def fmtOfTag : Tag → Option FloatFmt
  | .fp64 => some (ieeeFmt 11 52 1023)
  | .fp32 => some (ieeeFmt 8 23 127)
  | .fp16 => some (ieeeFmt 5 10 15)
  | .bf16 => some (ieeeFmt 8 7 127)
  | .e5m2 => some (ieeeFmt 5 2 15)
  | .e4m3 => some ⟨4, 3, 7, 0x7E, false, some 0x7F⟩
  | .e2m1 => some ⟨2, 1, 1, 0x7, false, none⟩
  | _ => none

/-- The value a float code stands for: a NaN, an infinity, or (−1)^neg × m × 2^e exactly. -/
inductive FVal where
  | nan (signalling : Bool)
  | inf (neg : Bool)
  | fin (neg : Bool) (m : Nat) (e : Int)
  deriving DecidableEq, Repr

/-- Bit position of the sign. -/
def FloatFmt.signPos (f : FloatFmt) : Nat := f.ebits + f.fbits

/-- The value of a code of an IEEE-like format (R69, R71). A NaN is quiet when its top fraction bit is 1 (R128); E4M3's
NaN has one magnitude code, and R71 names no signalling one. -/
def unpackFmt (f : FloatFmt) (n : Nat) : FVal :=
  let mag := n % 2 ^ f.signPos
  let neg := decide (n / 2 ^ f.signPos % 2 = 1)
  let ex := mag / 2 ^ f.fbits
  let fr := mag % 2 ^ f.fbits
  if mag ≤ f.maxFin then
    if ex = 0 then .fin neg fr (1 - (f.bias : Int) - (f.fbits : Int))
    else .fin neg (2 ^ f.fbits + fr) ((ex : Int) - (f.bias : Int) - (f.fbits : Int))
  else if f.hasInf ∧ fr = 0 then .inf neg
  else .nan (decide (f.hasInf ∧ fr < 2 ^ (f.fbits - 1)))

/-- The value of a float token, E8M0 included: code c stands for 2^(c − 127), 0xFF is NaN (R71). DEDUCED (log 28): that NaN,
which has no fraction bit, is quiet. -/
def tokFVal (t : Token) : FVal :=
  match t.tag, fmtOfTag t.tag with
  | .e8m0, _ => if tokBits t = 0xFF then .nan false else .fin false 1 ((tokBits t : Int) - 127)
  | _, some f => unpackFmt f (tokBits t)
  | _, none => .fin (decide (tokInt t < 0)) (tokInt t).natAbs 0

/-- Sign and magnitude code as a token. -/
def packTok (t : Tag) (f : FloatFmt) (neg : Bool) (mag : Nat) : Token :=
  mkTok t ((if neg then 2 ^ f.signPos else 0) + mag)

end Sys2Proof.Machine
end

