-- ==== Sys2Proof/Machine/Flags.lean ====
section
/-! DEFINITION. The sticky flags of g61 (R209) and every rule that computes them from an exact value and its rounding
(R70, R72). -/

namespace Sys2Proof.Machine

abbrev FlagSet := BitVec 8

def fInexact   : FlagSet := 0x01#8
def fOverflow  : FlagSet := 0x02#8
def fUnderflow : FlagSet := 0x04#8
def fInvalid   : FlagSet := 0x08#8
def fDivzero   : FlagSet := 0x10#8
def fParamOob  : FlagSet := 0x20#8
def fUntracked : FlagSet := 0x40#8
def fSat       : FlagSet := 0x80#8

/-- A flag if a condition holds. -/
def flagIf (b : Bool) (f : FlagSet) : FlagSet := if b then f else 0#8

/-- Rounding modes: RNE of all arithmetic and of CVT, toward zero for CVTZ (R70, R72). -/
inductive Rounding where
  | nearestEven
  | towardZero
  deriving DecidableEq, Repr

/-- An exact magnitude m × 2^e, or, with `sticky`, a value strictly between m × 2^e and (m + 1) × 2^e. -/
structure Exact where
  m : Nat
  e : Int
  sticky : Bool
  deriving DecidableEq, Repr

/-- The multiple of 2^q nearest to an exact magnitude in a rounding mode, divided by 2^q, and whether it is inexact.
With `sticky`, the magnitude has more than two bits below 2^q, or the remainder decides. -/
def roundTo (mode : Rounding) (x : Exact) (q : Int) : Nat × Bool :=
  if q ≤ x.e then
    (x.m * 2 ^ (x.e - q).toNat, x.sticky)
  else
    let k := (q - x.e).toNat
    let n := x.m / 2 ^ k
    let r := x.m % 2 ^ k
    let half := 2 ^ (k - 1)
    let inexact := decide (r ≠ 0) || x.sticky
    match mode with
    | .towardZero => (n, inexact)
    | .nearestEven =>
      if r < half then (n, inexact)
      else if half < r || x.sticky then (n + 1, inexact)
      else (n + n % 2, inexact)

/-- A rounded magnitude: its code, which is above `maxFin` where the range is left, and what R70 signals. -/
structure Rounded where
  code    : Nat
  inexact : Bool
  tiny    : Bool
  deriving DecidableEq, Repr

/-- Rounding of a non-zero exact magnitude to a format, once, with subnormals kept and tininess detected after rounding
(R70). -/
def roundMag (f : FloatFmt) (mode : Rounding) (x : Exact) : Rounded :=
  let top : Int := (x.m.log2 : Int) + x.e
  let emin : Int := 1 - (f.bias : Int)
  let q := max (top - f.fbits) (emin - f.fbits)
  let (n, inexact) := roundTo mode x q
  let (n', _) := roundTo mode x (top - f.fbits)
  let tiny := decide (top + (if n' = 2 ^ (f.fbits + 1) then 1 else 0) < emin)
  ⟨(q + f.fbits + f.bias - 1).toNat * 2 ^ f.fbits + n, inexact, tiny⟩

/-- The token and flags of an arithmetic result with a sign and a non-zero exact magnitude (R70, R126): overflow gives
infinity, or with `.sat` the largest finite value. -/
def finishFloat (t : Tag) (f : FloatFmt) (sat neg : Bool) (x : Exact) : Token × FlagSet :=
  let r := roundMag f .nearestEven x
  if f.maxFin < r.code then
    if sat then (packTok t f neg f.maxFin, fSat ||| fOverflow ||| fInexact)
    else (packTok t f neg (f.maxFin + 1), fOverflow ||| fInexact)
  else
    (packTok t f neg r.code, flagIf r.inexact fInexact ||| flagIf (r.tiny && r.inexact) fUnderflow)

/-- The canonical NaN of a format (R69). -/
def nanTok (t : Tag) (f : FloatFmt) : Token := mkTok t (f.nan.getD 0)

/-- A canonical NaN with INVALID. -/
def invalidNan (t : Tag) (f : FloatFmt) : Token × FlagSet := (nanTok t f, fInvalid)

/-- The NaN result of operands of which some is a NaN: INVALID if one is signalling (R69). -/
def quietNan (t : Tag) (f : FloatFmt) (signalling : Bool) : Token × FlagSet :=
  (nanTok t f, flagIf signalling fInvalid)

/-- An infinity. -/
def infTok (t : Tag) (f : FloatFmt) (neg : Bool) : Token := packTok t f neg (f.maxFin + 1)

def FVal.isSnan : FVal → Bool
  | .nan s => s
  | _ => false

def FVal.isNan : FVal → Bool
  | .nan _ => true
  | _ => false

/-- Sum of two signed dyadics: sign, magnitude, exponent; `none` where the sum is zero. -/
def addDyadic (n1 : Bool) (m1 : Nat) (e1 : Int) (n2 : Bool) (m2 : Nat) (e2 : Int) : Option (Bool × Nat × Int) :=
  let e := min e1 e2
  let a : Int := (m1 * 2 ^ (e1 - e).toNat : Nat)
  let b : Int := (m2 * 2 ^ (e2 - e).toNat : Nat)
  let s := (if n1 then -a else a) + (if n2 then -b else b)
  if s = 0 then none else some (decide (s < 0), s.natAbs, e)

/-- −1, 0 or 1 as the first of two signed dyadics lies below, at or above the second; −0 equals +0. -/
def cmpDyadic (n1 : Bool) (m1 : Nat) (e1 : Int) (n2 : Bool) (m2 : Nat) (e2 : Int) : Int :=
  match addDyadic n1 m1 e1 (!n2) m2 e2 with
  | none => 0
  | some (neg, _, _) => if neg then -1 else 1

/-- IEEE order of two values that are no NaN. -/
def cmpFVal : FVal → FVal → Int
  | .inf a, .inf b => if a = b then 0 else if a then -1 else 1
  | .inf a, _ => if a then -1 else 1
  | _, .inf b => if b then 1 else -1
  | .fin n1 m1 e1, .fin n2 m2 e2 => cmpDyadic n1 m1 e1 n2 m2 e2
  | _, _ => 0

end Sys2Proof.Machine
end

