-- ==== Sys2Proof/Machine/Float.lean ====
section
/-! DEFINITION. Arithmetic on the Float tags (R126, R127, R128): each operation computes the exact value and rounds it
once. -/

namespace Sys2Proof.Machine

/-- The result for a signed dyadic or an exact zero of a given sign. -/
def finishDyadic (t : Tag) (f : FloatFmt) (sat : Bool) (zeroNeg : Bool) : Option (Bool × Nat × Int) → Token × FlagSet
  | none => (packTok t f zeroNeg 0, 0)
  | some (neg, m, e) => finishFloat t f sat neg ⟨m, e, false⟩

/-- L + R (R126). -/
def floatAddV (t : Tag) (f : FloatFmt) (sat : Bool) (a b : FVal) : Token × FlagSet :=
  match a, b with
  | .nan s, y => quietNan t f (s || y.isSnan)
  | _, .nan s => quietNan t f s
  | .inf x, .inf y => if x = y then (infTok t f x, 0) else invalidNan t f
  | .inf x, .fin _ _ _ => (infTok t f x, 0)
  | .fin _ _ _, .inf y => (infTok t f y, 0)
  | .fin n1 m1 e1, .fin n2 m2 e2 =>
      finishDyadic t f sat (n1 && n2 && m1 = 0 && m2 = 0) (addDyadic n1 m1 e1 n2 m2 e2)

def FVal.negate : FVal → FVal
  | .nan s => .nan s
  | .inf n => .inf (!n)
  | .fin n m e => .fin (!n) m e

/-- L × R (R126). -/
def floatMulV (t : Tag) (f : FloatFmt) (sat : Bool) (a b : FVal) : Token × FlagSet :=
  match a, b with
  | .nan s, y => quietNan t f (s || y.isSnan)
  | _, .nan s => quietNan t f s
  | .inf x, .inf y => (infTok t f (x != y), 0)
  | .inf x, .fin n m _ => if m = 0 then invalidNan t f else (infTok t f (x != n), 0)
  | .fin n m _, .inf y => if m = 0 then invalidNan t f else (infTok t f (n != y), 0)
  | .fin n1 m1 e1, .fin n2 m2 e2 =>
      if m1 * m2 = 0 then (packTok t f (n1 != n2) 0, 0)
      else finishFloat t f sat (n1 != n2) ⟨m1 * m2, e1 + e2, false⟩

/-- An exact quotient of positive integers with at least `bits` significant bits, and a sticky remainder. -/
def quotient (bits m1 : Nat) (e1 : Int) (m2 : Nat) (e2 : Int) : Exact :=
  let k := bits + m2.log2 + 1
  ⟨m1 * 2 ^ k / m2, e1 - e2 - (k : Int), decide (m1 * 2 ^ k % m2 ≠ 0)⟩

/-- L ÷ R (R126). -/
def floatDivV (t : Tag) (f : FloatFmt) (a b : FVal) : Token × FlagSet :=
  match a, b with
  | .nan s, y => quietNan t f (s || y.isSnan)
  | _, .nan s => quietNan t f s
  | .inf _, .inf _ => invalidNan t f
  | .inf x, .fin n _ _ => (infTok t f (x != n), 0)
  | .fin n _ _, .inf y => (packTok t f (n != y) 0, 0)
  | .fin n1 m1 e1, .fin n2 m2 e2 =>
      if m2 = 0 then
        if m1 = 0 then invalidNan t f else (infTok t f (n1 != n2), fDivzero)
      else if m1 = 0 then (packTok t f (n1 != n2) 0, 0)
      else finishFloat t f false (n1 != n2) (quotient (f.fbits + 4) m1 e1 m2 e2)

/-- L × R + X, rounded once (R126): 0 × ∞ + X is invalid for every X, NaN included. -/
def floatFmaV (t : Tag) (f : FloatFmt) (a b c : FVal) : Token × FlagSet :=
  let anyS := a.isSnan || b.isSnan || c.isSnan
  let zeroTimesInf := match a, b with
    | .inf _, .fin _ 0 _ => true
    | .fin _ 0 _, .inf _ => true
    | _, _ => false
  if zeroTimesInf then invalidNan t f
  else if a.isNan || b.isNan || c.isNan then quietNan t f anyS
  else
    let prod : FVal := match a, b with
      | .inf x, .inf y => .inf (x != y)
      | .inf x, .fin n _ _ => .inf (x != n)
      | .fin n _ _, .inf y => .inf (n != y)
      | .fin n1 m1 e1, .fin n2 m2 e2 => .fin (n1 != n2) (m1 * m2) (e1 + e2)
      | x, _ => x
    floatAddV t f false prod c

/-- MIN and MAX (R70, R126): a NaN operand gives NaN, and −0 lies below +0. `mx` selects MAX. -/
def floatMinMax (t : Tag) (f : FloatFmt) (mx : Bool) (l r : Token) : Token × FlagSet :=
  let a := tokFVal l
  let b := tokFVal r
  if a.isNan || b.isNan then quietNan t f (a.isSnan || b.isSnan)
  else
    let c := cmpFVal a b
    let lNeg := decide (tokBits l / 2 ^ f.signPos % 2 = 1)
    let lLess := decide (c < 0) || (decide (c = 0) && lNeg)
    (if lLess != mx then l else r, 0)

/-- ABS and NEG change the sign bit of a number; a NaN gives the canonical NaN (R126). -/
def floatSign (t : Tag) (f : FloatFmt) (neg : Bool) (l : Token) : Token × FlagSet :=
  match tokFVal l with
  | .nan s => quietNan t f s
  | _ =>
    let mag := tokBits l % 2 ^ f.signPos
    let s := decide (tokBits l / 2 ^ f.signPos % 2 = 1)
    (packTok t f (if neg then !s else false) mag, 0)

/-- LDEXP (R127): L × 2^n; |n| beyond 4,096 acts as ±4,096. -/
def floatLdexp (t : Tag) (f : FloatFmt) (l : Token) (n : Int) : Token × FlagSet :=
  match tokFVal l with
  | .nan s => quietNan t f s
  | .inf _ => (l, 0)
  | .fin neg m e =>
    if m = 0 then (l, 0)
    else finishFloat t f false neg ⟨m, e + max (-4096) (min 4096 n), false⟩

/-- FCLASS (R128): the bit of the class of a value. -/
def fclassBit (f : FloatFmt) (l : Token) : Nat :=
  match tokFVal l with
  | .nan s => if s then 0 else 1
  | .inf neg => if neg then 2 else 9
  | .fin neg m _ =>
    if m = 0 then (if neg then 5 else 6)
    else if m < 2 ^ f.fbits then (if neg then 4 else 7)
    else (if neg then 3 else 8)

/-- Outcome of a float test (R129): the ordered comparisons are false and NE and UN true where either is a NaN. -/
def floatTest (cc : Cmp) (a b : FVal) : Bool :=
  if a.isNan || b.isNan then (match cc with | .ne | .un => true | _ => false)
  else
    let c := cmpFVal a b
    match cc with
    | .eq => c = 0
    | .ne => c ≠ 0
    | .lt => c < 0
    | .le => c ≤ 0
    | .gt => c > 0
    | .ge => c ≥ 0
    | .un => false
    | .ord => true

/-! ### Square root and reciprocals (R135, R136) -/

/-- Integer square root, bit by bit from bit `k`: the greatest r ≥ acc with r² ≤ n that differs from acc in its low k
bits. -/
def isqrtFrom (n : Nat) : Nat → Nat → Nat
  | 0, acc => acc
  | k + 1, acc =>
    let c := acc + 2 ^ k
    if c * c ≤ n then isqrtFrom n k c else isqrtFrom n k acc

/-- floor(√n). -/
def isqrt (n : Nat) : Nat := isqrtFrom n (n.log2 / 2 + 1) 0

/-- √(m × 2^e) with at least `bits` bits, m > 0. -/
def sqrtExact (bits m : Nat) (e : Int) : Exact :=
  let k : Nat := 2 * bits
  let odd := (e - k) % 2 = 1
  let m' := m * 2 ^ (if odd then k + 1 else k)
  let e' := if odd then e - k - 1 else e - k
  let r := isqrt m'
  ⟨r, e' / 2, decide (r * r ≠ m')⟩

/-- SQRT (R135, R136). -/
def floatSqrt (t : Tag) (f : FloatFmt) (l : Token) : Token × FlagSet :=
  match tokFVal l with
  | .nan s => quietNan t f s
  | .inf neg => if neg then invalidNan t f else (l, 0)
  | .fin neg m e =>
    if m = 0 then (l, 0)
    else if neg then invalidNan t f
    else finishFloat t f false false (sqrtExact (f.fbits + 4) m e)

/-- RCP (R135, R136). -/
def floatRcp (t : Tag) (f : FloatFmt) (l : Token) : Token × FlagSet :=
  floatDivV t f (.fin false 1 0) (tokFVal l)

/-- 1 ÷ √(m × 2^e), m > 0: floor(√(2^k ÷ m)) with a sticky bit. -/
def rsqrtExact (bits m : Nat) (e : Int) : Exact :=
  let k0 : Nat := 2 * bits + 2 * m.log2 + 2
  let k := if (e + k0) % 2 = 0 then k0 else k0 + 1
  let r := isqrt (2 ^ k / m)
  ⟨r, -((e + k) / 2), decide (r * r * m ≠ 2 ^ k)⟩

/-- RSQRT (R135, R136). -/
def floatRsqrt (t : Tag) (f : FloatFmt) (l : Token) : Token × FlagSet :=
  match tokFVal l with
  | .nan s => quietNan t f s
  | .inf neg => if neg then invalidNan t f else (packTok t f false 0, 0)
  | .fin neg m e =>
    if m = 0 then (infTok t f neg, fDivzero)
    else if neg then invalidNan t f
    else finishFloat t f false false (rsqrtExact (f.fbits + 4) m e)

end Sys2Proof.Machine
end

