-- ==== Sys2Proof/Machine/Convert.lean ====
section
/-! DEFINITION. CVT and CVTZ (R72 to R75, R137): one rounding from the exact value of the source, saturation, and the
predicate of R73. -/

namespace Sys2Proof.Machine

/-- The result of a conversion: the value, the saturation predicate of T1, and the flags. -/
structure Conv where
  tok   : Token
  pred  : Bool
  flags : FlagSet
  deriving DecidableEq, Repr

/-- An integer as a rounded magnitude with its sign (R72). DEDUCED (log 95): −∞ to an N tag takes the row of the infinities,
SAT alone, and not the sentence on negative non-zero sources, which adds INEXACT. -/
def convInt (t : Tag) (mode : Rounding) : FVal → Conv
  | .nan _ => ⟨mkInt t 0, true, fInvalid⟩
  | .inf neg => ⟨mkInt t (if neg then intMin t else intMax t), true, fSat⟩
  | .fin neg m e =>
    if m = 0 then ⟨mkInt t 0, false, 0⟩
    else if neg && !tagSigned t then ⟨mkInt t 0, true, fSat ||| fInexact⟩
    else
      let (n, inexact) := roundTo mode ⟨m, e, false⟩ 0
      let v : Int := if neg then -(n : Int) else n
      if v < intMin t then ⟨mkInt t (intMin t), true, fSat ||| fInexact⟩
      else if intMax t < v then ⟨mkInt t (intMax t), true, fSat ||| fInexact⟩
      else ⟨mkInt t v, false, flagIf inexact fInexact⟩

/-- To E8M0, on the magnitude (R75). With |x| = f × 2^e, 1 ≤ f < 2, f is compared with 1.5 as 2m with 3 × 2^log2 m. -/
def convE8m0 (mode : Rounding) : FVal → Conv
  | .nan _ => ⟨mkTok .e8m0 0xFF, false, fInvalid⟩
  | .inf neg => ⟨mkTok .e8m0 0xFE, true, fSat ||| flagIf neg fInvalid⟩
  | .fin neg m e =>
    if m = 0 then ⟨mkTok .e8m0 0, true, fSat ||| fUnderflow ||| fInexact⟩
    else
      let base : Int := (m.log2 : Int) + e + 127
      let half := 3 * 2 ^ m.log2
      let up := match mode with
        | .towardZero => false
        | .nearestEven => decide (half < 2 * m) || (decide (2 * m = half) && decide (base % 2 = 1))
      let code : Int := if up then base + 1 else base
      let inv := flagIf neg fInvalid
      if 254 < code then ⟨mkTok .e8m0 0xFE, true, inv ||| fSat ||| fInexact⟩
      else if code < 0 then ⟨mkTok .e8m0 0, true, inv ||| fSat ||| fUnderflow ||| fInexact⟩
      else ⟨mkTok .e8m0 code.toNat, false, inv ||| flagIf (m ≠ 2 ^ m.log2) fInexact⟩

/-- To a float with sign, exponent and fraction (R72). -/
def convFloat (t : Tag) (f : FloatFmt) (mode : Rounding) : FVal → Conv
  | .nan s =>
    match f.nan with
    | some n => ⟨mkTok t n, false, flagIf s fInvalid⟩
    | none => ⟨mkTok t 0, true, fInvalid⟩
  | .inf neg =>
    if f.hasInf then ⟨infTok t f neg, false, 0⟩ else ⟨packTok t f neg f.maxFin, true, fSat⟩
  | .fin neg m e =>
    if m = 0 then ⟨packTok t f neg 0, false, 0⟩
    else
      let r := roundMag f mode ⟨m, e, false⟩
      if f.maxFin < r.code then
        ⟨packTok t f neg f.maxFin, true, fSat ||| fInexact ||| flagIf f.hasInf fOverflow⟩
      else ⟨packTok t f neg r.code, false, flagIf r.inexact fInexact ||| flagIf (r.tiny && r.inexact) fUnderflow⟩

/-- A conversion to the source's own tag copies the value and canonicalises a NaN, with INVALID where it was signalling
(R137). DEDUCED (log 28): E8M0's NaN is quiet. -/
def convSame (s : Token) : Conv :=
  match fmtOfTag s.tag with
  | none => ⟨s, false, 0⟩
  | some f =>
    match unpackFmt f (tokBits s) with
    | .nan sg => ⟨nanTok s.tag f, false, flagIf sg fInvalid⟩
    | _ => ⟨s, false, 0⟩

/-- CVT and CVTZ of a token that is neither NULL nor POISON; `none` is FORMAT (R137). DEDUCED (log 95): ADDR to ADDR and
TIME to TIME are FORMAT, as no pair that R137 lists. -/
def convert (mode : Rounding) (t : Tag) (s : Token) : Option Conv :=
  if s.tag = .addr ∧ t = .n64 then some ⟨mkTok .n64 (tokBits s), false, 0⟩
  else if s.tag = .n64 ∧ t = .addr then
    let cut := decide (2 ^ 52 ≤ tokBits s)
    some ⟨mkTok .addr (tokBits s), cut, flagIf cut fSat⟩
  else if (s.tag = .time ∧ t = .i64) ∨ (s.tag = .i64 ∧ t = .time) then some ⟨mkTok t (tokBits s), false, 0⟩
  else if !tagNumeric s.tag || !tagNumeric t then none
  else if s.tag = t then some (convSame s)
  else
    let v := tokFVal s
    match t, fmtOfTag t with
    | .e8m0, _ => some (convE8m0 mode v)
    | _, some f => some (convFloat t f mode v)
    | _, none => some (convInt t mode v)

end Sys2Proof.Machine
end

