-- ==== Sys2Proof/Config.lean ====
section
/-! DEFINITION. What the spec fixes for every Q4 (R1, R4) and what it leaves open: the opaque constants below have no
known value, so that no proof rests on one. Each is named in notes/assumptions. -/

namespace Sys2Proof.Config

/-- The choice among the steps that are possible now, applied to the counter `nd` (log 1): it stands for every order in
which the agents of R28, R270 and R357 may act, so no order is fixed. -/
opaque choose : Nat → Nat

/-- CAPS.REV: the silicon revision (R212, log 5). -/
opaque siliconRev : BitVec 8

/-- The bits of a result of R135 whose bounds at 256 bits do not decide the rounding (log 13). -/
opaque undecidedRounding : Nat → Nat → Nat

/-- The signature of the part's key over a report of R324 (log 14). -/
opaque mlDsaSign : List (BitVec 8) → List (BitVec 8)

/-- The SHA3-256 digests of the firmware images that run, of the first slot or of the second (R321, R323, R324, log 14). -/
opaque firmwareDigests : Bool → List (BitVec 8)

/-- WHEN of a boot step's entry: the cycles since reset, by start number and step (R322, log 17). -/
opaque bootCycle : Nat → Nat → Nat

/-- A byte of a peer device's memory, which is another machine's (R284, R315): the peer, the address, and the counter of
the step that reads it (log 15). -/
opaque peerData : Nat → Nat → Nat → BitVec 8

/-- Whether a byte of a peer device's memory is poisoned: the peer, the address, and the counter of the step that reads it
(R149, R316, log 15). -/
opaque peerPoison : Nat → Nat → Nat → Bool

/-- A byte read back from a range that two OVP areas share (R214): the address, and the counter of the step that reads it
(log 12). -/
opaque sharedOvp : Nat → Nat → BitVec 8

/-- A byte of a token in a granule of its task's carve-out, whose layout is open (R221): the counter of the step that writes
it, and the byte (log 102). -/
opaque tokenByte : Nat → Nat → BitVec 8

/-- What a token reads back as from a range that two OVP areas share (R214): its tag and payload, by the counter of the step
that reads it (log 12). -/
opaque sharedTok : Nat → Nat × BitVec 64

/-- Whether the copy of an MST on its way to a pane has reached it by the time of a read there (R151, R283): the counter of the
step, the read's iteration and slot, and the MST's task and number (log 111). -/
opaque copyArrives : Nat → Nat → Nat → Nat → Nat → Bool

/-- What SLOT (field 0) of a load report that armed, and BLOCK (field 1) of one that armed or of one of check 9, hold: R99
gives them no value. The counter of the step that writes the report, and the field (log 91). -/
opaque openReport : Nat → Nat → BitVec 32

/-- The scale granule that CVTT writes last, in its bytes beyond row M − 1 (R77): the counter of the step (log 93). -/
opaque spareScales : Nat → BitVec 128

/-- A byte of a stream packet beyond the data that came with it (R317): the packet's time stamp, and the byte (log 106). -/
opaque missingByte : Nat → Nat → BitVec 8

/-- The interfaces whose inbox is firmware's own: it may load maintenance graphs there with the checks waived (R102,
log 16). -/
opaque firmwareVi : Nat → Bool

/-! ### Organisation (R1, R4) -/

/-- Dies of the device. -/
def dies : Nat := 4
/-- Panes of a die, 16 across and 12 down (R1). -/
def panes : Nat := 192
def panesAcross : Nat := 16
def panesDown : Nat := 12
/-- Cells of a pane (R1). -/
def paneCells : Nat := 16
/-- Colours of a die (R4). -/
def colours : Nat := 65536
/-- Bytes of a pane's local store (R1). -/
def paneBytes : Nat := 1048576
/-- Granules of a pane's local store (R6). -/
def paneGranules : Nat := 65536
/-- Virtual interfaces (R4). -/
def vis : Nat := 64
/-- Live re-entrant instances of one colour (R27). -/
def maxInstances : Nat := 4096
/-- Bytes of a die's three HBM stacks (R1). -/
def dieHbmBytes : Nat := 3 * 64 * 1073741824

end Sys2Proof.Config
end

