-- ==== Sys2Proof/Machine/Special.lean ====
section
/-! DEFINITION. EXP2, LOG2 and TANH (R135, R136). Each value is irrational outside the cases R135 lists as exact; it is
bounded from both sides in 256-bit fixed point, and where both bounds round alike that is the exact value rounded once. -/

namespace Sys2Proof.Machine

/-- Fraction bits of the fixed point. -/
def fxP : Nat := 256
/-- Units in the last place between the two bounds: above the error of every series below. -/
def fxSlack : Nat := 2 ^ 48

/-- Σ z^(2k+1) ÷ (2k+1) for k < n, floors at each term; `p` is the current odd power of z. -/
def atanhSeries (zz : Nat) : Nat → Nat → Nat → Nat
  | 0, _, _ => 0
  | n + 1, k, p => p / (2 * k + 1) + atanhSeries zz n (k + 1) (p * zz / 2 ^ fxP)

/-- ln of (a ÷ b), 1 ≤ a ÷ b ≤ 2, as 2 artanh((a − b) ÷ (a + b)); z ≤ 1/3, so 90 terms pass 2^−256. -/
def fxLn (a b : Nat) : Nat :=
  let z := (a - b) * 2 ^ fxP / (a + b)
  2 * atanhSeries (z * z / 2 ^ fxP) 90 0 z

/-- ln 2. -/
def fxLn2 : Nat := fxLn 2 1

/-- Σ y^k ÷ k! from the term `t` at index k on; y < ln 2, so 60 terms pass 2^−256. -/
def expSeries (y : Nat) : Nat → Nat → Nat → Nat
  | 0, _, _ => 0
  | n + 1, k, t => t + expSeries y n (k + 1) (t * y / 2 ^ fxP / (k + 1))

/-- 2^r for a fraction r < 1, below by less than the slack. -/
def fxExp2Frac (r : Nat) : Nat := expSeries (r * fxLn2 / 2 ^ fxP) 60 0 (2 ^ fxP)

/-- The correctly rounded token of a magnitude between lo × 2^e and (lo + slack) × 2^e, never on a bound. -/
def finishBounds (t : Tag) (f : FloatFmt) (neg : Bool) (lo slack : Nat) (e : Int) : Token × FlagSet :=
  let a := finishFloat t f false neg ⟨lo, e, true⟩
  let b := finishFloat t f false neg ⟨lo + slack, e, true⟩
  if a = b then a else (mkTok t (Config.undecidedRounding lo slack), a.2)

/-- m × 2^e as a multiple of 2^−256, floored. -/
def fxOf (m : Nat) (e : Int) : Nat :=
  let s := e + fxP
  if 0 ≤ s then m * 2 ^ s.toNat else m / 2 ^ (-s).toNat

/-- 2^x of a finite non-zero x. Beyond ±8,192 every format overflows or underflows (R69). -/
def exp2Fin (t : Tag) (f : FloatFmt) (neg : Bool) (m : Nat) (e : Int) : Token × FlagSet :=
  if 13 ≤ (m.log2 : Int) + e then
    (if neg then finishFloat t f false false ⟨2 ^ 64, -8256, true⟩ else finishFloat t f false false ⟨1, 8192, false⟩)
  else
    let v : Int := if neg then -(fxOf m e : Int) else fxOf m e
    let n := v / 2 ^ fxP
    let r := (v % 2 ^ fxP).toNat
    if r = 0 then finishFloat t f false false ⟨1, n, false⟩
    else finishBounds t f false (fxExp2Frac r - fxSlack) (2 * fxSlack) (n - fxP)

/-- EXP2 (R135, R136). -/
def floatExp2 (t : Tag) (f : FloatFmt) (l : Token) : Token × FlagSet :=
  match tokFVal l with
  | .nan s => quietNan t f s
  | .inf neg => if neg then (packTok t f false 0, 0) else (l, 0)
  | .fin neg m e =>
    if m = 0 then finishFloat t f false false ⟨1, 0, false⟩ else exp2Fin t f neg m e

/-- LOG2 of a positive finite m × 2^e: exact for a power of two. -/
def log2Fin (t : Tag) (f : FloatFmt) (m : Nat) (e : Int) : Token × FlagSet :=
  let k : Int := (m.log2 : Int) + e
  if m = 2 ^ m.log2 then
    if k = 0 then (packTok t f false 0, 0)
    else finishFloat t f false (decide (k < 0)) ⟨k.natAbs, 0, false⟩
  else
    let frac := fxLn m (2 ^ m.log2) * 2 ^ fxP / fxLn2
    let v : Int := k * 2 ^ fxP + frac
    finishBounds t f (decide (v < 0)) (v.natAbs - fxSlack) (2 * fxSlack) (-(fxP : Int))

/-- LOG2 (R135, R136). -/
def floatLog2 (t : Tag) (f : FloatFmt) (l : Token) : Token × FlagSet :=
  match tokFVal l with
  | .nan s => quietNan t f s
  | .inf neg => if neg then invalidNan t f else (l, 0)
  | .fin neg m e =>
    if m = 0 then (infTok t f true, fDivzero)
    else if neg then invalidNan t f
    else log2Fin t f m e

/-- TANH of a positive finite magnitude: x − x³ ÷ 3 < tanh x < x below 2^−40, 1 − 2^−180 < tanh x < 1 from 64 on, and
between them (2^u − 1) ÷ (2^u + 1) with u = 2x ÷ ln 2. -/
def tanhFin (t : Tag) (f : FloatFmt) (neg : Bool) (m : Nat) (e : Int) : Token × FlagSet :=
  let k : Int := (m.log2 : Int) + e
  if k < -40 then finishFloat t f false neg ⟨m * 2 ^ 64 - 1, e - 64, true⟩
  else if 6 ≤ k then finishFloat t f false neg ⟨2 ^ 128 - 1, -128, true⟩
  else
    let u := 2 * fxOf m e * 2 ^ fxP / fxLn2
    let big := fxExp2Frac (u % 2 ^ fxP) * 2 ^ (u / 2 ^ fxP)
    let v := (big - 2 ^ fxP) * 2 ^ fxP / (big + 2 ^ fxP)
    finishBounds t f neg (v - fxSlack) (2 * fxSlack) (-(fxP : Int))

/-- TANH (R135, R136). -/
def floatTanh (t : Tag) (f : FloatFmt) (l : Token) : Token × FlagSet :=
  match tokFVal l with
  | .nan s => quietNan t f s
  | .inf neg => finishFloat t f false neg ⟨1, 0, false⟩
  | .fin neg m e => if m = 0 then (l, 0) else tanhFin t f neg m e

end Sys2Proof.Machine
end

