-- ==== Sys2Proof/Machine/Operands.lean ====
section
/-! DEFINITION. What the value words compute from their operand tokens (R111 to R139): the order in which POISON, NULL,
the predicate and the tags are looked at (R65, R90, R104), then one function per word. -/

namespace Sys2Proof.Machine

/-- A value word's outcome: the tokens for T0 and T1 with the flags, or FORMAT. -/
inductive VOut where
  | send (t0 t1 : Token) (flags : FlagSet)
  | format
  deriving DecidableEq, Repr

/-- The same token to both targets (R103). -/
def VOut.both (t : Token) (fl : FlagSet := 0) : VOut := .send t t fl

def VOut.ofPair (r : Token × FlagSet) : VOut := .send r.1 r.1 r.2

/-- What a PRED token on P says under PM (R90): `none` is FORMAT, `some b` whether the word fires matched. -/
def predMatch (pm : Pm) (p : Option Token) : Option Bool :=
  match pm, p with
  | .always, _ => some true
  | .onTrue, some t => if t.tag = .pred then some (tokTrue t) else none
  | .onFalse, some t => if t.tag = .pred then some (!tokTrue t) else none
  | _, none => some true

def anyTag (g : Tag) (ts : List Token) : Bool := ts.any fun t => t.tag = g

/-- R65, R90 and R104 on the ports a value word reads, P included: POISON, then NULL, then P's tag, then a mismatch, and
only then the word's own tag checks and result. -/
def valueRule (pm : Pm) (p : Option Token) (data : List Token) (f : VOut) : VOut :=
  let ports := data ++ p.toList
  if anyTag .poison ports then .both poisonTok
  else if anyTag .null ports then .both nullTok
  else match predMatch pm p with
    | none => .format
    | some false => .both nullTok
    | some true => f

/-! ### Integer arithmetic (R123) -/

/-- A result that wraps, or with `sat` saturates and sets SAT (R67, R123). -/
def intFinish (t : Tag) (sat : Bool) (v : Int) : VOut :=
  if sat then
    if v < intMin t then .both (mkInt t (intMin t)) fSat
    else if intMax t < v then .both (mkInt t (intMax t)) fSat
    else .both (mkInt t v)
  else .both (mkInt t v)

def intMulh (l r : Token) : VOut := .both (mkInt l.tag ((tokInt l * tokInt r).fdiv (2 ^ tagBits l.tag)))

/-- DIV truncates toward zero; by zero it gives all ones and sets DIVZERO (R67). -/
def intDiv (l r : Token) : VOut :=
  if tokInt r = 0 then .both (mkInt l.tag (-1)) fDivzero else .both (mkInt l.tag ((tokInt l).tdiv (tokInt r)))

/-- REM has the sign of L; by zero it gives L and sets DIVZERO (R67). -/
def intRem (l r : Token) : VOut :=
  if tokInt r = 0 then .both l fDivzero else .both (mkInt l.tag ((tokInt l).tmod (tokInt r)))

/-! ### TIME (R307) -/

/-- A TIME payload as nanoseconds: seconds × 10^9 + nanoseconds, the nanosecond field at face value. -/
def timeNs (v : Payload) : Nat := v.toNat / 2 ^ 32 * 1000000000 + v.toNat % 2 ^ 32

/-- The normalised TIME payload of a count of nanoseconds. -/
def timeOfNs (v : Int) : Payload :=
  BitVec.ofNat 64 (((v / 1000000000) % 2 ^ 32).toNat * 2 ^ 32 + (v % 1000000000).toNat)

/-- TIME − TIME: the seconds as a signed 32-bit difference. -/
def timeDiff (l r : Payload) : Int :=
  toSigned 32 (l.toNat / 2 ^ 32 + 2 ^ 32 - r.toNat / 2 ^ 32) * 1000000000
    + (((l.toNat % 2 ^ 32 : Nat) : Int) - ((r.toNat % 2 ^ 32 : Nat) : Int))

/-- ADDR plus a signed integer, modulo 2^52 (R125). -/
def addrAdd (a : Token) (v : Int) : Token := mkInt .addr ((tokBits a : Int) + v)

/-! ### The words -/

def isAddrOffset (t : Tag) : Bool := t = .i32 || t = .i64

/-- ADD (R122, R123, R125, R126). -/
def addV (sat : Bool) (l r : Token) : VOut :=
  if l.tag = .addr ∧ isAddrOffset r.tag then .both (addrAdd l (tokInt r))
  else if r.tag = .addr ∧ isAddrOffset l.tag then .both (addrAdd r (tokInt l))
  else if l.tag = .time ∧ r.tag = .i64 then .both ⟨.time, timeOfNs (timeNs l.val + tokInt r)⟩
  else if r.tag = .time ∧ l.tag = .i64 then .both ⟨.time, timeOfNs (timeNs r.val + tokInt l)⟩
  else if l.tag ≠ r.tag then .format
  else if l.tag.isInt then intFinish l.tag sat (tokInt l + tokInt r)
  else if !tagFloat l.tag then .format
  else match fmtOfTag l.tag with
    | some f => .ofPair (floatAddV l.tag f sat (tokFVal l) (tokFVal r))
    | none => .format

/-- SUB (R122, R123, R125, R126, R307). -/
def subV (sat : Bool) (l r : Token) : VOut :=
  if l.tag = .addr ∧ isAddrOffset r.tag then .both (addrAdd l (-tokInt r))
  else if l.tag = .time ∧ r.tag = .i64 then .both ⟨.time, timeOfNs (timeNs l.val - tokInt r)⟩
  else if l.tag = .time ∧ r.tag = .time then .both (mkInt .i64 (timeDiff l.val r.val))
  else if l.tag ≠ r.tag then .format
  else if l.tag.isInt then intFinish l.tag sat (tokInt l - tokInt r)
  else if !tagFloat l.tag then .format
  else match fmtOfTag l.tag with
    | some f => .ofPair (floatAddV l.tag f sat (tokFVal l) (tokFVal r).negate)
    | none => .format

/-- An Int form and a Float form on two operands of one tag (R122). -/
def arith2 (l r : Token) (int : VOut) (flt : FloatFmt → Token × FlagSet) : VOut :=
  if l.tag ≠ r.tag then .format
  else if l.tag.isInt then int
  else if !tagFloat l.tag then .format
  else match fmtOfTag l.tag with
    | some f => .ofPair (flt f)
    | none => .format

/-- The Float form of a one-operand word (R122, R127, R135). -/
def float1 (ok : Tag → Bool) (l : Token) (flt : FloatFmt → Token × FlagSet) : VOut :=
  if !ok l.tag then .format
  else match fmtOfTag l.tag with
    | some f => .ofPair (flt f)
    | none => .format

def mulV (sat : Bool) (l r : Token) : VOut :=
  arith2 l r (intFinish l.tag sat (tokInt l * tokInt r)) fun f => floatMulV l.tag f sat (tokFVal l) (tokFVal r)

def mulhV (l r : Token) : VOut := if l.tag = r.tag ∧ l.tag.isInt then intMulh l r else .format

def divV (l r : Token) : VOut := arith2 l r (intDiv l r) fun f => floatDivV l.tag f (tokFVal l) (tokFVal r)

def remV (l r : Token) : VOut := if l.tag = r.tag ∧ l.tag.isInt then intRem l r else .format

def fmaV (l r x : Token) : VOut :=
  if x.tag ≠ l.tag then .format
  else arith2 l r (.both (mkInt l.tag (tokInt l * tokInt r + tokInt x))) fun f =>
    floatFmaV l.tag f (tokFVal l) (tokFVal r) (tokFVal x)

def minV (l r : Token) : VOut :=
  arith2 l r (.both (if tokInt l ≤ tokInt r then l else r)) fun f => floatMinMax l.tag f false l r

def maxV (l r : Token) : VOut :=
  arith2 l r (.both (if tokInt l ≤ tokInt r then r else l)) fun f => floatMinMax l.tag f true l r

def absV (l : Token) : VOut :=
  if l.tag.isInt then .both (mkInt l.tag (tokInt l).natAbs) else float1 tagFloat l fun f => floatSign l.tag f false l

def negV (l : Token) : VOut :=
  if l.tag.isInt then .both (mkInt l.tag (-tokInt l)) else float1 tagFloat l fun f => floatSign l.tag f true l

/-- ADDI (R124). -/
def addiV (imm : BitVec 12) (l : Token) : VOut :=
  if l.tag.isInt then .both (mkInt l.tag (tokInt l + imm.toInt))
  else if l.tag = .addr then .both (addrAdd l imm.toInt)
  else if l.tag = .time then .both ⟨.time, timeOfNs (timeNs l.val + imm.toInt)⟩
  else .format

/-- MULI (R124). -/
def muliV (imm : BitVec 12) (l : Token) : VOut :=
  if l.tag.isInt then .both (mkInt l.tag (tokInt l * imm.toInt)) else .format

/-- An ordered comparison of two numbers; UN is false and ORD true (R129). -/
def cmpInt (cc : Cmp) (a b : Int) : Bool :=
  match cc with
  | .eq => a = b
  | .ne => a ≠ b
  | .lt => a < b
  | .le => a ≤ b
  | .gt => a > b
  | .ge => a ≥ b
  | .un => false
  | .ord => true

/-- TST (R129). -/
def tstV (cc : Cmp) (l r : Token) : VOut :=
  if l.tag ≠ r.tag then .format
  else if l.tag.isInt then .both (predTok (cmpInt cc (tokInt l) (tokInt r)))
  else if l.tag = .addr ∨ l.tag = .time then .both (predTok (cmpInt cc (tokBits l) (tokBits r)))
  else if tagFloat l.tag then
    .both (predTok (floatTest cc (tokFVal l) (tokFVal r)))
      (flagIf ((tokFVal l).isSnan || (tokFVal r).isSnan) fInvalid)
  else .format

/-- TEQI and TLTI (R130): the immediate is not reduced into L's width. -/
def testImmV (cc : Cmp) (imm : BitVec 12) (l : Token) : VOut :=
  if l.tag.isInt then .both (predTok (cmpInt cc (tokInt l) imm.toInt)) else .format

/-- AND, OR, XOR (R131). -/
def logicV (op : Nat → Nat → Nat) (l r : Token) : VOut :=
  if l.tag = r.tag ∧ (l.tag.isInt ∨ l.tag = .pred) then .both (mkTok l.tag (op (tokBits l) (tokBits r))) else .format

/-- NOT (R131). -/
def notV (l : Token) : VOut :=
  if l.tag.isInt ∨ l.tag = .pred then .both (mkTok l.tag (2 ^ tagBits l.tag - 1 - tokBits l)) else .format

/-- ANDI, ORI, XORI (R131): the immediate is sign-extended and reduced; PRED is refused. -/
def logicImmV (op : Nat → Nat → Nat) (imm : BitVec 12) (l : Token) : VOut :=
  if l.tag.isInt then .both (mkTok l.tag (op (tokBits l) (tokBits (mkInt l.tag imm.toInt)))) else .format

/-- Kinds of shift (R132). -/
inductive Shift where
  | shl | shr | sar
  deriving DecidableEq, Repr

/-- c_eff of R132. -/
def shiftCount (w : Nat) (c : Int) : Nat := if c < 0 ∨ (w : Int) ≤ c then w else c.toNat

/-- A shift of L by a count (R132). -/
def shiftVal (k : Shift) (l : Token) (c : Int) : Token :=
  let w := tagBits l.tag
  let n := shiftCount w c
  match k with
  | .shl => mkTok l.tag (tokBits l * 2 ^ n)
  | .shr => mkTok l.tag (tokBits l / 2 ^ n)
  | .sar => mkInt l.tag ((toSigned w (tokBits l)) / 2 ^ n)

def shiftV (k : Shift) (l r : Token) : VOut :=
  if l.tag.isInt ∧ r.tag.isInt then .both (shiftVal k l (tokInt r)) else .format

def shiftImmV (k : Shift) (imm : BitVec 12) (l : Token) : VOut :=
  if l.tag.isInt then .both (shiftVal k l imm.toInt) else .format

/-- Ones among the low `w` bits. -/
def popcount : Nat → Nat → Nat
  | 0, _ => 0
  | w + 1, n => n % 2 + popcount w (n / 2)

/-- CLZ (R133). -/
def clzV (l : Token) : VOut :=
  if l.tag.isInt then
    .both (mkTok .i32 (if tokBits l = 0 then tagBits l.tag else tagBits l.tag - 1 - (tokBits l).log2))
  else .format

/-- POPC (R133). -/
def popcV (l : Token) : VOut :=
  if l.tag.isInt then .both (mkTok .i32 (popcount (tagBits l.tag) (tokBits l))) else .format

/-- BFX (R134). -/
def bfxV (l s n : Token) : VOut :=
  if !(l.tag.isInt && s.tag.isInt && n.tag.isInt) then .format
  else
    let w := tagBits l.tag
    let si := tokInt s
    let ni := tokInt n
    if si < 0 ∨ (w : Int) ≤ si ∨ ni ≤ 0 then .both (mkTok l.tag 0)
    else
      let len := (min ni ((w : Int) - si)).toNat
      let field := tokBits l / 2 ^ si.toNat % 2 ^ len
      .both (if tagSigned l.tag then mkInt l.tag (toSigned len field) else mkTok l.tag field)

/-- The tags of R135 but FP64, which SQRT alone accepts. -/
def specialTag (t : Tag) : Bool := t = .fp32 || t = .fp16 || t = .bf16

def sqrtV (l : Token) : VOut := float1 tagFloat l fun f => floatSqrt l.tag f l
def rcpV (l : Token) : VOut := float1 specialTag l fun f => floatRcp l.tag f l
def rsqrtV (l : Token) : VOut := float1 specialTag l fun f => floatRsqrt l.tag f l
def exp2V (l : Token) : VOut := float1 specialTag l fun f => floatExp2 l.tag f l
def log2V (l : Token) : VOut := float1 specialTag l fun f => floatLog2 l.tag f l
def tanhV (l : Token) : VOut := float1 specialTag l fun f => floatTanh l.tag f l

/-- LDEXP (R127). -/
def ldexpV (l r : Token) : VOut :=
  if r.tag.isInt then float1 tagFloat l fun f => floatLdexp l.tag f l (tokInt r) else .format

/-- FCLASS (R128). -/
def fclassV (l : Token) : VOut := float1 tagFloat l fun f => (mkTok .n32 (2 ^ fclassBit f l), 0)

/-- CVT and CVTZ (R137): the value on T0, the predicate of R73 on T1. -/
def cvtV (mode : Rounding) (t : Tag) (l : Token) : VOut :=
  match convert mode t l with
  | some c => .send c.tok (predTok c.pred) c.flags
  | none => .format

/-- Tags that meet at R66's reference, tile and other classes: a tile tag is accepted by MOV alone. -/
def tagTile (t : Tag) : Bool := t = .tern || t = .bi

/-- RETAG (R114) of a source that is neither NULL nor POISON. -/
def retagV (t : Tag) (l : Token) : VOut :=
  if tagTile l.tag then .format
  else if t = .future ∧ l.tag ≠ .future then .format
  else .both (mkTok t l.val.toNat)

/-- SEL (R113): both data operands are read; P is the selector. -/
def selV (l r p : Token) : VOut :=
  if anyTag .poison [l, r, p] then .both poisonTok
  else if anyTag .null [l, r, p] then .both nullTok
  else if p.tag ≠ .pred ∨ tagTile l.tag ∨ tagTile r.tag then .format
  else .both (if tokTrue p then l else r)

/-! ### RED (R83, R138) -/

/-- One combination of RED's kind in the operands' format (R83); `none` is FORMAT (R138). -/
def redOp (k : RedKind) (a b : Token) : VOut :=
  match k with
  | .add => addV false a b
  | .min => minV a b
  | .max => maxV a b
  | .and => logicV (· &&& ·) a b
  | .or => logicV (· ||| ·) a b
  | .xor => logicV (· ^^^ ·) a b

/-- The tags RED accepts for a kind: Int for all, Float for ADD, MIN and MAX (R66, R138). -/
def redTagOk (k : RedKind) (t : Tag) : Bool :=
  t.isInt || (tagFloat t && (match k with | .add | .min | .max => true | _ => false))

/-- The identities of R83. -/
def redIdentity (k : RedKind) (t : Tag) : Token :=
  match fmtOfTag t with
  | some f =>
    match k with
    | .add => packTok t f true 0
    | .min => infTok t f false
    | .max => infTok t f true
    | _ => mkTok t 0
  | none =>
    match k with
    | .add | .or | .xor => mkTok t 0
    | .min => mkInt t (intMax t)
    | .max => mkInt t (intMin t)
    | .and => mkInt t (-1)

/-- A combination with its flags; POISON absorbs (R138). -/
def redStep (k : RedKind) (acc : Token × FlagSet) (b : Token) : Token × FlagSet :=
  match redOp k acc.1 b with
  | .send t _ fl => (t, acc.2 ||| fl)
  | .format => acc

/-- Partial p_j: the tokens of iterations j mod 8 in ascending order from the identity (R83). -/
def redPartial (k : RedKind) (t : Tag) (toks : List Token) : Token × FlagSet :=
  toks.foldl (redStep k) (redIdentity k t, 0)

/-- One node of the tree. -/
def redNode (k : RedKind) (a b : Token × FlagSet) : Token × FlagSet :=
  let r := redStep k (a.1, 0) b.1
  (r.1, a.2 ||| b.2 ||| r.2)

/-- ((p0 + p1) + (p2 + p3)) + ((p4 + p5) + (p6 + p7)) over the tokens with their iterations, ascending (R83). -/
def redTree (k : RedKind) (t : Tag) (toks : List (Nat × Token)) : Token × FlagSet :=
  let p := fun j => redPartial k t ((toks.filter fun x => x.1 % 8 = j).map Prod.snd)
  redNode k (redNode k (redNode k (p 0) (p 1)) (redNode k (p 2) (p 3)))
    (redNode k (redNode k (p 4) (p 5)) (redNode k (p 6) (p 7)))

end Sys2Proof.Machine
end

