-- ==== Sys2Proof/Machine/State.lean ====
section
/-! DEFINITION. The state of the Q4 as plain data: everything the spec gives the machine (INVENTORY.md lists it with its
rules), the messages on their way, the inputs, and the counter of the free choices. Numbering of the parts: a pane's key
is die × 192 + pane, a cell's pane × 16 + index (R252), a task's die × 65,536 + colour, a granule's pane × 65,536 +
granule, an allocation record's pane × 4,096 + record, a task record's die × 131,072 + index, a page-table address and a
home line as in R224. -/

namespace Sys2Proof.Machine

/-- Why a step can stop the machine. -/
inductive Fault where
  /-- Raised by `step` when the module is stopped: a die reached 115 °C (R326), or a required boot step failed (R321). Only
  a RESET input goes on. Safe: no further step of the part exists there. -/
  | moduleStopped
  deriving DecidableEq, Repr

/-- Why a step has no meaning. -/
inductive Refusal where
  /-- Answered by `exec` alone, for a row of the table not modelled yet. Safe: nothing is claimed of it. -/
  | notModelled (mnemonic : String)
  deriving DecidableEq, Repr

/-! ### Clocks -/

/-- A master heard on a port: its last Announce, with the times of that one and of the one before (IEEE 1588-2019, by R304). -/
structure Foreign where
  port   : Nat
  ann    : Announce
  at_    : Nat
  before : Option Nat
  deriving DecidableEq, Repr

/-- The PTP unit (R304): whether B10 has started it (R321), the masters heard, the one followed, by its identity, and its port,
the ports with peer delay, the times of the exchange under way, the mean path delay, and the delays of the links with peer
delay. -/
structure Ptp where
  foreign : List Foreign := []
  running : Bool := true
  locked : Bool := false
  domain : Nat := 0
  master : Option Nat := none
  port : Nat := 0
  peer : List Nat := []
  twoStep : Option (Nat × Nat) := none
  t1 : Nat := 0
  t2 : Nat := 0
  t3 : Option (Nat × Nat) := none
  asked : Table (Nat × Nat) := []
  answered : Table (Nat × Nat) := []
  delay : Int := 0
  links : Table Int := []
  deriving DecidableEq, Repr

/-- Cycles of the 2.5 GHz clock, and each die's device time in units of 0.0001 ns (R6, R305, R306). -/
structure Clk where
  cycle : Nat := 0
  times : List Nat := [0, 0, 0, 0]
  slew  : Int := 0
  hold  : Nat := 0
  ptp   : Ptp := {}
  deriving DecidableEq, Repr

/-! ### Global memory -/

/-- A valid home-cache line (R225, R286). `cover`: the engine command or packet that has written bytes of the line since
it was poisoned, with those bytes (R149). -/
structure Line where
  data   : BitVec 1024 := 0
  poison : Bool := false
  track0 : BitVec 24 := 0
  track1 : BitVec 24 := 0
  stamp  : Nat := 0
  dirty  : Bool := false
  cover  : Option (Nat × BitVec 128) := none
  deriving DecidableEq, Repr

/-- The metadata of a line in HBM (R225, R286), with what covers a poisoned line across an eviction (R149). -/
structure LineMeta where
  poison : Bool := false
  track0 : BitVec 24 := 0
  track1 : BitVec 24 := 0
  cover  : Option (Nat × BitVec 128) := none
  deriving DecidableEq, Repr

/-- A copy that one MST has sent to a pane's multicast buffer (R151). `after` and `rel`: what its MST follows, and whether it
is a release. `here`: it has reached the pane. `rank`: its place in coherence order among the copies that some pane has
read or may read, 0 for none yet. `gone`: a full buffer has retired it before its MST has performed; it is read no more,
and what it covered is read again only once the MST has performed. -/
structure McastCopy where
  pa    : Nat
  bytes : List Byte
  tid   : Nat
  seq   : Nat
  after : Nat := 0
  rel   : Bool := false
  here  : Bool := false
  rank  : Nat := 0
  gone  : Bool := false
  deriving DecidableEq, Repr

/-- A task has read the copy of an MST that has not performed (R151, R281): its number in the task's program order, the MST's
task and number, and the bytes. -/
structure Seen where
  tid  : Nat
  seq  : Nat
  by_  : Nat
  num  : Nat
  loc  : Nat
  len  : Nat
  deriving DecidableEq, Repr

/-- Bytes that a read of an ordered loop has taken ahead of a read of a lower iteration that its own result feeds: the lower
one takes no later value (R279, log 98). `loc` names global bytes with their device, or bytes of local store. -/
structure Early where
  tid    : Nat
  iter   : Nat
  loc    : Nat ⊕ Nat
  bytes  : List Byte
  poison : Bool
  deriving DecidableEq, Repr

/-- A TLB entry: the page's base, its size in bytes, and the table entry (R226, R254). -/
structure TlbEntry where
  vi    : Nat
  base  : Nat
  size  : Nat
  entry : BitVec 64
  deriving DecidableEq, Repr

/-- An invalidation in progress (R255): the translations removed, and the accesses to the range that had translated before
the removal: reads and requests by their words, effects on their way by task and number. -/
structure Inval where
  id   : Nat
  die  : Nat
  vi   : Nat
  lo   : Nat
  hi   : Nat
  old  : List TlbEntry
  reads : List Firing := []
  reqs : List Firing := []
  effects : List (Nat × Nat) := []
  deriving DecidableEq, Repr

/-- Global memory and what serves it (R224 to R226, R254, R255). `hbm` is keyed die × 2^38 + offset; `errs` are the lines
whose bits, in the home cache or in HBM, hold an uncorrectable error that no access has met yet (R225). `checked` is the
size and the CHECKED with which the pages of an interface, keyed vi × 2^52 + base, have translated since their last
invalidation; `ranks` the last rank given to a multicast copy, `seen` the copies read whose MSTs have yet to perform, `early` what reads have taken ahead of lower ones. -/
structure Gm where
  hbm     : List Host.Cell := []
  hbmMeta : Table LineMeta := []
  errs    : List Nat := []
  lines   : Table Line := []
  stamp   : Nat := 0
  mcast   : Table (List McastCopy) := []
  ranks   : Nat := 0
  seen    : List Seen := []
  early   : List Early := []
  tlb     : Table (List TlbEntry) := []
  held    : List WalkMsg := []
  invals  : List Inval := []
  checked : Table (Nat × Bool) := []
  deriving DecidableEq, Repr

/-! ### Local store -/

/-- Local store of every pane (R217 to R220, R286); the granules' state bytes stand in three copies. -/
structure Ls where
  bytes  : List Host.Cell := []
  gst    : Table (BitVec 8) := []
  gst1   : Table (BitVec 8) := []
  gst2   : Table (BitVec 8) := []
  gtrack : Table (BitVec 24) := []
  upset  : Table (List (Nat × Byte)) := []
  corr   : Table Nat := []
  marks  : Table (List Nat) := []
  scrub  : Table Nat := []
  wbs    : List (Nat × Nat) := []
  deriving DecidableEq, Repr

/-! ### Allocation -/

/-- An allocation record (R257). `akey` names its arena's list, which ARENA, POOL and the extents determine; `ovs` is the
address of the state bytes of its overflow copy, which OVF and the length at the spill determine (R223); `maker` is the
creation order of the owner, which tells tasks of one colour apart; `vi` and `ctx` the interface and the context of its pane
whose OVP area takes a carve-out (R214). -/
structure Rec where
  live    : Bool := false
  arena   : Nat := 0
  pool    : Bool := false
  spilled : Bool := false
  base1   : Nat := 0
  len1    : Nat := 0
  base2   : Nat := 0
  len2    : Nat := 0
  count   : Nat := 0
  owner   : Nat := 0
  ovf     : Nat := 0
  gseq    : Nat := 0
  akey    : Nat := 0
  ovs     : Nat := 0
  maker   : Nat := 0
  vi      : Nat := 0
  ctx     : Nat := 0
  deriving DecidableEq, Repr

/-- An arena of a bound context on a pane, or a pane's task pool (R48, R221, R234). Bases and sizes in granules;
`ovBase` is an address, `ovSize` in bytes. `spilling` is the record under way to its place in the overflow area; `last` the
cycle, plus one, of the last event handled and its rank in the order of R231 and R233; `due` the ranks of the attempts that
stand over. -/
structure Arena where
  pane    : Nat := 0
  index   : Nat := 0
  pool    : Bool := false
  base    : Nat := 0
  size    : Nat := 0
  limit   : Nat := 0
  quiet   : Nat := 4096
  vi      : Nat := 0
  ovBase  : Nat := 0
  ovSize  : Nat := 0
  reserve : Bool := false
  waiting : List AllocReq := []
  quietAt : Nat := 0
  spilling : Option (Nat × Nat) := none
  last    : Nat × Nat := (0, 0)
  due     : List Nat := []
  deriving DecidableEq, Repr

structure Al where
  recs   : Table Rec := []
  arenas : Table Arena := []
  gseq   : Nat := 0
  deriving DecidableEq, Repr

/-! ### Tasks, instances, tokens -/

/-- A resume entry (R301). -/
structure Entry where
  iter    : Nat
  count   : Nat
  next    : Bool
  kind    : Bool
  stopped : Bool
  block   : Nat
  deriving DecidableEq, Repr

/-- The loop a task runs (R353): its kind, its oldest uncommitted iteration, the iterations that have committed ahead of
it (R25), and the registers as committed at its start. -/
structure Loop where
  ordered : Bool
  first   : Nat
  done    : List Nat
  regs    : Table Token
  deriving DecidableEq, Repr

/-- A point in a task's program order that the start of a child follows (R274): the effects below `seq`, and the older
iterations that had yet to commit. `order` tells the task from a later one of its colour. -/
structure After where
  tid   : Nat
  order : Nat
  seq   : Nat
  live  : List Nat
  deriving DecidableEq, Repr

/-- A live task (R31 to R33, R208, R288, R293). -/
structure Task where
  die     : Nat := 0
  colour  : Nat := 0
  pane    : Nat := 0
  q       : Nat := 0
  graph   : Nat := 0
  launch  : Nat := 0
  vi      : Nat := 0
  job     : Nat := 0
  regs    : Table Token := []
  writes  : List Nat := []
  carve   : Nat := 0
  stack   : Nat := 0
  granules : Nat := 0
  fut     : Nat := 0
  order   : Nat := 0
  seq     : Nat := 0
  floor   : Nat := 0
  wait    : List After := []
  loop    : Option Loop := none
  entries : List Entry := []
  stopped : Bool := false
  spawned : Bool := false
  born    : Bool := false
  deriving DecidableEq, Repr

/-- Where a frame or a spilled token lies: a granule of the carve-out, or an address in the OVP area (R221, R223). -/
inductive Place where
  | carve (granule : Nat)
  | ovp (va : Nat)
  deriving DecidableEq, Repr

/-- Operations of the engines, with their operands (R179 to R192). -/
inductive Side where
  | addr (a : Nat)
  | handle (h : Nat)
  deriving DecidableEq, Repr

inductive CmdKind where
  | cp (src dst : Side) (bytes : Nat) (rv : Bool)
  | gather (scatter : Bool) (record : Nat)
  | pset (src : Side) (reg : Nat)
  | cpp (src dst : Nat) (groups reg esz : Nat)
  | wload (k j : Nat) (tile : Nat)
  | wmma (k j : Nat) (sat : Bool) (a acc : Nat)
  | cvtt (planes : Nat) (src dst : Nat)
  deriving DecidableEq, Repr

/-- What a store-class word asks for at commit (R14, R16). -/
inductive ReqKind where
  | store (va pa rdev : Nat) (fmt : Tag) (tok : Token) (rel : Option Scope) (checked mst : Bool)
  | atom (op : AtomOp) (va pa rdev : Nat) (fmt : Tag) (r x : Token) (rel : Option Scope)
  | pref (va pa rdev : Nat) (ok : Bool)
  | fence (s : Scope)
  | trap (code : Nat)
  | bkpt (code : Nat)
  | lst (h off : Nat) (fmt : Tag) (tok : Token)
  | lamo (op : AtomOp) (h off : Nat) (fmt : Tag) (x : Token)
  | fes (h off : Nat) (full : Bool)
  | binit (h off n : Nat)
  | barr (h off : Nat)
  | take (h off : Nat)
  | free (h : Nat)
  | rels (h n : Nat)
  | engine (selector sub : Nat) (k : CmdKind)
  | ref (fut : Payload)
  | drop (fut : Payload)
  | launch (card : Nat)
  | cancel (l : Level) (id : Nat)
  | tickw (source va pa rdev : Nat)
  | kvgrow (va : Nat)
  | syswr (n : Nat) (v : Payload)
  | prof (e v : Nat)
  deriving DecidableEq, Repr

/-- A request with its slot, LSID and register target (R145). -/
structure Request where
  slot : Nat
  lsid : Option Nat
  ret  : Option Nat
  kind : ReqKind
  deriving DecidableEq, Repr

/-- How the branch of a block was resolved (R15). -/
inductive Branch where
  | goto (va : Nat) (call : Bool)
  | next (va : Nat)
  | exit (tok : Token)
  deriving DecidableEq, Repr

/-- A live block instance (R12 to R27). `fired`: slots fired; `nulled`: effect slots nulled; `wrote`: WRITE slots with
their tokens; `refs`: futures spawned whose reference the block still holds; `allocs`: records granted to it; `last`: the
cycle, plus one, and the slot of its last issue (R294). -/
structure Inst where
  tid     : Nat := 0
  iter    : Nat := 0
  block   : Nat := 0
  frame   : Option Place := none
  fired   : List Nat := []
  nulled  : List Nat := []
  wrote   : Table Token := []
  reads   : List Nat := []
  seen    : Table Token := []
  requests : List Request := []
  branch  : Option Branch := none
  flags   : BitVec 8 := 0
  refs    : List Payload := []
  allocs  : List Nat := []
  last    : Nat × Nat := (0, 0)
  mayNext : Bool := true
  loopHead : Bool := false
  deriving DecidableEq, Repr

/-- A waiting token with its place (R21, R264): the cell's matching store, the frame, or a spill. -/
inductive TokPlace where
  | store
  | frame (p : Place)
  | spill (p : Place)
  deriving DecidableEq, Repr

structure TokEntry where
  msg   : TokMsg
  since : Nat
  place : TokPlace
  deriving DecidableEq, Repr

/-- A RED reduction of a colour and slot, keyed by the marker's iteration (R138, R139). `srcs`: the instances that sent its
tokens; `stale`: the tokens whose senders have been discarded since, and which the next replaces. -/
structure Red where
  tid   : Nat
  block : Nat
  slot  : Nat
  m     : Nat
  n     : Nat
  mark  : Tag
  kind  : RedKind
  toks  : Table Token
  sent  : Option (Token × BitVec 8)
  srcs  : Table Nat := []
  stale : List Nat := []
  deriving DecidableEq, Repr

/-- What a fired word waits for (R17). -/
inductive Wait where
  | granule
  | future (fut : Payload)
  | timeline (ctx n : Nat)
  | level (l : Level) (key : Nat)
  | page
  | read
  | reg
  | alloc
  | colour
  | order
  deriving DecidableEq, Repr

/-- A ready instance of a word (R240). -/
structure Ready where
  f        : Firing
  since    : Nat
  promoted : Bool
  deriving DecidableEq, Repr

/-- A cell's choice of contexts (R241). -/
structure CellSt where
  ptr      : Nat := 0
  deficits : List Int := [0, 0, 0, 0, 0, 0, 0, 0]
  deriving DecidableEq, Repr

/-- A die's colours (R43, R250): fresh ones from `next` on, then the returned ones in order. -/
structure Pool where
  next     : Nat := 0
  returned : List Nat := []
  deriving DecidableEq, Repr

/-- States of a task record (R256). -/
inductive FutState where
  | free | running | resolved | reclaiming
  deriving DecidableEq, Repr

/-- A task record (R256). -/
structure Fut where
  state  : FutState := .free
  count  : Nat := 0
  stuck  : Bool := false
  gen    : Nat := 0
  colour : Nat := 0
  pane   : Nat := 0
  launch : Nat := 0
  job    : Nat := 0
  result : Token := ⟨.null, 0⟩
  deriving DecidableEq, Repr

/-- A SPAWN that has been counted (R35) and waits for a colour, a record or a carve-out: the pane it chose, the colour
it took, the carve-out granted to it (R193). -/
structure Birth where
  f       : Firing
  pane    : Nat
  launch  : Nat
  entry   : Nat
  colour  : Option Nat := none
  fut     : Option Nat := none
  granted : Option Nat := none
  deriving DecidableEq, Repr

/-- A SPAWN of another device that has come, and waits for a pane, a colour, a record or a carve-out (R193, R231, R250,
R315, log 75); `num` tells it from the others. -/
structure Remote where
  num     : Nat
  r       : RemoteSpawn
  pane    : Option Nat := none
  colour  : Option Nat := none
  fut     : Option Nat := none
  granted : Option Nat := none
  deriving DecidableEq, Repr

/-- A request that waits in line for a colour of a die, or for a task record, since the cycle `age` (R250, R256). -/
structure Queued where
  die    : Nat
  record : Bool
  who    : Asker
  age    : Nat
  deriving DecidableEq, Repr

/-- Tasks and what belongs to them; `pubs` the home pane of the task that last published a tracked unit at PANE scope, by
the unit's key (R268, R287); `rels` the SPAWNs that have yet to perform as releases (R274, R288). -/
structure Wk where
  tasks   : Table Task := []
  insts   : Table Inst := []
  toks    : List TokEntry := []
  reds    : List Red := []
  issue   : List Firing := []
  waits   : List (Firing × Wait) := []
  ready   : List Ready := []
  cells   : Table CellSt := []
  pools   : Table Pool := []
  cooling : Table (List Nat) := []
  futs    : Table Fut := []
  births  : List Birth := []
  remotes : List Remote := []
  line    : List Queued := []
  order   : Nat := 0
  pubs    : Table Nat := []
  rels    : List After := []
  deriving DecidableEq, Repr

/-! ### Graphs and binds -/

/-- A block of a configured graph (R84, R354). -/
structure Blk where
  off    : Nat
  header : Word
  words  : List Word
  deriving DecidableEq, Repr

/-- An arena entry of a descriptor (R48, R354): bytes, L, Q, overflow area. -/
structure ArenaDesc where
  base   : Nat
  size   : Nat
  limit  : Nat
  quiet  : Nat
  ovBase : Nat
  ovSize : Nat
  deriving DecidableEq, Repr

/-- Where a graph's rectangle lies (R253). -/
structure Placement where
  die  : Nat
  pane : Nat
  q    : Nat
  f    : Nat
  deriving DecidableEq, Repr

/-- A completion level's record (R34 to R37, R260). -/
structure Lvl where
  isOpen    : Bool := true
  cancelled : Bool := false
  faults    : Nat := 0
  done      : Bool := false
  forced    : Bool := false
  deriving DecidableEq, Repr

/-- A loaded graph (R100, R246, R354). `base` is the address of its first block. `extra`: panes bound by R352. `bad`: the
cells of its panes that were bad when it was placed there (R215, R252). -/
structure Graph where
  vi      : Nat := 0
  job     : Nat := 0
  number  : Nat := 0
  base    : Nat := 0
  length  : Nat := 0
  width   : Nat := 1
  height  : Nat := 1
  waffles : Nat := 0
  arenas  : List ArenaDesc := []
  blocks  : List Blk := []
  place   : Option Placement := none
  extra   : List Nat := []
  bad     : List Nat := []
  armed   : Bool := false
  phase   : Option Nat := none
  lvl     : Lvl := {}
  deriving DecidableEq, Repr

/-- A bind-record write that waits for a shutter or for the task pool (R251, R352). -/
structure HeldBind where
  die   : Nat
  index : Nat
  v     : BitVec 64
  shutter : Bool
  deriving DecidableEq, Repr

structure Cf where
  graphs : Table Graph := []
  slots  : Table (BitVec 64) := []
  held   : List HeldBind := []
  deriving DecidableEq, Repr

/-! ### Engines -/

/-- The command record of a gather or scatter, read when it starts (R181). -/
structure Gather where
  src  : Side
  dst  : Side
  idx  : Nat
  rowBytes : Nat
  rows : Nat
  deriving DecidableEq, Repr

/-- A row of an accumulator that a WMMA has taken and broadcasts: the granules it will write, with their poison, and the
flags (R81, R190). -/
structure TakenRow where
  row   : Nat
  vals  : List (BitVec 128 × Bool)
  flags : BitVec 8
  deriving DecidableEq, Repr

/-- A numbered command (R171) and how far it has run. `order` tells its task from a later one of the same colour; `recs`
are the records that its handles name, as they stood when it was numbered or started, whose granules stay its own until it
ends (R178); `stopAt` is where a revoked copy stops, or where a command stopped with status 2; `elem` the index of a
gather's row, once taken (R182); `rows`, `planes` and `fp` what the headers checked at the start of a WMMA or CVTT say
(R82); `taken` the rows that a WMMA broadcasts; `acc` the scales of a tile that CVTT has not yet written; `lines` the lines
last counted, of bytes read (0) and written (1) and of the state bytes of spill copies (2, 3) (R263); `graph` the graph whose tile a replayed WLOAD loads (R189). -/
structure Cmd where
  num     : Nat
  tid     : Nat
  order   : Nat
  seq     : Nat
  origin  : Origin
  kind    : CmdKind
  issued  : Nat
  started : Bool := false
  off     : Nat := 0
  row     : Nat := 0
  revoked : Bool := false
  status  : Option Nat := none
  stopAt  : Nat := 0
  recs    : Table Rec := []
  gat     : Option Gather := none
  elem    : Option Int := none
  rows    : Nat := 0
  planes  : Nat := 0
  fp      : Bool := false
  taken   : List TakenRow := []
  acc     : Nat := 0
  lines   : Table Nat := []
  graph   : Nat := 0
  loading : List (BitVec 128 × Bool) := []
  form    : Nat := 0
  perm    : BitVec 832 := 0
  residual : Bool := false
  deriving DecidableEq, Repr

/-- A command context (R171). -/
structure Ctx where
  issued   : Nat := 0
  done     : Nat := 0
  statuses : Table Nat := []
  queue    : List Cmd := []
  deriving DecidableEq, Repr

/-- A leaf's tile (R187): form 1 TERN, 2 I4, 3 I8, its source handle, and its granules after the header. -/
structure Leaf where
  form : Nat
  src  : Nat
  data : List (BitVec 128)
  deriving DecidableEq, Repr

structure En where
  ctxs  : Table Ctx := []
  benes : Table (BitVec 832) := []
  leaves : Table Leaf := []
  deriving DecidableEq, Repr

/-! ### Jobs, launches, inboxes -/

/-- A virtual interface (R243, R247, R318). `inboxAt`: the physical address of its inbox on d0. `stopping`: firmware has
unconfigured it, and the jobs `ending`, which that cancelled, have yet to complete. -/
structure Vi where
  configured : Bool := false
  stopping  : Bool := false
  ending    : List Nat := []
  inboxAt   : Nat := 0
  root      : Nat := 0
  faultBase : Nat := 0
  ringN     : Nat := 0
  saveBase  : Nat := 0
  saveSize  : Nat := 0
  peers     : List Nat := []
  nextLaunch : Nat := 1
  index     : Nat := 0
  put       : Nat := 0
  lost      : Nat := 0
  deriving DecidableEq, Repr

/-- A job (R31, R246): its current phase, and the completion address of its END once taken. -/
structure Job where
  vi    : Nat := 0
  job   : Nat := 0
  phase : Nat := 0
  endAt : Option Nat := none
  lvl   : Lvl := {}
  deriving DecidableEq, Repr

/-- A phase of a job: whether it has begun (R31, R246). -/
structure Phase where
  begun : Bool := false
  lvl   : Lvl := {}
  deriving DecidableEq, Repr

/-- A chunk in the dealer's hand (R242). -/
structure Chunk where
  first   : Nat
  count   : Nat
  pane    : Option Nat := none
  colour  : Option Nat := none
  granted : Option Nat := none
  deriving DecidableEq, Repr

/-- A launch with the fields of its card (R32, R61, R198). `ready`: the card has been read and accepted, and a tick's record
written (R308). `doneAddr`: none until the card has been read. `slot`: the inbox slot it came from, still to be emptied
(R244); `tick` the tick's number and time, and `source` its source, for a tick's launch; `remote` the units
that other devices hold (R35). -/
structure Launch where
  vi       : Nat := 0
  job      : Nat := 0
  id       : Nat := 0
  graph    : Nat := 0
  phase    : Nat := 0
  card     : Nat := 0
  entry    : Nat := 0
  records  : Nat := 0
  recsize  : Nat := 0
  reccount : Nat := 0
  chunkmax : Nat := 0
  carve    : Nat := 0
  doneAddr : Option Nat := none
  ready    : Bool := false
  origin   : Option Origin := none
  slot     : Option Nat := none
  dealt    : Nat := 0
  hand     : Option Chunk := none
  stopDeal : Bool := false
  refused  : Bool := false
  tick     : Option (Nat × Nat) := none
  source   : Option Nat := none
  remote   : Nat := 0
  lvl      : Lvl := {}
  deriving DecidableEq, Repr

/-- A device write, by the die that makes it, which waits for firmware to map its page (R356); the read of a card or the
write of a tick's record, by the launch, and the read of an image, by its interface (R355), each with the address that is
missing. -/
inductive DevAccess where
  | record (die vi va : Nat) (bytes : List Byte)
  | card (launch va : Nat)
  | image (vi va : Nat)
  deriving DecidableEq, Repr

structure Jb where
  vis      : Table Vi := []
  jobs     : Table Job := []
  phases   : Table Phase := []
  launches : Table Launch := []
  heldDev  : List DevAccess := []
  deriving DecidableEq, Repr

/-! ### Ticks and streams -/

/-- A tick that has fired: its number, its time in ns, and the fields of its source as they stood then (R211, R308). -/
structure Fired where
  k      : Nat
  t      : Nat
  grace  : Nat := 0
  card   : BitVec 64 := 0
  policy : Bool := false
  job    : BitVec 64 := 0
  deriving DecidableEq, Repr

/-- A tick whose grace runs (R308), and for each bound stream the slots it froze. -/
structure Grace where
  fired  : Fired
  frozen : List (Nat × Int × Int)
  deriving DecidableEq, Repr

/-- A tick source (R202, R211, R259). -/
structure Tick where
  origin  : BitVec 64 := 0
  period  : BitVec 32 := 0
  grace   : BitVec 32 := 0
  card    : BitVec 64 := 0
  policy  : Bool := false
  count   : Nat := 0
  job     : BitVec 64 := 0
  graces  : List Grace := []
  deferred : List Fired := []
  deriving DecidableEq, Repr

/-- States of a stream slot (R203). -/
inductive SlotState where
  | opened
  | present (late : Bool)
  | late
  | held (src : Int)
  deriving DecidableEq, Repr

/-- A stream (R211, R311 to R313). -/
structure Stream where
  base     : BitVec 64 := 0
  geom     : BitVec 64 := 0
  period   : BitVec 64 := 0
  origin   : BitVec 64 := 0
  late     : Nat := 0
  lateFill : Nat := 0
  dropped  : Nat := 0
  covered  : Int := -1
  slots    : List (Int × SlotState) := []
  filled   : Bool := false
  src      : Int := 0
  deriving DecidableEq, Repr

/-- Tick sources, streams, and the cycle in which slots were last expired (R313). -/
structure Tm where
  expired : Option Nat := none
  ticks   : Table Tick := []
  streams : Table Stream := []
  deriving DecidableEq, Repr

/-! ### System registers -/

/-- System registers; `latch` the steps of R267 to come, by cycle and die, `thaw` the cycle from which a die's counters run
again after LATCHED has been cleared. -/
structure Sr where
  ovp       : Table (BitVec 64) := []
  viCtl     : Table (BitVec 64) := []
  badnode   : Table (BitVec 64) := []
  perfSel   : Table (BitVec 64) := []
  perfCnt   : Table Nat := []
  perfTotal : Table Nat := []
  trigger   : Table (BitVec 64) := []
  faultInfo : Table (BitVec 64) := []
  streamSel : Table (BitVec 64) := []
  latch     : List (Nat × Nat) := []
  thaw      : Table Nat := []
  deriving DecidableEq, Repr

/-! ### Firmware, shutters, boot -/

/-- A KVGROW request (R204, R249), with the cycle, the cell, the slot and the rank of its iteration that order it (R231). -/
structure Mail where
  vi   : Nat
  tid  : Nat
  iter : Nat
  launch : Nat
  reg  : Option Nat
  va   : Nat
  age  : Nat
  cell : Nat
  slot : Nat
  rank : Nat
  deriving DecidableEq, Repr

/-- Mailboxes and grant caches by pane, KVGROWs waiting in age order, the PAGE faults sent, and the TRAP and BKPT records
of maintenance graphs, which go to the management core (R120, R204, R249, R296). -/
structure Fw where
  mailbox : Table Mail := []
  queue   : Table (List Mail) := []
  grants  : Table (List Nat) := []
  records : List Nat := []
  pageFaults : List (Nat × Nat × Nat × Bool) := []
  deriving DecidableEq, Repr

/-- What raised a shutter (R298). -/
inductive Cause where
  | firmware | parity | bind
  deriving DecidableEq, Repr

/-- A shutter under way (R298): the cells that the marker has reached, and whether the cut is complete. -/
structure Shutter where
  cause  : Cause
  marked : List Nat
  cut    : Bool
  deriving DecidableEq, Repr

/-- A saved graph (R299, R300): its shutter's sequence number, whether the hardware resumes it on a new placement (R297), and
whether it has been armed again, its tiles being loaded and its residual commands run before its entries are activated
(R302). -/
structure Saved where
  seq    : Nat
  moves  : Bool
  armed  : Bool
  deriving DecidableEq, Repr

/-- Shutters under way by graph, the graphs that are saved, and the sequence number (R298 to R302). -/
structure Sh where
  active : Table Shutter := []
  saved  : Table Saved := []
  seq    : Nat := 0
  deriving DecidableEq, Repr

/-- An entry of the start log (R322). -/
structure LogEntry where
  step    : Nat
  outcome : Nat
  die     : Nat
  detail  : Nat
  start   : Nat
  whenCyc : Nat
  deriving DecidableEq, Repr

/-- The 16 bytes of an entry of the start log (R322). -/
def logBits (e : LogEntry) : BitVec 128 :=
  BitVec.ofNat 128 (e.step % 16 + e.outcome % 4 * 2 ^ 4 + e.die % 4 * 2 ^ 6 + e.detail % 256 * 2 ^ 8 + e.start % 2 ^ 32 * 2 ^ 32
    + e.whenCyc % 2 ^ 64 * 2 ^ 64)

/-- Answers to management transactions (R322, R324), to remote reads, atomics and SPAWNs (R315), and to a peer's
Pdelay_Req, with the times of its receipt and of the answer (R304). -/
inductive Reply where
  | startLog (es : List (BitVec 128))
  | attestation (report sig : List Byte)
  | remote (tag : Nat) (bytes : List Byte) (poison : Bool) (flags : BitVec 8)
  | pdelay (port seq recv sent : Nat)
  deriving DecidableEq, Repr

/-- Boot, lifecycle, power (R297, R321 to R326). `ports`: the Dretre ports left down, by die and number (R322). -/
structure Bt where
  lifecycle : Lifecycle := .manufacture
  move      : Option Lifecycle := none
  log       : List LogEntry := []
  flashBad  : Table (BitVec 64) := []
  flashMarks : Table (List Nat) := []
  start     : Nat := 1
  ready     : Bool := true
  stopped   : Bool := false
  ports     : List (Nat × Nat) := []
  throttle  : Table Nat := []
  guard     : Table Nat := []
  parity    : Table Nat := []
  replies   : List Reply := []
  deriving DecidableEq, Repr

/-- An input of the outside: the Dretre port by which it comes, where it comes by one, and what it asks for (R315). -/
structure Input where
  port : Option Nat
  act  : Instr
  deriving DecidableEq, Repr

/-- The state of the part. `net`: messages on their way inside the device; `inp`: inputs of the outside, in order of
arrival; `nd`: the counter the free choices are applied to. -/
structure State where
  clk : Clk
  gm  : Gm
  ls  : Ls
  al  : Al
  wk  : Wk
  cf  : Cf
  en  : En
  jb  : Jb
  tm  : Tm
  sr  : Sr
  fw  : Fw
  sh  : Sh
  bt  : Bt
  net : List Instr
  inp : List Input
  nd  : Nat
  deriving DecidableEq, Repr

/-- The machine right after reset: every field at the value the spec states for reset (R217, R306, and the Reset columns
of 08 to 12), or at the value a log entry names (logs 1, 6, 7, 8). -/
def State.reset : State where
  clk := {}
  gm := {}
  ls := {}
  al := {}
  wk := {}
  cf := {}
  en := {}
  jb := {}
  tm := {}
  sr := {}
  fw := {}
  sh := {}
  bt := {}
  net := []
  inp := []
  nd := 0

end Sys2Proof.Machine
end

