-- ==== Sys2Proof/Machine/Table.lean ====
section
/-! DEFINITION. Finite maps in canonical form: keys strictly rising, and with `putD` no entry that equals what an unlisted
key reads as. -/

namespace Sys2Proof.Machine

/-- The entry of a key. -/
def tget {α : Type} : Table α → Nat → Option α
  | [], _ => none
  | (k, v) :: t, x => if x = k then some v else if x < k then none else tget t x

/-- The entry of a key, or what an unlisted key reads as. -/
def tgetD {α : Type} (t : Table α) (k : Nat) (d : α) : α := (tget t k).getD d

/-- Sets an entry. -/
def tput {α : Type} : Table α → Nat → α → Table α
  | [], x, v => [(x, v)]
  | (k, w) :: t, x, v =>
    if x < k then (x, v) :: (k, w) :: t
    else if x = k then (x, v) :: t
    else (k, w) :: tput t x v

/-- Removes an entry. -/
def tdel {α : Type} : Table α → Nat → Table α
  | [], _ => []
  | (k, w) :: t, x => if x < k then (k, w) :: t else if x = k then t else (k, w) :: tdel t x

/-- Sets an entry, removing it where the value is what an unlisted key reads as. -/
def tputD {α : Type} [DecidableEq α] (d : α) (t : Table α) (k : Nat) (v : α) : Table α :=
  if v = d then tdel t k else tput t k v

/-- Applies a function to an entry that is there. -/
def tmod {α : Type} (t : Table α) (k : Nat) (f : α → α) : Table α :=
  match tget t k with
  | some v => tput t k (f v)
  | none => t

/-- Keys strictly rising, all above a bound. -/
def tsorted {α : Type} : Option Nat → Table α → Bool
  | _, [] => true
  | none, (k, _) :: t => tsorted (some k) t
  | some b, (k, _) :: t => decide (b < k) && tsorted (some k) t

/-- The canonical form of a map with a default. -/
def twf {α : Type} [DecidableEq α] (d : α) (t : Table α) : Bool :=
  tsorted none t && t.all fun e => decide (e.2 ≠ d)

/-- The keys whose entries satisfy a predicate. -/
def tkeys {α : Type} (t : Table α) (p : Nat → α → Bool) : List Nat :=
  (t.filter fun e => p e.1 e.2).map Prod.fst

/-- Replaces an element of a list. -/
def lset {α : Type} : List α → Nat → α → List α
  | [], _, _ => []
  | _ :: t, 0, v => v :: t
  | a :: t, n + 1, v => a :: lset t n v

/-- Removes the first element equal to another. -/
def lerase {α : Type} [DecidableEq α] : List α → α → List α
  | [], _ => []
  | a :: t, x => if a = x then t else a :: lerase t x

/-- Bytes of a number, lowest first (R7). -/
def bytesOf : Nat → Nat → List Byte
  | 0, _ => []
  | n + 1, v => BitVec.ofNat 8 (v % 256) :: bytesOf n (v / 256)

/-- The number that bytes hold, lowest first (R7). -/
def natOfBytes : List Byte → Nat
  | [] => 0
  | b :: t => b.toNat + 256 * natOfBytes t

/-- Bits [lo + w − 1 : lo] of a number. -/
def bits (n lo w : Nat) : Nat := n / 2 ^ lo % 2 ^ w

/-- A number with its bits [lo + w − 1 : lo] replaced. -/
def setBits (n lo w v : Nat) : Nat := n - bits n lo w * 2 ^ lo + (v % 2 ^ w) * 2 ^ lo

/-- Numbers from `a` on, `n` of them. -/
def rangeFrom (a : Nat) : Nat → List Nat
  | 0 => []
  | n + 1 => a :: rangeFrom (a + 1) n

end Sys2Proof.Machine
end

