-- ==== Sys2Proof/Machine/Memory.lean ====
section
/-! DEFINITION. Bytes of HBM, the home caches and local store (R217, R218, R224, R225): one byte list each, in canonical
form, an unlisted byte reading as zero as the wipe of R217 leaves it; wider accesses are little-endian (R7). -/

namespace Sys2Proof.Machine

/-- What a byte that nothing has written reads as: the wipe leaves zero (R217). -/
def unlisted : Byte := 0

/-- The canonical form of a byte memory: addresses strictly rising, no entry that an unlisted address reads as. -/
def Memory.wf (m : List Host.Cell) : Bool := twf unlisted m

/-- One byte. -/
def byteAt (m : List Host.Cell) (a : Nat) : Byte := tgetD m a unlisted

/-- Sets one byte, keeping the canonical form. -/
def setByte (m : List Host.Cell) (a : Nat) (b : Byte) : List Host.Cell := tputD unlisted m a b

/-- `n` bytes from `a` on. -/
def bytesAt (m : List Host.Cell) (a : Nat) : Nat → List Byte
  | 0 => []
  | n + 1 => byteAt m a :: bytesAt m (a + 1) n

/-- Writes bytes from `a` on. -/
def setBytes (m : List Host.Cell) (a : Nat) : List Byte → List Host.Cell
  | [] => m
  | b :: t => setBytes (setByte m a b) (a + 1) t

/-! ### Tokens and bytes (R150) -/

/-- The access width of a tag in bytes. -/
def accessWidth (t : Tag) : Nat := if t = .addr then 8 else max 1 ((tagBits t + 7) / 8)

/-- The token that a load of bytes yields: little-endian, I tags sign-extended, bits that FMT does not use dropped. -/
def loadTok (fmt : Tag) (bs : List Byte) : Token := mkTok fmt (natOfBytes bs)

/-- The bytes that a store writes: the used bits of the payload, the rest of the width zero. -/
def storeBytes (fmt : Tag) (t : Token) : List Byte := bytesOf (accessWidth fmt) (t.val.toNat % 2 ^ tagBits fmt)

/-! ### Physical addresses (R224) -/

/-- XOR of `n` two-bit digits of a number, from the least significant. -/
def xorDigits : Nat → Nat → Nat
  | 0, _ => 0
  | n + 1, v => Nat.xor (v % 4) (xorDigits n (v / 4))

/-- XOR of `n` bits, every second one. -/
def xorBits : Nat → Nat → Nat
  | 0, _ => 0
  | n + 1, v => Nat.xor (v % 2) (xorBits n (v / 4))

/-- The home die of a physical address and the offset in that die's HBM; none outside the windows. -/
def homeOf (pa : Nat) : Option (Nat × Nat) :=
  match bits pa 40 8 with
  | 0 =>
    if bits pa 0 40 < 768 * 1073741824 then
      some (xorDigits 18 (pa / 4096), bits pa 14 34 * 4096 + bits pa 0 12)
    else none
  | 1 => if bits pa 0 38 < Config.dieHbmBytes then some (bits pa 38 2, bits pa 0 38) else none
  | 2 =>
    if bits pa 0 39 < 2 * Config.dieHbmBytes then
      some (2 * bits pa 39 1 + xorBits 19 (pa / 4096), bits pa 13 26 * 4096 + bits pa 0 12)
    else none
  | _ => none

/-- The HBM key of a line of a physical address. -/
def hbmKey (pa : Nat) : Option Nat := (homeOf pa).map fun h => h.1 * 2 ^ 38 + h.2

/-- The home-cache set of a line: its die and its set (R225). -/
def lineSet (line : Nat) : Option (Nat × Nat) := (homeOf (line * 128)).map fun h => (h.1, h.2 / 128 % 16384)

/-- A line as HBM holds it (R225). -/
def lineFromHbm (g : Gm) (line : Nat) : Line :=
  match hbmKey (line * 128) with
  | none => {}
  | some k =>
    let m := tgetD g.hbmMeta (k / 128) {}
    { data := BitVec.ofNat 1024 (natOfBytes (bytesAt g.hbm k 128)), poison := m.poison, track0 := m.track0,
      track1 := m.track1, cover := m.cover }

/-- Writes a line back to HBM with its poison bit and tracking words (R225, R286). -/
def writeBack (g : Gm) (line : Nat) (l : Line) : Gm :=
  match hbmKey (line * 128) with
  | none => g
  | some k =>
    { g with hbm := setBytes g.hbm k (bytesOf 128 l.data.toNat),
             hbmMeta := tputD {} g.hbmMeta (k / 128) ⟨l.poison, l.track0, l.track1, l.cover⟩ }

/-- The present lines of a set. -/
def setLines (g : Gm) (st : Nat × Nat) : Table Line := g.lines.filter fun e => lineSet e.1 = some st

/-- The least recently used line of a list. -/
def oldestLine : Table Line → Option (Nat × Line)
  | [] => none
  | (k, l) :: t =>
    match oldestLine t with
    | none => some (k, l)
    | some (k', l') => if l'.stamp < l.stamp then some (k', l') else some (k, l)

/-- Makes room in a set of 24 ways: the least recently used line leaves, and is written back if it has changed (R225). -/
def evictFor (g : Gm) (line : Nat) : Gm :=
  match lineSet line with
  | none => g
  | some st =>
    let ls := setLines g st
    if ls.length < 24 then g
    else match oldestLine ls with
      | none => g
      | some (k, l) =>
        let g' := if l.dirty then writeBack g k l else g
        { g' with lines := tdel g'.lines k }

/-- Fills an absent line of an existing address from HBM (R225). -/
def fillLine (g : Gm) (line : Nat) : Gm :=
  match tget g.lines line, lineSet line with
  | some _, _ => g
  | none, none => g
  | none, some _ =>
    let g' := evictFor g line
    { g' with lines := tput g'.lines line { lineFromHbm g' line with stamp := g'.stamp }, stamp := g'.stamp + 1 }

/-- Whether a line's bits hold an uncorrectable error: each word of 64 bits is SEC-DED (R225). -/
def lineError (g : Gm) (line : Nat) : Bool := g.errs.contains line

/-- Marks a line as used now; an uncorrectable error that the access meets sets its poison bit, which HBM keeps once the line
is written back (R225). -/
def touchLine (g : Gm) (line : Nat) : Gm :=
  { g with lines := tmod g.lines line (fun l =>
             { l with stamp := g.stamp, poison := l.poison || lineError g line, dirty := l.dirty || lineError g line }),
           stamp := g.stamp + 1, errs := g.errs.filter fun k => k ≠ line }

/-- A line of the home cache, filled first where it is absent. -/
def withLine (g : Gm) (line : Nat) : Gm := touchLine (fillLine g line) line

/-- The line's content as an access finds it: the cached line, or HBM's where it is absent. -/
def lineAt (g : Gm) (line : Nat) : Line :=
  let l := (tget g.lines line).getD (lineFromHbm g line)
  { l with poison := l.poison || lineError g line }

/-- A byte of global memory by physical address, as an access would find it. -/
def paByte (g : Gm) (pa : Nat) : Byte := BitVec.ofNat 8 (bits (lineAt g (pa / 128)).data.toNat (8 * (pa % 128)) 8)

/-- `n` bytes by physical address. -/
def paBytes (g : Gm) (pa : Nat) : Nat → List Byte
  | 0 => []
  | n + 1 => paByte g pa :: paBytes g (pa + 1) n

/-- Replaces bytes of a 128-byte value from an offset on; bytes that are none stay. -/
def patchData (d : Nat) (off : Nat) : List (Option Byte) → Nat
  | [] => d
  | none :: t => patchData d (off + 1) t
  | some b :: t => patchData (setBits d (8 * off) 8 b.toNat) (off + 1) t

/-- Writes bytes within one line at its home. The line becomes present (R225); `f` changes its bookkeeping. -/
def writeLine (g : Gm) (pa : Nat) (bs : List (Option Byte)) (f : Line → Line) : Gm :=
  let g' := withLine g (pa / 128)
  let upd := fun (l : Line) =>
    f { l with data := BitVec.ofNat 1024 (patchData l.data.toNat (pa % 128) bs), dirty := true }
  { g' with lines := tmod g'.lines (pa / 128) upd }

/-! ### Local store -/

/-- The byte key of a granule of a pane's local store. -/
def granuleByte (g : Nat) : Nat := g * 16

/-- The bitwise vote of three copies (R218). -/
def vote3 (a b c : BitVec 8) : BitVec 8 := (a &&& b) ||| (b &&& c) ||| (a &&& c)

/-- A vote that yields STATE 11 is an uncorrectable error: the granule is FULL with POISON (R218). -/
def votedState (v : Nat) : Nat := if v % 4 = 3 then setBits (v - 2) 3 1 1 else v

/-- A granule's state byte, voted of its three copies (R218). -/
def gstAt (l : Ls) (g : Nat) : Nat := votedState (vote3 (tgetD l.gst g 0) (tgetD l.gst1 g 0) (tgetD l.gst2 g 0)).toNat

/-- A write of a state byte writes its three copies. -/
def setGst (l : Ls) (g : Nat) (v : Nat) : Ls :=
  { l with gst := tputD 0 l.gst g (BitVec.ofNat 8 v), gst1 := tputD 0 l.gst1 g (BitVec.ofNat 8 v),
           gst2 := tputD 0 l.gst2 g (BitVec.ofNat 8 v) }

/-- STATE of a granule: 0 EMPTY, 1 FULL, 2 BARRIER (R218). -/
def gState (l : Ls) (g : Nat) : Nat := bits (gstAt l g) 0 2
def gRsv (l : Ls) (g : Nat) : Bool := bits (gstAt l g) 2 1 = 1
def gPoison (l : Ls) (g : Nat) : Bool := bits (gstAt l g) 3 1 = 1
def gMark (l : Ls) (g : Nat) : Nat := bits (gstAt l g) 4 2

/-- Sets a field of the state byte. -/
def setGField (l : Ls) (g lo w v : Nat) : Ls := setGst l g (setBits (gstAt l g) lo w v)

def b1 (b : Bool) : Nat := if b then 1 else 0

/-- The 16 bytes of a granule. -/
def granuleAt (l : Ls) (g : Nat) : List Byte := bytesAt l.bytes (granuleByte g) 16

/-! ### Error correction of local store (R219, R220) -/

/-- The bank of a code word's symbol: two symbols of each of 16 data and 2 check banks, in the order of the bytes (log 118). -/
def symbolBank (sym : Nat) : Nat := sym / 2

/-- Symbols in error outside the failed banks. -/
def liveErrors (l : Ls) (cw : Nat) : List Nat :=
  ((tgetD l.upset cw []).map Prod.fst).filter fun y => !(tgetD l.marks (cw / 32768) []).contains (symbolBank y)

/-- 2e + f ≤ 4, with two erased symbols for each failed bank (R219, R220). -/
def correctable (l : Ls) (cw : Nat) : Bool :=
  2 * (liveErrors l cw).length + 2 * (tgetD l.marks (cw / 32768) []).length ≤ 4

/-- The symbols in error after `n` bytes of a granule have been written: of a word that can be corrected none, else those
that the write did not replace (log 120). -/
def upsetAfter (l : Ls) (g off n : Nat) : Table (List (Nat × Byte)) :=
  let lo := g % 2 * 16 + off
  if correctable l (g / 2) then tdel l.upset (g / 2)
  else tputD [] l.upset (g / 2) ((tgetD l.upset (g / 2) []).filter fun y => y.1 < lo || lo + n ≤ y.1)

/-- Bytes of a granule from an offset on; the code word is encoded anew. -/
def setGranuleBytes (l : Ls) (g off : Nat) (bs : List Byte) : Ls :=
  { l with bytes := setBytes l.bytes (granuleByte g + off) bs, upset := upsetAfter l g off bs.length }

end Sys2Proof.Machine
end

