-- ==== Sys2Proof/Machine/Translate.lean ====
section
/-! DEFINITION. Page tables, walks and TLBs (R226, R254, R255): from a virtual address to a physical one. -/

namespace Sys2Proof.Machine

/-- The lowest bit and the number of index bits of each level, and the alignment of its tables (R254). -/
def levelShape : Nat → Nat × Nat × Nat
  | 0 => (42, 10, 8192)
  | 1 => (32, 10, 8192)
  | 2 => (27, 5, 256)
  | 3 => (21, 6, 512)
  | _ => (16, 5, 256)

/-- What a walk ends with: a missing entry with its address, a refusal, or a leaf with its page (R254). -/
inductive Walk where
  | missing (level : Nat) (entryPa : Nat) (entry : Nat)
  | refused
  | leaf (page : TlbEntry)
  deriving DecidableEq, Repr

def eBit (e k : Nat) : Bool := bits e k 1 = 1
def eRdev (e : Nat) : Nat := bits e 52 6
def eChecked (e : Nat) : Bool := eBit e 4
def ePin (e : Nat) : Bool := eBit e 5

/-- A walk from a table on, by the levels left (R254). `acc` are the entry addresses read so far. -/
def walkFrom (g : Gm) (vi va : Nat) : List Nat → Nat → List Nat → Walk × List Nat
  | [], _, acc => (.refused, acc)
  | lv :: more, table, acc =>
    let (lo, w, al) := levelShape lv
    if table % al ≠ 0 then (.refused, acc)
    else
      let pa := table + 8 * bits va lo w
      let e := natOfBytes (paBytes g pa 8)
      let acc' := pa :: acc
      if !eBit e 0 then (.missing lv pa e, acc')
      else if eBit e 7 ∨ bits e 58 6 ≠ 0 then (.refused, acc')
      else if eBit e 1 then
        if lv = 0 ∨ bits e 48 2 = 3 ∨ bits e 40 8 ≠ 0 ∨ bits e 8 32 * 256 % 2 ^ lo ≠ 0 then (.refused, acc')
        else (.leaf ⟨vi, va / 2 ^ lo * 2 ^ lo, 2 ^ lo, BitVec.ofNat 64 e⟩, acc')
      else if lv = 4 then (.refused, acc')
      else walkFrom g vi va more (bits e 8 40 * 256) acc'

/-- A walk from an interface's root, with the entries it reads (R254). -/
def walk (s : State) (vi va : Nat) : Walk × List Nat :=
  walkFrom s.gm vi va [0, 1, 2, 3, 4] (tgetD s.jb.vis vi {}).root []

/-- The walker reads tables through the home caches (R225, R254). -/
def touchAll (g : Gm) : List Nat → Gm
  | [] => g
  | pa :: t => withLine (touchAll g t) (pa / 128)

/-- The physical address of an address within a page, from PLACE and DIE (R224, R254). -/
def pagePa (t : TlbEntry) (va : Nat) : Nat :=
  let e := t.entry.toNat
  let low := bits e 8 32 * 256 + va % t.size
  match bits e 48 2 with
  | 0 => low
  | 1 => 2 ^ 40 + setBits low 38 2 (bits e 50 2)
  | _ => 2 * 2 ^ 40 + setBits low 39 1 (bits e 50 1)

/-- Kinds of access for the permission check (R142). -/
inductive Access where
  | read | write | atomic
  deriving DecidableEq, Repr

/-- The permissions of an entry, and a physical address that exists (R142, R224, R254). -/
def permits (s : State) (t : TlbEntry) (a : Access) (va : Nat) : Bool :=
  let e := t.entry.toNat
  let rd := eBit e 2
  let wr := eBit e 3
  let ok := match a with
    | .read => rd
    | .write => wr
    | .atomic => rd && wr
  let r := eRdev e
  ok && (if r = 0 then (homeOf (pagePa t va)).isSome else (tgetD s.jb.vis t.vi {}).peers.contains r)

/-- A translation: its page, its physical address, its peer device (R142, R316). -/
inductive Xlat where
  | miss
  | missing
  | refused
  | hit (pa rdev : Nat) (checked : Bool)
  deriving DecidableEq, Repr

def xlatOf (s : State) (t : TlbEntry) (a : Access) (va : Nat) : Xlat :=
  if permits s t a va then .hit (pagePa t va) (eRdev t.entry.toNat) (eChecked t.entry.toNat) else .refused

/-- The TLB entry of a pane for an address (R226). -/
def tlbFind (s : State) (pane vi va : Nat) : Option TlbEntry :=
  (tgetD s.gm.tlb pane []).find? fun t => t.vi = vi && t.base ≤ va && va < t.base + t.size

/-- Translation through a pane's TLB (R142); a use makes the entry the most recent. -/
def tlbXlat (s : State) (pane vi va : Nat) (a : Access) : Xlat :=
  match tlbFind s pane vi va with
  | some t => xlatOf s t a va
  | none => .miss

/-- Drops the least recent unpinned entry of a list held most recent first; a pinned one stays (R226, R228, log 104). -/
def dropOldest (l : List TlbEntry) : List TlbEntry :=
  match l.reverse.find? fun t => !ePin t.entry.toNat with
  | some t => lerase l t
  | none => l

/-- Enters a translation into a pane's TLB of 64 entries (R226). -/
def tlbPut (s : State) (pane : Nat) (t : TlbEntry) : State :=
  let l := (tgetD s.gm.tlb pane []).filter fun x => !(x.vi = t.vi && x.base = t.base && x.size = t.size)
  let l' := if l.length < 64 then l else dropOldest l
  { s with gm := { s.gm with tlb := tput s.gm.tlb pane (t :: l') } }

/-- The panes on which an interface has a bound context (R251). -/
def viPanes (s : State) (vi : Nat) : List Nat :=
  (s.cf.slots.filter fun e => bits e.2.toNat 44 1 = 1 && bits e.2.toNat 16 6 = vi).map fun e =>
    e.1 / 1536 * 192 + e.1 % 1536 / 8

/-- The CHECKED with which a page translates first since its last invalidation is noted (R286, log 30). -/
def noteChecked (s : State) (t : TlbEntry) : State :=
  let k := t.vi * 2 ^ 52 + t.base
  if (tget s.gm.checked k).isSome then s
  else { s with gm := { s.gm with checked := tput s.gm.checked k (t.size, eChecked t.entry.toNat) } }

/-- A pinned translation stands in every TLB of its interface (R228, R254). -/
def tlbPin (s : State) (t : TlbEntry) : State := (viPanes s t.vi).foldl (fun a p => tlbPut a p t) (noteChecked s t)

/-- Enters a translation after a walk; a pinned one into every TLB of its interface (R228, R254). -/
def tlbInsert (s : State) (pane : Nat) (t : TlbEntry) : State :=
  if ePin t.entry.toNat then tlbPin (tlbPut s pane t) t else noteChecked (tlbPut s pane t) t

/-- A pane joins the interface's TLBs: the pinned translations held so far (R228, R254). -/
def tlbJoin (s : State) (vi pane : Nat) : State :=
  let ts := s.gm.tlb.flatMap fun e => e.2.filter fun t => t.vi = vi && ePin t.entry.toNat
  ts.foldl (fun a t => tlbPut a pane t) s

/-- Makes the entry of an address the most recent of its TLB. -/
def tlbUse (s : State) (pane vi va : Nat) : State :=
  match tlbFind s pane vi va with
  | some t => { s with gm := { s.gm with tlb := tput s.gm.tlb pane (t :: lerase (tgetD s.gm.tlb pane []) t) } }
  | none => s

/-- Translation of a device access, which has no TLB of its own (R355, R356). -/
def devXlat (s : State) (vi va : Nat) (a : Access) : Xlat :=
  match (walk s vi va).1 with
  | .missing _ _ _ => .missing
  | .refused => .refused
  | .leaf t => xlatOf s t a va

/-- One byte written by the device through an interface's page table, whose entries are read (R225). -/
def devPut (s : State) (vi va : Nat) (b : Byte) : State :=
  match devXlat s vi va .write with
  | .hit pa 0 _ => { s with gm := writeLine (touchAll s.gm (walk s vi va).2) pa [some b] id }
  | _ => s

/-- Bytes written by the device. -/
def devPutAll (s : State) (vi va : Nat) : List Byte → State
  | [] => s
  | b :: t => devPutAll (devPut s vi va b) vi (va + 1) t

/-- What the translations of a range of bytes say: a missing page first, then a refusal (R355). -/
def devRange (s : State) (vi va : Nat) (a : Access) : Nat → Xlat
  | 0 => .hit 0 0 false
  | n + 1 =>
    match devXlat s vi va a with
    | .hit pa r c => if n = 0 then .hit pa r c else devXlat s vi (va + n) a
    | x => x

/-- Bytes read by the device through an interface's page table; a peer's bytes are what the peer answers (R315, R316). -/
def devGet (s : State) (vi va : Nat) : Nat → List Byte
  | 0 => []
  | n + 1 =>
    (match devXlat s vi va .read with
      | .hit pa r _ => if r = 0 then paByte s.gm pa else Config.peerData r pa s.nd
      | _ => 0) :: devGet s vi (va + 1) n

/-- Whether an address lies in a poisoned line (R149); of a peer's line the peer tells (R316). -/
def devPoison (s : State) (vi va : Nat) : Bool :=
  match devXlat s vi va .read with
  | .hit pa r _ => if r = 0 then (lineAt s.gm (pa / 128)).poison else Config.peerPoison r pa s.nd
  | _ => false

/-- The lines that an access of an address reads become present: the tables' entries, and the line itself (R225). -/
def touchAt (vi : Nat) (s : State) (va : Nat) : State :=
  let w := walk s vi va
  let g := touchAll s.gm w.2
  match w.1 with
  | .leaf t =>
    noteChecked (if eRdev t.entry.toNat = 0 then { s with gm := withLine g (pagePa t va / 128) } else { s with gm := g }) t
  | _ => { s with gm := g }

/-- The same for a range of bytes that the device reads or writes (R225). -/
def devTouch (s : State) (vi va n : Nat) : State :=
  ((List.range ((n + 127) / 128)).map fun k => va + 128 * k).foldl (touchAt vi) (if n = 0 then s else touchAt vi s (va + (n - 1)))

/-- The first address of a range that has no translation. -/
def missingVa (s : State) (vi va : Nat) (a : Access) (n : Nat) : Nat :=
  match devXlat s vi va a with
  | .missing => va
  | _ => va + (n - 1)

/-- The page faults sent to a die's management core (R296). -/
def sendPageFault (s : State) (die vi va : Nat) (write : Bool) : State :=
  if s.fw.pageFaults.contains (die, vi, va, write) then s
  else { s with fw := { s.fw with pageFaults := s.fw.pageFaults ++ [(die, vi, va, write)] } }

end Sys2Proof.Machine
end

