-- ==== Sys2Proof/Machine/Base.lean ====
section
/-! DEFINITION. Names and views of the state's parts: tasks, instances, graphs, the cells their words lie on, the levels of
work, and the messages. -/

namespace Sys2Proof.Machine

/-- Sends messages. -/
def post (s : State) (ms : List Instr) : State := { s with net := s.net ++ ms }

/-- Puts a message back at the head of the queue. -/
def repost (s : State) (m : Instr) : State := { s with net := m :: s.net }

/-! ### Keys -/

def instKey (tid iter : Nat) : Nat := tid * 65536 + iter
def jobKey (vi job : Nat) : Nat := vi * 65536 + job
def graphKey (vi job n : Nat) : Nat := jobKey vi job * 65536 + n
def phaseKey (vi job n : Nat) : Nat := jobKey vi job * 2 ^ 32 + n
def launchKey (vi id : Nat) : Nat := vi * 2 ^ 32 + id
def paneDie (p : Nat) : Nat := p / 192

/-! ### Tasks and instances -/

def taskAt (s : State) (tid : Nat) : Option Task := tget s.wk.tasks tid
def taskD (s : State) (tid : Nat) : Task := tgetD s.wk.tasks tid {}
def instAt (s : State) (tid iter : Nat) : Option Inst := tget s.wk.insts (instKey tid iter)

def setTask (s : State) (tid : Nat) (t : Task) : State := { s with wk := { s.wk with tasks := tput s.wk.tasks tid t } }
def modTask (s : State) (tid : Nat) (f : Task → Task) : State :=
  { s with wk := { s.wk with tasks := tmod s.wk.tasks tid f } }
def setInst (s : State) (i : Inst) : State :=
  { s with wk := { s.wk with insts := tput s.wk.insts (instKey i.tid i.iter) i } }
def modInst (s : State) (tid iter : Nat) (f : Inst → Inst) : State :=
  { s with wk := { s.wk with insts := tmod s.wk.insts (instKey tid iter) f } }

/-- The live instances of a task. -/
def instsOf (s : State) (tid : Nat) : List Inst := (s.wk.insts.filter fun e => e.2.tid = tid).map Prod.snd

/-- Iterations relative to another, modulo 65,536 (R27). -/
def iterRank (base i : Nat) : Nat := (i + iterMod - base % iterMod) % iterMod

/-- The oldest uncommitted iteration of a task's loop (R27). -/
def oldestIter (s : State) (tid : Nat) : Nat := match (taskD s tid).loop with | some l => l.first | none => 0

/-- A register's value; one never written holds NULL (R18, R208). -/
def regOf (t : Task) (r : Nat) : Token := tgetD t.regs r nullTok

def setReg (t : Task) (r : Nat) (v : Token) : Task := { t with regs := tputD nullTok t.regs r v }

/-- The sticky flags of g61 (R209). -/
def orFlags (t : Task) (f : FlagSet) : Task :=
  if f = 0 then t else setReg t 61 (mkTok .n32 ((regOf t 61).val.toNat % 256 ||| f.toNat))

/-! ### Graphs -/

def graphOf (s : State) (t : Task) : Graph := tgetD s.cf.graphs t.graph {}

/-- The block of a graph whose header lies at an address (R100, R354). -/
def blockAt (g : Graph) (va : Nat) : Option Blk := g.blocks.find? fun b => g.base + b.off = va

/-- The offset of an address from the graph's first block, and back (R301); addresses are 52 bits (R9). -/
def offOf (g : Graph) (va : Nat) : Nat := (va + 2 ^ 52 - g.base % 2 ^ 52) % 2 ^ 52
def vaOf (g : Graph) (off : Nat) : Nat := (g.base + off) % 2 ^ 52

def hdrLen (h : Word) : Nat := fld h 0 7 + 1
def hdrW (h : Word) : Nat := fld h 7 5
def hdrS (h : Word) : Nat := fld h 12 5
def hdrFs (h : Word) : Nat := fld h 17 2
def hdrRe (h : Word) : Bool := fld h 19 1 = 1
def hdrUo (h : Word) : Bool := fld h 20 1 = 1

/-- Granules of a frame (R84). -/
def frameGranules (h : Word) : Nat :=
  match hdrFs h with
  | 0 => 0 | 1 => 4 | 2 => 8 | _ => 16

/-- The block of an instance. -/
def blkOf (s : State) (i : Inst) : Option Blk := blockAt (graphOf s (taskD s i.tid)) i.block

/-- The word of a slot, from the configured graph (R84, R100). -/
def wordAt (s : State) (tid block slot : Nat) : Option Word :=
  match blockAt (graphOf s (taskD s tid)) block with
  | some b => b.words[slot]?
  | none => none

/-- The instruction of a slot; none where the word is not an instruction (R102). -/
def instrAt (s : State) (tid block slot : Nat) : Option Instr :=
  match wordAt s tid block slot with
  | some w => (match decode w with | .ok i => some i | .error _ => none)
  | none => none

/-- The first 64-byte boundary after a block's last word (R15). -/
def fallThrough (block : Nat) (h : Word) : Nat := (block + 4 + 4 * hdrLen h + 63) / 64 * 64

/-! ### Placement (R252) -/

/-- Whether a cell of a pane is bad: cell index x mod 4 + 4 × (y mod 4) (R215, R252). -/
def cellXY (pane idx : Nat) : Nat × Nat :=
  let p := pane % 192
  (p % 16 * 4 + idx % 4, p / 16 * 4 + idx / 4)

def cellBad (s : State) (pane idx : Nat) : Bool :=
  let (x, y) := cellXY pane idx
  bits (tgetD s.sr.badnode (paneDie pane * 48 + y) 0).toNat x 1 = 1

/-- The cells of panes by their keys, but for some. -/
def cellsBut (bad panes : List Nat) : List Nat :=
  panes.flatMap fun p => ((List.range 16).map fun i => p * 16 + i).filter fun k => !bad.contains k

/-- The bad cells of panes. -/
def badCells (s : State) (panes : List Nat) : List Nat :=
  panes.flatMap fun p => ((List.range 16).filter fun i => cellBad s p i).map fun i => p * 16 + i

/-- The good cells of panes, in the order of R252. -/
def goodCells (s : State) (panes : List Nat) : List Nat := cellsBut (badCells s panes) panes

/-- The panes of a rectangle, row by row, as keys. -/
def rectPanes (g : Graph) (pl : Placement) : List Nat :=
  (List.range g.height).flatMap fun r => (List.range g.width).map fun c => pl.die * 192 + pl.pane + 16 * r + c

/-- The panes bound to a graph: its rectangle and those of R352. -/
def regionPanes (g : Graph) : List Nat :=
  match g.place with
  | some pl => rectPanes g pl ++ g.extra
  | none => g.extra

/-- The footprint that holds a pane (R252, R352). -/
def footprint (g : Graph) (pane : Nat) : List Nat :=
  match g.place with
  | some pl =>
    if (rectPanes g pl).contains pane then
      let col := pane % 16 - pl.pane % 16
      (List.range pl.f).map fun k => pane - col % pl.f + k
    else [pane]
  | none => [pane]

/-- The number of a word in its graph: blocks in address order, slots ascending (R252). -/
def wordIndex : List Blk → Nat → Nat → Nat
  | [], _, slot => slot
  | b :: t, off, slot => if b.off = off then slot else b.words.length + wordIndex t off slot

/-- The cell on which a task's word lies (R252). -/
def cellOf (s : State) (t : Task) (block slot : Nat) : Nat :=
  let g := graphOf s t
  ((cellsBut g.bad (footprint g t.pane))[wordIndex g.blocks (block - g.base) slot / 8]?).getD (t.pane * 16)

/-- A shutter's marker has reached a cell for a graph, or the graph is saved: the cell issues nothing more for it (R298). -/
def markedAt (s : State) (gk cell : Nat) : Bool :=
  match tget s.sh.active gk with
  | some x => x.cut || x.marked.contains cell
  | none => (tget s.sh.saved gk).isSome

/-- The marker has reached the cell of a word. -/
def fireMarked (s : State) (f : Firing) : Bool :=
  markedAt s (taskD s f.tid).graph (cellOf s (taskD s f.tid) f.block f.slot)

/-- The marker has reached a cell on which a word of a task's block lies. -/
def blockMarked (s : State) (t : Task) (block words : Nat) : Bool :=
  (List.range words).any fun k => markedAt s t.graph (cellOf s t block k)

/-- The bind record of a pane and context (R251). -/
def bindRec (s : State) (pane q : Nat) : Nat := (tgetD s.cf.slots (pane / 192 * 1536 + 8 * (pane % 192) + q) 0).toNat
def bindValid (r : Nat) : Bool := bits r 44 1 = 1
def bindGraph (r : Nat) : Nat := graphKey (bits r 16 6) (bits r 22 16) (bits r 0 16)
/-- w_q: 0 with VALID set is taken as 1 (R251). -/
def bindWeight (r : Nat) : Nat := max 1 (bits r 38 4)
def bindMaint (r : Nat) : Bool := bits r 42 2 = 3

/-- The contexts bound on a pane. -/
def boundContexts (s : State) (pane : Nat) : List Nat := (List.range 8).filter fun q => bindValid (bindRec s pane q)

/-- The panes of a region on which a context is bound to the graph (R251, R352). -/
def boundPanes (s : State) (gk : Nat) : List Nat :=
  (regionPanes (tgetD s.cf.graphs gk {})).filter fun p => (boundContexts s p).any fun q => bindGraph (bindRec s p q) = gk

/-- Whether a task's graph is a maintenance graph (R213, R251). -/
def taskMaint (s : State) (t : Task) : Bool := bindMaint (bindRec s t.pane t.q)

/-- W, the sum of the weights of a pane's bound contexts (R30). -/
def weightSum (s : State) (pane : Nat) : Nat :=
  ((boundContexts s pane).map fun q => bindWeight (bindRec s pane q)).foldl (· + ·) 0

/-! ### Levels of work (R31, R34 to R37) -/

def modGraph (s : State) (k : Nat) (f : Graph → Graph) : State :=
  { s with cf := { s.cf with graphs := tmod s.cf.graphs k f } }
def modJob (s : State) (k : Nat) (f : Job → Job) : State := { s with jb := { s.jb with jobs := tmod s.jb.jobs k f } }
def modPhase (s : State) (k : Nat) (f : Phase → Phase) : State :=
  { s with jb := { s.jb with phases := tmod s.jb.phases k f } }
def modLaunch (s : State) (k : Nat) (f : Launch → Launch) : State :=
  { s with jb := { s.jb with launches := tmod s.jb.launches k f } }
def modVi (s : State) (k : Nat) (f : Vi → Vi) : State := { s with jb := { s.jb with vis := tmod s.jb.vis k f } }
def viD (s : State) (v : Nat) : Vi := tgetD s.jb.vis v {}

/-- A level's record with one more fault record, saturating (R36). -/
def Lvl.addFault (l : Lvl) : Lvl := { l with faults := min 65535 (l.faults + 1) }

/-- A fault record counts in the job, … -/
def faultJob (s : State) (k : Nat) : State := modJob s k fun j => { j with lvl := j.lvl.addFault }
/-- … in a phase and its job, … -/
def faultPhase (s : State) (k : Nat) : State :=
  faultJob (modPhase s k fun p => { p with lvl := p.lvl.addFault }) (k / 2 ^ 32)
/-- … in a graph and the levels above it, … -/
def faultGraph (s : State) (k : Nat) : State :=
  let s' := modGraph s k fun g => { g with lvl := g.lvl.addFault }
  match (tgetD s.cf.graphs k {}).phase with
  | some n => faultPhase s' (k / 65536 * 2 ^ 32 + n)
  | none => faultJob s' (k / 65536)
/-- The key that no graph has: the graph of a launch whose card is unread, or names no graph of its phase (R198). -/
def noGraph : Nat := 2 ^ 60

/-- … and in a launch and every level that contains it (R36). -/
def faultLaunch (s : State) (k : Nat) : State :=
  match tget s.jb.launches k with
  | some l =>
    let s' := modLaunch s k fun l => { l with lvl := l.lvl.addFault }
    if l.graph = noGraph then faultPhase s' (phaseKey l.vi l.job l.phase) else faultGraph s' l.graph
  | none => s

/-- STATE of a completed level (R36). -/
def Lvl.stateCode (l : Lvl) : Nat := if l.cancelled then 2 else if l.forced ∨ l.faults ≠ 0 then 3 else 1

/-! ### Time -/

/-- Device time of a die, as a TIME payload (R10, R305); the clock counts units of 0.0001 ns. -/
def dieTimeNs (s : State) (die : Nat) : Nat := (s.clk.times[die]?).getD 0 / 10000
def dieTime (s : State) (die : Nat) : Payload := timeOfNs (dieTimeNs s die)

/-! ### Memory effects under way -/

/-- The task and sequence number of an unperformed effect of a task (R270). -/
def effectOf : Instr → Option (Nat × Nat)
  | .globalWritePerform m => some (m.tid, m.seq)
  | .atomicPerform m => some (m.tid, m.seq)
  | _ => none

/-- The task and sequence number of a global read that is not yet performed. -/
def readOf : Instr → Option (Nat × Nat)
  | .homeRead m => some (m.f.tid, m.seq)
  | _ => none

/-- Whether every memory effect of a task numbered below `n` has been performed, and every MST whose copy it has read (R148,
R151, R153, R172, R281). -/
def performedBelow (s : State) (tid n : Nat) : Bool :=
  (s.net.all fun m => match effectOf m with
    | some (t, q) => !(t = tid && q < n)
    | none => true) && s.gm.seen.all fun e => !(e.tid = tid && e.seq < n)

/-- The same for reads as well. -/
def settledBelow (s : State) (tid n : Nat) : Bool :=
  performedBelow s tid n && s.net.all fun m => match readOf m with
    | some (t, q) => !(t = tid && q < n)
    | none => true

/-- What a child's start follows is over: the spawner's older iterations have committed, or the spawner has ended, and their
effects have performed (R274). -/
def afterDone (s : State) (a : After) : Bool :=
  let ended := match tget s.wk.tasks a.tid with | some t => t.order ≠ a.order | none => true
  (a.live.isEmpty || ended) && performedBelow s a.tid a.seq

/-- The next effect of a task takes the next number in its program order. -/
def bumpSeq (s : State) (tid : Nat) : State :=
  { s with wk := { s.wk with tasks := tmod s.wk.tasks tid fun t => { t with seq := t.seq + 1 } } }

/-! ### Fault records (R247, R292) -/

/-- The codes of R292. -/
inductive Code where
  | illegalOp | blockBad | format | poisonUse | page | prot | handleStale | handleBound | paramUnbound | barrierClobber
  | mmRace | allocOversize | allocDeadlock | futureStale | stackLimit | parityRetry | trap | bkpt | priv | align | engineErr
  | cancelled
  deriving DecidableEq, Repr

def Code.num : Code → Nat
  | .illegalOp => 0x01 | .blockBad => 0x02 | .format => 0x03 | .poisonUse => 0x04 | .page => 0x05 | .prot => 0x06
  | .handleStale => 0x07 | .handleBound => 0x08 | .paramUnbound => 0x09 | .barrierClobber => 0x0A | .mmRace => 0x0B
  | .allocOversize => 0x0C | .allocDeadlock => 0x0D | .futureStale => 0x0E | .stackLimit => 0x0F | .parityRetry => 0x10
  | .trap => 0x11 | .bkpt => 0x12 | .priv => 0x13 | .align => 0x14 | .engineErr => 0x15 | .cancelled => 0x16

/-- The handle form of ADDR (R289, R292). -/
def handleForm (h off : Nat) : Nat := 2 ^ 63 + off % 2 ^ 20 * 2 ^ 32 + h % 2 ^ 32

/-- A fault that a check found: its code and ADDR. -/
structure Flt where
  code : Code
  addr : Nat := 0
  deriving DecidableEq, Repr

/-- The fields of a record that name where it arose (R247). -/
structure Place4 where
  slot   : Nat
  colour : Nat
  iter   : Nat
  die    : Nat
  pane   : Nat
  block  : Nat
  deriving DecidableEq, Repr

/-- A record's 256 bits (R247). -/
def recordBits (code slot colour iter die pane block addr wh : Nat) : Nat :=
  code % 64 + slot % 256 * 2 ^ 8 + colour % 65536 * 2 ^ 16 + iter % 65536 * 2 ^ 32 + die % 4 * 2 ^ 48
    + pane % 256 * 2 ^ 50 + block % 2 ^ 64 * 2 ^ 64 + addr % 2 ^ 64 * 2 ^ 128 + wh % 2 ^ 64 * 2 ^ 192

/-- FAULT_INFO of the die: the code and the count, saturating (R216). -/
def countFaultInfo (s : State) (die code : Nat) : State :=
  let old := (tgetD s.sr.faultInfo die 0).toNat
  let v := code % 64 + min (2 ^ 32 - 1) (bits old 8 32 + 1) * 2 ^ 8
  { s with sr := { s.sr with faultInfo := tputD 0 s.sr.faultInfo die (BitVec.ofNat 64 v) } }

/-- An address in an interface's own fault area: its header and its ring (R247). -/
def inFaultArea (s : State) (vi va : Nat) : Bool :=
  (viD s vi).faultBase ≤ va && va < (viD s vi).faultBase + 64 + 32 * (viD s vi).ringN

/-- A held write into the fault area of an interface. -/
def isAreaWrite (s : State) (vi : Nat) : DevAccess → Bool
  | .record _ v va _ => v = vi && inFaultArea s vi va
  | _ => false

/-- A device write is held (R356). -/
def holdRecord (s : State) (die vi va : Nat) (bs : List Byte) : State :=
  { s with jb := { s.jb with heldDev := s.jb.heldDev ++ [.record die vi va bs] } }

/-- A write that meets a missing page waits for firmware. -/
def faultRecord (s : State) (die vi va : Nat) (bs : List Byte) : State :=
  sendPageFault (holdRecord s die vi va bs) die vi (missingVa s vi va .write bs.length) true

/-- The device's bytes are written; the tables that the translation reads become present (R225). -/
def devStore (s : State) (vi va : Nat) (bs : List Byte) : State := devPutAll (devTouch s vi va bs.length) vi va bs

/-- A device write into a fault area, which d0 makes: held on a missing page or behind one that is held, so that PUT stays
behind its record (R247); dropped where it is refused (R356). -/
def devWriteFault (s : State) (vi va : Nat) (bs : List Byte) : State :=
  if s.jb.heldDev.any (isAreaWrite s vi) then holdRecord s 0 vi va bs
  else match devRange s vi va .write bs.length with
    | .hit _ _ _ => devStore s vi va bs
    | .missing => faultRecord s 0 vi va bs
    | _ => s

/-- A group of records into an interface's ring, taken together or counted in LOST together (R247). A TAKE that
cannot be read is 0 (log 121). -/
def ringWrite (s : State) (vi : Nat) (recs : List Nat) : State :=
  let v := viD s vi
  if !v.configured then s
  else
    let take := natOfBytes (devGet s vi (v.faultBase + 8) 8)
    let s := devTouch s vi (v.faultBase + 8) 8
    if v.ringN < v.put - take + recs.length ∨ v.ringN = 0 then
      let s' := modVi s vi fun v => { v with lost := v.lost + recs.length }
      devWriteFault s' vi (v.faultBase + 16) (bytesOf 8 (v.lost + recs.length))
    else
      let one := fun (acc : State × Nat) r =>
        (devWriteFault acc.1 vi (v.faultBase + 64 + 32 * (acc.2 % v.ringN)) (bytesOf 32 r), acc.2 + 1)
      let s1 := (recs.foldl one (s, v.put)).1
      let s2 := modVi s1 vi fun v => { v with put := v.put + recs.length }
      devWriteFault s2 vi v.faultBase (bytesOf 8 (v.put + recs.length))

/-- Writes one fault record (R247): FAULT_INFO of the die, then the interface's ring. -/
def writeRecord (s : State) (vi : Nat) (f : Flt) (p : Place4) : State :=
  let s' := countFaultInfo s p.die f.code.num
  ringWrite s' vi [recordBits f.code.num p.slot p.colour p.iter p.die p.pane p.block f.addr (dieTime s p.die).toNat]

/-- The place of an instance's slot: the pane of the cell on which the slot's word lies, the home pane for no slot (R247). -/
def placeOf (s : State) (t : Task) (i : Inst) (slot : Nat) : Place4 :=
  let pane := if slot = 255 then t.pane else cellOf s t i.block slot / 16
  ⟨slot, t.colour, i.iter, paneDie pane, pane % 192, i.block⟩

/-- A device write with the outcomes of R356: a refusal is recorded as PROT, save in the fault area itself. -/
def devWrite (s : State) (die vi va : Nat) (bs : List Byte) : State :=
  match devRange s vi va .write bs.length with
  | .hit _ _ _ => devStore s vi va bs
  | .missing => faultRecord s die vi va bs
  | _ => if inFaultArea s vi va then s else writeRecord s vi ⟨.prot, va⟩ ⟨0, 0, 0, die, 0, 0⟩

end Sys2Proof.Machine
end

