-- ==== Sys2Proof/Machine/Shape.lean ====
section
/-! DEFINITION. The shape of each word: the ports it reads (R103, R122, R140, R168), its class (R86), its predicate, its
targets, its LSID. -/

namespace Sys2Proof.Machine

/-- The classes of R86. -/
inductive Class where
  | value | fire | store | write | branch | event
  deriving DecidableEq, Repr

/-- PM of a word; READ and SEL have none (R87, R90). -/
def Instr.predicate : Instr → Pm
  | .write _ _ pm | .br _ _ pm | .brr _ pm | .exit pm | .trap _ pm | .bkpt _ pm | .fence _ _ pm => pm
  | .mov g | .nul g | .tagof g | .mulh g | .div g | .rem g | .fma g | .min g | .max g | .abs g | .neg g => g.pm
  | .add g _ | .sub g _ | .mul g _ | .tst g _ => g.pm
  | .and g | .or g | .xor g | .not g | .shl g | .shr g | .sar g | .clz g | .popc g | .bfx g => g.pm
  | .sqrt g | .rcp g | .rsqrt g | .exp2 g | .log2 g | .tanh g | .ldexp g | .fclass g => g.pm
  | .red g _ | .alloc g _ | .twait g _ | .tread g _ | .spawn g _ | .waitc g _ => g.pm
  | .await g | .tnow g | .swq g | .self g => g.pm
  | .movi i | .pld i | .addi i | .muli i | .teqi i | .tlti i | .andi i | .ori i | .xori i => i.pm
  | .shli i | .shri i | .sari i | .sysrd i => i.pm
  | .retag c | .cvt c | .cvtz c => c.pm
  | .ld m | .aadd m | .amin m | .amax m | .aand m | .aor m | .axor m | .aswp m | .acas m => m.pm
  | .st _ _ _ pm | .mst _ _ _ pm | .pref _ pm | .lld _ _ _ _ pm | .lst _ _ pm | .lamo _ _ _ _ pm => pm
  | .few _ _ pm | .fes _ pm | .binit _ pm | .barr _ _ pm | .lsz _ _ pm => pm
  | .free pm | .rels pm | .cp _ _ _ _ pm | .cpg _ _ _ pm | .cps _ _ _ pm | .pset _ _ _ pm | .cpp _ _ _ pm => pm
  | .wload _ _ _ pm | .wmma _ _ _ _ pm | .cvtt _ _ pm | .ref pm | .drop pm | .launch _ _ pm | .cancel _ pm => pm
  | .tickw _ _ pm | .kvgrow _ _ pm | .syswr _ pm | .prof _ pm => pm
  | _ => .always

/-- Class of a word (R97); the steps without an encoding are events. -/
def Instr.cls : Instr → Class
  | .write _ _ _ => .write
  | .br _ _ _ | .brr _ _ | .exit _ => .branch
  | .pld _ | .ld _ | .lld _ _ _ _ _ | .few _ _ _ | .lsz _ _ _ | .alloc _ _ | .twait _ _ | .tread _ _ => .fire
  | .spawn _ _ | .await _ | .waitc _ _ | .tnow _ | .swq _ | .sysrd _ => .fire
  | .trap _ _ | .bkpt _ _ | .fence _ _ _ | .st _ _ _ _ | .mst _ _ _ _ | .pref _ _ | .lst _ _ _ => .store
  | .lamo _ _ _ _ _ | .fes _ _ | .binit _ _ | .barr _ _ _ | .free _ | .rels _ | .cp _ _ _ _ _ => .store
  | .aadd _ | .amin _ | .amax _ | .aand _ | .aor _ | .axor _ | .aswp _ | .acas _ => .store
  | .cpg _ _ _ _ | .cps _ _ _ _ | .pset _ _ _ _ | .cpp _ _ _ _ | .wload _ _ _ _ | .wmma _ _ _ _ _ => .store
  | .cvtt _ _ _ | .ref _ | .drop _ | .launch _ _ _ | .cancel _ _ | .tickw _ _ _ | .kvgrow _ _ _ => .store
  | .syswr _ _ | .prof _ _ => .store
  | .read _ _ _ | .mov _ | .movi _ | .nul _ | .sel _ _ _ | .retag _ | .tagof _ | .add _ _ | .sub _ _ | .mul _ _ => .value
  | .mulh _ | .div _ | .rem _ | .fma _ | .min _ | .max _ | .abs _ | .neg _ | .addi _ | .muli _ | .tst _ _ => .value
  | .teqi _ | .tlti _ | .and _ | .or _ | .xor _ | .not _ | .andi _ | .ori _ | .xori _ | .shl _ | .shr _ | .sar _ => .value
  | .shli _ | .shri _ | .sari _ | .clz _ | .popc _ | .bfx _ | .sqrt _ | .rcp _ | .rsqrt _ | .exp2 _ | .log2 _ => .value
  | .tanh _ | .cvt _ | .cvtz _ | .ldexp _ | .fclass _ | .red _ _ | .self _ => .value
  | _ => .event

/-- The data ports of a word, apart from P. -/
def Instr.dataPorts : Instr → List Port
  | .read _ _ _ => []
  | .br _ _ pm | .trap _ pm | .bkpt _ pm => if pm = .always then [.l] else []
  | .sel _ _ _ => [.l, .r]
  | .add _ _ | .sub _ _ | .mul _ _ | .mulh _ | .div _ | .rem _ | .min _ | .max _ | .tst _ _ => [.l, .r]
  | .and _ | .or _ | .xor _ | .shl _ | .shr _ | .sar _ | .ldexp _ | .red _ _ => [.l, .r]
  | .fma _ | .bfx _ => [.l, .r, .x]
  | .st _ _ _ _ | .mst _ _ _ _ | .aadd _ | .amin _ | .amax _ | .aand _ | .aor _ | .axor _ | .aswp _ => [.l, .r]
  | .acas _ | .lst _ _ _ | .lamo _ _ _ _ _ | .few _ _ _ | .fes _ _ | .binit _ _ => [.l, .r, .x]
  | .lld _ _ _ _ _ | .barr _ _ _ | .alloc _ _ | .rels _ | .twait _ _ => [.l, .r]
  | .cp _ _ _ _ _ | .cpp _ _ _ _ => [.l, .r, .x]
  | .wmma _ _ _ _ _ | .cvtt _ _ _ | .spawn _ _ | .tickw _ _ _ | .swq _ => [.l, .r]
  | i => if Instr.cls i = .event then [] else [.l]

/-- Every port a word reads (R103): P too where it is predicated, and SEL's selector. -/
def Instr.ports (i : Instr) : List Port :=
  match i with
  | .sel _ _ _ => [.l, .r, .p]
  | i => if Instr.predicate i = .always then Instr.dataPorts i else Instr.dataPorts i ++ [.p]

/-- The ports whose tokens make a word ready: all of them, but for RED, whose L tokens of several iterations are gathered
by its reduction (R138). -/
def Instr.firePorts (i : Instr) : List Port :=
  match i with
  | .red _ _ => (Instr.ports i).filter fun q => q ≠ .l
  | i => Instr.ports i

/-- LSID of a memory word (R94). -/
def Instr.lsid : Instr → Option Nat
  | .fence _ l _ | .st _ _ l _ | .mst _ _ l _ | .pref l _ | .lld _ _ _ l _ | .lst _ l _ | .lamo _ _ _ l _ => some l.toNat
  | .few _ l _ | .fes l _ | .binit l _ | .barr _ l _ | .lsz _ l _ => some l.toNat
  | .ld m | .aadd m | .amin m | .amax m | .aand m | .aor m | .axor m | .aswp m | .acas m => some m.lsid.toNat
  | _ => none

/-- T0, T1 and TA of a word (R87); a word without the field has none or SAME. -/
def Instr.targets : Instr → Tgt × Tgt × TA
  | .read t0 t1 _ => (t0, t1, .same)
  | .sel t0 t1 ta => (t0, t1, ta)
  | .mov g | .nul g | .tagof g | .mulh g | .div g | .rem g | .fma g | .min g | .max g | .abs g | .neg g =>
      (g.t0, g.t1, g.ta)
  | .add g _ | .sub g _ | .mul g _ | .tst g _ => (g.t0, g.t1, g.ta)
  | .and g | .or g | .xor g | .not g | .shl g | .shr g | .sar g | .clz g | .popc g | .bfx g => (g.t0, g.t1, g.ta)
  | .sqrt g | .rcp g | .rsqrt g | .exp2 g | .log2 g | .tanh g | .ldexp g | .fclass g => (g.t0, g.t1, g.ta)
  | .red g _ | .alloc g _ | .twait g _ | .tread g _ | .spawn g _ | .waitc g _ => (g.t0, g.t1, g.ta)
  | .await g | .tnow g | .swq g | .self g => (g.t0, g.t1, g.ta)
  | .movi i | .pld i | .addi i | .muli i | .teqi i | .tlti i | .andi i | .ori i | .xori i => (i.t0, none, i.ta)
  | .shli i | .shri i | .sari i | .sysrd i => (i.t0, none, i.ta)
  | .retag c | .cvt c | .cvtz c => (c.t0, c.t1, .same)
  | .ld m | .aadd m | .amin m | .amax m | .aand m | .aor m | .axor m | .aswp m | .acas m => (m.t0, none, .same)
  | .lld t0 _ _ _ _ | .lamo t0 _ _ _ _ | .few t0 _ _ | .barr t0 _ _ | .lsz t0 _ _ => (t0, none, .same)
  | .cp t0 _ _ ta _ | .cpg t0 _ ta _ | .cps t0 _ ta _ | .pset t0 _ ta _ | .cpp t0 _ ta _ => (t0, none, ta)
  | .launch t0 ta _ | .tickw t0 ta _ | .kvgrow t0 ta _ => (t0, none, ta)
  | .wload t0 _ _ _ | .wmma t0 _ _ _ _ | .cvtt t0 _ _ => (t0, none, .same)
  | _ => (none, none, .same)

/-- Returning words (R145, R168, R169): their result comes back after commit. -/
def Instr.returning : Instr → Bool
  | .aadd _ | .amin _ | .amax _ | .aand _ | .aor _ | .axor _ | .aswp _ | .acas _ | .lamo _ _ _ _ _ | .barr _ _ _ => true
  | .cp _ _ _ _ _ | .cpg _ _ _ _ | .cps _ _ _ _ | .pset _ _ _ _ | .cpp _ _ _ _ => true
  | .wload _ _ _ _ | .wmma _ _ _ _ _ | .cvtt _ _ _ | .launch _ _ _ | .tickw _ _ _ | .kvgrow _ _ _ => true
  | _ => false

/-- Words whose result carries a 64-bit format (R29); RED and PLD, whose result's tag stands elsewhere, are looked at when they
issue. -/
def Instr.wideResult : Instr → Bool
  | .retag c | .cvt c | .cvtz c => tagWide c.fmt
  | .ld m | .aadd m | .amin m | .amax m | .aand m | .aor m | .axor m | .aswp m | .acas m => tagWide m.fmt
  | .lld _ _ f _ _ | .lamo _ _ f _ _ => tagWide f
  | .cp _ _ _ _ _ | .cpg _ _ _ _ | .cps _ _ _ _ | .pset _ _ _ _ | .cpp _ _ _ _ => true
  | .wload _ _ _ _ | .wmma _ _ _ _ _ | .cvtt _ _ _ | .kvgrow _ _ _ => true
  | .spawn _ _ | .tread _ _ | .tnow _ | .swq _ | .sysrd _ | .self _ => true
  | _ => false

/-! ### Tokens sent -/

/-- The iteration a result is sent to (R23), modulo 65,536 (R27). -/
def taIter (ta : TA) (i : Nat) : Nat :=
  match ta with
  | .same => i
  | .next => (i + 1) % iterMod
  | .zero => 0
  | .prev => (i + 65535) % iterMod

/-- The message of one target. -/
def tokMsg (f : Firing) (iter : Nat) (fromRead : Bool) (tok : Token) : Tgt → List Instr
  | none => []
  | some d => [.tokenArrive ⟨f.tid, iter, f.block, d.slot.toNat, d.port, tok, f.iter, fromRead⟩]

/-- A result on its way to both targets (R13, R103). -/
def sendResult (s : State) (f : Firing) (i : Instr) (a b : Token) : State :=
  let (t0, t1, ta) := Instr.targets i
  post s (tokMsg f (taIter ta f.iter) false a t0 ++ tokMsg f (taIter ta f.iter) false b t1)

/-- A port of a firing's word: its waiting token (R21). -/
def portTok (s : State) (f : Firing) (port : Port) : Option Token :=
  (s.wk.toks.find? fun e => e.msg.tid = f.tid && e.msg.iter = f.iter && e.msg.block = f.block && e.msg.slot = f.slot
    && e.msg.port = port).map fun e => e.msg.tok

/-- Marks a word as fired in its instance, with the flags it sets there (R13, R105). -/
def markFired (s : State) (f : Firing) (fl : FlagSet) : State :=
  modInst s f.tid f.iter fun i => { i with fired := i.fired ++ [f.slot], flags := i.flags ||| fl }

/-- A word that sends its result and is done. -/
def fireSend (s : State) (f : Firing) (i : Instr) (a b : Token) (fl : FlagSet) : State :=
  sendResult (markFired s f fl) f i a b

end Sys2Proof.Machine
end

