-- ==== Sys2Proof/Machine/Checks.lean ====
section
/-! DEFINITION. The loader's checks of a block (R85 to R102), and what activation finds in a block whose checks were
waived (R102). -/

namespace Sys2Proof.Machine

/-- A failing check: its code, slot and port (R98, R99). -/
structure BadCheck where
  code : Nat
  slot : Nat
  port : Nat
  deriving DecidableEq, Repr

/-- What the checks of a block need of its graph: its blocks, its arenas, its waffles. -/
structure CheckEnv where
  blocks  : List Blk
  arenas  : Nat
  waffles : Nat
  deriving DecidableEq, Repr

/-- A header valid by itself (R85). -/
def hdrValid (h : Word) : Bool :=
  fld h 24 8 = 0xB5 && fld h 21 3 = 0 && (!hdrUo h || hdrRe h) && (!hdrUo h || hdrW h = 0)

/-- Class and opcode of a word that may not be an instruction; the counts of R85 go by opcode. -/
def wordIsWrite (w : Word) : Bool := fld w 0 7 = 0x02

/-- Store-class opcodes (R97). -/
def wordIsStore (w : Word) : Bool :=
  let op := fld w 0 7
  (0x0D ≤ op && op ≤ 0x0F) || (0x41 ≤ op && op ≤ 0x4B) || op = 0x51 || op = 0x52 || (0x54 ≤ op && op ≤ 0x56)
    || (0x61 ≤ op && op ≤ 0x67) || (0x6A ≤ op && op ≤ 0x6C) || op = 0x71 || op = 0x72 || op = 0x74 || op = 0x76
    || op = 0x78 || op = 0x7A || op = 0x7C || op = 0x7D

def wordIsBranch (w : Word) : Bool := 0x0A ≤ fld w 0 7 && fld w 0 7 ≤ 0x0C

/-- W and S agree with the words (R85). -/
def countsAgree (b : Blk) : Bool :=
  hdrW b.header = (b.words.filter wordIsWrite).length && hdrS b.header = (b.words.filter wordIsStore).length

/-- A WRITE whose WID is not its rank among the block's WRITEs (check 2, R56). -/
def widBad (b : Blk) (slot : Nat) : Bool :=
  match b.words[slot]? with
  | some w => wordIsWrite w && fld w 15 5 ≠ ((b.words.take slot).filter wordIsWrite).length
  | none => false

/-- The words as instructions. -/
def blockInstrs (b : Blk) : List (Option Instr) :=
  b.words.map fun w => match decode w with | .ok i => some i | .error _ => none

def instrOfSlot (is : List (Option Instr)) (slot : Nat) : Option Instr := (is[slot]?).bind id

/-- Words with no target and plain fields, one for each way the formats lay their fields out (R87): what is tried to read
the instruction an opcode names. -/
def plainFields : List Nat := [0xFFFFC000, 0xFFFFC000 + 5 * 2 ^ 9, 0xFF800000 + 5 * 2 ^ 14, 0xFF800000, 0xFF800000 + 8 * 2 ^ 19, 0]

/-- The instruction a word's opcode names, predicated as its PM says, its other fields plain: none for a "—" opcode. -/
def opcodeInstr (w : Word) : Option Instr :=
  let op := fld w 0 7
  let pm := if fld w 7 2 = 0 then 0 else 2 ^ 8
  (plainFields.map (fun n => n + op + pm) ++ plainFields.map (fun n => n + op)).findSome? fun n =>
    match decode (BitVec.ofNat 32 n) with | .ok i => some i | .error _ => none

/-- The instruction whose description lists the ports a target may name (R89). DEDUCED: check 5 goes by the target slot's
opcode and PM, also where another field of that slot fails check 4 in its own turn. -/
def portInstr (b : Blk) (slot : Nat) : Option Instr :=
  match b.words[slot]? with
  | some w => (match decode w with | .ok i => some i | .error _ => opcodeInstr w)
  | none => none

/-- The targets of an instruction that a word's opcode and target fields name, its other fields plain. -/
def plainTargets (w : Word) (lo : Nat) : Option (Tgt × Tgt) :=
  let op := fld w 0 7
  plainFields.findSome? fun n =>
    match decode (BitVec.ofNat 32 (setBits (n + op) lo 9 (fld w lo 9))) with
    | .ok i => some ((Instr.targets i).1, (Instr.targets i).2.1)
    | .error _ => none

/-- The targets of a word. One whose other fields no check lets pass still has those that its opcode gives it, and one whose
opcode is none those of format G (DEDUCED, log 21). -/
def wordTargets (w : Word) : Tgt × Tgt :=
  match decode w with
  | .ok i => ((Instr.targets i).1, (Instr.targets i).2.1)
  | .error (.opcode _) => (tgtOf (fld w 23 9), tgtOf (fld w 14 9))
  | .error .target => (tgtOf (fld w 23 9), tgtOf (fld w 14 9))
  | .error _ => ((plainTargets w 23).bind Prod.fst, (plainTargets w 14).bind Prod.snd)

/-- Edges: (target slot, port, producer slot, true for T1). -/
def edgesFrom : List Word → Nat → List (Nat × Port × Nat × Bool)
  | [], _ => []
  | w :: t, slot =>
    (match (wordTargets w).1 with | some d => [(d.slot.toNat, d.port, slot, false)] | none => [])
      ++ (match (wordTargets w).2 with | some d => [(d.slot.toNat, d.port, slot, true)] | none => [])
      ++ edgesFrom t (slot + 1)

/-- The producers of a port. -/
def producers (es : List (Nat × Port × Nat × Bool)) (slot : Nat) (p : Port) : List (Nat × Bool) :=
  (es.filter fun e => e.1 = slot && e.2.1 = p).map fun e => e.2.2

/-- The static tag all entries agree on. -/
def agreeTag : List (Option Tag) → Option Tag
  | [] => none
  | some t :: r => if r.all (fun x => x = some t) then some t else none
  | none :: _ => none

/-- Static tags (R101), following MOVs through at most `n` of them. -/
def staticTag (is : List (Option Instr)) (es : List (Nat × Port × Nat × Bool)) : Nat → Nat → Bool → Option Tag
  | 0, _, _ => none
  | n + 1, slot, t1 =>
    match instrOfSlot is slot with
    | some i =>
      match i with
      | .movi _ | .tagof _ => some .i32
      | .tst _ _ | .teqi _ | .tlti _ => some .pred
      | .cvt c | .cvtz c => if t1 then some .pred else some c.fmt
      | .retag c => some c.fmt
      | .ld m => some m.fmt
      | .lld _ _ f _ _ => some f
      | .alloc _ _ => some .handle
      | .spawn _ _ => some .future
      | .tnow _ => some .time
      | .mov _ => agreeTag ((producers es slot .l).map fun p => staticTag is es n p.1 p.2)
      | _ => none
    | none => none

/-- The static tags of the edges into a port; none for an edge whose producer has none. -/
def portTags (is : List (Option Instr)) (es : List (Nat × Port × Nat × Bool)) (slot : Nat) (p : Port) : List (Option Tag) :=
  (producers es slot p).map fun q => staticTag is es (is.length + 1) q.1 q.2

/-- Whether a data port of a word that reads operands of several kinds accepts a tag (R66, and the word's own rule). -/
def portAccepts (i : Instr) (p : Port) (t : Tag) : Bool :=
  match i, p with
  | .red _ k, .l => redTagOk k t
  | .st _ fmt _ _, q | .mst _ fmt _ _, q => if q = .l then t = .addr else t = fmt
  | .aadd m, q | .amin m, q | .amax m, q | .aand m, q | .aor m, q | .axor m, q | .aswp m, q | .acas m, q =>
      if q = .l then t = .addr else t = m.fmt
  | .lst fmt _ _, .x | .lamo _ _ fmt _ _, .x => t = fmt
  | .lst _ _ _, .l | .lamo _ _ _ _ _, .l | .lld _ _ _ _ _, .l | .few _ _ _, .l | .fes _ _, .l | .binit _ _, .l
  | .barr _ _ _, .l | .rels _, .l => t = .handle
  | .cp _ _ _ _ _, q => if q = .x then t.isInt else t = .addr || t = .handle
  | .cpp _ _ _ _, q => if q = .x then t.isInt else t = .handle
  | .wmma _ _ _ _ _, _ | .cvtt _ _ _, _ => t = .handle
  | .spawn _ _, q => if q = .l then t = .addr else !tagTile t
  | .tickw _ _ _, q => if q = .l then t.isInt else t = .addr
  | .sel _ _ _, _ => !tagTile t
  | _, _ => t.isInt

/-- Whether R66 allows a pair of tags on two data ports. NULL and POISON are resolved before any tag is looked at (R65); of the
words whose operands are of one kind, what the word computes of zero payloads is not FORMAT. -/
def pairOk (i : Instr) (p q : Port) (a b : Tag) : Bool :=
  let l : Token := ⟨a, 0⟩
  let r : Token := ⟨b, 0⟩
  if a = .null || a = .poison || b = .null || b = .poison then true
  else match i with
  | .add _ _ => decide (addV false l r ≠ .format)
  | .sub _ _ => decide (subV false l r ≠ .format)
  | .mul _ _ => decide (mulV false l r ≠ .format)
  | .mulh _ => decide (mulhV l r ≠ .format)
  | .div _ => decide (divV l r ≠ .format)
  | .rem _ => decide (remV l r ≠ .format)
  | .fma _ => a = b && (a.isInt || tagFloat a)
  | .min _ => decide (minV l r ≠ .format)
  | .max _ => decide (maxV l r ≠ .format)
  | .tst _ c => decide (tstV c l r ≠ .format)
  | .and _ | .or _ | .xor _ => decide (logicV (· &&& ·) l r ≠ .format)
  | .ldexp _ => tagFloat a && b.isInt
  | i => portAccepts i p a && portAccepts i q b

/-- Ports in the order of R98. -/
def portOrder : List Port := [.l, .r, .p, .x]

/-- An edge breaks R66 (R101): its tag is static, and so are those of all edges into the other operand, none of which it may
meet. `f` says which pairs R66 allows. -/
def edgeBad (f : Tag → Tag → Bool) (t : Option Tag) (other : List (Option Tag)) : Bool :=
  match t with
  | none => false
  | some a => !other.isEmpty && other.all fun y => match y with | some b => !f a b | none => false

/-- Two data ports hold an edge that breaks R66 against the other (R101). -/
def edgesClash (i : Instr) (p q : Port) (a b : List (Option Tag)) : Bool :=
  a.any (fun t => edgeBad (pairOk i p q) t b) || b.any (fun t => edgeBad (fun x y => pairOk i p q y x) t a)

/-- Check 8 of one port; two operands that clash are found at the first of their ports in R98's order (log 21). -/
def badPort (i : Instr) (is : List (Option Instr)) (es : List (Nat × Port × Nat × Bool)) (slot : Nat) (p : Port) :
    Option BadCheck :=
  let tags := portTags is es slot
  let clash := fun (q : Port) => (Instr.dataPorts i).contains q && edgesClash i p q (tags p) (tags q)
  let bad : Bool := match p with
    | .p => (tags .p).any fun t => match t with | some t => t ≠ .pred | none => false
    | .l => clash .r || clash .x
    | .r => clash .x
    | .x => false
  if bad then some ⟨8, slot, p.code⟩ else none

/-- A target that R89 or R145 refuses. -/
def targetBad (i : Instr) (b : Blk) (d : Dest) (other : Tgt) : Bool :=
  let at_ := portInstr b d.slot.toNat
  let reads := match at_ with | some j => (Instr.ports j).contains d.port | none => false
  let write := match at_ with | some (.write _ _ _) => true | _ => false
  !reads || other = some d || (Instr.returning i && !(write && d.port = .l))

/-- Check 5 of a word: its TA, which has no port (DEDUCED, log 21: it comes first), then its targets by their ports in the
order of R98; `more` are ports of targets that no word of its kind has. -/
def badTargets (i : Instr) (b : Blk) (slot : Nat) (more : List Port) : Option BadCheck :=
  let (t0, t1, ta) := Instr.targets i
  let one := fun (t other : Tgt) => match t with
    | some d => if targetBad i b d other then [d.port] else []
    | none => []
  let bad := one t0 t1 ++ one t1 t0 ++ more
  if ta ≠ .same && (!hdrRe b.header || (t0.isNone && t1.isNone)) then some ⟨5, slot, 0⟩
  else (portOrder.find? bad.contains).map fun q => ⟨5, slot, q.code⟩

def firstBad : List (Option BadCheck) → Option BadCheck
  | [] => none
  | some b :: _ => some b
  | none :: t => firstBad t

/-- Check 7 of one word (R92). -/
def badBranch (env : CheckEnv) (b : Blk) (is : List (Option Instr)) (slot : Nat) (i : Instr) : Option BadCheck :=
  let writes62 := is.any fun j => match j with | some (.write _ r _) => r = 62#6 | _ => false
  match i with
  | .br off bk _ =>
    let tgt : Int := (b.off : Int) + off.toInt * 64
    match env.blocks.find? fun x => (x.off : Int) = tgt with
    | none => some ⟨7, slot, 0⟩
    | some t =>
      if (bk = .next && !(hdrRe b.header && hdrRe t.header)) || (bk = .call && writes62) then some ⟨7, slot, 0⟩ else none
  | .brr call _ => if call && writes62 then some ⟨7, slot, 0⟩ else none
  | _ => none

/-- Checks 2 (a WID), 3, 4, 5, 7 and 10 of one slot; with `all` also 6 and 8. -/
def badSlot (env : CheckEnv) (b : Blk) (is : List (Option Instr)) (es : List (Nat × Port × Nat × Bool)) (all : Bool)
    (slot : Nat) : Option BadCheck :=
  if widBad b slot then some ⟨2, slot, 0⟩
  else match (b.words[slot]?).map decode with
  | none => none
  | some (.error (.opcode _)) => some ⟨3, slot, 0⟩
  | some (.error .ta) => some ⟨5, slot, 0⟩
  | some (.error .target) =>
    (match (b.words[slot]?).map fun w => (decode (withoutT1 w), fld w 14 2) with
      | some (.ok i, q) => badTargets i b slot [Port.ofCode q]
      | _ => none)
  | some (.error _) => some ⟨4, slot, 0⟩
  | some (.ok i) =>
    let arena := match i with | .alloc _ a => !(decide (a.toNat < env.arenas)) | _ => false
    let leaf := match i with | .wload _ k _ _ | .wmma _ k _ _ _ => !(decide (k.toNat < env.waffles)) | _ => false
    firstBad
      ([(if arena then some ⟨4, slot, 0⟩ else none), badTargets i b slot []]
       ++ (if all then (portOrder.filter fun p => (Instr.ports i).contains p && (producers es slot p).isEmpty).map
            (fun p => some ⟨6, slot, p.code⟩) else [])
       ++ [badBranch env b is slot i]
       ++ (if all then (portOrder.filter fun p => (Instr.ports i).contains p).map (badPort i is es slot) else [])
       ++ [(if leaf then some ⟨10, slot, 0⟩ else none)])

/-- The checks of a block at load (R98). The fall-through of a branchless block belongs to no slot; DEDUCED (log 21): it
is checked after every slot. -/
def checkBlock (env : CheckEnv) (b : Blk) : Option BadCheck :=
  if !hdrValid b.header then some ⟨1, 255, 0⟩
  else if !countsAgree b ∨ b.words.length ≠ hdrLen b.header then some ⟨2, 255, 0⟩
  else
    let is := blockInstrs b
    match firstBad ((List.range b.words.length).map (badSlot env b is (edgesFrom b.words 0) true)) with
    | some x => some x
    | none =>
      if (b.words.any wordIsBranch) ∨ env.blocks.any (fun x => x.off = fallThrough b.off b.header) then none
      else some ⟨7, 255, 0⟩

/-- The first failing block, with its offset (R98). -/
def checkBlocks (env : CheckEnv) : List Blk → Option (BadCheck × Nat)
  | [] => none
  | b :: t => match checkBlock env b with | some x => some (x, b.off) | none => checkBlocks env t

/-- What activation finds (R102): the code of the record and the slot. -/
def activationBad (env : CheckEnv) (b : Blk) : Option (Code × Nat) :=
  if !hdrValid b.header ∨ !countsAgree b then some (.blockBad, 255)
  else
    (firstBad ((List.range b.words.length).map (badSlot env b (blockInstrs b) [] false))).map fun x => (.illegalOp, x.slot)

end Sys2Proof.Machine
end

