-- ==== Sys2Proof/Machine/Local.lean ====
section
/-! DEFINITION. Handles, granules and their overflow copies (R157, R158, R218 to R220, R223, R237). -/

namespace Sys2Proof.Machine

/-! ### Start log (R215, R220, R322) -/

/-- A further entry of the running start; WHEN counts from its reset, and the clock from its end (log 8). -/
def logEntry (s : State) (step outcome die detail : Nat) : State :=
  let e : LogEntry := ⟨step, outcome, die, detail, s.bt.start, Config.bootCycle s.bt.start 11 + s.clk.cycle⟩
  { s with bt := { s.bt with log := s.bt.log.filter (fun x => s.bt.start < x.start + 64) ++ [e] } }

/-! ### Error correction of local store (R219, R220) -/

/-- BANK_MARK: a bank that reaches 16 corrections in a pass is marked, at most two in a pane, and logged (R220). -/
def markBank (s : State) (pane bank : Nat) : State :=
  let ms := tgetD s.ls.marks pane []
  if ms.contains bank ∨ 2 ≤ ms.length then s
  else
    let ms' := ms ++ [bank]
    logEntry { s with ls := { s.ls with marks := tput s.ls.marks pane ms' },
                      bt := { s.bt with flashMarks := tput s.bt.flashMarks pane ms' } } 8 1 (paneDie pane) 0

/-- One correction counted for a bank. -/
def countCorrection (s : State) (pane bank : Nat) : State :=
  let k := pane * 18 + bank
  let n := tgetD s.ls.corr k 0 + 1
  let s' := { s with ls := { s.ls with corr := tput s.ls.corr k n } }
  if 16 ≤ n then markBank s' pane bank else s'

/-- Decoding a code word on a read (R220): corrected words queue their row's write-back and count for their banks, one for
each symbol (log 119); an uncorrectable word poisons both its granules. -/
def decodeWord (s : State) (cw : Nat) : State :=
  if tgetD s.ls.upset cw [] = [] then s
  else if correctable s.ls cw then
    let pane := cw / 32768
    let row := (pane, cw % 32768 / 32)
    let s' := (liveErrors s.ls cw).foldl (fun a y => countCorrection a pane (symbolBank y)) s
    { s' with ls := { s'.ls with wbs := if s'.ls.wbs.contains row then s'.ls.wbs else s'.ls.wbs ++ [row] } }
  else { s with ls := setGField (setGField s.ls (2 * cw) 3 1 1) (2 * cw + 1) 3 1 1 }

/-! ### Handles (R157, R174) -/

/-- The record a handle names, if the handle is well formed (R157). -/
def handleRec (h : Nat) : Option Nat :=
  if bits h 0 10 ≠ 0 ∨ 191 < bits h 22 8 then none
  else some ((bits h 30 2 * 192 + bits h 22 8) * 4096 + bits h 10 12)

/-- The handle of a record (R174). -/
def handleOf (key : Nat) : Nat :=
  let p := key / 4096
  p / 192 * 2 ^ 30 + p % 192 * 2 ^ 22 + key % 4096 * 2 ^ 10

/-- The record's length in granules. -/
def Rec.granules (r : Rec) : Nat := r.len1 + r.len2

/-- The first three checks of R157. -/
def liveRec (s : State) (h off : Nat) : Except Flt (Nat × Rec) :=
  match handleRec h with
  | none => .error ⟨.handleStale, handleForm h off⟩
  | some k =>
    match tget s.al.recs k with
    | some r => if r.live then .ok (k, r) else .error ⟨.handleStale, handleForm h off⟩
    | none => .error ⟨.handleStale, handleForm h off⟩

/-- Where a granule of an allocation lies: in local store, or in the overflow copy (data and state addresses). -/
inductive GLoc where
  | here (g : Nat)
  | copy (vi data state : Nat)
  deriving DecidableEq, Repr

/-- The interface in whose addresses a record's overflow copy lies: its arena's, or its task's (R214, R223). -/
def recVi (s : State) (r : Rec) : Nat := if r.pool then r.vi else (tgetD s.al.arenas r.akey {}).vi

/-- Granule j of a record (R157, R223). -/
def recGranule (s : State) (key : Nat) (r : Rec) (j : Nat) : GLoc :=
  if r.spilled then .copy (recVi s r) (r.ovf * 16 + 16 * j) (r.ovs + j)
  else .here (key / 4096 * 65536 + (if j < r.len1 then r.base1 + j else r.base2 + (j - r.len1)))

/-- A record whose spill copy runs makes every access wait (R237). -/
def spillingRec (s : State) (key : Nat) : Bool :=
  match tget s.al.recs key with
  | some r => (match (tgetD s.al.arenas r.akey {}).spilling with
      | some (k, _) => k = key || (r.pool && (tgetD s.al.recs k {}).gseq = r.gseq)
      | none => false)
  | none => false

/-- A handle, an offset and a width resolve to a granule and the offset within it (R157). -/
def resolve (s : State) (h : Nat) (off : Int) (width : Nat) : Except Flt (GLoc × Nat) :=
  match liveRec s h off.toNat with
  | .error e => .error e
  | .ok (k, r) =>
    if off < 0 ∨ ((r.granules * 16 : Nat) : Int) < off + width then .error ⟨.handleBound, handleForm h (off % 2 ^ 20).toNat⟩
    else if off % width ≠ 0 then .error ⟨.align, handleForm h off.toNat⟩
    else .ok (recGranule s k r (off.toNat / 16), off.toNat % 16)

/-! ### Granules, wherever they lie -/

/-- Whether a bound context, with its OVP register, takes an address of an interface for its area (R214). -/
def ovpHolds (s : State) (vi a : Nat) (e : Nat × BitVec 64) : Bool :=
  let b := (tgetD s.cf.slots e.1 0).toNat
  let lo := bits e.2.toNat 16 36 * 65536
  bindValid b && bits b 16 6 = vi && lo ≤ a && a < lo + bits e.2.toNat 52 12 * 65536

/-- Firmware has given two panes or contexts OVP ranges that overlap here: what is read back from there is open (R214). -/
def ovpShared (s : State) (vi a : Nat) : Bool := 2 ≤ (s.sr.ovp.filter (ovpHolds s vi a)).length

/-- A byte of an overflow copy; from a shared OVP range any byte (R214, log 12). -/
def copyByte (s : State) (vi a : Nat) (b : Byte) : Byte := if ovpShared s vi a then Config.sharedOvp a s.nd else b

/-- Bytes of an overflow copy from address `a` on. -/
def copyBytes (s : State) (vi a : Nat) : List Byte → List Byte
  | [] => []
  | b :: bs => copyByte s vi a b :: copyBytes s vi (a + 1) bs

/-- STATE 11 is taken as FULL with POISON (R218), also where the byte is any byte of a shared range. -/
def copyState (b : Nat) : Nat := votedState (b % 64)

/-- The state byte (R218, R223). -/
def locState (s : State) : GLoc → Nat
  | .here g => gstAt s.ls g
  | .copy vi _ st => copyState (natOfBytes (copyBytes s vi st (devGet s vi st 1)))

def locBytes (s : State) (off n : Nat) : GLoc → List Byte
  | .here g => bytesAt s.ls.bytes (granuleByte g + off) n
  | .copy vi d _ => copyBytes s vi (d + off) (devGet s vi (d + off) n)

/-- The granule lies in another arena of its pane than the task pool. -/
def inBoundArena (s : State) (g : Nat) : Bool :=
  s.al.arenas.any fun e => e.2.pane = g / 65536 && !e.2.pool && e.2.base ≤ g % 65536 && g % 65536 < e.2.base + e.2.size

/-- A change of a granule restarts the quiet time of the arena it lies in, the task pool where it lies in no other (R221,
R237). -/
def noteChange (s : State) (g : Nat) : State :=
  let arenas := s.al.arenas.map fun e =>
    if e.2.pane = g / 65536
      && (if e.2.pool then !inBoundArena s g else e.2.base ≤ g % 65536 && g % 65536 < e.2.base + e.2.size)
    then (e.1, { e.2 with quietAt := s.clk.cycle }) else e
  { s with al := { s.al with arenas := arenas } }

/-- A granule's state byte; only a change of it counts for the quiet time (R237). -/
def setLocState (s : State) (v : Nat) : GLoc → State
  | .here g =>
    let s1 := { s with ls := setGst s.ls g v }
    if gstAt s.ls g = gstAt s1.ls g then s1 else noteChange s1 g
  | .copy vi _ st => devPut s vi st (BitVec.ofNat 8 v)

def setLocBytes (s : State) (off : Nat) (bs : List Byte) : GLoc → State
  | .here g => { s with ls := setGranuleBytes s.ls g off bs }
  | .copy vi d _ => devPutAll s vi (d + off) bs

def stEmpty : Nat := 0
def stFull : Nat := 1
def stBarrier : Nat := 2

def locStateField (s : State) (l : GLoc) : Nat := bits (locState s l) 0 2
def locRsv (s : State) (l : GLoc) : Bool := bits (locState s l) 2 1 = 1

/-- The granule is poisoned; of a copy in HBM, also where its line is (R149, R218, R225). -/
def locPoison (s : State) (l : GLoc) : Bool :=
  bits (locState s l) 3 1 = 1 || (match l with | .here _ => false | .copy vi d _ => devPoison s vi d)

def setLocField (s : State) (l : GLoc) (lo w v : Nat) : State := setLocState s (setBits (locState s l) lo w v) l

/-- Decoding on a read of a granule in local store (R220). A copy in HBM is protected there, and a read brings its lines into
the home cache (R223, R225). -/
def readCheck (s : State) : GLoc → State
  | .here g => decodeWord s (g / 2)
  | .copy vi d st => touchAt vi (touchAt vi s d) st

/-- A reference held by half `h` of a granule is given up when the half is overwritten (R218); `src` is the task that
overwrites it. -/
def dropHalf (src : Option Nat) (s : State) (l : GLoc) (h : Nat) : State :=
  if bits (locState s l) (4 + h) 1 = 1 then
    let fut : Payload := BitVec.ofNat 64 (natOfBytes (locBytes s (8 * h) 8 l))
    setLocField (post s [.refChangeArrive ⟨fut, false, src, none⟩]) l (4 + h) 1 0
  else s

/-- The halves that an access touches. -/
def dropHalves (src : Option Nat) (s : State) (l : GLoc) (off n : Nat) : State :=
  let s' := if off < 8 then dropHalf src s l 0 else s
  if 8 < off + n then dropHalf src s' l 1 else s'

/-- The code word of a local granule cannot be corrected, or the line of its copy is poisoned (R149, R220, R225). -/
def unreadable (s : State) : GLoc → Bool
  | .here g => !(tgetD s.ls.upset (g / 2) []).isEmpty && !correctable s.ls (g / 2)
  | .copy vi d _ => devPoison s vi d

/-- The granule's copy lies in a range that two OVP areas share (R214). -/
def locShared (s : State) : GLoc → Bool
  | .here _ => false
  | .copy vi d _ => ovpShared s vi d

/-- A token as it is read from granules that hold it: POISON where one cannot be read (R65, R220, log 103), any token from a
shared range (R214, log 12). -/
def tokenRead (s : State) (ls : List GLoc) (t : Token) : Token :=
  if ls.any (unreadable s) then poisonTok
  else if ls.any (locShared s) then ⟨(Tag.ofCode (Config.sharedTok s.nd).1).getD .null, (Config.sharedTok s.nd).2⟩
  else t

/-- The granule key of a location, for its tracking word; spilled units are not tracked (R286, R290). -/
def locUnit : GLoc → Option Nat
  | .here g => some g
  | .copy _ _ _ => none

end Sys2Proof.Machine
end

