-- ==== Sys2Proof/Machine/Alloc.lean ====
section
/-! DEFINITION. The allocator of an arena and of a pane's task pool (R221, R230 to R239, R257): holes, grants in NORMAL and
RESERVE mode, records, releases. -/

namespace Sys2Proof.Machine

/-- The key of arena `a` of context `q` on a pane. -/
def arenaKey (pane q a : Nat) : Nat := pane * 128 + q * 8 + a
/-- The key of a pane's task pool. -/
def poolKey (pane : Nat) : Nat := pane * 128 + 64

/-- The task pool is managed as an arena with L = 0 and Q = 4,096 (R221). -/
def poolArena (pane : Nat) : Arena := { pane := pane, pool := true, size := Config.paneGranules, limit := 0, quiet := 4096 }

def arenaAt (s : State) (k : Nat) : Arena :=
  (tget s.al.arenas k).getD (if k % 128 = 64 then poolArena (k / 128) else {})

def setArena (s : State) (k : Nat) (a : Arena) : State := { s with al := { s.al with arenas := tput s.al.arenas k a } }

/-- The ranks of an arena's events within a cycle (R233): withdrawals, releases, spill completions, record frees, then arrivals,
those of cells first. -/
def withdrawRank : Nat := 0
def releaseRank : Nat := 1
def spillRank : Nat := 2
def recordRank : Nat := 3
def arrivalRank (r : AllocReq) : Nat :=
  2 ^ 64 + (match r.asker with
    | .word _ => ((r.cell * 128 + r.slot) * 65536 + r.iterRank) * 65536 + r.colour
    | _ => 2 ^ 60)

/-- No later event of the cycle has been handled; else the event is one of a later cycle (R231, R233). -/
def rankOk (s : State) (k rank : Nat) : Bool := (arenaAt s k).last.1 ≠ s.clk.cycle + 1 || (arenaAt s k).last.2 ≤ rank

/-- An event of an arena may be handled: no attempt stands over, and no later event of the cycle has been handled. -/
def inTurn (s : State) (k rank : Nat) : Bool := (arenaAt s k).due.isEmpty && rankOk s k rank

/-- An event of an arena is handled. -/
def noteTurn (s : State) (k rank : Nat) : State :=
  if (tget s.al.arenas k).isSome || k % 128 = 64 then setArena s k { arenaAt s k with last := (s.clk.cycle + 1, rank) } else s

/-- Extents cut off by a RELS whose release is still to come (R177, R178). -/
def pendingCuts (s : State) (pane : Nat) : List (Nat × Nat) :=
  s.net.flatMap fun m => match m with
    | .allocationRelease r => if r.pane = pane then r.cut else []
    | _ => []

/-- The extents that live, unspilled records of an arena's list hold. -/
def recExtents (s : State) (pane k : Nat) : List (Nat × Nat) :=
  s.al.recs.flatMap fun e =>
    if e.1 / 4096 = pane && e.2.live && e.2.akey = k && !e.2.spilled then [(e.2.base1, e.2.len1), (e.2.base2, e.2.len2)]
    else []

/-- The extents of the arenas bound on a pane. -/
def arenaExtents (s : State) (pane : Nat) : List (Nat × Nat) :=
  s.al.arenas.flatMap fun e => if e.2.pane = pane && !e.2.pool then [(e.2.base, e.2.size)] else []

/-- Ranges a held bind keeps the pool from (R352). -/
def heldExtents (s : State) (pane : Nat) : List (Nat × Nat) :=
  s.cf.held.flatMap fun h =>
    if !h.shutter && h.die * 192 + h.index / 8 = pane then
      (tgetD s.cf.graphs (bindGraph h.v.toNat) {}).arenas.map fun a => (a.base / 16, a.size / 16)
    else []

/-- Insertion of an extent by its base. -/
def insExtent (x : Nat × Nat) : List (Nat × Nat) → List (Nat × Nat)
  | [] => [x]
  | y :: t => if x.1 ≤ y.1 then x :: y :: t else y :: insExtent x t

def sortExtents : List (Nat × Nat) → List (Nat × Nat)
  | [] => []
  | x :: t => insExtent x (sortExtents t)

/-- The maximal free runs from `lo` to `hi` between sorted extents (R232). -/
def holesFrom (lo hi : Nat) : List (Nat × Nat) → List (Nat × Nat)
  | [] => if lo < hi then [(lo, hi - lo)] else []
  | (b, n) :: t =>
    if n = 0 then holesFrom lo hi t
    else if lo < min b hi then (lo, min b hi - lo) :: holesFrom (max lo (b + n)) hi t
    else holesFrom (max lo (b + n)) hi t

/-- The holes of an arena, by granule of the pane, lowest first (R232). -/
def holes (s : State) (k : Nat) : List (Nat × Nat) :=
  let a := arenaAt s k
  let base := if a.pool then 0 else a.base
  let hi := if a.pool then Config.paneGranules else a.base + a.size
  let occ := recExtents s a.pane k ++ pendingCuts s a.pane
    ++ (if a.pool then arenaExtents s a.pane ++ heldExtents s a.pane else [])
  holesFrom base hi (sortExtents occ)

/-- The size of a pane's task pool (R221, R222). -/
def poolSize (s : State) (pane : Nat) : Nat :=
  ((holesFrom 0 Config.paneGranules (sortExtents (arenaExtents s pane ++ heldExtents s pane))).map Prod.snd).foldl (· + ·) 0

/-- Free record indices of a pane, lowest first. -/
def freeRecs (s : State) (pane : Nat) : List Nat :=
  ((List.range 4096).map fun i => pane * 4096 + i).filter fun k => !(tgetD s.al.recs k {}).live

/-- The records a request takes: a carve-out takes two (R221). -/
def reqRecs (r : AllocReq) : Nat := match r.asker with | .word _ => 1 | _ => 2

def recsFree (s : State) (pane : Nat) (r : AllocReq) : Bool := reqRecs r ≤ ((freeRecs s pane).take 2).length

def setRec (s : State) (k : Nat) (r : Rec) : State := { s with al := { s.al with recs := tputD {} s.al.recs k r } }

/-- Granted granules are EMPTY, their tracking words CLEAN (R174, R218, R286). -/
def clearGranules (s : State) (pane : Nat) : Nat × Nat → State
  | (b, n) => (rangeFrom b n).foldl (fun a g =>
      { a with ls := { setGst a.ls (pane * 65536 + g) 0 with
          gtrack := tputD 0 a.ls.gtrack (pane * 65536 + g) 0 } }) s

/-- Sends an ALLOC's handle to the word's targets; the instance keeps the record until it commits (R17, R174). -/
def deliverHandle (s : State) (f : Firing) (key : Nat) : State :=
  match instrAt s f.tid f.block f.slot with
  | some i =>
    let s1 := { s with wk := { s.wk with waits := s.wk.waits.filter fun w => w.1 ≠ f } }
    let s2 := modInst s1 f.tid f.iter fun x => { x with allocs := x.allocs ++ [key] }
    fireSend s2 f i (mkTok .handle (handleOf key)) (mkTok .handle (handleOf key)) 0
  | none => s

/-- The last C ÷ 4 granules of a carve-out, its stack (R221). -/
def stackExtents (c : Nat) (e1 e2 : Nat × Nat) : (Nat × Nat) × (Nat × Nat) :=
  let k := c / 4
  if k ≤ e2.2 then ((e2.1 + e2.2 - k, k), (0, 0)) else ((e1.1 + e1.2 - (k - e2.2), k - e2.2), e2)

/-- The record of a carve-out's stack, which g60 names: consumer count 0 (R221). -/
def stackRec (r : Rec) (c : Nat) : Rec :=
  let x := stackExtents c (r.base1, r.len1) (r.base2, r.len2)
  { r with base1 := x.1.1, len1 := x.1.2, base2 := x.2.1, len2 := x.2.2, count := 0 }

/-- The context of a pane that is bound to a graph. -/
def contextOf (s : State) (pane graph : Nat) : Nat :=
  ((boundContexts s pane).find? fun q => bindGraph (bindRec s pane q) = graph).getD 0

/-- The interface and the context of a pane for which a carve-out is taken (R214). -/
def askerCtx (s : State) (pane : Nat) (r : AllocReq) : Nat × Nat :=
  match r.asker with
  | .word _ => (0, 0)
  | .deal k => ((tgetD s.jb.launches k {}).vi, contextOf s pane (tgetD s.jb.launches k {}).graph)
  | .spawn f => ((taskD s f.tid).vi, contextOf s pane (taskD s f.tid).graph)
  | .remote n => match s.wk.remotes.find? fun x => x.num = n with
    | some x => ((tgetD s.jb.launches x.r.launch {}).vi, contextOf s pane (tgetD s.jb.launches x.r.launch {}).graph)
    | none => (0, 0)

/-- One grant, a single step (R174, R221, R236). -/
def grant (s : State) (k : Nat) (r : AllocReq) (e1 e2 : Nat × Nat) : State :=
  let a := arenaAt s k
  match freeRecs s a.pane with
  | [] => s
  | key :: more =>
    let s0 := setArena s k { a with waiting := lerase a.waiting r, quietAt := s.clk.cycle }
    let s1 := { clearGranules (clearGranules s0 a.pane e1) a.pane e2 with
                al := { s0.al with gseq := (s0.al.gseq + 1) % 2 ^ 32 } }
    let rec0 : Rec := { live := true, arena := a.index, pool := a.pool, base1 := e1.1, len1 := e1.2, base2 := e2.1,
                        len2 := e2.2, count := r.count, owner := r.colour, gseq := s0.al.gseq, akey := k,
                        maker := (match r.asker with | .word f => (taskD s f.tid).order | _ => 0),
                        vi := (askerCtx s a.pane r).1, ctx := (askerCtx s a.pane r).2 }
    let s2 := setRec s1 key rec0
    match r.asker with
    | .word f => deliverHandle s2 f key
    | .deal l =>
      match more with
      | [] => s
      | key2 :: _ =>
        let s3 := setRec s2 key2 (stackRec rec0 r.size)
        modLaunch s3 l fun x => { x with hand := x.hand.map fun c => { c with granted := some key } }
    | .spawn f =>
      match more with
      | [] => s
      | key2 :: _ =>
        let s3 := setRec s2 key2 (stackRec rec0 r.size)
        let births := s3.wk.births.map fun b => if b.f = f then { b with granted := some key } else b
        { s3 with wk := { s3.wk with births := births, waits := s3.wk.waits.filter (fun w => w.1 ≠ f),
                                     issue := s3.wk.issue ++ [f] } }
    | .remote n =>
      match more with
      | [] => s
      | key2 :: _ =>
        let s3 := setRec s2 key2 (stackRec rec0 r.size)
        { s3 with wk := { s3.wk with remotes := s3.wk.remotes.map fun x => if x.num = n then { x with granted := some key } else x } }

/-- The lowest hole that holds a size. -/
def firstHole (hs : List (Nat × Nat)) (n : Nat) : Option (Nat × Nat) := hs.find? fun h => n ≤ h.2

/-- The largest hole; ties to the lower address. -/
def largestHole : List (Nat × Nat) → Option (Nat × Nat)
  | [] => none
  | h :: t => match largestHole t with
    | none => some h
    | some g => if h.2 < g.2 then some g else some h

/-- The two extents of a reserve grant (R235). -/
def reservePlace (hs : List (Nat × Nat)) (n : Nat) : Option ((Nat × Nat) × (Nat × Nat)) :=
  if (hs.map Prod.snd).foldl (· + ·) 0 < n then none
  else match firstHole hs n with
    | some h => some ((h.1, n), (0, 0))
    | none =>
      match largestHole hs with
      | none => none
      | some a =>
        match firstHole (hs.filter fun h => h ≠ a) (n - a.2) with
        | some b => some (a, (b.1, n - a.2))
        | none => none

/-- One scan of the list in NORMAL mode, oldest first (R234): `older` are the requests passed so far, oldest first. -/
def scanGrant (k limit : Nat) : List AllocReq → List AllocReq → State → State × Bool
  | [], _, s => (s, false)
  | w :: rest, older, s =>
    match firstHole (holes s k) w.size with
    | none => scanGrant k limit rest (older ++ [w]) s
    | some h =>
      if !recsFree s (arenaAt s k).pane w then scanGrant k limit rest (older ++ [w]) s
      else
        let s1 := grant s k w (h.1, w.size) (0, 0)
        let older' := older.map fun v => { v with overtakes := v.overtakes + 1 }
        let a := arenaAt s1 k
        let s2 := setArena s1 k { a with waiting := older' ++ rest }
        match older' with
        | o :: _ => if limit ≤ o.overtakes then (s2, true) else ((scanGrant k limit rest older' s2).1, true)
        | [] =>
          match rest with
          | o :: _ => if limit ≤ o.overtakes then (s2, true) else ((scanGrant k limit rest older' s2).1, true)
          | [] => (s2, true)

/-- A grant attempt (R234); each pass grants a request or ends it, so the list's length bounds the passes. -/
def attemptFuel (k : Nat) : Nat → State → State
  | 0, s => s
  | n + 1, s =>
    let a := arenaAt s k
    match a.waiting with
    | [] => s
    | o :: _ =>
      if a.reserve ∨ a.limit ≤ o.overtakes then
        let s1 := setArena s k { a with reserve := true }
        if !recsFree s1 a.pane o then s1
        else match reservePlace (holes s1 k) o.size with
          | none => s1
          | some (e1, e2) =>
            let s2 := grant s1 k o e1 e2
            attemptFuel k n (setArena s2 k { arenaAt s2 k with reserve := false })
      else
        let r := scanGrant k a.limit a.waiting [] s
        if r.2 then attemptFuel k n r.1 else r.1

def grantAttempt (s : State) (k : Nat) : State := attemptFuel k ((arenaAt s k).waiting.length + 1) s

/-- Attempts of every arena of a pane that has waiting requests: granules came free by a change of its binds. -/
def attemptPane (s : State) (pane : Nat) : State :=
  ((s.al.arenas.filter fun e => e.2.pane = pane && !e.2.waiting.isEmpty).map Prod.fst).foldl grantAttempt s

/-- The attempt of an event (R233): made at once where the event is in its turn, else it stands over as one of the next
cycle. -/
def attemptAt (rank : Nat) (s : State) (k : Nat) : State :=
  let a := arenaAt s k
  if a.waiting.isEmpty then s
  else if inTurn s k rank then grantAttempt (noteTurn s k rank) k
  else setArena s k { a with due := a.due ++ [rank] }

/-- The oldest attempt that stands over is made, once it is in its turn. -/
def attemptDue (s : State) (k : Nat) : State :=
  let a := arenaAt s k
  match a.due with
  | [] => s
  | r :: rest => if rankOk s k r then grantAttempt (noteTurn (setArena s k { a with due := rest }) k r) k else s

/-- A record index of a pane has come free: an attempt of every arena of the pane that has waiting requests (R233). -/
def recordFreed (s : State) (pane : Nat) : State :=
  ((s.al.arenas.filter fun e => e.2.pane = pane && !e.2.waiting.isEmpty).map Prod.fst).foldl (attemptAt recordRank) s

/-- Whether a request comes from a word instance. -/
def askedBy (f : Firing → Bool) (r : AllocReq) : Bool :=
  match r.asker with
  | .word x | .spawn x => f x
  | .deal _ | .remote _ => false

/-- Granules of the overflow area that a spilled record holds: those of the copy as it was made, whose state bytes stay at
their place when a RELS shortens it (R177, R223). -/
def copyHeld (r : Rec) : Nat :=
  let n := r.ovs / 16 - r.ovf
  n + (n + 15) / 16

/-- The other record of a carve-out's grant, and whether a record is that of the whole carve-out (R221). -/
def twinOf (s : State) (key : Nat) : Nat :=
  let r := tgetD s.al.recs key {}
  (tkeys s.al.recs fun k x => x.live && x.pool && k / 4096 = key / 4096 && k ≠ key && x.gseq = r.gseq).headD key

def wholeCarve (s : State) (key : Nat) : Bool := key ≤ twinOf s key

/-- Withdraws requests from the lists and from the messages, each arena concerned making an attempt (R175, R233). -/
def withdraw (s : State) (p : AllocReq → Bool) : State :=
  let net := s.net.filter fun m => match m with | .allocRequestArrive r => !p r | _ => true
  let hit := (s.al.arenas.filter fun e => e.2.waiting.any p).map Prod.fst
  let arenas := s.al.arenas.map fun e =>
    if e.2.waiting.any p then (e.1, { e.2 with waiting := e.2.waiting.filter fun r => !p r }) else e
  hit.foldl (attemptAt withdrawRank) { s with net := net, al := { s.al with arenas := arenas } }

/-! ### Releases (R178) -/

/-- The handles a command names. -/
def cmdHandles (k : CmdKind) : List Nat :=
  let side := fun (x : Side) => match x with | .handle h => [h] | .addr _ => []
  match k with
  | .cp a b _ _ => side a ++ side b
  | .gather _ h => [h]
  | .pset a _ => side a
  | .cpp a b _ _ _ => [a, b]
  | .wload _ _ h => [h]
  | .wmma _ _ _ a b => [a, b]
  | .cvtt _ a b => [a, b]

/-- The handles a started gather has taken from its command record (R181). -/
def gatherHandles : Option Gather → List Nat
  | none => []
  | some g =>
    let side := fun (x : Side) => match x with | .handle h => [h] | .addr _ => []
    side g.src ++ side g.dst ++ [g.idx]

/-- Whether a command names a record. -/
def cmdNames (key : Nat) (c : Cmd) : Bool :=
  (cmdHandles c.kind ++ gatherHandles c.gat).any fun h => handleRec h = some key

/-- Whether a command that has not ended still names a record (R178). -/
def engineNames (s : State) (key : Nat) : Bool := s.en.ctxs.any fun e => e.2.queue.any (cmdNames key)

/-- Whether a running command names a record (R237), or a numbered one holds more of it than a RELS has left (R177). -/
def engineRuns (s : State) (key : Nat) : Bool :=
  let cut := fun (c : Cmd) => match tget c.recs key with
    | some r => r.granules ≠ (tgetD s.al.recs key {}).granules
    | none => false
  s.en.ctxs.any fun e => e.2.queue.any fun c => cmdNames key c && (c.started || cut c)

/-- A released granule gives up its references, stops being a barrier, and is CLEAN (R178, R218, R286). -/
def freeGranule (s : State) (l : GLoc) : State :=
  let s1 := dropHalf none (dropHalf none s l 0) l 1
  let s2 := setLocState s1 0 l
  match locUnit l with
  | some g => { s2 with ls := { s2.ls with gtrack := tputD 0 s2.ls.gtrack g 0 } }
  | none => s2

/-- The whole of a record is released: its granules, its index, its place in the overflow area; its arena's attempt, and those
for the index (R178, R233, R237). -/
def releaseRec (s : State) (key : Nat) : State :=
  match tget s.al.recs key with
  | none => s
  | some r =>
    let s1 := (List.range r.granules).foldl (fun a j => freeGranule a (recGranule s key r j)) s
    let s2 := setRec s1 key {}
    let s3 := if r.pool || (tget s2.al.arenas r.akey).isSome
      then setArena s2 r.akey { arenaAt s2 r.akey with quietAt := s.clk.cycle } else s2
    recordFreed (attemptAt releaseRank s3 r.akey) (key / 4096)

/-- Asks for the release of a record (R178). -/
def askRelease (s : State) (key : Nat) : State :=
  post s [.allocationRelease ⟨key / 4096, key % 4096, true, [], [], (tgetD s.al.recs key {}).gseq⟩]

end Sys2Proof.Machine
end

