-- ==== Sys2Proof/Machine/Ops.lean ====
section
/-! DEFINITION. The shared operations on tasks: discarding an instance (R17, R19), taking a fault (R291 to R295), the stop
list and its resume (R293, R301, R302, R320), race tracking (R286 to R288), the end and the reclamation of a task
(R39, R119). -/

namespace Sys2Proof.Machine

/-! ### The carve-out (R208, R217, R221) -/

/-- Granule `j` of a task's carve-out. -/
def carveGranule (s : State) (t : Task) (j : Nat) : Option GLoc :=
  match tget s.al.recs t.carve with
  | some r => if r.live && j < r.granules then some (recGranule s t.carve r j) else none
  | none => none

/-- Bytes of a granule of the carve-out. -/
def carvePut (s : State) (t : Task) (j off : Nat) (bs : List Byte) : State :=
  match carveGranule s t j with
  | some l => setLocBytes s off bs l
  | none => s

/-- The granules of a register's payload and of its tag (R221). -/
def regGranule (r : Nat) : Nat := r / 2
def tagGranule (r : Nat) : Nat := 32 + r / 16

/-- A register as it stands in the carve-out: eight bytes of payload, one of tag. -/
def storeReg (s : State) (tid r : Nat) : State :=
  match taskAt s tid with
  | some t =>
    let v := regOf t r
    carvePut (carvePut s t (regGranule r) (8 * (r % 2)) (bytesOf 8 v.val.toNat)) t (tagGranule r) (r % 16)
      [BitVec.ofNat 8 (Tag.code v.tag)]
  | none => s

/-- The granules of the carve-out that hold a register (R221). -/
def regGranules (s : State) (tid r : Nat) : List GLoc :=
  match taskAt s tid with
  | some t => [regGranule r, tagGranule r].filterMap (carveGranule s t)
  | none => []

/-- Their code words are decoded (R220). -/
def regCheck (s : State) (tid r : Nat) : State := (regGranules s tid r).foldl readCheck s

/-- A committed register as it is read from the carve-out. -/
def regRead (s : State) (tid r : Nat) (v : Token) : Token := tokenRead s (regGranules s tid r) v

/-- All registers, at the task's start (R208). -/
def storeRegs (s : State) (tid : Nat) : State := (List.range 64).foldl (fun a r => storeReg a tid r) s

/-- Flags are ORed into g61 (R105, R209). -/
def flagTask (s : State) (tid : Nat) (fl : FlagSet) : State :=
  if fl = 0 then s else storeReg (modTask s tid fun t => orFlags t fl) tid 61

/-- A token's 16 bytes in a granule of the carve-out; their layout is open (R221, log 102). -/
def storeToken (s : State) (t : Task) (j : Nat) : State := carvePut s t j 0 ((List.range 16).map (Config.tokenByte s.nd))

/-! ### Race tracking (R286 to R288) -/

/-- A tracked unit: a granule, or half of a line. -/
inductive TrackUnit where
  | granule (g : Nat)
  | half (line : Nat) (h : Nat)
  deriving DecidableEq, Repr

def TrackUnit.key : TrackUnit → Nat
  | .granule g => 2 * g
  | .half l h => 2 * (2 * l + h) + 1

def unitOfKey (k : Nat) : TrackUnit := if k % 2 = 0 then .granule (k / 2) else .half (k / 4) (k / 2 % 2)

def trackWord (s : State) : TrackUnit → Nat
  | .granule g => (tgetD s.ls.gtrack g 0).toNat
  | .half l h => (if h = 0 then (lineAt s.gm l).track0 else (lineAt s.gm l).track1).toNat

def setTrack (s : State) (v : Nat) : TrackUnit → State
  | .granule g => { s with ls := { s.ls with gtrack := tputD 0 s.ls.gtrack g (BitVec.ofNat 24 v) } }
  | .half l h =>
    let g := fillLine s.gm l
    let upd := fun (x : Line) =>
      if h = 0 then { x with track0 := BitVec.ofNat 24 v, dirty := true } else { x with track1 := BitVec.ofNat 24 v, dirty := true }
    { s with gm := { g with lines := tmod g.lines l upd } }

/-- A tracking word (R286). -/
def mkTrack (rst scope die colour : Nat) : Nat := rst + scope * 4 + die % 4 * 16 + colour % 65536 * 64

/-- Whether a task lies within the scope at which a task of a die has published a unit (R268). PANE asks for the publisher's
home pane, which is kept with the unit. -/
def withinScope (s : State) (scope : Nat) (u : Task) (die : Nat) (x : TrackUnit) : Bool :=
  match scope with
  | 0 => tget s.wk.pubs x.key = some u.pane
  | 1 => u.die = die
  | _ => true

/-- A plain access by a task against a unit's word (R287): whether it races. -/
def races (s : State) (u : Task) (x : TrackUnit) : Bool :=
  let w := trackWord s x
  let mine := bits w 4 2 = u.die && bits w 6 16 = u.colour
  match bits w 0 2 with
  | 1 => !mine
  | 2 => !(mine || withinScope s (bits w 2 2) u (bits w 4 2) x)
  | _ => false

/-- A plain write that performs: the unit becomes OWNED and joins the write set of at most 256 units (R287, R288). -/
def ownUnit (s : State) (tid : Nat) (x : TrackUnit) : State :=
  let die := tid / 65536
  let col := tid % 65536
  let w := trackWord s x
  let mine := bits w 4 2 = die && bits w 6 16 = col
  if bits w 0 2 = 1 && mine then s
  else
    match taskAt s tid with
    | some t =>
      if t.writes.contains x.key then setTrack s (mkTrack 1 0 die col) x
      else if 256 ≤ t.writes.length then
        flagTask (setTrack s (mkTrack 2 3 die col) x) tid fUntracked
      else modTask (setTrack s (mkTrack 1 0 die col) x) tid fun t => { t with writes := t.writes ++ [x.key] }
    | none => setTrack s (mkTrack 2 2 die col) x

/-- The home pane of a unit's publisher at PANE scope is kept. -/
def notePub (s : State) (x : TrackUnit) (pane : Nat) : State :=
  { s with wk := { s.wk with pubs := tput s.wk.pubs x.key pane } }

/-- A release at a scope publishes the write set (R288). -/
def publish (s : State) (tid scope : Nat) : State :=
  let die := tid / 65536
  let col := tid % 65536
  let one := fun (a : State) k =>
    let x := unitOfKey k
    let w := trackWord a x
    if bits w 0 2 = 1 && bits w 4 2 = die && bits w 6 16 = col then
      setTrack (if scope = 0 then notePub a x (taskD s tid).pane else a) (mkTrack 2 scope die col) x
    else a
  modTask ((taskD s tid).writes.foldl one s) tid fun t => { t with writes := [] }

/-- An engine write to a tracked unit (R288). -/
def publishUnit (s : State) (tid : Nat) (x : TrackUnit) : State :=
  setTrack s (mkTrack 2 2 (tid / 65536) (tid % 65536)) x

def scopeNum : Scope → Nat
  | .pane => 0 | .die => 1 | .device => 2 | .system => 3

/-- SPAWNs whose earlier effects have all performed are performed themselves: they publish their task's write set, and the
children they started are free to access memory (R274, R288). -/
def openWaits (s : State) : State :=
  let pub := fun (a : State) (w : After) => if (taskD a w.tid).order = w.order then publish a w.tid 2 else a
  let s1 := (s.wk.rels.filter (afterDone s)).foldl pub s
  let keep := fun (e : Nat × Task) => (e.1, { e.2 with wait := e.2.wait.filter fun w => !afterDone s w })
  if (s.wk.rels.any (afterDone s)) || s.wk.tasks.any (fun e => e.2.wait.any (afterDone s)) then
    { s1 with wk := { s1.wk with rels := s1.wk.rels.filter (fun w => !afterDone s w), tasks := s1.wk.tasks.map keep } }
  else s

/-- An instance has committed: what a child's start follows of it is the effects sent by now (R274). -/
def settleWaits (s : State) (tid iter : Nat) : State :=
  let seq := (taskD s tid).seq
  let one := fun (w : After) =>
    if w.tid = tid && w.live.contains iter then { w with seq := seq, live := w.live.filter fun i => i ≠ iter } else w
  if s.wk.rels.any (fun w => w.tid = tid) || s.wk.tasks.any (fun e => e.2.wait.any fun w => w.tid = tid) then
    openWaits { s with wk := { s.wk with rels := s.wk.rels.map one,
                                         tasks := s.wk.tasks.map fun e => (e.1, { e.2 with wait := e.2.wait.map one }) } }
  else s

/-! ### Discarding an instance (R17, R19) -/

/-- A discarded take releases its reservation; the granule stays FULL (R160). -/
def undoTake (s : State) (r : Request) : State :=
  match r.kind with
  | .take h off =>
    match resolve s h (off : Int) 1 with
    | .ok (l, _) => setLocField s l 2 1 0
    | .error _ => s
  | _ => s

/-- SPAWNs that wait for a colour or a task record look again (R43, R256). -/
def wakeColour (s : State) : State :=
  let mine := fun (w : Firing × Wait) => w.2 = .colour
  { s with wk := { s.wk with waits := s.wk.waits.filter (fun w => !mine w),
                             issue := s.wk.issue ++ (s.wk.waits.filter mine).map Prod.fst } }

/-- A record is freed: its generation is raised by one (R256). -/
def freeFut (s : State) (k : Nat) : State :=
  let r := tgetD s.wk.futs k {}
  wakeColour { s with wk := { s.wk with futs := tput s.wk.futs k { gen := (r.gen + 1) % 2 ^ 32 } } }

/-- A colour goes back to its die's pool unused. -/
def giveColour (s : State) (die c : Nat) : State :=
  let pl := tgetD s.wk.pools die {}
  wakeColour { s with wk := { s.wk with pools := tput s.wk.pools die { pl with returned := pl.returned ++ [c] } } }

/-- A SPAWN that had not started its child gives back what it took, its argument's reference too (R193, R222). -/
def undoBirth (s : State) (b : Birth) : State :=
  let s0 : State := match portTok s b.f .r with
    | some v => if v.tag = .future then post s [.refChangeArrive ⟨v.val, false, some b.f.tid, none⟩] else s
    | none => s
  let sl : State := { s0 with wk := { s0.wk with line := s0.wk.line.filter fun (q : Queued) => q.who ≠ Asker.spawn b.f } }
  let s1 := match b.granted with | some k => releaseRec (releaseRec sl (twinOf sl k)) k | none => sl
  let s2 := match b.fut with | some k => freeFut s1 k | none => s1
  match b.colour with
  | some c => giveColour s2 (paneDie b.pane) c
  | none => wakeColour s2

def ofInst (tid iter : Nat) (f : Firing) : Bool := f.tid = tid && f.iter = iter

/-- The messages that go with an instance: its tokens, its reads, its walks (R19, R299). -/
def msgOfInst (tid iter : Nat) : Instr → Bool
  | .tokenArrive m => m.tid = tid && m.src = iter
  | .homeRead m => ofInst tid iter m.f
  | .pageWalk m => (match m.who with | .word f => ofInst tid iter f | _ => false)
  | _ => false

/-- The tokens that a discarded instance has sent to a reduction stay until it sends them again (R139). -/
def staleRed (tid iter : Nat) (r : Red) : Red :=
  if r.tid = tid then { r with stale := ((r.srcs.filter fun e => e.2 = iter).map Prod.fst ++ r.stale).eraseDups } else r

/-- Discards an uncommitted instance: its effects never happen, and only the acts of R17 are undone. -/
def discardInst (s : State) (i : Inst) : State :=
  let own := ofInst i.tid i.iter
  let s1 := i.requests.foldl undoTake s
  let s2 := i.allocs.foldl askRelease s1
  let s3 := post s2 (i.refs.map fun f => .refChangeArrive ⟨f, false, some i.tid, none⟩)
  let s4 := (s3.wk.births.filter fun b => own b.f).foldl undoBirth s3
  let s5 := withdraw s4 (askedBy own)
  { s5 with
    net := s5.net.filter fun m => !msgOfInst i.tid i.iter m
    gm := { s5.gm with held := s5.gm.held.filter (fun m => match m.who with | .word f => !own f | _ => true),
                       early := s5.gm.early.filter fun e => !(e.tid = i.tid && e.iter = i.iter) }
    wk := { s5.wk with
      insts := tdel s5.wk.insts (instKey i.tid i.iter)
      toks := s5.wk.toks.filter fun e => !(e.msg.tid = i.tid && e.msg.src = i.iter)
      reds := s5.wk.reds.map (staleRed i.tid i.iter)
      waits := s5.wk.waits.filter fun w => !own w.1
      births := s5.wk.births.filter fun b => !own b.f
      issue := s5.wk.issue.filter fun f => !own f
      ready := s5.wk.ready.filter fun r => !own r.f } }

/-! ### Resume entries (R301) -/

/-- Insertion of an instance by its rank in the loop. -/
def insInst (base : Nat) (x : Inst) : List Inst → List Inst
  | [] => [x]
  | y :: t => if iterRank base x.iter ≤ iterRank base y.iter then x :: y :: t else y :: insInst base x t

def sortInsts (base : Nat) : List Inst → List Inst
  | [] => []
  | x :: t => insInst base x (sortInsts base t)

/-- Whether a block of a graph is re-entrant. -/
def reAt (g : Graph) (va : Nat) : Bool := match blockAt g va with | some b => hdrRe b.header | none => false

def firedNext (i : Inst) : Bool := match i.branch with | some (.next _) => true | _ => false

/-- The activation that follows an instance waits for the limit of 4,096 live ones, so that it has yet to take place (R27). -/
def activationLate (s : State) (i : Inst) (a : Activation) : Bool :=
  Config.maxInstances ≤ (instsOf s i.tid).length && a.next && i.mayNext && firedNext i && a.tid = i.tid
    && a.iter = (i.iter + 1) % iterMod

def anyLate (s : State) (i : Inst) : Bool :=
  s.net.any fun m => match m with | .blockActivate a => activationLate s i a | _ => false

/-- The entry of one instance. NEXT: the instance after it was never activated, and it may activate it (R301). -/
def entryOf (s : State) (g : Graph) (stopped : Bool) (i : Inst) : Entry :=
  let re := reAt g i.block
  ⟨i.iter, 0, re && i.mayNext && (!firedNext i || anyLate s i), re, stopped, offOf g i.block⟩

/-- The entries of the instances that wait for their frames, or for an earlier instance (R12, R22, R292). -/
def waitingEntries (s : State) (g : Graph) (tid : Nat) (stopped : Bool) : List Entry :=
  s.net.flatMap fun m => match m with
    | .blockActivate a =>
      if a.tid = tid && !((instsOf s tid).any fun i => activationLate s i a) then
        [⟨a.iter, 0, reAt g a.block && a.mayNext, reAt g a.block, stopped, offOf g a.block⟩]
      else []
    | _ => []

/-- Insertion of an entry by its rank in the loop. -/
def insEntry (base : Nat) (x : Entry) : List Entry → List Entry
  | [] => [x]
  | y :: t => if iterRank base x.iter ≤ iterRank base y.iter then x :: y :: t else y :: insEntry base x t

def sortEntries (base : Nat) : List Entry → List Entry
  | [] => []
  | x :: t => insEntry base x (sortEntries base t)

/-- Joins an entry with the run that follows it; COUNT has 12 bits (R301). -/
def joinEntry (e : Entry) : List Entry → List Entry
  | [] => [e]
  | n :: t =>
    if e.kind && n.kind && n.block = e.block && n.iter = (e.iter + 1) % iterMod && !e.next && n.count < 4095 then
      { n with iter := e.iter, count := n.count + 1 } :: t
    else e :: n :: t

def joinEntries : List Entry → List Entry
  | [] => []
  | e :: t => joinEntry e (joinEntries t)

/-- The entries of a task: its live instances and those that wait, in runs (R301). -/
def entriesOf (s : State) (g : Graph) (tid : Nat) (stopped : Bool) : List Entry :=
  let base := oldestIter s tid
  joinEntries (sortEntries base ((instsOf s tid).map (entryOf s g stopped) ++ waitingEntries s g tid stopped))

/-- Discards every uncommitted instance of a task, keeping resume entries (R291, R293, R298). -/
def discardAll (s : State) (tid : Nat) (stopped : Bool) : State :=
  match taskAt s tid with
  | none => s
  | some t =>
    let live := sortInsts (oldestIter s tid) (instsOf s tid)
    let es := entriesOf s (graphOf s t) tid stopped
    let s1 := { s with net := s.net.filter fun m => match m with | .blockActivate a => a.tid ≠ tid | _ => true }
    let s2 := live.foldl discardInst s1
    modTask s2 tid fun t => { t with entries := t.entries ++ es, stopped := t.stopped || stopped }

/-! ### Taking a fault (R291) -/

/-- The one operation that takes a fault with outcome Stop (R291, R292): the record is written, the instance and the
task's other instances are discarded, and the task is stopped with its resume entries (R293). -/
def stopTask (s : State) (tid : Nat) (f : Flt) (p : Place4) : State :=
  match taskAt s tid with
  | none => s
  | some t => discardAll (faultLaunch (writeRecord s t.vi f p) t.launch) tid true

/-- The marker of a shutter reached the slot's cell before the fault: nothing is recorded (R303). -/
def faultLate (s : State) (t : Task) (i : Inst) (slot : Nat) : Bool :=
  if slot = 255 then blockMarked s t i.block (match blkOf s i with | some b => b.words.length | none => 1)
  else markedAt s t.graph (cellOf s t i.block slot)

/-- A fault raised by a slot of an instance. -/
def raise (s : State) (tid iter slot : Nat) (f : Flt) : State :=
  match taskAt s tid, instAt s tid iter with
  | some t, some i => if faultLate s t i slot then s else stopTask s tid f (placeOf s t i slot)
  | _, _ => s

/-- A fault of a firing word. -/
def raiseAt (s : State) (f : Firing) (c : Flt) : State := raise s f.tid f.iter f.slot c

/-- A record with outcome Go on for a launch (R173, R195, R291). -/
def recordGoOn (s : State) (o : Origin) (f : Flt) : State :=
  faultLaunch (writeRecord s o.vi f ⟨o.slot, o.colour, o.iter, o.die, o.pane % 192, o.block⟩) o.launch

/-! ### Return from a stop or a shutter (R302, R320) -/

/-- The activations of an entry: instances ITER to ITER + COUNT, of which only the last may activate the next (R302). -/
def entryActivations (t : Task) (g : Graph) (tid : Nat) (e : Entry) : List Instr :=
  (List.range (e.count + 1)).map fun k =>
    .blockActivate ⟨tid, (e.iter + k) % iterMod, vaOf g e.block, e.next && k = e.count, e.kind && k = 0 && t.entries.head? = some e, false⟩

/-- Resume of a task: its entries are activated in order with fresh frames (R302). -/
def resumeTask (s : State) (tid : Nat) : State :=
  match taskAt s tid with
  | none => s
  | some t =>
    post (modTask s tid fun t => { t with entries := [], stopped := false })
      (t.entries.flatMap (entryActivations t (graphOf s t) tid))

/-! ### The end of a task -/

/-- Every FUTURE that is read in a task's registers is dropped (R38, R39, R119, R220). -/
def dropRegs (s : State) (tid : Nat) (t : Task) : State :=
  let one := fun (a : State) (e : Nat × Token) =>
    if e.2.tag = .future then
      let v := regRead a tid e.1 e.2
      let a1 := regCheck a tid e.1
      if v.tag = .future then post a1 [.refChangeArrive ⟨v.val, false, some tid, none⟩] else a1
    else a
  t.regs.foldl one s

/-- The carve-out is returned and the colour enters cooling (R39, R43, R119); the write set is published (R288). -/
def endTask (s : State) (tid : Nat) : State :=
  match taskAt s tid with
  | none => s
  | some t =>
    let s1 := dropRegs (publish s tid 2) tid t
    let s2 := releaseRec (releaseRec s1 t.stack) t.carve
    let cool := tgetD s2.wk.cooling t.die []
    { s2 with wk := { s2.wk with
        tasks := tdel s2.wk.tasks tid
        cooling := tput s2.wk.cooling t.die (cool ++ [t.colour])
        toks := s2.wk.toks.filter fun e => e.msg.tid ≠ tid } }

/-- A revoked CP stops at its next 128-byte boundary: where it stands on one, there; where its end comes first, with all its
bytes written, and status 1 all the same (R180, log 116). -/
def revokeCmds (s : State) (p : Cmd → Bool) : State :=
  let one := fun (c : Cmd) =>
    match c.kind with
    | .cp _ _ n true => if p c && !c.revoked && c.status.isNone then
        { c with revoked := true, stopAt := if c.started then min n ((c.off + 127) / 128 * 128) else 0 } else c
    | _ => c
  { s with en := { s.en with ctxs := s.en.ctxs.map fun e => (e.1, { e.2 with queue := e.2.queue.map one }) } }

/-- Reclamation of a task at a boundary between its blocks (R39): its instances are discarded, its references dropped, its
allocations released, its colour cooled, its record freed. -/
def reclaimTask (s : State) (tid : Nat) : State :=
  match taskAt s tid with
  | none => s
  | some t =>
    let s0 := { s with wk := { s.wk with futs := tmod s.wk.futs t.fut fun r => { r with state := .reclaiming } } }
    let s1 := discardAll s0 tid false
    let s2 := revokeCmds s1 fun c => c.tid = tid && c.order = t.order
    let mine := tkeys s2.al.recs fun k r => r.live && !r.pool && r.maker = t.order && r.owner = t.colour && k / 4096 / 192 = t.die
    let s3 := mine.foldl askRelease s2
    freeFut (endTask s3 tid) t.fut

end Sys2Proof.Machine
end

