-- ==== Sys2Proof/Machine/Perf.lean ====
section
/-! DEFINITION. Profiling counters, the percentile watch and the latch (R207, R216, R262 to R267). -/

namespace Sys2Proof.Machine

/-- LATCHED of a die: it has been set, or its step of R267 has come. -/
def latchedNow (s : State) (die : Nat) : Bool :=
  bits (tgetD s.sr.trigger die 0).toNat 1 1 = 1 || s.sr.latch.any fun l => l.2 = die && l.1 ≤ s.clk.cycle

/-- A die's counters are frozen while LATCHED is set, and in the cycle in which it is cleared (R267). -/
def frozen (s : State) (die : Nat) : Bool := latchedNow s die || s.clk.cycle < tgetD s.sr.thaw die 0

def perfSelOf (s : State) (pane c : Nat) : Nat := (tgetD s.sr.perfSel (pane * 8 + c) 0).toNat
def perfCntOf (s : State) (pane c : Nat) : Nat := tgetD s.sr.perfCnt (pane * 8 + c) 0

/-- A counter with `n` more, held at its maximum (R216). -/
def perfBump (s : State) (n k : Nat) : State :=
  if frozen s (paneDie (k / 8)) then s
  else { s with sr := { s.sr with perfCnt := tputD 0 s.sr.perfCnt k (min (2 ^ 64 - 1) (tgetD s.sr.perfCnt k 0 + n)) } }

/-- The counters, among those that a predicate on the pane admits, that select an event of a source (R216, R262). -/
def perfSelecting (s : State) (source ev : Nat) (p : Nat → Bool) : List Nat :=
  tkeys s.sr.perfSel fun k v => bits v.toNat 11 2 = source && bits v.toNat 0 11 = ev && p (k / 8)

/-- A hardware event of a pane (R262). -/
def perfPane (s : State) (pane ev n : Nat) : State :=
  (perfSelecting s 1 ev fun p => p = pane).foldl (fun a k => perfBump a n k) s

/-- A hardware event of a die: every counter of the die that selects it (R262). -/
def perfDie (s : State) (die ev n : Nat) : State :=
  (perfSelecting s 1 ev fun p => paneDie p = die).foldl (fun a k => perfBump a n k) s

/-- A PROF value (R207). -/
def perfProf (s : State) (pane ev n : Nat) : State :=
  (perfSelecting s 2 ev fun p => p = pane).foldl (fun a k => perfBump a n k) s

/-- A line request of a die (R263): to its own home, to another die's, or to a peer device. -/
def lineRequest (s : State) (die pa rdev : Nat) : State :=
  if rdev ≠ 0 then perfDie s die 0x012 1
  else match homeOf pa with
    | some (h, _) => perfDie s die (if h = die then 0x010 else 0x011) 1
    | none => s

/-- ⌊log2⌋ + 1 of a number, and 0 of 0. -/
def bitLen : Nat → Nat → Nat
  | 0, _ => 0
  | fuel + 1, n => if n = 0 then 0 else 1 + bitLen fuel (n / 2)

/-- The bin of a matching-store wait (R264). -/
def waitBin (w : Nat) : Nat := min 15 (bitLen 16 w)

/-- The bin of a command's latency (R265). -/
def latencyBin (l : Nat) : Nat := min 15 (bitLen 16 (l / 64))

/-- The dies adjacent to a die and its diagonal (R2). -/
def adjacentDies (d : Nat) : List Nat := [Nat.xor d 1, Nat.xor d 2]
def diagonalDie (d : Nat) : Nat := Nat.xor d 3

/-- The watch of a counter after an increment (R266): it fires and the latch runs across the device (R267). -/
def watchFire (s : State) (k : Nat) : State :=
  let die := paneDie (k / 8)
  let trig := (tgetD s.sr.trigger die 0).toNat
  let p := bits (tgetD s.sr.perfSel k 0).toNat 0 3
  let t := tgetD s.sr.perfTotal k 0
  if bits trig 0 1 = 1 ∧ !latchedNow s die ∧ 1024 ≤ t ∧ t < tgetD s.sr.perfCnt k 0 * 2 ^ (p + 3) then
    let c := s.clk.cycle
    let add := [(c + 1, die)] ++ (adjacentDies die).map (fun d => (c + 41, d)) ++ [(c + 81, diagonalDie die)]
    { s with sr := { s.sr with latch := s.sr.latch ++ add } }
  else s

/-- The counters of a pane that watch commands of class E, with the bin each watches (R262, R266). -/
def watchers (s : State) (pane e : Nat) : List (Nat × Nat) :=
  s.sr.perfSel.flatMap fun x =>
    let v := x.2.toNat
    let ev := bits v 0 11
    if x.1 / 8 = pane ∧ bits v 11 2 = 1 ∧ 0x400 + 128 * e ≤ ev ∧ ev < 0x400 + 128 * (e + 1)
    then [(x.1, (ev - 0x400 - 128 * e) / 8)] else []

/-- One watched counter at the end of a command in bin `b`. -/
def watchCount (b : Nat) (s : State) (w : Nat × Nat) : State :=
  if frozen s (paneDie (w.1 / 8)) then s
  else
    let s1 := { s with sr := { s.sr with perfTotal := tputD 0 s.sr.perfTotal w.1 (tgetD s.sr.perfTotal w.1 0 + 1) } }
    watchFire (if w.2 ≤ b then perfBump s1 1 w.1 else s1) w.1

/-- A command of class E ends with a latency, counted in the pane that issued it (R265, R266). -/
def perfCommand (s : State) (pane e latency : Nat) : State :=
  let b := latencyBin latency
  (watchers s pane e).foldl (watchCount b) (perfPane s pane (0x100 + 16 * e + b) 1)

/-- A counter is set; its hidden total is cleared (R216, R266). -/
def perfSet (s : State) (k v : Nat) : State :=
  { s with sr := { s.sr with perfCnt := tputD 0 s.sr.perfCnt k v, perfTotal := tdel s.sr.perfTotal k } }

end Sys2Proof.Machine
end

