-- ==== Sys2Proof/Machine/Lane.lean ====
section
/-! DEFINITION. What every issued word does first: the lane it takes (R13, R29), the order in which POISON, NULL, the
predicate and the tags of its ports are looked at (R65, R90, R104, R144, R170), and the ways it can end: a result, a
nulled effect, a request, a wait, a fault. -/

namespace Sys2Proof.Machine

/-- The outcome of every meaning. -/
abbrev Out := Host.Outcome State Fault Refusal

/-- The lane's word leaves the datapath. -/
def popLane (s : State) : State := { s with wk := { s.wk with issue := s.wk.issue.tail } }

/-- A word may fire: its instance is live, it has not fired, and every port it reads is filled (R13). -/
def canFire (s : State) (f : Firing) (i : Instr) : Bool :=
  match instAt s f.tid f.iter with
  | some x => x.block = f.block && !x.fired.contains f.slot && !fireMarked s f && (Instr.firePorts i).all fun q => (portTok s f q).isSome
  | none => false

/-- Runs the word of the first lane; a lane whose word cannot fire is dropped. -/
def onLane (s : State) (i : Instr) (k : Firing → State → State) : Out :=
  match s.wk.issue with
  | [] => .next s
  | f :: _ => if canFire s f i then .next (k f (popLane s)) else .next (popLane s)

/-- A port's token; `canFire` says that it is there. -/
def portD (s : State) (f : Firing) (q : Port) : Token := (portTok s f q).getD nullTok

/-- P where the word reads it. -/
def predTokOf (s : State) (f : Firing) (pm : Pm) : Option Token :=
  match pm with
  | .always => none
  | _ => some (portD s f .p)

/-- The pane of the cell on which a word fires (R252). -/
def cellPane (s : State) (f : Firing) : Nat := cellOf s (taskD s f.tid) f.block f.slot / 16

/-! ### Value words -/

/-- A value word sends what was computed, or raises FORMAT. -/
def finishValue (s : State) (f : Firing) (i : Instr) : VOut → State
  | .send a b fl => fireSend s f i a b fl
  | .format => raiseAt s f ⟨.format, 0⟩

/-- A value word: it sends its result to both targets, or raises FORMAT (R103, R104). -/
def valueWord (s : State) (i : Instr) (res : State → Firing → VOut) : Out :=
  onLane s i fun f s1 =>
    let data := (Instr.dataPorts i).map (portD s1 f)
    finishValue s1 f i (valueRule (Instr.predicate i) (predTokOf s1 f (Instr.predicate i)) data (res s1 f))

/-- A value word of one, two or three operands. -/
def value1 (s : State) (i : Instr) (c : Token → VOut) : Out := valueWord s i fun s f => c (portD s f .l)
def value2 (s : State) (i : Instr) (c : Token → Token → VOut) : Out :=
  valueWord s i fun s f => c (portD s f .l) (portD s f .r)
def value3 (s : State) (i : Instr) (c : Token → Token → Token → VOut) : Out :=
  valueWord s i fun s f => c (portD s f .l) (portD s f .r) (portD s f .x)

/-! ### Gates of the other words -/

/-- How a port meets POISON: `steer` raises POISON_USE, `count` FORMAT, `data` lets the word proceed, `quiet` nulls it,
`pass` sends POISON (R104, R144, R170). -/
inductive PortUse where
  | steer | count | data | quiet | pass
  deriving DecidableEq, Repr

/-- What the gate of a word says. -/
inductive Gate where
  | go
  | null
  | poison
  | flt (c : Code)
  deriving DecidableEq, Repr

/-- POISON met by ports of these uses. -/
def poisonGate (us : List PortUse) : Option Gate :=
  if us.contains .steer then some (.flt .poisonUse)
  else if us.contains .count then some (.flt .format)
  else if us.contains .quiet then some .null
  else if us.contains .pass then some .poison
  else none

/-- The gate of a word: POISON (P counting as every port of the word, R90), then NULL, then P's tag and match. -/
def gate (pm : Pm) (p : Option Token) (us : List (PortUse × Token)) : Gate :=
  let bad := if anyTag .poison p.toList then us.map Prod.fst else (us.filter fun u => u.2.tag = .poison).map Prod.fst
  match poisonGate bad with
  | some g => g
  | none =>
    if anyTag .poison p.toList then .flt .poisonUse
    else if anyTag .null (us.map Prod.snd ++ p.toList) then .null
    else match predMatch pm p with
      | none => .flt .format
      | some false => .null
      | some true => .go

/-! ### Ways a word ends -/

/-- READs that wait for their register fire again (R18, R24). -/
def wakeReads (s : State) (tid : Nat) : State :=
  let mine := fun (w : Firing × Wait) => w.2 = .reg && w.1.tid = tid
  { s with wk := { s.wk with waits := s.wk.waits.filter (fun w => !mine w),
                             issue := s.wk.issue ++ (s.wk.waits.filter mine).map Prod.fst } }

/-- A nulled effect (R14); a READ of the next instance may now inherit (R24). -/
def nullSlot (s : State) (f : Firing) : State :=
  wakeReads (modInst s f.tid f.iter fun i => { i with fired := i.fired ++ [f.slot], nulled := i.nulled ++ [f.slot] })
    f.tid

/-- A fire word that performs nothing sends NULL (R90). -/
def sendNull (s : State) (f : Firing) (i : Instr) : State := fireSend s f i nullTok nullTok 0

/-- The register that a returning word's value goes to: that of the WRITE whose port L its T0 names (R145). -/
def retReg (s : State) (f : Firing) (i : Instr) : Option Nat :=
  match (Instr.targets i).1 with
  | some d => (match instrAt s f.tid f.block d.slot.toNat with | some (.write _ r _) => some r.toNat | _ => none)
  | none => none

/-- A store-class word has produced its request (R14, R141). -/
def request (s : State) (f : Firing) (i : Instr) (k : ReqKind) : State :=
  let r : Request := ⟨f.slot, Instr.lsid i, if Instr.returning i then retReg s f i else none, k⟩
  modInst s f.tid f.iter fun x => { x with fired := x.fired ++ [f.slot], requests := x.requests ++ [r] }

/-- A word that waits (R17). -/
def waitFor (s : State) (f : Firing) (w : Wait) : State := { s with wk := { s.wk with waits := s.wk.waits ++ [(f, w)] } }

/-- Whether a word waits. -/
def waiting (s : State) (f : Firing) : Bool := s.wk.waits.any fun w => w.1 = f

/-- A waiting word fires again: its check is made anew (R158). -/
def wake (s : State) (f : Firing) : State :=
  if waiting s f then
    { s with wk := { s.wk with waits := s.wk.waits.filter (fun w => w.1 ≠ f), issue := s.wk.issue ++ [f] } }
  else s

/-- A fire word on its lane: the gate decides, then `k`. -/
def fireGate (s : State) (f : Firing) (i : Instr) (uses : List (PortUse × Token)) (k : State → State) : State :=
  match gate (Instr.predicate i) (predTokOf s f (Instr.predicate i)) uses with
  | .go => k s
  | .null => sendNull s f i
  | .poison => fireSend s f i poisonTok poisonTok 0
  | .flt c => raiseAt s f ⟨c, 0⟩

/-- A fire word. -/
def fireWord (s : State) (i : Instr) (uses : State → Firing → List (PortUse × Token)) (k : Firing → State → State) :
    Out :=
  onLane s i fun f s1 => fireGate s1 f i (uses s1 f) (k f)

/-- A store-class or branch word: the gate decides, then `k`. -/
def effectWord (s : State) (i : Instr) (uses : State → Firing → List (PortUse × Token))
    (null : State → Firing → State) (k : Firing → State → State) : Out :=
  onLane s i fun f s1 =>
    match gate (Instr.predicate i) (predTokOf s1 f (Instr.predicate i)) (uses s1 f) with
    | .go => k f s1
    | .null => null s1 f
    | .poison => null s1 f
    | .flt c => raiseAt s1 f ⟨c, 0⟩

/-- A store-class word. -/
def storeWord (s : State) (i : Instr) (uses : State → Firing → List (PortUse × Token)) (k : Firing → State → State) :
    Out := effectWord s i uses nullSlot k

/-- The trigger of a BR, TRAP, BKPT or FENCE; a predicated BR, TRAP or BKPT reads only P (R52, R103). -/
def triggerUses (i : Instr) (u : PortUse) (s : State) (f : Firing) : List (PortUse × Token) :=
  if (Instr.dataPorts i).contains .l then [(u, portD s f .l)] else []

/-- A trigger with a tile tag raises FORMAT (R66). -/
def withTrigger (i : Instr) (f : Firing) (s : State) (k : State → State) : State :=
  if (Instr.dataPorts i).contains .l && tagTile (portD s f .l).tag then raiseAt s f ⟨.format, 0⟩ else k s

end Sys2Proof.Machine
end

