-- ==== Sys2Proof/Machine/Order.lean ====
section
/-! DEFINITION. Order within a task: which fire-class words may perform now (R146, R148, R153, R271, R273, R274), which
values are still to return (R145), and when a block's effects are complete (R14). -/

namespace Sys2Proof.Machine

/-- The slots of an instance's block with their instructions. -/
def blockSlots (s : State) (x : Inst) : List (Nat × Instr) :=
  match blkOf s x with
  | some b => (List.range b.words.length).filterMap fun k => (instrOfSlot (blockInstrs b) k).map fun i => (k, i)
  | none => []

/-- Local-store and global acquires of a block (R148, R158, R274). -/
def isAcquire : Instr → Bool
  | .ld m => m.ord ≠ .plain
  | .lld _ w _ _ _ => w ≠ .none
  | .few _ _ _ => true
  | _ => false

/-- A global atomic with Q[3], which is a full acquire once it has performed (R148). -/
def isFullAtom : Instr → Bool
  | .aadd m | .amin m | .amax m | .aand m | .aor m | .axor m | .aswp m | .acas m => m.ord ≠ .plain
  | _ => false

/-- The acquires without an LSID: later instances follow them (R273). -/
def isWaitAcquire : Instr → Bool
  | .twait _ _ | .waitc _ _ | .await _ => true
  | _ => false

/-- Global and local words that read when they fire (R146). -/
def isGlobalRead : Instr → Bool
  | .ld _ | .pld _ => true
  | _ => false

/-- An LD, which effects of lower instances on its bytes precede; the elements of a PLD are fixed while its launch is live
(R116). -/
def isLoad : Instr → Bool
  | .ld _ => true
  | _ => false

def isLocalRead : Instr → Bool
  | .lld _ _ _ _ _ | .few _ _ _ => true
  | _ => false

/-- Words whose global effects a later read of the task must see (R271, R279). -/
def isGlobalEffect : Instr → Bool
  | .st _ _ _ _ | .mst _ _ _ _ => true
  | .aadd _ | .amin _ | .amax _ | .aand _ | .aor _ | .axor _ | .aswp _ | .acas _ => true
  | _ => false

def isLocalEffect : Instr → Bool
  | .lst _ _ _ | .lamo _ _ _ _ _ | .fes _ _ | .binit _ _ | .barr _ _ _ => true
  | .lld _ w _ _ _ => w = .take
  | _ => false

/-- The physical range of a request on global memory. -/
def reqRange : ReqKind → Option (Nat × Nat)
  | .store _ pa _ fmt _ _ _ _ => some (pa, accessWidth fmt)
  | .atom _ _ pa _ fmt _ _ _ => some (pa, accessWidth fmt)
  | _ => none

/-- The handle and offset of a request on local store. -/
def reqLocal : ReqKind → Option (Nat × Nat)
  | .lst h o _ _ | .lamo _ h o _ _ | .fes h o _ | .binit h o _ | .barr h o | .take h o => some (h, o)
  | _ => none

def overlap (a n b m : Nat) : Bool := a < b + m && b < a + n

/-- The physical range that a global read will access, where it translates. -/
def readRange (s : State) (f : Firing) (i : Instr) : Option (Nat × Nat) :=
  match i with
  | .ld m =>
    (match devXlat s (taskD s f.tid).vi (tokBits (portD s f .l)) .read with
      | .hit pa _ _ => some (pa, accessWidth m.fmt)
      | _ => none)
  | _ => none

/-- The granule that a local word names. -/
def localGranule (s : State) (h off : Nat) : Option GLoc :=
  match resolve s h (off : Int) 1 with
  | .ok (l, _) => some l
  | .error _ => none

def wordGranule (s : State) (f : Firing) : Option GLoc :=
  localGranule s (tokBits (portD s f .l) % 2 ^ 32) (tokInt (portD s f .r)).toNat

/-- An LST that may still write the granule a local read names: its address has not arrived, or is that granule (R146). -/
def lstMayTouch (s : State) (x : Inst) (slot : Nat) (f : Firing) : Bool :=
  let q : Firing := ⟨x.tid, x.iter, x.block, slot⟩
  match portTok s q .l, portTok s q .r with
  | some _, some _ => (wordGranule s q).isSome && decide (wordGranule s q = wordGranule s f)
  | _, _ => true

/-- The live instances of an ordered loop below an iteration (R24, R27). -/
def lowerInsts (s : State) (tid iter : Nat) : List Inst :=
  match (taskD s tid).loop with
  | some l =>
    if l.ordered then (instsOf s tid).filter fun y => iterRank l.first y.iter < iterRank l.first iter else []
  | none => []

/-- The lower iterations of an ordered loop that are to be activated, or activated again (R297). -/
def pendingBelow (s : State) (tid iter : Nat) : List Nat :=
  match (taskD s tid).loop with
  | some l =>
    if l.ordered then s.net.filterMap fun m => match m with
      | .blockActivate a => if a.tid = tid && iterRank l.first a.iter < iterRank l.first iter then some a.iter else none
      | _ => none
    else []
  | none => []

/-- Higher instances wait for what such an iteration will leave. -/
def lowerPending (s : State) (tid iter : Nat) : Bool := !(pendingBelow s tid iter).isEmpty

/-- A read of the block below a FENCE that has yet to perform: the reads above the FENCE follow it (R153, R273, R275). -/
def readBelow (s : State) (x : Inst) (n : Nat) : Bool :=
  (blockSlots s x).any fun e => (isGlobalRead e.2 || isLocalRead e.2) && (match Instr.lsid e.2 with | some l => l < n | none => false)
    && !x.fired.contains e.1

/-- Whether a lower-LSID word of the same block holds back a fire-class word (R146, R148, R153). -/
def heldByOwn (s : State) (t : Task) (x : Inst) (f : Firing) (i : Instr) (lsid : Nat) (e : Nat × Instr) : Bool :=
  let fired := x.fired.contains e.1
  let nulled := x.nulled.contains e.1
  match Instr.lsid e.2 with
  | none => false
  | some l =>
    if lsid ≤ l then false
    else match e.2 with
      | .st _ _ _ _ | .mst _ _ _ _ => isGlobalRead i && !fired
      | .lst _ _ _ => isLocalRead i && !fired && lstMayTouch s x e.1 f
      | .fence _ _ _ =>
        !fired || (!nulled && (!performedBelow s f.tid t.seq || !(lowerInsts s x.tid x.iter).isEmpty || readBelow s x l))
      | _ => isAcquire e.2 && !fired

/-- A read of a lower instance that has yet to perform, of the same location or of one not yet known, goes first: it is not
known while its address has not arrived or its page is missing (R142, R279, log 98). -/
def readFirst (s : State) (q f : Firing) (i j : Instr) : Bool :=
  if (portTok s q .l).isNone then true
  else if isLoad i && isLoad j then
    (match readRange s q j, readRange s f i with
      | some (a, n), some (b, m) => overlap a n b m
      | none, _ => true
      | _, none => false)
  else
    (portTok s q .r).isNone || (match wordGranule s q, wordGranule s f with
      | some g, some h => g = h
      | _, _ => false)

/-- The words, with their iterations, that a result of a word goes to (R23). -/
def takers (es : List (Nat × Instr)) (p : Nat × Nat) : List (Nat × Nat) :=
  match es.find? fun e => e.1 = p.1 with
  | some e =>
    let (t0, t1, ta) := Instr.targets e.2
    (t0.toList ++ t1.toList).map fun d => (d.slot.toNat, taIter ta p.2)
  | none => []

/-- The words that results reach from these on, through the iterations that `keep` admits. -/
def reached (es : List (Nat × Instr)) (keep : Nat → Bool) : Nat → List (Nat × Nat) → List (Nat × Nat) → List (Nat × Nat)
  | 0, seen, _ => seen
  | n + 1, seen, new =>
    let next := ((new.flatMap (takers es)).filter fun p => keep p.2 && !seen.contains p).eraseDups
    if next.isEmpty then seen else reached es keep n (seen ++ next) next

/-- A word of a lower instance takes its operands, by way of PREV or ZERO, from a result of this very word: it cannot go
first (R23, log 98). -/
def takesFrom (s : State) (f : Firing) (y : Inst) (slot : Nat) : Bool :=
  let es := blockSlots s y
  let first := oldestIter s y.tid
  let lo := iterRank first y.iter
  let hi := iterRank first f.iter
  let keep := fun (i : Nat) => lo ≤ iterRank first i && iterRank first i ≤ hi
  let back := es.any fun e => match (Instr.targets e.2).2.2 with | .prev | .zero => true | _ => false
  back && y.block = f.block && (reached es keep (128 * (hi - lo + 1)) [] [(f.slot, f.iter)]).contains (slot, y.iter)

/-- Whether a word of a lower live instance of an ordered loop holds back a fire-class word: its acquires and fences, its
effects and reads not yet produced, and the effects produced that touch the same location (R271, R273, R279). -/
def heldByLower (s : State) (f : Firing) (y : Inst) (i : Instr) (e : Nat × Instr) : Bool :=
  let fired := y.fired.contains e.1
  let nulled := y.nulled.contains e.1
  let req := (y.requests.find? fun r => r.slot = e.1).map fun r => r.kind
  match e.2 with
  | .fence _ _ _ => !nulled
  | .pld _ => false
  | j =>
    if isFullAtom j then !nulled
    else if (isAcquire j || isWaitAcquire j) && !fired then true
    else if !fired && takesFrom s f y e.1 then false
    else if isLoad i && isGlobalEffect j then
      !fired || (match req.bind reqRange, readRange s f i with
        | some (a, n), some (b, m) => overlap a n b m
        | _, _ => false)
    else if isLocalRead i && isLocalEffect j then
      !fired || (match req.bind reqLocal, wordGranule s f with
        | some (h, o), some g => localGranule s h o = some g
        | _, _ => false)
    else if (isLoad i && isLoad j) || (isLocalRead i && isLocalRead j) then
      !fired && readFirst s ⟨y.tid, y.iter, y.block, e.1⟩ f i j
    else false

/-- A read of a lower instance under way to the same bytes goes first (R279). -/
def heldByRead (s : State) (f : Firing) (y : Inst) (i : Instr) : Bool :=
  s.net.any fun m => match m with
    | .homeRead r => r.f.tid = y.tid && r.f.iter = y.iter && (match readRange s f i with
        | some (b, n) => overlap r.pa r.width b n
        | none => false)
    | _ => false

/-- The tags of a bound window: those of R63, or E2M1 (R116). -/
def windowTag (n : Nat) : Option Tag :=
  match Tag.ofCode n with
  | some g => if g.isInt || tagFloat g || tagNarrow g || g = .addr || g = .time then some g else none
  | none => none

/-- The address of the window descriptor that a PLD reads in its launch's card (R116). -/
def windowVa (s : State) (f : Firing) (i : IF) : Nat :=
  ((tgetD s.jb.launches (taskD s f.tid).launch {}).card + 0x40 + 16 * i.imm.toNat) % 2 ^ 52

/-- The addresses of the first and the last byte of a window's element (R116). -/
def elementEnds (base k : Nat) (fmt : Tag) : Nat × Nat :=
  let w := accessWidth fmt
  if fmt = .e2m1 then ((base + k / 2) % 2 ^ 52, (base + k / 2) % 2 ^ 52) else ((base + k * w) % 2 ^ 52, (base + k * w + w - 1) % 2 ^ 52)

/-- The addresses that a global read will access; none while they are not known. -/
def readAddrs (s : State) (f : Firing) (i : Instr) : Option (List Nat) :=
  match portTok s f .l, i with
  | some l, .ld _ => some [tokBits l]
  | some l, .pld j =>
    let vi := (taskD s f.tid).vi
    let va := windowVa s f j
    (match devXlat s vi va .read with
      | .hit _ _ _ =>
        let d := natOfBytes (devGet s vi va 16)
        (match windowTag (bits d 96 8) with
          | some g =>
            if tokInt l < 0 ∨ (bits d 64 32 : Int) ≤ tokInt l then some []
            else let e := elementEnds (bits d 0 64 % 2 ^ 52) (tokInt l).toNat g; some [e.1, e.2]
          | none => some [])
      | _ => none)
  | _, _ => none

/-- The peer devices that a read will access (R142). -/
def readPeers (s : State) (f : Firing) (i : Instr) : List Nat :=
  ((readAddrs s f i).getD []).filterMap fun a => match devXlat s (taskD s f.tid).vi a .read with
    | .hit _ r _ => if r = 0 then none else some r
    | _ => none

/-- A read may access a peer device: it does, or its address or its page is not known yet. -/
def mayAccess (s : State) (f : Firing) (i : Instr) (peer : Nat) : Bool :=
  match readAddrs s f i with
  | none => true
  | some as => as.any fun a => match devXlat s (taskD s f.tid).vi a .read with
    | .hit _ r _ => r = peer
    | _ => true

/-- The peer device of a request. -/
def reqPeer : ReqKind → Nat
  | .store _ _ r _ _ _ _ _ | .atom _ _ _ r _ _ _ _ => r
  | _ => 0

/-- The place of a word in its instance's program order: memory words by LSID, then the others by slot (R271). -/
def poRank (slot : Nat) (i : Instr) : Nat := match Instr.lsid i with | some n => n | none => 32 + slot

/-- A read of the instance before place `n` of its program order that has yet to leave for a peer, or whose device is not yet
known. -/
def peerReadFirst (s : State) (x : Inst) (n peer : Nat) (e : Nat × Instr) : Bool :=
  let q : Firing := ⟨x.tid, x.iter, x.block, e.1⟩
  isGlobalRead e.2 && poRank e.1 e.2 < n && !x.fired.contains e.1 && !(s.wk.waits.contains (q, .read)) && mayAccess s q e.2 peer

/-- The accesses of a task to one peer leave in program order (R284): a read of a peer waits for the reads before it, and for
the effects of lower instances on that peer. -/
def peerHeld (s : State) (f : Firing) (i : Instr) : Bool :=
  match instAt s f.tid f.iter with
  | some x => (readPeers s f i).any fun r =>
      (blockSlots s x).any (peerReadFirst s x (poRank f.slot i) r)
        || (lowerInsts s f.tid f.iter).any fun y =>
          (blockSlots s y).any (fun e => peerReadFirst s y 256 r e && !takesFrom s f y e.1) || y.requests.any fun q => reqPeer q.kind = r
  | none => false

/-- A lower read that this very word feeds has yet to perform: what this word reads is kept for it (R279, log 98). -/
def readsEarly (s : State) (f : Firing) : Bool :=
  (lowerInsts s f.tid f.iter).any fun y => (blockSlots s y).any fun e =>
    (isLoad e.2 || isLocalRead e.2) && !y.fired.contains e.1 && takesFrom s f y e.1

/-- The bytes read are kept for such a read. -/
def noteEarly (s : State) (f : Firing) (loc : Nat ⊕ Nat) (bytes : List Byte) (poison : Bool) : State :=
  if readsEarly s f then { s with gm := { s.gm with early := s.gm.early ++ [⟨f.tid, f.iter, loc, bytes, poison⟩] } } else s

/-- A higher read of the task has already taken this byte. -/
def earlyOver (s : State) (f : Firing) (loc : Nat ⊕ Nat) (e : Early) : Bool :=
  let first := oldestIter s f.tid
  e.tid = f.tid && iterRank first f.iter < iterRank first e.iter && (match e.loc, loc with
    | .inl a, .inl b | .inr a, .inr b => a ≤ b && b < a + e.bytes.length
    | _, _ => false)

/-- The byte that a higher read has already taken, the first of them. -/
def earlyByte (s : State) (f : Firing) (loc : Nat ⊕ Nat) : Option Byte :=
  (s.gm.early.find? (earlyOver s f loc)).bind fun e => match e.loc, loc with
    | .inl a, .inl b | .inr a, .inr b => e.bytes[b - a]?
    | _, _ => none

/-- Bytes that a read finds, with those that higher reads have already taken. -/
def withEarly (s : State) (f : Firing) (at_ : Nat → Nat ⊕ Nat) (bs : List Byte) : List Byte :=
  if s.gm.early.isEmpty then bs else (List.range bs.length).map fun k => (earlyByte s f (at_ k)).getD ((bs[k]?).getD 0)

/-- A fire-class memory word may perform: nothing that precedes it in program order holds it back. -/
def orderOk (s : State) (f : Firing) (i : Instr) : Bool :=
  if !(isGlobalRead i || isLocalRead i) then true
  else
    match taskAt s f.tid, instAt s f.tid f.iter with
    | some t, some x =>
      let own := match Instr.lsid i with
        | some n => !(blockSlots s x).any (heldByOwn s t x f i n)
        | none => true
      t.wait.isEmpty && performedBelow s f.tid t.floor && own && !peerHeld s f i && !lowerPending s f.tid f.iter
        && (lowerInsts s f.tid f.iter).all fun y => !(blockSlots s y).any (heldByLower s f y i) && !heldByRead s f y i
    | _, _ => true

/-! ### Returned values (R145) -/

/-- The registers of the values that are still to return to a task; `none` for a value without a register. -/
def outstanding (s : State) (tid : Nat) : List (Option Nat) :=
  let inNet := s.net.flatMap fun m => match m with
    | .returnValueArrive r => if r.tid = tid then [r.reg] else []
    | .atomicPerform a => if a.tid = tid then [a.reg] else []
    | .tickSetWrite (.install k) => if k.tid = tid then [k.reg] else []
    | _ => []
  let mails := s.fw.mailbox.map Prod.snd ++ s.fw.queue.flatMap Prod.snd
  inNet ++ mails.flatMap fun m => if m.tid = tid then [m.reg] else []

/-! ### Completion of a block's effects (R14) -/

/-- What a WRITE whose port L a returning word names takes its state from (R145). -/
def returningOf (es : List (Nat × Instr)) (slot : Nat) : List Nat :=
  (es.filter fun e => Instr.returning e.2 && (match (Instr.targets e.2).1 with
    | some d => d.slot.toNat = slot && d.port = .l
    | none => false)).map Prod.fst

/-- A predicated WRITE of a returned value has its P token (R103, R145). -/
def writePredReady (s : State) (x : Inst) (slot : Nat) (pm : Pm) : Bool :=
  pm = .always || (portTok s ⟨x.tid, x.iter, x.block, slot⟩ .p).isSome

/-- An effect has been produced or nulled. -/
def effectDone (s : State) (x : Inst) (es : List (Nat × Instr)) (e : Nat × Instr) : Bool :=
  match Instr.cls e.2 with
  | .store => x.fired.contains e.1
  | .write =>
    x.fired.contains e.1
      || (returningOf es e.1).any fun r => x.fired.contains r && (x.nulled.contains r || writePredReady s x e.1 (Instr.predicate e.2))
  | _ => true

/-- Every effect of a block is produced or nulled, and its branch is resolved (R14). -/
def blockDone (s : State) (x : Inst) : Bool :=
  let es := blockSlots s x
  x.branch.isSome && es.all (effectDone s x es)

end Sys2Proof.Machine
end

