-- ==== Sys2Proof/Machine/Tokens.lean ====
section
/-! DEFINITION. Tokens, READ, WRITE and RED; the branch words; the activation of a block instance; the issue of ready
words (R11 to R30, R103 to R109, R117 to R121, R138, R139, R223, R240, R241). -/

namespace Sys2Proof.Machine

/-! ### Places of waiting tokens (R21, R221, R223) -/

def ovpReg (s : State) (pane q : Nat) : Nat := (tgetD s.sr.ovp (pane * 8 + q) 0).toNat
def ovpSize (s : State) (pane q : Nat) : Nat := bits (ovpReg s pane q) 52 12 * 65536
def ovpBase (s : State) (pane q : Nat) : Nat := bits (ovpReg s pane q) 16 36 * 65536

/-- What the frames and the spilled tokens of a task hold of overflow areas, as extents in granules (R223). -/
def taskOverflow (s : State) (tid : Nat) : List (Nat × Nat) :=
  ((instsOf s tid).filterMap fun x => match x.frame, blkOf s x with
    | some (.ovp va), some b => some (va / 16, frameGranules b.header)
    | _, _ => none)
  ++ s.wk.toks.filterMap fun k => match k.place with
    | .spill (.ovp va) => if k.msg.tid = tid then some (va / 16, 1) else none
    | _ => none

/-- What a context of a pane holds of overflow areas: frames, spilled tokens and spilled carve-outs (R214, R223). What was
taken from an earlier area keeps its place. -/
def ovpHeld (s : State) (pane q : Nat) : List (Nat × Nat) :=
  ((s.wk.tasks.filter fun e => e.2.pane = pane && e.2.q = q).flatMap fun e => taskOverflow s e.1)
    ++ s.al.recs.flatMap fun e =>
      if e.2.live && e.2.pool && e.2.spilled && e.1 / 4096 = pane && e.2.ctx = q && wholeCarve s e.1 then [(e.2.ovf, copyHeld e.2)]
      else []

/-- The lowest room for `n` granules in a context's overflow area, by its address (R214, R223, log 12). -/
def ovpPlace (s : State) (pane q n : Nat) : Option Nat :=
  let lo := ovpBase s pane q / 16
  ((holesFrom lo (lo + ovpSize s pane q / 16) (sortExtents (ovpHeld s pane q))).find? fun h => n ≤ h.2).map fun h => 16 * h.1

/-- Granules of the frame region that the task's frames hold: lowest granule and length. -/
def framesHeld (s : State) (tid : Nat) : List (Nat × Nat) :=
  (instsOf s tid).filterMap fun x => match x.frame, blkOf s x with
    | some (.carve g), some b => some (g, frameGranules b.header)
    | _, _ => none

/-- A place for a frame of `n` granules: the frame region by lowest first fit, then the overflow area (R223). -/
def framePlace (s : State) (t : Task) (tid n : Nat) : Option Place :=
  let hi := t.granules - t.granules / 4
  match (holesFrom 52 hi (sortExtents (framesHeld s tid))).find? fun h => n ≤ h.2 with
  | some h => some (.carve h.1)
  | none => (ovpPlace s t.pane t.q n).map .ovp

/-- A token whose slot has not fired yet; a word that waits has fired and holds only its access (R158). -/
def pendingTok (s : State) (e : TokEntry) : Bool :=
  match instAt s e.msg.tid e.msg.iter with
  | some x => !(x.block = e.msg.block
      && (x.fired.contains e.msg.slot || waiting s ⟨e.msg.tid, e.msg.iter, e.msg.block, e.msg.slot⟩))
  | none => true

/-- Entries of a cell's matching store (R21). -/
def storeCount (s : State) (cell : Nat) : Nat :=
  (s.wk.toks.filter fun e => e.place = .store && pendingTok s e
    && cellOf s (taskD s e.msg.tid) e.msg.block e.msg.slot = cell).length

def inFrame : TokPlace → Bool
  | .frame _ => true
  | _ => false

/-- Tokens in an instance's frame. -/
def frameCount (s : State) (m : TokMsg) : Nat :=
  (s.wk.toks.filter fun e => inFrame e.place && e.msg.tid = m.tid && e.msg.iter = m.iter && pendingTok s e).length

/-- Granule `k` of a frame. -/
def Place.granule (k : Nat) : Place → Place
  | .carve g => .carve (g + k)
  | .ovp va => .ovp (va + 16 * k)

/-- The lowest free granule of the task's token spill (R221). -/
def spillGranule (s : State) (tid : Nat) : Option Nat :=
  (rangeFrom 36 16).find? fun g => !(s.wk.toks.any fun e => e.msg.tid = tid && e.place = .spill (.carve g))

/-- Where a token goes that finds its cell's matching store full (R21, R223): to its instance's frame, which has room for every
token of its instance (log 25), else to a spill; none where no place is left. -/
def overflowPlace (s : State) (t : Task) (m : TokMsg) : Option TokPlace :=
  let frame := (instAt s m.tid m.iter).bind fun x => match x.frame, blkOf s x with
    | some p, some b => if x.block = m.block then some (p.granule (frameCount s m % max 1 (frameGranules b.header))) else none
    | _, _ => none
  match frame with
  | some p => some (.frame p)
  | none => match spillGranule s m.tid with
    | some g => some (.spill (.carve g))
    | none => (ovpPlace s t.pane t.q 1).map fun va => .spill (.ovp va)

/-- The granule in which a token lies, outside the matching store: of the carve-out, or of the OVP area, which holds no state
bytes for it (R221, R223). -/
def placeLoc (s : State) (t : Task) : TokPlace → Option GLoc
  | .store => none
  | .frame (.carve g) | .spill (.carve g) => carveGranule s t g
  | .frame (.ovp va) | .spill (.ovp va) => some (.copy t.vi va va)

/-- A token is read from where it lies (R214, R220, R225). -/
def readTok (s : State) (e : TokEntry) : State × Token :=
  match placeLoc s (taskD s e.msg.tid) e.place with
  | some l => (readCheck s l, tokenRead s [l] e.msg.tok)
  | none => (s, e.msg.tok)

/-- A token moves to another place. -/
def putTok (s : State) (e : TokEntry) (p : TokPlace) : State :=
  let r := readTok s e
  let one := fun (x : TokEntry) => if x = e then { x with place := p, msg := { x.msg with tok := r.2 } } else x
  { r.1 with wk := { r.1.wk with toks := r.1.wk.toks.map one } }

/-- A token's bytes are written where it has found its place (R21, R221, R262). -/
def storeSpill (s : State) (t : Task) (m : TokMsg) (p : TokPlace) : State :=
  let bytes := (List.range 16).map (Config.tokenByte s.nd)
  let s1 := match placeLoc s t p with
    | some (.here g) => setLocBytes s 0 bytes (.here g)
    | some (.copy vi va _) => devStore s vi va bytes
    | none => s
  match p with
  | .store | .spill (.ovp _) => s1
  | _ => perfPane s1 (cellOf s t m.block m.slot / 16) 0x030 1

/-! ### Ready words -/

def sameWord (e : TokEntry) (f : Firing) : Bool :=
  e.msg.tid = f.tid && e.msg.iter = f.iter && e.msg.block = f.block && e.msg.slot = f.slot

/-- A word becomes ready in this cycle (R240). -/
def markReady (s : State) (f : Firing) : State :=
  if s.wk.ready.any fun r => r.f = f then s
  else { s with wk := { s.wk with ready := s.wk.ready ++ [⟨f, s.clk.cycle, false⟩] } }

/-- The tokens of a word that lie in its frame or in a spill: its partners. -/
def partners (s : State) (f : Firing) : List TokEntry := s.wk.toks.filter fun e => sameWord e f && e.place ≠ .store

/-- A word whose ports are all filled is ready; its tokens come back to the matching store (R13, R21). -/
def checkReady (s : State) (f : Firing) : State :=
  match instrAt s f.tid f.block f.slot with
  | some i =>
    if canFire s f i && !waiting s f && !(Instr.firePorts i).isEmpty then
      markReady ((partners s f).foldl (fun a e => putTok a e .store) s) f
    else s
  | none => s

/-- The last token of a word's ports comes: the time since the first is counted, whether or not the instance is live (R264,
log 112). -/
def countMatch (s : State) (t : Task) (m : TokMsg) : State :=
  let mine := s.wk.toks.filter fun e => sameWord e ⟨m.tid, m.iter, m.block, m.slot⟩
  match instrAt s m.tid m.block m.slot with
  | some i =>
    if 2 ≤ (Instr.ports i).length && (Instr.ports i).all fun q => q = m.port || mine.any fun e => e.msg.port = q then
      perfPane s (cellOf s t m.block m.slot / 16)
        (0x020 + waitBin (s.clk.cycle - (mine.map fun e => e.since).foldl min s.clk.cycle)) 1
    else s
  | none => s

/-! ### RED's state (R138, R139) -/

def redAt (s : State) (tid block slot m : Nat) : Option Red :=
  s.wk.reds.find? fun r => r.tid = tid && r.block = block && r.slot = slot && r.m = m

def setRed (s : State) (r : Red) : State :=
  let other := fun (x : Red) => !(x.tid = r.tid && x.block = r.block && x.slot = r.slot && x.m = r.m)
  { s with wk := { s.wk with reds := s.wk.reds.filter other ++ [r] } }

/-- The open reduction that covers an iteration. -/
def redCovering (s : State) (m : TokMsg) : Option Red :=
  s.wk.reds.find? fun r => r.tid = m.tid && r.block = m.block && r.slot = m.slot && iterRank r.m m.iter < r.n

def blankTag (t : Tag) : Bool := t = .null || t = .poison

/-- The tag that the tokens of a reduction carry so far. -/
def redTag (r : Red) : Option Tag := ((r.toks.map fun e => e.2.tag).filter fun g => !blankTag g).head?

/-- A second token on a port: BLOCK_BAD in the instance it is for, or, on a RED's L of an iteration that is not live, in the
one that sent it (R89, R139). -/
def secondToken (s : State) (m : TokMsg) : State :=
  match instAt s m.tid m.iter with
  | some x => raise s m.tid (if x.block = m.block then m.iter else m.src) m.slot ⟨.blockBad, 0⟩
  | none => raise s m.tid m.src m.slot ⟨.blockBad, 0⟩

/-- An L token joins a reduction: it replaces one whose sender has been discarded since (R139); a tag that differs raises
FORMAT in the instance that sent it. -/
def redJoin (s : State) (r : Red) (m : TokMsg) : State :=
  let k := iterRank r.m m.iter
  let others := { r with toks := tdel r.toks k }
  if (tget r.toks k).isSome && !r.stale.contains k then secondToken s m
  else if !blankTag m.tok.tag && (match redTag others with | some g => g ≠ m.tok.tag | none => false) then
    raise s m.tid m.src m.slot ⟨.format, 0⟩
  else
    let r' := { r with toks := tput r.toks k m.tok, srcs := tput r.srcs k m.src, stale := r.stale.filter fun j => j ≠ k }
    let s1 := setRed s r'
    if r'.toks.length = r'.n && r'.sent.isNone then markReady s1 ⟨m.tid, r.m, m.block, m.slot⟩ else s1

/-- The waiting L tokens that a marker covers, in arrival order. -/
def redWaiting (s : State) (f : Firing) (n : Nat) : List TokEntry :=
  s.wk.toks.filter fun e => e.msg.tid = f.tid && e.msg.block = f.block && e.msg.slot = f.slot && e.msg.port = .l
    && iterRank f.iter e.msg.iter < n

/-- A marker opens a reduction, which takes the waiting tokens that it covers. -/
def redOpen (s : State) (f : Firing) (kind : RedKind) (mark : Tag) (n : Nat) : State :=
  match redAt s f.tid f.block f.slot f.iter with
  | some _ => s
  | none =>
    let ws := redWaiting s f n
    let s1 := { s with wk := { s.wk with toks := s.wk.toks.filter fun e => !ws.contains e } }
    let s2 := setRed s1 ⟨f.tid, f.block, f.slot, f.iter, n, mark, kind, [], none, [], []⟩
    ws.foldl (fun a e => match redAt a f.tid f.block f.slot f.iter with
      | some r => redJoin (readTok a e).1 r { e.msg with tok := (readTok a e).2 }
      | none => a) s2

/-- The result of a complete reduction: POISON absorbs, NULL contributes nothing, and with no number at all it is the
identity in the marker's tag, also where all L tokens are NULL (log 37). -/
def redResult (r : Red) : Token × FlagSet :=
  if anyTag .poison (r.toks.map Prod.snd) then (poisonTok, 0)
  else
    let nums := (r.toks.filter fun e => e.2.tag ≠ .null).map fun e => ((r.m + e.1) % iterMod, e.2)
    match redTag r with
    | some g => redTree r.kind g nums
    | none => (redIdentity r.kind r.mark, 0)

/-- A complete reduction sends its result with iteration m, its flags going to the task's (R138); a result sent before is
sent again (R139). -/
def redSend (s : State) (f : Firing) (i : Instr) (r : Red) : State :=
  let res := match r.sent with | some x => x | none => redResult r
  let s1 := flagTask (setRed s { r with sent := some res }) f.tid res.2
  fireSend s1 f i res.1 res.1 0

/-- RED (R138, R139). -/
def execRed (g : GF) (kind : RedKind) (s : State) : Out :=
  onLane s (.red g kind) fun f s1 =>
    let mark := portD s1 f .r
    let n := tokInt mark
    let v := valueRule g.pm (predTokOf s1 f g.pm) [mark]
      (if mark.tag.isInt && 0 ≤ n && n ≤ 65536 then .both mark else .format)
    match v with
    | .format => raiseAt s1 f ⟨.format, 0⟩
    | .send a b fl =>
      if blankTag a.tag then fireSend s1 f (.red g kind) a b fl
      else
        let s2 := redOpen s1 f kind mark.tag n.toNat
        match redAt s2 f.tid f.block f.slot f.iter with
        | some r => if r.sent.isSome || r.toks.length = r.n then redSend s2 f (.red g kind) r else s2
        | none => s2

/-! ### Arrival of a token (R21, R23, R89) -/

/-- The highest rank of an iteration of a loop that is live, has committed, or is to be activated (R23, R27). -/
def loopTop (s : State) (tid : Nat) (t : Task) (l : Loop) : Nat :=
  let live := (instsOf s tid).map fun x => x.iter
  let due := s.net.filterMap fun m => match m with | .blockActivate a => if a.tid = tid then some a.iter else none | _ => none
  ((live ++ due ++ l.done).map (iterRank l.first) ++ t.entries.map fun e => iterRank l.first e.iter + e.count).foldl max 0

/-- Whether the iteration that a token is addressed to has committed: it is none of those up to the one that comes after the
highest so far (R23, R27). Near a multiple of 65,536 a token sent with ZERO is taken for the instance 0 still to come (log 114). -/
def addressPast (s : State) (m : TokMsg) : Bool :=
  match (taskD s m.tid).loop with
  | some l => l.done.contains m.iter || loopTop s m.tid (taskD s m.tid) l + 1 < iterRank l.first m.iter
  | none => true

/-- A token is brought back into the matching store, where there is room (R21, R299). -/
def restoreTok (s : State) (e : TokEntry) : State :=
  if storeCount s (cellOf s (taskD s e.msg.tid) e.msg.block e.msg.slot) < 256 then putTok s e .store else s

/-- No place is left for a token (R223): the fault is raised in the instance it is for, or in the one that sent it, or stops
the task where neither is live; the token waits, unless it is made again with its instance. -/
def tokenLost (s : State) (t : Task) (m : TokMsg) : State :=
  let s1 := if (instAt s m.tid m.src).isSome then s else repost s (.tokenArrive m)
  if t.stopped then repost s (.tokenArrive m)
  else if (instAt s m.tid m.iter).any fun x => x.block = m.block then
    raise s1 m.tid m.iter m.slot ⟨.stackLimit, 0⟩
  else if (instAt s m.tid m.src).isSome then raise s1 m.tid m.src m.slot ⟨.stackLimit, 0⟩
  else stopTask s1 m.tid ⟨.stackLimit, 0⟩ ⟨m.slot, t.colour, m.iter, t.die, t.pane % 192, m.block⟩

/-- A token waits where there is room for it: in the matching store, in its frame, in a spill (R21, R223, R262). -/
def keepToken (s : State) (t : Task) (m : TokMsg) : State :=
  let at_ := fun (p : TokPlace) => { s with wk := { s.wk with toks := s.wk.toks ++ [⟨m, s.clk.cycle, p⟩] } }
  if storeCount s (cellOf s t m.block m.slot) < 256 then at_ .store
  else match overflowPlace s t m with
    | some p => storeSpill (at_ p) t m p
    | none => tokenLost s t m

/-- An L token of a RED arrives; one that no reduction covers waits under R21, alone on its port (R89): one whose sender is
discarded goes with it. -/
def redData (s : State) (kind : RedKind) (m : TokMsg) : State :=
  if !blankTag m.tok.tag && !redTagOk kind m.tok.tag then raise s m.tid m.src m.slot ⟨.format, 0⟩
  else match redCovering s m with
    | some r => redJoin s r m
    | none =>
      if s.wk.toks.any fun e => sameWord e ⟨m.tid, m.iter, m.block, m.slot⟩ && e.msg.port = .l then secondToken s m
      else keepToken s (taskD s m.tid) m

/-- The token is kept where there is room for it, its partners come back to the matching store, and its word may become
ready. -/
def placeToken (s : State) (t : Task) (m : TokMsg) : State :=
  let f : Firing := ⟨m.tid, m.iter, m.block, m.slot⟩
  let s1 := { s with wk := { s.wk with toks := s.wk.toks ++ [⟨m, s.clk.cycle, .store⟩] } }
  let completes := match instrAt s f.tid f.block f.slot with
    | some i => canFire s1 f i
    | none => false
  if completes then checkReady s1 f
  else if storeCount s (cellOf s t m.block m.slot) < 256 then checkReady ((partners s f).foldl restoreTok s1) f
  else keepToken s t m

/-- A token reaches its cell; none follows a shutter's marker (R298). -/
def tokenArrive (s : State) (m : TokMsg) : State :=
  match taskAt s m.tid with
  | none => s
  | some t =>
    if markedAt s t.graph (cellOf s t m.block m.slot) then repost s (.tokenArrive m)
    else match instrAt s m.tid m.block m.slot, m.port with
    | some (.red _ kind), .l => redData (countMatch s t m) kind m
    | _, _ =>
      let taken := s.wk.toks.any fun e => e.msg.tid = m.tid && e.msg.iter = m.iter && e.msg.block = m.block
        && e.msg.slot = m.slot && e.msg.port = m.port
      match instAt s m.tid m.iter with
      | some x =>
        if x.block ≠ m.block then keepToken s t m
        else if taken || x.fired.contains m.slot then raise s m.tid m.iter m.slot ⟨.blockBad, 0⟩
        else placeToken (countMatch s t m) t m
      | none => if addressPast s m then s else placeToken (if taken then s else countMatch s t m) t m

/-- TOKEN_ARRIVE. -/
def execTokenArrive (m : TokMsg) (s : State) : Out := .next (tokenArrive s m)

/-! ### READ and WRITE -/

/-- What a READ finds (R18, R24, R25, R210). -/
inductive ReadVal where
  | value (t : Token)
  | wait
  deriving DecidableEq, Repr

/-- The WRITEs of a register in a block, highest WID first. -/
def writesOf (es : List (Nat × Instr)) (r : Nat) : List (Nat × Pm) :=
  (es.filterMap fun e => match e.2 with | .write _ r' pm => if r'.toNat = r then some (e.1, pm) else none | _ => none).reverse

/-- What an instance leaves in a register for the next (R24, R109): nothing of its own, a value, or not yet known. -/
def leftBy (s : State) (x : Inst) (r : Nat) : Option ReadVal :=
  let es := blockSlots s x
  let ws := writesOf es r
  let known := fun (w : Nat × Pm) => x.fired.contains w.1
    || (!(returningOf es w.1).isEmpty && (returningOf es w.1).all fun k => x.nulled.contains k)
  if ws.all known then
    match ws.find? fun w => (tget x.wrote w.1).isSome with
    | some w => (tget x.wrote w.1).map .value
    | none => none
  else some .wait

/-- The lower instances, the nearest first: the first that leaves a value, or the committed register (R24). -/
def readThrough (s : State) (t : Task) (tid r : Nat) : List Inst → ReadVal
  | [] => if (outstanding s tid).contains (some r) then .wait else .value (regOf t r)
  | x :: more => match leftBy s x r with
    | some v => v
    | none => readThrough s t tid r more

/-- The value that a READ of register `r` injects. -/
def readValue (s : State) (f : Firing) (r : Nat) : ReadVal :=
  let t := taskD s f.tid
  match t.loop with
  | none => .value (regOf t r)
  | some l =>
    if !l.ordered then .value (tgetD l.regs r nullTok)
    else if lowerPending s f.tid f.iter then .wait
    else
      let lower := lowerInsts s f.tid f.iter
      if r = 61 then (if lower.isEmpty && (outstanding s f.tid).isEmpty then .value (regOf t 61) else .wait)
      else readThrough s t f.tid r (sortInsts l.first lower).reverse

/-- The value comes from the committed register, and not from an instance that has yet to commit (R24, R297). -/
def readsCommitted (s : State) (f : Firing) (r : Nat) : Bool :=
  match (taskD s f.tid).loop with
  | some l => !l.ordered || (lowerInsts s f.tid f.iter).all fun y => (leftBy s y r).isNone
  | none => true

/-- READ (R108). -/
def execRead (t0 t1 : Tgt) (reg : BitVec 6) (s : State) : Out :=
  onLane s (.read t0 t1 reg) fun f s1 =>
    match readValue s1 f reg.toNat with
    | .wait => waitFor s1 f .reg
    | .value v =>
      let c := readsCommitted s1 f reg.toNat
      let v' := if c then regRead s1 f.tid reg.toNat v else v
      let s2 := if c then regCheck s1 f.tid reg.toNat else s1
      post (markFired s2 f 0) (tokMsg f f.iter c v' t0 ++ tokMsg f f.iter c v' t1)

/-- WRITE (R109): POISON is written, NULL nulls. -/
def execWrite (wid : BitVec 5) (reg : BitVec 6) (pm : Pm) (s : State) : Out :=
  onLane s (.write wid reg pm) fun f s1 =>
    let p := predTokOf s1 f pm
    let produced := fun (v : Token) =>
      wakeReads (modInst (markFired s1 f 0) f.tid f.iter fun x => { x with wrote := tput x.wrote f.slot v }) f.tid
    if anyTag .poison p.toList then produced poisonTok
    else match gate pm p [(.data, portD s1 f .l)] with
      | .go => if tagTile (portD s1 f .l).tag then raiseAt s1 f ⟨.format, 0⟩ else produced (portD s1 f .l)
      | .null => nullSlot s1 f
      | .poison => nullSlot s1 f
      | .flt c => raiseAt s1 f ⟨c, 0⟩

/-! ### Branches, TRAP, BKPT, FENCE -/

/-- A nulled branch; once every branch word is nulled the block falls through (R15). -/
def branchNull (s : State) (f : Firing) : State :=
  let s1 := nullSlot s f
  match instAt s1 f.tid f.iter with
  | some x =>
    match blkOf s1 x with
    | some b =>
      let brs := (blockSlots s1 x).filter fun e => Instr.cls e.2 = .branch
      if x.branch.isNone && brs.all fun e => x.nulled.contains e.1 then
        setInst s1 { x with branch := some (.goto (fallThrough x.block b.header) false) }
      else s1
    | none => s1
  | none => s1

/-- A branch word that fires unnulled resolves the branch; a second one is BLOCK_BAD (R15). -/
def resolveBranch (s : State) (f : Firing) (b : Branch) : State :=
  match instAt s f.tid f.iter with
  | some x =>
    if x.branch.isSome then raiseAt s f ⟨.blockBad, 0⟩
    else modInst (markFired s f 0) f.tid f.iter fun x => { x with branch := some b }
  | none => s

/-- The target of a BR (R92). -/
def brTarget (block : Nat) (off : BitVec 21) : Nat := (((block : Int) + off.toInt * 64) % 2 ^ 52).toNat

/-- BR.NEXT activates the next instance at once, unless it is resolved inside a resumed run (R22, R302). -/
def branchNext (s : State) (f : Firing) (va : Nat) : State :=
  match instAt s f.tid f.iter with
  | some x =>
    let s1 := resolveBranch s f (.next va)
    if x.mayNext && x.branch.isNone then
      post s1 [.blockActivate ⟨f.tid, (f.iter + 1) % iterMod, va, true, false, true⟩]
    else s1
  | none => s

/-- BR (R117). -/
def execBr (off : BitVec 21) (bk : BranchKind) (pm : Pm) (s : State) : Out :=
  effectWord s (.br off bk pm) (triggerUses (.br off bk pm) .steer) branchNull fun f s1 =>
    let va := brTarget f.block off
    withTrigger (.br off bk pm) f s1 fun s2 => match bk with
      | .jump => resolveBranch s2 f (.goto va false)
      | .call => resolveBranch s2 f (.goto va true)
      | .next => branchNext s2 f va

/-- BRR (R118). -/
def execBrr (call : Bool) (pm : Pm) (s : State) : Out :=
  effectWord s (.brr call pm) (fun s f => [(.steer, portD s f .l)]) branchNull fun f s1 =>
    let l := portD s1 f .l
    if l.tag ≠ .addr then raiseAt s1 f ⟨.format, 0⟩ else resolveBranch s1 f (.goto (tokBits l) call)

/-- EXIT (R119). -/
def execExit (pm : Pm) (s : State) : Out :=
  effectWord s (.exit pm) (fun s f => [(.data, portD s f .l)]) branchNull fun f s1 =>
    let l := portD s1 f .l
    if l.tag = .future ∨ tagTile l.tag then raiseAt s1 f ⟨.format, 0⟩ else resolveBranch s1 f (.exit l)

/-- TRAP (R120): its request acts at commit. -/
def execTrap (imm : BitVec 12) (pm : Pm) (s : State) : Out :=
  storeWord s (.trap imm pm) (triggerUses (.trap imm pm) .steer) fun f s1 =>
    withTrigger (.trap imm pm) f s1 fun s2 => request s2 f (.trap imm pm) (.trap imm.toNat)

/-- BKPT (R121). -/
def execBkpt (imm : BitVec 12) (pm : Pm) (s : State) : Out :=
  storeWord s (.bkpt imm pm) (triggerUses (.bkpt imm pm) .steer) fun f s1 =>
    withTrigger (.bkpt imm pm) f s1 fun s2 => request s2 f (.bkpt imm pm) (.bkpt imm.toNat)

/-- FENCE (R153). -/
def execFence (scope : Scope) (lsid : BitVec 5) (pm : Pm) (s : State) : Out :=
  storeWord s (.fence scope lsid pm) (triggerUses (.fence scope lsid pm) .steer) fun f s1 =>
    withTrigger (.fence scope lsid pm) f s1 fun s2 => request s2 f (.fence scope lsid pm) (.fence scope)

/-! ### Activation (R12, R22, R86, R102, R223, R353) -/

/-- A shutter holds or has saved a graph's context (R298). -/
def shuttered (s : State) (graph : Nat) : Bool :=
  (tget s.sh.active graph).isSome || (tget s.sh.saved graph).isSome

/-- The loop that an activation begins or goes on with (R353); an ordinary block is in none. -/
def loopOf (t : Task) (a : Activation) (b : Blk) : Option Loop :=
  if !hdrRe b.header then none
  else if a.loopHead then
    match t.loop with
    | some l => some { l with ordered := !hdrUo b.header, regs := t.regs }
    | none => some ⟨!hdrUo b.header, a.iter, [], t.regs⟩
  else t.loop

/-- The counts of an issue of `k` instances of a word (R262). -/
def countIssue (s : State) (pane k : Nat) : State :=
  perfPane (perfPane (perfPane s pane 0x001 1) pane (0x001 + k) 1) pane 0x00A k

/-- The READs of a block go to the datapath at once, each an issue of its own (R12, R106, R262). -/
def injectReads (s : State) (a : Activation) (es : List (Nat × Instr)) : State :=
  let rs := (es.filter fun e => match e.2 with | .read _ _ _ => true | _ => false).map fun e =>
    (⟨a.tid, a.iter, a.block, e.1⟩ : Firing)
  { rs.foldl (fun a f => countIssue a (cellPane a f) 1) s with wk := { s.wk with issue := s.wk.issue ++ rs } }

/-- Tokens that came before the instance: two on one port are BLOCK_BAD, at the lowest such slot (R89, R294), full words
are ready. -/
def meetTokens (s : State) (a : Activation) (es : List (Nat × Instr)) : State :=
  let mine := s.wk.toks.filter fun e => e.msg.tid = a.tid && e.msg.iter = a.iter && e.msg.block = a.block
    && (match instrAt s a.tid a.block e.msg.slot, e.msg.port with | some (.red _ _), .l => false | _, _ => true)
  let twice := (mine.filter fun e => 1 < (mine.filter fun x => x.msg.slot = e.msg.slot && x.msg.port = e.msg.port).length).map
    fun e => e.msg.slot
  match twice with
  | k :: ks => raise s a.tid a.iter (ks.foldl min k) ⟨.blockBad, 0⟩
  | [] => es.foldl (fun st e => checkReady st ⟨a.tid, a.iter, a.block, e.1⟩) s

/-- The instance starts in its frame. -/
def startInst (s : State) (t : Task) (a : Activation) (b : Blk) (frame : Option Place) : State :=
  let g := graphOf s t
  let x0 : Inst := { tid := a.tid, iter := a.iter, block := a.block, frame := frame, mayNext := a.mayNext,
                     loopHead := a.loopHead }
  let s1 := setInst (setTask s a.tid { t with loop := loopOf t a b, born := true }) x0
  match activationBad ⟨g.blocks, g.arenas.length, g.waffles⟩ b with
  | some (c, slot) => raise s1 a.tid a.iter slot ⟨c, 0⟩
  | none =>
    let es := blockSlots s1 x0
    let s2 := if es.any fun e => Instr.cls e.2 = .branch then s1
      else setInst s1 { x0 with branch := some (.goto (fallThrough a.block b.header) false) }
    wakeReads (meetTokens (injectReads s2 a es) a es) a.tid

/-- BLOCK_BAD of a target that is no block of the task's graph (R292); a child that never started is ended (R193). -/
def badTargetStop (s : State) (t : Task) (a : Activation) : State :=
  let p : Place4 := ⟨255, t.colour, 0, t.die, t.pane % 192, a.block⟩
  if t.spawned && !t.born then reclaimTask (faultLaunch (writeRecord s t.vi ⟨.blockBad, 0⟩ p) t.launch) a.tid
  else stopTask (repost s (.blockActivate a)) a.tid ⟨.blockBad, 0⟩ p

/-- Activation of a block instance, or its wait (R12, R27, R145). -/
def blockActivate (s : State) (a : Activation) : State :=
  match taskAt s a.tid with
  | none => s
  | some t =>
    let words := match blockAt (graphOf s t) a.block with | some b => b.words.length | none => 1
    if blockMarked s t a.block words || t.stopped || (!a.next && !(outstanding s a.tid).isEmpty)
        || Config.maxInstances ≤ (instsOf s a.tid).length || (instAt s a.tid a.iter).isSome then
      repost s (.blockActivate a)
    else
      match blockAt (graphOf s t) a.block with
      | none => badTargetStop s t a
      | some b =>
        let n := frameGranules b.header
        if hdrRe b.header && !a.loopHead && t.loop.isNone then repost s (.blockActivate a)
        else if n = 0 then startInst s t a b none
        else match framePlace s t a.tid n with
          | some p => startInst s t a b (some p)
          | none =>
            if (instsOf s a.tid).any fun x => x.frame.isSome then repost s (.blockActivate a)
            else stopTask (repost s (.blockActivate a)) a.tid ⟨.stackLimit, 0⟩
              ⟨255, t.colour, a.iter, t.die, t.pane % 192, a.block⟩

/-- BLOCK_ACTIVATE. -/
def execBlockActivate (a : Activation) (s : State) : Out := .next (blockActivate s a)

/-! ### Issue (R28 to R30, R240, R241) -/

/-- A ready instance has been promoted: it has stood for 4,096 × W cycles (R240). -/
def isPromoted (s : State) (r : Ready) : Bool :=
  r.promoted || r.since + 4096 * weightSum s (cellPane s r.f) ≤ s.clk.cycle

/-- What has stood long enough on a pane is promoted for good: the sum of the pane's weights is about to change (R240). -/
def settlePromoted (s : State) (pane : Nat) : State :=
  { s with wk := { s.wk with
    ready := s.wk.ready.map fun r => if cellPane s r.f = pane then { r with promoted := isPromoted s r } else r } }

/-- Whether one ready instance stands before another in a context's issue order (R240). -/
def readyBefore (s : State) (a b : Ready) : Bool :=
  let ra := (taskD s a.f.tid).order
  let rb := (taskD s b.f.tid).order
  let ia := iterRank (oldestIter s a.f.tid) a.f.iter
  let ib := iterRank (oldestIter s b.f.tid) b.f.iter
  let byAge := ra < rb || (ra = rb && ia < ib)
  if isPromoted s a && isPromoted s b then a.since < b.since || (a.since = b.since && byAge)
  else if isPromoted s a then true
  else if isPromoted s b then false
  else byAge

/-- The head of the issue order. -/
def readyHead (s : State) : List Ready → Option Ready
  | [] => none
  | r :: t => match readyHead s t with
    | none => some r
    | some h => if readyBefore s h r then some h else some r

/-- The words of one instance that issue in one cycle do so in the order of their slots, so that the fault raised first is
that of the lower slot (R294, log 109); else the issue is one of a later cycle. -/
def slotTurn (s : State) (f : Firing) : Bool :=
  match instAt s f.tid f.iter with
  | some x => x.last.1 ≠ s.clk.cycle + 1 || x.last.2 ≤ f.slot
  | none => true

/-- The instances of a context that are ready on a cell, in its queue or marked where their tokens are held. -/
def readyMarked (s : State) (cell q : Nat) : List Ready :=
  s.wk.ready.filter fun r =>
    let t := taskD s r.f.tid
    t.q = q && cellOf s t r.f.block r.f.slot = cell && !markedAt s t.graph cell
      && (match instrAt s r.f.tid r.f.block r.f.slot with | some i => canFire s r.f i | none => false)

/-- Insertion in a context's issue order. -/
def insQueue (s : State) (x : Ready) : List Ready → List Ready
  | [] => [x]
  | y :: t => if readyBefore s y x then y :: insQueue s x t else x :: y :: t

/-- The ready queue of a context on a cell: the first 64 in its order. A full queue puts its youngest unpromoted entry out,
and marked instances come back promoted first and then oldest first, so that these are the ones it holds (R240). -/
def readyOn (s : State) (cell q : Nat) : List Ready :=
  ((readyMarked s cell q).foldl (fun l r => insQueue s r l) []).take 64

/-- One refill of the deficits (R241). -/
def refill (s : State) (pane : Nat) (bound : List Nat) (ds : List Int) : List Int :=
  bound.foldl (fun acc q =>
    let w : Int := bindWeight (bindRec s pane q)
    lset acc q (min ((acc[q]?).getD 0 + w) w)) ds

/-- The refill loop, which runs at most twice (R241). -/
def refillLoop (s : State) (pane : Nat) (bound c : List Nat) : Nat → List Int → List Int
  | 0, ds => ds
  | n + 1, ds =>
    if c.all fun q => (ds[q]?).getD 0 ≤ 0 then refillLoop s pane bound c n (refill s pane bound ds) else ds

/-- Whether a lane's operands or its result carry a 64-bit format (R29). -/
def wideLane (s : State) (i : Instr) (f : Firing) : Bool :=
  Instr.wideResult i || (s.wk.toks.any fun e => sameWord e f && tagWide e.msg.tok.tag)
    || (match i with
      | .red _ _ => (match redAt s f.tid f.block f.slot f.iter with | some r => r.toks.any fun e => tagWide e.2.tag | none => false)
      | .pld j => (match windowTag (bits (natOfBytes (devGet s (taskD s f.tid).vi (windowVa s f j) 16)) 96 8) with
        | some g => tagWide g
        | none => false)
      | _ => false)

/-- Datapath cycles of an issue (R29): two for a 64-bit operand or result, of a word of class K and of a PLD too (log 110). -/
def issueCycles (s : State) (lanes : List Firing) (i : Instr) : Nat := if lanes.any (wideLane s i) then 2 else 1

/-- Ready instances of one word in ascending iteration. -/
def insReady (base : Nat) (x : Ready) : List Ready → List Ready
  | [] => [x]
  | y :: t => if iterRank base x.f.iter ≤ iterRank base y.f.iter then x :: y :: t else y :: insReady base x t

def sortReady (base : Nat) : List Ready → List Ready
  | [] => []
  | x :: t => insReady base x (sortReady base t)

/-- The gathered lanes of an issue: the chosen instance and up to seven more of its slot and colour, from the ready queue
(R29, log 113). -/
def gatherLanes (s : State) (h : Ready) (rs : List Ready) : List Firing :=
  let base := oldestIter s h.f.tid
  let same := rs.filter fun r => r.f.tid = h.f.tid && r.f.block = h.f.block && r.f.slot = h.f.slot && r.f ≠ h.f
  (sortReady base (h :: (sortReady base same).take 7)).map fun r => r.f

/-- CELL_ISSUE: one issue of a cell. -/
def cellIssue (s : State) (die pane cell : Nat) : State :=
  let p := die * 192 + pane
  let key := p * 16 + cell
  let bound := boundContexts s p
  let c := bound.filter fun q => !(readyOn s key q).isEmpty
  if c.isEmpty then s
  else
    let st := tgetD s.wk.cells key {}
    let ds := refillLoop s p bound c 2 st.deficits
    let search := (List.range 8).map fun k => (st.ptr + k) % 8
    match search.find? fun q => c.contains q && 0 < (ds[q]?).getD 0 with
    | none => s
    | some q =>
      let rs := readyOn s key q
      match readyHead s rs with
      | none => s
      | some h =>
        let lanes := gatherLanes s h rs
        if !lanes.all (slotTurn s) then s
        else
        let cyc : Int := match instrAt s h.f.tid h.f.block h.f.slot with | some i => issueCycles s lanes i | none => 1
        let st' : CellSt := ⟨(q + 1) % 8, lset ds q ((ds[q]?).getD 0 - cyc)⟩
        let s1 := { s with wk := { s.wk with
          cells := tputD {} s.wk.cells key st'
          ready := s.wk.ready.filter fun r => !lanes.contains r.f
          issue := s.wk.issue ++ lanes } }
        let note := fun (a : State) (f : Firing) => modInst a f.tid f.iter fun x => { x with last := (s.clk.cycle + 1, f.slot) }
        countIssue (lanes.foldl note s1) p lanes.length

def execCellIssue (die pane cell : Nat) (s : State) : Out := .next (cellIssue s die pane cell)

/-- READY_PROMOTE: 4,096 × W cycles ready without issue (R240). -/
def readyPromote (s : State) (f : Firing) : State :=
  let w := weightSum s (cellPane s f)
  let up := fun (r : Ready) => if r.f = f && r.since + 4096 * w ≤ s.clk.cycle then { r with promoted := true } else r
  { s with wk := { s.wk with ready := s.wk.ready.map up } }

def execReadyPromote (f : Firing) (s : State) : Out := .next (readyPromote s f)

end Sys2Proof.Machine
end

