-- ==== Sys2Proof/Machine/GlobalWords.lean ====
section
/-! DEFINITION. The words on global memory (R116, R140 to R156) and the events at the walkers and the homes (R142, R225,
R254, R270). -/

namespace Sys2Proof.Machine

/-! ### Translation when a word fires (R142) -/

/-- A word held on a walk (R142). -/
def holdWord (s : State) (f : Firing) (pane vi va : Nat) (write : Bool) : State :=
  post (waitFor s f .page) [.pageWalk ⟨paneDie pane, pane, vi, va, write, .word f⟩]

/-- Translation through the TLB of the issuing cell's pane; a miss holds the word, a refusal is PROT. -/
def xlatWord (s : State) (f : Firing) (va : Nat) (a : Access) (k : Nat → Nat → Bool → State → State) : State :=
  let pane := cellPane s f
  let vi := (taskD s f.tid).vi
  match tlbXlat s pane vi va a with
  | .hit pa r c => k pa r c (tlbUse s pane vi va)
  | .refused => raiseAt s f ⟨.prot, va⟩
  | _ => holdWord s f pane vi va (a ≠ .read)

/-- The tracked unit of a physical address (R286). -/
def halfUnit (pa : Nat) : TrackUnit := .half (pa / 128) (pa % 128 / 64)

/-- A plain access to a page with CHECKED set (R286, R287). -/
def racesAt (s : State) (tid pa rdev : Nat) (checked plain : Bool) : Bool :=
  checked && plain && rdev = 0 && races s (taskD s tid) (halfUnit pa)

/-! ### Forwarding (R146, R151) -/

/-- Insertion by LSID, lowest first. DESIGN CHOICE (log 96): of two memory words of one block with one LSID, which no check
of R98 refuses, the request produced first stands first, and neither is forwarded to the other. -/
def insReq (x : Request) : List Request → List Request
  | [] => [x]
  | y :: t => if x.lsid.getD 32 ≤ y.lsid.getD 32 then x :: y :: t else y :: insReq x t

def sortReqs : List Request → List Request
  | [] => []
  | x :: t => insReq x (sortReqs t)

/-- The requests of an instance with LSID below `n`, in LSID order. -/
def reqsBelow (x : Inst) (n : Nat) : List Request :=
  sortReqs (x.requests.filter fun r => match r.lsid with | some l => l < n | none => false)

/-- The byte of a physical address that lower stores of the block will write: the highest LSID wins. -/
def fwdByte (rs : List Request) (pa rdev : Nat) : Option Byte :=
  rs.foldl (fun acc r => match r.kind with
    | .store _ p d fmt tok _ _ _ =>
      if d = rdev && tok.tag ≠ .poison && p ≤ pa && pa < p + accessWidth fmt
      then (storeBytes fmt tok)[pa - p]? else acc
    | _ => acc) none

/-- A lower store of POISON to the line (R149). -/
def fwdPoisons (rs : List Request) (pa rdev : Nat) : Bool :=
  rs.any fun r => match r.kind with
    | .store _ p d _ tok _ _ _ => d = rdev && tok.tag = .poison && p / 128 = pa / 128
    | _ => false

/-- A location named with its device: a peer's locations are apart from this device's. -/
def devLoc (rdev pa : Nat) : Nat := rdev * 2 ^ 52 + pa

/-- The location, length, task and sequence number of an effect that has not performed. -/
def effectLoc : Instr → Option (Nat × Nat × Nat × Nat)
  | .globalWritePerform m => some (devLoc m.rdev m.pa, m.bytes.length, m.tid, m.seq)
  | .atomicPerform m => some (devLoc m.rdev m.pa, accessWidth m.fmt, m.tid, m.seq)
  | _ => none

/-- The reading task's own effects on a location that a copy does not show: all that have not performed, but for those up
to the copy's own MST (R279). -/
def ownUnseen (s : State) (tid loc : Nat) (c : McastCopy) : Bool :=
  s.net.any fun m => match effectLoc m with
    | some (a, n, t, q) => t = tid && a ≤ loc && loc < a + n && !(c.tid = tid && q ≤ c.seq)
    | none => false

/-- The later of two copies in coherence order. -/
def laterCopy (acc : Option McastCopy) (c : McastCopy) : Option McastCopy :=
  match acc with
  | some d => if d.rank < c.rank then some c else some d
  | none => some c

/-- The newest multicast copy of a byte in a pane's buffer that a task may read (R151). -/
def mcastCopy (s : State) (tid pane loc : Nat) : Option McastCopy :=
  ((tgetD s.gm.mcast pane []).filter fun c =>
    c.here && !c.gone && c.pa ≤ loc && loc < c.pa + c.bytes.length && !ownUnseen s tid loc c).foldl laterCopy none

def mcastByte (s : State) (tid pane loc : Nat) : Option Byte :=
  (mcastCopy s tid pane loc).bind fun c => c.bytes[loc - c.pa]?

def sameMst (a b : McastCopy) : Bool := a.tid = b.tid && a.seq = b.seq
def copyOver (c : McastCopy) (loc n : Nat) : Bool := c.pa < loc + n && loc < c.pa + c.bytes.length

/-- A read that takes a copy: an LD; one with acquire waits for the MST itself where that is a release (R151, R285, log 111). -/
def takesCopy (m : ReadMsg) (c : McastCopy) : Bool := m.lsid.isSome && !(m.acq && c.rel)

/-- The task has read this MST's copy. -/
def seenBy (s : State) (tid : Nat) (c : McastCopy) : Bool :=
  s.gm.seen.any fun e => e.tid = tid && e.by_ = c.tid && e.num = c.seq

/-- A pane has been given a copy of a later MST of the same task on the same bytes. -/
def passedBy (s : State) (c : McastCopy) : Bool :=
  s.gm.mcast.any fun e => e.2.any fun d => d.tid = c.tid && c.seq < d.seq && 0 < d.rank && copyOver d c.pa c.bytes.length

/-- A copy on its way has reached the pane by the time of this read: it may not before what its MST follows has performed
(R148, R153), nor behind a later one of its task; else when it does is free, but for a task that has read it on another
pane (R151, R279, R283, log 111). -/
def copyLands (s : State) (m : ReadMsg) (c : McastCopy) : Bool :=
  !c.here && takesCopy m c && performedBelow s c.tid c.after && !passedBy s c
    && (seenBy s m.f.tid c || Config.copyArrives s.nd m.f.iter m.f.slot c.tid c.seq)

/-- A full buffer of 16 lines retires its oldest line at once (R151). -/
def trimCopies (l : List McastCopy) : List McastCopy :=
  let lines := ((l.filter fun k => k.here && !k.gone).map fun k => k.pa / 128).eraseDups
  match lines with
  | o :: _ => if 16 < lines.length then l.map (fun k => if k.here && k.pa / 128 = o then { k with gone := true } else k) else l
  | [] => l

/-- A copy reaches a pane; the first pane that an MST reaches settles its place in coherence order (R272). -/
def landCopy (s : State) (pane : Nat) (c : McastCopy) : State :=
  let n := if c.rank = 0 then s.gm.ranks + 1 else s.gm.ranks
  let r := if c.rank = 0 then n else c.rank
  let rank := fun (e : Nat × List McastCopy) => (e.1, e.2.map fun x => if sameMst x c then { x with rank := r } else x)
  let t := s.gm.mcast.map rank
  let l := (tgetD t pane []).filter (fun x => !sameMst x c) ++ [{ c with here := true, rank := r }]
  { s with gm := { s.gm with ranks := n, mcast := tput t pane (trimCopies l) } }

/-- The copies that have reached the pane by the time of a read. -/
def meetCopies (s : State) (m : ReadMsg) : State :=
  let pane := cellPane s m.f
  let near := (tgetD s.gm.mcast pane []).filter fun c => copyOver c (devLoc m.rdev m.pa) m.width
  near.foldl (fun a c => if copyLands a m c then landCopy a pane c else a) s

/-- A read waits for the MST itself: its pane holds a copy that it does not take, a full buffer has retired one, or its task
has read one that this pane does not hold (R151, R279). -/
def copyHolds (s : State) (m : ReadMsg) : Bool :=
  let loc := devLoc m.rdev m.pa
  let l := (tgetD s.gm.mcast (cellPane s m.f) []).filter fun c => c.here && copyOver c loc m.width
  (l.any fun c => c.gone || !takesCopy m c)
    || s.gm.seen.any fun e => e.tid = m.f.tid && e.loc < loc + m.width && loc < e.loc + e.len
      && !(l.any fun c => c.tid = e.by_ && c.seq = e.num)

/-- A write or an atomic of a task follows the MSTs on its bytes whose copies the task has read (R279). -/
def seenHolds (s : State) (tid rdev pa n : Nat) : Bool :=
  let loc := devLoc rdev pa
  s.gm.seen.any fun e => e.tid = tid && e.loc < loc + n && loc < e.loc + e.len

/-- MSTs on the same bytes perform in the order in which their copies have been read (R272, R279). -/
def rankHolds (s : State) (m : WriteMsg) : Bool :=
  let cs := s.gm.mcast.flatMap Prod.snd
  match cs.find? fun c => c.tid = m.tid && c.seq = m.seq with
  | some c => cs.any fun d => !sameMst c d && 0 < d.rank && d.rank < c.rank && copyOver d c.pa c.bytes.length
  | none => false

/-- A task has read these copies of other tasks' MSTs: each takes a number in its program order (R281). -/
def seeCopies (s : State) (tid : Nat) (cs : List McastCopy) : State :=
  cs.foldl (fun a c =>
    if c.tid = tid || seenBy a tid c then a
    else bumpSeq { a with gm := { a.gm with
      seen := a.gm.seen ++ [⟨tid, (taskD a tid).seq, c.tid, c.seq, c.pa, c.bytes.length⟩] } } tid) s

/-! ### Loads -/

/-- The token of a load (R68, R116, R149, R150). -/
def loadResult (fmt : Tag) (half : Option Nat) (poison : Bool) (bs : List Byte) : Token :=
  if poison then poisonTok
  else match half with
    | some h => mkTok fmt (natOfBytes bs / 2 ^ (4 * h) % 16)
    | none => loadTok fmt bs

/-- A load ends its wait and sends its value. -/
def finishLoad (s : State) (f : Firing) (v : Token) (fl : FlagSet) : State :=
  let s1 := { s with wk := { s.wk with waits := s.wk.waits.filter fun w => w.1 ≠ f } }
  match instrAt s f.tid f.block f.slot with
  | some i => fireSend s1 f i v v fl
  | none => s1

/-- The bytes of a part have been read: the load ends, or its second part goes to its home, which counts no second request
(R263). -/
def readDone (s : State) (m : ReadMsg) (bs : List Byte) (poison : Bool) : State :=
  match m.rest with
  | none => finishLoad s m.f (loadResult m.fmt m.half poison (m.got ++ bs)) 0
  | some (pa, rdev, n) =>
    let m' : ReadMsg := { m with pa := pa, rdev := rdev, width := n, fwd := List.replicate n none, fwdPoison := poison, got := m.got ++ bs, rest := none }
    post s [.homeRead m']

/-- The copies that a read takes its bytes from. -/
def nearCopies (s : State) (m : ReadMsg) : List McastCopy :=
  if m.lsid.isNone then []
  else (((List.range m.width).filter fun k => ((m.fwd[k]?).bind id).isNone).filterMap fun k =>
    mcastCopy s m.f.tid (cellPane s m.f) (devLoc m.rdev m.pa + k)).eraseDups

/-- A byte that a read finds in its pane's buffer. -/
def nearByte (s : State) (m : ReadMsg) (k : Nat) : Option Byte :=
  if m.lsid.isNone then none else mcastByte s m.f.tid (cellPane s m.f) (devLoc m.rdev m.pa + k)

/-- A read has found its bytes: those that a higher read of its task has already taken stand, and what it takes is kept for a
lower one that it feeds (R279, log 98). -/
def takeRead (s : State) (m : ReadMsg) (bs : List Byte) (poison : Bool) : State :=
  if m.lsid.isNone then readDone s m bs poison
  else
    let at_ := fun (k : Nat) => (Sum.inl (devLoc m.rdev m.pa + k) : Nat ⊕ Nat)
    let old := (List.range bs.length).any fun k => s.gm.early.any fun e => earlyOver s m.f (at_ k) e && e.poison
    let bs' := withEarly s m.f at_ bs
    readDone (noteEarly s m.f (at_ 0) bs' (poison || old)) m bs' (poison || old)

/-- A load goes to its home, unless the pane's multicast copies hold all of it. Bytes forwarded from the block's stores do
not answer for the poison of their line (R149). -/
def sendRead (s0 : State) (m : ReadMsg) : State :=
  let s := meetCopies s0 m
  let near := (List.range m.width).map (nearByte s m)
  if near.all Option.isSome && m.fwd.all Option.isNone && !copyHolds s m then
    takeRead (seeCopies (if m.rest.isSome then waitFor s m.f .read else s) m.f.tid (nearCopies s m)) m (near.filterMap id) m.fwdPoison
  else lineRequest (post (waitFor s m.f .read) [.homeRead m]) (paneDie (cellPane s m.f)) m.pa m.rdev

/-- LD (R149). -/
def execLd (m : MF) (s : State) : Out :=
  fireWord s (.ld m) (fun s f => [(.steer, portD s f .l)]) fun f s1 =>
    let l := portD s1 f .l
    let w := accessWidth m.fmt
    if !orderOk s1 f (.ld m) then waitFor s1 f .order
    else if l.tag ≠ .addr then raiseAt s1 f ⟨.format, 0⟩
    else if tokBits l % w ≠ 0 then raiseAt s1 f ⟨.align, tokBits l⟩
    else xlatWord s1 f (tokBits l) .read fun pa rdev checked s2 =>
      if racesAt s2 f.tid pa rdev checked (m.ord = .plain) then raiseAt s2 f ⟨.mmRace, tokBits l⟩
      else
        let t := taskD s2 f.tid
        let rs := match instAt s2 f.tid f.iter with | some x => reqsBelow x m.lsid.toNat | none => []
        sendRead s2 ⟨f, t.seq, t.floor, some m.lsid.toNat, m.ord ≠ .plain, tokBits l, pa, rdev, w, m.fmt, none,
          (List.range w).map (fun k => fwdByte rs (pa + k) rdev), fwdPoisons rs pa rdev, checked, m.t0, [], none⟩

/-- The element of a window at an index (R116). -/
def pldElement (s : State) (f : Firing) (i : IF) (base count : Nat) (fmt : Tag) (idx : Int) : State :=
  if idx < 0 ∨ (count : Int) ≤ idx then fireSend s f (.pld i) (mkTok fmt 0) (mkTok fmt 0) fParamOob
  else
    let k := idx.toNat
    let w := accessWidth fmt
    let va := (if fmt = .e2m1 then base + k / 2 else base + k * w) % 2 ^ 52
    let n1 := min w (65536 - va % 65536)
    let t := taskD s f.tid
    let msg := fun (pa rdev : Nat) (rest : Option (Nat × Nat × Nat)) =>
      (⟨f, t.seq, t.floor, none, false, va, pa, rdev, n1, fmt, if fmt = .e2m1 then some (k % 2) else none,
        List.replicate n1 none, false, false, i.t0, [], rest⟩ : ReadMsg)
    xlatWord s f va .read fun pa rdev _ s2 =>
      if n1 < w then
        xlatWord s2 f ((va + n1) % 2 ^ 52) .read fun pa2 rdev2 _ s3 =>
          sendRead s3 (msg pa rdev (some (pa2, rdev2, w - n1)))
      else sendRead s2 (msg pa rdev none)

/-- PLD (R116): the window's descriptor in the launch's card, then the element. DESIGN CHOICE (log 97): the descriptor is
read at each firing, through the task's translation, as the card's home bytes stand then. -/
def execPld (i : IF) (s : State) : Out :=
  fireWord s (.pld i) (fun s f => [(.pass, portD s f .l)]) fun f s1 =>
    let l := portD s1 f .l
    let t := taskD s1 f.tid
    let va := windowVa s1 f i
    if !orderOk s1 f (.pld i) then waitFor s1 f .order
    else if !l.tag.isInt then raiseAt s1 f ⟨.format, 0⟩
    else xlatWord s1 f va .read fun _ _ _ s2 =>
      let d := natOfBytes (devGet s2 t.vi va 16)
      let s3 := devTouch s2 t.vi va 16
      match windowTag (bits d 96 8) with
      | none => raiseAt s3 f ⟨.paramUnbound, i.imm.toNat⟩
      | some g => pldElement s3 f i (bits d 0 64 % 2 ^ 52) (bits d 64 32) g (tokInt l)

/-! ### Stores and atomics when they fire (R141) -/

/-- The first checks of a store-class global word: tags, alignment, translation and the probe. -/
def fireGlobal (s : State) (f : Firing) (a : Access) (fmt : Tag) (data : List Token) (plain : Bool)
    (k : Nat → Nat → Nat → Bool → State → State) : State :=
  let l := portD s f .l
  if l.tag ≠ .addr ∨ data.any (fun d => d.tag ≠ fmt && d.tag ≠ .poison) then raiseAt s f ⟨.format, 0⟩
  else if tokBits l % accessWidth fmt ≠ 0 then raiseAt s f ⟨.align, tokBits l⟩
  else xlatWord s f (tokBits l) a fun pa rdev checked s2 =>
    if racesAt s2 f.tid pa rdev checked plain then raiseAt s2 f ⟨.mmRace, tokBits l⟩
    else k (tokBits l) pa rdev checked s2

/-- The scope of a release, from Q (R94). -/
def relScope : Order → Option Scope
  | .plain => none
  | .ordered s => some s

/-- ST and MST produce their request (R149, R151). -/
def storeReq (s : State) (i : Instr) (ord : Order) (fmt : Tag) (mst : Bool) : Out :=
  storeWord s i (fun s f => [(.steer, portD s f .l), (.data, portD s f .r)]) fun f s1 =>
    fireGlobal s1 f .write fmt [portD s1 f .r] (ord = .plain) fun va pa rdev checked s2 =>
      request s2 f i (.store va pa rdev fmt (portD s1 f .r) (relScope ord) checked mst)

/-- ST (R149). -/
def execSt (ord : Order) (fmt : Tag) (lsid : BitVec 5) (pm : Pm) (s : State) : Out :=
  storeReq s (.st ord fmt lsid pm) ord fmt false

/-- MST (R151). -/
def execMst (ord : Order) (fmt : Tag) (lsid : BitVec 5) (pm : Pm) (s : State) : Out :=
  storeReq s (.mst ord fmt lsid pm) ord fmt true

/-- A global atomic produces its request (R154); only ACAS reads X. -/
def atomReq (s : State) (i : Instr) (op : AtomOp) (m : MF) : Out :=
  let data := fun (s : State) (f : Firing) => if op = .cas then [portD s f .r, portD s f .x] else [portD s f .r]
  storeWord s i (fun s f => (.steer, portD s f .l) :: (data s f).map fun d => (.data, d)) fun f s1 =>
    fireGlobal s1 f .atomic m.fmt (data s1 f) false fun va pa rdev _ s2 =>
      request s2 f i (.atom op va pa rdev m.fmt (portD s1 f .r) (portD s1 f .x) (relScope m.ord))

/-- AADD (R154). -/
def execAadd (m : MF) (s : State) : Out := atomReq s (.aadd m) .add m
/-- AMIN (R154). -/
def execAmin (m : MF) (s : State) : Out := atomReq s (.amin m) .min m
/-- AMAX (R154). -/
def execAmax (m : MF) (s : State) : Out := atomReq s (.amax m) .max m
/-- AAND (R154). -/
def execAand (m : MF) (s : State) : Out := atomReq s (.aand m) .and m
/-- AOR (R154). -/
def execAor (m : MF) (s : State) : Out := atomReq s (.aor m) .or m
/-- AXOR (R154). -/
def execAxor (m : MF) (s : State) : Out := atomReq s (.axor m) .xor m
/-- ASWP (R154). -/
def execAswp (m : MF) (s : State) : Out := atomReq s (.aswp m) .swp m
/-- ACAS (R154). -/
def execAcas (m : MF) (s : State) : Out := atomReq s (.acas m) .cas m

/-- PREF (R152): it never raises PAGE, PROT or ALIGN; without a translation it asks for nothing. -/
def execPref (lsid : BitVec 5) (pm : Pm) (s : State) : Out :=
  storeWord s (.pref lsid pm) (fun s f => [(.steer, portD s f .l)]) fun f s1 =>
    let l := portD s1 f .l
    if l.tag ≠ .addr then raiseAt s1 f ⟨.format, 0⟩
    else
      let vi := (taskD s1 f.tid).vi
      let pane := cellPane s1 f
      let w := walk s1 vi (tokBits l)
      match w.1 with
      | .leaf t =>
        if permits s1 t .read (tokBits l) then
          let e := eRdev t.entry.toNat
          request (tlbInsert { s1 with gm := touchAll s1.gm w.2 } pane t) f (.pref lsid pm) (.pref (tokBits l) (pagePa t (tokBits l)) e true)
        else request s1 f (.pref lsid pm) (.pref (tokBits l) 0 0 false)
      | _ => request s1 f (.pref lsid pm) (.pref (tokBits l) 0 0 false)

/-! ### The walkers (R142, R254, R296) -/

/-- A held access is let go: a word fires again, an engine context goes on at its next step. -/
def wakeHeld (s : State) (m : WalkMsg) : State :=
  match m.who with
  | .word f => wake s f
  | _ => s

/-- A held access that is refused: PROT for a word (R142, R296); an engine stops at its next step by itself (R172). -/
def refuseHeld (s : State) (m : WalkMsg) : State :=
  match m.who with
  | .word f => raiseAt s f ⟨.prot, m.va⟩
  | _ => s

/-- A walk: the TLB takes the page, or the access is held for firmware, or refused. -/
def pageWalk (s : State) (m : WalkMsg) : State :=
  let live := match m.who with | .word f => waiting s f | _ => true
  if !live then s
  else
    let (w, read) := walk s m.vi m.va
    let s1 := { s with gm := touchAll s.gm read }
    match w with
    | .leaf t => wakeHeld (tlbInsert s1 m.pane t) m
    | .refused => refuseHeld s1 m
    | .missing _ _ _ =>
      sendPageFault { s1 with gm := { s1.gm with held := s1.gm.held ++ [m] } } m.die m.vi m.va m.write

/-- PAGE_WALK. -/
def execPageWalk (m : WalkMsg) (s : State) : Out := .next (pageWalk s m)

/-! ### The homes (R225, R270) -/

/-- HOME_LINE_FILL: an absent line is brought in from HBM. -/
def execHomeLineFill (line : Nat) (s : State) : Out := .next { s with gm := fillLine s.gm line }

/-- The lines of an access are present; those of a peer device are not this device's. -/
def linesHere (s : State) (pa width rdev : Nat) : Bool :=
  rdev ≠ 0 || ((tget s.gm.lines (pa / 128)).isSome && (tget s.gm.lines ((pa + width - 1) / 128)).isSome)

/-- The range of an effect that has not performed. -/
def effectRange : Instr → Option (Nat × Nat × Nat × Nat × Nat)
  | .globalWritePerform m => some (m.tid, m.seq, m.rdev, m.pa, m.bytes.length)
  | .atomicPerform m => some (m.tid, m.seq, m.rdev, m.pa, accessWidth m.fmt)
  | _ => none

/-- An earlier effect of the same task on the same bytes has not performed (R279). -/
def ownEarlier (s : State) (tid seq rdev pa width : Nat) : Bool :=
  s.net.any fun m => match effectRange m with
    | some (t, q, d, a, n) => t = tid && q < seq && d = rdev && overlap a n pa width
    | none => false

/-- Bytes at their home, or of a peer. -/
def homeBytes (s : State) (pa rdev width : Nat) : List Byte :=
  if rdev = 0 then paBytes s.gm pa width
  else (List.range width).map fun k => Config.peerData rdev (pa + k) s.nd

/-- Whether they lie in a poisoned line; a peer tells of its own (R149, R316, log 15). -/
def homePoison (s : State) (pa rdev width : Nat) : Bool :=
  if rdev = 0 then (lineAt s.gm (pa / 128)).poison || (lineAt s.gm ((pa + width - 1) / 128)).poison
  else Config.peerPoison rdev pa s.nd

/-- A read may not perform yet at its home. -/
def readHeld (s : State) (m : ReadMsg) : Bool :=
  !linesHere s m.pa m.width m.rdev || !performedBelow s m.f.tid m.after
    || ownEarlier s m.f.tid m.seq m.rdev m.pa m.width || copyHolds s m

/-- A byte of a read: forwarded, of a copy, or of the home. -/
def readByte (s : State) (m : ReadMsg) (home : List Byte) (k : Nat) : Byte :=
  match (m.fwd[k]?).bind id, nearByte s m k with
  | some b, _ => b
  | none, some b => b
  | none, none => (home[k]?).getD 0

/-- The lines of an access are used now. -/
def touchLines (g : Gm) (pa n : Nat) : Gm :=
  let g1 := touchLine g (pa / 128)
  if (pa + n - 1) / 128 = pa / 128 then g1 else touchLine g1 ((pa + n - 1) / 128)

/-- HOME_READ: a read performs at its home (R270). -/
def homeRead (s0 : State) (m : ReadMsg) : State :=
  if !waiting s0 m.f then s0
  else
    let s := meetCopies s0 m
    if readHeld s m then repost s0 (.homeRead m)
    else
      let bs := (List.range m.width).map (readByte s m (homeBytes s m.pa m.rdev m.width))
      let poison := m.fwdPoison || homePoison s m.pa m.rdev m.width
      let s1 := if m.rdev = 0 then { s with gm := touchLines s.gm m.pa m.width } else s
      takeRead (seeCopies s1 m.f.tid (nearCopies s m)) m bs poison

def execHomeRead (m : ReadMsg) (s : State) : Out := .next (homeRead s m)

/-- A store's bytes at the home: POISON sets the line's bit and writes nothing; a store ends an engine's cover (R149). -/
def storeAt (g : Gm) (pa : Nat) (bytes : List Byte) (poison : Bool) : Gm :=
  if poison then writeLine g pa [] fun l => { l with poison := true, cover := none }
  else writeLine g pa (bytes.map some) fun l => { l with cover := none }

/-- The copies of an MST are retired when it performs, and those who have read one wait for it no longer (R151). -/
def retireCopies (s : State) (tid seq : Nat) : State :=
  let drop := fun (e : Nat × List McastCopy) => (e.1, e.2.filter fun c => !(c.tid = tid && c.seq = seq))
  { s with gm := { s.gm with mcast := (s.gm.mcast.map drop).filter fun e => !e.2.isEmpty,
                             seen := s.gm.seen.filter fun e => !(e.by_ = tid && e.num = seq) } }

/-- A global write is applied at its home, with its tracking, its release and its copies (R270, R287, R288). -/
def performWrite (s : State) (m : WriteMsg) : State :=
  let s1 := if m.rdev = 0 then { s with gm := storeAt s.gm m.pa m.bytes m.poison } else s
  let s2 := match m.release with
    | some sc => publish s1 m.tid (scopeNum sc)
    | none => if m.checked && m.rdev = 0 then ownUnit s1 m.tid (halfUnit m.pa) else s1
  if m.mst then retireCopies s2 m.tid m.seq else s2

/-- GLOBAL_WRITE_PERFORM. -/
def globalWrite (s : State) (m : WriteMsg) : State :=
  if !linesHere s m.pa m.bytes.length m.rdev || !performedBelow s m.tid m.after
      || ownEarlier s m.tid m.seq m.rdev m.pa m.bytes.length || seenHolds s m.tid m.rdev m.pa m.bytes.length
      || rankHolds s m then repost s (.globalWritePerform m)
  else openWaits (performWrite s m)

def execGlobalWritePerform (m : WriteMsg) (s : State) : Out := .next (globalWrite s m)

/-- The new value of an atomic, with its flags (R154, R156, R162). -/
def atomNew (op : AtomOp) (old r x : Token) : Token × FlagSet :=
  let of := fun (v : VOut) => match v with | .send t _ fl => (t, fl) | .format => (old, (0 : FlagSet))
  match op with
  | .add => of (addV false old r)
  | .min => of (minV old r)
  | .max => of (maxV old r)
  | .and => of (logicV (· &&& ·) old r)
  | .or => of (logicV (· ||| ·) old r)
  | .xor => of (logicV (· ^^^ ·) old r)
  | .swp => (r, 0)
  | .cas => (if tokBits old = tokBits r then x else old, 0)

/-- An atomic's read, new value and return at the home (R155). -/
def performAtom (s : State) (m : AtomMsg) : State :=
  let w := accessWidth m.fmt
  let old := loadTok m.fmt (homeBytes s m.pa m.rdev w)
  let poison := homePoison s m.pa m.rdev w || m.r.tag = .poison || (m.op = .cas && m.x.tag = .poison)
  let s0 := match m.release with | some sc => publish s m.tid (scopeNum sc) | none => s
  if poison then
    let s1 := if m.rdev = 0 then { s0 with gm := storeAt s0.gm m.pa [] true } else s0
    post s1 [.returnValueArrive ⟨m.tid, m.iter, m.launch, m.reg, poisonTok, 0⟩]
  else
    let new := atomNew m.op old m.r m.x
    let writes := m.op ≠ .cas || tokBits old = tokBits m.r
    let s1 := if m.rdev = 0 && writes then { s0 with gm := storeAt s0.gm m.pa (storeBytes m.fmt new.1) false } else s0
    post s1 [.returnValueArrive ⟨m.tid, m.iter, m.launch, m.reg, old, new.2⟩]

/-- ATOMIC_PERFORM (R154, R155). -/
def atomicPerform (s : State) (m : AtomMsg) : State :=
  if !linesHere s m.pa (accessWidth m.fmt) m.rdev || !performedBelow s m.tid m.after
      || ownEarlier s m.tid m.seq m.rdev m.pa (accessWidth m.fmt) || seenHolds s m.tid m.rdev m.pa (accessWidth m.fmt)
      then repost s (.atomicPerform m)
  else openWaits (performAtom s m)

def execAtomicPerform (m : AtomMsg) (s : State) : Out := .next (atomicPerform s m)

end Sys2Proof.Machine
end

