-- ==== Sys2Proof/Machine/LocalWords.lean ====
section
/-! DEFINITION. The words on pane local store when they fire (R140 to R167): their checks, the reads and the waits; the
effects of the store-class ones stand in Commit. -/

namespace Sys2Proof.Machine

/-- The handle and offset operands: HANDLE and an integer, else FORMAT (R140). -/
def localOperands (s : State) (f : Firing) : Option (Nat × Int) :=
  let l := portD s f .l
  let r := portD s f .r
  if l.tag = .handle && r.tag.isInt then some (tokBits l, tokInt r) else none

/-- The checks of R157, then the access; an access to a record whose spill copy runs waits (R237). -/
def withGranule (s : State) (f : Firing) (width : Nat) (k : Nat → Nat → GLoc → Nat → State → State) : State :=
  match localOperands s f with
  | none => raiseAt s f ⟨.format, 0⟩
  | some (h, off) =>
    match resolve s h off width with
    | .error e => raiseAt s f e
    | .ok (l, o) =>
      if (match handleRec h with | some key => spillingRec s key | none => false) then waitFor s f .granule
      else k h off.toNat l o s

/-- Uses of the ports of a local word: handle and offset steer it. -/
def localUses (s : State) (f : Firing) : List (PortUse × Token) := [(.steer, portD s f .l), (.steer, portD s f .r)]

/-- Lower LSTs of the block to the same granule (R146). -/
def lowerLsts (s : State) (f : Firing) (n : Nat) (l : GLoc) : List Request :=
  match instAt s f.tid f.iter with
  | some x => (reqsBelow x n).filter fun r => match r.kind with
    | .lst h o _ _ => localGranule s h o = some l
    | _ => false
  | none => []

/-- The byte at an offset of the granule that the lower LSTs will write. -/
def lstByte (rs : List Request) (o : Nat) : Option Byte :=
  rs.foldl (fun acc r => match r.kind with
    | .lst _ off fmt tok =>
      let a := off % 16
      if tok.tag ≠ .poison && a ≤ o && o < a + accessWidth fmt then (storeBytes fmt tok)[o - a]? else acc
    | _ => acc) none

def lstPoisons (rs : List Request) : Bool :=
  rs.any fun r => match r.kind with | .lst _ _ _ tok => tok.tag = .poison | _ => false

/-- A byte of a granule, by the place it lies in. -/
def locAt (l : GLoc) (o : Nat) : Nat ⊕ Nat :=
  match l with
  | .here g => .inr (16 * g + o)
  | .copy vi d _ => .inr (2 ^ 60 + vi * 2 ^ 52 + d + o)

/-- The bytes of a granule as a read of a task finds them (R279, log 98). -/
def localBytes (s : State) (f : Firing) (l : GLoc) (o n : Nat) : List Byte := withEarly s f (fun k => locAt l (o + k)) (locBytes s o n l)

/-- The value that an LLD reads, forwarding included (R146, R150, R159). -/
def localValue (s : State) (f : Firing) (rs : List Request) (l : GLoc) (o : Nat) (fmt : Tag) : Token :=
  let home := localBytes s f l o (accessWidth fmt)
  let bs := (List.range (accessWidth fmt)).map fun k => match lstByte rs (o + k) with
    | some b => b
    | none => (home[k]?).getD 0
  loadResult fmt none (locPoison s l || lstPoisons rs) bs

/-- A plain local read races (R158, R159, R287); spilled units are not tracked (R290). -/
def localRaces (s : State) (tid : Nat) (l : GLoc) : Bool :=
  match locUnit l with
  | some g => races s (taskD s tid) (.granule g)
  | none => false

/-- The instance has reserved the granule of this take (R160). -/
def hasTaken (s : State) (f : Firing) : Bool :=
  (instAt s f.tid f.iter).any fun x => x.requests.any fun r => r.slot = f.slot

/-- A take reserves its granule for its instance (R160). -/
def reserveTake (s : State) (f : Firing) (lsid h off : Nat) (l : GLoc) : State :=
  modInst (setLocField s l 2 1 1) f.tid f.iter fun x => { x with requests := x.requests ++ [⟨f.slot, some lsid, none, .take h off⟩] }

/-- A lower word of the block holds a take back as an acquire alone, and is no take that may name the same granule. -/
def holdsReadOnly (s : State) (t : Task) (x : Inst) (f : Firing) (i : Instr) (n : Nat) (l : GLoc) (e : Nat × Instr) : Bool :=
  !heldByOwn s t x f i n e || match e.2 with
    | .lld _ w _ _ _ =>
      let q : Firing := ⟨x.tid, x.iter, x.block, e.1⟩
      w ≠ .take || ((portTok s q .l).isSome && (portTok s q .r).isSome && wordGranule s q ≠ some l)
    | .st _ _ _ _ | .mst _ _ _ _ | .lst _ _ _ | .fence _ _ _ => false
    | _ => true

/-- A take that only an acquire of its own block holds back reserves its granule when it fires, and reads it once that has
performed (R17, R148, R160, R334). -/
def takeEarly (s : State) (f : Firing) (i : Instr) (fmt : Tag) (lsid : Nat) : State :=
  match taskAt s f.tid, instAt s f.tid f.iter, localOperands s f with
  | some t, some x, some (h, off) =>
    (match resolve s h off (accessWidth fmt) with
      | .ok (l, _) =>
        let free := t.wait.isEmpty && performedBelow s f.tid t.floor && !lowerPending s f.tid f.iter
          && (lowerInsts s f.tid f.iter).isEmpty && (blockSlots s x).all (holdsReadOnly s t x f i lsid l)
          && (match handleRec h with | some key => !spillingRec s key | none => false)
        if free && locStateField s l = stFull && !locRsv s l && !hasTaken s f then reserveTake s f lsid h off.toNat l else s
      | .error _ => s)
  | _, _, _ => s

/-- LLD (R158 to R160). -/
def execLld (t0 : Tgt) (wait : LldWait) (fmt : Tag) (lsid : BitVec 5) (pm : Pm) (s : State) : Out :=
  fireWord s (.lld t0 wait fmt lsid pm) localUses fun f s1 =>
    let i : Instr := .lld t0 wait fmt lsid pm
    if !orderOk s1 f i then waitFor (if wait = .take then takeEarly s1 f i fmt lsid.toNat else s1) f .order
    else withGranule s1 f (accessWidth fmt) fun h off l o s2 =>
      let s3 := readCheck s2 l
      let rs := lowerLsts s3 f lsid.toNat l
      let full := locStateField s3 l = stFull || !rs.isEmpty
      let v := localValue s3 f rs l o fmt
      let send := fun (st : State) =>
        fireSend (noteEarly st f (locAt l o) (localBytes s3 f l o (accessWidth fmt)) (locPoison s3 l)) f i v v 0
      match wait with
      | .none => if localRaces s3 f.tid l then raiseAt s3 f ⟨.mmRace, handleForm h off⟩ else send s3
      | .keep =>
        if locStateField s3 l = stBarrier then raiseAt s3 f ⟨.barrierClobber, handleForm h off⟩
        else if full then send s3 else waitFor s3 f .granule
      | .take =>
        if locStateField s3 l = stBarrier then raiseAt s3 f ⟨.barrierClobber, handleForm h off⟩
        else if full && hasTaken s3 f then send s3
        else if full && !locRsv s3 l then send (reserveTake s3 f lsid.toNat h off l)
        else waitFor s3 f .granule

/-- FEW (R163): N16 0 on a FULL granule, the new PHASE on a barrier. -/
def execFew (t0 : Tgt) (lsid : BitVec 5) (pm : Pm) (s : State) : Out :=
  fireWord s (.few t0 lsid pm) (fun s f => localUses s f ++ [(.steer, portD s f .x)]) fun f s1 =>
    let x := portD s1 f .x
    if !orderOk s1 f (.few t0 lsid pm) then waitFor s1 f .order
    else if !x.tag.isInt then raiseAt s1 f ⟨.format, 0⟩
    else withGranule s1 f 16 fun _ _ l _ s2 =>
      let s3 := readCheck s2 l
      let send := fun (v : Nat) => fireSend s3 f (.few t0 lsid pm) (mkTok .n16 v) (mkTok .n16 v) 0
      if locStateField s3 l = stBarrier then
        let phase := natOfBytes (locBytes s3 4 2 l)
        if ((phase : Int) - tokInt x) % 65536 ≠ 0 then send phase else waitFor s3 f .granule
      else if locStateField s3 l = stFull || !(lowerLsts s3 f lsid.toNat l).isEmpty then send 0
      else waitFor s3 f .granule

/-- LSZ (R167): the length in bytes; the first three checks of R157. -/
def execLsz (t0 : Tgt) (lsid : BitVec 5) (pm : Pm) (s : State) : Out :=
  fireWord s (.lsz t0 lsid pm) (fun s f => [(.steer, portD s f .l)]) fun f s1 =>
    let l := portD s1 f .l
    if l.tag ≠ .handle then raiseAt s1 f ⟨.format, 0⟩
    else match liveRec s1 (tokBits l) 0 with
      | .error e => raiseAt s1 f e
      | .ok (_, r) =>
        fireSend s1 f (.lsz t0 lsid pm) (mkTok .n32 (r.granules * 16)) (mkTok .n32 (r.granules * 16)) 0

/-- LST (R161). -/
def execLst (fmt : Tag) (lsid : BitVec 5) (pm : Pm) (s : State) : Out :=
  storeWord s (.lst fmt lsid pm) (fun s f => localUses s f ++ [(.data, portD s f .x)]) fun f s1 =>
    let x := portD s1 f .x
    if x.tag ≠ fmt && x.tag ≠ .poison then raiseAt s1 f ⟨.format, 0⟩
    else withGranule s1 f (accessWidth fmt) fun h off _ _ s2 => request s2 f (.lst fmt lsid pm) (.lst h off fmt x)

/-- LAMO (R162). -/
def execLamo (t0 : Tgt) (op : AtomOp) (fmt : Tag) (lsid : BitVec 5) (pm : Pm) (s : State) : Out :=
  storeWord s (.lamo t0 op fmt lsid pm) (fun s f => localUses s f ++ [(.data, portD s f .x)]) fun f s1 =>
    let x := portD s1 f .x
    if x.tag ≠ fmt && x.tag ≠ .poison then raiseAt s1 f ⟨.format, 0⟩
    else withGranule s1 f (accessWidth fmt) fun h off _ _ s2 =>
      request s2 f (.lamo t0 op fmt lsid pm) (.lamo op h off fmt x)

/-- FES (R164). -/
def execFes (lsid : BitVec 5) (pm : Pm) (s : State) : Out :=
  storeWord s (.fes lsid pm) (fun s f => localUses s f ++ [(.steer, portD s f .x)]) fun f s1 =>
    let x := portD s1 f .x
    if !x.tag.isInt ∨ (tokInt x ≠ 0 ∧ tokInt x ≠ 1) then raiseAt s1 f ⟨.format, 0⟩
    else withGranule s1 f 16 fun h off _ _ s2 => request s2 f (.fes lsid pm) (.fes h off (decide (tokInt x = 1)))

/-- BINIT (R165). -/
def execBinit (lsid : BitVec 5) (pm : Pm) (s : State) : Out :=
  storeWord s (.binit lsid pm) (fun s f => localUses s f ++ [(.steer, portD s f .x)]) fun f s1 =>
    let x := portD s1 f .x
    if !x.tag.isInt ∨ tokInt x < 1 ∨ 65535 < tokInt x then raiseAt s1 f ⟨.format, 0⟩
    else withGranule s1 f 16 fun h off _ _ s2 => request s2 f (.binit lsid pm) (.binit h off (tokInt x).toNat)

/-- BARR (R166). -/
def execBarr (t0 : Tgt) (lsid : BitVec 5) (pm : Pm) (s : State) : Out :=
  storeWord s (.barr t0 lsid pm) localUses fun f s1 =>
    withGranule s1 f 16 fun h off _ _ s2 => request s2 f (.barr t0 lsid pm) (.barr h off)

/-- GRANULE_WAKE: a word that waits on a granule makes its check anew (R158). -/
def execGranuleWake (f : Firing) (s : State) : Out :=
  .next (if s.wk.waits.any fun w => w.1 = f && w.2 = .granule then wake s f else s)

end Sys2Proof.Machine
end

