-- ==== Sys2Proof/Machine/QueueWords.lean ====
section
/-! DEFINITION. The words on queues, tables and counters when they fire (R168 to R207): their checks, their waits, their
requests. The effects of the store-class ones stand in Commit. SPAWN stands in Tasks, SWQ in Streams, SYSRD in
SysRegs. -/

namespace Sys2Proof.Machine

/-! ### Engine contexts (R171) -/

/-- A context by the issuing cell's pane, a selector and SUB. -/
def ctxKey (pane selector sub : Nat) : Nat :=
  let p := pane % 192
  paneDie pane * 1024 + (match selector with
    | 0 => p % 16 * 4 + sub
    | 1 => 64 + p % 4 * 4 + sub
    | k => 128 + p * 4 + (k - 2))

def ctxAt (s : State) (k : Nat) : Ctx := tgetD s.en.ctxs k {}
def setCtx (s : State) (k : Nat) (c : Ctx) : State := { s with en := { s.en with ctxs := tputD {} s.en.ctxs k c } }

/-- The range checks on a selector (R185). -/
def selectorOk (v : Int) (sub : Nat) : Bool := 0 ≤ v && v ≤ 5 && (v < 2 || sub = 0)

/-! ### Allocation words (R174 to R177) -/

/-- ALLOC (R174): its request joins the arena's list; the grant sends the handle. -/
def execAlloc (g : GF) (arena : BitVec 3) (s : State) : Out :=
  fireWord s (.alloc g arena) (fun s f => [(.count, portD s f .l), (.count, portD s f .r)]) fun f s1 =>
    let l := portD s1 f .l
    let r := portD s1 f .r
    let t := taskD s1 f.tid
    let k := arenaKey t.pane t.q arena.toNat
    if !(l.tag.isInt && r.tag.isInt) ∨ tokInt l < 1 ∨ 4096 < tokInt l ∨ tokInt r < 1 ∨ 255 < tokInt r then
      raiseAt s1 f ⟨.format, 0⟩
    else if (arenaAt s1 k).size < (tokInt l).toNat then raiseAt s1 f ⟨.allocOversize, (tokInt l).toNat⟩
    else
      post (waitFor s1 f .alloc) [.allocRequestArrive
        ⟨.word f, k, (tokInt l).toNat, (tokInt r).toNat, cellOf s1 t f.block f.slot % 16, f.slot,
          iterRank (oldestIter s1 f.tid) f.iter, t.colour, s1.clk.cycle, 0⟩]

/-- A record that FREE and RELS accept: live, and no task-pool record (R176). -/
def ownRec (s : State) (h : Nat) : Except Flt (Nat × Rec) :=
  match liveRec s h 0 with
  | .error e => .error e
  | .ok (k, r) => if r.pool then .error ⟨.handleStale, handleForm h 0⟩ else .ok (k, r)

/-- FREE (R176). -/
def execFree (pm : Pm) (s : State) : Out :=
  storeWord s (.free pm) (fun s f => [(.steer, portD s f .l)]) fun f s1 =>
    let l := portD s1 f .l
    if l.tag ≠ .handle then raiseAt s1 f ⟨.format, 0⟩
    else match ownRec s1 (tokBits l) with
      | .error e => raiseAt s1 f e
      | .ok _ => request s1 f (.free pm) (.free (tokBits l))

/-- RELS (R177). -/
def execRels (pm : Pm) (s : State) : Out :=
  storeWord s (.rels pm) (fun s f => [(.steer, portD s f .l), (.count, portD s f .r)]) fun f s1 =>
    let l := portD s1 f .l
    let r := portD s1 f .r
    if l.tag ≠ .handle ∨ !r.tag.isInt then raiseAt s1 f ⟨.format, 0⟩
    else match ownRec s1 (tokBits l) with
      | .error e => raiseAt s1 f e
      | .ok (_, x) =>
        if tokInt r < 1 then raiseAt s1 f ⟨.format, 0⟩
        else if (x.granules : Int) < tokInt r then raiseAt s1 f ⟨.handleBound, handleForm (tokBits l) 0⟩
        else request s1 f (.rels pm) (.rels (tokBits l) (tokInt r).toNat)

/-! ### Engine words (R179 to R192) -/

/-- A side of a copy: an address, a multiple of 16, or a handle of a live record with room for the bytes (R179). -/
def sideOf (t : Token) : Option Side :=
  if t.tag = .addr then some (.addr (tokBits t)) else if t.tag = .handle then some (.handle (tokBits t)) else none

def sideFault (s : State) : Side → Option Flt
  | .addr a => if a % 16 ≠ 0 then some ⟨.align, a⟩ else none
  | .handle h => match liveRec s h 0 with | .error e => some e | .ok _ => none

def sideShort (s : State) (need : Nat) : Side → Option Flt
  | .addr _ => none
  | .handle h => match liveRec s h 0 with
    | .ok (_, r) => if r.granules * 16 < need then some ⟨.handleBound, handleForm h 0⟩ else none
    | .error e => some e

def firstFlt : List (Option Flt) → Option Flt
  | [] => none
  | some f :: _ => some f
  | none :: t => firstFlt t

/-- CP (R179). -/
def execCp (t0 : Tgt) (ctx : BitVec 2) (rv : Bool) (ta : TA) (pm : Pm) (s : State) : Out :=
  storeWord s (.cp t0 ctx rv ta pm) (fun s f => [(.steer, portD s f .l), (.steer, portD s f .r), (.count, portD s f .x)])
    fun f s1 =>
    let x := portD s1 f .x
    match sideOf (portD s1 f .l), sideOf (portD s1 f .r) with
    | some a, some b =>
      if !x.tag.isInt ∨ tokInt x < 0 ∨ 4294967280 < tokInt x ∨ tokInt x % 16 ≠ 0 then raiseAt s1 f ⟨.format, 0⟩
      else
        let n := (tokInt x).toNat
        match firstFlt [sideFault s1 a, sideFault s1 b, sideShort s1 n a, sideShort s1 n b] with
        | some e => raiseAt s1 f e
        | none => request s1 f (.cp t0 ctx rv ta pm) (.engine 0 ctx.toNat (.cp a b n rv))
    | _, _ => raiseAt s1 f ⟨.format, 0⟩

/-- A word whose one operand is a handle, checked when the command starts (R181). -/
def gatherReq (s : State) (i : Instr) (ctx : BitVec 2) (scatter : Bool) : Out :=
  storeWord s i (fun s f => [(.steer, portD s f .l)]) fun f s1 =>
    let l := portD s1 f .l
    if l.tag ≠ .handle then raiseAt s1 f ⟨.format, 0⟩
    else request s1 f i (.engine 1 ctx.toNat (.gather scatter (tokBits l)))

/-- CPG (R181). -/
def execCpg (t0 : Tgt) (ctx : BitVec 2) (ta : TA) (pm : Pm) (s : State) : Out :=
  gatherReq s (.cpg t0 ctx ta pm) ctx false

/-- CPS (R181). -/
def execCps (t0 : Tgt) (ctx : BitVec 2) (ta : TA) (pm : Pm) (s : State) : Out :=
  gatherReq s (.cps t0 ctx ta pm) ctx true

/-- PSET (R183). -/
def execPset (t0 : Tgt) (reg : BitVec 3) (ta : TA) (pm : Pm) (s : State) : Out :=
  storeWord s (.pset t0 reg ta pm) (fun s f => [(.steer, portD s f .l)]) fun f s1 =>
    match sideOf (portD s1 f .l) with
    | some a =>
      (match firstFlt [sideFault s1 a, sideShort s1 112 a] with
        | some e => raiseAt s1 f e
        | none => request s1 f (.pset t0 reg ta pm) (.engine 1 0 (.pset a reg.toNat)))
    | none => raiseAt s1 f ⟨.format, 0⟩

/-- CPP (R184). -/
def execCpp (t0 : Tgt) (ctx : BitVec 2) (ta : TA) (pm : Pm) (s : State) : Out :=
  storeWord s (.cpp t0 ctx ta pm) (fun s f => [(.steer, portD s f .l), (.steer, portD s f .r), (.count, portD s f .x)])
    fun f s1 =>
    let l := portD s1 f .l
    let r := portD s1 f .r
    let x := portD s1 f .x
    let c := tokInt x
    let v := (c % 2 ^ 64).toNat
    let groups := bits v 0 16
    let esz := bits v 19 3
    if l.tag ≠ .handle ∨ r.tag ≠ .handle ∨ !x.tag.isInt ∨ groups = 0 ∨ 4 < esz ∨ bits v 22 42 ≠ 0 then
      raiseAt s1 f ⟨.format, 0⟩
    else
      let need := groups * 128 * 2 ^ esz
      let a := Side.handle (tokBits l)
      let b := Side.handle (tokBits r)
      match firstFlt [sideFault s1 a, sideFault s1 b, sideShort s1 need a, sideShort s1 need b] with
      | some e => raiseAt s1 f e
      | none => request s1 f (.cpp t0 ctx ta pm) (.engine 1 ctx.toNat
          (.cpp (tokBits l) (tokBits r) groups (bits v 16 3) esz))

/-- TWAIT (R185). -/
def execTwait (g : GF) (ctx : BitVec 2) (s : State) : Out :=
  fireWord s (.twait g ctx) (fun s f => [(.count, portD s f .l), (.steer, portD s f .r)]) fun f s1 =>
    let l := portD s1 f .l
    let r := portD s1 f .r
    if !(l.tag.isInt && r.tag.isInt) ∨ tokInt l < 0 ∨ !(selectorOk (tokInt r) ctx.toNat) then raiseAt s1 f ⟨.format, 0⟩
    else
      let n := (tokInt l).toNat
      let c := ctxAt s1 (ctxKey (cellPane s1 f) (tokInt r).toNat ctx.toNat)
      let send := fun (v : Nat) => fireSend s1 f (.twait g ctx) (mkTok .n8 v) (mkTok .n8 v) 0
      if n = 0 then send 0
      else if n ≤ c.done then send (tgetD c.statuses n 0)
      else waitFor s1 f (.timeline (ctxKey (cellPane s1 f) (tokInt r).toNat ctx.toNat) n)

/-- TWAIT_WAKE: DONE has reached the number waited for (R185). -/
def execTwaitWake (f : Firing) (s : State) : Out :=
  let due := s.wk.waits.any fun w => w.1 = f && (match w.2 with | .timeline k n => n ≤ (ctxAt s k).done | _ => false)
  .next (if due then wake s f else s)

/-- TREAD (R185). -/
def execTread (g : GF) (ctx : BitVec 2) (s : State) : Out :=
  fireWord s (.tread g ctx) (fun s f => [(.steer, portD s f .l)]) fun f s1 =>
    let l := portD s1 f .l
    if !l.tag.isInt ∨ !(selectorOk (tokInt l) ctx.toNat) then raiseAt s1 f ⟨.format, 0⟩
    else
      let c := ctxAt s1 (ctxKey (cellPane s1 f) (tokInt l).toNat ctx.toNat)
      fireSend s1 f (.tread g ctx) (mkTok .n64 c.done) (mkTok .n64 c.done) 0

/-- WLOAD (R188). -/
def execWload (t0 : Tgt) (k j : BitVec 2) (pm : Pm) (s : State) : Out :=
  storeWord s (.wload t0 k j pm) (fun s f => [(.steer, portD s f .l)]) fun f s1 =>
    let l := portD s1 f .l
    if l.tag ≠ .handle then raiseAt s1 f ⟨.format, 0⟩
    else request s1 f (.wload t0 k j pm) (.engine (k.toNat + 2) 0 (.wload k.toNat j.toNat (tokBits l)))

/-- WMMA (R190). -/
def execWmma (t0 : Tgt) (k j : BitVec 2) (sat : Bool) (pm : Pm) (s : State) : Out :=
  storeWord s (.wmma t0 k j sat pm) (fun s f => [(.steer, portD s f .l), (.steer, portD s f .r)]) fun f s1 =>
    let l := portD s1 f .l
    let r := portD s1 f .r
    if l.tag ≠ .handle ∨ r.tag ≠ .handle then raiseAt s1 f ⟨.format, 0⟩
    else request s1 f (.wmma t0 k j sat pm)
      (.engine (k.toNat + 2) 0 (.wmma k.toNat j.toNat sat (tokBits l) (tokBits r)))

/-- CVTT (R192). -/
def execCvtt (t0 : Tgt) (n : BitVec 4) (pm : Pm) (s : State) : Out :=
  storeWord s (.cvtt t0 n pm) (fun s f => [(.steer, portD s f .l), (.steer, portD s f .r)]) fun f s1 =>
    let l := portD s1 f .l
    let r := portD s1 f .r
    if l.tag ≠ .handle ∨ r.tag ≠ .handle then raiseAt s1 f ⟨.format, 0⟩
    else request s1 f (.cvtt t0 n pm) (.engine 5 0 (.cvtt (n.toNat + 1) (tokBits l) (tokBits r)))

/-! ### Futures (R195, R196, R256) -/

/-- The record of a FUTURE's payload: its index and the generation it names. -/
def futKey (p : Payload) : Nat := bits p.toNat 17 2 * 131072 + bits p.toNat 0 17
def futGen (p : Payload) : Nat := bits p.toNat 19 32
def futPayload (key gen : Nat) : Payload := BitVec.ofNat 64 (key % 131072 + key / 131072 * 2 ^ 17 + gen * 2 ^ 19)

/-- The record a FUTURE names; none once it has been freed. -/
def futAt (s : State) (p : Payload) : Option Fut :=
  match tget s.wk.futs (futKey p) with
  | some r => if r.state ≠ .free && r.gen = futGen p && bits p.toNat 51 13 = 0 then some r else none
  | none => none

/-- REF and DROP (R195). -/
def refReq (s : State) (i : Instr) (k : Payload → ReqKind) : Out :=
  storeWord s i (fun s f => [(.steer, portD s f .l)]) fun f s1 =>
    let l := portD s1 f .l
    if l.tag ≠ .future then raiseAt s1 f ⟨.format, 0⟩ else request s1 f i (k l.val)

/-- REF (R195). -/
def execRef (pm : Pm) (s : State) : Out := refReq s (.ref pm) .ref
/-- DROP (R195). -/
def execDrop (pm : Pm) (s : State) : Out := refReq s (.drop pm) .drop

/-- AWAIT (R196). -/
def execAwait (g : GF) (s : State) : Out :=
  fireWord s (.await g) (fun s f => [(.steer, portD s f .l)]) fun f s1 =>
    let l := portD s1 f .l
    if l.tag ≠ .future then raiseAt s1 f ⟨.format, 0⟩
    else match futAt s1 l.val with
      | none => raiseAt s1 f ⟨.futureStale, l.val.toNat⟩
      | some r => if r.state = .resolved then fireSend s1 f (.await g) r.result r.result 0 else waitFor s1 f (.future l.val)

/-- AWAIT_WAKE: the future has resolved, or its record is freed (R41, R196). -/
def execAwaitWake (f : Firing) (s : State) : Out :=
  let due := s.wk.waits.any fun w => w.1 = f && (match w.2 with
    | .future p => (match futAt s p with | some r => r.state = .resolved | none => true)
    | _ => false)
  .next (if due then wake s f else s)

/-! ### Levels of work (R198 to R200) -/

/-- LAUNCH (R198). -/
def execLaunch (t0 : Tgt) (ta : TA) (pm : Pm) (s : State) : Out :=
  storeWord s (.launch t0 ta pm) (fun s f => [(.steer, portD s f .l)]) fun f s1 =>
    let l := portD s1 f .l
    if l.tag ≠ .addr then raiseAt s1 f ⟨.format, 0⟩ else request s1 f (.launch t0 ta pm) (.launch (tokBits l))

/-- The record of a level of a job, by its id (R199, R200). -/
def levelAt (s : State) (vi job : Nat) (l : Level) (id : Nat) : Option Lvl :=
  match l with
  | .launch => (match tget s.jb.launches (launchKey vi id) with
      | some x => if x.vi = vi && x.job = job then some x.lvl else none
      | none => none)
  | .graph => if id < 65536 then (tget s.cf.graphs (graphKey vi job id)).map fun g => g.lvl else none
  | .phase => if id < 2 ^ 32 then (tget s.jb.phases (phaseKey vi job id)).map fun p => p.lvl else none
  | .job => (tget s.jb.jobs (jobKey vi job)).map fun j => j.lvl

/-- The id on L: for the job any integer does. A launch id and a phase are 32-bit numbers, which an I32 with its top bit set
names too, as LAUNCH returns them (R198, log 99). -/
def levelId (l : Level) (t : Token) : Option Nat :=
  if l = .job then some 0
  else if 0 ≤ tokInt t then some (tokInt t).toNat
  else if t.tag = .i32 ∧ l ≠ .graph then some (tokInt t + 2 ^ 32).toNat
  else none

/-- WAITC (R199). -/
def execWaitc (g : GF) (level : Level) (s : State) : Out :=
  fireWord s (.waitc g level) (fun s f => [(.count, portD s f .l)]) fun f s1 =>
    let l := portD s1 f .l
    let t := taskD s1 f.tid
    let send := fun (v : Nat) => fireSend s1 f (.waitc g level) (mkTok .n8 v) (mkTok .n8 v) 0
    if !l.tag.isInt then raiseAt s1 f ⟨.format, 0⟩
    else match levelId level l with
      | none => send 0
      | some id =>
        match levelAt s1 t.vi t.job level id with
        | none => send 0
        | some v => if v.done then send v.stateCode else waitFor s1 f (.level level id)

/-- WAITC_WAKE: the level has completed (R199). -/
def execWaitcWake (f : Firing) (s : State) : Out :=
  let t := taskD s f.tid
  let due := s.wk.waits.any fun w => w.1 = f && (match w.2 with
    | .level l id => (match levelAt s t.vi t.job l id with | some v => v.done | none => true)
    | _ => false)
  .next (if due then wake s f else s)

/-- CANCEL (R200): an id that no level has acts on nothing at commit. -/
def execCancel (level : Level) (pm : Pm) (s : State) : Out :=
  storeWord s (.cancel level pm) (fun s f => [(.count, portD s f .l)]) fun f s1 =>
    let l := portD s1 f .l
    if !l.tag.isInt then raiseAt s1 f ⟨.format, 0⟩
    else request s1 f (.cancel level pm) (.cancel level ((levelId level l).getD (2 ^ 64)))

/-! ### Time, ticks, growth, system registers, profiling -/

/-- TNOW (R201). -/
def execTnow (g : GF) (s : State) : Out :=
  fireWord s (.tnow g) (fun s f => [(.pass, portD s f .l)]) fun f s1 =>
    if tagTile (portD s1 f .l).tag then raiseAt s1 f ⟨.format, 0⟩
    else
      let v : Token := ⟨.time, dieTime s1 (paneDie (cellPane s1 f))⟩
      fireSend s1 f (.tnow g) v v 0

/-- Whether an interface holds the grant of a tick source (R213). -/
def tickGranted (s : State) (vi source : Nat) : Bool := bits (tgetD s.sr.viCtl vi 0).toNat (16 + source) 1 = 1

/-- TICKW (R202); its descriptor's address is translated as a load's is (R142). -/
def execTickw (t0 : Tgt) (ta : TA) (pm : Pm) (s : State) : Out :=
  storeWord s (.tickw t0 ta pm) (fun s f => [(.count, portD s f .l), (.steer, portD s f .r)]) fun f s1 =>
    let l := portD s1 f .l
    let r := portD s1 f .r
    if !l.tag.isInt ∨ r.tag ≠ .addr ∨ tokInt l < 0 ∨ 15 < tokInt l then raiseAt s1 f ⟨.format, 0⟩
    else if !tickGranted s1 (taskD s1 f.tid).vi (tokInt l).toNat then raiseAt s1 f ⟨.prot, 0⟩
    else if tokBits r % 32 ≠ 0 then raiseAt s1 f ⟨.align, tokBits r⟩
    else xlatWord s1 f (tokBits r) .read fun pa rdev _ s2 =>
      request s2 f (.tickw t0 ta pm) (.tickw (tokInt l).toNat (tokBits (portD s1 f .r)) pa rdev)

/-- A page that KVGROW may name: it lies in a range marked for growth, which its level-4 entry says, mapped or not (R204,
R254). -/
def growable (s : State) (vi va : Nat) : Bool :=
  match (walk s vi va).1 with
  | .leaf t => t.size = 65536 && eBit t.entry.toNat 6
  | .missing 4 _ e => eBit e 6
  | _ => false

/-- KVGROW (R204). -/
def execKvgrow (t0 : Tgt) (ta : TA) (pm : Pm) (s : State) : Out :=
  storeWord s (.kvgrow t0 ta pm) (fun s f => [(.steer, portD s f .l)]) fun f s1 =>
    let l := portD s1 f .l
    if l.tag ≠ .addr then raiseAt s1 f ⟨.format, 0⟩
    else if tokBits l % 65536 ≠ 0 then raiseAt s1 f ⟨.align, tokBits l⟩
    else if !growable s1 (taskD s1 f.tid).vi (tokBits l) then raiseAt s1 f ⟨.prot, tokBits l⟩
    else request s1 f (.kvgrow t0 ta pm) (.kvgrow (tokBits l))

/-- SYSWR (R206): the tag check; POISON and NULL null it (R170). -/
def execSyswr (imm : BitVec 12) (pm : Pm) (s : State) : Out :=
  storeWord s (.syswr imm pm) (fun s f => [(.quiet, portD s f .l)]) fun f s1 =>
    let l := portD s1 f .l
    if l.tag.isInt ∨ l.tag = .addr ∨ l.tag = .time ∨ l.tag = .pred then
      request s1 f (.syswr imm pm) (.syswr imm.toNat l.val)
    else raiseAt s1 f ⟨.format, 0⟩

/-- PROF (R207). -/
def execProf (imm : BitVec 12) (pm : Pm) (s : State) : Out :=
  storeWord s (.prof imm pm) (fun s f => [(.quiet, portD s f .l)]) fun f s1 =>
    let l := portD s1 f .l
    if l.tag.isInt then request s1 f (.prof imm pm) (.prof imm.toNat (l.val.toNat % 2 ^ 32))
    else raiseAt s1 f ⟨.format, 0⟩

end Sys2Proof.Machine
end

