-- ==== Sys2Proof/Machine/Tasks.lean ====
section
/-! DEFINITION. The start of tasks by the dealer and by SPAWN, the futures' homes, the colours (R32, R33, R38 to R43, R193,
R194, R222, R242, R250, R256). -/

namespace Sys2Proof.Machine

/-! ### What counts in a launch (R35, R260, log 22) -/

/-- The launch in which a message counts: effects, SYSWRs, changes of REF and DROP, descriptors of TICKW. -/
def launchOfMsg : Instr → Option Nat
  | .globalWritePerform m => some m.launch
  | .atomicPerform m => some m.launch
  | .refChangeArrive m => m.origin.map fun o => o.launch
  | .tickSetWrite (.install m) => some m.launch
  | .tickSetWrite (.reg w) => w.launch
  | .streamSetWrite w | .viCtlWrite w | .badnodeWrite w | .triggerWrite w | .ovpWrite w | .sysregWrite w => w.launch
  | _ => none

/-- Commands that DONE has not reached (R171, R260). -/
def cmdsOf (s : State) (p : Cmd → Bool) : Nat := (s.en.ctxs.map fun e => (e.2.queue.filter p).length).sum

/-- The completion counter of a launch: its live tasks and those being started, its commands, its SYSWRs and effects under
way, its KVGROWs, the units that other devices hold (R35, R260). -/
def launchUnits (s : State) (key : Nat) : Nat :=
  (tgetD s.jb.launches key {}).remote + (s.wk.tasks.filter fun e => e.2.launch = key).length
    + (s.wk.births.filter fun b => b.launch = key).length + cmdsOf s (fun c => c.origin.launch = key)
    + (s.net.filter fun m => launchOfMsg m = some key).length + (s.fw.mailbox.filter fun e => e.2.launch = key).length
    + (s.fw.queue.map fun e => (e.2.filter fun m => m.launch = key).length).sum

/-- Whether a launch still holds a unit. -/
def launchBusy (s : State) (key : Nat) : Bool := launchUnits s key ≠ 0

/-- A sender of `n` units waits: the counter has 32 bits (R260). -/
def unitsFull (s : State) (key n : Nat) : Bool := n ≠ 0 && 2 ^ 32 - 1 < launchUnits s key + n

/-! ### Colours and task records -/

/-- The colour at the head of a die's pool (R250). -/
def takeColour (s : State) (die : Nat) : Option (Nat × State) :=
  let pl := tgetD s.wk.pools die {}
  let put := fun (p : Pool) => { s with wk := { s.wk with pools := tput s.wk.pools die p } }
  if pl.next < Config.colours then some (pl.next, put { pl with next := pl.next + 1 })
  else match pl.returned with
    | c :: t => some (c, put { pl with returned := t })
    | [] => none

/-- The lowest free record from `n` on; the table lists the die's records in order. -/
def freeFrom (die : Nat) : Nat → Table Fut → Nat
  | n, [] => n
  | n, (k, r) :: t =>
    if k / 131072 ≠ die ∨ r.state = .free ∨ k % 131072 < n then freeFrom die n t
    else if k % 131072 = n then freeFrom die (n + 1) t
    else n

/-- A free task record of a die (R256, log 9). -/
def takeFut (s : State) (die : Nat) : Option Nat :=
  let n := freeFrom die 0 s.wk.futs
  if n < 131072 then some (die * 131072 + n) else none

/-- A record is created, RUNNING with count 1 (R38, R256). -/
def putFut (s : State) (key colour pane launch job : Nat) : State :=
  let r := tgetD s.wk.futs key {}
  let r' : Fut := { state := .running, count := 1, gen := r.gen, colour := colour, pane := pane, launch := launch, job := job }
  { s with wk := { s.wk with futs := tput s.wk.futs key r' } }

/-! ### Waiting for a colour or a record (R193, R250, R256) -/

/-- The graph for which a request in line waits. -/
def queuedGraph (s : State) (x : Queued) : Nat :=
  match x.who with
  | .spawn f => (taskD s f.tid).graph
  | .deal k => (tgetD s.jb.launches k {}).graph
  | .remote n => match s.wk.remotes.find? fun y => y.num = n with
    | some y => (tgetD s.jb.launches y.r.launch {}).graph
    | none => noGraph
  | .word _ => noGraph

/-- A request in line that has not been withdrawn. -/
def queuedStands (s : State) (x : Queued) : Bool :=
  match x.who with
  | .spawn f => s.wk.births.any fun b => b.f = f && b.colour.isNone && paneDie b.pane = x.die
  | .deal k =>
    (match (tgetD s.jb.launches k {}).hand with
      | some c => c.pane.map paneDie = some x.die && (if x.record then c.granted.isSome else c.colour.isNone)
      | none => false)
  | .remote n => s.wk.remotes.any fun y => y.num = n && y.colour.isNone && y.pane.map paneDie = some x.die
  | .word _ => false

/-- A request in line that others wait behind: one whose graph a shutter holds keeps its age, and is passed over meanwhile. -/
def queuedLive (s : State) (x : Queued) : Bool := queuedStands s x && !shuttered s (queuedGraph s x)

/-- Within a cycle the dealer comes before SPAWN. -/
def lineRank : Asker → Nat
  | .deal _ => 0
  | _ => 1

/-- No request in line for the same thing stands before this one; one that is not in line stands at its end. -/
def mayTake (s : State) (die : Nat) (record : Bool) (who : Asker) : Bool :=
  let line := s.wk.line.filter fun x => x.die = die && x.record = record && queuedLive s x
  let age := match line.find? fun x => x.who = who with | some x => x.age | none => s.clk.cycle
  let ahead := line.takeWhile fun x => x.who ≠ who
  line.all fun x => x.who = who || !(x.age < age || (x.age = age && (lineRank x.who < lineRank who
    || (lineRank x.who = lineRank who && ahead.contains x))))

/-- A request joins the line, where it is not in it. -/
def joinLine (s : State) (die : Nat) (record : Bool) (who : Asker) : State :=
  if s.wk.line.any fun x => x.die = die && x.record = record && x.who = who then s
  else { s with wk := { s.wk with line := s.wk.line.filter (queuedStands s) ++ [⟨die, record, who, s.clk.cycle⟩] } }

/-- A request has what it waited for; those behind it look again. -/
def leaveLine (s : State) (who : Asker) : State :=
  if s.wk.line.any fun x => x.who = who then
    wakeColour { s with wk := { s.wk with line := s.wk.line.filter fun x => x.who ≠ who } }
  else s

/-! ### Starting a task (R33, R194, R208, R221) -/

/-- The granules of a carve-out (R221). -/
def carveSize (l : Launch) : Nat := max 128 l.carve

/-- What a new task starts with. -/
structure Start where
  pane   : Nat
  colour : Nat
  launch : Nat
  fut    : Nat
  carve  : Nat
  regs   : Table Token
  wait   : List After
  spawned : Bool
  deriving DecidableEq, Repr

/-- The task's state at its start: its registers, and g60 and g61 (R208). -/
def startTask (s : State) (b : Start) : State :=
  let l := tgetD s.jb.launches b.launch {}
  let q := contextOf s b.pane l.graph
  let stack := twinOf s b.carve
  let t : Task :=
    { die := paneDie b.pane, colour := b.colour, pane := b.pane, q := q, graph := l.graph, launch := b.launch, vi := l.vi,
      job := l.job, carve := b.carve, stack := stack, granules := carveSize l,
      fut := b.fut, order := s.wk.order, wait := b.wait, spawned := b.spawned,
      regs := tput (tput b.regs 60 (mkTok .handle (handleOf stack))) 61 (mkTok .n32 0) }
  let tid := paneDie b.pane * 65536 + b.colour
  storeRegs (setTask { s with wk := { s.wk with order := s.wk.order + 1 } } tid t) tid

/-- The activations of an entry block with iterations 0 to c − 1 (R33); the last may go on by BR.NEXT. -/
def entryRun (tid entry c : Nat) : List Instr :=
  (List.range c).map fun k => .blockActivate ⟨tid, k, entry, k + 1 = c, k = 0, k ≠ 0⟩

/-! ### The dealer (R32, R242) -/

def liveOn (s : State) (p : Task → Bool) : Nat := (s.wk.tasks.filter fun e => p e.2).length

/-- The pane with the fewest, lowest first; `n` is the measure. -/
def fewest (n : Nat → Nat) : List Nat → Option Nat
  | [] => none
  | p :: t => match fewest n t with
    | none => some p
    | some r => if n r < n p ∨ (n r = n p ∧ r < p) then some r else some p

/-- The size of the next chunk (R32). -/
def chunkSize (s : State) (l : Launch) : Nat :=
  let g := tgetD s.cf.graphs l.graph {}
  let re := match blockAt g l.entry with | some b => hdrRe b.header | none => false
  let e := (regionPanes g).length
  let remaining := l.reccount - l.dealt
  if re then min (max 1 l.chunkmax) (max 1 ((remaining + 2 * e - 1) / (2 * e))) else 1

/-- A level that a CANCEL has reached deals and spawns no more (R37). -/
def levelStopped (s : State) (l : Launch) : Bool :=
  l.lvl.cancelled || (tgetD s.cf.graphs l.graph {}).lvl.cancelled
    || (match tget s.jb.phases (phaseKey l.vi l.job l.phase) with | some p => p.lvl.cancelled | none => false)
    || (match tget s.jb.jobs (jobKey l.vi l.job) with | some j => j.lvl.cancelled | none => false)

/-- The dealer may act: its graph is armed, its phase has begun, no shutter holds the region, nothing stopped it. -/
def dealing (s : State) (l : Launch) : Bool :=
  l.ready && !l.lvl.done && !l.refused && !l.stopDeal && !levelStopped s l && !shuttered s l.graph
    && (tgetD s.cf.graphs l.graph {}).armed
    && (match tget s.jb.phases (phaseKey l.vi l.job l.phase) with | some p => p.begun | none => false)

/-- The chunk in hand, formed in record order where there is none. -/
def handOf (s : State) (l : Launch) : Option (Chunk × Launch) :=
  match l.hand with
  | some c => some (c, l)
  | none =>
    if l.dealt < l.reccount then
      let c := chunkSize s l
      some (⟨l.dealt, c, none, none, none⟩, { l with dealt := l.dealt + c })
    else none

/-- Steps 1 to 4 of R242: a pane, a colour, the request of a carve-out. -/
def dealAsk (s : State) (key : Nat) (l : Launch) (c : Chunk) : State :=
  let put := fun (st : State) (x : Chunk) => modLaunch st key fun _ => { l with hand := some x }
  let n := fun (p : Nat) => liveOn s fun t => t.launch = key && t.pane = p
  match (match c.pane with | some p => some p | none => fewest n ((boundPanes s l.graph).filter fun p => n p < 2)) with
  | none => put s c
  | some p =>
    match c.colour with
    | some _ => put s { c with pane := some p }
    | none =>
      match (if mayTake s (paneDie p) false (.deal key) then takeColour s (paneDie p) else none) with
      | none => joinLine (put s { c with pane := some p }) (paneDie p) false (.deal key)
      | some (col, s1) =>
        post (leaveLine (put s1 { c with pane := some p, colour := some col }) (.deal key))
          [.allocRequestArrive ⟨.deal key, poolKey p, carveSize l, 0, 16, 0, 0, col, s.clk.cycle, 0⟩]

/-- Step 5: the task starts (R33). -/
def dealStart (s : State) (key : Nat) (l : Launch) (c : Chunk) (p col carve : Nat) : State :=
  match (if mayTake s (paneDie p) true (.deal key) then takeFut s (paneDie p) else none) with
  | none => joinLine s (paneDie p) true (.deal key)
  | some fut =>
    let s1 := putFut (leaveLine s (.deal key)) fut col p l.id (jobKey l.vi l.job)
    let base := (l.records + c.first * l.recsize) % 2 ^ 52
    let regs := tput (tput (tput (tput [] 56 (mkTok .addr base)) 57 (mkTok .i32 c.count)) 58 (mkTok .i32 l.id)) 59
      (mkTok .addr l.card)
    let s2 := startTask s1 ⟨p, col, key, fut, carve, regs, [], false⟩
    post (modLaunch s2 key fun x => { x with hand := none }) (entryRun (paneDie p * 65536 + col) l.entry c.count)

/-- DEAL_CHUNK. -/
def dealChunk (s : State) (key : Nat) : State :=
  match tget s.jb.launches key with
  | none => s
  | some l =>
    if !dealing s l || unitsFull s key 1 then s
    else match handOf s l with
      | none => s
      | some (c, l') =>
        match c.pane, c.colour, c.granted with
        | some p, some col, some carve => dealStart s key l' c p col carve
        | _, _, _ => dealAsk s key l' c

def execDealChunk (launch : Nat) (s : State) : Out := .next (dealChunk s launch)

/-! ### Changes and EXITs at a future's home (R39, R41, R42, R195, R256) -/

def modFut (s : State) (k : Nat) (f : Fut → Fut) : State := { s with wk := { s.wk with futs := tmod s.wk.futs k f } }

/-- An EXIT commit of the future is on its way (R42). -/
def exitUnderWay (s : State) (p : Payload) : Bool :=
  s.net.any fun m => match m with | .futureExitArrive e => e.fut = p | _ => false

/-- The count has reached zero (R39). -/
def countZero (s : State) (p : Payload) (r : Fut) : State :=
  let k := futKey p
  match r.state with
  | .resolved => freeFut s k
  | .running =>
    if exitUnderWay s p then modFut s k fun x => { x with count := 0 }
    else reclaimTask s (k / 131072 * 65536 + r.colour)
  | _ => s

/-- The record of a future that still counts: one whose count has reached zero while its EXIT is on its way is as good as
freed (R39, R42). -/
def liveFut (s : State) (p : Payload) : Option Fut :=
  (futAt s p).bind fun r => if r.count = 0 && !r.stuck then none else some r

/-- REF_CHANGE_ARRIVE: a saturated count stays (R42); a late REF or DROP is recorded (R195). -/
def refChange (s : State) (m : RefMsg) : State :=
  let k := futKey m.fut
  match liveFut s m.fut with
  | none =>
    match m.origin with
    | some o => recordGoOn s o ⟨.futureStale, m.fut.toNat⟩
    | none => s
  | some r =>
    if r.stuck then s
    else if m.up then
      (if r.count = 2 ^ 24 - 1 then modFut s k fun x => { x with stuck := true }
       else modFut s k fun x => { x with count := x.count + 1 })
    else if r.count ≤ 1 then countZero s m.fut r
    else modFut s k fun x => { x with count := x.count - 1 }

def execRefChangeArrive (m : RefMsg) (s : State) : Out := .next (refChange s m)

/-! ### SPAWN (R193, R194) -/

/-- The panes that a placement admits: those bound to the graph, on the spawner's die where SUB is 001. -/
def spawnPanes (s : State) (graph : Nat) (place : SpawnPlace) (die : Nat) : List Nat :=
  match place with
  | .die => (boundPanes s graph).filter fun p => paneDie p = die
  | _ => boundPanes s graph

/-- The pane with the fewest live tasks of the graph, a child counting from its record's creation (R344); ties go to the own die,
then the lowest die, then the lowest pane. -/
def spawnPane (s : State) (graph : Nat) (place : SpawnPlace) (die : Nat) : Option Nat :=
  let n := fun (p : Nat) => liveOn s (fun t => t.graph = graph && t.pane = p)
    + (s.wk.births.filter fun b => b.fut.isSome && b.pane = p && (tgetD s.jb.launches b.launch {}).graph = graph).length
    + (s.wk.remotes.filter fun x => x.fut.isSome && x.pane = some p && (tgetD s.jb.launches x.r.launch {}).graph = graph).length
  let own := fewest n ((spawnPanes s graph place die).filter fun p => paneDie p = die)
  match own, fewest n (spawnPanes s graph place die) with
  | some a, some b => if n a ≤ n b then some a else some b
  | none, b => b
  | a, none => a

def birthOf (s : State) (f : Firing) : Option Birth := s.wk.births.find? fun b => b.f = f
def setBirth (s : State) (b : Birth) : State :=
  { s with wk := { s.wk with births := (s.wk.births.filter fun x => x.f ≠ b.f) ++ [b] } }

/-- The child starts, and its FUTURE is sent; the spawning block holds the one reference (R38). The child's accesses follow
the effects of the spawner's earlier blocks, older iterations that have yet to commit among them (R274). -/
def spawnStart (s : State) (i : Instr) (b : Birth) (col fut carve : Nat) : State :=
  let t := taskD s b.f.tid
  let l := tgetD s.jb.launches b.launch {}
  let regs := tputD nullTok (tput (tputD nullTok [] 0 (portD s b.f .r)) 58 (mkTok .i32 l.id)) 59
    (regRead s b.f.tid 59 (regOf t 59))
  let sr := regCheck s b.f.tid 59
  let s1 := { sr with wk := { sr.wk with births := sr.wk.births.filter fun x => x.f ≠ b.f } }
  let older := ((lowerInsts s b.f.tid b.f.iter).map fun y => y.iter) ++ pendingBelow s b.f.tid b.f.iter
  let point : After := ⟨b.f.tid, t.order, t.seq, older⟩
  let s2 := startTask { s1 with wk := { s1.wk with rels := s1.wk.rels ++ [point] } }
    ⟨b.pane, col, b.launch, fut, carve, regs, t.wait ++ [point], true⟩
  let tok : Token := ⟨.future, futPayload fut (tgetD s.wk.futs fut {}).gen⟩
  let s3 := modInst s2 b.f.tid b.f.iter fun x => { x with refs := x.refs ++ [tok.val] }
  fireSend (openWaits (post s3 (entryRun (paneDie b.pane * 65536 + col) b.entry 1))) b.f i tok tok 0

/-- The steps of a SPAWN that has been counted: a colour and a record, the carve-out, the start. -/
def spawnGo (s : State) (i : Instr) (b : Birth) : State :=
  match b.colour, b.fut, b.granted with
  | some col, some fut, some carve => spawnStart s i b col fut carve
  | some _, some _, none => waitFor s b.f .alloc
  | _, _, _ =>
    let die := paneDie b.pane
    let who : Asker := .spawn b.f
    let colour := if mayTake s die false who then takeColour s die else none
    let fut := if mayTake s die true who then takeFut s die else none
    match colour, fut with
    | some (col, s1), some fut =>
      let l := tgetD s.jb.launches b.launch {}
      let s2 := putFut (leaveLine s1 who) fut col b.pane l.id (jobKey l.vi l.job)
      let s3 := setBirth s2 { b with colour := some col, fut := some fut }
      post (waitFor s3 b.f .alloc)
        [.allocRequestArrive ⟨.spawn b.f, poolKey b.pane, carveSize l, 0, 17, b.f.slot, 0, col, s.clk.cycle, 0⟩]
    | _, _ =>
      let s1 := if colour.isNone then joinLine s die false who else s
      waitFor (if fut.isNone then joinLine s1 die true who else s1) b.f .colour

/-- Changes of futures that a task has sent have yet to arrive; a later one follows them (R42). -/
def changesAhead (s : State) (tid : Nat) : Bool :=
  s.net.any fun m => match m with | .refChangeArrive k => k.src = some tid | _ => false

/-- SPAWN (R193). A FUTURE argument is counted at its home before the message of the SPAWN leaves, behind the changes that its
task has sent before (R42). -/
def execSpawn (g : GF) (place : SpawnPlace) (s : State) : Out :=
  fireWord s (.spawn g place) (fun s f => [(.steer, portD s f .l), (.steer, portD s f .r)]) fun f s1 =>
    let l := portD s1 f .l
    let r := portD s1 f .r
    let t := taskD s1 f.tid
    if l.tag ≠ .addr ∨ tagTile r.tag then raiseAt s1 f ⟨.format, 0⟩
    else if tokBits l % 64 ≠ 0 then raiseAt s1 f ⟨.align, tokBits l⟩
    else match birthOf s1 f with
      | some b => if shuttered s1 t.graph then waitFor s1 f .colour else spawnGo s1 (.spawn g place) b
      | none =>
        if shuttered s1 t.graph then waitFor s1 f .colour
        else match spawnPane s1 t.graph place t.die with
        | none => waitFor s1 f .colour
        | some p =>
          if unitsFull s1 t.launch 1 || (r.tag = .future && changesAhead s1 f.tid) then waitFor s1 f .order
          else
          let b : Birth := { f := f, pane := p, launch := t.launch, entry := tokBits l }
          let s2 := setBirth s1 b
          let s3 := if r.tag = .future then refChange s2 ⟨r.val, true, some f.tid, none⟩ else s2
          spawnGo s3 (.spawn g place) b

/-! ### EXITs at a future's home (R41, R42) -/

/-- FUTURE_EXIT_ARRIVE: the task resolves once its effects have performed at DEVICE scope (R41, R119, R274); a dealt task's
reference is given up with it (R256). A saturated future of a job that has completed is let go (R42). -/
def futureExit (s : State) (m : ExitMsg) : State :=
  if (s.net.any fun x => match effectOf x with | some (t, _) => t = m.tid | none => false)
      || (s.gm.seen.any fun e => e.tid = m.tid) then
    repost s (.futureExitArrive m)
  else match futAt s m.fut with
    | none => s
    | some r =>
      if m.dealt || (r.count = 0 && !r.stuck) || (r.stuck && (tget s.jb.jobs r.job).isNone) then freeFut s (futKey m.fut)
      else modFut s (futKey m.fut) fun x => { x with state := .resolved, result := m.tok }

def execFutureExitArrive (m : ExitMsg) (s : State) : Out := .next (futureExit s m)

/-! ### Colour drains (R43, R250) -/

/-- A message or token that still carries a task's colour. -/
def carriesColour (tid : Nat) : Instr → Bool
  | .tokenArrive m => m.tid = tid
  | .blockActivate a => a.tid = tid
  | .homeRead m => m.f.tid = tid
  | .globalWritePerform m => m.tid = tid
  | .atomicPerform m => m.tid = tid
  | .returnValueArrive m => m.tid = tid
  | .futureExitArrive m => m.tid = tid
  | .refChangeArrive m => m.src = some tid
  | _ => false

/-- COLOUR_DRAIN_DONE: one of the first 64 cooling colours, of which no token remains, goes back to the pool. -/
def colourDrain (s : State) (die colour : Nat) : State :=
  let tid := die * 65536 + colour
  let cool := tgetD s.wk.cooling die []
  if (cool.take 64).contains colour && !(s.net.any (carriesColour tid)) && !(s.wk.toks.any fun e => e.msg.tid = tid)
      && !(s.gm.seen.any fun e => e.tid = tid) then
    let s1 := { s with wk := { s.wk with
      cooling := tputD [] s.wk.cooling die (lerase cool colour)
      reds := s.wk.reds.filter fun r => r.tid ≠ tid } }
    giveColour s1 die colour
  else s

def execColourDrainDone (die colour : Nat) (s : State) : Out := .next (colourDrain s die colour)

end Sys2Proof.Machine
end

