-- ==== Sys2Proof/Machine/AllocEvents.lean ====
section
/-! DEFINITION. The events of the allocator: arrivals, withdrawals of carve-outs that can never fit, QUIET spills, the
deadlock dump, releases (R178, R222, R231 to R239, R248). -/

namespace Sys2Proof.Machine

/-! ### Arrival (R231, R233) -/

/-- The order of two requests of one arena (R231): age, then every cell's requests by cell, slot, iteration, colour, then
those of the dealer and of SPAWN. -/
def reqBefore (a b : AllocReq) : Bool := a.age < b.age || (a.age = b.age && arrivalRank a ≤ arrivalRank b)

def insAsk (x : AllocReq) : List AllocReq → List AllocReq
  | [] => [x]
  | y :: t => if reqBefore y x then y :: insAsk x t else x :: y :: t

/-- A SPAWN of another device gives back what it took, and goes: the unit that a count message sent ahead of it too, and the
refusal goes back (R35, R37, R222, log 75). -/
def remoteDrop (s : State) (x : Remote) : State :=
  let s0 := { s with wk := { s.wk with remotes := s.wk.remotes.filter (fun y => y.num ≠ x.num),
                                       line := s.wk.line.filter fun q => q.who ≠ .remote x.num } }
  let s1 := withdraw s0 fun r => decide (r.asker = .remote x.num)
  let s2 := match x.granted with | some k => releaseRec (releaseRec s1 (twinOf s1 k)) k | none => s1
  let s3 := match x.fut with | some k => freeFut s2 k | none => s2
  let s4 := match x.pane, x.colour with | some p, some c => giveColour s3 (paneDie p) c | _, _ => wakeColour s3
  let s5 := modLaunch s4 x.r.launch fun l => { l with remote := l.remote - 1 }
  { s5 with bt := { s5.bt with replies := s5.bt.replies ++ [.remote x.r.tag [] true 0] } }

/-- A carve-out that can never fit is withdrawn (R222): a chunk with a record for its level, a SPAWN with STACK_LIMIT, a SPAWN of
another device with a refusal. -/
def withdrawCarve (s : State) (r : AllocReq) : State :=
  match r.asker with
  | .word _ => s
  | .remote n => (match s.wk.remotes.find? fun x => x.num = n with | some x => remoteDrop s x | none => s)
  | .spawn f => raiseAt s f ⟨.stackLimit, r.size⟩
  | .deal k =>
    match tget s.jb.launches k with
    | none => s
    | some l =>
      let pane := r.arena / 128
      let s1 := match l.hand with
        | some c => (match c.colour with | some col => giveColour s (paneDie pane) col | none => s)
        | none => s
      let s2 := modLaunch s1 k fun x => { x with hand := none, stopDeal := true }
      faultLaunch (writeRecord s2 l.vi ⟨.stackLimit, r.size⟩ ⟨255, r.colour, 0, paneDie pane, pane % 192, l.entry⟩) k

/-- ALLOC_REQUEST_ARRIVE. A request that comes before one handled in this cycle is one of a later cycle. -/
def allocArrive (s : State) (r : AllocReq) : State :=
  let r' := { r with age := s.clk.cycle }
  let a := arenaAt s r.arena
  if !inTurn s r.arena (arrivalRank r) then repost s (.allocRequestArrive r)
  else if a.pool && poolSize s a.pane < r.size then withdrawCarve s r'
  else grantAttempt (noteTurn (setArena s r.arena { a with waiting := insAsk r' a.waiting }) r.arena (arrivalRank r)) r.arena

def execAllocRequestArrive (r : AllocReq) (s : State) : Out := .next (allocArrive s r)

/-- Waiting carve-outs that a bind has left without room (R222, R352). -/
def withdrawUnfit (s : State) (pane : Nat) : State :=
  let a := arenaAt s (poolKey pane)
  let bad := a.waiting.filter fun r => poolSize s pane < r.size
  bad.foldl (fun st r => withdrawCarve (withdraw st fun x => x = r) r) s

/-! ### QUIET spill (R237 to R239) -/

/-- Cycles since the arrival of the oldest request or the last change, whichever is later. -/
def quietTime (s : State) (a : Arena) : Nat :=
  match a.waiting with
  | o :: _ => s.clk.cycle - max o.age a.quietAt
  | [] => 0

/-- A record with a reservation pending (R160). -/
def recReserved (s : State) (key : Nat) (r : Rec) : Bool :=
  (List.range r.granules).any fun j => locRsv s (recGranule s key r j)

/-- Whether a record may be spilled. Of a task's two records the whole carve-out is the one considered (R221). -/
def spillable (s : State) (k key : Nat) (r : Rec) : Bool :=
  r.live && r.akey = k && key / 4096 = k / 128 && !r.spilled && !engineRuns s key && !recReserved s key r
    && (!r.pool || (wholeCarve s key && !engineRuns s (twinOf s key)
      && !recReserved s (twinOf s key) (tgetD s.al.recs (twinOf s key) {})))

/-- The most recently granted of a list of records. -/
def latest : List (Nat × Rec) → Option (Nat × Rec)
  | [] => none
  | x :: t => match latest t with
    | none => some x
    | some y => if x.2.gseq < y.2.gseq then some y else some x

/-- Granules that a spill of a record takes (R223). -/
def spillNeed (r : Rec) : Nat := r.granules + (r.granules + 15) / 16

/-- Extents of an arena's overflow area in use by spilled records, in granules from its base. -/
def overflowHeld (s : State) (k base : Nat) : List (Nat × Nat) :=
  s.al.recs.flatMap fun e =>
    if e.2.live && e.2.akey = k && e.2.spilled && base ≤ e.2.ovf * 16 then [(e.2.ovf - base / 16, copyHeld e.2)] else []

/-- The place of a spill copy, by lowest-address first fit: in its arena's overflow area (R48), of a carve-out in the OVP area
of its pane and context (R214). -/
def spillPlace (s : State) (k key : Nat) (r : Rec) : Option Nat :=
  let a := arenaAt s k
  let need := spillNeed r
  if r.pool then (ovpPlace s (key / 4096) r.ctx need).map fun va => va / 16
  else ((holesFrom 0 (a.ovSize / 16) (sortExtents (overflowHeld s k a.ovBase))).find? fun h => need ≤ h.2).map
    fun h => a.ovBase / 16 + h.1

/-- A continuation record (R248). -/
def contBits (kind a b c : Nat) : Nat :=
  kind % 256 * 2 ^ 8 + a % 2 ^ 64 * 2 ^ 64 + b % 2 ^ 64 * 2 ^ 128 + c % 2 ^ 64 * 2 ^ 192

def insRec (x : Nat × Rec) : List (Nat × Rec) → List (Nat × Rec)
  | [] => [x]
  | y :: t => if y.2.gseq ≤ x.2.gseq then y :: insRec x t else x :: y :: t

/-- The dump of an arena (R248). -/
def arenaDump (s : State) (k : Nat) : List Nat :=
  let a := arenaAt s k
  let size := if a.pool then poolSize s a.pane else a.size
  let recs := (s.al.recs.filter fun e => e.2.live && e.2.akey = k && e.1 / 4096 = a.pane).foldl (fun acc e => insRec e acc) []
  let ext := fun (b n : Nat) => if n = 0 then 0 else (b - a.base) % 2 ^ 32 + n * 2 ^ 32
  [contBits 1 (a.base * 16) (size * 16) (a.limit % 16 + a.quiet % 65536 * 16 + b1 a.reserve * 2 ^ 20)]
    ++ (holes s k).map (fun h => contBits 2 (h.1 - a.base) h.2 0)
    ++ recs.map (fun e => contBits 3 (ext e.2.base1 e.2.len1) (ext e.2.base2 e.2.len2)
        (handleOf e.1 + b1 e.2.spilled * 2 ^ 32))
    ++ a.waiting.map (fun r => contBits 4 (r.size % 65536 + r.overtakes % 65536 * 2 ^ 16)
        (r.colour % 65536 + (match r.asker with | .word f | .spawn f => f.iter | .deal _ | .remote _ => 0) * 2 ^ 16)
        (s.clk.cycle - r.age))

/-- ALLOC_DEADLOCK (R238): the record with its dump as one group, then the task of the oldest request stops. -/
def allocDeadlock (s : State) (k : Nat) (o : AllocReq) : State :=
  let a := arenaAt s k
  let p : Place4 := match o.asker with
    | .word f | .spawn f => placeOf s (taskD s f.tid) ((instAt s f.tid f.iter).getD {}) f.slot
    | .deal _ | .remote _ => ⟨255, o.colour, 0, paneDie a.pane, a.pane % 192, 0⟩
  let launch := match o.asker with
    | .word f | .spawn f => (taskD s f.tid).launch
    | .deal l => l
    | .remote n => match s.wk.remotes.find? fun x => x.num = n with | some x => x.r.launch | none => noGraph
  let vi := (tgetD s.jb.launches launch {}).vi
  let rec0 := recordBits Code.allocDeadlock.num p.slot p.colour p.iter p.die p.pane p.block (a.base * 16) (dieTime s p.die).toNat
  let s1 := ringWrite (countFaultInfo s p.die Code.allocDeadlock.num) vi (rec0 :: arenaDump s k)
  let s2 := faultLaunch s1 launch
  let s3 := setArena s2 k { arenaAt s2 k with quietAt := s.clk.cycle }
  match o.asker with
  | .word f | .spawn f => discardAll s3 f.tid true
  | .deal _ | .remote _ => s3

/-- The task whose request is the oldest can take no fault: the marker of a shutter has reached its word (R303). -/
def askerLate (s : State) (r : AllocReq) : Bool := match r.asker with | .word f | .spawn f => fireMarked s f | .deal _ | .remote _ => false

/-- QUIET_SPILL. -/
def quietSpill (s : State) (k : Nat) : State :=
  let a := arenaAt s k
  match a.waiting with
  | [] => s
  | o :: _ =>
    if a.spilling.isSome || quietTime s a < a.quiet then s
    else match latest (s.al.recs.filter fun e => spillable s k e.1 e.2) with
      | none => setArena s k { a with quietAt := s.clk.cycle }
      | some (key, r) =>
        match spillPlace s k key r with
        | none => if askerLate s o then s else allocDeadlock s k o
        | some p => setArena s k { a with spilling := some (key, p) }

def execQuietSpill (arena : Nat) (s : State) : Out := .next (quietSpill s arena)

/-- Data and state bytes of a record, copied to its place in the overflow area (R223). -/
def spillCopy (s : State) (key : Nat) (r : Rec) (p : Nat) : State :=
  (List.range r.granules).foldl (fun a j =>
    let l := recGranule s key r j
    let vi := recVi s r
    let a0 := readCheck a l
    let a1 := devPutAll a0 vi (p * 16 + 16 * j) (locBytes a0 0 16 l)
    devPut a1 vi (p * 16 + 16 * r.granules + j) (BitVec.ofNat 8 (locState a0 l))) s

/-- Granules that become free again are as an unspilled release leaves them. -/
def clearAfterSpill (s : State) (key : Nat) (r : Rec) : State :=
  (List.range r.granules).foldl (fun a j => match recGranule s key r j with
    | .here g => { a with ls := { setGst a.ls g 0 with gtrack := tputD 0 a.ls.gtrack g 0 } }
    | .copy _ _ _ => a) s

/-- SPILL_COMPLETE: the record resolves to the copy, and its granules are free (R233, R237). -/
def spillComplete (s : State) (k : Nat) : State :=
  let a := arenaAt s k
  match a.spilling with
  | none => s
  | some (key, p) =>
    if !inTurn s k spillRank then s
    else match tget s.al.recs key with
    | none => setArena s k { a with spilling := none }
    | some r =>
      let s1 := clearAfterSpill (spillCopy s key r p) key r
      let s2 := setRec s1 key { r with spilled := true, ovf := p, ovs := p * 16 + 16 * r.granules }
      let s3 := if r.pool then
          (let st := tgetD s.al.recs (twinOf s key) {}
           let off := r.granules - st.granules
           setRec s2 (twinOf s key) { st with spilled := true, ovf := p + off, ovs := p * 16 + 16 * r.granules + off })
        else s2
      let s4 := setArena s3 k { arenaAt s3 k with spilling := none, quietAt := s.clk.cycle }
      grantAttempt (noteTurn s4 k spillRank) k

def execSpillComplete (arena : Nat) (s : State) : Out := .next (spillComplete s arena)

/-! ### Release (R178) -/

/-- Granules that a RELS cut off are given up (R177, R178). -/
def releaseCut (s : State) (k : Nat) (m : ReleaseMsg) : State :=
  let s1 := m.cut.foldl (fun a e => (rangeFrom e.1 e.2).foldl (fun b g => freeGranule b (.here (m.pane * 65536 + g))) a) s
  let s2 := m.copies.foldl (fun a c => freeGranule a (.copy c.1 c.2.1 c.2.2)) s1
  grantAttempt s2 k

/-- ALLOCATION_RELEASE: engine commands that name the granules finish first, and a copy of the record to its overflow area
(R178, R237). -/
def allocationRelease (s : State) (m : ReleaseMsg) : State :=
  let key := m.pane * 4096 + m.index
  let k := (tgetD s.al.recs key {}).akey
  if engineNames s key || spillingRec s key || !inTurn s k releaseRank then repost s (.allocationRelease m)
  else if m.whole then
    (match tget s.al.recs key with
      | some r => if r.live && r.gseq = m.gseq then releaseRec (noteTurn s k releaseRank) key else s
      | none => s)
  else releaseCut (noteTurn s k releaseRank) k m

def execAllocationRelease (m : ReleaseMsg) (s : State) : Out := .next (allocationRelease s m)

end Sys2Proof.Machine
end

