-- ==== Sys2Proof/Machine/Levels.lean ====
section
/-! DEFINITION. Launches, graphs, phases and jobs: a launch's card, what still counts in a level, completion and its record,
CANCEL (R31, R34 to R37, R61, R198, R246, R260, R308, R355, R356). -/

namespace Sys2Proof.Machine

/-! ### Completion (R34, R36, R356) -/

/-- The 16 bytes of a completion record (R36). -/
def completionBits (l : Lvl) (t : Payload) : Nat := l.stateCode + l.faults % 65536 * 2 ^ 16 + t.toNat * 2 ^ 64

/-- The die whose region controller serves a graph. -/
def graphDie (s : State) (g : Nat) : Nat :=
  match (tgetD s.cf.graphs g {}).place with | some p => p.die | none => 0

/-- The launches of a job. -/
def launchesOf (s : State) (vi job : Nat) : Table Launch :=
  s.jb.launches.filter fun e => e.2.vi = vi && e.2.job = job

/-- Launches of a job issued after one. -/
def issuedAfter (s : State) (vi job id : Nat) : Nat :=
  let next := (viD s vi).nextLaunch
  let age := fun (i : Nat) => (next + 2 ^ 32 - i) % 2 ^ 32
  ((launchesOf s vi job).filter fun e => age e.2.id < age id).length

/-- The region controller keeps the STATE of the last 4,096 launches of each job (R199). -/
def pruneLaunches (s : State) (vi job : Nat) : State :=
  let old := (launchesOf s vi job).filter fun e => e.2.lvl.done && 4096 ≤ issuedAfter s vi job e.2.id
  { s with jb := { s.jb with launches := old.foldl (fun t e => tdel t e.1) s.jb.launches } }

/-- A launch has nothing left to deal. -/
def launchDealt (s : State) (l : Launch) : Bool :=
  l.refused || (l.hand.isNone && (levelStopped s l || (l.ready && (l.stopDeal || l.reccount ≤ l.dealt))))

/-- A launch counts in a graph: it is one of the graph's, or of its phase while its card is unread (R198, R260). -/
def countsIn (k : Nat) (g : Graph) (l : Launch) : Bool :=
  l.graph = k || (l.graph = noGraph && l.vi = g.vi && l.job = g.job && some l.phase = g.phase)

/-- The completion counters of a graph, a phase and a job: a unit for each level directly below that has not completed, and one
while it is open (R260, log 22). -/
def graphUnits (s : State) (k : Nat) : Nat :=
  let g := tgetD s.cf.graphs k {}
  (s.jb.launches.filter fun e => countsIn k g e.2 && !e.2.lvl.done).length
    + b1 (match g.phase with | some n => (tgetD s.jb.phases (phaseKey g.vi g.job n) {}).lvl.isOpen | none => true)

def phaseUnits (s : State) (k : Nat) : Nat :=
  (s.cf.graphs.filter fun e => e.1 / 65536 = k / 2 ^ 32 && e.2.phase = some (k % 2 ^ 32) && !e.2.lvl.done).length
    + b1 (tgetD s.jb.phases k {}).lvl.isOpen

def jobUnits (s : State) (jk : Nat) : Nat :=
  (s.jb.phases.filter fun e => e.1 / 2 ^ 32 = jk && !e.2.lvl.done).length + b1 (tgetD s.jb.jobs jk {}).lvl.isOpen

/-- A counter that can take no unit more: its sender waits (R260). -/
def countFull (n : Nat) : Bool := 2 ^ 32 - 1 ≤ n

/-- A launch waits: the counter of a graph that its card may name is full (R35, R260). -/
def launchFull (s : State) (vi job : Nat) : Bool :=
  let n := (tgetD s.jb.jobs (jobKey vi job) {}).phase
  s.cf.graphs.any fun e => e.1 / 65536 = jobKey vi job && e.2.phase = some n && countFull (graphUnits s e.1)

/-- LAUNCH_COMPLETE (R34). -/
def launchComplete (s : State) (key : Nat) : State :=
  match tget s.jb.launches key with
  | none => s
  | some l =>
    if l.lvl.done || launchBusy s key || !launchDealt s l then s
    else
      let lv := { l.lvl with done := true, isOpen := false }
      let s1 := modLaunch s key fun x => { x with lvl := lv }
      let s2 := match l.doneAddr with
        | some a => devWrite s1 (graphDie s l.graph) l.vi a (bytesOf 16 (completionBits lv (dieTime s (graphDie s l.graph))))
        | none => s1
      pruneLaunches s2 l.vi l.job

def execLaunchComplete (launch : Nat) (s : State) : Out := .next (launchComplete s launch)

/-- The contexts bound to a graph: their indices in the slot tables (R251). -/
def contextsOf (s : State) (p : Nat → Bool) : List Nat :=
  tkeys s.cf.slots fun _ v => bindValid v.toNat && p (bindGraph v.toNat)

/-- The pane and the context of an index die × 1,536 + 8p + q. -/
def slotPane (i : Nat) : Nat := i / 1536 * 192 + i % 1536 / 8
def slotQ (i : Nat) : Nat := i % 8

/-- The arenas of a context. -/
def contextArenas (i : Nat) : List Nat := (List.range 8).map fun a => arenaKey (slotPane i) (slotQ i) a

/-- The key of an arena that a saved graph keeps while another graph has its context (R299). -/
def parkKey (pane g a : Nat) : Nat := 2 ^ 64 + (g * 768 + pane) * 8 + a

/-- The graph of a kept arena. -/
def parkedGraph (k : Nat) : Option Nat := if 2 ^ 64 ≤ k then some ((k - 2 ^ 64) / 8 / 768) else none

/-- The arenas of graphs: those of their contexts, and those kept for them. -/
def graphArenas (s : State) (p : Nat → Bool) : List Nat :=
  (contextsOf s p).flatMap contextArenas
    ++ tkeys s.al.arenas (fun k _ => match parkedGraph k with | some g => p g | none => false)

/-- The live records in the arenas of graphs. -/
def recsOfGraphs (s : State) (p : Nat → Bool) : List Nat :=
  let arenas := graphArenas s p
  tkeys s.al.recs fun _ r => r.live && !r.pool && arenas.contains r.akey

/-- A completed graph releases every record live in its arenas (R178). -/
def releaseArenas (s : State) (g : Nat) : State := (recsOfGraphs s fun x => x = g).foldl askRelease s

/-- The arenas of a context no longer stand (R251). -/
def dropArenas (s : State) (i : Nat) : State :=
  { s with al := { s.al with arenas := (contextArenas i).foldl tdel s.al.arenas } }

/-- A cell's search starts from context 0 when a context of its pane is bound or unbound (R241). -/
def resetPtrs (s : State) (pane : Nat) : State :=
  let one := fun (c : Table CellSt) (k : Nat) => tputD {} c k { tgetD c k {} with ptr := 0 }
  { s with wk := { s.wk with cells := (rangeFrom (pane * 16) 16).foldl one s.wk.cells } }

/-- The fields of a bind record; the rest reads zero (R251). What has been promoted by now stays so, whatever the weights of the
pane become (R240). -/
def setSlot (s : State) (i : Nat) (v : BitVec 64) : State :=
  let s1 := settlePromoted s (slotPane i)
  { s1 with cf := { s1.cf with slots := tputD 0 s1.cf.slots i (BitVec.ofNat 64 (v.toNat % 2 ^ 45)) } }

/-- VALID of a bind record is cleared; the pane's task pool has more room (R221, R251). -/
def unbind (s : State) (i : Nat) : State :=
  let s1 := setSlot s i (BitVec.ofNat 64 (setBits (tgetD s.cf.slots i 0).toNat 44 1 0))
  attemptPane (resetPtrs (dropArenas s1 i) (slotPane i)) (slotPane i)

def graphsOfJob (s : State) (jk : Nat) : Table Graph := s.cf.graphs.filter fun e => e.1 / 65536 = jk
def phasesOfJob (s : State) (jk : Nat) : Table Phase := s.jb.phases.filter fun e => e.1 / 2 ^ 32 = jk

/-- A completed job leaves: its contexts, its graphs, phases and launches (R246, R251). -/
def dropJob (s : State) (jk : Nat) : State :=
  let s1 := (contextsOf s fun g => g / 65536 = jk).foldl unbind s
  let vi := jk / 65536
  let job := jk % 65536
  { s1 with
    jb := { s1.jb with
      jobs := tdel s1.jb.jobs jk
      phases := s1.jb.phases.filter fun e => e.1 / 2 ^ 32 ≠ jk
      launches := s1.jb.launches.filter fun e => !(e.2.vi = vi && e.2.job = job) }
    cf := { s1.cf with graphs := s1.cf.graphs.filter (fun e => e.1 / 65536 ≠ jk),
                       held := s1.cf.held.filter fun h => bindGraph h.v.toNat / 65536 ≠ jk }
    al := { s1.al with arenas := s1.al.arenas.filter fun e => match parkedGraph e.1 with
      | some g => g / 65536 ≠ jk
      | none => true }
    sh := { s1.sh with
      active := s1.sh.active.filter fun e => e.1 / 65536 ≠ jk
      saved := s1.sh.saved.filter fun e => e.1 / 65536 ≠ jk } }

/-- The futures of a completed job whose count is saturated were reachable until now (R42). -/
def dropFuts (s : State) (jk : Nat) : State :=
  (tkeys s.wk.futs fun _ r => r.job = jk && r.stuck && r.state = .resolved).foldl freeFut s

/-- The source's ticks end with the job (R308). -/
def disableTicks (s : State) (vi job : Nat) : State :=
  let off := fun (e : Nat × Tick) =>
    if bits e.2.job.toNat 0 16 = job && bits e.2.job.toNat 16 6 = vi then (e.1, { e.2 with period := 0 }) else e
  { s with tm := { s.tm with ticks := s.tm.ticks.map off } }

/-- The interface stops (R318). -/
def stopVi (s : State) (vi : Nat) : State := modVi s vi fun v => { v with configured := false, stopping := false }

/-- A job of an interface has completed: one that is being unconfigured stops with the last job that this cancelled (R318). -/
def jobGone (s : State) (vi jk : Nat) : State :=
  let s1 := modVi s vi fun v => { v with ending := v.ending.filter fun k => k ≠ jk }
  if (viD s1 vi).stopping && (viD s1 vi).ending.isEmpty then stopVi s1 vi else s1

/-- LEVEL_COMPLETE for a graph (R34). A launch of its phase whose card has not been read may be one of its own (R198). -/
def graphComplete (s : State) (k : Nat) : State :=
  match tget s.cf.graphs k with
  | none => s
  | some g =>
    let closed := match g.phase with
      | some n => !(tgetD s.jb.phases (phaseKey g.vi g.job n) {}).lvl.isOpen
      | none => false
    if g.lvl.done || !closed || graphUnits s k ≠ 0 then s
    else releaseArenas (modGraph s k fun g => { g with lvl := { g.lvl with done := true, isOpen := false } }) k

/-- LEVEL_COMPLETE for a phase (R34). -/
def phaseComplete (s : State) (k : Nat) : State :=
  match tget s.jb.phases k with
  | none => s
  | some p =>
    let jk := k / 2 ^ 32
    let n := k % 2 ^ 32
    if p.lvl.done || p.lvl.isOpen || ((graphsOfJob s jk).any fun e => e.2.phase = some n && !e.2.lvl.done)
        || ((launchesOf s (jk / 65536) (jk % 65536)).any fun e => e.2.phase = n && !e.2.lvl.done) then s
    else modPhase s k fun p => { p with lvl := { p.lvl with done := true } }

/-- A record of an interface at an address is held for firmware (R356). -/
def recordHeld (s : State) (vi va : Nat) : Bool := s.jb.heldDev.any fun d => match d with
  | .record _ v a _ => v = vi && a = va
  | _ => false

/-- A job whose record has been written, or dropped, leaves: its bind records, its sources, its futures (R42, R246, R251,
R308). -/
def jobLeave (s : State) (jk : Nat) (j : Job) (a : Nat) : State :=
  if recordHeld s j.vi a then s
  else jobGone (dropFuts (dropJob (disableTicks s j.vi j.job) jk) jk) j.vi jk

/-- LEVEL_COMPLETE for a job: its record at the END's address, then, once that has been written, its bind records (R246,
R251). -/
def jobComplete (s : State) (jk : Nat) : State :=
  match tget s.jb.jobs jk with
  | none => s
  | some j =>
    match j.endAt with
    | none => s
    | some a =>
      if j.lvl.done then jobLeave s jk j a
      else if ((phasesOfJob s jk).any fun e => !e.2.lvl.done)
          || !(recsOfGraphs s fun g => g / 65536 = jk).isEmpty then s
      else
        let s1 := modJob s jk fun x => { x with lvl := { x.lvl with done := true } }
        jobLeave (devWrite s1 0 j.vi a (bytesOf 16 (completionBits j.lvl (dieTime s 0)))) jk j a

/-- LEVEL_COMPLETE. A launch completes by LAUNCH_COMPLETE. -/
def levelComplete (s : State) (level : Level) (key : Nat) : State :=
  match level with
  | .launch => launchComplete s key
  | .graph => graphComplete s key
  | .phase => phaseComplete s key
  | .job => jobComplete s key

def execLevelComplete (level : Level) (key : Nat) (s : State) : Out := .next (levelComplete s level key)

/-- PHASE_BEGIN: each phase of the job begins whose predecessor has completed (R31, R246). -/
def phaseBegin (s : State) (jk : Nat) : State :=
  let one := fun (e : Nat × Phase) =>
    let n := e.1 % 2 ^ 32
    if e.1 / 2 ^ 32 = jk && (n = 0 || (tgetD s.jb.phases (e.1 - 1) {}).lvl.done) then (e.1, { e.2 with begun := true }) else e
  { s with jb := { s.jb with phases := s.jb.phases.map one } }

def execPhaseBegin (job : Nat) (s : State) : Out := .next (phaseBegin s job)

/-! ### A launch and its card (R61, R198, R308, R355, R356) -/

/-- The physical address of an inbox slot on d0; slots are aligned to their size (R243). -/
def slotPa (s : State) (vi i : Nat) : Nat := (viD s vi).inboxAt / 64 * 64 + 64 * i

/-- STATE of a slot of the inbox is set to EMPTY (R243). -/
def clearSlot (vi : Nat) (s : State) (i : Nat) : State := { s with gm := writeLine s.gm (slotPa s vi i + 56) [some 0] id }

/-- The inbox slot of a launch is emptied once what it names has been read (R244). -/
def emptySlot (s : State) (vi : Nat) : Option Nat → State
  | none => s
  | some i => clearSlot vi s i

/-- A refused card: one BLOCK_BAD record with the card's address; the launch deals nothing (R198). -/
def refuseLaunch (s : State) (key : Nat) : State :=
  match tget s.jb.launches key with
  | none => s
  | some l =>
    let s1 := modLaunch (emptySlot s l.vi l.slot) key fun x => { x with refused := true, slot := none }
    let p : Place4 := match l.origin with
      | some o => ⟨o.slot, o.colour, o.iter, o.die, o.pane % 192, o.block⟩
      | none => ⟨0, 0, 0, 0, 0, 0⟩
    faultLaunch (writeRecord s1 l.vi ⟨.blockBad, l.card⟩ p) key

/-- A read or write of a die that meets a missing page waits for firmware (R355, R356). -/
def holdDev (s : State) (d : DevAccess) (die vi va : Nat) (write : Bool) : State :=
  sendPageFault { s with jb := { s.jb with heldDev := s.jb.heldDev ++ [d] } } die vi va write

/-- The die whose region controller reads a launch's card: that of the task that launched it, else d0 (log 74). -/
def cardDie (l : Launch) : Nat := match l.origin with | some o => o.die | none => 0

/-- The graph that a card names is sealed in the job's current phase, and its other fields are as R198 and R308 ask. -/
def cardOk (s : State) (l : Launch) (d : Nat) : Bool :=
  let gk := graphKey l.vi l.job (bits d 224 16)
  match tget s.cf.graphs gk with
  | none => false
  | some g =>
    g.phase = some l.phase && !g.lvl.done && (blockAt g (bits d 0 64)).isSome && bits d 240 16 = 0
      && (l.tick.isNone || (bits d 160 32 ≠ 0 && 16 ≤ bits d 128 32))

/-- The graph that a card names, where it is sealed in the launch's phase. -/
def cardGraph (s : State) (l : Launch) (gk : Nat) : Nat :=
  match tget s.cf.graphs gk with
  | some g => if g.phase = some l.phase && !g.lvl.done then gk else noGraph
  | none => noGraph

/-- The fields of a card (R61); of its DONE field, an address, the low 52 bits (log 125). -/
def takeCard (l : Launch) (d : Nat) : Launch :=
  { l with entry := bits d 0 64, records := bits d 64 64, recsize := bits d 128 32, reccount := bits d 160 32,
           chunkmax := bits d 192 16, carve := bits d 208 16, graph := graphKey l.vi l.job (bits d 224 16),
           doneAddr := some (bits d 256 64 % 2 ^ 52) }

/-- The fields that a refused card leaves to its launch: where the completion record goes, and its graph. -/
def refusedCard (s : State) (key : Nat) (l1 : Launch) : State :=
  modLaunch s key fun x => { x with doneAddr := l1.doneAddr, graph := cardGraph s x l1.graph }

/-- The card is in order, and a tick's record written: dealing may begin. -/
def launchReady (s : State) (key : Nat) (l : Launch) : State :=
  let s1 := modLaunch (emptySlot s l.vi l.slot) key fun _ => { l with slot := none, ready := true }
  let stopped := (tgetD s1.cf.graphs l.graph {}).lvl.cancelled
  let ended := (tgetD s1.cf.graphs l.graph {}).lvl.forced
  modLaunch s1 key fun x =>
    { x with stopDeal := x.stopDeal || ended, lvl := { x.lvl with cancelled := x.lvl.cancelled || stopped, forced := ended } }

/-- The region controller reads the card and, for a tick, writes the card's first record. -/
def readCard (s : State) (key : Nat) : State :=
  match tget s.jb.launches key with
  | none => s
  | some l =>
    match devRange s l.vi l.card .read 64 with
    | .missing =>
      let va := missingVa s l.vi l.card .read 64
      holdDev s (.card key va) (cardDie l) l.vi va false
    | .hit _ _ _ =>
      let d := natOfBytes (devGet s l.vi l.card 64)
      let s := devTouch s l.vi l.card 64
      let l1 := takeCard l d
      if !cardOk s l d then refuseLaunch (refusedCard s key l1) key
      else match l.tick with
        | none => launchReady s key l1
        | some (k, t) =>
          let a := l1.records % 2 ^ 52
          (match devRange s l.vi a .write 16 with
            | .hit _ _ _ => launchReady (devStore s l.vi a (bytesOf 8 k ++ bytesOf 8 t)) key l1
            | .missing =>
              let va := missingVa s l.vi a .write 16
              holdDev s (.card key va) (cardDie l) l.vi va true
            | _ => refuseLaunch (writeRecord (refusedCard s key l1) l.vi ⟨.prot, a⟩
                ⟨0, 0, 0, 0, 0, 0⟩) key)
    | _ => refuseLaunch s key

/-- The next launch id of an interface: they start at 1 and skip 0 (R198). -/
def nextId (n : Nat) : Nat := if n + 1 < 2 ^ 32 then n + 1 else 1

/-- A new launch of a job in its current phase, and its key (R198). -/
def newLaunch (s : State) (l : Launch) : Nat × State :=
  let v := viD s l.vi
  let id := v.nextLaunch
  let key := launchKey l.vi id
  let j := tgetD s.jb.jobs (jobKey l.vi l.job) {}
  let stopped := j.lvl.cancelled || (tgetD s.jb.phases (phaseKey l.vi l.job j.phase) {}).lvl.cancelled
  let l1 := { l with id := id, graph := noGraph, phase := j.phase, lvl := { cancelled := stopped } }
  let s1 := modVi s l.vi fun v => { v with nextLaunch := nextId id }
  let s2 := { s1 with jb := { s1.jb with launches := tput s1.jb.launches key l1 } }
  (id, readCard (pruneLaunches s2 l.vi l.job) key)

/-! ### CANCEL (R37, R200) -/

/-- The chunk in a dealer's hand is withdrawn (R242). -/
def withdrawHand (s : State) (key : Nat) : State :=
  match (tgetD s.jb.launches key {}).hand with
  | none => s
  | some c =>
    let s0 := modLaunch s key fun l => { l with hand := none }
    let s1 := withdraw s0 fun r => decide (r.asker = .deal key)
    let s2 := match c.granted with | some k => releaseRec (releaseRec s1 (twinOf s1 k)) k | none => s1
    match c.pane, c.colour with
    | some p, some col => giveColour s2 (paneDie p) col
    | _, _ => wakeColour s2

/-- A launch that a CANCEL reaches: no more dealing, its tasks reclaimed, its revocable copies stopped. `own` is the task
whose commit makes the CANCEL. -/
def cancelLaunch (own : Option Nat) (s : State) (key : Nat) : State :=
  let s1 := modLaunch s key fun l => if l.lvl.done then l else { l with lvl := { l.lvl with cancelled := true } }
  let s2 := withdrawHand s1 key
  let s3 := { s2 with jb := { s2.jb with heldDev := s2.jb.heldDev.filter fun d => match d with
    | .card k _ => k ≠ key
    | _ => true } }
  let l := tgetD s3.jb.launches key {}
  let s4 := modLaunch (emptySlot s3 l.vi l.slot) key fun x => { x with slot := none }
  let s5 := (tkeys s4.wk.tasks fun k t => t.launch = key && own ≠ some k).foldl reclaimTask s4
  revokeCmds s5 fun c => c.origin.launch = key

def markGraph (s : State) (k : Nat) : State :=
  modGraph s k fun g => if g.lvl.done then g else { g with lvl := { g.lvl with cancelled := true } }
def markPhase (s : State) (k : Nat) : State :=
  modPhase s k fun p => if p.lvl.done then p else { p with lvl := { p.lvl with cancelled := true } }

/-- The level's code in a CANCELLED record (R243, R292). -/
def Level.code : Level → Nat
  | .launch => 0 | .graph => 1 | .phase => 2 | .job => 3

/-- Everything of a level is marked, and its launches end. -/
def cancelBelow (s : State) (vi job : Nat) (level : Level) (id : Nat) (own : Option Nat) : State :=
  let jk := jobKey vi job
  match level with
  | .launch => cancelLaunch own s (launchKey vi id)
  | .graph =>
    let k := graphKey vi job id
    (tkeys s.jb.launches fun _ l => l.graph = k).foldl (cancelLaunch own) (markGraph s k)
  | .phase =>
    let s1 := (tkeys s.cf.graphs fun k g => k / 65536 = jk && g.phase = some id).foldl markGraph (markPhase s (phaseKey vi job id))
    (tkeys s1.jb.launches fun _ l => l.vi = vi && l.job = job && l.phase = id).foldl (cancelLaunch own) s1
  | .job =>
    let s1 := modJob (disableTicks s vi job) jk fun j => { j with lvl := { j.lvl with cancelled := true } }
    let s2 := (tkeys s1.cf.graphs fun k _ => k / 65536 = jk).foldl markGraph s1
    let s3 := (tkeys s2.jb.phases fun k _ => k / 2 ^ 32 = jk).foldl markPhase s2
    (tkeys s3.jb.launches fun _ l => l.vi = vi && l.job = job).foldl (cancelLaunch own) s3

/-- The fault record of a level counts in it and above it (R36). -/
def faultLevel (s : State) (vi job : Nat) (level : Level) (id : Nat) : State :=
  match level with
  | .launch => faultLaunch s (launchKey vi id)
  | .graph => faultGraph s (graphKey vi job id)
  | .phase => faultPhase s (phaseKey vi job id)
  | .job => faultJob s (jobKey vi job)

/-- CANCEL of a level: nothing where it has completed, does not exist or is cancelled already; else one CANCELLED record and
R37's acts. -/
def cancelLevel (s : State) (vi job : Nat) (level : Level) (id : Nat) (p : Place4) (own : Option Nat) : State :=
  match levelAt s vi job level id with
  | none => s
  | some v =>
    if v.done || v.cancelled then s
    else
      let s1 := cancelBelow s vi job level id own
      let adr := Level.code level + (if level = .job then 0 else id % 2 ^ 32) * 2 ^ 32
      faultLevel (writeRecord s1 vi ⟨.cancelled, adr⟩ p) vi job level id

end Sys2Proof.Machine
end

