-- ==== Sys2Proof/Machine/Growth.lean ====
section
/-! DEFINITION. Growing ranges: KVGROW at commit, the mailboxes and the grant caches (R204, R249, R254). -/

namespace Sys2Proof.Machine

/-- A level-4 entry takes a 64 KiB page: V and ADDR are written, the other fields are as firmware left them (R254). -/
def mapPage (s : State) (vi va page : Nat) : State :=
  match (walk s vi va).1 with
  | .missing 4 pa e =>
    let e' := setBits (setBits e 8 32 (page / 256)) 0 1 1
    { s with gm := writeLine s.gm pa ((bytesOf 8 e').map some) id }
  | _ => s

/-- KVGROW returns its page, or ADDR 0 (R204). -/
def growReturn (s : State) (m : Mail) (va : Nat) : State :=
  post s [.returnValueArrive ⟨m.tid, m.iter, m.launch, m.reg, mkTok .addr va, 0⟩]

/-- The lines of the tables that a walk reads become present (R225). -/
def walkTouch (s : State) (vi va : Nat) : State := { s with gm := touchAll s.gm (walk s vi va).2 }

def isMapped (s : State) (vi va : Nat) : Bool := match (walk s vi va).1 with | .leaf _ => true | _ => false

/-- The order in which KVGROWs of a pane wait (R231, R249). -/
def mailBefore (a b : Mail) : Bool :=
  let key := fun (m : Mail) => ((m.cell * 128 + m.slot) * 65536 + m.rank) * 65536 + m.tid % 65536
  a.age < b.age || (a.age = b.age && key a ≤ key b)

def insMail (x : Mail) : List Mail → List Mail
  | [] => [x]
  | y :: t => if mailBefore y x then y :: insMail x t else x :: y :: t

/-- A committed KVGROW of a pane: mapped already, from the grant cache, or through the mailbox (R204, R249). -/
def growCommit (s0 : State) (pane : Nat) (m : Mail) : State :=
  let s := walkTouch s0 m.vi m.va
  if isMapped s m.vi m.va then growReturn s m m.va
  else match tgetD s.fw.grants pane [] with
    | p :: t =>
      growReturn (mapPage { s with fw := { s.fw with grants := tputD [] s.fw.grants pane t } } m.vi m.va p) m m.va
    | [] =>
      if (tget s.fw.mailbox pane).isNone then { s with fw := { s.fw with mailbox := tput s.fw.mailbox pane m } }
      else { s with fw := { s.fw with queue := tput s.fw.queue pane (insMail m (tgetD s.fw.queue pane [])) } }

/-- Waiting KVGROWs of a pane take the free slot in age order; one whose page is mapped by now returns at once. The grant cache,
which a refill may have filled since, is not looked at again (log 122). -/
def mailNext (s : State) (pane : Nat) : List Mail → State
  | [] => { s with fw := { s.fw with queue := tdel s.fw.queue pane } }
  | m :: t =>
    if isMapped s m.vi m.va then mailNext (growReturn s m m.va) pane t
    else { s with fw := { s.fw with mailbox := tput s.fw.mailbox pane m, queue := tputD [] s.fw.queue pane t } }

/-- MAILBOX_ANSWER: a mapped page, or ADDR 0; the slot is free (R249). -/
def mailboxAnswer (s : State) (pane : Nat) (page : Option Nat) : State :=
  match tget s.fw.mailbox pane with
  | none => s
  | some m =>
    let s1 := { s with fw := { s.fw with mailbox := tdel s.fw.mailbox pane } }
    let s2 := match page with
      | some p => growReturn (mapPage s1 m.vi m.va p) m m.va
      | none => growReturn s1 m (if isMapped s1 m.vi m.va then m.va else 0)
    mailNext s2 pane (tgetD s2.fw.queue pane [])

def execMailboxAnswer (pane : Nat) (page : Option Nat) (s : State) : Out := .next (mailboxAnswer s pane page)

/-- GRANT_CACHE_REFILL: a page joins the tail of a cache of at most 16 (R249). -/
def grantRefill (s : State) (pane page : Nat) : State :=
  let c := tgetD s.fw.grants pane []
  if c.length < 16 then { s with fw := { s.fw with grants := tput s.fw.grants pane (c ++ [page]) } } else s

def execGrantCacheRefill (pane page : Nat) (s : State) : Out := .next (grantRefill s pane page)

end Sys2Proof.Machine
end

