-- ==== Sys2Proof/Machine/Commit.lean ====
section
/-! DEFINITION. BLOCK_COMMIT (R14 to R16, R24 to R26, R38, R105, R109, R117 to R121, R141, R145, R148, R158 to R166, R171,
R176, R177, R195 to R207, R210, R274, R288) and the return of a word's value (R145, R147). -/

namespace Sys2Proof.Machine

/-! ### When a block commits -/

/-- The branch leaves the loop (R26). -/
def leaves (x : Inst) : Bool :=
  match x.branch with
  | some (.next _) | none => false
  | _ => true

/-- The loop lets the instance commit: an ordered one in iteration order, and a leaving branch only from the oldest
(R24 to R26). -/
def turnOk (t : Task) (x : Inst) : Bool :=
  match t.loop with
  | none => true
  | some l => if l.ordered || leaves x then x.iter = l.first else true

/-- The granule of a local-store request. -/
def reqGranule (s : State) (k : ReqKind) : Option GLoc := (reqLocal k).bind fun p => localGranule s p.1 p.2

/-- A local-store effect that is a release (R158, R274), as the granule stands when it is applied. -/
def localRelease (s : State) (r : Request) : Bool :=
  match r.kind with
  | .lst _ _ _ _ | .lamo _ _ _ _ _ | .fes _ _ true =>
    (match reqGranule s r.kind with | some l => locStateField s l ≠ stFull | none => false)
  | .barr _ _ => true
  | _ => false

/-- The handles that a request names. -/
def reqHandles : ReqKind → List Nat
  | .free h | .rels h _ => [h]
  | .engine _ _ k => cmdHandles k
  | k => (reqLocal k).toList.map Prod.fst

/-- No record that the block's requests name is being copied to its overflow area (R237). -/
def notSpilling (s : State) (x : Inst) : Bool :=
  x.requests.all fun r => (reqHandles r.kind).all fun h => match handleRec h with | some k => !spillingRec s k | none => true

/-- The marker of a shutter has reached a cell of the instance's block (R298). -/
def instMarked (s : State) (t : Task) (x : Inst) : Bool :=
  match blkOf s x with | some b => blockMarked s t x.block b.words.length | none => false

/-- Insertion of a request by its slot. -/
def insSlot (x : Request) : List Request → List Request
  | [] => [x]
  | y :: t => if x.slot ≤ y.slot then x :: y :: t else y :: insSlot x t

def bySlot : List Request → List Request
  | [] => []
  | x :: t => insSlot x (bySlot t)

/-- A local effect that leaves its granule not FULL (R160, R164, R165). -/
def unfills : ReqKind → Bool
  | .take _ _ | .fes _ _ false | .binit _ _ _ => true
  | _ => false

/-- A local effect that will be a release: its granule is not FULL before the commit, or the block empties it (R158). -/
def mayRelease (s : State) (x : Inst) (r : Request) : Bool :=
  match r.kind with
  | .lst _ _ _ _ | .lamo _ _ _ _ _ | .fes _ _ true =>
    (match reqGranule s r.kind with
      | some l => locStateField s l ≠ stFull || x.requests.any fun q => unfills q.kind && reqGranule s q.kind = some l
      | none => false)
  | .barr _ _ => true
  | _ => false

/-- A FENCE, or an atomic that is a full acquire (R148, R153). -/
def isBarrier : ReqKind → Bool
  | .fence _ => true
  | .atom _ _ _ _ _ _ _ sc => sc.isSome
  | _ => false

/-- A local effect behind everything before it: a release, or one above a FENCE or a full atomic of its block (R148, R153,
R158). -/
def behindAll (s : State) (x : Inst) (r : Request) : Bool :=
  mayRelease s x r || ((reqLocal r.kind).isSome
    && x.requests.any fun q => isBarrier q.kind && q.lsid.getD 0 < r.lsid.getD 0)

/-- TRAP and BKPT: the record's code, slot and IMM: the lowest unnulled TRAP, else the lowest BKPT where it is enabled (R120,
R121). -/
def trapOf (s : State) (t : Task) (x : Inst) : Option (Code × Nat × Nat) :=
  let rs := bySlot x.requests
  let traps := rs.filterMap fun r => match r.kind with | .trap c => some (Code.trap, r.slot, c) | _ => none
  let bkpts := rs.filterMap fun r => match r.kind with | .bkpt c => some (Code.bkpt, r.slot, c) | _ => none
  let enabled := taskMaint s t || bits (tgetD s.sr.viCtl t.vi 0).toNat 0 1 = 1
  match traps with
  | a :: _ => some a
  | [] => if enabled then bkpts.head? else none

/-- A block whose last act follows every effect of its task and its own: the record of a TRAP or BKPT and a LAUNCH are
releases, and TICKW reads its descriptor (R120, R202, R274). -/
def actsLast (s : State) (t : Task) (x : Inst) : Bool :=
  (trapOf s t x).isSome || x.requests.any fun r => match r.kind with
    | .launch _ | .tickw _ _ _ _ => true
    | _ => false

/-- The requests of a block that add a unit to its launch's counter (R260). -/
def unitsOf (x : Inst) : Nat :=
  (x.requests.filter fun r => match r.kind with
    | .store _ _ _ _ _ _ _ _ | .atom _ _ _ _ _ _ _ _ | .engine _ _ _ | .ref _ | .drop _ | .tickw _ _ _ _ | .kvgrow _
    | .syswr _ _ => true
    | _ => false).length

/-- The block does anything that a child's start must wait for (R274). -/
def actsOut (x : Inst) : Bool :=
  !x.requests.isEmpty || (match x.branch with | some (.exit _) => true | _ => false)

/-- The task's earlier effects that a block's effects follow have performed: all of them for a release, and for another
local effect those before a FENCE or a full atomic (R148, R153, R158, R273). -/
def effectsFollow (s : State) (t : Task) (x : Inst) : Bool :=
  (!(x.requests.any fun r => (reqLocal r.kind).isSome) || performedBelow s x.tid t.floor)
    && (!(actsLast s t x || x.requests.any (behindAll s x)) || performedBelow s x.tid t.seq)

/-- A word of the instance is held on a missing translation (R142). -/
def heldOnPage (s : State) (x : Inst) : Bool :=
  s.wk.waits.any fun w => ofInst x.tid x.iter w.1 && w.2 = .page

/-- The block launches work (R198). -/
def launches (x : Inst) : Bool := x.requests.any fun r => match r.kind with | .launch _ => true | _ => false

/-- BLOCK_COMMIT is due. -/
def commitDue (s : State) (t : Task) (x : Inst) : Bool :=
  blockDone s x && turnOk t x && notSpilling s x && !instMarked s t x && !t.stopped
    && (t.wait.isEmpty || !actsOut x) && !heldOnPage s x && effectsFollow s t x && !unitsFull s t.launch (unitsOf x)
    && !(launches x && launchFull s t.vi t.job)

/-! ### Checks at commit (R141) -/

/-- The width with which a request's handle is resolved (R157). -/
def reqWidth : ReqKind → Nat
  | .lst _ _ fmt _ | .lamo _ _ _ fmt _ => accessWidth fmt
  | .take _ _ => 1
  | _ => 16

/-- A local-store effect against its granule's state and tracking. -/
def localCheck (s : State) (t : Task) (k : ReqKind) : Option Flt :=
  match reqLocal k with
  | none => none
  | some (h, off) =>
    match resolve s h (off : Int) (reqWidth k) with
    | .error e => some e
    | .ok (l, _) =>
      let barrier := locStateField s l = stBarrier
      match k with
      | .lst _ _ _ _ =>
        if barrier then some ⟨.barrierClobber, handleForm h off⟩
        else if locStateField s l = stFull && (match locUnit l with | some g => races s t (.granule g) | none => false) then
          some ⟨.mmRace, handleForm h off⟩
        else none
      | .binit _ _ _ => none
      | .barr _ _ => if barrier then none else some ⟨.barrierClobber, handleForm h off⟩
      | _ => if barrier then some ⟨.barrierClobber, handleForm h off⟩ else none

/-- The FREEs of a record among requests. -/
def freesOf (rs : List Request) (key : Nat) : Nat :=
  (rs.filter fun r => match r.kind with | .free h => handleRec h = some key | _ => false).length

/-- FREE and RELS at commit, counting the block's earlier FREEs of the record (R176, R177). -/
def freeCheck (s : State) (before : List Request) (h : Nat) : Option Flt :=
  match ownRec s h with
  | .error e => some e
  | .ok (k, r) => if r.count ≤ freesOf before k then some ⟨.handleStale, handleForm h 0⟩ else none

/-- The sides of a copy, a PSET or a CPP, resolved again. -/
def engineCheck (s : State) : CmdKind → Option Flt
  | .cp a b n _ => firstFlt [sideFault s a, sideFault s b, sideShort s n a, sideShort s n b]
  | .pset a _ => firstFlt [sideFault s a, sideShort s 112 a]
  | .cpp a b g _ e =>
    firstFlt [sideFault s (.handle a), sideFault s (.handle b), sideShort s (g * 128 * 2 ^ e) (.handle a),
      sideShort s (g * 128 * 2 ^ e) (.handle b)]
  | _ => none

/-- One request's check. -/
def reqCheck (s : State) (t : Task) (before : List Request) (r : Request) : Option Flt :=
  match r.kind with
  | .free h | .rels h _ => freeCheck s before h
  | .engine _ _ k => engineCheck s k
  | k => localCheck s t k

/-- The first failing request in slot order. -/
def reqsCheck (s : State) (t : Task) : List Request → List Request → Option (Nat × Flt)
  | _, [] => none
  | before, r :: rest =>
    match reqCheck s t before r with
    | some e => some (r.slot, e)
    | none => reqsCheck s t (before ++ [r]) rest

/-- SYSWR outside a maintenance graph (R206). -/
def privCheck (s : State) (t : Task) (rs : List Request) : Option (Nat × Flt) :=
  if taskMaint s t then none
  else (rs.find? fun r => match r.kind with | .syswr _ _ => true | _ => false).map fun r =>
    (r.slot, ⟨.priv, match r.kind with | .syswr n _ => n | _ => 0⟩)

/-- The slot of the branch that was resolved. -/
def branchSlot (es : List (Nat × Instr)) (x : Inst) : Nat :=
  ((es.find? fun e => Instr.cls e.2 = .branch && x.fired.contains e.1 && !x.nulled.contains e.1).map Prod.fst).getD 255

/-- A target that is not 64-byte aligned (R11, R118). -/
def alignCheck (es : List (Nat × Instr)) (x : Inst) : Option (Nat × Flt) :=
  match x.branch with
  | some (.goto va _) => if va % 64 ≠ 0 then some (branchSlot es x, ⟨.align, va⟩) else none
  | _ => none

/-- The P token of a WRITE whose value returns, one of the words that return it unnulled (R90, R210). -/
def retPredCheck (s : State) (x : Inst) (es : List (Nat × Instr)) (k : Nat) (r : BitVec 6) : Option (Nat × Flt) :=
  match portTok s ⟨x.tid, x.iter, x.block, k⟩ .p with
  | some p =>
    if p.tag = .poison then
      (if r = 61#6 && (returningOf es k).any fun q => !x.nulled.contains q then some (k, ⟨.poisonUse, 0⟩) else none)
    else if blankTag p.tag || p.tag = .pred then none else some (k, ⟨.format, 0⟩)
  | none => none

/-- A WRITE of g61 (R210), and the predicate of a WRITE whose value returns (R90). -/
def writeCheck (s : State) (x : Inst) (e : Nat × Instr) : Option (Nat × Flt) :=
  match e.2 with
  | .write _ r pm =>
    (match tget x.wrote e.1 with
      | some v =>
        if r = 61#6 then
          (if v.tag = .poison then some (e.1, ⟨.poisonUse, 0⟩) else if v.tag.isInt then none else some (e.1, ⟨.format, 0⟩))
        else none
      | none =>
        if x.fired.contains e.1 || pm = .always then none else retPredCheck s x (blockSlots s x) e.1 r)
  | _ => none

/-- The fault of the lowest slot. -/
def lowestFault : List (Option (Nat × Flt)) → Option (Nat × Flt)
  | [] => none
  | none :: t => lowestFault t
  | some a :: t => match lowestFault t with
    | none => some a
    | some b => if b.1 < a.1 then some b else some a

/-- Every check of a commit: PRIV in its first cycle, then the others, the lowest slot's fault first (R206, R294). -/
def commitFault (s : State) (t : Task) (x : Inst) : Option (Nat × Flt) :=
  let es := blockSlots s x
  match privCheck s t (bySlot x.requests) with
  | some f => some f
  | none => lowestFault (reqsCheck s t [] (bySlot x.requests) :: alignCheck es x :: es.map (writeCheck s x))

/-! ### Returned values (R145) -/

/-- The WRITE whose port L a returning word names. -/
def retSlot (s : State) (x : Inst) (slot : Nat) : Option Nat :=
  match instrAt s x.tid x.block slot with
  | some i => (Instr.targets i).1.map fun d => d.slot.toNat
  | none => none

/-- How a WRITE of a returned value stands at commit: its register, and whether P is POISON; none where it is nulled, or a
WRITE of the same register with a higher WID stands (R109). -/
def retWrite (s : State) (x : Inst) (slot : Nat) : Option (Nat × Bool) :=
  match retSlot s x slot with
  | none => none
  | some k =>
    match instrAt s x.tid x.block k with
    | some (.write _ r pm) =>
      let es := blockSlots s x
      let later := es.any fun e => match e.2 with
        | .write _ r' _ => r' = r && k < e.1 && ((tget x.wrote e.1).isSome
            || (!x.fired.contains e.1 && (returningOf es e.1).any fun q => !x.nulled.contains q))
        | _ => false
      if later then none
      else match (if pm = .always then none else portTok s ⟨x.tid, x.iter, x.block, k⟩ .p) with
        | some p =>
          if p.tag = .poison then some (r.toNat, true)
          else if predMatch pm (some p) = some true then some (r.toNat, false) else none
        | none => some (r.toNat, false)
    | _ => none

/-- The register that a returned value goes to. -/
def retRegOf (s : State) (x : Inst) (r : Request) : Option Nat :=
  match retWrite s x r.slot with
  | some (g, false) => if r.ret.isSome then some g else none
  | _ => none

/-! ### Effects -/

/-- Where an instance's word stands (R173, R195). -/
def originOf (s : State) (t : Task) (x : Inst) (slot : Nat) : Origin :=
  let p := placeOf s t x slot
  ⟨t.vi, t.job, t.launch, p.die, p.die * 192 + p.pane, t.colour, x.iter, x.block, slot⟩

/-- The scope of a local release (R158). -/
def localScope (t : Task) (h : Nat) : Nat :=
  match handleRec h with
  | some k => if k / 4096 = t.pane then 0 else if k / 4096 / 192 = t.die then 1 else 2
  | none => 2

/-- A copy is on its way to a pane's multicast buffer (R151). -/
def pushCopy (c : McastCopy) (s : State) (pane : Nat) : State :=
  { s with gm := { s.gm with mcast := tput s.gm.mcast pane (tgetD s.gm.mcast pane [] ++ [c]) } }

/-- A global store at commit: on its way to its home, an MST's copies on theirs (R151), or performed at once before an effect
of its block that follows it. -/
def commitStore (s : State) (t : Task) (va pa rdev : Nat) (fmt : Tag) (tok : Token) (rel : Option Scope)
    (checked mst now : Bool) (tid : Nat) : State :=
  let poison := decide (tok.tag = .poison)
  let m : WriteMsg := ⟨tid, t.seq, if rel.isSome then t.seq else t.floor, t.launch, t.vi, va, pa, rdev,
    storeBytes fmt tok, poison, rel, checked, mst, t.die, t.colour⟩
  let s1 := bumpSeq s tid
  if now then performWrite s1 m
  else
    let c : McastCopy := { pa := devLoc rdev pa, bytes := m.bytes, tid := tid, seq := t.seq, after := m.after, rel := rel.isSome }
    post (if mst && !poison then (boundPanes s t.graph).foldl (pushCopy c) s1 else s1) [.globalWritePerform m]

/-- A global atomic at commit; one with Q[3] is an acquire too (R148). -/
def commitAtom (s : State) (t : Task) (m : AtomMsg) (now : Bool) : State :=
  let s1 := bumpSeq s m.tid
  let s2 := if m.release.isSome then modTask s1 m.tid fun x => { x with floor := t.seq + 1 } else s1
  if now then performAtom s2 m else post s2 [.atomicPerform m]

def setRet (s : State) (x : Inst) (t : Task) (reg : Option Nat) (v : Token) (fl : FlagSet) : State :=
  post s [.returnValueArrive ⟨x.tid, x.iter, t.launch, reg, v, fl⟩]

/-- A release publishes the task's write set (R288). -/
def publishIf (b : Bool) (s : State) (tid scope : Nat) : State := if b then publish s tid scope else s

/-- LST (R161, R218, R287). -/
def commitLst (s : State) (t : Task) (tid h off : Nat) (fmt : Tag) (tok : Token) (release : Bool) : State :=
  match resolve s h (off : Int) (accessWidth fmt) with
  | .error _ => s
  | .ok (l, o) =>
    let s1 := publishIf release s tid (localScope t h)
    let s2 := if tok.tag = .poison then setLocField s1 l 3 1 1
      else
        let a := setLocBytes (dropHalves (some tid) s1 l o (accessWidth fmt)) o (storeBytes fmt tok) l
        if fmt = .future then setLocField a l (4 + o / 8) 1 1 else a
    let s3 := setLocField s2 l 0 2 stFull
    match release, locUnit l with
    | false, some g => ownUnit s3 tid (.granule g)
    | _, _ => s3

/-- LAMO (R162). -/
def commitLamo (s : State) (t : Task) (x : Inst) (op : AtomOp) (h off : Nat) (fmt : Tag) (v : Token) (release : Bool)
    (reg : Option Nat) : State :=
  match resolve s h (off : Int) (accessWidth fmt) with
  | .error _ => s
  | .ok (l, o) =>
    let s0 := readCheck s l
    let s1 := publishIf release s0 x.tid (localScope t h)
    if locPoison s0 l || v.tag = .poison then
      setRet (setLocField (setLocField s1 l 3 1 1) l 0 2 stFull) x t reg poisonTok 0
    else
      let old := loadTok fmt (locBytes s0 o (accessWidth fmt) l)
      let new := atomNew op old v v
      let s2 := setLocBytes (dropHalves (some x.tid) s1 l o (accessWidth fmt)) o (storeBytes fmt new.1) l
      setRet (setLocField s2 l 0 2 stFull) x t reg old new.2

/-- A take's commit (R160). -/
def commitTake (s : State) (tid : Nat) (l : GLoc) : State :=
  let s1 := dropHalves (some tid) s l 0 16
  setLocField (setLocField (setLocField s1 l 0 2 stEmpty) l 2 1 0) l 3 1 0

/-- FES (R164). -/
def commitFes (s : State) (l : GLoc) (full : Bool) : State :=
  if full then setLocField s l 0 2 stFull else setLocField (setLocField s l 0 2 stEmpty) l 3 1 0

/-- BINIT (R165). -/
def commitBinit (s : State) (tid : Nat) (l : GLoc) (n : Nat) : State :=
  let s1 := setLocBytes (dropHalves (some tid) s l 0 16) 0 (bytesOf 16 (n + n * 2 ^ 16)) l
  setLocField (setLocField (setLocField s1 l 0 2 stBarrier) l 2 1 0) l 3 1 0

/-- BARR (R166, R220): the granule with one arrival more, and the phase returned. -/
def commitBarr (s0 : State) (l : GLoc) : State × Nat :=
  let s := readCheck s0 l
  let v := natOfBytes (locBytes s 0 16 l)
  let p := bits v 32 16
  let rem := (bits v 0 16 + 65535) % 65536
  let v' := if rem = 0 then setBits (setBits v 0 16 (bits v 16 16)) 32 16 (p + 1) else setBits v 0 16 rem
  (noteLoc (setLocBytes s 0 (bytesOf 16 v') l) l, p)
where
  /-- An arrival changes the granule (R237). -/
  noteLoc (s : State) : GLoc → State
    | .here g => noteChange s g
    | .copy _ _ _ => s

/-- An invalidation that waits for a request waits for the effect that it becomes, which takes number `n` (R255). -/
def carryUse (s : State) (f : Firing) (n : Nat) : State :=
  let carry := fun (y : Inval) => if y.reqs.contains f then { y with effects := y.effects ++ [(f.tid, n)] } else y
  if s.gm.invals.isEmpty then s else { s with gm := { s.gm with invals := s.gm.invals.map carry } }

/-- The effect of one memory word. `s0` is the state before the commit, `now` whether a later act of the block follows it. -/
def memEffect (s0 : State) (x : Inst) (now : Bool) (s : State) (r : Request) : State :=
  let t := taskD s x.tid
  let reg := retRegOf s0 x r
  let rel := localRelease s r
  match r.kind with
  | .store va pa rdev fmt tok sc checked mst =>
    commitStore (carryUse s ⟨x.tid, x.iter, x.block, r.slot⟩ t.seq) t va pa rdev fmt tok sc checked mst now x.tid
  | .atom op va pa rdev fmt a b sc =>
    commitAtom (carryUse s ⟨x.tid, x.iter, x.block, r.slot⟩ t.seq) t ⟨x.tid, x.iter, t.seq, if sc.isSome then t.seq else t.floor, sc, t.launch, pa, rdev, op, fmt, a, b, reg,
      t.die, t.colour, t.vi, va⟩ now
  | .pref _ pa rdev ok => if ok && rdev = 0 then { s with gm := withLine s.gm (pa / 128) } else s
  | .fence _ => modTask s x.tid fun t => { t with floor := t.seq }
  | .lst h off fmt tok => commitLst s t x.tid h off fmt tok rel
  | .lamo op h off fmt v => commitLamo s t x op h off fmt v rel reg
  | .take h off => (match localGranule s h off with | some l => commitTake s x.tid l | none => s)
  | .fes h off full => (match localGranule s h off with
      | some l => commitFes (publishIf rel s x.tid (localScope t h)) l full
      | none => s)
  | .binit h off n => (match localGranule s h off with | some l => commitBinit s x.tid l n | none => s)
  | .barr h off => (match localGranule s h off with
      | some l =>
        let b := commitBarr (publish s x.tid (localScope t h)) l
        setRet b.1 x t reg (mkTok .n16 b.2) 0
      | none => s)
  | _ => s

/-- The line request of a store-class word, counted when it leaves (R16, R263). -/
def countLine (s0 : State) (x : Inst) (s : State) (r : Request) : State :=
  let die := paneDie (cellPane s0 ⟨x.tid, x.iter, x.block, r.slot⟩)
  match r.kind with
  | .store _ pa rdev _ _ _ _ _ | .atom _ _ pa rdev _ _ _ _ | .pref _ pa rdev true => lineRequest s die pa rdev
  | _ => s

/-- The memory words in LSID order; `s0` is the state before the commit. -/
def memEffects (s0 s : State) (x : Inst) : State :=
  let rs := sortReqs (x.requests.filter fun r => r.lsid.isSome)
  let behind := (rs.filter (behindAll s0 x)).foldl (fun a r => max a (r.lsid.getD 0 + 1)) 0
  let top := if actsLast s0 (taskD s0 x.tid) x then 64 else behind
  rs.foldl (fun s (r : Request) => memEffect s0 x (decide (r.lsid.getD 0 + 1 < top)) (countLine s0 x s r) r) s

/-- FREE at commit (R176). -/
def commitFree (s : State) (h : Nat) : State :=
  match handleRec h with
  | none => s
  | some k =>
    let r := tgetD s.al.recs k {}
    let s1 := setRec s k { r with count := r.count - 1 }
    if r.count ≤ 1 then askRelease s1 k else s1

/-- RELS at commit (R177): the granules cut off come from the end, of a spilled record those of its copy. -/
def commitRels (s : State) (h n : Nat) : State :=
  match handleRec h with
  | none => s
  | some k =>
    let r := tgetD s.al.recs k {}
    let len2 := min r.len2 (n - r.len1)
    let len1 := min r.len1 n
    let cut := (if len2 < r.len2 then [(r.base2 + len2, r.len2 - len2)] else [])
      ++ (if len1 < r.len1 then [(r.base1 + len1, r.len1 - len1)] else [])
    let s1 := setRec s k { r with len1 := len1, len2 := len2 }
    let copies := (rangeFrom (len1 + len2) (r.granules - (len1 + len2))).map fun j =>
      (recVi s r, r.ovf * 16 + 16 * j, r.ovs + j)
    if cut.isEmpty then s1
    else post s1 [.allocationRelease ⟨k / 4096, k % 4096, false, if r.spilled then [] else cut,
      if r.spilled then copies else [], r.gseq⟩]

/-- The live records that handles name. -/
def recsOf (s : State) (hs : List Nat) : Table Rec :=
  hs.foldl (fun acc h => match liveRec s h 0 with | .ok (k, r) => tput acc k r | .error _ => acc) []

/-- An engine word is numbered and joins its context's queue (R171). -/
def commitEngine (s : State) (t : Task) (x : Inst) (r : Request) (selector sub : Nat) (k : CmdKind) (reg : Option Nat) :
    State :=
  let f : Firing := ⟨x.tid, x.iter, x.block, r.slot⟩
  let key := ctxKey (cellPane s f) selector sub
  let c := ctxAt s key
  let n := c.issued + 1
  let cmd : Cmd := { num := n, tid := x.tid, order := t.order, seq := t.seq, recs := recsOf s (cmdHandles k), origin := originOf s t x r.slot, kind := k, issued := s.clk.cycle }
  setRet (setCtx s key { c with issued := n, queue := c.queue ++ [cmd] }) x t reg (mkTok .n64 n) 0

/-- A SYSWR on its way to the owner of register `n` (R206, R211). -/
def syswrMsg (n : Nat) (w : SysW) : Instr :=
  if 0x10 ≤ n ∧ n < 0x18 then .ovpWrite w
  else if 0x40 ≤ n ∧ n < 0x80 then .viCtlWrite w
  else if 0x80 ≤ n ∧ n < 0xB0 then .badnodeWrite w
  else if 0x100 ≤ n ∧ n < 0x180 then .tickSetWrite (.reg w)
  else if 0x181 ≤ n ∧ n < 0x188 then .streamSetWrite w
  else if n = 0x1D0 then .triggerWrite w
  else .sysregWrite w

/-- The effect of one store-class word without an LSID. A CANCEL that reaches the task's own launch leaves the task to the
block's end (R200). -/
def slotEffect (s0 : State) (x : Inst) (s : State) (r : Request) : State :=
  let t := taskD s x.tid
  let reg := retRegOf s0 x r
  let o := originOf s0 t x r.slot
  let pane := cellPane s0 ⟨x.tid, x.iter, x.block, r.slot⟩
  match r.kind with
  | .free h => commitFree s h
  | .rels h n => commitRels s h n
  | .engine sel sub k => commitEngine s t x r sel sub k reg
  | .ref f => post s [.refChangeArrive ⟨f, true, some x.tid, some o⟩]
  | .drop f => post s [.refChangeArrive ⟨f, false, some x.tid, some o⟩]
  | .launch card =>
    let l := newLaunch (publish s x.tid 2) { vi := t.vi, job := t.job, card := card, origin := some o }
    setRet l.2 x t reg (mkTok .i32 l.1) 0
  | .tickw source _ pa rdev =>
    let d := BitVec.ofNat 256 (natOfBytes (homeBytes s pa rdev 32))
    post { s with gm := if rdev = 0 then withLine s.gm (pa / 128) else s.gm } [.tickSetWrite (.install ⟨source, t.die, t.launch, d, t.vi, t.job, x.tid, x.iter, reg, dieTimeNs s 0⟩)]
  | .cancel l id => cancelLevel s t.vi t.job l id (placeOf s0 t x r.slot) (some x.tid)
  | .kvgrow va => growCommit s pane ⟨t.vi, x.tid, x.iter, t.launch, reg, va, s.clk.cycle,
      cellOf s0 t x.block r.slot % 16, r.slot, iterRank (oldestIter s0 x.tid) x.iter⟩
  | .syswr n v => post s [syswrMsg n ⟨paneDie pane, pane, n, v, some x.tid, some t.launch⟩]
  | .prof e v => perfProf s pane e v
  | _ => s

def slotEffects (s0 s : State) (x : Inst) : State :=
  (bySlot (x.requests.filter fun r => r.lsid.isNone)).foldl (slotEffect s0 x) s

/-! ### Registers (R38, R109, R117, R208 to R210) -/

/-- A register takes a token, giving up a FUTURE that it held (R38); g61 takes the low eight bits (R210). -/
def writeReg (s : State) (tid r : Nat) (v : Token) : State :=
  let was := regOf (taskD s tid) r
  let old := if was.tag = .future then regRead s tid r was else was
  let s0 := if was.tag = .future then regCheck s tid r else s
  let v' := if r = 61 then mkTok .n32 (v.val.toNat % 256) else v
  let s1 := storeReg (modTask s0 tid fun t => setReg t r v') tid r
  if old.tag = .future then post s1 [.refChangeArrive ⟨old.val, false, some tid, none⟩] else s1

/-- The WRITEs of the registers that `p` admits in ascending WID, then POISON for returned values whose predicate is POISON. -/
def writeRegs (p : Nat → Bool) (s0 s : State) (x : Inst) : State :=
  let es := blockSlots s0 x
  let put := fun (a : State) (r : Nat) (v : Token) => if p r then writeReg a x.tid r v else a
  let one := fun (a : State) (e : Nat × Instr) => match e.2 with
    | .write _ r _ => (match tget x.wrote e.1 with | some v => put a r.toNat v | none => a)
    | i => (match Instr.returning i, x.requests.any (fun q => q.slot = e.1), retWrite s0 x e.1 with
        | true, true, some (r, true) => put a r poisonTok
        | _, _, _ => a)
  es.foldl one s

/-- The registers that a block's commit gives a value, now or when it returns. -/
def regsTaken (s : State) (x : Inst) : List Nat :=
  ((blockSlots s x).filterMap fun e => match e.2 with
    | .write _ r _ => if (tget x.wrote e.1).isSome then some r.toNat else none
    | i => if Instr.returning i && x.requests.any fun q => q.slot = e.1 then (retWrite s x e.1).map Prod.fst else none)
  ++ (match x.branch with | some (.goto _ true) => [62] | _ => [])

/-- A value still to return for one of these registers of a task comes too late for it: a later iteration has given the
register its value (R24). It is waited for all the same. -/
def superseded (tid : Nat) (regs : List Nat) (t : Nat) (r : Option Nat) : Option Nat :=
  if t = tid && regs.any fun k => r = some k then none else r

def supersedeMsg (tid : Nat) (regs : List Nat) : Instr → Instr
  | .returnValueArrive m => .returnValueArrive { m with reg := superseded tid regs m.tid m.reg }
  | .atomicPerform m => .atomicPerform { m with reg := superseded tid regs m.tid m.reg }
  | .tickSetWrite (.install m) => .tickSetWrite (.install { m with reg := superseded tid regs m.tid m.reg })
  | m => m

def supersedeMail (tid : Nat) (regs : List Nat) (m : Mail) : Mail := { m with reg := superseded tid regs m.tid m.reg }

/-- The registers that a commit takes over from values still to return to its task. -/
def supersede (s : State) (tid : Nat) (regs : List Nat) : State :=
  if regs.isEmpty || (outstanding s tid).isEmpty then s
  else { s with
    net := s.net.map (supersedeMsg tid regs)
    fw := { s.fw with mailbox := s.fw.mailbox.map fun e => (e.1, supersedeMail tid regs e.2),
                      queue := s.fw.queue.map fun e => (e.1, e.2.map (supersedeMail tid regs)) } }

/-- References of the block's own SPAWNs that no WRITE and no LST has taken over are dropped (R38). -/
def dropRefs (s : State) (x : Inst) : State :=
  let kept := (x.wrote.filterMap fun e => if e.2.tag = .future then some e.2.val else none)
    ++ x.requests.filterMap fun r => match r.kind with
      | .lst _ _ _ tok => if tok.tag = .future then some tok.val else none
      | _ => none
  post s ((x.refs.filter fun f => !kept.contains f).map fun f => .refChangeArrive ⟨f, false, some x.tid, none⟩)

/-- The link of a call (R117). -/
def writeLink (s0 s : State) (x : Inst) : State :=
  match x.branch, blkOf s0 x with
  | some (.goto _ true), some b => writeReg s x.tid 62 (mkTok .addr (fallThrough x.block b.header))
  | _, _ => s

/-! ### The instance ends -/

/-- A waiting L token of a RED, which waits for its reduction (R138). -/
def isRedTok (s : State) (m : TokMsg) : Bool :=
  match instrAt s m.tid m.block m.slot, m.port with
  | some (.red _ _), .l => true
  | _, _ => false

/-- A RED's token that lay in the frame of the instance goes to another place: the frame is given up (R21, R138). -/
def rehouse (s : State) (x : Inst) : State :=
  let mine := s.wk.toks.filter fun e => inFrame e.place && e.msg.tid = x.tid && e.msg.iter = x.iter && isRedTok s e.msg
  let t := taskD s x.tid
  let move := fun (a : State) (e : TokEntry) =>
    if storeCount a (cellOf a t e.msg.block e.msg.slot) < 256 then putTok a e .store
    else match overflowPlace a t e.msg with
      | some p => storeSpill (putTok a e p) t e.msg p
      | none => tokenLost { a with wk := { a.wk with toks := lerase a.wk.toks e } } t e.msg
  mine.foldl move s

/-- The iteration under which a token waits that no instance will take: it is discarded when the loop ends (R23). -/
def deadIter : Nat := 2 ^ 48

/-- A token for an iteration that has committed as an instance of another block. -/
def deadTok (s : State) (x : Inst) (e : TokEntry) : TokEntry :=
  if e.msg.tid = x.tid && e.msg.iter = x.iter && e.msg.block ≠ x.block && !isRedTok s e.msg then
    { e with msg := { e.msg with iter := deadIter } }
  else e

/-- What is addressed to a committed instance goes with it, and what it still waits for is given up (R23, R139). -/
def endInst (s : State) (x : Inst) : State :=
  let own := ofInst x.tid x.iter
  let addressed := fun (m : TokMsg) => m.tid = x.tid && m.iter = x.iter && m.block = x.block && !isRedTok s m
  let s1 := (s.wk.births.filter fun b => own b.f).foldl undoBirth s
  let s2 := withdraw s1 (askedBy own)
  rehouse { s2 with
    net := s2.net.filter fun m => match m with
      | .tokenArrive k => !addressed k
      | .homeRead k => !own k.f
      | .pageWalk k => (match k.who with | .word f => !own f | _ => true)
      | _ => true
    gm := { s2.gm with held := s2.gm.held.filter (fun m => match m.who with | .word f => !own f | _ => true),
                       early := s2.gm.early.filter fun e => !(e.tid = x.tid && e.iter = x.iter) }
    wk := { s2.wk with
      insts := tdel s2.wk.insts (instKey x.tid x.iter)
      toks := (s2.wk.toks.filter fun e => !addressed e.msg).map (deadTok s x)
      reds := s2.wk.reds.filter fun r => !(r.tid = x.tid && r.block = x.block && r.m = x.iter)
      waits := s2.wk.waits.filter fun w => !own w.1
      births := s2.wk.births.filter fun b => !own b.f
      issue := s2.wk.issue.filter fun f => !own f
      ready := s2.wk.ready.filter fun r => !own r.f } } x

/-- The oldest uncommitted iteration, after those that have committed ahead of it. -/
def advance : Nat → Nat → List Nat → Nat × List Nat
  | 0, i, d => (i, d)
  | n + 1, i, d => if d.contains i then advance n ((i + 1) % iterMod) (d.filter fun k => k ≠ i) else (i, d)

/-- The loop after the commit of an iteration that stays in it. -/
def loopAfter (l : Loop) (iter : Nat) : Loop :=
  let a := advance (l.done.length + 1) l.first (l.done ++ [iter])
  { l with first := a.1, done := a.2 }

/-- The loop is left: the instances above are discarded, and the loop's waiting tokens (R23, R26). A RED's waiting L tokens stay
until a marker covers them or the colour drains (R138, log 115). -/
def leaveLoop (s : State) (tid : Nat) : State :=
  let s1 := (instsOf s tid).foldl discardInst s
  let s2 := { s1 with
    net := s1.net.filter fun m => match m with
      | .blockActivate a => a.tid ≠ tid
      | .tokenArrive k => k.tid ≠ tid || isRedTok s k
      | _ => true
    wk := { s1.wk with toks := s1.wk.toks.filter fun e => e.msg.tid ≠ tid || isRedTok s e.msg } }
  modTask s2 tid fun t => { t with loop := none }

/-- EXIT's commit (R119): the result goes to the future's home, and the task ends. -/
def commitExit (s : State) (t : Task) (tid : Nat) (v : Token) : State :=
  let p := futPayload t.fut (tgetD s.wk.futs t.fut {}).gen
  endTask (post s [.futureExitArrive ⟨p, tid, v, !t.spawned⟩]) tid

/-- Where control goes (R15, R20, R26). -/
def commitBranch (s : State) (x : Inst) : State :=
  let t := taskD s x.tid
  match x.branch with
  | some (.next _) => modTask s x.tid fun t => { t with loop := t.loop.map fun l => loopAfter l x.iter }
  | some (.goto va _) =>
    let s1 := if t.loop.isSome then leaveLoop s x.tid else s
    post s1 [.blockActivate ⟨x.tid, 0, va, true, true, false⟩]
  | some (.exit v) => commitExit (if t.loop.isSome then leaveLoop s x.tid else s) t x.tid v
  | none => s

/-! ### TRAP and BKPT (R120, R121) -/

/-- A maintenance graph's TRAP and BKPT records go to the management core (R120). -/
def trapRecord (s : State) (t : Task) (f : Flt) (p : Place4) : State :=
  if taskMaint s t then
    let r := recordBits f.code.num p.slot p.colour p.iter p.die p.pane p.block f.addr (dieTime s p.die).toNat
    let s1 := countFaultInfo s p.die f.code.num
    { s1 with fw := { s1.fw with records := s1.fw.records ++ [r] } }
  else writeRecord s t.vi f p

/-- The task stops at the commit point; the record is a release at SYSTEM scope, behind every effect of the task. -/
def trapStop (s0 s : State) (x : Inst) : State :=
  let t := taskD s0 x.tid
  match trapOf s0 t x with
  | none => s
  | some (c, slot, imm) =>
    discardAll (faultLaunch (trapRecord (publish s x.tid 3) t ⟨c, imm⟩ (placeOf s0 t x slot)) t.launch) x.tid true

/-- A task whose own launch one of its block's CANCELs has reached is reclaimed at the boundary behind the block (R39,
R200). -/
def cancelOwn (s0 s : State) (x : Inst) : State :=
  let hit := x.requests.any fun r => match r.kind with | .cancel _ _ => true | _ => false
  if hit && (tgetD s.jb.launches (taskD s0 x.tid).launch {}).lvl.cancelled then reclaimTask s x.tid else s

/-- The commit itself, one step (R16). A WRITE of g61 comes before the flags that the block's effects and its words set
(R210). -/
def commitNow (s : State) (x : Inst) : State :=
  let s0 := writeRegs (fun r => r = 61) s (supersede s x.tid (regsTaken s x)) x
  let s1 := slotEffects s (memEffects s s0 x) x
  let s2 := writeLink s (writeRegs (fun r => r ≠ 61) s s1 x) x
  let s3 := flagTask (dropRefs s2 x) x.tid x.flags
  let s4 := commitBranch (endInst s3 x) x
  wakeReads (cancelOwn s (trapStop s (settleWaits s4 x.tid x.iter) x) x) x.tid

/-- BLOCK_COMMIT. -/
def blockCommit (s : State) (tid iter : Nat) : State :=
  match taskAt s tid, instAt s tid iter with
  | some t, some x =>
    if !commitDue s t x then s
    else match commitFault s t x with
      | some (slot, f) => raise s tid iter slot f
      | none => commitNow s x
  | _, _ => s

def execBlockCommit (tid iter : Nat) (s : State) : Out := .next (blockCommit s tid iter)

/-! ### RETURN_VALUE_ARRIVE (R145, R147) -/

/-- A returned value: the flags, then the register; g61 takes no value that is not an integer. One that returns for a WRITE of
g61 takes the place of what g61 holds when it arrives (R145, log 117). -/
def returnValue (s : State) (m : RetMsg) : State :=
  let s1 := flagTask s m.tid m.flags
  let s2 := match m.reg, taskAt s1 m.tid with
    | some r, some _ => if r = 61 && !m.tok.tag.isInt then s1 else writeReg s1 m.tid r m.tok
    | _, _ => s1
  wakeReads s2 m.tid

def execReturnValueArrive (m : RetMsg) (s : State) : Out := .next (returnValue s m)

end Sys2Proof.Machine
end

