-- ==== Sys2Proof/Machine/Tiles.lean ====
section
/-! DEFINITION. Tiles and the Benes network: headers, B elements, the dot product and the accumulator update, CVTT's rows
(R76 to R81), the permutation of R258. -/

namespace Sys2Proof.Machine

/-! ### Headers (R76) -/

def tileRows (h : Nat) : Nat := bits h 0 8 + 1
def tileCols (h : Nat) : Nat := bits h 8 8
def tileFmt (h : Nat) : Option Tag := Tag.ofCode (bits h 16 5)
def tilePlanes (h : Nat) : Nat := bits h 21 5
def tileZero (h : Nat) : Bool := bits h 26 102 = 0

/-- Scale granules of M rows. -/
def scaleGranules (m : Nat) : Nat := (m + 15) / 16

/-- A BI tile: its rows and planes (R77). -/
def aTile (h : Nat) : Option (Nat × Nat) :=
  if tileFmt h = some .bi && 1 ≤ tilePlanes h && tilePlanes h ≤ 15 && tileCols h = 127 && tileZero h then
    some (tileRows h, tilePlanes h + 1) else none

def aGranules (m n : Nat) : Nat := 1 + scaleGranules m + m * n

/-- An accumulator tile: its rows, and whether it is FP32 (R80). -/
def accTile (h : Nat) : Option (Nat × Bool) :=
  if (tileFmt h = some .fp32 || tileFmt h = some .i32) && tilePlanes h = 0 && tileCols h = 127 && tileZero h then
    some (tileRows h, tileFmt h = some .fp32) else none

def accGranules (m : Nat) : Nat := 1 + 32 * m

/-- The form of a B tile: 1 TERN, 2 I4, 3 I8 (R79, R188). -/
def bForm (h : Nat) : Option Nat :=
  if tileFmt h = some .tern && tilePlanes h = 1 then some 1
  else if tileFmt h = some .i8 && tilePlanes h = 3 then some 2
  else if tileFmt h = some .i8 && tilePlanes h = 7 then some 3
  else none

/-- Rows and columns of a B tile are 128. -/
def bSquare (h : Nat) : Bool := tileRows h = 128 && tileCols h = 127 && tileZero h

/-- Granules of a B tile, header included (R188). -/
def bGranules : Nat → Nat
  | 1 => 257 | 2 => 521 | _ => 1033

/-- Accepted j of a form (R187). -/
def bAccepts : Nat → Nat → Bool
  | 1, _ => true
  | 2, j => j < 2
  | _, j => j = 0

/-- The quarters that a tile occupies (R187). -/
def bQuarters : Nat → Nat → List Nat
  | 1, j => [j]
  | 2, j => [2 * j, 2 * j + 1]
  | _, _ => [0, 1, 2, 3]

/-- A granule of a B tile that WLOAD refuses: a TERN code 0b10, an I8 element 0x80 (R188). `g` counts from the header. -/
def bBad (form g : Nat) (v : Nat) : Bool :=
  match form with
  | 1 => (List.range 64).any fun c => bits v (2 * c) 2 = 2
  | 3 => 9 ≤ g && (List.range 16).any fun c => bits v (8 * c) 8 = 0x80
  | _ => false

/-! ### B elements (R79); `d` are the granules after the header. -/

def leafGranule (d : List (BitVec 128)) (g : Nat) : Nat := ((d[g]?).getD 0).toNat

/-- Element (k, c). -/
def bElem (form : Nat) (d : List (BitVec 128)) (k c : Nat) : Int :=
  match form with
  | 1 => (match bits (leafGranule d (2 * k + c / 64)) (2 * (c % 64)) 2 with
      | 1 => 1
      | 3 => -1
      | _ => 0)
  | 2 => toSigned 4 (bits (leafGranule d (8 + 4 * k + c / 32)) (4 * (c % 32)) 4)
  | _ => toSigned 8 (bits (leafGranule d (8 + 8 * k + c / 16)) (8 * (c % 16)) 8)

/-- Column scale sB[c]; 127 for TERN. -/
def bScale (form : Nat) (d : List (BitVec 128)) (c : Nat) : Nat :=
  if form = 1 then 127 else bits (leafGranule d (c / 16)) (8 * (c % 16)) 8

/-- Element m[r][k] of a row given by its planes (R77). -/
def aElem (planes : List Nat) (k : Nat) : Int :=
  toSigned planes.length ((planes.zipIdx.map fun p => bits p.1 k 1 * 2 ^ p.2).foldl (· + ·) 0)

/-- The exact dot product of a row with column c (R81). -/
def dotProduct (planes : List Nat) (form : Nat) (d : List (BitVec 128)) (c : Nat) : Int :=
  ((List.range 128).map fun k => aElem planes k * bElem form d k c).foldl (· + ·) 0

/-- Mode of the accumulator (R81, R190). -/
inductive AccMode where
  | fp32 | saturating | wrapping
  deriving DecidableEq, Repr

/-- One accumulator value updated (R81): its new bits and the flags. -/
def accUpdate (mode : AccMode) (acc : Nat) (dot : Int) (sA sB : Nat) : Nat × FlagSet :=
  match mode with
  | .fp32 =>
    if sA = 0xFF ∨ sB = 0xFF then (tokBits (nanTok .fp32 (ieeeFmt 8 23 127)), fInvalid)
    else
      let p : FVal := .fin (decide (dot < 0)) dot.natAbs ((sA : Int) + sB - 254)
      let r := floatAddV .fp32 (ieeeFmt 8 23 127) false (unpackFmt (ieeeFmt 8 23 127) acc) p
      (tokBits r.1, r.2)
  | .saturating =>
    let v := toSigned 32 acc + dot
    if v < intMin .i32 then (tokBits (mkInt .i32 (intMin .i32)), fSat)
    else if intMax .i32 < v then (tokBits (mkInt .i32 (intMax .i32)), fSat)
    else (tokBits (mkInt .i32 v), 0)
  | .wrapping => (((toSigned 32 acc + dot) % 2 ^ 32).toNat, 0)

/-- A row of 128 accumulators updated: the new 32 granules, as numbers, and the flags. -/
def accRow (mode : AccMode) (accs : List Nat) (planes : List Nat) (sA form : Nat) (d : List (BitVec 128)) :
    List Nat × FlagSet :=
  let one := fun c =>
    accUpdate mode (bits ((accs[c / 4]?).getD 0) (32 * (c % 4)) 32) (dotProduct planes form d c) sA (bScale form d c)
  let res := (List.range 128).map one
  let word := fun c => ((res[c]?).getD (0, 0)).1
  ((List.range 32).map fun g => word (4 * g) + word (4 * g + 1) * 2 ^ 32 + word (4 * g + 2) * 2 ^ 64
      + word (4 * g + 3) * 2 ^ 96,
    (res.map Prod.snd).foldl (· ||| ·) 0)

/-! ### CVTT's rows (R78) -/

/-- The largest exponent floor(log2 |x|) of non-zero finite values. -/
def maxExp : List FVal → Option Int
  | [] => none
  | .fin _ m e :: t =>
    if m = 0 then maxExp t
    else
      let x := (m.log2 : Int) + e
      match maxExp t with
      | none => some x
      | some y => some (max x y)
  | _ :: t => maxExp t

/-- One integer of a row with scale s for n planes: its value and flags. -/
def cvttInt (n : Nat) (s : Nat) : FVal → Int × FlagSet
  | .fin neg m e =>
    let q : Int := (s : Int) - 127
    let r := (roundTo .nearestEven ⟨m, e, false⟩ q).1
    let lim := 2 ^ (n - 1) - 1
    let mag := min r lim
    let exact := decide (addDyadic false mag q true m e = none)
    ((if neg then -(mag : Int) else mag), flagIf (decide (lim < r)) fSat ||| flagIf (!exact) fInexact)
  | _ => (0, 0)

def infOrNan : FVal → Bool
  | .fin _ _ _ => false
  | _ => true

/-- The scale, the integers and the flags of a row. -/
def cvttRow (n : Nat) (xs : List FVal) : Nat × List Int × FlagSet :=
  if xs.any infOrNan then (0xFF, xs.map fun _ => 0, 0)
  else match maxExp xs with
    | none => (0, xs.map fun _ => 0, 0)
    | some emax =>
      let s := (max 0 (emax - ((n : Int) - 2) + 127)).toNat
      let r := xs.map (cvttInt n s)
      (s, r.map Prod.fst, (r.map Prod.snd).foldl (· ||| ·) 0)

/-- Plane p of a row of integers, as a 128-bit number (R77). -/
def planeOf (ms : List Int) (p : Nat) : Nat :=
  (ms.zipIdx.map fun m => bits ((m.1 % 2 ^ 16).toNat) p 1 * 2 ^ m.2).foldl (· + ·) 0

/-! ### The Benes network (R258) -/

/-- One stage: `cfg` is the configuration, `cur` the input element at each position. -/
def benesStage (cfg : Nat) (cur : List Nat) (s : Nat) : List Nat :=
  let d := if s ≤ 6 then 6 - s else s - 6
  (List.range 128).map fun p =>
    let w := p / 2 ^ (d + 1) * 2 ^ d + p % 2 ^ d
    (cur[if bits cfg (64 * s + w) 1 = 1 then Nat.xor p (2 ^ d) else p]?).getD 0

/-- π: position j holds input element π(j). -/
def benes (cfg : Nat) : List Nat := (List.range 13).foldl (benesStage cfg) (List.range 128)

end Sys2Proof.Machine
end

