-- ==== Sys2Proof/Machine/Engines.lean ====
section
/-! DEFINITION. The engines: the start and the end of commands, their reads and writes, copies, gathers, permutes, the
waffles and the tile converter (R149, R171 to R173, R179 to R192, R263, R265). The bytes of CP and CPP move a granule at a
time by `engineMove`, as time passes. -/

namespace Sys2Proof.Machine

/-! ### Contexts and heads -/

def ctxDie (k : Nat) : Nat := k / 1024

/-- The class E of a context (R265). -/
def ctxClass (k : Nat) : Nat :=
  let r := k % 1024
  if r < 64 then 0 else if r < 128 then 1 else 2 + r % 4

def headOf (s : State) (k : Nat) : Option Cmd := (ctxAt s k).queue.head?

/-- The running command of a context. -/
def running (s : State) (k : Nat) : Option Cmd :=
  match headOf s k with
  | some c => if c.started && c.status.isNone then some c else none
  | none => none

def modHead (s : State) (k : Nat) (f : Cmd → Cmd) : State :=
  let c := ctxAt s k
  match c.queue with
  | h :: t => setCtx s k { c with queue := f h :: t }
  | [] => s

/-- The command ends with a status at its next ENGINE_CMD_END; with status 2 at a byte offset (R173). -/
def finish (s : State) (k st off : Nat) : State :=
  modHead s k fun c => { c with status := some st, stopAt := if st = 2 then off else c.stopAt }

/-- The task that issued a command, while it lives. -/
def cmdTask (s : State) (c : Cmd) : Option Nat :=
  match taskAt s c.tid with
  | some t => if t.order = c.order then some c.tid else none
  | none => none

/-- Flags of a command go to the issuing task (R81, R192). -/
def cmdFlags (s : State) (c : Cmd) (fl : FlagSet) : State :=
  match cmdTask s c with
  | some tid => flagTask s tid fl
  | none => s

/-- A record as a command holds it, at the place to which it has been spilled since. -/
def heldRec (s : State) (k : Nat) (r : Rec) : Rec :=
  let now := tgetD s.al.recs k {}
  if now.live && now.gseq = r.gseq then { r with spilled := now.spilled, ovf := now.ovf, ovs := now.ovs } else r

/-- The record of a handle, as the command holds it. -/
def cmdRec (s : State) (c : Cmd) (h : Nat) : Option (Nat × Rec) :=
  match handleRec h with
  | none => none
  | some k => match tget c.recs k with
    | some r => some (k, heldRec s k r)
    | none => (match liveRec s h 0 with | .ok x => some x | .error _ => none)

/-- An identity for a command among all those that write lines (R149). -/
def cmdId (k : Nat) (c : Cmd) : Nat := (k * 2 ^ 64 + c.num) * 2

/-! ### Reads (R172) -/

/-- What a read of 16 bytes gives: the bytes with their poison, a wait, or a stop with status 2. -/
inductive Fetch where
  | bytes (b : List Byte) (poison : Bool)
  | wait
  | missing (va : Nat)
  | stop
  deriving DecidableEq, Repr

/-- A context held on a missing page (R172). -/
def engineHeld (s : State) (k : Nat) : Bool := s.gm.held.any fun m => m.who = .engine k

def holdEngine (s : State) (k : Nat) (c : Cmd) (va : Nat) (write : Bool) : State :=
  let m : WalkMsg := ⟨ctxDie k, c.origin.pane, c.origin.vi, va, write, .engine k⟩
  sendPageFault { s with gm := { s.gm with held := s.gm.held ++ [m] } } (ctxDie k) c.origin.vi va write

/-- Granule `j` of a handle's record; none beyond its end. -/
def cmdGranule (s : State) (c : Cmd) (h j : Nat) : Option GLoc :=
  match cmdRec s c h with
  | some (k, r) => if j < r.granules then some (recGranule s k r j) else none
  | none => none

/-- 16 bytes of a side at an offset. -/
def fetch16 (s : State) (c : Cmd) (side : Side) (off : Nat) : Fetch :=
  match side with
  | .addr a =>
    let va := (a + off) % 2 ^ 52
    (match devXlat s c.origin.vi va .read with
      | .hit pa r _ => .bytes (homeBytes s pa r 16) (homePoison s pa r 16)
      | .missing => .missing va
      | _ => .stop)
  | .handle h =>
    match cmdGranule s c h (off / 16) with
    | none => .stop
    | some l => if locStateField s l = stFull then .bytes (locBytes s 0 16 l) (locPoison s l) else .wait

/-- A line request of a command, as it moves on to another line of global memory (R263, log 92); `n` says of which of its
streams of accesses. -/
def engLine (s : State) (k n : Nat) (pa r : Nat) : State :=
  let line := r * 2 ^ 52 + pa / 128
  if ((headOf s k).bind fun c => tget c.lines n) = some line then s
  else modHead (lineRequest s (ctxDie k) pa r) k fun c => { c with lines := tput c.lines n line }

/-- The line requests of an access to a granule by its handle: those of a spill copy, for its bytes and its state byte (R223,
R263). -/
def engCopyLine (s : State) (k n : Nat) : GLoc → State
  | .here _ => s
  | .copy vi d st =>
    let one := fun (s : State) (x : Nat × Nat) => match devXlat s vi x.2 .read with
      | .hit pa r _ => engLine s k x.1 pa r
      | _ => s
    one (one s (n, d)) (n + 2, st)

/-- What a read does to the state beside its value: the line or the code word is read, the request counted (R220, R263). -/
def fetchTouch (s : State) (k : Nat) (c : Cmd) (side : Side) (off : Nat) : State :=
  match side with
  | .addr a =>
    let va := (a + off) % 2 ^ 52
    (match devXlat s c.origin.vi va .read with
      | .hit pa r _ =>
        touchAt c.origin.vi (engLine s k 0 pa r) va
      | _ => s)
  | .handle h => match cmdGranule s c h (off / 16) with | some l => readCheck (engCopyLine s k 0 l) l | none => s

/-- A read of a running command, then `f`; a wait leaves the state as it is. -/
def engRead (s : State) (k : Nat) (c : Cmd) (side : Side) (off at_ : Nat) (f : State → List Byte → Bool → State) : State :=
  let s1 := match fetch16 s c side off with | .bytes _ _ => fetchTouch s k c side off | _ => s
  match fetch16 s1 c side off with
  | .bytes b p => f s1 b p
  | .wait => s
  | .missing va => holdEngine s k c va false
  | .stop => finish s k 2 at_

/-- The first of the reads that gives no bytes is one that waits on a granule. -/
def readsWait (s : State) (c : Cmd) (rs : List (Side × Nat)) : Bool :=
  (rs.findSome? fun x => match fetch16 s c x.1 x.2 with
    | .bytes _ _ => none
    | .wait => some true
    | _ => some false).getD false

/-- Several reads of one command, made one after another; `at_` is the offset named if one at an offset stops. -/
def engReadsFrom (s : State) (k : Nat) (c : Cmd) (at_ : Nat → Nat) :
    List (Side × Nat) → List (Nat × Bool) → (State → List (Nat × Bool) → State) → State
  | [], acc, f => f s acc.reverse
  | (side, off) :: t, acc, f =>
    engRead s k c side off (at_ off) fun s1 b p => engReadsFrom s1 k c at_ t ((natOfBytes b, p) :: acc) f

/-- Several reads of one command: none is made while one of them waits. -/
def engReads (s : State) (k : Nat) (c : Cmd) (at_ : Nat → Nat) (rs : List (Side × Nat))
    (f : State → List (Nat × Bool) → State) : State :=
  if readsWait s c rs then s else engReadsFrom s k c at_ rs [] f

/-! ### Writes (R149, R172, R288) -/

/-- Bytes written to a line by one command or packet: it loses its poison when one of them has written all of it (R149). -/
def coverLine (id : Nat) (off n : Nat) (l : Line) : Line :=
  if !l.poison then { l with cover := none }
  else
    let old := match l.cover with | some (i, m) => if i = id then m.toNat else 0 | none => 0
    let m := Nat.lor old ((2 ^ n - 1) * 2 ^ off)
    if m = 2 ^ 128 - 1 then { l with poison := false, cover := none } else { l with cover := some (id, BitVec.ofNat 128 m) }

/-- An engine write within a line; bytes from a poisoned source poison it. -/
def engineStore (g : Gm) (pa : Nat) (bs : List Byte) (poison : Bool) (id : Nat) : Gm :=
  if poison then writeLine g pa (bs.map some) fun l => { l with poison := true, cover := none }
  else writeLine g pa (bs.map some) (coverLine id (pa % 128) bs.length)

/-- A granule written by an engine: FULL, its poison that of the bytes, a release (R172). -/
def engineFill (s : State) (c : Cmd) (pane : Nat) (l : GLoc) (bs : List Byte) (poison : Bool) : State :=
  let full := decide (locStateField s l = stFull)
  let s1 := match cmdTask s c with
    | some tid =>
      let t := taskD s tid
      publishIf (!full) s tid (if pane = t.pane then 0 else if pane / 192 = t.die then 1 else 2)
    | none => s
  let s2 := setLocBytes (dropHalves none s1 l 0 16) 0 bs l
  let s3 := setLocField (setLocField s2 l 3 1 (b1 poison)) l 0 2 stFull
  match locUnit l with
  | some g => publishUnit s3 c.tid (.granule g)
  | none => s3

/-- 16 bytes written to a side, then `f`; `at_` is the offset named if it stops. -/
def engWrite (s : State) (k : Nat) (c : Cmd) (side : Side) (off at_ : Nat) (bs : List Byte) (poison : Bool)
    (f : State → State) : State :=
  match side with
  | .addr a =>
    let va := (a + off) % 2 ^ 52
    (match devXlat s c.origin.vi va .write with
      | .hit pa r checked =>
        let s1 := engLine (touchAt c.origin.vi s va) k 1 pa r
        if r ≠ 0 then f s1
        else
          let s2 := { s1 with gm := engineStore s1.gm pa bs poison (cmdId k c) }
          f (if checked then publishUnit s2 c.tid (halfUnit pa) else s2)
      | .missing => holdEngine s k c va true
      | _ => finish s k 2 at_)
  | .handle h =>
    match cmdGranule s c h (off / 16) with
    | none => finish s k 2 at_
    | some l =>
      if locStateField s l = stBarrier then finish s k 2 at_
      else f (engineFill (engCopyLine s k 1 l) c ((handleRec h).getD 0 / 4096) l bs poison)

/-- Several writes, in order; a stop names the destination's offset. -/
def engWrites (s : State) (k : Nat) (c : Cmd) : List (Side × Nat × Nat × Bool) → (State → State) → State
  | [], f => f s
  | (side, off, v, p) :: t, f =>
    engWrite s k c side off off (bytesOf 16 v) p fun s1 => engWrites s1 k c t f

/-! ### CP (R179, R180) -/

/-- The copy is at its end, or at the boundary at which it is revoked. -/
def cpDone (s : State) (k : Nat) (c : Cmd) (n off : Nat) : State :=
  if c.revoked && c.stopAt ≤ off then finish s k 1 off
  else if n ≤ off then finish s k 0 off
  else s

/-- One granule of a copy. -/
def cpMove (s : State) (k : Nat) (c : Cmd) (src dst : Side) (n : Nat) : State :=
  if n ≤ c.off ∨ (c.revoked = true ∧ c.stopAt ≤ c.off) then cpDone s k c n c.off
  else
    engRead s k c src c.off c.off fun s1 b p =>
      engWrite s1 k c dst c.off c.off b p fun s2 =>
        cpDone (modHead s2 k fun x => { x with off := c.off + 16 }) k c n (c.off + 16)

/-! ### CPP (R184) -/

/-- Granule `j` of a permuted group: its bytes, and whether one of its sources is poisoned. -/
def cppGranule (perm : List Nat) (esz : Nat) (group : List (Nat × Bool)) (j : Nat) : Nat × Bool :=
  let w := 2 ^ esz
  let per := 16 / w
  let elem := fun e =>
    let p := (perm[j * per + e]?).getD 0
    let g := (group[p * w / 16]?).getD (0, false)
    (bits g.1 (8 * (p * w % 16)) (8 * w), g.2)
  let es := (List.range per).map elem
  ((es.zipIdx.map fun x => x.1.1 * 2 ^ (8 * w * x.2)).foldl (· + ·) 0, es.any fun x => x.2)

/-- One step of a permute: the next group is read whole, or the next granule of it written. -/
def cppMove (s : State) (k : Nat) (c : Cmd) (src dst groups esz : Nat) : State :=
  let gran := 8 * 2 ^ esz
  match c.loading with
  | [] =>
    if groups * gran * 16 ≤ c.off then finish s k 0 c.off
    else
      engReads s k c (fun _ => c.off) ((List.range gran).map fun j => (Side.handle src, c.off + 16 * j)) fun s1 group =>
        let out := (List.range gran).map (cppGranule (benes c.perm.toNat) esz group)
        modHead s1 k fun x => { x with loading := out.map fun v => (BitVec.ofNat 128 v.1, v.2) }
  | v :: more =>
    engWrite s k c (.handle dst) c.off c.off (bytesOf 16 v.1.toNat) v.2 fun s1 =>
      let s2 := modHead s1 k fun x => { x with off := c.off + 16, loading := more }
      if groups * gran * 16 ≤ c.off + 16 then finish s2 k 0 (c.off + 16) else s2

/-- Time moves a running copy or permute on by one granule. -/
def engineMove (s : State) (k : Nat) : State :=
  if engineHeld s k then s
  else match running s k with
    | none => s
    | some c => match c.kind with
      | .cp a b n _ => cpMove s k c a b n
      | .cpp a b g _ e => cppMove s k c a b g e
      | _ => s

/-! ### Starts (R171, R172, R181, R183, R188, R190, R192) -/

/-- A base of a gather's record (R181). -/
def gatherSide (v : Nat) : Option Side :=
  if bits v 63 1 = 0 then (if bits v 52 11 = 0 && v % 16 = 0 then some (.addr v) else none)
  else if bits v 32 31 = 0 then some (.handle (bits v 0 32)) else none

/-- The record of a gather, in order (R181). -/
def gatherOf (s : State) (c : Cmd) (a b : Nat) : Option (Gather × Table Rec) :=
  let rowBytes := bits b 32 32
  let rows := bits b 64 32
  let idx := bits b 0 32
  match gatherSide (bits a 0 64), gatherSide (bits a 64 64), cmdRec s c idx with
  | some src, some dst, some (_, ir) =>
    let live := fun (x : Side) => match x with | .addr _ => true | .handle h => (cmdRec s c h).isSome
    if rowBytes % 16 = 0 && 16 ≤ rowBytes && rowBytes ≤ 65536 && 1 ≤ rows && rows ≤ 65536 && bits b 96 32 = 0
        && 4 * rows ≤ ir.granules * 16 && live src && live dst then
      let hs := (match src with | .handle h => [h] | .addr _ => []) ++ (match dst with | .handle h => [h] | .addr _ => []) ++ [idx]
      some (⟨src, dst, idx, rowBytes, rows⟩,
        hs.foldl (fun acc h => match cmdRec s c h with | some (q, r) => tput acc q r | none => acc) c.recs)
    else none
  | _, _, _ => none

def start (s : State) (k : Nat) (f : Cmd → Cmd) : State := modHead s k fun c => f { c with started := true }

/-- A handle whose record is being copied to its overflow area: an engine start on it waits (R237). -/
def handleSpilling (s : State) (h : Nat) : Bool := match handleRec h with | some k => spillingRec s k | none => false

/-- CPG and CPS start: the command record is read, its two granules waited on. -/
def startGather (s : State) (k : Nat) (c : Cmd) (h : Nat) : State :=
  match cmdRec s c h with
  | none => finish (start s k id) k 2 0
  | some (q, r) =>
    let c1 := { c with recs := tput c.recs q r }
    if r.granules < 2 then finish (start s k id) k 2 0
    else
      engReads s k c1 (fun _ => 0) [(.handle h, 0), (.handle h, 16)] fun s1 gs =>
        match gs with
        | [(a, pa), (b, pb)] =>
          (match (if pa || pb then none else gatherOf s1 c1 a b) with
            | some (g, recs) =>
              if (gatherHandles (some g)).any (handleSpilling s1) then s
              else start s1 k fun x => { x with gat := some g, recs := recs }
            | none => finish (start s1 k id) k 2 0)
        | _ => s

/-- PSET reads 104 bytes and writes the register whole (R183); a read that is refused or poisoned stops it at its offset (R149,
R173). -/
def startPset (s : State) (k : Nat) (c : Cmd) (src : Side) (reg : Nat) : State :=
  engReads s k c id ((List.range 7).map fun j => (src, 16 * j)) fun s1 gs =>
    match gs.findIdx? fun g => g.2 with
    | some j => finish (start s1 k id) k 2 (16 * j)
    | none =>
      let v := (gs.zipIdx.map fun x => x.1.1 * 2 ^ (128 * x.2)).foldl (· + ·) 0
      let key := ctxDie k * 32 + (k % 1024 - 64) / 4 * 8 + reg
      let s2 := { s1 with en := { s1.en with benes := tputD 0 s1.en.benes key (BitVec.ofNat 832 v) } }
      finish (start s2 k id) k 0 0

/-- CPP captures its register whole (R184). -/
def startCpp (s : State) (k reg : Nat) : State :=
  let v := tgetD s.en.benes (ctxDie k * 32 + (k % 1024 - 64) / 4 * 8 + reg) 0
  start s k fun c => { c with perm := v }

/-- The key of a leaf: the pane, the waffle and j. -/
def leafKey (pane w j : Nat) : Nat := (pane * 3 + w) * 4 + j
def ctxPane (k : Nat) : Nat := ctxDie k * 192 + (k % 1024 - 128) / 4

def clearLeaf (s : State) (key : Nat) : State := { s with en := { s.en with leaves := tdel s.en.leaves key } }

/-- WLOAD starts: the tile under (k, j) is gone (R187, R188). -/
def startWload (s : State) (k : Nat) (c : Cmd) (w j h : Nat) : State :=
  let s1 := clearLeaf s (leafKey (ctxPane k) w j)
  match cmdRec s c h with
  | none => finish (start s1 k id) k 2 0
  | some (q, r) => start s1 k fun x => { x with recs := tput x.recs q r }

/-- WMMA's checks (R82, R190). -/
def startWmma (s : State) (k : Nat) (c : Cmd) (w j a acc : Nat) : State :=
  match cmdRec s c a, cmdRec s c acc with
  | some (qa, ra), some (qb, rb) =>
    let c1 := { c with recs := tput (tput c.recs qa ra) qb rb }
    engReads s k c1 (fun _ => 0) [(.handle a, 0), (.handle acc, 0)] fun s1 gs =>
      match gs with
      | [(ha, pa), (hb, pb)] =>
        (match aTile ha, accTile hb with
          | some (m, n), some (m', fp) =>
            if !pa && !pb && m = m' && aGranules m n ≤ ra.granules && accGranules m ≤ rb.granules
                && (tget s1.en.leaves (leafKey (ctxPane k) w j)).isSome then
              start s1 k fun x => { x with recs := c1.recs, rows := m, planes := n, fp := fp }
            else finish (start s1 k id) k 2 0
          | _, _ => finish (start s1 k id) k 2 0)
      | _ => s
  | _, _ => finish (start s k id) k 2 0

/-- The source of CVTT: rows and granules of a row (R192). -/
def cvttSource (h : Nat) : Option (Nat × Nat) :=
  if tilePlanes h = 0 && tileCols h = 127 && tileZero h then
    (match tileFmt h with
      | some .fp32 => some (tileRows h, 32)
      | some .bf16 => some (tileRows h, 16)
      | _ => none)
  else none

/-- CVTT starts: its header checks, then the destination's header. -/
def startCvtt (s : State) (k : Nat) (c : Cmd) (n src dst : Nat) : State :=
  match cmdRec s c src, cmdRec s c dst with
  | some (qa, ra), some (qb, rb) =>
    let c1 := { c with recs := tput (tput c.recs qa ra) qb rb }
    engRead s k c1 (.handle src) 0 0 fun s1 b p =>
      match cvttSource (natOfBytes b) with
      | some (m, g) =>
        if p || ra.granules < 1 + m * g || rb.granules < aGranules m n then finish (start s1 k id) k 2 0
        else
          let hdr := (m - 1) + 127 * 2 ^ 8 + Tag.code .bi * 2 ^ 16 + (n - 1) * 2 ^ 21
          let s2 := start s1 k fun x => { x with recs := c1.recs, form := g, rows := m }
          engWrite s2 k c1 (.handle dst) 0 0 (bytesOf 16 hdr) false id
      | none => finish (start s1 k id) k 2 0
  | _, _ => finish (start s k id) k 2 0

/-- A WMMA of a graph that a shutter's marker has reached, on a cell of its pane, starts no row until the resume (R191,
R299). -/
def wmmaHeld (s : State) (k : Nat) (c : Cmd) : Bool :=
  let gk := (tgetD s.jb.launches c.origin.launch {}).graph
  match c.kind with
  | .wmma _ _ _ _ _ =>
    (match tget s.sh.active gk with
      | some x => x.cut || x.marked.any fun cell => cell / 16 = ctxPane k
      | none => (match tget s.sh.saved gk with | some v => !v.armed | none => false))
  | _ => false

/-- ENGINE_CMD_START: the head of a context, once its task's earlier effects have performed (R171, R172). -/
def cmdStart (s : State) (k : Nat) : State :=
  match headOf s k with
  | none => s
  | some c =>
    if c.started || c.status.isSome || engineHeld s k || wmmaHeld s k c || !performedBelow s c.tid c.seq
        || (cmdHandles c.kind).any (handleSpilling s) then s
    else if c.revoked then finish s k 1 0
    else match c.kind with
      | .cp _ _ n _ => if n = 0 then finish (start s k id) k 0 0 else start s k id
      | .gather _ h => startGather s k c h
      | .pset src reg => startPset s k c src reg
      | .cpp _ _ _ reg _ => startCpp s k reg
      | .wload w j h => startWload s k c w j h
      | .wmma w j _ a acc => startWmma s k c w j a acc
      | .cvtt n a b => startCvtt s k c n a b

def execEngineCmdStart (ctx : Nat) (s : State) : Out := .next (cmdStart s ctx)

/-! ### GATHER_ROW (R182) -/

/-- The offset of row `i` of a side, and whether the row lies within it. -/
def rowFits (c : Cmd) (s : State) (side : Side) (i rowBytes : Nat) : Bool :=
  match side with
  | .addr _ => true
  | .handle h => match cmdRec s c h with
    | some (_, r) => (i + 1) * rowBytes ≤ r.granules * 16
    | none => false

/-- A granule of the row has been written, or the row skipped; the next row takes its own index. -/
def rowNext (s : State) (k : Nat) (g : Gather) (row off : Nat) : State :=
  if off < g.rowBytes then modHead s k fun x => { x with off := off }
  else
    let s1 := modHead s k fun x => { x with row := row + 1, off := 0, elem := none }
    if row + 1 < g.rows then s1 else finish s1 k 0 0

/-- The index of a row is taken, once (R182); a poisoned one stops the command (log 53). -/
def gatherIndex (s : State) (k : Nat) (c : Cmd) (g : Gather) : State :=
  let row := c.row * g.rowBytes
  engRead s k c (.handle g.idx) (4 * c.row / 16 * 16) row fun s1 b p =>
    if p then finish s1 k 2 row
    else modHead s1 k fun x => { x with elem := some (toSigned 32 (bits (natOfBytes b) (32 * (c.row % 4)) 32)) }

/-- The next granule of a row whose index is `j`. -/
def gatherMove (s : State) (k : Nat) (c : Cmd) (scatter : Bool) (g : Gather) (j : Int) : State :=
  let row := c.row * g.rowBytes
  let src := if scatter then c.row else j.toNat
  let dst := if scatter then j.toNat else c.row
  let put := fun (s1 : State) (v : List Byte) (q : Bool) =>
    engWrite s1 k c g.dst (dst * g.rowBytes + c.off) (row + c.off) v q fun s2 => rowNext s2 k g c.row (c.off + 16)
  if scatter && decide (j < 0) then rowNext s k g c.row g.rowBytes
  else if (decide (0 ≤ j) && !rowFits c s g.src src g.rowBytes) || !rowFits c s g.dst dst g.rowBytes then finish s k 2 row
  else if j < 0 then put s (List.replicate 16 0) false
  else engRead s k c g.src (src * g.rowBytes + c.off) (row + c.off) put

/-- One step of a gather or scatter (R182). -/
def gatherStep (s : State) (k : Nat) (c : Cmd) (scatter : Bool) (g : Gather) : State :=
  match c.elem with
  | none => gatherIndex s k c g
  | some j => gatherMove s k c scatter g j

/-- GATHER_ROW. -/
def gatherRow (s : State) (k : Nat) : State :=
  if engineHeld s k then s
  else match running s k with
    | some c => (match c.kind, c.gat with
        | .gather sc _, some g => gatherStep s k c sc g
        | _, _ => s)
    | none => s

def execGatherRow (ctx : Nat) (s : State) : Out := .next (gatherRow s ctx)

/-! ### WLOAD_RUN (R188) -/

/-- The header of a tile has been read: its form, its place, its length. -/
def wloadHeader (s : State) (k : Nat) (c : Cmd) (w j len hdr : Nat) (poison : Bool) : State :=
  match (if poison then none else bForm hdr) with
  | none => finish s k 2 0
  | some form =>
    if !bSquare hdr || !bAccepts form j || len < bGranules form then finish s k 2 0
    else
      let pane := ctxPane k
      let clash := fun j' => match tget s.en.leaves (leafKey pane w j') with
        | some l => j' ≠ j && (bQuarters l.form j').any fun q => (bQuarters form j).contains q
        | none => false
      let s1 := ((List.range 4).filter clash).foldl (fun a j' => clearLeaf a (leafKey pane w j')) s
      modHead s1 k fun x => { x with form := form, row := c.row + 1 }

/-- WLOAD_RUN: the next granule of the tile. -/
def wloadStep (s : State) (k : Nat) (c : Cmd) (w j h : Nat) : State :=
  engRead s k c (.handle h) (16 * c.row) (16 * c.row) fun s1 b p =>
    let v := natOfBytes b
    if c.row = 0 then
      (match cmdRec s1 c h with
        | some (_, r) => wloadHeader s1 k c w j r.granules v p
        | none => finish s1 k 2 0)
    else if p || bBad c.form c.row v then finish s1 k 2 (16 * c.row)
    else
      let data := c.loading ++ [(BitVec.ofNat 128 v, false)]
      if c.row + 1 < bGranules c.form then modHead s1 k fun x => { x with loading := data, row := c.row + 1 }
      else
        let leaf : Leaf := ⟨c.form, h, data.map Prod.fst⟩
        finish { s1 with en := { s1.en with leaves := tput s1.en.leaves (leafKey (ctxPane k) w j) leaf } } k 0 0

def wloadRun (s : State) (k : Nat) : State :=
  match running s k with
  | some c => (match c.kind with | .wload w j h => wloadStep s k c w j h | _ => s)
  | none => s

def execWloadRun (ctx : Nat) (s : State) : Out := .next (wloadRun s ctx)

/-! ### WMMA_ROW (R81, R190) -/

/-- The granules of row r: the scale granule and the planes of A, then the accumulators. -/
def wmmaReads (a acc m n r : Nat) : List (Side × Nat) :=
  (Side.handle a, 16 * (1 + r / 16))
    :: ((List.range n).map fun p => (Side.handle a, 16 * (1 + scaleGranules m + r * n + p)))
    ++ (List.range 32).map fun g => (Side.handle acc, 16 * (1 + 32 * r + g))

/-- Whether every one of these reads gives its bytes now. -/
def readsReady (s : State) (c : Cmd) (rs : List (Side × Nat)) : Bool :=
  rs.all fun r => match fetch16 s c r.1 r.2 with | .bytes _ _ => true | _ => false

/-- The rows that are broadcast and in the pipeline at once: row r is written 12 cycles after its last plane, n planes a
row (R190). -/
def pipeRows (n : Nat) : Nat := (12 + n - 1) / n + 1

/-- The next row's granules, as numbers with their poison, become its new accumulators (R81). A row computed from poisoned
granules sets its flags like any other (log 93). -/
def wmmaResult (c : Cmd) (sat : Bool) (leaf : Leaf) (gs : List (Nat × Bool)) : TakenRow :=
  let planes := (gs.drop 1).take c.planes
  let accs := gs.drop (1 + c.planes)
  let sA := bits ((gs[0]?).getD (0, false)).1 (8 * (c.row % 16)) 8
  let mode : AccMode := if c.fp then .fp32 else if sat then .saturating else .wrapping
  let res := accRow mode (accs.map Prod.fst) (planes.map Prod.fst) sA leaf.form leaf.data
  let bad := (gs.take (1 + c.planes)).any fun g => g.2
  ⟨c.row, res.1.zipIdx.map fun x => (BitVec.ofNat 128 x.1, bad || ((accs[x.2]?).getD (0, false)).2), res.2⟩

/-- The granules of row `r` of an accumulator. -/
def accOffsets (r : Nat) : List Nat := (List.range 32).map fun g => 16 * (1 + 32 * r + g)

/-- Granules of a handle become EMPTY: a row is taken. -/
def emptyGranules (s : State) (c : Cmd) (h : Nat) (offs : List Nat) : State :=
  offs.foldl (fun a off => match cmdGranule a c h (off / 16) with
    | some l => setLocField a l 0 2 stEmpty
    | none => a) s

/-- The next row is taken: its 32 granules become EMPTY while its planes are broadcast. -/
def wmmaTake (s : State) (k : Nat) (c : Cmd) (sat : Bool) (a acc : Nat) (leaf : Leaf) : State :=
  engReads s k c (fun _ => 0) (wmmaReads a acc c.rows c.planes c.row) fun s1 gs =>
    modHead (emptyGranules s1 c acc (accOffsets c.row)) k fun x =>
      { x with row := c.row + 1, taken := x.taken ++ [wmmaResult c sat leaf gs] }

/-- The oldest row taken is written: its granules become FULL, its flags go to the issuing task. -/
def wmmaWrite (s : State) (k : Nat) (c : Cmd) (acc : Nat) (t : TakenRow) : State :=
  engWrites s k c (((accOffsets t.row).zip t.vals).map fun x => (Side.handle acc, x.1, x.2.1.toNat, x.2.2)) fun s1 =>
    let s2 := modHead (cmdFlags s1 c t.flags) k fun x => { x with taken := x.taken.tail }
    if c.taken.length ≤ 1 && c.rows ≤ c.row then finish s2 k 0 0 else s2

/-- One step of a WMMA: the next row is taken once it is FULL and the pipeline has room, else the oldest taken row is
written. A leaf that a failed replay has left without a tile ends it with status 2 (R189). -/
def wmmaStep (s : State) (k : Nat) (c : Cmd) (w j : Nat) (sat : Bool) (a acc : Nat) : State :=
  let next := c.row < c.rows && !wmmaHeld s k c
  match c.taken, tget s.en.leaves (leafKey (ctxPane k) w j) with
  | [], none => if next then finish s k 2 0 else s
  | t :: _, none => wmmaWrite s k c acc t
  | ts, some leaf =>
    if next && ts.length < pipeRows c.planes && readsReady s c (wmmaReads a acc c.rows c.planes c.row) then
      wmmaTake s k c sat a acc leaf
    else match ts with
      | t :: _ => wmmaWrite s k c acc t
      | [] => s

/-- WMMA_ROW. -/
def wmmaRow (s : State) (k : Nat) : State :=
  match running s k with
  | some c => (match c.kind with | .wmma w j sat a acc => wmmaStep s k c w j sat a acc | _ => s)
  | none => s

def execWmmaRow (ctx : Nat) (s : State) : Out := .next (wmmaRow s ctx)

/-! ### CVTT_ROW (R78, R192) -/

/-- The source values of a row. -/
def cvttValues (g : Nat) (gs : List Nat) : List FVal :=
  if g = 32 then
    (List.range 128).map fun c => unpackFmt (ieeeFmt 8 23 127) (bits ((gs[c / 4]?).getD 0) (32 * (c % 4)) 32)
  else (List.range 128).map fun c => unpackFmt (ieeeFmt 8 7 127) (bits ((gs[c / 8]?).getD 0) (16 * (c % 8)) 16)

/-- The scale granule of R77 whose last row is `row`: the bytes beyond that row are free values (log 93). -/
def scaleGranule (nd row acc : Nat) : Nat :=
  let w := 8 * (row % 16 + 1)
  bits acc 0 w + 2 ^ w * bits (Config.spareScales nd).toNat w (128 - w)

/-- One row: its planes, and its scale granule once that granule's last row is done. `acc` holds the scales so far, its
bit 128 whether one of their rows was poisoned. A row computed from poisoned granules sets its flags like any other (log 93). -/
def cvttStep (s : State) (k : Nat) (c : Cmd) (n src dst : Nat) : State :=
  let m := c.rows
  let at_ := 16 * (1 + scaleGranules m + c.row * n)
  engReads s k c (fun _ => at_) ((List.range c.form).map fun g => (Side.handle src, 16 * (1 + c.row * c.form + g))) fun s1 gs =>
    let r := cvttRow n (cvttValues c.form (gs.map Prod.fst))
    let bad := gs.any fun g => g.2
    let acc := setBits c.acc (8 * (c.row % 16)) 8 r.1
    let acc' := if bad then setBits acc 128 1 1 else acc
    let last := c.row % 16 = 15 ∨ c.row + 1 = m
    let planes := (List.range n).map fun p => (Side.handle dst, at_ + 16 * p, planeOf r.2.1 p, bad)
    let ws := planes ++ (if last then [(Side.handle dst, 16 * (1 + c.row / 16), scaleGranule s.nd c.row acc', decide (bits acc' 128 1 = 1))] else [])
    engWrites s1 k c ws fun s2 =>
      let s3 := cmdFlags s2 c r.2.2
      let s4 := modHead s3 k fun x => { x with row := c.row + 1, acc := if last then 0 else acc' }
      if c.row + 1 < m then s4 else finish s4 k 0 0

/-- CVTT_ROW. -/
def cvttRowStep (s : State) (k : Nat) : State :=
  match running s k with
  | some c => (match c.kind with | .cvtt n a b => cvttStep s k c n a b | _ => s)
  | none => s

def execCvttRow (ctx : Nat) (s : State) : Out := .next (cvttRowStep s ctx)

/-! ### ENGINE_CMD_END (R171, R173, R265) -/

/-- A replayed WLOAD that fails has its ENGINE_ERR record, which names no slot and counts for the graph (R173, R188, R189,
log 94). -/
def replayEnd (s : State) (c : Cmd) (st : Nat) : State :=
  if st = 2 then
    let o := c.origin
    faultGraph (writeRecord s o.vi ⟨.engineErr, c.stopAt⟩ ⟨o.slot, o.colour, o.iter, o.die, o.pane % 192, o.block⟩) c.graph
  else s

/-- A command ends: DONE becomes its number, its status is recorded, an error is recorded, its latency counted. -/
def cmdEnd (s : State) (k : Nat) : State :=
  let x := ctxAt s k
  match x.queue with
  | [] => s
  | c :: rest =>
    match c.status with
    | none => s
    | some st =>
      if c.num = 0 then replayEnd (setCtx s k { x with queue := rest }) c st
      else
        let s1 := setCtx s k { x with done := c.num, queue := rest, statuses := tputD 0 x.statuses c.num st }
        let s2 := if st = 2 then recordGoOn s1 c.origin ⟨.engineErr, c.stopAt⟩ else s1
        perfCommand s2 c.origin.pane (ctxClass k) (s.clk.cycle - c.issued)

def execEngineCmdEnd (ctx : Nat) (s : State) : Out := .next (cmdEnd s ctx)

end Sys2Proof.Machine
end

