-- ==== Sys2Proof/Machine/Binds.lean ====
section
/-! DEFINITION. Bind records and placement (R222, R251 to R253, R298, R299, R352), and the invalidation of translations (R255,
R286). -/

namespace Sys2Proof.Machine

/-! ### Conditions of placement (R252, R253) -/

def extentsMeet (a b : Nat × Nat) : Bool := a.2 ≠ 0 && b.2 ≠ 0 && a.1 < b.1 + b.2 && b.1 < a.1 + a.2

/-- The granules of a graph's arenas. -/
def arenaRanges (g : Graph) : List (Nat × Nat) := g.arenas.map fun a => (a.base / 16, a.size / 16)

/-- No arena of another graph lies in the way; those kept for a saved graph count (R253, R299). -/
def arenasClear (s : State) (gk : Nat) (g : Graph) (pane : Nat) : Bool :=
  s.al.arenas.all fun e =>
    !(e.2.pane = pane && !e.2.pool && parkedGraph e.1 ≠ some gk && (arenaRanges g).any (extentsMeet (e.2.base, e.2.size)))

/-- No live allocation of the pane's task pool lies in the way (R253, R352). -/
def poolClear (s : State) (g : Graph) (pane : Nat) : Bool :=
  (recExtents s pane (poolKey pane)).all fun x => !(arenaRanges g).any (extentsMeet x)

/-- No other bound context of the pane claims a waffle that the graph claims; claims begin at waffle 0 (R47, R253). -/
def wafflesClear (s : State) (gk : Nat) (g : Graph) (pane : Nat) : Bool :=
  g.waffles = 0 || (boundContexts s pane).all fun q =>
    let k := bindGraph (bindRec s pane q)
    k = gk || (tgetD s.cf.graphs k {}).waffles = 0

/-- Every arena's overflow area is mapped with read and write permission, page by page of the smallest size (R253). -/
def overflowMapped (s : State) (g : Graph) : Bool :=
  g.arenas.all fun a =>
    decide (a.ovBase + a.ovSize ≤ 2 ^ 52) && (List.range (a.ovSize / 65536 + 2)).all fun k =>
      let va := min (a.ovBase + 65536 * k) (a.ovBase + a.ovSize - 1)
      (match devXlat s g.vi va .read, devXlat s g.vi va .write with
        | .hit _ _ _, .hit _ _ _ => true
        | _, _ => false)

/-- Whether context q of a pane could take the graph, the task pool apart. -/
def paneServes (s : State) (gk : Nat) (g : Graph) (q pane : Nat) : Bool :=
  !bindValid (bindRec s pane q) && arenasClear s gk g pane && wafflesClear s gk g pane

/-- The instruction words of a graph (R252). -/
def graphWords (g : Graph) : Nat := (g.blocks.map fun b => b.words.length).foldl (· + ·) 0

/-- Panes that hold a copy of the graph. -/
def copyFits (s : State) (g : Graph) (panes : List Nat) : Bool := graphWords g ≤ 8 * (goodCells s panes).length

/-- The footprints of width f of a rectangle. -/
def footprints (g : Graph) (pl : Placement) (f : Nat) : List (List Nat) :=
  (List.range g.height).flatMap fun r => (List.range (g.width / f)).map fun c =>
    (List.range f).map fun k => pl.die * 192 + pl.pane + 16 * r + c * f + k

/-- The smallest footprint with which every copy holds all the words (R252). -/
def footprintOf (s : State) (g : Graph) (pl : Placement) : Option Nat :=
  [1, 2, 4, 8].find? fun f => g.width % f = 0 && (footprints g pl f).all (copyFits s g)

/-- The first place that serves: dies in order, top-left panes row by row, contexts ascending (R253). -/
def findPlace (s : State) (gk : Nat) (g : Graph) : Option Placement :=
  if !overflowMapped s g then none
  else
    let tops := (List.range 192).filter fun p => p % 16 + g.width ≤ 16 && p / 16 + g.height ≤ 12
    let all := (List.range 4).flatMap fun d => tops.flatMap fun p => (List.range 8).map fun q => (⟨d, p, q, 1⟩ : Placement)
    all.find? fun pl => (rectPanes g pl).all fun p => paneServes s gk g pl.q p && poolClear s g p

/-! ### Binding a context (R241, R251, R299) -/

/-- The arenas of a graph stand in a context of a pane. -/
def makeArenas (s : State) (g : Graph) (pane q : Nat) : State :=
  let one := fun (t : Table Arena) (x : ArenaDesc × Nat) =>
    tput t (arenaKey pane q x.2)
      { pane := pane, index := x.2, base := x.1.base / 16, size := x.1.size / 16, limit := x.1.limit, quiet := x.1.quiet,
        vi := g.vi, ovBase := x.1.ovBase, ovSize := x.1.ovSize, quietAt := s.clk.cycle }
  { s with al := { s.al with arenas := (g.arenas.zip (List.range 8)).foldl one s.al.arenas } }

/-- An arena goes to another key, with its records. -/
def moveArena (src dst : Nat) (s : State) : State :=
  match tget s.al.arenas src with
  | none => s
  | some a => { s with al := { s.al with
      arenas := tput (tdel s.al.arenas src) dst a
      recs := s.al.recs.map fun e => if e.2.akey = src then (e.1, { e.2 with akey := dst }) else e } }

/-- A saved graph's arenas stay reserved when its context is given up (R299). -/
def parkArenas (s : State) (gk pane q : Nat) : State :=
  (List.range 8).foldl (fun st a => moveArena (arenaKey pane q a) (parkKey pane gk a) st) s

/-- An arena is in NORMAL mode at bind (R234). -/
def normalArena (s : State) (k : Nat) : State :=
  match tget s.al.arenas k with
  | some a => setArena s k { a with reserve := false }
  | none => s

/-- The arenas of a graph that is bound: those kept for it, or new ones. -/
def bindArenas (s : State) (gk : Nat) (g : Graph) (pane q : Nat) : State :=
  if s.al.arenas.any (fun e => e.1 / 8 = parkKey pane gk 0 / 8) then
    (List.range 8).foldl (fun st a => normalArena (moveArena (parkKey pane gk a) (arenaKey pane q a) st) (arenaKey pane q a)) s
  else makeArenas s g pane q

/-- D_q of every cell of a pane (R241, R251). -/
def modDeficits (s : State) (pane q : Nat) (f : Int → Int) : State :=
  let one := fun (c : Table CellSt) (k : Nat) =>
    let x := tgetD c k {}
    tputD {} c k { x with deficits := lset x.deficits q (f ((x.deficits[q]?).getD 0)) }
  { s with wk := { s.wk with cells := (rangeFrom (pane * 16) 16).foldl one s.wk.cells } }

def slotIndex (pane q : Nat) : Nat := pane / 192 * 1536 + 8 * (pane % 192) + q

/-- The carve-outs of a graph's tasks on a pane spill to the overflow area of the context in which the tasks are now (R214). -/
def homeRecs (s : State) (gk pane q : Nat) : State :=
  let mine := fun (k : Nat) => s.wk.tasks.any fun e => e.2.graph = gk && e.2.pane = pane && (e.2.carve = k || e.2.stack = k)
  { s with al := { s.al with recs := s.al.recs.map fun e => if mine e.1 then (e.1, { e.2 with ctx := q }) else e } }

/-- A context is bound: its record, its arenas, D_q = 0, the tasks of a saved graph in it, carve-outs that no longer fit. -/
def bindPane (s : State) (pane q : Nat) (v : BitVec 64) (gk : Nat) (g : Graph) : State :=
  let s1 := bindArenas (setSlot s (slotIndex pane q) v) gk g pane q
  let s2 := homeRecs (resetPtrs (modDeficits s1 pane q fun _ => 0) pane) gk pane q
  let home := fun (e : Nat × Task) => if e.2.graph = gk && e.2.pane = pane then (e.1, { e.2 with q := q }) else e
  tlbJoin (withdrawUnfit { s2 with wk := { s2.wk with tasks := s2.wk.tasks.map home } } pane) g.vi pane

/-! ### Shutters raised by the hardware (R298) -/

/-- A shutter is raised on a graph's context, or joins the one under way; a parity error's outcome of R229 stands. -/
def raiseShutter (s : State) (gk : Nat) (c : Cause) : State :=
  match tget s.cf.graphs gk with
  | none => s
  | some g =>
    if g.place.isNone || (tget s.sh.saved gk).isSome then s
    else
      let x : Shutter := match tget s.sh.active gk with
        | some y => { y with cause := if c = .parity then .parity else y.cause }
        | none => ⟨c, [], false⟩
      wakeColour { s with sh := { s.sh with active := tput s.sh.active gk x } }

/-! ### Writes of bind records (R251, R352) -/

/-- A context of a pane holds live instances, or activations of tasks of it that wait. -/
def contextLive (s : State) (pane q : Nat) : Bool :=
  let mine := fun (tid : Nat) => match taskAt s tid with
    | some t => t.q = q && (footprint (graphOf s t) t.pane).contains pane
    | none => false
  (s.wk.insts.any fun e => mine e.2.tid)
    || (s.net.any fun m => match m with
      | .blockActivate a => mine a.tid && !shuttered s (taskD s a.tid).graph
      | _ => false)

/-- The identity of a record: GRAPH, VI, JOB and VALID. -/
def sameContext (a b : Nat) : Bool := bits a 0 38 = bits b 0 38 && bindValid a = bindValid b

/-- The context of a record is given up: a saved graph's arenas are kept, others no longer stand. -/
def leaveContext (s : State) (pane q : Nat) : State :=
  let r := bindRec s pane q
  if !bindValid r then s
  else
    let gk := bindGraph r
    let s1 := if (tget s.sh.saved gk).isSome then parkArenas s gk pane q else dropArenas s (slotIndex pane q)
    let s2 := modGraph s1 gk fun g => { g with extra := g.extra.filter fun p => p ≠ pane }
    resetPtrs s2 pane

/-- Holds a write, in place of one held for the same record. -/
def holdBind (s : State) (h : HeldBind) : State :=
  { s with cf := { s.cf with held := s.cf.held.filter (fun x => !(x.die = h.die && x.index = h.index)) ++ [h] } }

/-- A bind that is free to be made, or its refusal, or its wait for the task pool (R352). `free`: the record that stands has
been saved, so that its context is free (R298). -/
def tryBind (s : State) (die index : Nat) (v : BitVec 64) (free : Bool) : State :=
  let pane := die * 192 + index / 8
  let q := index % 8
  let gk := bindGraph v.toNat
  match tget s.cf.graphs gk with
  | none => s
  | some g =>
    let inside := match g.place with | some pl => (rectPanes g pl).contains pane | none => false
    let s1 := if free then setSlot (leaveContext s pane q) (die * 1536 + index) 0 else s
    if !g.armed || !(inside || copyFits s g [pane]) || !paneServes s1 gk g q pane || !overflowMapped s g then s
    else if !poolClear s1 g pane then
      withdrawUnfit (holdBind s ⟨die, index, v, false⟩) pane
    else
      let upd := fun (x : Graph) =>
        if inside || x.extra.contains pane then x
        else { x with extra := x.extra ++ [pane], bad := x.bad ++ badCells s [pane] }
      attemptPane (bindPane (modGraph s1 gk upd) pane q v gk (upd g)) pane

/-- A write that changes GRAPH, VI, JOB or VALID takes effect. -/
def changeContext (s : State) (die index : Nat) (v : BitVec 64) (free : Bool) : State :=
  let pane := die * 192 + index / 8
  if bindValid v.toNat then tryBind s die index v free
  else attemptPane (setSlot (leaveContext s pane (index % 8)) (die * 1536 + index) v) pane

/-- BIND_RECORD_WRITE: WEIGHT and CLASS change at once; another change waits for a shutter while the context is in use, or a
shutter of its region is under way. -/
def bindRecordWrite (s : State) (die index : Nat) (v : BitVec 64) : State :=
  let pane := die * 192 + index / 8
  let q := index % 8
  let old := bindRec s pane q
  if 4 ≤ die ∨ 1536 ≤ index then s
  else if sameContext old v.toNat then
    modDeficits (setSlot s (die * 1536 + index) v) pane q fun d => min d (bindWeight v.toNat)
  else if bindValid old && (contextLive s pane q || (tget s.sh.active (bindGraph old)).isSome) then
    raiseShutter (holdBind s ⟨die, index, v, true⟩) (bindGraph old) .bind
  else changeContext s die index v (bindValid old && (tget s.sh.saved (bindGraph old)).isSome)

def execBindRecordWrite (die index : Nat) (v : BitVec 64) (s : State) : Out := .next (bindRecordWrite s die index v)

/-- BIND_HELD_APPLY: a held write takes effect once the shutter of the region has completed, or once the task pool has given
up the granules in its way. A record whose context has been saved is free to be written over (R298). -/
def bindHeldApply (s : State) (die index : Nat) : State :=
  match s.cf.held.find? fun h => h.die = die && h.index = index with
  | none => s
  | some h =>
    let pane := die * 192 + index / 8
    let old := bindRec s pane (index % 8)
    let s1 := { s with cf := { s.cf with held := s.cf.held.filter fun x => x ≠ h } }
    let free := bindValid old && (tget s.sh.saved (bindGraph old)).isSome
    if h.shutter then
      (if bindValid old && ((tget s.sh.active (bindGraph old)).isSome || contextLive s pane (index % 8)) then s
       else changeContext s1 die index h.v free)
    else
      match tget s.cf.graphs (bindGraph h.v.toNat) with
      | none => s1
      | some g => if poolClear s g pane then changeContext s1 die index h.v free else s

def execBindHeldApply (die index : Nat) (s : State) : Out := .next (bindHeldApply s die index)

/-! ### Invalidation (R255, R286) -/

/-- An access of a die's interface to the range of an invalidation. -/
def hitsRange (x : Inval) (die vi va n : Nat) : Bool := die = x.die && vi = x.vi && va < x.hi && x.lo < va + n

/-- The read of such a place that is under way, or the second part of one. -/
def readHits (s : State) (x : Inval) (m : ReadMsg) : Bool :=
  let hits := hitsRange x (m.f.tid / 65536) (taskD s m.f.tid).vi
  hits m.va m.width || (match m.rest with | some (_, _, n) => hits ((m.va + m.width) % 2 ^ 52) n | none => false)

/-- A request of such a place. -/
def requestHits (s : State) (x : Inval) (tid : Nat) (k : ReqKind) : Bool :=
  let hits := hitsRange x (tid / 65536) (taskD s tid).vi
  match k with
  | .store va _ _ fmt _ _ _ _ | .atom _ va _ _ fmt _ _ _ => hits va (accessWidth fmt)
  | .pref va _ _ true => hits va 1
  | .tickw _ va _ _ => hits va 32
  | _ => false

/-- What has translated by now and has not performed: reads, requests, effects on their way. -/
def noteUses (s : State) (x : Inval) : Inval :=
  { x with
    reads := s.net.filterMap fun m => match m with
      | .homeRead m => if readHits s x m then some m.f else none
      | _ => none
    reqs := s.wk.insts.flatMap fun e => (e.2.requests.filter fun r => requestHits s x e.2.tid r.kind).map
      fun r => ⟨e.2.tid, e.2.iter, e.2.block, r.slot⟩
    effects := s.net.filterMap fun m => match m with
      | .globalWritePerform m => if hitsRange x (m.tid / 65536) m.vi m.va m.bytes.length then some (m.tid, m.seq) else none
      | .atomicPerform m => if hitsRange x (m.tid / 65536) m.vi m.va (accessWidth m.fmt) then some (m.tid, m.seq) else none
      | _ => none }

/-- TLB_INVALIDATE: every TLB copy of the range goes. -/
def tlbInvalidate (s : State) (die vi lo hi : Nat) : State :=
  let hit := fun (t : TlbEntry) => t.vi = vi && t.base < hi && lo < t.base + t.size
  let mine := fun (k : Nat) => k / 192 = die
  let old := s.gm.tlb.flatMap fun e => if mine e.1 then e.2.filter hit else []
  let tlb := s.gm.tlb.map fun e => if mine e.1 then (e.1, e.2.filter fun t => !hit t) else e
  let id := (s.gm.invals.map fun x => x.id + 1).foldl max 0
  let x : Inval := { id := id, die := die, vi := vi, lo := lo, hi := hi, old := old }
  { s with gm := { s.gm with tlb := tlb.filter (fun e => !e.2.isEmpty), invals := s.gm.invals ++ [noteUses s x] } }

def execTlbInvalidate (die vi lo hi : Nat) (s : State) : Out := .next (tlbInvalidate s die vi lo hi)

/-- The invalidation completes once the accesses that had translated before the removal have performed (R255). -/
def usesOld (s : State) (x : Inval) : Bool :=
  (s.net.any fun m => match m with
    | .homeRead m => x.reads.contains m.f
    | .globalWritePerform m => x.effects.contains (m.tid, m.seq)
    | .atomicPerform m => x.effects.contains (m.tid, m.seq)
    | _ => false)
  || s.wk.insts.any fun e => e.2.requests.any fun r => x.reqs.contains ⟨e.2.tid, e.2.iter, e.2.block, r.slot⟩

/-- The physical addresses at which a line of HBM is reached (R224). -/
def pasOf (k : Nat) : List Nat :=
  let d := k / 2 ^ 38
  let off := k % 2 ^ 38
  let hi := off / 4096
  let lo := off % 4096
  let c := [2 ^ 40 + d * 2 ^ 38 + off]
    ++ (List.range 4).map (fun x => (hi * 4 + x) * 4096 + lo)
    ++ (List.range 2).map (fun x => 2 * 2 ^ 40 + d / 2 * 2 ^ 39 + (hi * 2 + x) * 4096 + lo)
  c.filter fun pa => hbmKey pa = some k

/-- Every word of a physical range is CLEAN. -/
def cleanRange (s : State) (pa n : Nat) : State :=
  let line := fun (e : Nat × Line) =>
    if pa ≤ e.1 * 128 && e.1 * 128 < pa + n then (e.1, { e.2 with track0 := 0, track1 := 0, dirty := true }) else e
  let meta_ := fun (e : Nat × LineMeta) =>
    if (pasOf (e.1 * 128)).any fun a => pa ≤ a && a < pa + n then (e.1, { e.2 with track0 := 0, track1 := 0 }) else e
  { s with gm := { s.gm with lines := s.gm.lines.map line,
                             hbmMeta := (s.gm.hbmMeta.map meta_).filter fun e => e.2 ≠ {} } }

/-- Whether the invalidation completes a change of a page's CHECKED: against the copies removed, and what the page last translated
with; a page that has not translated since its last invalidation may have become CHECKED (R286, log 30). -/
def checkedChanged (s : State) (x : Inval) (t : TlbEntry) : Bool :=
  let now := eChecked t.entry.toNat
  (x.old.any fun o => o.base ≤ t.base && t.base < o.base + o.size && eChecked o.entry.toNat ≠ now)
    || (match tget s.gm.checked (t.vi * 2 ^ 52 + t.base) with | some c => c.2 ≠ now | none => now)

/-- The pages of the range as they are mapped now. -/
def cleanPages (x : Inval) : Nat → Nat → State → State
  | 0, _, s => s
  | n + 1, va, s =>
    if x.hi ≤ va then s
    else match (walk s x.vi va).1 with
      | .leaf t =>
        let s1 := if checkedChanged s x t && eRdev t.entry.toNat = 0 then cleanRange s (pagePa t t.base) t.size else s
        cleanPages x n (t.base + t.size) s1
      | _ => cleanPages x n ((va / 65536 + 1) * 65536) s

/-- What the pages of the range translate with is noted anew. -/
def forgetChecked (x : Inval) (s : State) : State :=
  let hit := fun (e : Nat × (Nat × Bool)) => e.1 / 2 ^ 52 = x.vi && e.1 % 2 ^ 52 < x.hi && x.lo < e.1 % 2 ^ 52 + e.2.1
  { s with gm := { s.gm with checked := s.gm.checked.filter fun e => !hit e } }

/-- INVALIDATE_COMPLETE. -/
def invalidateComplete (s : State) (id : Nat) : State :=
  match s.gm.invals.find? fun x => x.id = id with
  | none => s
  | some x =>
    if usesOld s x then s
    else
      let s1 := { s with gm := { s.gm with invals := s.gm.invals.filter fun y => y.id ≠ id } }
      forgetChecked x (cleanPages x ((x.hi - x.lo) / 65536 + 1) x.lo s1)

def execInvalidateComplete (id : Nat) (s : State) : Out := .next (invalidateComplete s id)

end Sys2Proof.Machine
end

