-- ==== Sys2Proof/Machine/Loader.lean ====
section
/-! DEFINITION. The loader: the graph descriptor (R48, R354), the walk of the blocks, the checks (R98 to R102), the place of
the graph (R252, R253), the load report (R99). -/

namespace Sys2Proof.Machine

/-! ### Reading the image (R354, R355) -/

/-- What a read of an image gives. -/
inductive Img (α : Type) where
  | ok (x : α)
  | missing (va : Nat)
  | bad
  deriving DecidableEq, Repr

/-- Bytes of an image, as a number. -/
def readImg (s : State) (vi va n : Nat) : Img Nat :=
  match devRange s vi va .read n with
  | .hit _ _ _ => .ok (natOfBytes (devGet s vi va n))
  | .missing => .missing (missingVa s vi va .read n)
  | _ => .bad

/-- Arena entry a of a descriptor, and whether it keeps the limits of R48. -/
def arenaEntry (d a : Nat) : ArenaDesc :=
  let e := bits d (512 + 256 * a) 256
  ⟨bits e 0 32, bits e 32 32, bits e 64 4, bits e 72 16, bits e 128 64, bits e 192 64⟩

def arenaEntryOk (d a : Nat) : Bool :=
  let e := bits d (512 + 256 * a) 256
  let x := arenaEntry d a
  bits e 68 4 = 0 && bits e 88 40 = 0 && x.base % 16 = 0 && x.size % 16 = 0 && 16 ≤ x.size
    && x.base + x.size ≤ Config.paneBytes && 1 ≤ x.quiet && x.ovBase % 16 = 0 && x.ovBase < 2 ^ 52 && 2 * x.size ≤ x.ovSize

/-- Two arenas of one graph overlap (R48). -/
def anyMeet : List (Nat × Nat) → Bool
  | [] => false
  | a :: t => t.any (extentsMeet a) || anyMeet t

/-- A descriptor keeps every rule of R354 that needs no block. -/
def descOk (d : Nat) : Bool :=
  let n := bits d 40 4
  let as := (List.range n).map (arenaEntry d)
  bits d 0 8 = 0xB6 && bits d 8 8 = 1 && 1 ≤ bits d 16 8 && bits d 16 8 ≤ 16 && 1 ≤ bits d 24 8 && bits d 24 8 ≤ 12
    && bits d 34 6 = 0 && n ≤ 8 && bits d 44 20 = 0 && 1 ≤ bits d 96 16 && bits d 112 400 = 0
    && (List.range n).all (arenaEntryOk d) && !anyMeet (as.map fun a => (a.base, a.size))
    && decide (d / 2 ^ (512 + 256 * n) = 0)

/-- The instruction words that follow a header. -/
def wordsOf (v : Nat) : Nat → List Word
  | 0 => []
  | n + 1 => BitVec.ofNat 32 (v % 2 ^ 32) :: wordsOf (v / 2 ^ 32) n

/-- The walk of the blocks by their LEN fields: the blocks, and where the last one ends. -/
def walkBlocks (s : State) (vi base : Nat) : Nat → Nat → Nat → List Blk → Img (List Blk × Nat)
  | 0, _, stop, acc => .ok (acc.reverse, stop)
  | n + 1, off, _, acc =>
    match readImg s vi ((base + off) % 2 ^ 52) 4 with
    | .missing va => .missing va
    | .bad => .bad
    | .ok h =>
      let hd := BitVec.ofNat 32 h
      let len := hdrLen hd
      match readImg s vi ((base + off + 4) % 2 ^ 52) (4 * len) with
      | .missing va => .missing va
      | .bad => .bad
      | .ok v =>
        let stop := off + 4 + 4 * len
        walkBlocks s vi base n ((stop + 63) / 64 * 64) stop (⟨off, hd, wordsOf v len⟩ :: acc)

/-- The graph that an image describes, not yet placed. An ADDR has 52 bits (R4); DESIGN CHOICE (log 91): bits [63:52] of
the slot's A name nothing and are dropped. -/
def readGraph (s : State) (vi job n a : Nat) : Img Graph :=
  if a % 64 ≠ 0 then .bad
  else match readImg s vi (a % 2 ^ 52) 320 with
    | .missing va => .missing va
    | .bad => .bad
    | .ok d =>
      if !descOk d then .bad
      else
        let base := (a + 320) % 2 ^ 52
        match walkBlocks s vi base (bits d 96 16) 0 0 [] with
        | .missing va => .missing va
        | .bad => .bad
        | .ok (bs, stop) =>
          if stop ≠ bits d 64 32 then .bad
          else .ok
            { vi := vi, job := job, number := n, base := base, length := bits d 64 32, width := bits d 16 8,
              height := bits d 24 8, waffles := bits d 32 2, arenas := (List.range (bits d 40 4)).map (arenaEntry d),
              blocks := bs }

/-! ### Checks, place and report -/

/-- The 16 bytes of a load report (R99). -/
def reportBits (check slot port block : Nat) : Nat :=
  check % 256 + slot % 256 * 2 ^ 8 + port % 4 * 2 ^ 16 + block % 2 ^ 32 * 2 ^ 32

/-- Check 11 failed. -/
def reportBad : Nat := reportBits 11 255 0 (2 ^ 32 - 1)
/-- A report that armed; `nd` the counter of the step that writes it. -/
def reportArmed (nd : Nat) : Nat := reportBits 0 (Config.openReport nd 0).toNat 0 (Config.openReport nd 1).toNat
/-- Check 9 failed. -/
def reportRegion (nd : Nat) : Nat := reportBits 9 255 0 (Config.openReport nd 1).toNat

/-- The bind record that the loader makes; CLASS 3 for a maintenance graph whose checks were waived. -/
def loadRecord (vi job n cls : Nat) : BitVec 64 :=
  BitVec.ofNat 64 (n % 2 ^ 16 + vi % 64 * 2 ^ 16 + job % 2 ^ 16 * 2 ^ 22 + cls % 4 * 2 ^ 42 + 2 ^ 44)

/-- GRAPH_PLACE: the graph is placed, its contexts are bound, and its region arms; none where check 9 refuses it. -/
def placeGraph (s : State) (gk : Nat) (g : Graph) (cls : Nat) : Option State :=
  match findPlace s gk g with
  | none => none
  | some pl =>
    match footprintOf s g pl with
    | none => none
    | some f =>
      let panes := rectPanes g pl
      let g' := { g with place := some { pl with f := f }, bad := badCells s panes, armed := true }
      let s1 := { s with cf := { s.cf with graphs := tput s.cf.graphs gk g' } }
      some (panes.foldl (fun a p => bindPane a p pl.q (loadRecord g.vi g.job g.number cls) gk g') s1)

/-- The load of a graph that has been read: the report, and the state. SLOT and BLOCK of an armed report, and
BLOCK of a report of check 9, for which R99 gives no value, are free values (log 91). -/
def loadGraph (s : State) (g : Graph) : Nat × State :=
  let gk := graphKey g.vi g.job g.number
  let put := fun (cls : Nat) => match placeGraph s gk g cls with
    | some s1 => (reportArmed s.nd, s1)
    | none => (reportRegion s.nd, s)
  match checkBlocks ⟨g.blocks, g.arenas.length, g.waffles⟩ g.blocks with
  | none => put 0
  | some (c, off) => if Config.firmwareVi g.vi then put 3 else (reportBits c.code c.slot c.port off, s)

/-- LOAD: its outcome, or the address that is missing. -/
def load (s : State) (vi job n a : Nat) : Img (Nat × State) :=
  if 65536 ≤ n ∨ (tget s.cf.graphs (graphKey vi job n)).isSome then .ok (reportRegion s.nd, s)
  else match readGraph s vi job n a with
    | .missing va => .missing va
    | .bad => .ok (reportBad, s)
    | .ok g => .ok (loadGraph (devTouch s vi (a % 2 ^ 52) (320 + g.length)) g)

end Sys2Proof.Machine
end

