-- ==== Sys2Proof/Machine/Inbox.lean ====
section
/-! DEFINITION. The job inboxes (R243 to R246) and firmware's answers to page faults (R142, R255, R296, R355, R356). -/

namespace Sys2Proof.Machine

/-! ### Slots (R243 to R245) -/

/-- The bits of a slot, as they stand in memory. -/
def slotAt (s : State) (vi i : Nat) : Nat := natOfBytes (paBytes s.gm (slotPa s vi i) 64)

def slotKind (d : Nat) : Nat := bits d 0 8
def slotLevel (d : Nat) : Nat := bits d 8 8
def slotJob (d : Nat) : Nat := bits d 16 16
def slotA (d : Nat) : Nat := bits d 64 64
def slotB (d : Nat) : Nat := bits d 128 64
def slotN (d : Nat) : Nat := bits d 192 32
def slotFull (d : Nat) : Bool := bits d 448 8 = 1

/-- HOST_INBOX_WRITE: a write to a FULL slot, to an interface that is not configured, or before the part is ready is dropped
whole (R245, R318, R321). -/
def hostInboxWrite (s : State) (vi slot : Nat) (v : BitVec 512) : State :=
  if !s.bt.ready || !(viD s vi).configured || 64 ≤ slot || slotFull (slotAt s vi slot) then s
  else { s with gm := writeLine s.gm (slotPa s vi slot) ((bytesOf 64 v.toNat).map some) id }

def execHostInboxWrite (vi slot : Nat) (v : BitVec 512) (s : State) : Out := .next (hostInboxWrite s vi slot v)

/-- A LAUNCH has been taken from a slot, and its card is still to be read (R244). -/
def slotTaken (s : State) (vi i : Nat) : Bool := s.jb.launches.any fun e => e.2.vi = vi && e.2.slot = some i

/-- The slot at the ring's index, where it is FULL with a command that has not been taken (R244). -/
def ringHead (s : State) (vi : Nat) : Option Nat :=
  let d := slotAt s vi (viD s vi).index
  if (viD s vi).configured && slotFull d && !slotTaken s vi (viD s vi).index then some d else none

/-- The ring goes on to its next index. -/
def ringNext (s : State) (vi : Nat) : State := modVi s vi fun v => { v with index := (v.index + 1) % 64 }

/-- The slot at the index is emptied, and the ring goes on. -/
def ringDone (s : State) (vi : Nat) : State := ringNext (emptySlot s vi (some (viD s vi).index)) vi

/-- A refused slot is emptied, with an ILLEGAL_OP record; its command does nothing (R244). -/
def refuseSlot (s : State) (vi : Nat) : State := ringDone (writeRecord s vi ⟨.illegalOp, 0⟩ ⟨0, 0, 0, 0, 0, 0⟩) vi

/-- A slot whose own fields refuse it: KIND, LEVEL, a reserved field (R244). -/
def slotBad (d : Nat) : Bool :=
  slotKind d = 0 || 6 < slotKind d || (if slotKind d = 5 then 3 < slotLevel d else slotLevel d ≠ 0)
    || bits d 32 32 ≠ 0 || bits d 224 224 ≠ 0 || bits d 456 56 ≠ 0

/-- A slot that the state of its job refuses: an END already taken, or a cancelled job (R246). -/
def jobRefuses (s : State) (jk kind : Nat) : Bool :=
  match tget s.jb.jobs jk with
  | none => false
  | some j => if j.endAt.isSome then kind ≠ 5 else j.lvl.cancelled && kind ≠ 6

/-- A job exists from the first slot that names it, which opens phase 0 (R246). -/
def openJob (s : State) (vi job : Nat) : State :=
  let jk := jobKey vi job
  match tget s.jb.jobs jk with
  | some _ => s
  | none => { s with jb := { s.jb with jobs := tput s.jb.jobs jk { vi := vi, job := job },
                                       phases := tput s.jb.phases (phaseKey vi job 0) { begun := true } } }

/-- The act of a slot of one KIND, whose line is read (R225): refused, or `f` on the job's key and the slot's fields. -/
def actSlot (s : State) (vi kind : Nat) (f : State → Nat → Nat → State) : State :=
  match ringHead s vi with
  | none => s
  | some d =>
    if slotKind d ≠ kind then s
    else
      let s := { s with gm := withLine s.gm (slotPa s vi (viD s vi).index / 128) }
      if slotBad d || jobRefuses s (jobKey vi (slotJob d)) kind then refuseSlot s vi
      else f (openJob s vi (slotJob d)) (jobKey vi (slotJob d)) d

/-! ### The commands (R246) -/

/-- A read of an image that waits for firmware. -/
def imageHeld (s : State) (vi : Nat) : Bool := s.jb.heldDev.any fun d => match d with
  | .image v _ => v = vi
  | _ => false

/-- INBOX_LOAD. A slot whose KIND no command has is refused here. -/
def inboxLoad (s : State) (vi : Nat) : State :=
  match ringHead s vi with
  | none => s
  | some d =>
    if slotKind d = 0 ∨ 6 < slotKind d then refuseSlot s vi
    else if imageHeld s vi then s
    else actSlot s vi 1 fun s1 _ d =>
      match load s1 vi (slotJob d) (slotN d) (slotA d) with
      | .missing va => holdDev s1 (.image vi va) 0 vi va false
      | .bad => s1
      | .ok (r, s2) => ringDone (devWrite s2 0 vi (slotB d % 2 ^ 52) (bytesOf 16 r)) vi

def execInboxLoad (vi : Nat) (s : State) : Out := .next (inboxLoad s vi)

/-- INBOX_SEAL: the graph joins the job's current phase. -/
def inboxSeal (s : State) (vi : Nat) : State :=
  actSlot s vi 2 fun s1 jk d =>
    let gk := jk * 65536 + slotN d
    let n := (tgetD s1.jb.jobs jk {}).phase
    let c := (tgetD s1.jb.phases (jk * 2 ^ 32 + n) {}).lvl.cancelled
    match (if slotN d < 65536 then tget s1.cf.graphs gk else none) with
    | some g =>
      if g.armed && g.phase.isNone && countFull (phaseUnits s1 (jk * 2 ^ 32 + n)) then s1
      else if g.armed && g.phase.isNone then
        ringDone (modGraph s1 gk fun g => { g with phase := some n, lvl := { g.lvl with cancelled := c } }) vi
      else refuseSlot s1 vi
    | none => refuseSlot s1 vi

def execInboxSeal (vi : Nat) (s : State) : Out := .next (inboxSeal s vi)

/-- The job's current phase is closed. -/
def closePhase (s : State) (jk : Nat) : State :=
  modPhase s (jk * 2 ^ 32 + (tgetD s.jb.jobs jk {}).phase) fun p => { p with lvl := { p.lvl with isOpen := false } }

/-- The job's counter holds as many units as it can (R260). -/
def phasesFull (s : State) (jk : Nat) : Bool := countFull (jobUnits s jk)

/-- INBOX_PHASE: the current phase is closed and the next one opened; it begins by PHASE_BEGIN. -/
def inboxPhase (s : State) (vi : Nat) : State :=
  actSlot s vi 3 fun s1 jk d =>
    let n := (tgetD s1.jb.jobs jk {}).phase
    if slotN d ≠ n + 1 then refuseSlot s1 vi
    else if phasesFull s1 jk then s1
    else
      let s2 := modJob (closePhase s1 jk) jk fun j => { j with phase := n + 1 }
      ringDone { s2 with jb := { s2.jb with phases := tput s2.jb.phases (jk * 2 ^ 32 + (n + 1)) {} } } vi

def execInboxPhase (vi : Nat) (s : State) : Out := .next (inboxPhase s vi)

/-- INBOX_LAUNCH: the slot is emptied once its card has been read (R244). -/
def inboxLaunch (s : State) (vi : Nat) : State :=
  actSlot s vi 4 fun s1 _ d =>
    if launchFull s1 vi (slotJob d) then s1
    else (newLaunch (ringNext s1 vi)
      { vi := vi, job := slotJob d, card := slotA d % 2 ^ 52, slot := some (viD s1 vi).index }).2

def execInboxLaunch (vi : Nat) (s : State) : Out := .next (inboxLaunch s vi)

/-- The level that a code names (R243). -/
def levelOfCode (n : Nat) : Level :=
  match n with
  | 0 => .launch | 1 => .graph | 2 => .phase | _ => .job

/-- INBOX_CANCEL. -/
def inboxCancel (s : State) (vi : Nat) : State :=
  actSlot s vi 5 fun s1 _ d =>
    ringDone (cancelLevel s1 vi (slotJob d) (levelOfCode (slotLevel d)) (slotN d) ⟨0, 0, 0, 0, 0, 0⟩ none) vi

def execInboxCancel (vi : Nat) (s : State) : Out := .next (inboxCancel s vi)

/-- INBOX_END: the job is closed, its last phase with it, and its ticks end (R308). -/
def inboxEnd (s : State) (vi : Nat) : State :=
  actSlot s vi 6 fun s1 jk d =>
    let s2 := modJob (closePhase (disableTicks s1 vi (slotJob d)) jk) jk fun j =>
      { j with endAt := some (slotA d % 2 ^ 52), lvl := { j.lvl with isOpen := false } }
    ringDone s2 vi

def execInboxEnd (vi : Nat) (s : State) : Out := .next (inboxEnd s vi)

/-! ### Page faults (R142, R172, R296, R355, R356) -/

/-- Firmware's write of a table entry, through the home (R255). -/
def putEntry (s : State) (pa : Nat) (e : BitVec 64) : State :=
  { s with gm := writeLine s.gm pa ((bytesOf 8 e.toNat).map some) id }

/-- Whether the walks of two addresses end at the same missing entry. -/
def sameMissing (s : State) (vi va vb : Nat) : Bool :=
  match (walk s vi va).1, (walk s vi vb).1 with
  | .missing _ p _, .missing _ q _ => p = q
  | _, _ => false

def devVi (s : State) : DevAccess → Nat
  | .record _ vi _ _ | .image vi _ => vi
  | .card k _ => (tgetD s.jb.launches k {}).vi

def devDie (s : State) : DevAccess → Nat
  | .record die _ _ _ => die
  | .image _ _ => 0
  | .card k _ => cardDie (tgetD s.jb.launches k {})

/-- The address that an access misses. -/
def devVa (s : State) : DevAccess → Nat
  | .record _ vi va bs => missingVa s vi va .write bs.length
  | .card _ va | .image _ va => va

/-- A device access is tried again. An image is read by INBOX_LOAD. -/
def retryDev (s : State) : DevAccess → State
  | .record die vi va bs => devWrite s die vi va bs
  | .card k _ => readCard s k
  | .image _ _ => s

/-- The held writes into a fault area are made in their order, up to one whose page is missing (R247, R356). -/
def drainArea (vi : Nat) : List DevAccess → State → State
  | [], s => s
  | .record die v va bs :: t, s =>
    if isAreaWrite s vi (.record die v va bs) then
      let s1 := { s with jb := { s.jb with heldDev := lerase s.jb.heldDev (.record die v va bs) } }
      match devRange s vi va .write bs.length with
      | .missing => sendPageFault s die vi (missingVa s vi va .write bs.length) true
      | .hit _ _ _ => drainArea vi t (devStore s1 vi va bs)
      | _ => drainArea vi t s1
    else drainArea vi t s
  | _ :: t, s => drainArea vi t s

/-- An image that firmware refuses to map is refused under check 11 (R355). -/
def refuseImage (s : State) (vi : Nat) : State :=
  actSlot s vi 1 fun s1 _ d => ringDone (devWrite s1 0 vi (slotB d % 2 ^ 52) (bytesOf 16 reportBad)) vi

/-- A launch whose tick's record cannot be written has its record and is refused; so is one whose card cannot be read. -/
def refuseCardAt (s : State) (k : Nat) : State :=
  match tget s.jb.launches k with
  | none => s
  | some l =>
    match devRange s l.vi l.card .read 64 with
    | .hit _ _ _ =>
      let l1 := takeCard l (natOfBytes (devGet s l.vi l.card 64))
      refuseLaunch (writeRecord (refusedCard s k l1) l.vi ⟨.prot, l1.records % 2 ^ 52⟩ ⟨0, 0, 0, 0, 0, 0⟩) k
    | _ => refuseLaunch s k

/-- A device access that firmware refuses (R355, R356). -/
def refuseDev (s : State) : DevAccess → State
  | .record die vi va _ => if inFaultArea s vi va then s else writeRecord s vi ⟨.prot, va⟩ ⟨0, 0, 0, die, 0, 0⟩
  | .card k _ => refuseCardAt s k
  | .image vi _ => refuseImage s vi

/-- A held engine context whose page is refused stops with status 2 at the offset it had reached, also where it was held
before it had started (R172, R173). -/
def refuseEngine (s : State) (k va : Nat) : State :=
  match headOf s k with
  | some c =>
    if c.status.isSome then s
    else finish (start s k id) k 2 (match c.kind, c.gat with
      | .pset (.addr a) _, _ => va - a
      | _, some g => c.row * g.rowBytes + c.off
      | _, none => c.off)
  | none => s

def refuseWalk (s : State) (m : WalkMsg) : State :=
  match m.who with
  | .engine k => refuseEngine s k m.va
  | _ => refuseHeld s m

/-- What a die holds on addresses that a predicate admits, taken from the lists: words, engine contexts, and the device's own
accesses, of which `keep` leaves some in place. -/
def takeHeld (s : State) (die : Nat) (hit : Nat → Nat → Bool) (keep : DevAccess → Bool) :
    List WalkMsg × List DevAccess × State :=
  let mine := fun (m : WalkMsg) => m.die = die && hit m.vi m.va
  let devHit := fun (d : DevAccess) => devDie s d = die && hit (devVi s d) (devVa s d) && !keep d
  (s.gm.held.filter mine, s.jb.heldDev.filter devHit, { s with
    gm := { s.gm with held := s.gm.held.filter fun m => !mine m }
    fw := { s.fw with pageFaults := s.fw.pageFaults.filter fun p => !(p.1 = die && hit p.2.1 p.2.2.1) }
    jb := { s.jb with heldDev := s.jb.heldDev.filter fun d => !devHit d } })

/-- Whether an address has a translation or a refusal by now. -/
def isAnswered (s : State) (vi va : Nat) : Bool := match (walk s vi va).1 with | .missing _ _ _ => false | _ => true

/-- PAGE_FAULT_ANSWER (R296): the page is mapped and everything held on it is tried again, in the order held; or it is
refused. A page mapped in the meantime, for another die or by KVGROW, is tried again as well. -/
def pageFaultAnswer (s : State) (die vi va : Nat) (entry : Option (BitVec 64)) : State :=
  match (walk s vi va).1, entry with
  | .missing _ pa _, some e =>
    let (hs, ds, s1) := takeHeld s die (fun v a => v = vi && sameMissing s vi va a) (isAreaWrite s vi)
    mapped (ds.foldl retryDev (hs.foldl wakeHeld (putEntry s1 pa e)))
  | .missing _ _ _, none =>
    let (hs, ds, s1) := takeHeld s die (fun v a => v = vi && sameMissing s vi va a) fun _ => false
    mapped (ds.foldl refuseDev (hs.foldl refuseWalk s1))
  | _, _ =>
    let (hs, ds, s1) := takeHeld s die (fun v a => v = vi && isAnswered s vi a) (isAreaWrite s vi)
    mapped (ds.foldl retryDev (hs.foldl wakeHeld s1))
where
  /-- The writes into the interface's fault area go on. -/
  mapped (s : State) : State := drainArea vi s.jb.heldDev s

def execPageFaultAnswer (die vi va : Nat) (entry : Option (BitVec 64)) (s : State) : Out :=
  .next (pageFaultAnswer s die vi va entry)

end Sys2Proof.Machine
end

