-- ==== Sys2Proof/Machine/Streams.lean ====
section
/-! DEFINITION. Tick sources and streams (R202, R203, R211, R228, R259, R307 to R313, R317). -/

namespace Sys2Proof.Machine

/-! ### Streams (R211, R228, R311) -/

def streamKey (vi n : Nat) : Nat := vi * 32 + n
def streamAt (s : State) (k : Nat) : Stream := tgetD s.tm.streams k {}
def setStream (s : State) (k : Nat) (x : Stream) : State := { s with tm := { s.tm with streams := tputD {} s.tm.streams k x } }

def Stream.slotB (x : Stream) : Nat := bits x.geom.toNat 0 16
def Stream.sill (x : Stream) : Nat := bits x.geom.toNat 16 5
def Stream.win (x : Stream) : Nat := bits x.geom.toNat 21 12 + 1
def Stream.hold (x : Stream) : Bool := bits x.geom.toNat 33 1 = 1
def Stream.tickOf (x : Stream) : Nat := bits x.geom.toNat 34 4
def Stream.enabled (x : Stream) : Bool := x.period ≠ 0

/-- A geometry and an origin with which the stream ingests (R307, R311). -/
def Stream.valid (x : Stream) : Bool :=
  x.sill ≤ 16 && x.slotB % 16 = 0 && 2 ≤ x.win && x.origin.toNat % 2 ^ 32 ≤ 999999999

/-- The slot of a time (R307, R312). -/
def Stream.slotOf (x : Stream) (t : Payload) : Int := timeDiff t x.origin / (x.period.toNat : Int)

/-- The address of a slot (R228). -/
def Stream.place (x : Stream) (i : Int) : Nat :=
  let k := i.toNat
  let n := if k < x.sill then k else x.sill + (k - x.sill) % x.win
  (x.base.toNat + n * x.slotB) % 2 ^ 52

/-- The address of the hold copy (R311). -/
def Stream.holdPlace (x : Stream) : Nat := (x.base.toNat + (x.sill + x.win) * x.slotB) % 2 ^ 52

/-- Whether a slot lies in the window of the ticks up to slot c (R312). -/
def Stream.inWindow (x : Stream) (c i : Int) : Bool := i < x.sill || c - x.win + 1 ≤ i

def Stream.stateOf (x : Stream) (i : Int) : SlotState := ((x.slots.find? fun e => e.1 = i).map Prod.snd).getD .opened

def Stream.setState (x : Stream) (i : Int) (v : SlotState) : Stream :=
  { x with slots := x.slots.filter (fun e => e.1 ≠ i) ++ [(i, v)] }

def sat64 (n : Nat) : Nat := min (2 ^ 64 - 1) n

/-- The report of a slot (R203). -/
def slotReport (s : State) (vi n : Nat) (i : Int) : Nat :=
  let x := streamAt s (streamKey vi n)
  let low := fun (v : Int) => (v % 2 ^ 32).toNat * 2 ^ 32
  if !(viD s vi).configured || !x.enabled || i < 0 || x.covered < i || !x.inWindow x.covered i then 8 + low i
  else match x.stateOf i with
    | .opened => low i
    | .present late => 1 + b1 late * 4 + low i
    | .late => 2 + low i
    | .held src => 3 + low src

/-- SWQ (R203). -/
def execSwq (g : GF) (s : State) : Out :=
  fireWord s (.swq g) (fun s f => [(.count, portD s f .l), (.count, portD s f .r)]) fun f s1 =>
    let l := portD s1 f .l
    let r := portD s1 f .r
    if !l.tag.isInt ∨ !r.tag.isInt ∨ tokInt l < 0 ∨ 31 < tokInt l then raiseAt s1 f ⟨.format, 0⟩
    else
      let v := mkTok .n64 (slotReport s1 (taskD s1 f.tid).vi (tokInt l).toNat (tokInt r))
      fireSend s1 f (.swq g) v v 0

/-! ### Engine writes of ingest and of the hold copy (R149, R228) -/

/-- One byte written by ingest, by an identity of its own. -/
def ingestByte (s : State) (vi va : Nat) (b : Byte) (poison : Bool) : State :=
  match devXlat s vi (va % 2 ^ 52) .write with
  | .hit pa 0 _ => { s with gm := engineStore (touchAll s.gm (walk s vi (va % 2 ^ 52)).2) pa [b] poison (2 * s.nd + 1) }
  | _ => s

def ingestBytes (s : State) (vi va : Nat) : List (Byte × Bool) → State
  | [] => s
  | (b, p) :: t => ingestBytes (ingestByte s vi va b p) vi (va + 1) t

/-- Whether a range of bytes may be accessed. -/
def rangeOk (s : State) (vi va n : Nat) (a : Access) : Bool :=
  n = 0 || (match devRange s vi va a n with | .hit _ _ _ => true | _ => false)

/-- The bytes of a range with the poison of their lines. -/
def poisonedBytes (s : State) (vi va n : Nat) : List (Byte × Bool) :=
  (List.range n).map fun k => match devXlat s vi ((va + k) % 2 ^ 52) .read with
    | .hit pa r _ =>
      if r = 0 then (paByte s.gm pa, (lineAt s.gm (pa / 128)).poison) else (Config.peerData r pa s.nd, Config.peerPoison r pa s.nd)
    | _ => (0, false)

/-- A copy between two slot-sized places; none where a page is missing or refuses (R313). -/
def copySlot (s : State) (vi src dst n : Nat) : Option State :=
  if rangeOk s vi src n .read && rangeOk s vi dst n .write then
    some (ingestBytes (devTouch s vi src n) vi dst (poisonedBytes s vi src n))
  else none

/-- Addresses in every page on which a sill slot lies (R228). -/
def sillVas (x : Stream) : List Nat :=
  let n := x.sill * x.slotB
  if n = 0 then [] else (List.range (n / 65536 + 2)).map fun k => (x.base.toNat + min (65536 * k) (n - 1)) % 2 ^ 52

/-- Every sill slot lies on pinned pages (R228). -/
def sillPinned (s : State) (vi : Nat) (x : Stream) : Bool :=
  (sillVas x).all fun va => match (walk s vi va).1 with
    | .leaf t => ePin t.entry.toNat
    | _ => false

/-- The translations of the sill's pages are held in every TLB of the interface (R228). -/
def sillHold (s : State) (vi : Nat) (x : Stream) : State :=
  (sillVas x).foldl (fun a va => match (walk a vi va).1 with
    | .leaf t => if ePin t.entry.toNat then tlbPin (walkTouch a vi va) t else a
    | _ => a) s

/-- The fields of a packet (R317). -/
def pktVi (p : Packet) : Nat := bits p.head.toNat 0 6
def pktStream (p : Packet) : Nat := bits p.head.toNat 6 5
def pktLast (p : Packet) : Bool := bits p.head.toNat 11 1 = 1
def pktLength (p : Packet) : Nat := bits p.head.toNat 16 16

/-- The data that the length counts; what flits that are missing hold is free (log 106). -/
def pktBytes (p : Packet) : List Byte := (List.range (pktLength p)).map fun k => (p.data[k]?).getD (Config.missingByte p.ts.toNat k)

/-- INGEST_PACKET (R312, R317). -/
def ingestPacket (s : State) (p : Packet) : State :=
  let vi := pktVi p
  let k := streamKey vi (pktStream p)
  let x := streamAt s k
  let n := pktLength p
  let offset := p.offset.toNat
  let drop := setStream s k { x with dropped := sat64 (x.dropped + 1) }
  if !(viD s vi).configured then s
  else if !x.enabled || !x.valid || n % 16 ≠ 0 || offset % 16 ≠ 0 || x.slotB < offset + n || !sillPinned s vi x then drop
  else
    let i := x.slotOf p.ts
    if i < 0 || x.covered + x.win < i || !x.inWindow x.covered i then drop
    else if !rangeOk s vi (x.place i) (max 1 x.slotB) .write then drop
    else
      let s1 := ingestBytes (sillHold s vi x) vi ((x.place i + offset) % 2 ^ 52) ((pktBytes p).map fun b => (b, false))
      if !pktLast p then s1
      else
        let late := decide (i ≤ x.covered)
        setStream s1 k { x.setState i (.present late) with lateFill := sat64 (x.lateFill + b1 late) }

def execIngestPacket (p : Packet) (s : State) : Out := .next (ingestPacket s p)

/-! ### Ticks (R308 to R310, R312) -/

def tickAt (s : State) (n : Nat) : Tick := tgetD s.tm.ticks n {}
def setTick (s : State) (n : Nat) (t : Tick) : State := { s with tm := { s.tm with ticks := tputD {} s.tm.ticks n t } }

/-- d0's time in ns (R305). -/
def now0 (s : State) : Nat := timeNs (dieTime s 0)

/-- The time of tick k in ns (R308). -/
def Tick.timeOf (t : Tick) (k : Nat) : Nat := timeNs t.origin + k * t.period.toNat

/-- The interface and the job number of a TICK_JOB (R211). -/
def tickVi (job : BitVec 64) : Nat := bits job.toNat 16 6
def tickJob (job : BitVec 64) : Nat := bits job.toNat 0 16

/-- The next tick of a source has come. -/
def tickDue (s : State) (t : Tick) : Bool := t.period ≠ 0 && t.timeOf t.count ≤ now0 s

/-- The job that a TICK_JOB names exists, has had no END and is not cancelled; its interface holds the grant and is configured
(R211, R246, R308, R318, log 107). -/
def tickLive (s : State) (n : Nat) (job : BitVec 64) : Bool :=
  tickGranted s (tickVi job) n && (viD s (tickVi job)).configured
    && (match tget s.jb.jobs (jobKey (tickVi job) (tickJob job)) with
      | some j => j.endAt.isNone && !j.lvl.cancelled
      | none => false)

/-- A tick freezes one stream: its last covered slot advances; the slots frozen are kept with the tick (R312, R313). -/
def freezeOne (time : Payload) (n : Nat) (acc : State × List (Nat × Int × Int)) (k : Nat) :
    State × List (Nat × Int × Int) :=
  let s := acc.1
  let x := streamAt s k
  if x.enabled && x.tickOf = n && (viD s (k / 32)).configured then
    let c := max x.covered (x.slotOf time - 1)
    (setStream s k { x with covered := c }, if x.covered < c then acc.2 ++ [(k, x.covered + 1, c)] else acc.2)
  else acc

/-- Tick `k` of a source, with the fields as they stand (R211). -/
def Tick.fired (t : Tick) (k : Nat) : Fired := ⟨k, t.timeOf k, t.grace.toNat, t.card, t.policy, t.job⟩

/-- One tick: TICK_COUNT advances; a source whose job is closed, or whose interface lacks the grant, fires nothing. -/
def fireTick (s : State) (n : Nat) : State :=
  let t := tickAt s n
  let s1 := setTick s n { t with count := t.count + 1 }
  if !tickLive s n t.job then s1
  else
    let r := (s1.tm.streams.map Prod.fst).foldl (freezeOne (timeOfNs (t.timeOf t.count)) n) (s1, [])
    let t1 := tickAt r.1 n
    setTick r.1 n { t1 with graces := t1.graces ++ [⟨t.fired t.count, r.2⟩] }

/-- The end of a tick's grace. -/
def Fired.ends (x : Fired) : Nat := x.t + x.grace

/-- The grace that ends first, of two that end together the older one. -/
def firstGrace : List Grace → Option Grace
  | [] => none
  | g :: rest =>
    match firstGrace rest with
    | some h => if h.fired.ends < g.fired.ends then some h else some g
    | none => some g

/-! ### Expiry and the launch (R308, R309, R313) -/

/-- One frozen slot at the end of the grace. -/
def expireSlot (k : Nat) (c : Int) (s : State) (i : Int) : State :=
  let x := streamAt s k
  let vi := k / 32
  let inw := x.inWindow c i
  match x.stateOf i with
  | .present _ =>
    if x.hold && inw then
      (match copySlot s vi (x.place i) x.holdPlace x.slotB with
        | some s1 => setStream s1 k { x with src := i, filled := true }
        | none => s)
    else s
  | .opened =>
    let x1 := { x with late := sat64 (x.late + 1) }
    let gone := setStream s k (x1.setState i .late)
    if !x.hold || !x.filled || !inw then gone
    else
      (match copySlot s vi x.holdPlace (x.place i) x.slotB with
        | some s1 => setStream s1 k (x1.setState i (.held x.src))
        | none => gone)
  | _ => s

/-- Slots that have left the window for good are forgotten; they report as outside it. -/
def pruneSlots (s : State) (k : Nat) (hi : Int) : State :=
  let x := streamAt s k
  setStream s k { x with slots := x.slots.filter fun e => !(e.1 ≤ hi && !x.inWindow x.covered e.1) }

def expireStream (s : State) (f : Nat × Int × Int) : State :=
  let is := (List.range (f.2.2 - f.2.1 + 1).toNat).map fun (j : Nat) => f.2.1 + (j : Int)
  pruneSlots (is.foldl (expireSlot f.1 f.2.2) s) f.1 f.2.2

/-- A launch of the source that has not completed. -/
def sourceBusy (s : State) (n : Nat) : Bool := s.jb.launches.any fun e => e.2.source = some n && !e.2.lvl.done

/-- The launch of a tick, as its fields stood when it fired; none once its job has been closed or cancelled, or its interface
lost the grant. -/
def tickLaunch (s : State) (n : Nat) (x : Fired) : State :=
  if !tickLive s n x.job then s
  else (newLaunch s { vi := tickVi x.job, job := tickJob x.job, card := x.card.toNat % 2 ^ 52,
                      tick := some (x.k, (timeOfNs x.t).toNat), source := some n }).2

/-- The launch must wait: for one of the source that has not completed (R309), or for a unit of a counter (R260). -/
def launchWaits (s : State) (n : Nat) (x : Fired) : Bool := sourceBusy s n || launchFull s (tickVi x.job) (tickJob x.job)

/-- The end of the grace of a source that ends first: its slots expire, then its launch is made, deferred or skipped. -/
def expireHead (s : State) (n : Nat) : State :=
  let t := tickAt s n
  match firstGrace t.graces with
  | none => s
  | some g =>
    let s0 := { s with tm := { s.tm with expired := some s.clk.cycle } }
    let s1 := g.frozen.foldl expireStream (setTick s0 n { t with graces := lerase t.graces g })
    let behind := sourceBusy s1 n || !(tickAt s1 n).deferred.isEmpty
    if behind && g.fired.policy then s1
    else if behind || launchWaits s1 n g.fired then
      setTick s1 n { tickAt s1 n with deferred := (tickAt s1 n).deferred ++ [g.fired] }
    else tickLaunch s1 n g.fired

/-- Ticks that are due, each after the graces that end at or before it, and then the graces that have ended by now (R310). -/
def tickLoop (n : Nat) : Nat → State → State
  | 0, s => s
  | fuel + 1, s =>
    let t := tickAt s n
    let next := if tickDue s t then t.timeOf t.count else now0 s
    match firstGrace t.graces with
    | some g =>
      if g.fired.ends ≤ next then tickLoop n fuel (expireHead s n)
      else if tickDue s t then tickLoop n fuel (fireTick s n) else s
    | none => if tickDue s t then tickLoop n fuel (fireTick s n) else s

/-- TICK: the ticks of a source that have come, in ascending k. -/
def tick (s : State) (n : Nat) : State :=
  let t := tickAt s n
  if 16 ≤ n ∨ !tickDue s t then s
  else tickLoop n (2 * ((now0 s - t.timeOf t.count) / t.period.toNat + 1) + t.graces.length) s

def execTick (source : Nat) (s : State) : Out := .next (tick s source)

/-- GRACE_EXPIRY: the grace that ends first has ended. -/
def graceExpiry (s : State) (n : Nat) : State :=
  match firstGrace (tickAt s n).graces with
  | some g => if g.fired.ends ≤ now0 s then expireHead s n else s
  | none => s

def execGraceExpiry (source : Nat) (s : State) : Out := .next (graceExpiry s source)

/-- TICK_DEFERRED_LAUNCH: every earlier launch of the source has completed (R309). -/
def deferredLaunch (s : State) (n : Nat) : State :=
  let t := tickAt s n
  match t.deferred with
  | [] => s
  | x :: rest => if launchWaits s n x then s else tickLaunch (setTick s n { t with deferred := rest }) n x

def execTickDeferredLaunch (source : Nat) (s : State) : Out := .next (deferredLaunch s source)

/-! ### Writes to the tick set (R202, R211, R213, R310) -/

/-- The first tick after a time in ns. -/
def firstTick (now : Nat) (t : Tick) : Nat :=
  if t.period = 0 ∨ now < timeNs t.origin then 0 else (now - timeNs t.origin) / t.period.toNat + 1

/-- A descriptor that TICKW may install (R202). -/
def tickDescOk (d : Nat) : Bool :=
  bits d 0 32 ≤ 999999999 && (bits d 64 32 = 0 || bits d 96 32 < bits d 64 32) && bits d 128 6 = 0 && decide (d / 2 ^ 193 = 0)

/-- TICKW's descriptor reaches d0: N8 0, or 1 with nothing installed. The ticks begin after the commit (R202, R310). -/
def tickInstall (s : State) (m : TickMsg) : State :=
  let d := m.desc.toNat
  let ret := fun (st : State) (v : Nat) => post st [.returnValueArrive ⟨m.tid, m.iter, m.launch, m.reg, mkTok .n8 v, 0⟩]
  if !tickGranted s m.vi m.source || !tickDescOk d then ret s 1
  else
    let t := tickAt s m.source
    let t1 := { t with origin := BitVec.ofNat 64 (bits d 0 64), period := BitVec.ofNat 32 (bits d 64 32),
                       grace := BitVec.ofNat 32 (bits d 96 32), card := BitVec.ofNat 64 (bits d 128 64),
                       policy := decide (bits d 192 1 = 1), job := BitVec.ofNat 64 (m.job + m.vi * 2 ^ 16) }
    ret (setTick s m.source { t1 with count := firstTick m.at_ t1 }) 0

/-- A SYSWR of one register of the set. -/
def tickReg (s : State) (n i : Nat) (v : Payload) : State :=
  let t := tickAt s n
  match i with
  | 0 => setTick s n { t with origin := v }
  | 1 =>
    let t1 := { t with period := BitVec.ofNat 32 v.toNat }
    setTick s n (if t.period = 0 && t1.period ≠ 0 then { t1 with count := firstTick (now0 s) t1 } else t1)
  | 2 => setTick s n { t with grace := BitVec.ofNat 32 v.toNat }
  | 3 => setTick s n { t with card := v }
  | 4 => setTick s n { t with policy := decide (bits v.toNat 0 1 = 1) }
  | 6 => setTick s n { t with job := BitVec.ofNat 64 (v.toNat % 2 ^ 22) }
  | _ => s

/-- TICK_SET_WRITE. -/
def tickSetWrite (s : State) (w : TickSet) : State :=
  match w with
  | .install m => tickInstall s m
  | .reg w => if 0x100 ≤ w.n ∧ w.n < 0x180 then tickReg s ((w.n - 0x100) / 8) ((w.n - 0x100) % 8) w.val else s

def execTickSetWrite (w : TickSet) (s : State) : Out := .next (tickSetWrite s w)

/-- The stream that a pane's STREAM_SEL names (R211). -/
def selStream (s : State) (pane : Nat) : Nat :=
  let v := (tgetD s.sr.streamSel pane 0).toNat
  streamKey (bits v 0 6) (bits v 6 5)

/-- STREAM_SET_WRITE: a stream is reshaped only while it is disabled; at enable its slots start afresh (R259, R311). -/
def streamSetWrite (s : State) (w : SysW) : State :=
  let k := selStream s w.pane
  let x := streamAt s k
  if w.n = 0x183 then
    setStream (if w.val ≠ 0 then sillHold s (k / 32) x else s) k (if x.period = 0 && w.val ≠ 0 then
      { x with period := w.val, covered := -1, slots := [], filled := false, src := 0 } else { x with period := w.val })
  else if x.enabled then s
  else if w.n = 0x181 then setStream s k { x with base := w.val }
  else if w.n = 0x182 then setStream s k { x with geom := BitVec.ofNat 64 (w.val.toNat % 2 ^ 38) }
  else if w.n = 0x184 then setStream s k { x with origin := w.val }
  else s

def execStreamSetWrite (w : SysW) (s : State) : Out := .next (streamSetWrite s w)

end Sys2Proof.Machine
end

