-- ==== Sys2Proof/Machine/Clock.lean ====
section
/-! DEFINITION. The clock: the PTP unit of d0 and the passing of device time (R10, R304 to R306). Times of messages are in
nanoseconds; the clock itself counts units of 0.0001 ns, 4,000 to a cycle. -/

namespace Sys2Proof.Machine

/-- Units of 0.0001 ns. -/
def units (ns : Int) : Int := ns * 10000

/-- One cycle of one die's copy: what the slew adds, at most 500 ppm, and what a hold keeps back (R305). -/
def slewStep (c : Clk) : Int := max (-2) (min 2 c.slew)

def cycleClk (c : Clk) : Clk :=
  let held := min c.hold 4000
  let d := slewStep c
  let step := ((4000 - held : Nat) : Int) + (if c.hold = 0 then d else 0)
  { c with cycle := c.cycle + 1, times := c.times.map (fun t => t + step.toNat), hold := c.hold - held,
           slew := if c.hold = 0 then c.slew - d else c.slew }

/-- TIME_CORRECT: an offset below 1 ms is slewed, a larger forward one stepped, a larger backward one holds the time still
until true time passes it (R305). `adj` is what must be added, in ns. -/
def timeCorrect (c : Clk) (adj : Int) : Clk :=
  if adj < 1000000 ∧ -1000000 < adj then { c with slew := units adj, hold := 0 }
  else if 0 < adj then { c with times := c.times.map (fun t => t + (units adj).toNat), slew := 0, hold := 0 }
  else { c with slew := 0, hold := (units (-adj)).toNat }

/-- PTP_MASTER_LOSS: the time runs free at the oscillator's rate (R306). -/
def masterLoss (c : Clk) : Clk :=
  let gone := fun (f : Foreign) => f.port = c.ptp.port && c.ptp.master = some f.ann.sender
  let p := { c.ptp with locked := false, master := none, twoStep := none, t3 := none,
                        foreign := c.ptp.foreign.filter fun f => !gone f }
  { c with slew := 0, hold := 0, ptp := p }

/-- The unit's stamp: d0's time in ns, with the resolution of 1 ns (R304). -/
def ptpNow (c : Clk) : Nat := (c.times[0]?).getD 0 / 10000

/-- The delay of the path to the master, by the mechanism of its port. -/
def pathDelay (p : Ptp) : Int := if p.peer.contains p.port then tgetD p.links p.port 0 else p.delay

/-- The offset from the master that an exchange gives: t2 − t1 − the path delay. -/
def ptpCorrect (c : Clk) (t1 t2 : Nat) : Clk :=
  let off : Int := (t2 : Int) - (t1 : Int) - pathDelay c.ptp
  timeCorrect { c with ptp := { c.ptp with t1 := t1, t2 := t2, locked := true, twoStep := none } } (-off)

/-- A message of the domain from the master, at its port. -/
def fromMaster (p : Ptp) (port sender domain : Nat) : Bool := domain = p.domain && p.master = some sender && port = p.port

/-! The default best master clock algorithm (IEEE 1588-2019, by R304, log 71). -/

/-- The lexicographic order of two data sets. -/
def lexLt : List Nat → List Nat → Bool
  | a :: s, b :: t => a < b || (a = b && lexLt s t)
  | _, _ => false

/-- One master is better than another: by its grandmaster's data; of one grandmaster, by the steps to it, the sender, the port. -/
def betterMaster (a b : Foreign) : Bool :=
  if a.ann.gm = b.ann.gm then lexLt [a.ann.steps, a.ann.sender, a.port] [b.ann.steps, b.ann.sender, b.port]
  else lexLt [a.ann.prio1, a.ann.cls, a.ann.accuracy, a.ann.variance, a.ann.prio2, a.ann.gm]
    [b.ann.prio1, b.ann.cls, b.ann.accuracy, b.ann.variance, b.ann.prio2, b.ann.gm]

/-- A master heard twice within four intervals, at fewer than 255 steps, qualifies. -/
def qualified (f : Foreign) : Bool :=
  f.ann.steps < 255 && (match f.before with | some t => f.at_ ≤ t + 4 * f.ann.interval | none => false)

/-- The best of the masters that qualify. -/
def bestMaster : List Foreign → Option Foreign
  | [] => none
  | f :: t =>
    match bestMaster t with
    | none => if qualified f then some f else none
    | some g => if qualified f && betterMaster f g then some f else some g

/-- An Announce: what it says of its sender takes the place of what was heard before, and the best master is followed. -/
def ptpAnnounce (p : Ptp) (now port : Nat) (a : Announce) : Ptp :=
  let same := fun (f : Foreign) => f.port = port && f.ann.sender = a.sender
  let heard := p.foreign.filter fun f => !same f && now ≤ f.at_ + 4 * f.ann.interval
  let p1 := { p with foreign := heard ++ [⟨port, a, now, (p.foreign.find? same).map fun f => f.at_⟩] }
  match bestMaster p1.foreign with
  | some f =>
    if p1.master = some f.ann.sender && p1.port = f.port then p1
    else { p1 with master := some f.ann.sender, port := f.port, twoStep := none, t3 := none }
  | none => p1

/-- Sync and Follow_Up give the offset, the delay request and its response the mean path delay (IEEE 1588-2019, by R304). -/
def ptpMaster (c : Clk) (m : PtpMsg) : Clk :=
  let p := c.ptp
  match m with
  | .sync port who d seq two t1 =>
    if !fromMaster p port who d then c
    else if two then { c with ptp := { p with twoStep := some (seq, ptpNow c) } }
    else ptpCorrect c t1 (ptpNow c)
  | .followUp port who d seq t1 =>
    (match p.twoStep with
      | some (n, t2) => if fromMaster p port who d && n = seq then ptpCorrect c t1 t2 else c
      | none => c)
  | .delayReqSent port seq => if p.peer.contains port then c else { c with ptp := { p with t3 := some (seq, ptpNow c) } }
  | .delayResp port who d seq t4 =>
    (match p.t3 with
      | some (n, t3) =>
        if fromMaster p port who d && n = seq then
          { c with ptp := { p with t3 := none, delay := (((p.t2 : Int) - p.t1) + ((t4 : Int) - t3)) / 2 } }
        else c
      | none => c)
  | _ => c

/-- The peer delay of a link: half of what the exchange took beside the peer's own time (IEEE 1588-2019, by R304). -/
def ptpPeer (c : Clk) (m : PtpMsg) : Clk :=
  let p := c.ptp
  match m with
  | .pdelayReqSent port seq => if p.peer.contains port then { c with ptp := { p with asked := tput p.asked port (seq, ptpNow c) } } else c
  | .pdelayResp port d seq t2 =>
    (match tget p.asked port with
      | some (n, _) => if d = p.domain && n = seq then { c with ptp := { p with answered := tput p.answered port (t2, ptpNow c) } } else c
      | none => c)
  | .pdelayFollowUp port d seq t3 =>
    (match tget p.asked port, tget p.answered port with
      | some (n, t1), some (t2, t4) =>
        if d = p.domain && n = seq then
          let delay : Int := (((t4 : Int) - t1) - ((t3 : Int) - t2)) / 2
          { c with ptp := { p with asked := tdel p.asked port, answered := tdel p.answered port, links := tput p.links port delay } }
        else c
      | _, _ => c)
  | _ => c

/-- What the PTP unit does with what reaches it. A new domain has no master yet. -/
def ptpStep (c : Clk) (m : PtpMsg) : Clk :=
  match m with
  | .setDomain d => if 127 < d ∨ d = c.ptp.domain then c else masterLoss { c with ptp := { c.ptp with domain := d, foreign := [] } }
  | .setPeerDelay port on =>
    let rest := c.ptp.peer.filter fun q => q ≠ port
    { c with ptp := { c.ptp with peer := if on then rest ++ [port] else rest } }
  | .announce port d a => if d = c.ptp.domain then { c with ptp := ptpAnnounce c.ptp (ptpNow c) port a } else c
  | .pdelayReq _ _ _ => c
  | .pdelayReqSent _ _ | .pdelayResp _ _ _ _ | .pdelayFollowUp _ _ _ _ => ptpPeer c m
  | m => ptpMaster c m

/-- A peer's Pdelay_Req is answered at a port with peer delay, with its time of receipt and of the answer. -/
def ptpAnswers (c : Clk) : PtpMsg → List Reply
  | .pdelayReq port d seq => if d = c.ptp.domain && c.ptp.peer.contains port then [.pdelay port seq (ptpNow c) (ptpNow c)] else []
  | _ => []

/-- PTP_MESSAGE; a unit that B10 has not started processes none (R321). -/
def execPtpMessage (m : PtpMsg) (s : State) : Out :=
  .next (if s.clk.ptp.running then
    { s with clk := ptpStep s.clk m, bt := { s.bt with replies := s.bt.replies ++ ptpAnswers s.clk m } }
  else s)

def execPtpMasterLoss (s : State) : Out := .next { s with clk := masterLoss s.clk }

end Sys2Proof.Machine
end

