-- ==== Sys2Proof/Machine/SysRegs.lean ====
section
/-! DEFINITION. System registers: SYSRD, the writes of SYSWR, the counters' clearing read, the latch (R8, R205, R206, R211 to
R216, R266, R267). -/

namespace Sys2Proof.Machine

/-! ### Reads (R205, R211, R212) -/

/-- CAPS (R212). -/
def capsBits (die : Nat) : Nat :=
  die % 4 + (Config.panes - 1) * 2 ^ 8 + 3 * 2 ^ 16 + (Config.vis - 1) * 2 ^ 18 + 15 * 2 ^ 24 + (Config.colours - 1) * 2 ^ 32
    + 16 * 2 ^ 48 + Config.siliconRev.toNat * 2 ^ 56

/-- A register of the TICK set (R211). -/
def tickRead (s : State) (n i : Nat) : Nat :=
  let t := tickAt s n
  match i with
  | 0 => t.origin.toNat
  | 1 => t.period.toNat
  | 2 => t.grace.toNat
  | 3 => t.card.toNat
  | 4 => b1 t.policy
  | 5 => t.count % 2 ^ 64
  | 6 => t.job.toNat
  | _ => 0

/-- A register of the STREAM set (R211). -/
def streamRead (s : State) (k n : Nat) : Nat :=
  let x := streamAt s k
  match n with
  | 0x181 => x.base.toNat
  | 0x182 => x.geom.toNat
  | 0x183 => x.period.toNat
  | 0x184 => x.origin.toNat
  | 0x185 => x.late
  | 0x186 => x.lateFill
  | 0x187 => x.dropped
  | _ => 0

/-- ISSUED or DONE of a context (R171). -/
def ctxRead (s : State) (k j : Nat) : Nat := (if j = 0 then (ctxAt s k).issued else (ctxAt s k).done) % 2 ^ 64

/-- The value of register n as a pane reads it; `viId` is VI_ID, a view of the task that reads. An unassigned number reads
zero. -/
def sysReg (s : State) (pane viId n : Nat) : Nat :=
  let die := paneDie pane
  if n = 0x000 then viId
  else if n = 0x001 then capsBits die
  else if n = 0x002 then (tgetD s.sr.faultInfo die 0).toNat
  else if 0x010 ≤ n ∧ n < 0x018 then (tgetD s.sr.ovp (pane * 8 + (n - 0x010)) 0).toNat
  else if 0x040 ≤ n ∧ n < 0x080 then (tgetD s.sr.viCtl (n - 0x040) 0).toNat
  else if 0x080 ≤ n ∧ n < 0x0B0 then (tgetD s.sr.badnode (die * 48 + (n - 0x080)) 0).toNat
  else if 0x100 ≤ n ∧ n < 0x180 then tickRead s ((n - 0x100) / 8) ((n - 0x100) % 8)
  else if n = 0x180 then (tgetD s.sr.streamSel pane 0).toNat
  else if 0x181 ≤ n ∧ n < 0x188 then streamRead s (selStream s pane) n
  else if 0x1C0 ≤ n ∧ n < 0x1C8 then perfSelOf s pane (n - 0x1C0)
  else if 0x1C8 ≤ n ∧ n < 0x1D0 then perfCntOf s pane (n - 0x1C8)
  else if n = 0x1D0 then setBits (tgetD s.sr.trigger die 0).toNat 1 1 (b1 (latchedNow s die))
  else if 0x200 ≤ n ∧ n < 0x280 then ctxRead s (die * 1024 + (n - 0x200) / 2) (n % 2)
  else if 0x280 ≤ n ∧ n < 0x2A0 then ctxRead s (die * 1024 + 64 + (n - 0x280) / 2) (n % 2)
  else if 0x2A0 ≤ n ∧ n < 0x2A8 then ctxRead s (die * 1024 + 128 + pane % 192 * 4 + (n - 0x2A0) / 2) (n % 2)
  else 0

/-- A read of PERF_CNT with CLR set leaves zero; its hidden total is cleared with it (R216, R266). -/
def clearOnRead (s : State) (pane c : Nat) : State :=
  if bits (perfSelOf s pane c) 13 1 = 1 then perfSet s (pane * 8 + c) 0 else s

/-- PERF_CNT_CLEAR_READ: a read of a counter by firmware, through the die's register path. -/
def execPerfCntClearRead (pane c : Nat) (s : State) : Out := .next (if c < 8 then clearOnRead s pane c else s)

/-- VI_ID as a task reads it; a read that no task makes returns zero (R213). -/
def viIdOf (s : State) : Option Task → Nat
  | some t => t.vi % 64 + b1 (taskMaint s t) * 64
  | none => 0

/-- SYSRD (R205): the privilege comes before the operands. -/
def execSysrd (i : IF) (s : State) : Out :=
  onLane s (.sysrd i) fun f s1 =>
    let t := taskD s1 f.tid
    let n := i.imm.toNat
    if !taskMaint s1 t then raiseAt s1 f ⟨.priv, n⟩
    else fireGate s1 f (.sysrd i) [(.pass, portD s1 f .l)] fun s2 =>
      if tagTile (portD s2 f .l).tag then raiseAt s2 f ⟨.format, 0⟩
      else
        let pane := cellPane s2 f
        let v := mkTok .n64 (sysReg s2 pane (viIdOf s2 (some t)) n)
        let s3 := if 0x1C8 ≤ n ∧ n < 0x1D0 then clearOnRead s2 pane (n - 0x1C8) else s2
        fireSend s3 f (.sysrd i) v v 0

/-! ### Writes (R8, R206, R211, R213 to R216) -/

/-- OVP_WRITE (R214): BASE and SIZE; the low bits read zero. -/
def ovpWrite (s : State) (w : SysW) : State :=
  if 0x010 ≤ w.n ∧ w.n < 0x018 then
    { s with sr := { s.sr with ovp := tputD 0 s.sr.ovp (w.pane * 8 + (w.n - 0x010)) (BitVec.ofNat 64 (w.val.toNat / 65536 * 65536)) } }
  else s

def execOvpWrite (w : SysW) (s : State) : Out := .next (ovpWrite s w)

/-- Sources whose grant bit is cleared are disabled (R213). -/
def dropGrants (old new : Nat) (s : State) : State :=
  (List.range 16).foldl (fun a n =>
    if bits old (16 + n) 1 = 1 && bits new (16 + n) 1 = 0 then setTick a n { tickAt a n with period := 0 } else a) s

/-- VI_CTL_WRITE (R213): BKPT_EN and TICK_GRANT. -/
def viCtlWrite (s : State) (w : SysW) : State :=
  if 0x040 ≤ w.n ∧ w.n < 0x080 then
    let v := w.n - 0x040
    let new := bits w.val.toNat 0 1 + bits w.val.toNat 16 16 * 2 ^ 16
    dropGrants (tgetD s.sr.viCtl v 0).toNat new
      { s with sr := { s.sr with viCtl := tputD 0 s.sr.viCtl v (BitVec.ofNat 64 new) } }
  else s

def execViCtlWrite (w : SysW) (s : State) : Out := .next (viCtlWrite s w)

/-- Cells are marked bad, and each new mark is written to the start log (R215). -/
def setBad (s : State) (die y : Nat) (v : BitVec 64) : State :=
  let k := die * 48 + y
  let old := tgetD s.sr.badnode k 0
  let new := old ||| v
  let s1 := { s with sr := { s.sr with badnode := tputD 0 s.sr.badnode k new }
                     bt := { s.bt with flashBad := tputD 0 s.bt.flashBad k new } }
  (List.range 64).foldl (fun a x =>
    if bits new.toNat x 1 = 1 && bits old.toNat x 1 = 0 then logEntry a 8 1 die 0 else a) s1

/-- BADNODE_WRITE (R215): the value is ORed in. -/
def badnodeWrite (s : State) (w : SysW) : State :=
  if 0x080 ≤ w.n ∧ w.n < 0x0B0 then setBad s w.die (w.n - 0x080) w.val else s

def execBadnodeWrite (w : SysW) (s : State) : Out := .next (badnodeWrite s w)

/-- TRIGGER_WRITE (R216, R267): ARM takes the value; a 1 to LATCHED clears it, and the counters run again from the next
cycle. -/
def triggerWrite (s : State) (w : SysW) : State :=
  let due := fun (l : Nat × Nat) => l.2 = w.die && l.1 ≤ s.clk.cycle
  let arm := bits w.val.toNat 0 1
  let set := fun (v : Nat) => tputD 0 s.sr.trigger w.die (BitVec.ofNat 64 v)
  if bits w.val.toNat 1 1 = 1 then
    { s with sr := { s.sr with trigger := set arm, latch := s.sr.latch.filter fun l => !due l,
                               thaw := if latchedNow s w.die then tput s.sr.thaw w.die (s.clk.cycle + 1) else s.sr.thaw } }
  else { s with sr := { s.sr with trigger := set (arm + bits (tgetD s.sr.trigger w.die 0).toNat 1 1 * 2) } }

def execTriggerWrite (w : SysW) (s : State) : Out := .next (triggerWrite s w)

/-- SYSREG_WRITE: STREAM_SEL, PERF_SEL and PERF_CNT; a read-only or unassigned number is not written (R206, R211). A write of
PERF_SEL clears the hidden total (R266). -/
def sysregWrite (s : State) (w : SysW) : State :=
  if w.n = 0x180 then
    { s with sr := { s.sr with streamSel := tputD 0 s.sr.streamSel w.pane (BitVec.ofNat 64 (w.val.toNat % 2 ^ 11)) } }
  else if 0x1C0 ≤ w.n ∧ w.n < 0x1C8 then
    let k := w.pane * 8 + (w.n - 0x1C0)
    { s with sr := { s.sr with perfSel := tputD 0 s.sr.perfSel k (BitVec.ofNat 64 (w.val.toNat % 2 ^ 14)),
                               perfTotal := tdel s.sr.perfTotal k } }
  else if 0x1C8 ≤ w.n ∧ w.n < 0x1D0 then perfSet s (w.pane * 8 + (w.n - 0x1C8)) w.val.toNat
  else s

def execSysregWrite (w : SysW) (s : State) : Out := .next (sysregWrite s w)

/-- LATCH_PROPAGATE: a die's step of R267 has come; it sets LATCHED whatever its ARM. -/
def latchPropagate (s : State) (die : Nat) : State :=
  let due := fun (l : Nat × Nat) => l.2 = die && l.1 ≤ s.clk.cycle
  if s.sr.latch.any due then
    let old := (tgetD s.sr.trigger die 0).toNat
    { s with sr := { s.sr with trigger := tputD 0 s.sr.trigger die (BitVec.ofNat 64 (setBits old 1 1 1)),
                               latch := s.sr.latch.filter fun l => !due l } }
  else s

def execLatchPropagate (die : Nat) (s : State) : Out := .next (latchPropagate s die)

/-! ### The scrubber of local store (R219, R220) -/

/-- The rows of a pane, each of 32 code words of two granules. -/
def scrubRows : Nat := 1024

/-- SCRUB_ROW: the patrol scrubber reads its next row, decoding every code word; a pass over the pane begins the counts of
corrections anew. -/
def scrubRow (s : State) (pane : Nat) : State :=
  let row := tgetD s.ls.scrub pane 0
  let s0 := if row = 0 then
      { s with ls := { s.ls with corr := (rangeFrom (pane * 18) 18).foldl tdel s.ls.corr } }
    else s
  let s1 := (rangeFrom (pane * 32768 + row * 32) 32).foldl decodeWord s0
  { s1 with ls := { s1.ls with scrub := tputD 0 s1.ls.scrub pane ((row + 1) % scrubRows) } }

def execScrubRow (pane : Nat) (s : State) : Out := .next (scrubRow s pane)

/-- ECC_WRITEBACK: the corrected code words of a row are written back, so that no symbol of them is in error outside the
failed banks. -/
def eccWriteback (s : State) (pane row : Nat) : State :=
  if s.ls.wbs.contains (pane, row) then
    let cws := rangeFrom (pane * 32768 + row * 32) 32
    let fix := fun (u : Table (List (Nat × Byte))) (cw : Nat) => if correctable s.ls cw then tdel u cw else u
    { s with ls := { s.ls with upset := cws.foldl fix s.ls.upset, wbs := lerase s.ls.wbs (pane, row) } }
  else s

def execEccWriteback (pane row : Nat) (s : State) : Out := .next (eccWriteback s pane row)

end Sys2Proof.Machine
end

