-- ==== Sys2Proof/Machine/Shutter.lean ====
section
/-! DEFINITION. Shutters, saved state and resume, firmware's acts on stopped tasks, and parity errors (R139, R189, R191, R229,
R253, R293, R297 to R303, R320). -/

namespace Sys2Proof.Machine

/-! ### The marker and the cut (R298, R299) -/

/-- SHUTTER_RAISE: firmware's request. The hardware's own are raised with what causes them. -/
def execShutterRaise (graph : Nat) (s : State) : Out := .next (raiseShutter s graph .firmware)

/-- The good cells of a graph's region. -/
def regionCells (g : Graph) : List Nat := cellsBut g.bad (regionPanes g)

/-- Tokens of the graph on their way to the cell, ahead of the marker. -/
def tokensAhead (s : State) (gk cell : Nat) : Bool :=
  s.net.any fun m => match m with
    | .tokenArrive k => let t := taskD s k.tid; t.graph = gk && cellOf s t k.block k.slot = cell
    | _ => false

/-- SHUTTER_MARKER_ARRIVE: once the tokens ahead of it have been delivered, the cell issues nothing more for the graph. -/
def markerArrive (s : State) (gk cell : Nat) : State :=
  match tget s.sh.active gk, tget s.cf.graphs gk with
  | some x, some g =>
    if !x.cut && !tokensAhead s gk cell && (regionCells g).contains cell && !x.marked.contains cell then
      { s with sh := { s.sh with active := tput s.sh.active gk { x with marked := x.marked ++ [cell] } } }
    else s
  | _, _ => s

def execShutterMarkerArrive (graph cell : Nat) (s : State) : Out := .next (markerArrive s graph cell)

/-- The tasks of a graph. -/
def graphTasks (s : State) (gk : Nat) : List Nat := tkeys s.wk.tasks fun _ t => t.graph = gk

/-- A token that outlives the cut is written back: to the frame of the instance it is for, or to the place of a spilled token.
One that finds no place stays where it is until the resume, which raises the fault (R223, R299, R303, log 100). -/
def saveTok (s : State) (e : TokEntry) : State :=
  match taskAt s e.msg.tid, e.place with
  | some t, .store =>
    (match overflowPlace s t e.msg with
      | some p => storeSpill (putTok s e p) t e.msg p
      | none => s)
  | _, _ => s

/-- The token's producer is no instance that the cut discards. -/
def outlives (s : State) (e : TokEntry) : Bool := (instAt s e.msg.tid e.msg.src).isNone

/-- A task's tokens are written back, and its uncommitted instances are discarded. -/
def cutTask (s : State) (tid : Nat) : State :=
  let s1 := (s.wk.toks.filter fun e => e.msg.tid = tid && outlives s e).foldl saveTok s
  discardAll s1 tid false

/-- No waffle of the graph has a row under way (R191). -/
def rowsWritten (s : State) (gk : Nat) : Bool :=
  s.en.ctxs.all fun e => e.2.queue.all fun c =>
    c.taken.isEmpty || (tgetD s.jb.launches c.origin.launch {}).graph ≠ gk

/-- CUT_COMPLETE: every cell has reported, and the rows under way have been written. -/
def cutComplete (s : State) (gk : Nat) : State :=
  match tget s.sh.active gk, tget s.cf.graphs gk with
  | some x, some g =>
    if x.cut || !(regionCells g).all x.marked.contains || !rowsWritten s gk then s
    else
      let s1 := (graphTasks s gk).foldl cutTask s
      { s1 with sh := { s1.sh with active := tput s1.sh.active gk { x with cut := true } } }
  | _, _ => s

def execCutComplete (graph : Nat) (s : State) : Out := .next (cutComplete s graph)

/-! ### The save pages (R229, R300, R301) -/

/-- A resume entry's 16 bytes (R301). -/
def entryBits (colour : Nat) (e : Entry) : Nat :=
  colour % 65536 + e.iter % 65536 * 2 ^ 16 + e.count % 4096 * 2 ^ 32 + b1 e.next * 2 ^ 44 + b1 e.kind * 2 ^ 45
    + b1 e.stopped * 2 ^ 46 + e.block % 2 ^ 32 * 2 ^ 64

/-- The entries of the page of a pane: those of the tasks dealt or spawned to it. -/
def pageEntries (s : State) (gk pane : Nat) : List Nat :=
  (s.wk.tasks.filter fun e => e.2.graph = gk && e.2.pane = pane).flatMap fun e => e.2.entries.map (entryBits e.2.colour)

/-- The context of waffle w of a pane. -/
def waffleCtx (pane w : Nat) : Nat := paneDie pane * 1024 + 128 + pane % 192 * 4 + w

/-- The residual of a waffle: the handles and the first row of a running WMMA of the graph (R191). -/
def residualOf (s : State) (gk pane w : Nat) : Option (Nat × Nat × Nat × Nat) :=
  match headOf s (waffleCtx pane w) with
  | some c =>
    (match c.kind with
      | .wmma _ _ _ a acc =>
        if c.started && c.status.isNone && (tgetD s.jb.launches c.origin.launch {}).graph = gk then some (a, acc, c.row, c.num)
        else none
      | _ => none)
  | none => none

/-- The 64 bytes of a waffle in a page (R300). -/
def waffleBits (s : State) (gk pane w : Nat) : Nat :=
  let leaf := fun (j : Nat) => match tget s.en.leaves (leafKey pane w j) with
    | some l => (l.src % 2 ^ 32 + l.form % 4 * 2 ^ 32) * 2 ^ (64 * j)
    | none => 0
  let tiles := leaf 0 + leaf 1 + leaf 2 + leaf 3
  match residualOf s gk pane w with
  | some (a, acc, row, num) =>
    tiles + (a % 2 ^ 32 + acc % 2 ^ 32 * 2 ^ 32 + row % 256 * 2 ^ 64 + 2 ^ 72) * 2 ^ 256 + num % 2 ^ 64 * 2 ^ 384
  | none => tiles

/-- The bytes of a page: header, waffles, entries (R300). -/
def pageBytes (s : State) (gk : Nat) (g : Graph) (pane q seq : Nat) : List Byte :=
  let es := pageEntries s gk pane
  let head := 1 + es.length % 256 * 2 ^ 8 + pane % 192 * 2 ^ 16 + paneDie pane * 2 ^ 24 + q % 8 * 2 ^ 26 + g.number % 65536 * 2 ^ 32
    + g.vi % 64 * 2 ^ 48 + seq % 2 ^ 64 * 2 ^ 64
  bytesOf 64 head ++ (List.range 3).flatMap (fun w => bytesOf 64 (if w < g.waffles then waffleBits s gk pane w else 0))
    ++ es.flatMap (bytesOf 16)

/-- A byte of the save area, which the page table maps without permission (R229). -/
def savePut (s : State) (vi va : Nat) (b : Byte) : State :=
  match (walk s vi va).1 with
  | .leaf t =>
    let pa := pagePa t va
    if eRdev t.entry.toNat = 0 && (homeOf pa).isSome then { s with gm := writeLine s.gm pa [some b] id } else s
  | _ => s

def savePuts (s : State) (vi va : Nat) : List Byte → State
  | [] => s
  | b :: t => savePuts (savePut s vi va b) vi (va + 1) t

/-- The panes and contexts that are bound to a graph, by their slot-table indices. -/
def graphSlots (s : State) (gk : Nat) : List Nat := contextsOf s fun g => g = gk

/-- Whether the save area holds the graph's pages (R229, R300). -/
def areaHolds (s : State) (gk : Nat) (g : Graph) : Bool :=
  (graphSlots s gk).all fun i => 4096 * (i + 1) ≤ (viD s g.vi).saveSize && (pageEntries s gk (slotPane i)).length ≤ 240

/-! ### The end of a graph that cannot go on (R229, R253) -/

/-- A launch of a graph that is ended: nothing more is dealt. -/
def endLaunch (s : State) (key : Nat) : State :=
  let s1 := withdrawHand s key
  let s2 := modLaunch s1 key fun l => if l.lvl.done then l else { l with stopDeal := true, lvl := { l.lvl with forced := true } }
  (tkeys s2.wk.tasks fun _ t => t.launch = key).foldl reclaimTask s2

/-- Every live task of the graph is reclaimed, and its live levels complete with STATE = FAULTED; its region is not armed. -/
def endGraph (s : State) (gk : Nat) : State :=
  let s1 := modGraph s gk fun g =>
    { g with armed := false, lvl := if g.lvl.done then g.lvl else { g.lvl with forced := true } }
  let s2 := (tkeys s1.jb.launches fun _ l => l.graph = gk).foldl endLaunch s1
  { s2 with sh := { s2.sh with active := tdel s2.sh.active gk, saved := tdel s2.sh.saved gk } }

/-- Its contexts are free (R229). -/
def freeContexts (s : State) (gk : Nat) : State := (graphSlots s gk).foldl unbind (releaseArenas s gk)

/-! ### Resume (R302) -/

/-- The tasks of a graph that are not stopped, by the pages of their panes. -/
def runningTasks (s : State) (gk : Nat) : List Nat :=
  (graphSlots s gk).flatMap fun i => tkeys s.wk.tasks fun _ t => t.graph = gk && t.pane = slotPane i && !t.stopped

/-- The graph's tokens are brought back into the matching stores. -/
def restoreToks (s : State) (gk : Nat) : State :=
  (s.wk.toks.filter fun e => (taskD s e.msg.tid).graph = gk).foldl restoreTok s

/-- Activations that take place one after another; one that must wait does so in its task's order (R22, R302). -/
def activateAll (s : State) (ms : List Instr) : State :=
  ms.foldl (fun a m => match m with | .blockActivate x => blockActivate a x | _ => a) s

/-- The entries of tasks are given up as these go on. -/
def takeEntries (s : State) (tids : List Nat) : State :=
  tids.foldl (fun a tid => modTask a tid fun t => { t with entries := [], stopped := false }) s

/-- The tasks of a graph that are not stopped go on from their entries, in page order. -/
def resumeTasks (s : State) (gk : Nat) : State :=
  let tids := runningTasks s gk
  let run := tids.flatMap fun tid => match taskAt s tid with
    | some t => t.entries.flatMap (entryActivations t (graphOf s t) tid)
    | none => []
  wakeColour (activateAll (takeEntries (restoreToks s gk) tids) run)

/-! ### The pages read back (R229, R300 to R302) -/

/-- A byte of the save area. -/
def saveByte (s : State) (vi va : Nat) : Byte :=
  match (walk s vi va).1 with
  | .leaf t => paByte s.gm (pagePa t va)
  | _ => 0

/-- `n` bytes of the save area as a number. -/
def saveGet (s : State) (vi va n : Nat) : Nat := natOfBytes ((List.range n).map fun k => saveByte s vi (va + k))

/-- The address of the page of a slot-table index. -/
def pageBase (s : State) (g : Graph) (i : Nat) : Nat := (viD s g.vi).saveBase + 4096 * i

/-- The colour and the entry of 16 bytes (R301). -/
def entryFrom (v : Nat) : Nat × Entry :=
  (bits v 0 16, ⟨bits v 16 16, bits v 32 12, decide (bits v 44 1 = 1), decide (bits v 45 1 = 1), decide (bits v 46 1 = 1), bits v 64 32⟩)

/-- The entries of a page. -/
def pageEntriesAt (s : State) (g : Graph) (i : Nat) : List (Nat × Entry) :=
  (List.range (saveGet s g.vi (pageBase s g i + 1) 1)).map fun e => entryFrom (saveGet s g.vi (pageBase s g i + 256 + 16 * e) 16)

/-- The recorded tiles of a page: the leaf's key, the form, the handle. -/
def pageLeaves (s : State) (g : Graph) (i : Nat) : List (Nat × Nat × Nat) :=
  (List.range g.waffles).flatMap fun w => (List.range 4).filterMap fun j =>
    let v := saveGet s g.vi (pageBase s g i + 64 + 64 * w + 8 * j) 8
    if bits v 32 2 = 0 then none else some (leafKey (slotPane i) w j, bits v 32 2, bits v 0 32)

/-- The residual of waffle `w` in a page goes on from its first row. -/
def residualRead (g : Graph) (i : Nat) (s : State) (w : Nat) : State :=
  let v := saveGet s g.vi (pageBase s g i + 64 + 64 * w + 32) 24
  let one := fun (c : Cmd) => match c.kind with
    | .wmma k j sat _ _ =>
      if c.started && c.num = bits v 128 64 then
        { c with kind := .wmma k j sat (bits v 0 32) (bits v 32 32), row := bits v 64 8, residual := true } else c
    | _ => c
  let k := waffleCtx (slotPane i) w
  let c := ctxAt s k
  if bits v 72 1 = 1 then setCtx s k { c with queue := c.queue.map one } else s

/-- The entries that a resume gives a task: those of its colour in the page of its pane (R302). -/
def entriesFor (s : State) (g : Graph) (tid : Nat) (t : Task) : List Entry :=
  (graphSlots s t.graph).flatMap fun i =>
    if slotPane i = t.pane then ((pageEntriesAt s g i).filter fun e => paneDie t.pane * 65536 + e.1 = tid).map Prod.snd else []

/-- The lines of the pages are read (R225, R300). -/
def readPages (s : State) (gk : Nat) (g : Graph) : State :=
  (graphSlots s gk).foldl (fun a i => devTouch a g.vi (pageBase s g i) (256 + 16 * (pageEntriesAt s g i).length)) s

/-- The activations of one entry of a page, where its task is one of those that go on (R302). -/
def pageRun (s : State) (gk : Nat) (g : Graph) (tids : List Nat) (i : Nat) (e : Nat × Entry) : List Instr :=
  let tid := paneDie (slotPane i) * 65536 + e.1
  match taskAt s tid with
  | some t =>
    if tids.contains tid && t.graph = gk && slotPane i = t.pane then
      entryActivations { t with entries := entriesFor s g tid t } g tid e.2
    else []
  | none => []

/-- A token that found no place at the cut stops its task (log 100). -/
def unsavedStop (s : State) (e : TokEntry) : State :=
  match taskAt s e.msg.tid with
  | some t =>
    if e.place = .store && !t.stopped then
      stopTask s e.msg.tid ⟨.stackLimit, 0⟩ ⟨e.msg.slot, t.colour, e.msg.iter, t.die, t.pane % 192, e.msg.block⟩
    else s
  | none => s

/-- The tasks of a saved graph that are not stopped go on: the entries of its pages are activated in page order. -/
def resumePages (s : State) (gk : Nat) (g : Graph) : State :=
  let s1 := (s.wk.toks.filter fun e => (taskD s e.msg.tid).graph = gk).foldl unsavedStop s
  let s2 := readPages (restoreToks s1 gk) gk g
  let tids := runningTasks s2 gk
  let run := (graphSlots s2 gk).flatMap fun i => (pageEntriesAt s2 g i).flatMap (pageRun s2 gk g tids i)
  wakeColour (activateAll (takeEntries s2 tids) run)

/-- A replay of a WLOAD stands before the residual of its waffle, behind any other command that runs. -/
def replayLoad (gk : Nat) (s : State) (l : Nat × Nat × Nat) : State :=
  let pane := l.1 / 12
  let w := l.1 / 4 % 3
  let k := waffleCtx pane w
  let c := ctxAt s k
  let o : Origin := ⟨(tgetD s.cf.graphs gk {}).vi, 0, noGraph, paneDie pane, pane, 0, 0, 0, 255⟩
  let cmd : Cmd := { num := 0, tid := noGraph, order := 0, seq := 0, origin := o, kind := .wload w (l.1 % 4) l.2.2, issued := s.clk.cycle, graph := gk }
  let before := c.queue.takeWhile fun x => x.num = 0 || (x.started && (match x.kind with | .wmma _ _ _ _ _ => false | _ => true))
  setCtx s k { c with queue := before ++ [cmd] ++ c.queue.drop before.length }

/-- Deficits start at 0 and the search from context 0 (R241, R299). -/
def freshIssue (s : State) (i : Nat) : State := resetPtrs (modDeficits s (slotPane i) (slotQ i) fun _ => 0) (slotPane i)

/-- The placement of R252 run again at the same position, with the bad cells as they are now (R253, R297). -/
def replace (s : State) (g : Graph) : Option Graph :=
  match g.place with
  | none => none
  | some pl =>
    match footprintOf s g pl with
    | none => none
    | some f =>
      if g.extra.all fun p => copyFits s g [p] then
        some { g with place := some { pl with f := f }, bad := badCells s (regionPanes g) }
      else none

/-- The graph no longer fits: its live levels complete FAULTED, and a BLOCK_BAD record names its first block (R253). -/
def replaceFails (s : State) (gk : Nat) (g : Graph) : State :=
  let pane := match g.place with | some pl => pl.die * 192 + pl.pane | none => 0
  endGraph (faultGraph (writeRecord s g.vi ⟨.blockBad, 0⟩ ⟨255, 0, 0, paneDie pane, pane % 192, g.base⟩) gk) gk

/-- Every pane that holds a task of the graph has a context bound to it. -/
def contextsBound (s : State) (gk : Nat) : Bool :=
  (s.wk.tasks.filter fun e => e.2.graph = gk).all fun e => ((graphSlots s gk).map slotPane).contains e.2.pane

/-- The cells on which a graph's words lie. -/
def usedCells (g : Graph) : List Nat :=
  let copies := (match g.place with | some pl => footprints g pl pl.f | none => []) ++ g.extra.map fun p => [p]
  copies.flatMap fun ps => (cellsBut g.bad ps).take ((graphWords g + 7) / 8)

/-- A cell on which a word of the graph was placed has gone bad since (R297). -/
def lostCell (s : State) (g : Graph) : Bool := (usedCells g).any fun k => cellBad s (k / 16) (k % 16)

/-- The graph is armed again: its recorded tiles are loaded, and then its residual commands run. -/
def resumeArm (s : State) (gk : Nat) (g : Graph) (v : Saved) : State :=
  let s1 := { s with cf := { s.cf with graphs := tput s.cf.graphs gk g },
                     sh := { s.sh with saved := tput s.sh.saved gk { v with armed := true } } }
  let page := fun (a : State) (i : Nat) =>
    let b := (List.range g.waffles).foldl (residualRead g i) (freshIssue a i)
    (pageLeaves s g i).foldl (replayLoad gk) b
  (graphSlots s gk).foldl page (readPages s1 gk g)

/-- What the head command of a waffle does next. -/
def waffleStep (s : State) (k : Nat) : State :=
  match headOf s k with
  | none => s
  | some c =>
    if c.status.isSome then cmdEnd s k
    else if !c.started then cmdStart s k
    else match c.kind with
      | .wload _ _ _ => wloadRun s k
      | .wmma _ _ _ _ _ => wmmaRow s k
      | _ => s

/-- A replay or a residual command of the graph is still to run, and does not wait for a granule (R302, log 101). -/
def replaysRun (s : State) (gk : Nat) : Bool :=
  let mine := fun (c : Cmd) => if c.num = 0 then decide (c.graph = gk)
    else c.residual && decide ((tgetD s.jb.launches c.origin.launch {}).graph = gk)
  s.en.ctxs.any fun e => e.2.queue.any mine && decide (waffleStep s e.1 ≠ s)

/-- A write of a bind record of the graph is held: it takes effect before the graph goes on (R251). -/
def bindHeld (s : State) (gk : Nat) : Bool :=
  s.cf.held.any fun h => h.shutter && bindGraph (bindRec s (h.die * 192 + h.index / 8) (h.index % 8)) = gk

/-- CONTEXT_RESUME: the context is armed, the tiles are loaded again and residuals run; the entries are activated once these
have run (R302). -/
def contextResume (s : State) (gk : Nat) : State :=
  match tget s.sh.saved gk, tget s.cf.graphs gk with
  | some v, some g =>
    if v.armed then
      (if replaysRun s gk then s
       else resumePages { s with sh := { s.sh with saved := tdel s.sh.saved gk } } gk g)
    else if !contextsBound s gk || bindHeld s gk then s
    else match (if v.moves || lostCell s g then replace s g else some g) with
      | none => replaceFails s gk g
      | some g' => resumeArm s gk g' v
  | _, _ => s

def execContextResume (graph : Nat) (s : State) : Out := .next (contextResume s graph)

/-- The save area is too small: PROT, and then what R229 says of what raised the shutter. -/
def saveFails (s : State) (gk : Nat) (g : Graph) (c : Cause) : State :=
  let pane := match g.place with | some pl => pl.die * 192 + pl.pane | none => 0
  let s1 := faultGraph (writeRecord s g.vi ⟨.prot, (viD s g.vi).saveBase⟩ ⟨255, 0, 0, paneDie pane, pane % 192, g.base⟩) gk
  let mine := fun (h : HeldBind) => h.shutter && bindGraph (bindRec s (h.die * 192 + h.index / 8) (h.index % 8)) = gk
  let s2 := { s1 with cf := { s1.cf with held := s1.cf.held.filter fun h => !mine h },
                      sh := { s1.sh with active := tdel s1.sh.active gk } }
  match c with
  | .parity => freeContexts (endGraph s2 gk) gk
  | _ => resumeTasks ((graphSlots s2 gk).foldl freshIssue s2) gk

/-- SAVE_PAGES_WRITE: the controller writes the pages, and the context is free for a bind. -/
def savePages (s : State) (gk : Nat) : State :=
  match tget s.sh.active gk, tget s.cf.graphs gk with
  | some x, some g =>
    if !x.cut then s
    else if !areaHolds s gk g then saveFails s gk g x.cause
    else
      let one := fun (a : State) (i : Nat) =>
        let bs := pageBytes s gk g (slotPane i) (slotQ i) s.sh.seq
        savePuts (devTouch a g.vi (pageBase s g i) bs.length) g.vi (pageBase s g i) bs
      let s1 := (graphSlots s gk).foldl one s
      let v : Saved := ⟨s.sh.seq, x.cause = .parity, false⟩
      { s1 with sh := { active := tdel s1.sh.active gk, saved := tput s1.sh.saved gk v, seq := s.sh.seq + 1 } }
  | _, _ => s

def execSavePagesWrite (graph : Nat) (s : State) : Out := .next (savePages s graph)

/-! ### Firmware and a stopped task (R293, R320) -/

/-- FW_TASK_RESUME: STOPPED is cleared and the entries are activated; a saved task's when its graph is resumed. -/
def fwResume (s : State) (tid : Nat) : State :=
  match taskAt s tid with
  | none => s
  | some t =>
    if !t.stopped then s
    else if shuttered s t.graph then
      modTask s tid fun t => { t with stopped := false, entries := t.entries.map fun e => { e with stopped := false } }
    else resumeTask s tid

def execFwTaskResume (tid : Nat) (s : State) : Out := .next (fwResume s tid)

/-- FW_TASK_RECLAIM: as R39. -/
def execFwTaskReclaim (tid : Nat) (s : State) : Out :=
  .next (match taskAt s tid with | some t => if t.stopped then reclaimTask s tid else s | none => s)

/-! ### Parity errors (R297) -/

/-- The cell is retired, and every region with a word on it is shuttered. -/
def retireCell (s : State) (cell : Nat) : State :=
  let (x, y) := cellXY (cell / 16) (cell % 16)
  let s1 := setBad s (paneDie (cell / 16)) y (BitVec.ofNat 64 (2 ^ x))
  (tkeys s1.cf.graphs fun _ g => (usedCells g).contains cell).foldl (fun a gk => raiseShutter a gk .parity) s1

/-- The consuming instance is discarded and activated again, before any activation of the task that waits; what it had
activated stays so. -/
def retryInst (s : State) (t : Task) (x : Inst) : State :=
  let re := reAt (graphOf s t) x.block
  repost (discardInst s x) (.blockActivate ⟨x.tid, x.iter, x.block, x.mayNext && !firedNext x, false, re && !x.loopHead⟩)

/-- The bad token becomes POISON. -/
def poisonToken (s : State) (e : TokEntry) : State :=
  let one := fun (y : TokEntry) => if y = e then { y with msg := { y.msg with tok := poisonTok } } else y
  { s with wk := { s.wk with toks := s.wk.toks.map one } }

/-- PARITY_ERROR: the record is written; the consumer is tried again, or the token becomes POISON when its producer has
committed; the second error of a cell retires it. -/
def parityError (s : State) (f : Firing) (port : Port) : State :=
  match taskAt s f.tid, s.wk.toks.find? fun e => sameWord e f && e.msg.port = port with
  | some t, some e =>
    let cell := cellOf s t f.block f.slot
    let n := min 3 (tgetD s.bt.parity cell 0 + 1)
    let (x, y) := cellXY (cell / 16) (cell % 16)
    let adr := x + y * 2 ^ 8 + paneDie (cell / 16) * 2 ^ 16 + (if n = 2 then 2 ^ 63 else 0)
    let p : Place4 := ⟨f.slot, t.colour, f.iter, paneDie (cell / 16), cell / 16 % 192, f.block⟩
    let s1 := faultLaunch (writeRecord { s with bt := { s.bt with parity := tput s.bt.parity cell n } } t.vi ⟨.parityRetry, adr⟩ p) t.launch
    let s2 := if e.msg.fromRead || (instAt s f.tid e.msg.src).isNone then poisonToken s1 e
      else match instAt s1 f.tid f.iter with
        | some i => if i.block = f.block then retryInst s1 t i else s1
        | none => s1
    if n = 2 then retireCell s2 cell else s2
  | _, _ => s

def execParityError (f : Firing) (port : Port) (s : State) : Out := .next (parityError s f port)

end Sys2Proof.Machine
end

