-- ==== Sys2Proof/Machine/Fabric.lean ====
section
/-! DEFINITION. Dretre's transactions at this device, and the configuration of virtual interfaces (R35, R151, R154, R155, R193,
R213, R284, R315, R318). -/

namespace Sys2Proof.Machine

/-- An answer leaves for the requester. -/
def reply (s : State) (r : Reply) : State := { s with bt := { s.bt with replies := s.bt.replies ++ [r] } }

/-- An access of at most one line of this device's memory (R224, R315). -/
def lineAccess (pa n : Nat) : Bool := 0 < n && pa % 128 + n ≤ 128 && (homeOf pa).isSome

/-! ### Memory (R315) -/

/-- A remote read at the home (R270). -/
def remoteRead (s : State) (r : RemoteRead) : State :=
  if lineAccess r.pa r.width then
    let s1 := { s with gm := withLine s.gm (r.pa / 128) }
    reply s1 (.remote r.tag (paBytes s1.gm r.pa r.width) (homePoison s1 r.pa 0 r.width) 0)
  else s

/-- REMOTE_MEMORY_READ. -/
def execRemoteMemoryRead (r : RemoteRead) (s : State) : Out := .next (remoteRead s r)

/-- The bytes of a mask as offsets, for the cover of an engine command (R149). -/
def coverMask (id off : Nat) : List (Option Byte) → Line → Line
  | [], l => l
  | none :: t, l => coverMask id (off + 1) t l
  | some _ :: t, l => coverMask id (off + 1) t (coverLine id off 1 l)

/-- A remote write at the home. A store leaves a poisoned line poisoned; one engine command may clear it (R149). Commands of
other devices have numbers of their own. -/
def remoteStore (g : Gm) (w : RemoteWrite) : Gm :=
  match w.poison, w.cmd with
  | true, none => writeLine g w.pa [] fun l => { l with poison := true, cover := none }
  | true, some _ => writeLine g w.pa w.bytes fun l => { l with poison := true, cover := none }
  | false, none => writeLine g w.pa w.bytes fun l => { l with cover := none }
  | false, some n => writeLine g w.pa w.bytes (coverMask (2 ^ 64 + n) (w.pa % 128) w.bytes)

def remoteWrite (s : State) (w : RemoteWrite) : State :=
  if lineAccess w.pa w.bytes.length then { s with gm := remoteStore s.gm w } else s

/-- REMOTE_MEMORY_WRITE. -/
def execRemoteMemoryWrite (w : RemoteWrite) (s : State) : Out := .next (remoteWrite s w)

/-- The FMT values that an atomic accepts (R154). -/
def remoteFmtOk (op : AtomOp) (fmt : Tag) : Bool :=
  match op with
  | .add | .min | .max => fmt.atomArith
  | .and | .or | .xor => fmt.atomLogic
  | .swp => fmt.atomSwap
  | .cas => fmt.atomCas

/-- A remote atomic at the home (R155); the old value and the flags go back. -/
def remoteAmo (s : State) (r : RemoteAmo) : State :=
  let w := accessWidth r.fmt
  if remoteFmtOk r.op r.fmt && r.pa % w = 0 && lineAccess r.pa w then
    let s1 := { s with gm := withLine s.gm (r.pa / 128) }
    let old := loadTok r.fmt (paBytes s1.gm r.pa w)
    if homePoison s1 r.pa 0 w || r.r.tag = .poison || (r.op = .cas && r.x.tag = .poison) then
      reply { s1 with gm := storeAt s1.gm r.pa [] true } (.remote r.tag [] true 0)
    else
      let new := atomNew r.op old r.r r.x
      let writes := r.op ≠ .cas || tokBits old = tokBits r.r
      let s2 := if writes then { s1 with gm := storeAt s1.gm r.pa (storeBytes r.fmt new.1) false } else s1
      reply s2 (.remote r.tag (storeBytes r.fmt old) false new.2)
  else s

/-- REMOTE_AMO. -/
def execRemoteAmo (r : RemoteAmo) (s : State) : Out := .next (remoteAmo s r)

/-- The sender of a remote MST, which is no task of this device. -/
def remoteTid : Nat := 2 ^ 40

/-- A remote MST (R151): its copies reach the panes of the graph that it names, and its write is on its way to the home. -/
def remoteMst (s : State) (w : RemoteWrite) (graph : Nat) : State :=
  if lineAccess w.pa w.bytes.length && (w.bytes.all Option.isSome) then
    let bs := w.bytes.filterMap id
    let s1 := if w.poison then s else (boundPanes s graph).foldl (pushCopy { pa := w.pa, bytes := bs, tid := remoteTid, seq := s.nd }) s
    post s1 [.globalWritePerform ⟨remoteTid, s.nd, 0, 2 ^ 60, 0, 0, w.pa, 0, bs, w.poison, none, false, true, 0, 0⟩]
  else s

/-- REMOTE_MST. -/
def execRemoteMst (w : RemoteWrite) (graph : Nat) (s : State) : Out := .next (remoteMst s w graph)

/-! ### Remote SPAWN and counts (R35, R42, R193, R315) -/

/-- The unit that a count message sent ahead of a remote SPAWN is given back: the child holds one of its own, or none starts
(R35). -/
def giveUnit (s : State) (launch : Nat) : State := modLaunch s launch fun x => { x with remote := x.remote - 1 }

/-- A remote SPAWN that can have no child: its unit is given back, and the refusal goes back (R37, R222, log 75). -/
def refuseSpawn (s : State) (r : RemoteSpawn) : State := reply (giveUnit s r.launch) (.remote r.tag [] true 0)

/-- A launch that takes a remote SPAWN: one that has completed or been stopped takes none. -/
def remoteLive (s : State) (launch : Nat) : Bool :=
  match tget s.jb.launches launch with
  | some l => l.ready && !l.lvl.done && !l.lvl.forced && !levelStopped s l
  | none => false

def setRemote (s : State) (x : Remote) : State :=
  { s with wk := { s.wk with remotes := s.wk.remotes.map fun y => if y.num = x.num then x else y } }

/-- A remote SPAWN joins those that wait for a pane, a colour, a record and a carve-out (R193, R315, log 75). -/
def remoteSpawn (s : State) (r : RemoteSpawn) : State :=
  if remoteLive s r.launch then
    let n := (s.wk.remotes.map Remote.num).foldl max 0 + 1
    { s with wk := { s.wk with remotes := s.wk.remotes ++ [{ num := n, r := r }] } }
  else refuseSpawn s r

/-- The pane of the child; a carve-out that its pool can never hold is refused (R193, R222). -/
def remotePane (s : State) (x : Remote) (l : Launch) : State :=
  match spawnPane s l.graph .any 0 with
  | none => s
  | some p => if poolSize s p < carveSize l then remoteDrop s x else setRemote s { x with pane := some p }

/-- The child's colour and record, in the line of its die; then its carve-out is asked for (R193, R231, R250, R256). -/
def remoteAsk (s : State) (x : Remote) (l : Launch) (p : Nat) : State :=
  let die := paneDie p
  let who : Asker := .remote x.num
  match (if mayTake s die false who then takeColour s die else none), (if mayTake s die true who then takeFut s die else none) with
  | some (col, s1), some fut =>
    let s2 := putFut (leaveLine s1 who) fut col p l.id (jobKey l.vi l.job)
    post (setRemote s2 { x with colour := some col, fut := some fut })
      [.allocRequestArrive ⟨who, poolKey p, carveSize l, 0, 17, 0, 0, col, s.clk.cycle, 0⟩]
  | c, f =>
    let s1 := if c.isNone then joinLine s die false who else s
    if f.isNone then joinLine s1 die true who else s1

/-- The child starts, and its FUTURE goes back. -/
def remoteStart (s : State) (x : Remote) (l : Launch) (p col fut carve : Nat) : State :=
  let s1 := giveUnit { s with wk := { s.wk with remotes := s.wk.remotes.filter fun y => y.num ≠ x.num } } x.r.launch
  let regs := tputD nullTok (tput (tputD nullTok [] 0 x.r.arg) 58 (mkTok .i32 l.id)) 59 x.r.card
  let s2 := startTask s1 ⟨p, col, x.r.launch, fut, carve, regs, [], true⟩
  let val := futPayload fut (tgetD s.wk.futs fut {}).gen
  reply (post s2 (entryRun (paneDie p * 65536 + col) x.r.entry 1)) (.remote x.r.tag (bytesOf 8 val.toNat) false 0)

/-- What a remote SPAWN that has come does next: a shutter of its graph holds it, and one whose launch has been stopped goes. -/
def remoteGo (s : State) (num : Nat) : State :=
  match s.wk.remotes.find? fun y => y.num = num with
  | none => s
  | some x =>
    let l := tgetD s.jb.launches x.r.launch {}
    if !remoteLive s x.r.launch then remoteDrop s x
    else if shuttered s l.graph then s
    else match x.pane, x.colour, x.fut, x.granted with
      | none, _, _, _ => remotePane s x l
      | some p, some col, some fut, some carve => remoteStart s x l p col fut carve
      | some _, some _, some _, none => s
      | some p, _, _, _ => remoteAsk s x l p

/-- REMOTE_SPAWN. -/
def execRemoteSpawn (r : RemoteSpawn) (s : State) : Out := .next (remoteSpawn s r)

/-- REMOTE_COUNT: a change of a future's count at its home, or a unit of a launch that another device takes or gives up. -/
def remoteCount (s : State) (c : RemoteCount) : State :=
  match c with
  | .ref m => refChange s m
  | .level l up =>
    if !up then giveUnit s l
    else if unitsFull s l 1 then repost s (.remoteCount c)
    else modLaunch s l fun x => { x with remote := x.remote + 1 }

def execRemoteCount (c : RemoteCount) (s : State) : Out := .next (remoteCount s c)

/-! ### Virtual interfaces (R213, R318) -/

/-- VI_CONFIGURE: an unconfigured interface takes its places, its peers and its grants, and starts with an empty ring and an
empty inbox; a source whose grant it lacks from now on is disabled (R213, R243, log 105). -/
def viConfigure (s : State) (c : ViConf) : State :=
  if 63 < c.vi || (viD s c.vi).configured then s
  else
    let v : Vi := { configured := true, inboxAt := c.inboxAt, root := c.root, faultBase := c.faultBase, ringN := c.ringN,
                    saveBase := c.saveBase, saveSize := c.saveSize, peers := c.peers, nextLaunch := (viD s c.vi).nextLaunch }
    let old := (tgetD s.sr.viCtl c.vi 0).toNat
    let new := bits old 0 1 + c.tickGrant.toNat * 2 ^ 16
    let s1 := { s with jb := { s.jb with vis := tput s.jb.vis c.vi v }
                       sr := { s.sr with viCtl := tputD 0 s.sr.viCtl c.vi (BitVec.ofNat 64 new) } }
    dropGrants old new ((List.range 64).foldl (clearSlot c.vi) s1)

def execViConfigure (c : ViConf) (s : State) : Out := .next (viConfigure s c)

/-- The jobs of an interface. -/
def jobsOf (s : State) (vi : Nat) : List Nat := tkeys s.jb.jobs fun _ j => j.vi = vi

/-- VI_UNCONFIGURE: a CANCEL of each job; the interface stops once these have completed. -/
def viUnconfigure (s : State) (vi : Nat) : State :=
  if !(viD s vi).configured then s
  else
    let jobs := jobsOf s vi
    let s1 := modVi s vi fun v => { v with stopping := true, ending := jobs }
    let s2 := jobs.foldl (fun a k => cancelLevel a vi (k % 65536) .job 0 ⟨0, 0, 0, 0, 0, 0⟩ none) s1
    if jobs.isEmpty then stopVi s2 vi else s2

def execViUnconfigure (vi : Nat) (s : State) : Out := .next (viUnconfigure s vi)

end Sys2Proof.Machine
end

