-- ==== Sys2Proof/Machine/Boot.lean ====
section
/-! DEFINITION. Reset and boot, the start log, the lifecycle, attestation, power and temperature (R215, R217, R220, R321 to
R326). -/

namespace Sys2Proof.Machine

/-! ### Boot (R321, R322) -/

/-- An entry of a boot step; only B6 and B9 have a DETAIL (R322). -/
def bootEntry (step outcome : Nat) (s : State) (at_ : Nat × Nat) : State :=
  let e : LogEntry := ⟨step, outcome, at_.1, if step = 6 ∨ step = 9 then at_.2 else 0, s.bt.start, Config.bootCycle s.bt.start step⟩
  { s with bt := { s.bt with log := s.bt.log ++ [e] } }

/-- B0: every memory is wiped and every register is as at reset; the flash of the module keeps the start log, the marks and
the bad cells, which a change of lifecycle state clears (R215, R217, R220, R323). -/
def bootWipe (s : State) : State :=
  let changed := s.bt.move.isSome
  let bt : Bt :=
    { lifecycle := s.bt.move.getD s.bt.lifecycle, start := s.bt.start + 1, ready := false,
      log := s.bt.log.filter fun x => s.bt.start + 1 < x.start + 64,
      flashBad := if changed then [] else s.bt.flashBad, flashMarks := if changed then [] else s.bt.flashMarks,
      replies := s.bt.replies }
  let clk : Clk := { ptp := { running := false } }
  { State.reset with clk := clk, bt := bt, inp := s.inp, nd := s.nd }

/-- Items of a step: die and detail. -/
def outsItems (os : List BootOut) : List (Nat × Nat) := os.map fun o => (o.die, o.detail)
def entryItems (es : List LogEntry) : List (Nat × Nat) := es.map fun e => (e.die, e.detail)

/-- A step with an alternate path: taken at once where the step failed at the previous start, and after a failure now. -/
def bootAlternate (n : Nat) (s : State) (outs : List BootOut) (before : List LogEntry) : State × Bool :=
  let fails := outs.filter fun o => !o.passed
  let altFails := outs.filter fun o => !o.altPassed
  let items := if before.isEmpty then outsItems fails else entryItems before
  let s1 := if before.isEmpty then (outsItems fails).foldl (bootEntry n 1) s else s
  if items.isEmpty then (bootEntry n 0 s (0, 0), true)
  else if altFails.isEmpty then (items.foldl (bootEntry n 3) s1, true)
  else ((outsItems altFails).foldl (bootEntry n 1) s1, false)

/-- A required step without an alternate path. -/
def bootRequired (n : Nat) (s : State) (outs : List BootOut) : State × Bool :=
  let fails := outs.filter fun o => !o.passed
  if fails.isEmpty then (bootEntry n 0 s (0, 0), true) else ((outsItems fails).foldl (bootEntry n 1) s, false)

/-- B9: each port on its own; one that failed last time is skipped, one that fails is left down. -/
def bootPorts (s : State) (outs : List BootOut) (before : List LogEntry) : State :=
  let skipped := entryItems before
  let fails := (outsItems (outs.filter fun o => !o.passed)).filter fun x => !skipped.contains x
  let s1 := fails.foldl (bootEntry 9 1) (skipped.foldl (bootEntry 9 2) s)
  let s2 := if skipped.isEmpty && fails.isEmpty then bootEntry 9 0 s1 (0, 0) else s1
  { s2 with bt := { s2.bt with ports := skipped ++ fails } }

/-- B10: PTP starts, is skipped, or fails. -/
def bootPtp (s : State) (outs : List BootOut) (before : List LogEntry) : State :=
  if !before.isEmpty then bootEntry 10 2 s (0, 0)
  else if outs.any fun o => !o.passed then bootEntry 10 1 s (0, 0)
  else bootEntry 10 0 { s with clk := { s.clk with ptp := { s.clk.ptp with running := true } } } (0, 0)

/-- B4: the guard bands; a lowered clock is logged (R325). -/
def bootGuards (s : State) (outs : List BootOut) : State :=
  let low := outs.filter fun o => o.passed && o.detail ≠ 0
  let g := low.foldl (fun (t : Table Nat) o => tput t o.die o.detail) []
  (low.map fun o => (o.die, 0)).foldl (bootEntry 4 0) { s with bt := { s.bt with guard := g } }

/-- B8: BADNODE and the marks are loaded and carried on as further entries; a pane with two marks has every cell bad (R215,
R220, R322). -/
def bootBad (s : State) : State :=
  let s1 := { s with sr := { s.sr with badnode := s.bt.flashBad }
                     ls := { s.ls with marks := s.bt.flashMarks } }
  let cells := s1.bt.flashBad.flatMap fun e =>
    ((List.range 64).filter fun x => bits e.2.toNat x 1 = 1).map fun _ => (e.1 / 48, 0)
  let marks := s1.bt.flashMarks.flatMap fun e => e.2.map fun _ => (paneDie e.1, 0)
  let s2 := (cells ++ marks).foldl (bootEntry 8 1) s1
  let full := (s2.bt.flashMarks.filter fun e => 2 ≤ e.2.length).map Prod.fst
  full.foldl (fun a p => (List.range 4).foldl (fun b r =>
    setBad b (paneDie p) (p % 192 / 16 * 4 + r) (BitVec.ofNat 64 (15 * 2 ^ (p % 192 % 16 * 4)))) a) s2

/-- One step of a start; the flag says that the start goes on. -/
def bootStep (outs : List BootOut) (prev : List LogEntry) (run : State × Bool) (n : Nat) : State × Bool :=
  let os := outs.filter fun o => o.step = n
  let before := prev.filter fun e => e.step = n && e.outcome = 1
  if !run.2 then run
  else match n with
    | 2 | 5 | 6 => bootAlternate n run.1 os before
    | 4 =>
      let r := bootAlternate 4 run.1 os before
      if r.2 then (bootGuards r.1 os, true) else r
    | 8 =>
      let r := bootRequired 8 run.1 os
      if r.2 then (bootBad r.1, true) else r
    | 9 => (bootPorts run.1 os before, true)
    | 10 => (bootPtp run.1 os before, true)
    | 11 =>
      let r := bootRequired 11 run.1 os
      ({ r.1 with bt := { r.1.bt with ready := r.2 } }, r.2)
    | _ => bootRequired n run.1 os

/-- RESET: a start, with what its steps meet. -/
def reset (outs : List BootOut) (s : State) : State :=
  let prev := s.bt.log.filter fun e => e.start = s.bt.start
  ((List.range 12).foldl (bootStep outs prev) (bootWipe s, true)).1

def execReset (outs : List BootOut) (s : State) : Out := .next (reset outs s)

/-- START_LOG_READ. -/
def execStartLogRead (s : State) : Out := .next (reply s (.startLog (s.bt.log.map logBits)))

/-! ### Lifecycle and attestation (R323, R324) -/

/-- Each state to the next, and RETURNED to PROVISIONED. -/
def moveAllowed : Lifecycle → Lifecycle → Bool
  | .manufacture, .provisioned => true
  | .provisioned, .deployed => true
  | .deployed, .returned => true
  | .returned, .provisioned => true
  | _, _ => false

/-- LIFECYCLE_MOVE: taken at the next reset; any other request changes nothing. -/
def execLifecycleMove (dest : Lifecycle) (signed : Bool) (s : State) : Out :=
  .next (if signed && moveAllowed s.bt.lifecycle dest then { s with bt := { s.bt with move := some dest } } else s)

/-- The lifecycle states in the order of R323. -/
def lifecycleCode : Lifecycle → Nat
  | .manufacture => 0 | .provisioned => 1 | .deployed => 2 | .returned => 3

/-- The report of R324: the parts in its order, little-endian. -/
def attestationReport (s : State) (nonce : BitVec 256) : List Byte :=
  let second := s.bt.log.any fun e => e.start = s.bt.start && e.step = 2 && e.outcome = 3
  bytesOf 32 nonce.toNat ++ Config.firmwareDigests second ++ bytesOf 1 (lifecycleCode s.bt.lifecycle)
    ++ bytesOf 8 (capsBits 0) ++ bytesOf 4 s.bt.start

/-- ATTESTATION_REQUEST. -/
def execAttestationRequest (nonce : BitVec 256) (s : State) : Out :=
  let report := attestationReport s nonce
  .next (reply s (.attestation report (Config.mlDsaSign report)))

/-! ### Power and temperature (R326) -/

/-- A die's clock, in steps of 1/16 below its own. -/
def setThrottle (s : State) (die n : Nat) : State :=
  { s with bt := { s.bt with throttle := tputD 0 s.bt.throttle die n } }

/-- A step down; the clock does not stop. -/
def throttle (s : State) (die : Nat) : State := setThrottle s die (min 15 (tgetD s.bt.throttle die 0 + 1))

/-- POWER_THROTTLE. -/
def execPowerThrottle (die : Nat) (s : State) : Out := .next (throttle s die)
/-- THERMAL_THROTTLE. -/
def execThermalThrottle (die : Nat) (s : State) : Out := .next (throttle s die)
/-- CLOCK_RESTORE: a step up. -/
def execClockRestore (die : Nat) (s : State) : Out := .next (setThrottle s die (tgetD s.bt.throttle die 0 - 1))
/-- THERMAL_STOP: the module stops at once, with no save. -/
def execThermalStop (_die : Nat) (s : State) : Out := .next { s with bt := { s.bt with stopped := true } }

end Sys2Proof.Machine
end

