-- ==== Sys2Proof/Machine/Value.lean ====
section
/-! DEFINITION. The value words of chapter 05 (R110 to R137) and SELF: one meaning each, over the computations of
Operands. READ and RED stand in Tokens, PLD in GlobalWords. -/

namespace Sys2Proof.Machine

/-- A triggered word: the trigger's value is not used; a tile tag raises FORMAT (R52, R66). -/
def trigV (t : Token) (l : Token) : VOut := if tagTile l.tag then .format else .both t

/-- MOV (R110). -/
def execMov (g : GF) (s : State) : Out := value1 s (.mov g) fun l => .both l

/-- MOVI (R111). -/
def execMovi (i : IF) (s : State) : Out := value1 s (.movi i) (trigV (mkInt .i32 i.imm.toInt))

/-- NUL (R112). -/
def execNul (g : GF) (s : State) : Out := value1 s (.nul g) (trigV nullTok)

/-- SEL (R113): P is the selector, read as an operand. -/
def execSel (t0 t1 : Tgt) (ta : TA) (s : State) : Out := 
  onLane s (.sel t0 t1 ta) fun f s1 =>
    finishValue s1 f (.sel t0 t1 ta) (selV (portD s1 f .l) (portD s1 f .r) (portD s1 f .p))

/-- RETAG (R114). -/
def execRetag (c : CF) (s : State) : Out := value1 s (.retag c) (retagV c.fmt)

/-- TAGOF (R115): the iteration tag of the trigger. -/
def execTagof (g : GF) (s : State) : Out := 
  valueWord s (.tagof g) fun s f => trigV (mkTok .i32 f.iter) (portD s f .l)

/-- ADD (R123, R125, R126). -/
def execAdd (g : GF) (sat : Bool) (s : State) : Out := value2 s (.add g sat) (addV sat)

/-- SUB (R123, R125, R126). -/
def execSub (g : GF) (sat : Bool) (s : State) : Out := value2 s (.sub g sat) (subV sat)

/-- MUL (R123, R126). -/
def execMul (g : GF) (sat : Bool) (s : State) : Out := value2 s (.mul g sat) (mulV sat)

/-- MULH (R123). -/
def execMulh (g : GF) (s : State) : Out := value2 s (.mulh g) mulhV

/-- DIV (R123, R126). -/
def execDiv (g : GF) (s : State) : Out := value2 s (.div g) divV

/-- REM (R123). -/
def execRem (g : GF) (s : State) : Out := value2 s (.rem g) remV

/-- FMA (R123, R126). -/
def execFma (g : GF) (s : State) : Out := value3 s (.fma g) fmaV

/-- MIN (R123, R126). -/
def execMin (g : GF) (s : State) : Out := value2 s (.min g) minV

/-- MAX (R123, R126). -/
def execMax (g : GF) (s : State) : Out := value2 s (.max g) maxV

/-- ABS (R123, R126). -/
def execAbs (g : GF) (s : State) : Out := value1 s (.abs g) absV

/-- NEG (R123, R126). -/
def execNeg (g : GF) (s : State) : Out := value1 s (.neg g) negV

/-- ADDI (R124). -/
def execAddi (i : IF) (s : State) : Out := value1 s (.addi i) (addiV i.imm)

/-- MULI (R124). -/
def execMuli (i : IF) (s : State) : Out := value1 s (.muli i) (muliV i.imm)

/-- TST (R129). -/
def execTst (g : GF) (cc : Cmp) (s : State) : Out := value2 s (.tst g cc) (tstV cc)

/-- TEQI (R130). -/
def execTeqi (i : IF) (s : State) : Out := value1 s (.teqi i) (testImmV .eq i.imm)

/-- TLTI (R130). -/
def execTlti (i : IF) (s : State) : Out := value1 s (.tlti i) (testImmV .lt i.imm)

/-- AND (R131). -/
def execAnd (g : GF) (s : State) : Out := value2 s (.and g) (logicV (· &&& ·))

/-- OR (R131). -/
def execOr (g : GF) (s : State) : Out := value2 s (.or g) (logicV (· ||| ·))

/-- XOR (R131). -/
def execXor (g : GF) (s : State) : Out := value2 s (.xor g) (logicV (· ^^^ ·))

/-- NOT (R131). -/
def execNot (g : GF) (s : State) : Out := value1 s (.not g) notV

/-- ANDI (R131). -/
def execAndi (i : IF) (s : State) : Out := value1 s (.andi i) (logicImmV (· &&& ·) i.imm)

/-- ORI (R131). -/
def execOri (i : IF) (s : State) : Out := value1 s (.ori i) (logicImmV (· ||| ·) i.imm)

/-- XORI (R131). -/
def execXori (i : IF) (s : State) : Out := value1 s (.xori i) (logicImmV (· ^^^ ·) i.imm)

/-- SHL (R132). -/
def execShl (g : GF) (s : State) : Out := value2 s (.shl g) (shiftV .shl)

/-- SHR (R132). -/
def execShr (g : GF) (s : State) : Out := value2 s (.shr g) (shiftV .shr)

/-- SAR (R132). -/
def execSar (g : GF) (s : State) : Out := value2 s (.sar g) (shiftV .sar)

/-- SHLI (R132). -/
def execShli (i : IF) (s : State) : Out := value1 s (.shli i) (shiftImmV .shl i.imm)

/-- SHRI (R132). -/
def execShri (i : IF) (s : State) : Out := value1 s (.shri i) (shiftImmV .shr i.imm)

/-- SARI (R132). -/
def execSari (i : IF) (s : State) : Out := value1 s (.sari i) (shiftImmV .sar i.imm)

/-- CLZ (R133). -/
def execClz (g : GF) (s : State) : Out := value1 s (.clz g) clzV

/-- POPC (R133). -/
def execPopc (g : GF) (s : State) : Out := value1 s (.popc g) popcV

/-- BFX (R134). -/
def execBfx (g : GF) (s : State) : Out := value3 s (.bfx g) bfxV

/-- SQRT (R135, R136). -/
def execSqrt (g : GF) (s : State) : Out := value1 s (.sqrt g) sqrtV

/-- RCP (R135, R136). -/
def execRcp (g : GF) (s : State) : Out := value1 s (.rcp g) rcpV

/-- RSQRT (R135, R136). -/
def execRsqrt (g : GF) (s : State) : Out := value1 s (.rsqrt g) rsqrtV

/-- EXP2 (R135, R136). -/
def execExp2 (g : GF) (s : State) : Out := value1 s (.exp2 g) exp2V

/-- LOG2 (R135, R136). -/
def execLog2 (g : GF) (s : State) : Out := value1 s (.log2 g) log2V

/-- TANH (R135, R136). -/
def execTanh (g : GF) (s : State) : Out := value1 s (.tanh g) tanhV

/-- CVT: round to nearest even (R72, R137). -/
def execCvt (c : CF) (s : State) : Out := value1 s (.cvt c) (cvtV .nearestEven c.fmt)

/-- CVTZ: round toward zero (R72, R137). -/
def execCvtz (c : CF) (s : State) : Out := value1 s (.cvtz c) (cvtV .towardZero c.fmt)

/-- LDEXP (R127). -/
def execLdexp (g : GF) (s : State) : Out := value2 s (.ldexp g) ldexpV

/-- FCLASS (R128). -/
def execFclass (g : GF) (s : State) : Out := value1 s (.fclass g) fclassV

/-- SELF (R197): colour, die, and the pane of the issuing cell. -/
def execSelf (g : GF) (s : State) : Out := 
  valueWord s (.self g) fun s f =>
    let t := taskD s f.tid
    trigV (mkTok .n64 (t.colour + t.die * 65536 + cellPane s f % 192 * 2 ^ 18)) (portD s f .l)

end Sys2Proof.Machine
end

