-- ==== Sys2Proof/Machine/Dispatch.lean ====
section
/-! DEFINITION. The meaning of every step: one call for each row of the table of operations and events. -/

namespace Sys2Proof.Machine

def exec (i : Instr) (s : State) : Host.Outcome State Fault Refusal :=
  match i with
  | .read t0 t1 reg => Sys2Proof.Machine.execRead t0 t1 reg s
  | .write wid reg pm => Sys2Proof.Machine.execWrite wid reg pm s
  | .mov g => Sys2Proof.Machine.execMov g s
  | .movi w => Sys2Proof.Machine.execMovi w s
  | .nul g => Sys2Proof.Machine.execNul g s
  | .sel t0 t1 ta => Sys2Proof.Machine.execSel t0 t1 ta s
  | .retag c => Sys2Proof.Machine.execRetag c s
  | .pld w => Sys2Proof.Machine.execPld w s
  | .tagof g => Sys2Proof.Machine.execTagof g s
  | .br off bk pm => Sys2Proof.Machine.execBr off bk pm s
  | .brr call pm => Sys2Proof.Machine.execBrr call pm s
  | .exit pm => Sys2Proof.Machine.execExit pm s
  | .trap imm pm => Sys2Proof.Machine.execTrap imm pm s
  | .bkpt imm pm => Sys2Proof.Machine.execBkpt imm pm s
  | .fence scope lsid pm => Sys2Proof.Machine.execFence scope lsid pm s
  | .add g sat => Sys2Proof.Machine.execAdd g sat s
  | .sub g sat => Sys2Proof.Machine.execSub g sat s
  | .mul g sat => Sys2Proof.Machine.execMul g sat s
  | .mulh g => Sys2Proof.Machine.execMulh g s
  | .div g => Sys2Proof.Machine.execDiv g s
  | .rem g => Sys2Proof.Machine.execRem g s
  | .fma g => Sys2Proof.Machine.execFma g s
  | .min g => Sys2Proof.Machine.execMin g s
  | .max g => Sys2Proof.Machine.execMax g s
  | .abs g => Sys2Proof.Machine.execAbs g s
  | .neg g => Sys2Proof.Machine.execNeg g s
  | .addi w => Sys2Proof.Machine.execAddi w s
  | .muli w => Sys2Proof.Machine.execMuli w s
  | .tst g cc => Sys2Proof.Machine.execTst g cc s
  | .teqi w => Sys2Proof.Machine.execTeqi w s
  | .tlti w => Sys2Proof.Machine.execTlti w s
  | .and g => Sys2Proof.Machine.execAnd g s
  | .or g => Sys2Proof.Machine.execOr g s
  | .xor g => Sys2Proof.Machine.execXor g s
  | .not g => Sys2Proof.Machine.execNot g s
  | .andi w => Sys2Proof.Machine.execAndi w s
  | .ori w => Sys2Proof.Machine.execOri w s
  | .xori w => Sys2Proof.Machine.execXori w s
  | .shl g => Sys2Proof.Machine.execShl g s
  | .shr g => Sys2Proof.Machine.execShr g s
  | .sar g => Sys2Proof.Machine.execSar g s
  | .shli w => Sys2Proof.Machine.execShli w s
  | .shri w => Sys2Proof.Machine.execShri w s
  | .sari w => Sys2Proof.Machine.execSari w s
  | .clz g => Sys2Proof.Machine.execClz g s
  | .popc g => Sys2Proof.Machine.execPopc g s
  | .bfx g => Sys2Proof.Machine.execBfx g s
  | .sqrt g => Sys2Proof.Machine.execSqrt g s
  | .rcp g => Sys2Proof.Machine.execRcp g s
  | .rsqrt g => Sys2Proof.Machine.execRsqrt g s
  | .exp2 g => Sys2Proof.Machine.execExp2 g s
  | .log2 g => Sys2Proof.Machine.execLog2 g s
  | .tanh g => Sys2Proof.Machine.execTanh g s
  | .cvt c => Sys2Proof.Machine.execCvt c s
  | .cvtz c => Sys2Proof.Machine.execCvtz c s
  | .ldexp g => Sys2Proof.Machine.execLdexp g s
  | .fclass g => Sys2Proof.Machine.execFclass g s
  | .red g kind => Sys2Proof.Machine.execRed g kind s
  | .ld m => Sys2Proof.Machine.execLd m s
  | .st ord fmt lsid pm => Sys2Proof.Machine.execSt ord fmt lsid pm s
  | .aadd m => Sys2Proof.Machine.execAadd m s
  | .amin m => Sys2Proof.Machine.execAmin m s
  | .amax m => Sys2Proof.Machine.execAmax m s
  | .aand m => Sys2Proof.Machine.execAand m s
  | .aor m => Sys2Proof.Machine.execAor m s
  | .axor m => Sys2Proof.Machine.execAxor m s
  | .aswp m => Sys2Proof.Machine.execAswp m s
  | .acas m => Sys2Proof.Machine.execAcas m s
  | .mst ord fmt lsid pm => Sys2Proof.Machine.execMst ord fmt lsid pm s
  | .pref lsid pm => Sys2Proof.Machine.execPref lsid pm s
  | .lld t0 wait fmt lsid pm => Sys2Proof.Machine.execLld t0 wait fmt lsid pm s
  | .lst fmt lsid pm => Sys2Proof.Machine.execLst fmt lsid pm s
  | .lamo t0 op fmt lsid pm => Sys2Proof.Machine.execLamo t0 op fmt lsid pm s
  | .few t0 lsid pm => Sys2Proof.Machine.execFew t0 lsid pm s
  | .fes lsid pm => Sys2Proof.Machine.execFes lsid pm s
  | .binit lsid pm => Sys2Proof.Machine.execBinit lsid pm s
  | .barr t0 lsid pm => Sys2Proof.Machine.execBarr t0 lsid pm s
  | .lsz t0 lsid pm => Sys2Proof.Machine.execLsz t0 lsid pm s
  | .alloc g arena => Sys2Proof.Machine.execAlloc g arena s
  | .free pm => Sys2Proof.Machine.execFree pm s
  | .rels pm => Sys2Proof.Machine.execRels pm s
  | .cp t0 ctx rv ta pm => Sys2Proof.Machine.execCp t0 ctx rv ta pm s
  | .cpg t0 ctx ta pm => Sys2Proof.Machine.execCpg t0 ctx ta pm s
  | .cps t0 ctx ta pm => Sys2Proof.Machine.execCps t0 ctx ta pm s
  | .pset t0 reg ta pm => Sys2Proof.Machine.execPset t0 reg ta pm s
  | .cpp t0 ctx ta pm => Sys2Proof.Machine.execCpp t0 ctx ta pm s
  | .twait g ctx => Sys2Proof.Machine.execTwait g ctx s
  | .tread g ctx => Sys2Proof.Machine.execTread g ctx s
  | .wload t0 k j pm => Sys2Proof.Machine.execWload t0 k j pm s
  | .wmma t0 k j sat pm => Sys2Proof.Machine.execWmma t0 k j sat pm s
  | .cvtt t0 n pm => Sys2Proof.Machine.execCvtt t0 n pm s
  | .spawn g place => Sys2Proof.Machine.execSpawn g place s
  | .ref pm => Sys2Proof.Machine.execRef pm s
  | .drop pm => Sys2Proof.Machine.execDrop pm s
  | .await g => Sys2Proof.Machine.execAwait g s
  | .launch t0 ta pm => Sys2Proof.Machine.execLaunch t0 ta pm s
  | .waitc g level => Sys2Proof.Machine.execWaitc g level s
  | .cancel level pm => Sys2Proof.Machine.execCancel level pm s
  | .tnow g => Sys2Proof.Machine.execTnow g s
  | .tickw t0 ta pm => Sys2Proof.Machine.execTickw t0 ta pm s
  | .swq g => Sys2Proof.Machine.execSwq g s
  | .kvgrow t0 ta pm => Sys2Proof.Machine.execKvgrow t0 ta pm s
  | .sysrd w => Sys2Proof.Machine.execSysrd w s
  | .syswr imm pm => Sys2Proof.Machine.execSyswr imm pm s
  | .prof imm pm => Sys2Proof.Machine.execProf imm pm s
  | .self g => Sys2Proof.Machine.execSelf g s
  | .blockActivate a => Sys2Proof.Machine.execBlockActivate a s
  | .tokenArrive m => Sys2Proof.Machine.execTokenArrive m s
  | .cellIssue die pane cell => Sys2Proof.Machine.execCellIssue die pane cell s
  | .readyPromote f => Sys2Proof.Machine.execReadyPromote f s
  | .blockCommit tid iter => Sys2Proof.Machine.execBlockCommit tid iter s
  | .returnValueArrive m => Sys2Proof.Machine.execReturnValueArrive m s
  | .dealChunk launch => Sys2Proof.Machine.execDealChunk launch s
  | .refChangeArrive m => Sys2Proof.Machine.execRefChangeArrive m s
  | .futureExitArrive m => Sys2Proof.Machine.execFutureExitArrive m s
  | .colourDrainDone die colour => Sys2Proof.Machine.execColourDrainDone die colour s
  | .allocRequestArrive r => Sys2Proof.Machine.execAllocRequestArrive r s
  | .quietSpill arena => Sys2Proof.Machine.execQuietSpill arena s
  | .spillComplete arena => Sys2Proof.Machine.execSpillComplete arena s
  | .allocationRelease m => Sys2Proof.Machine.execAllocationRelease m s
  | .engineCmdStart ctx => Sys2Proof.Machine.execEngineCmdStart ctx s
  | .gatherRow ctx => Sys2Proof.Machine.execGatherRow ctx s
  | .wloadRun ctx => Sys2Proof.Machine.execWloadRun ctx s
  | .wmmaRow ctx => Sys2Proof.Machine.execWmmaRow ctx s
  | .cvttRow ctx => Sys2Proof.Machine.execCvttRow ctx s
  | .engineCmdEnd ctx => Sys2Proof.Machine.execEngineCmdEnd ctx s
  | .granuleWake f => Sys2Proof.Machine.execGranuleWake f s
  | .awaitWake f => Sys2Proof.Machine.execAwaitWake f s
  | .twaitWake f => Sys2Proof.Machine.execTwaitWake f s
  | .waitcWake f => Sys2Proof.Machine.execWaitcWake f s
  | .launchComplete launch => Sys2Proof.Machine.execLaunchComplete launch s
  | .levelComplete level key => Sys2Proof.Machine.execLevelComplete level key s
  | .phaseBegin job => Sys2Proof.Machine.execPhaseBegin job s
  | .hostInboxWrite vi slot v => Sys2Proof.Machine.execHostInboxWrite vi slot v s
  | .inboxLoad vi => Sys2Proof.Machine.execInboxLoad vi s
  | .inboxSeal vi => Sys2Proof.Machine.execInboxSeal vi s
  | .inboxPhase vi => Sys2Proof.Machine.execInboxPhase vi s
  | .inboxLaunch vi => Sys2Proof.Machine.execInboxLaunch vi s
  | .inboxCancel vi => Sys2Proof.Machine.execInboxCancel vi s
  | .inboxEnd vi => Sys2Proof.Machine.execInboxEnd vi s
  | .shutterRaise graph => Sys2Proof.Machine.execShutterRaise graph s
  | .shutterMarkerArrive graph cell => Sys2Proof.Machine.execShutterMarkerArrive graph cell s
  | .cutComplete graph => Sys2Proof.Machine.execCutComplete graph s
  | .savePagesWrite graph => Sys2Proof.Machine.execSavePagesWrite graph s
  | .contextResume graph => Sys2Proof.Machine.execContextResume graph s
  | .fwTaskResume tid => Sys2Proof.Machine.execFwTaskResume tid s
  | .fwTaskReclaim tid => Sys2Proof.Machine.execFwTaskReclaim tid s
  | .parityError f port => Sys2Proof.Machine.execParityError f port s
  | .pageFaultAnswer die vi va entry => Sys2Proof.Machine.execPageFaultAnswer die vi va entry s
  | .pageWalk m => Sys2Proof.Machine.execPageWalk m s
  | .tlbInvalidate die vi lo hi => Sys2Proof.Machine.execTlbInvalidate die vi lo hi s
  | .invalidateComplete id => Sys2Proof.Machine.execInvalidateComplete id s
  | .bindRecordWrite die index v => Sys2Proof.Machine.execBindRecordWrite die index v s
  | .bindHeldApply die index => Sys2Proof.Machine.execBindHeldApply die index s
  | .homeLineFill line => Sys2Proof.Machine.execHomeLineFill line s
  | .globalWritePerform m => Sys2Proof.Machine.execGlobalWritePerform m s
  | .homeRead m => Sys2Proof.Machine.execHomeRead m s
  | .atomicPerform m => Sys2Proof.Machine.execAtomicPerform m s
  | .scrubRow pane => Sys2Proof.Machine.execScrubRow pane s
  | .eccWriteback pane row => Sys2Proof.Machine.execEccWriteback pane row s
  | .ptpMessage m => Sys2Proof.Machine.execPtpMessage m s
  | .tick source => Sys2Proof.Machine.execTick source s
  | .graceExpiry source => Sys2Proof.Machine.execGraceExpiry source s
  | .tickDeferredLaunch source => Sys2Proof.Machine.execTickDeferredLaunch source s
  | .ingestPacket p => Sys2Proof.Machine.execIngestPacket p s
  | .tickSetWrite w => Sys2Proof.Machine.execTickSetWrite w s
  | .streamSetWrite w => Sys2Proof.Machine.execStreamSetWrite w s
  | .viCtlWrite w => Sys2Proof.Machine.execViCtlWrite w s
  | .badnodeWrite w => Sys2Proof.Machine.execBadnodeWrite w s
  | .perfCntClearRead pane c => Sys2Proof.Machine.execPerfCntClearRead pane c s
  | .triggerWrite w => Sys2Proof.Machine.execTriggerWrite w s
  | .ovpWrite w => Sys2Proof.Machine.execOvpWrite w s
  | .sysregWrite w => Sys2Proof.Machine.execSysregWrite w s
  | .latchPropagate die => Sys2Proof.Machine.execLatchPropagate die s
  | .mailboxAnswer pane page => Sys2Proof.Machine.execMailboxAnswer pane page s
  | .grantCacheRefill pane page => Sys2Proof.Machine.execGrantCacheRefill pane page s
  | .remoteMemoryRead r => Sys2Proof.Machine.execRemoteMemoryRead r s
  | .remoteMemoryWrite w => Sys2Proof.Machine.execRemoteMemoryWrite w s
  | .remoteAmo r => Sys2Proof.Machine.execRemoteAmo r s
  | .remoteMst w graph => Sys2Proof.Machine.execRemoteMst w graph s
  | .remoteSpawn r => Sys2Proof.Machine.execRemoteSpawn r s
  | .remoteCount c => Sys2Proof.Machine.execRemoteCount c s
  | .viConfigure c => Sys2Proof.Machine.execViConfigure c s
  | .viUnconfigure vi => Sys2Proof.Machine.execViUnconfigure vi s
  | .reset outs => Sys2Proof.Machine.execReset outs s
  | .startLogRead => Sys2Proof.Machine.execStartLogRead s
  | .lifecycleMove dest signed => Sys2Proof.Machine.execLifecycleMove dest signed s
  | .attestationRequest nonce => Sys2Proof.Machine.execAttestationRequest nonce s
  | .powerThrottle die => Sys2Proof.Machine.execPowerThrottle die s
  | .clockRestore die => Sys2Proof.Machine.execClockRestore die s
  | .thermalThrottle die => Sys2Proof.Machine.execThermalThrottle die s
  | .thermalStop die => Sys2Proof.Machine.execThermalStop die s
  | .ptpMasterLoss => Sys2Proof.Machine.execPtpMasterLoss s

end Sys2Proof.Machine
end

