-- ==== Sys2Proof/Machine/Sched.lean ====
section
/-! DEFINITION. Which steps may come next (R28, R42, R154, R195, R206, R270, R284, R357, log 1): the word on the lane, else
one of the inputs, messages and events that are possible now, or the passing of a cycle. An event that is offered and not
due changes nothing. -/

namespace Sys2Proof.Machine

/-! ### Messages on their way -/

/-- The channel of a message whose order is kept: changes of one task's futures, its SYSWRs, its atomics at one home, its
accesses to one peer, the activations of its blocks; and the carve-out requests of one pane (R22, R33, R42, R154, R206, R231,
R284, R302). -/
def channel : Instr → Option (Nat × Nat × Nat)
  | .refChangeArrive m => m.src.map fun t => (0, t, 0)
  | .futureExitArrive m => some (0, m.tid, 0)
  | .tickSetWrite (.reg w) | .streamSetWrite w | .viCtlWrite w | .badnodeWrite w | .triggerWrite w | .ovpWrite w
  | .sysregWrite w => w.tid.map fun t => (1, t, 0)
  | .atomicPerform m =>
    if m.rdev = 0 then some (2, m.tid, match homeOf m.pa with | some h => h.1 | none => 0) else some (3, m.tid, m.rdev)
  | .globalWritePerform m => if m.rdev = 0 then none else some (3, m.tid, m.rdev)
  | .homeRead m => if m.rdev = 0 then none else some (3, m.f.tid, m.rdev)
  | .blockActivate a => some (4, a.tid, 0)
  | .allocRequestArrive r => (match r.asker with | .word _ => none | _ => some (5, r.arena, 0))
  | _ => none

/-- The messages that may arrive next: of one channel only the first. -/
def arriving (seen : List (Nat × Nat × Nat)) : List Instr → List Instr
  | [] => []
  | m :: t =>
    match channel m with
    | none => m :: arriving seen t
    | some c => if seen.contains c then arriving seen t else m :: arriving (c :: seen) t

/-- Of the walks of each die the first 32, in the order in which they were asked for (R226). -/
def walking (seen : List Nat) : List Instr → List Instr
  | [] => []
  | .pageWalk m :: t =>
    if (seen.filter fun d => d = m.die).length < 32 then .pageWalk m :: walking (m.die :: seen) t else walking seen t
  | m :: t => m :: walking seen t

/-- The lines that an access waits for (R225). -/
def linesWanted : Instr → List Nat
  | .homeRead m => if m.rdev = 0 then [m.pa / 128, (m.pa + m.width - 1) / 128] else []
  | .globalWritePerform m => if m.rdev = 0 then [m.pa / 128, (m.pa + m.bytes.length - 1) / 128] else []
  | .atomicPerform m => if m.rdev = 0 then [m.pa / 128, (m.pa + accessWidth m.fmt - 1) / 128] else []
  | _ => []

/-- Fills of absent lines. -/
def fills (s : State) : List Instr :=
  ((s.net.flatMap linesWanted).filter fun l => (tget s.gm.lines l).isNone).map .homeLineFill

/-! ### Events of the parts -/

/-- The event that lets a waiting word look again (R158, R185, R196, R199). -/
def wakeOf : Firing × Wait → List Instr
  | (f, .granule) => [.granuleWake f]
  | (f, .future _) => [.awaitWake f]
  | (f, .timeline _ _) => [.twaitWake f]
  | (f, .level _ _) => [.waitcWake f]
  | _ => []

/-- The issue of the cell of a ready word, and its promotion. -/
def readyEvents (s : State) (r : Ready) : List Instr :=
  let c := cellOf s (taskD s r.f.tid) r.f.block r.f.slot
  [.cellIssue (paneDie (c / 16)) (c / 16 % 192) (c % 16), .readyPromote r.f]

/-- Waits, issue and commit. -/
def workEvents (s : State) : List Instr :=
  s.wk.waits.flatMap wakeOf ++ s.wk.ready.flatMap (readyEvents s)
    ++ s.wk.insts.map (fun e => .blockCommit e.2.tid e.2.iter)
    ++ s.wk.cooling.flatMap fun e => (e.2.take 64).map fun c => .colourDrainDone e.1 c

/-- Spills of the arenas. -/
def arenaEvents (e : Nat × Arena) : List Instr :=
  (if e.2.waiting.isEmpty then [] else [.quietSpill e.1]) ++ (if e.2.spilling.isSome then [.spillComplete e.1] else [])

/-- The next event of a command context. -/
def contextEvents (e : Nat × Ctx) : List Instr :=
  match e.2.queue with
  | [] => []
  | c :: _ =>
    if c.status.isSome then [.engineCmdEnd e.1]
    else if !c.started then [.engineCmdStart e.1]
    else match c.kind with
      | .gather _ _ => [.gatherRow e.1]
      | .wload _ _ _ => [.wloadRun e.1]
      | .wmma _ _ _ _ _ => [.wmmaRow e.1]
      | .cvtt _ _ _ => [.cvttRow e.1]
      | _ => []

/-- The command that the head of an interface's ring holds (R243, R244). -/
def inboxEvents (s : State) (e : Nat × Vi) : List Instr :=
  match ringHead s e.1 with
  | none => []
  | some d =>
    match slotKind d with
    | 2 => [.inboxSeal e.1]
    | 3 => [.inboxPhase e.1]
    | 4 => [.inboxLaunch e.1]
    | 5 => [.inboxCancel e.1]
    | 6 => [.inboxEnd e.1]
    | _ => [.inboxLoad e.1]

/-- Dealing, completion and the inboxes. -/
def jobEvents (s : State) : List Instr :=
  s.jb.launches.flatMap (fun e => [.dealChunk e.1, .launchComplete e.1])
    ++ s.cf.graphs.map (fun e => .levelComplete .graph e.1)
    ++ s.jb.phases.map (fun e => .levelComplete .phase e.1)
    ++ s.jb.jobs.flatMap (fun e => [.levelComplete .job e.1, .phaseBegin e.1])
    ++ s.jb.vis.flatMap (inboxEvents s)

/-- Ticks, binds, invalidations, the latch, the scrubber. -/
def unitEvents (s : State) : List Instr :=
  s.tm.ticks.flatMap (fun e => [.tick e.1, .graceExpiry e.1, .tickDeferredLaunch e.1])
    ++ s.cf.held.map (fun h => .bindHeldApply h.die h.index)
    ++ s.gm.invals.map (fun x => .invalidateComplete x.id)
    ++ s.sr.latch.map (fun l => .latchPropagate l.2)
    ++ s.ls.wbs.map (fun w => .eccWriteback w.1 w.2)
    ++ (List.range 768).map .scrubRow

/-- The steps of a shutter, and of the resume of a graph that is re-placed (R297 to R300). -/
def shutterEvents (s : State) : List Instr :=
  (s.sh.active.flatMap fun e =>
    ((regionCells (tgetD s.cf.graphs e.1 {})).filter fun c => !e.2.marked.contains c).map (.shutterMarkerArrive e.1)
      ++ [.cutComplete e.1, .savePagesWrite e.1])
  ++ (s.sh.saved.filter fun e => e.2.moves || e.2.armed).map fun e => .contextResume e.1

/-- Every event that the parts of the device may take by themselves. -/
def ownEvents (s : State) : List Instr :=
  fills s ++ workEvents s ++ s.al.arenas.flatMap arenaEvents ++ s.en.ctxs.flatMap contextEvents ++ jobEvents s
    ++ unitEvents s ++ shutterEvents s

/-! ### Inputs -/

/-- What the outside may do: the host, peers, firmware, the physical world (INVENTORY, Host interface). -/
def isInput : Instr → Bool
  | .hostInboxWrite _ _ _ | .shutterRaise _ | .contextResume _ | .fwTaskResume _ | .fwTaskReclaim _ | .parityError _ _
  | .pageFaultAnswer _ _ _ _ | .tlbInvalidate _ _ _ _ | .bindRecordWrite _ _ _ | .ptpMessage _ | .ingestPacket _
  | .tickSetWrite (.reg _) | .streamSetWrite _ | .viCtlWrite _ | .badnodeWrite _ | .perfCntClearRead _ _ | .triggerWrite _
  | .ovpWrite _ | .sysregWrite _ | .mailboxAnswer _ _ | .grantCacheRefill _ _ | .remoteMemoryRead _ | .remoteMemoryWrite _
  | .remoteAmo _ | .remoteMst _ _ | .remoteSpawn _ | .remoteCount _ | .viConfigure _ | .viUnconfigure _ | .reset _
  | .startLogRead | .lifecycleMove _ _ | .attestationRequest _ | .powerThrottle _ | .clockRestore _ | .thermalThrottle _
  | .thermalStop _ | .ptpMasterLoss => true
  | _ => false

/-- A packet with the last-of-slot mark comes before an expiry of the same cycle (R313): after one, it is for a later cycle. -/
def tooLate (s : State) : Instr → Bool
  | .ingestPacket p => pktLast p && s.tm.expired = some s.clk.cycle
  | _ => false

/-- Traffic of a port that was left down is not routed (R322). Ports are numbered over the device, as DETAIL numbers them. -/
def routed (s : State) (x : Input) : Bool :=
  match x.port with
  | some p => !(s.bt.ports.any fun q => q.2 = p)
  | none => true

/-- An input that the part takes. -/
def taken (s : State) (x : Input) : Bool := isInput x.act && routed s x

/-- The input at the head of the queue. -/
def inputHead (s : State) : List Instr :=
  match s.inp with
  | x :: _ => if taken s x && !tooLate s x.act then [x.act] else []
  | [] => []

def dropInput (s : State) : State := { s with inp := s.inp.tail }

/-! ### The choice (log 1) -/

/-- What may be done next. -/
inductive Act where
  | input (i : Instr)
  | message (i : Instr)
  | event (i : Instr)
  | move (ctx : Nat)
  | retry (f : Firing)
  | attempt (arena : Nat)
  | remote (num : Nat)
  | pass
  deriving DecidableEq, Repr

/-- A cycle passes: the clock goes on, and the panes count it (R262, R305). -/
def passCycle (s : State) : State :=
  (List.range 768).foldl (fun a p => perfPane a p 0x000 1) { s with clk := cycleClk s.clk }

/-- The contexts whose copies and permutes run. -/
def moving (s : State) : List Act :=
  (s.en.ctxs.filter fun e => (running s e.1).isSome).map fun e => .move e.1

/-- The words that wait for what precedes them in order look again (R146, R148, R153). -/
def retries (s : State) : List Act :=
  (s.wk.waits.filter fun w => w.2 = .order).map fun w => .retry w.1

/-- Attempts that stand over (R233), and the SPAWNs of other devices that wait (R315). -/
def standing (s : State) : List Act :=
  (s.al.arenas.filter fun e => !e.2.due.isEmpty).map (fun e => .attempt e.1) ++ s.wk.remotes.map fun x => .remote x.num

/-- Everything that may be done now. -/
def acts (s : State) : List Act :=
  .pass :: ((inputHead s).map .input ++ (arriving [] (walking [] s.net)).map .message ++ (ownEvents s).map .event
    ++ moving s ++ retries s ++ standing s)

/-- One of them, and the counter of the choices goes on. -/
def chosen (s : State) : Act := ((acts s)[Config.choose s.nd % (acts s).length]?).getD .pass

def countChoice (s : State) : State := { s with nd := s.nd + 1 }

/-- What an act does: a state, or a step of the table in a state from which its message or input has been taken. -/
def actStep (s : State) : Act → Option Instr × State
  | .input i => (some i, dropInput s)
  | .message i => (some i, { s with net := lerase s.net i })
  | .event i => (some i, s)
  | .move k => (none, engineMove s k)
  | .retry f => (none, wake s f)
  | .attempt k => (none, attemptDue s k)
  | .remote n => (none, remoteGo s n)
  | .pass => (none, passCycle s)

/-- The next act of a machine whose lane is empty; an input that is none is dropped. -/
def nextAct (s : State) : Option Instr × State :=
  match s.inp with
  | x :: _ => if taken s x then actStep (countChoice s) (chosen s) else (none, dropInput s)
  | [] => actStep (countChoice s) (chosen s)

/-! ### The lane (R12, R13, R29, R102) -/

/-- The instruction of the word on the lane. -/
def laneInstr (s : State) : Option Instr :=
  match s.wk.issue with
  | [] => none
  | f :: _ => instrAt s f.tid f.block f.slot

/-- A word on the lane that is no instruction stops its task with ILLEGAL_OP, where its instance is live (R102, R292). -/
def illegalLane (s : State) : State :=
  match s.wk.issue with
  | [] => s
  | f :: _ =>
    match instAt s f.tid f.iter with
    | some x => if x.block = f.block then raiseAt (popLane s) f ⟨.illegalOp, 0⟩ else popLane s
    | none => popLane s

/-! ### A part that is stopped (R321, R326) -/

/-- Whether the part runs: B11 has reported ready, and no die has reached 115 °C. -/
def runs (s : State) : Bool := s.bt.ready && !s.bt.stopped

/-- What a part that does not run still takes: a reset, and after a failed start the read of the start log. -/
def stoppedTakes (s : State) : Instr → Bool
  | .reset _ => true
  | .startLogRead => !s.bt.stopped
  | _ => false

/-! ### A word where the next step fetches -/

/-- The token that a placed word finds on a port. -/
def placedTok (tid block : Nat) (p : Port) : TokEntry :=
  let tok := if p = .p then mkTok .pred 1 else mkTok .i64 0
  ⟨⟨tid, 0, block, 0, p, tok, 0, true⟩, 0, .store⟩

/-- The address at which a placed block lies (R319). -/
def placedBase : Nat := 2 ^ 32

/-- A block of one word: its header says how many WRITEs and store-class words it holds (R84). -/
def placedBlock (w : Word) : Blk :=
  let n := b1 (wordIsWrite w) * 2 ^ 7 + b1 (wordIsStore w) * 2 ^ 12 + 0xB5 * 2 ^ 24
  ⟨0, BitVec.ofNat 32 n, [w]⟩

/-- A maintenance graph of one block on pane 0 of d0, with one task whose instance has every port of the word filled, and the
word on the lane. -/
def placeWord (s : State) (w : Word) : State :=
  let g : Graph := { base := placedBase, length := 128, blocks := [placedBlock w], place := some ⟨0, 0, 0, 1⟩, armed := true,
                     phase := some 0 }
  let t : Task := { job := 0, order := s.wk.order, born := true }
  let x : Inst := { block := placedBase }
  let f : Firing := ⟨0, 0, placedBase, 0⟩
  let slot : BitVec 64 := BitVec.ofNat 64 (2 ^ 38 + 3 * 2 ^ 42 + 2 ^ 44)
  { s with
    cf := { s.cf with graphs := tput s.cf.graphs 0 g, slots := tput s.cf.slots 0 slot }
    wk := { s.wk with
      tasks := tput s.wk.tasks 0 t
      insts := tput s.wk.insts 0 x
      toks := [.l, .r, .p, .x].map (placedTok 0 placedBase)
      issue := [f] } }

end Sys2Proof.Machine
end

