-- ==== Sys2Proof/Machine/Step.lean ====
section
/-! DEFINITION. One step of the part: the word on the lane, or one of the acts that are possible now (log 1). -/

namespace Sys2Proof.Machine

/-- A part that does not run takes a reset, and after a failed start a read of its start log, by a port that is up (R322); other
inputs are dropped. -/
def stoppedStep (s : State) : Host.Outcome State Fault Refusal :=
  match s.inp with
  | [] => .fault .moduleStopped
  | x :: _ => if stoppedTakes s x.act && routed s x then exec x.act (dropInput s) else .next (dropInput s)

/-- One step. -/
def step (s : State) : Host.Outcome State Fault Refusal :=
  if runs s then
    match s.wk.issue with
    | _ :: _ =>
      (match laneInstr s with
        | some i => exec i s
        | none => .next (illegalLane s))
    | [] =>
      (match nextAct s with
        | (some i, s') => exec i s'
        | (none, s') => .next s')
  else stoppedStep s

/-- The state with an instruction where the next step fetches (log 18). -/
def State.withFetchWord (s : State) (nbits w : Nat) : State := placeWord s (BitVec.ofNat 32 (w % 2 ^ nbits))

end Sys2Proof.Machine
end

