-- ==== Sys2Proof/Safety.lean ====
section
/-! DEFINITION. What claims about the part are said in: when a word fires, what each way of ending leaves, what a table of
words asks for, and the invariants. -/

namespace Sys2Proof.Machine

/-! ### A word on its lane (R13, R65, R90, R104, R144) -/

/-- The firing is on the lane, and its word may fire as `i`. -/
def OnLane (s : State) (f : Firing) (i : Instr) : Prop := s.wk.issue.head? = some f ∧ canFire s f i = true

/-- P is not read, or it carries the PRED that PM asks for (R90). -/
def Matches (s : State) (f : Firing) (i : Instr) : Prop :=
  match Instr.predicate i with
  | .always => True
  | .onTrue => (portD s f .p).tag = .pred ∧ tokTrue (portD s f .p) = true
  | .onFalse => (portD s f .p).tag = .pred ∧ tokTrue (portD s f .p) = false

/-- P is read, and carries the PRED that PM does not ask for (R90). -/
def Mismatches (s : State) (f : Firing) (i : Instr) : Prop :=
  match Instr.predicate i with
  | .always => False
  | .onTrue => (portD s f .p).tag = .pred ∧ tokTrue (portD s f .p) = false
  | .onFalse => (portD s f .p).tag = .pred ∧ tokTrue (portD s f .p) = true

/-- The data ports on which a word carries POISON on (R119, R144, R149, R155, R161, R162). -/
def carriesPoison : Instr → List Port
  | .exit _ | .write _ _ _ => [.l]
  | .st _ _ _ _ | .mst _ _ _ _ | .aadd _ | .amin _ | .amax _ | .aand _ | .aor _ | .axor _ | .aswp _ => [.r]
  | .acas _ => [.r, .x]
  | .lst _ _ _ | .lamo _ _ _ _ _ => [.x]
  | _ => []

/-- No data port holds NULL, and POISON stands only where the word carries it on. -/
def Clean (s : State) (f : Firing) (i : Instr) : Prop :=
  ∀ q ∈ Instr.dataPorts i,
    (portD s f q).tag ≠ .null ∧ ((portD s f q).tag = .poison → q ∈ carriesPoison i)

/-- A word fires, its predicate matched and its operands there. -/
structure Fires (s : State) (f : Firing) (i : Instr) : Prop where
  lane : OnLane s f i
  matched : Matches s f i
  clean : Clean s f i

/-- Some port that the word reads, P included, carries POISON. -/
def MeetsPoison (s : State) (f : Firing) (i : Instr) : Prop :=
  ∃ q ∈ Instr.ports i, (portD s f q).tag = .poison

/-- Some port that the word reads, P included, carries NULL, and none POISON. -/
def MeetsNull (s : State) (f : Firing) (i : Instr) : Prop :=
  ¬ MeetsPoison s f i ∧ ∃ q ∈ Instr.ports i, (portD s f q).tag = .null

/-! ### What a word leaves behind -/

/-- The instance with the slot fired and the word's flags (R13, R105). -/
def firedInst (f : Firing) (fl : FlagSet) (x : Inst) : Inst :=
  { x with fired := x.fired ++ [f.slot], flags := x.flags ||| fl }

/-- The lane's word has left, and its instance has changed; the rest of the work stands. -/
def laneDone (s : State) (f : Firing) (upd : Inst → Inst) : Wk :=
  { s.wk with issue := s.wk.issue.tail, insts := tmod s.wk.insts (instKey f.tid f.iter) upd }

/-- The word has fired and its tokens `a` and `b` are on their way to T0 and T1 (R13, R23, R103): nothing else of the
state changes. -/
def sent (s : State) (f : Firing) (i : Instr) (a b : Token) (fl : FlagSet) : State :=
  let it := taIter (Instr.targets i).2.2 f.iter
  let ms := tokMsg f it false a (Instr.targets i).1 ++ tokMsg f it false b (Instr.targets i).2.1
  { s with wk := laneDone s f (firedInst f fl), net := s.net ++ ms }

/-- The word waits, and holds its access (R17, R158): nothing else of the state changes. -/
def waits (s : State) (f : Firing) (w : Wait) : State :=
  { s with wk := { s.wk with issue := s.wk.issue.tail, waits := s.wk.waits ++ [(f, w)] } }

/-- The instance with the slot fired and its request produced (R14, R141). -/
def requestInst (f : Firing) (r : Request) (x : Inst) : Inst :=
  { x with fired := x.fired ++ [f.slot], requests := x.requests ++ [r] }

/-- The request of a word: its slot, its LSID, the register its value returns to, and what it asks for. -/
def requestFor (s : State) (f : Firing) (i : Instr) (k : ReqKind) : Request :=
  ⟨f.slot, Instr.lsid i, if Instr.returning i then retReg s f i else none, k⟩

/-- The word has produced its request (R14): nothing else of the state changes. -/
def requested (s : State) (f : Firing) (i : Instr) (k : ReqKind) : State :=
  { s with wk := laneDone s f (requestInst f (requestFor s f i k)) }

/-- The instance with the slot nulled (R14). -/
def nulledInst (f : Firing) (x : Inst) : Inst :=
  { x with fired := x.fired ++ [f.slot], nulled := x.nulled ++ [f.slot] }

/-- Registers, allocations, graphs, engines, jobs, times, ticks and every other instance are as they were; the word has left
the lane, on which READs that waited may follow (R24). -/
structure WordFrame (s t : State) (f : Firing) : Prop where
  tasks : t.wk.tasks = s.wk.tasks
  lane : ∃ more, t.wk.issue = s.wk.issue.tail ++ more
  others : ∀ tid iter, instKey tid iter ≠ instKey f.tid f.iter → instAt t tid iter = instAt s tid iter
  recs : t.al.recs = s.al.recs
  graphs : t.cf = s.cf
  engines : t.en = s.en
  jobs : t.jb = s.jb
  times : t.clk = s.clk
  ticks : t.tm = s.tm
  firmware : t.fw = s.fw

/-- Every byte of HBM, of global memory as an access finds it, and of local store is as it was, and so is every granule's
state. -/
structure MemFrame (s t : State) : Prop where
  hbm : ∀ a, byteAt t.gm.hbm a = byteAt s.gm.hbm a
  global : ∀ a, paByte t.gm a = paByte s.gm a
  store : ∀ a, byteAt t.ls.bytes a = byteAt s.ls.bytes a
  granules : ∀ g, gstAt t.ls g = gstAt s.ls g

/-- The frame of a word that reads multicast copies: each copy read for the first time takes a number in its task's program
order (log 111); the rest as in WordFrame. -/
structure ReadFrame (s t : State) (f : Firing) : Prop where
  task : ∃ n, taskAt t f.tid = (taskAt s f.tid).map fun y => { y with seq := y.seq + n }
  tasks : ∀ tid, tid ≠ f.tid → taskAt t tid = taskAt s tid
  lane : ∃ more, t.wk.issue = s.wk.issue.tail ++ more
  others : ∀ tid iter, instKey tid iter ≠ instKey f.tid f.iter → instAt t tid iter = instAt s tid iter
  recs : t.al.recs = s.al.recs
  graphs : t.cf = s.cf
  engines : t.en = s.en
  jobs : t.jb = s.jb
  times : t.clk = s.clk
  ticks : t.tm = s.tm
  firmware : t.fw = s.fw

/-- The tokens of a result on their way to T0 and T1 (R13, R23). -/
def resultMsgs (f : Firing) (i : Instr) (a b : Token) : List Instr :=
  let it := taIter (Instr.targets i).2.2 f.iter
  tokMsg f it false a (Instr.targets i).1 ++ tokMsg f it false b (Instr.targets i).2.1

/-- A word has sent its value to its targets, and its instance has the slot fired and whatever `upd` adds. -/
structure SendsValue (s t : State) (f : Firing) (i : Instr) (v : Token) (fl : FlagSet) (upd : Inst → Inst) : Prop where
  frame : WordFrame s t f
  net : t.net = s.net ++ resultMsgs f i v v
  inst : instAt t f.tid f.iter = (instAt s f.tid f.iter).map fun x => firedInst f fl (upd x)
  store : ∀ a, byteAt t.ls.bytes a = byteAt s.ls.bytes a

/-- A load has sent the value that multicast copies of its pane hold; no byte of memory has changed. -/
structure SendsRead (s t : State) (f : Firing) (i : Instr) (v : Token) : Prop where
  frame : ReadFrame s t f
  mem : MemFrame s t
  net : t.net = s.net ++ resultMsgs f i v v
  inst : instAt t f.tid f.iter = (instAt s f.tid f.iter).map (firedInst f 0)

/-- The ports that steer a word: POISON on one raises POISON_USE (R144, R170). -/
def steerPorts : Instr → List Port
  | .ld _ | .st _ _ _ _ | .mst _ _ _ _ | .pref _ _ | .lsz _ _ _ => [.l]
  | .aadd _ | .amin _ | .amax _ | .aand _ | .aor _ | .axor _ | .aswp _ | .acas _ => [.l]
  | .lld _ _ _ _ _ | .lst _ _ _ | .lamo _ _ _ _ _ | .barr _ _ _ => [.l, .r]
  | .few _ _ _ | .fes _ _ | .binit _ _ => [.l, .r, .x]
  | .br _ _ pm | .trap _ pm | .bkpt _ pm => if pm = .always then [.l] else []
  | .fence _ _ _ | .brr _ _ => [.l]
  | .free _ | .rels _ | .cpg _ _ _ _ | .cps _ _ _ _ | .pset _ _ _ _ | .wload _ _ _ _ => [.l]
  | .cp _ _ _ _ _ | .cpp _ _ _ _ | .wmma _ _ _ _ _ | .cvtt _ _ _ | .spawn _ _ => [.l, .r]
  | .twait _ _ | .tickw _ _ _ => [.r]
  | .tread _ _ | .ref _ | .drop _ | .await _ | .launch _ _ _ | .kvgrow _ _ _ => [.l]
  | _ => []

/-- The ports on which POISON is a FORMAT fault (R170). -/
def countPorts : Instr → List Port
  | .alloc _ _ | .swq _ => [.l, .r]
  | .rels _ => [.r]
  | .cp _ _ _ _ _ | .cpp _ _ _ _ => [.x]
  | .twait _ _ | .waitc _ _ | .cancel _ _ | .tickw _ _ _ => [.l]
  | _ => []

/-- A word that stores to global memory: its access, its format, whether it is plain, its data, and its request by the
physical address, the peer and CHECKED (R149, R151, R154). -/
structure GlobalWord where
  access : Access
  fmt : Tag
  plain : Bool
  data : List Token
  req : Nat → Nat → Bool → ReqKind

def globalWord (s : State) (f : Firing) (i : Instr) : Option GlobalWord :=
  let va := tokBits (portD s f .l)
  let r := portD s f .r
  let x := portD s f .x
  let atom := fun (m : MF) (op : AtomOp) (data : List Token) =>
    some (⟨.atomic, m.fmt, false, data, fun pa rdev _ => .atom op va pa rdev m.fmt r x (relScope m.ord)⟩ : GlobalWord)
  match i with
  | .st ord fmt _ _ => some ⟨.write, fmt, decide (ord = .plain), [r], fun pa rdev c => .store va pa rdev fmt r (relScope ord) c false⟩
  | .mst ord fmt _ _ => some ⟨.write, fmt, decide (ord = .plain), [r], fun pa rdev c => .store va pa rdev fmt r (relScope ord) c true⟩
  | .aadd m => atom m .add [r]
  | .amin m => atom m .min [r]
  | .amax m => atom m .max [r]
  | .aand m => atom m .and [r]
  | .aor m => atom m .or [r]
  | .axor m => atom m .xor [r]
  | .aswp m => atom m .swp [r]
  | .acas m => atom m .cas [r, x]
  | _ => none

/-- A word's translation through the TLB of its cell's pane (R142). -/
def wordXlat (s : State) (f : Firing) (va : Nat) (a : Access) : Xlat :=
  tlbXlat s (cellPane s f) (taskD s f.tid).vi va a

/-- The bytes that lower stores of its block forward to a load (R146). -/
def forwarded (s : State) (f : Firing) (lsid width pa rdev : Nat) : List (Option Byte) :=
  let rs := match instAt s f.tid f.iter with | some x => reqsBelow x lsid | none => []
  (List.range width).map fun k => fwdByte rs (pa + k) rdev

/-- A lower store of the block sends POISON to the line (R149). -/
def nearPoison (s : State) (f : Firing) (lsid pa rdev : Nat) : Bool :=
  fwdPoisons (match instAt s f.tid f.iter with | some x => reqsBelow x lsid | none => []) pa rdev

/-- The read of an LD, as it goes to its home (R146, R149, R270). -/
def loadMsg (s : State) (f : Firing) (m : MF) (pa rdev : Nat) (checked : Bool) : ReadMsg :=
  let t := taskD s f.tid
  let w := accessWidth m.fmt
  { f := f, seq := t.seq, after := t.floor, lsid := some m.lsid.toNat, acq := decide (m.ord ≠ .plain), va := tokBits (portD s f .l),
    pa := pa, rdev := rdev, width := w, fmt := m.fmt, half := none, fwd := forwarded s f m.lsid.toNat w pa rdev,
    fwdPoison := nearPoison s f m.lsid.toNat pa rdev, checked := checked, t0 := m.t0, got := [], rest := none }

/-- A handle and an offset that resolve for a width, with no spill copy running (R157, R237). -/
def localAt (s : State) (f : Firing) (width : Nat) (g : GLoc) (o : Nat) : Prop :=
  (portD s f .l).tag = .handle ∧ (portD s f .r).tag.isInt = true ∧
  resolve s (tokBits (portD s f .l)) (tokInt (portD s f .r)) width = .ok (g, o) ∧
  (match handleRec (tokBits (portD s f .l)) with | some k => spillingRec s k | none => false) = false

/-! ### What the value words compute (R110 to R137, R197) -/

/-- The result of a value word from its operands; READ, SEL and RED stand by themselves. -/
def valueOf (s : State) (f : Firing) : Instr → Option VOut
  | .mov _ => some (.both (portD s f .l))
  | .movi i => some (trigV (mkInt .i32 i.imm.toInt) (portD s f .l))
  | .nul _ => some (trigV nullTok (portD s f .l))
  | .retag c => some (retagV c.fmt (portD s f .l))
  | .tagof _ => some (trigV (mkTok .i32 f.iter) (portD s f .l))
  | .add _ sat => some (addV sat (portD s f .l) (portD s f .r))
  | .sub _ sat => some (subV sat (portD s f .l) (portD s f .r))
  | .mul _ sat => some (mulV sat (portD s f .l) (portD s f .r))
  | .mulh _ => some (mulhV (portD s f .l) (portD s f .r))
  | .div _ => some (divV (portD s f .l) (portD s f .r))
  | .rem _ => some (remV (portD s f .l) (portD s f .r))
  | .fma _ => some (fmaV (portD s f .l) (portD s f .r) (portD s f .x))
  | .min _ => some (minV (portD s f .l) (portD s f .r))
  | .max _ => some (maxV (portD s f .l) (portD s f .r))
  | .abs _ => some (absV (portD s f .l))
  | .neg _ => some (negV (portD s f .l))
  | .addi i => some (addiV i.imm (portD s f .l))
  | .muli i => some (muliV i.imm (portD s f .l))
  | .tst _ cc => some (tstV cc (portD s f .l) (portD s f .r))
  | .teqi i => some (testImmV .eq i.imm (portD s f .l))
  | .tlti i => some (testImmV .lt i.imm (portD s f .l))
  | .and _ => some (logicV (· &&& ·) (portD s f .l) (portD s f .r))
  | .or _ => some (logicV (· ||| ·) (portD s f .l) (portD s f .r))
  | .xor _ => some (logicV (· ^^^ ·) (portD s f .l) (portD s f .r))
  | .not _ => some (notV (portD s f .l))
  | .andi i => some (logicImmV (· &&& ·) i.imm (portD s f .l))
  | .ori i => some (logicImmV (· ||| ·) i.imm (portD s f .l))
  | .xori i => some (logicImmV (· ^^^ ·) i.imm (portD s f .l))
  | .shl _ => some (shiftV .shl (portD s f .l) (portD s f .r))
  | .shr _ => some (shiftV .shr (portD s f .l) (portD s f .r))
  | .sar _ => some (shiftV .sar (portD s f .l) (portD s f .r))
  | .shli i => some (shiftImmV .shl i.imm (portD s f .l))
  | .shri i => some (shiftImmV .shr i.imm (portD s f .l))
  | .sari i => some (shiftImmV .sar i.imm (portD s f .l))
  | .clz _ => some (clzV (portD s f .l))
  | .popc _ => some (popcV (portD s f .l))
  | .bfx _ => some (bfxV (portD s f .l) (portD s f .r) (portD s f .x))
  | .sqrt _ => some (sqrtV (portD s f .l))
  | .rcp _ => some (rcpV (portD s f .l))
  | .rsqrt _ => some (rsqrtV (portD s f .l))
  | .exp2 _ => some (exp2V (portD s f .l))
  | .log2 _ => some (log2V (portD s f .l))
  | .tanh _ => some (tanhV (portD s f .l))
  | .cvt c => some (cvtV .nearestEven c.fmt (portD s f .l))
  | .cvtz c => some (cvtV .towardZero c.fmt (portD s f .l))
  | .ldexp _ => some (ldexpV (portD s f .l) (portD s f .r))
  | .fclass _ => some (fclassV (portD s f .l))
  | .self _ =>
    some (trigV (mkTok .n64 ((taskD s f.tid).colour + (taskD s f.tid).die * 65536 + cellPane s f % 192 * 2 ^ 18))
      (portD s f .l))
  | _ => none

/-! ### What R123, R131, R132 and R136 say of the operands' values -/

/-- A result that wraps, or with SUB[0] is the nearer end of the tag's range with SAT (R123). -/
def intClamp (t : Tag) (sat : Bool) (v : Int) : Int × FlagSet :=
  if sat = true ∧ v < intMin t then (intMin t, fSat)
  else if sat = true ∧ intMax t < v then (intMax t, fSat)
  else (v, 0)

/-- R123's table: the exact result and the flags, from the operands' mathematical values. -/
def intSpec (i : Instr) (t : Tag) (l r x : Int) : Option (Int × FlagSet) :=
  match i with
  | .add _ sat => some (intClamp t sat (l + r))
  | .sub _ sat => some (intClamp t sat (l - r))
  | .mul _ sat => some (intClamp t sat (l * r))
  | .mulh _ => some (l * r / 2 ^ tagBits t, 0)
  | .div _ => some (if r = 0 then (-1, fDivzero) else (l.tdiv r, 0))
  | .rem _ => some (if r = 0 then (l, fDivzero) else (l - r * l.tdiv r, 0))
  | .fma _ => some (l * r + x, 0)
  | .min _ => some (if l ≤ r then l else r, 0)
  | .max _ => some (if l ≤ r then r else l, 0)
  | .abs _ => some (if tagSigned t then (l.natAbs : Int) else l, 0)
  | .neg _ => some (0 - l, 0)
  | _ => none

/-- Two integers that agree modulo 2^w. -/
def agree (w : Nat) (a b : Int) : Prop := (a - b) % 2 ^ w = 0

/-- A NaN, an infinity or a zero. -/
inductive Special where
  | nan
  | inf (neg : Bool)
  | zero (neg : Bool)
  deriving DecidableEq, Repr

/-- The special value that a float value is, if it is one. -/
def specialOf : FVal → Option Special
  | .nan _ => some .nan
  | .inf n => some (.inf n)
  | .fin n m _ => if m = 0 then some (.zero n) else none

/-- R136's table where the result is a NaN, an infinity or a zero, and R135's NaN of a negative operand. -/
def specialResult (i : Instr) (v : FVal) : Option (Special × FlagSet) :=
  match i, v with
  | .sqrt _, .nan s | .rcp _, .nan s | .rsqrt _, .nan s | .exp2 _, .nan s | .log2 _, .nan s | .tanh _, .nan s =>
    some (.nan, flagIf s fInvalid)
  | .sqrt _, .inf n => some (if n then (.nan, fInvalid) else (.inf false, 0))
  | .sqrt _, .fin n m _ => if m = 0 then some (.zero n, 0) else if n then some (.nan, fInvalid) else none
  | .rcp _, .inf n => some (.zero n, 0)
  | .rcp _, .fin n m _ => if m = 0 then some (.inf n, fDivzero) else none
  | .rsqrt _, .inf n => some (if n then (.nan, fInvalid) else (.zero false, 0))
  | .rsqrt _, .fin n m _ => if m = 0 then some (.inf n, fDivzero) else if n then some (.nan, fInvalid) else none
  | .exp2 _, .inf n => some (if n then (.zero false, 0) else (.inf false, 0))
  | .log2 _, .inf n => some (if n then (.nan, fInvalid) else (.inf false, 0))
  | .log2 _, .fin n m _ => if m = 0 then some (.inf true, fDivzero) else if n then some (.nan, fInvalid) else none
  | .tanh _, .fin n m _ => if m = 0 then some (.zero n, 0) else none
  | _, _ => none

/-! ### What R69 and R126 to R129 say of float operands, from the fields of their codes -/

/-- Exponent bits and fraction bits of a Float tag (R69). -/
def floatBits : Tag → Nat × Nat
  | .fp64 => (11, 52)
  | .fp32 => (8, 23)
  | .fp16 => (5, 10)
  | .bf16 => (8, 7)
  | _ => (0, 0)

/-- The sign of a float token, its exponent and its fraction (R69). -/
def floatSigned (t : Token) : Bool := decide (tokBits t / 2 ^ ((floatBits t.tag).1 + (floatBits t.tag).2) % 2 = 1)
def floatExp (t : Token) : Nat := tokBits t / 2 ^ (floatBits t.tag).2 % 2 ^ (floatBits t.tag).1
def floatFrac (t : Token) : Nat := tokBits t % 2 ^ (floatBits t.tag).2

/-- The code of a float token without its sign: among numbers and infinities its order is that of their magnitudes. -/
def floatMag (t : Token) : Nat := floatExp t * 2 ^ (floatBits t.tag).2 + floatFrac t

/-- The IEEE order of two tokens of one Float tag, neither a NaN, is that of these numbers; −0 equals +0 (R129). -/
def floatKey (t : Token) : Int := if floatSigned t then -(floatMag t : Int) else floatMag t

/-- What kind of value a float token is. -/
inductive FKind where
  | nan (signalling : Bool)
  | inf (neg : Bool)
  | zero (neg : Bool)
  | num (neg : Bool)
  deriving DecidableEq, Repr

/-- The kind by the fields of the code: a NaN is quiet when its top fraction bit is 1 (R69, R128). -/
def kindOf (t : Token) : FKind :=
  if floatExp t = 2 ^ (floatBits t.tag).1 - 1 then
    if floatFrac t = 0 then .inf (floatSigned t) else .nan (decide (floatFrac t < 2 ^ ((floatBits t.tag).2 - 1)))
  else if floatMag t = 0 then .zero (floatSigned t)
  else .num (floatSigned t)

/-- The bit that FCLASS sets (R128). -/
def classOf (t : Token) : Nat :=
  match kindOf t with
  | .nan s => if s then 0 else 1
  | .inf n => if n then 2 else 9
  | .zero n => if n then 5 else 6
  | .num n => if floatExp t = 0 then (if n then 4 else 7) else (if n then 3 else 8)

/-- The canonical NaN of a Float tag (R69). -/
def canonNan : Tag → Nat
  | .fp64 => 0x7FF8000000000000
  | .fp32 => 0x7FC00000
  | .fp16 => 0x7E00
  | .bf16 => 0x7FC0
  | _ => 0

def FKind.flip : FKind → FKind
  | .nan s => .nan s
  | .inf n => .inf (!n)
  | .zero n => .zero (!n)
  | .num n => .num (!n)

def FKind.isNan : FKind → Bool
  | .nan _ => true
  | _ => false

def FKind.isSnan : FKind → Bool
  | .nan s => s
  | _ => false

/-- Some operand is a NaN: the result is a NaN, with INVALID where one of them signals (R69). -/
def nanOf (ks : List FKind) : FKind × FlagSet := (.nan false, flagIf (ks.any FKind.isSnan) fInvalid)

/-- A sum whose result its operands' kinds alone decide (R126). -/
def sumKind (a b : FKind) : Option (FKind × FlagSet) :=
  match a, b with
  | .nan _, _ | _, .nan _ => some (nanOf [a, b])
  | .inf x, .inf y => some (if x = y then (.inf x, 0) else (.nan false, fInvalid))
  | .inf x, _ | _, .inf x => some (.inf x, 0)
  | .zero x, .zero y => some (.zero (x && y), 0)
  | _, _ => none

/-- A product whose result its operands' kinds alone decide (R126). -/
def productKind (a b : FKind) : Option (FKind × FlagSet) :=
  match a, b with
  | .nan _, _ | _, .nan _ => some (nanOf [a, b])
  | .inf _, .zero _ | .zero _, .inf _ => some (.nan false, fInvalid)
  | .inf x, .inf y | .inf x, .num y | .num x, .inf y => some (.inf (x != y), 0)
  | .zero x, .zero y | .zero x, .num y | .num x, .zero y => some (.zero (x != y), 0)
  | .num _, .num _ => none

/-- R126 and R127 where the kinds of the operands decide the result: a NaN, an infinity or a zero, with its flags. -/
def kindResult (i : Instr) (a b c : FKind) : Option (FKind × FlagSet) :=
  match i with
  | .add _ _ => sumKind a b
  | .sub _ _ => sumKind a b.flip
  | .mul _ _ => productKind a b
  | .div _ =>
    (match a, b with
      | .nan _, _ | _, .nan _ => some (nanOf [a, b])
      | .inf _, .inf _ | .zero _, .zero _ => some (.nan false, fInvalid)
      | .inf x, .zero y | .inf x, .num y => some (.inf (x != y), 0)
      | .zero x, .inf y | .num x, .inf y | .zero x, .num y => some (.zero (x != y), 0)
      | .num x, .zero y => some (.inf (x != y), fDivzero)
      | .num _, .num _ => none)
  | .fma _ =>
    (match a, b with
      | .inf _, .zero _ | .zero _, .inf _ => some (.nan false, fInvalid)
      | _, _ =>
        if a.isNan || b.isNan || c.isNan then some (nanOf [a, b, c])
        else match productKind a b with
          | some (p, _) => sumKind p c
          | none => (match c with | .inf n => some (.inf n, 0) | _ => none))
  | .min _ | .max _ => if a.isNan || b.isNan then some (nanOf [a, b]) else none
  | .abs _ => (match a with | .nan _ => some (nanOf [a]) | .inf _ => some (.inf false, 0) | .zero _ => some (.zero false, 0) | .num _ => none)
  | .neg _ => (match a with | .num _ => none | .nan _ => some (nanOf [a]) | k => some (k.flip, 0))
  | .ldexp _ => (match a with | .num _ => none | .nan _ => some (nanOf [a]) | k => some (k, 0))
  | _ => none

/-! ### What the store-class words ask for (R120, R121, R153, R161 to R166, R176 to R207) -/

/-- A handle and an offset name a place of the width, and no spill copy of its record runs (R157, R237). -/
def localPlace (s : State) (f : Firing) (width : Nat) : Option (Nat × Nat) :=
  match resolve s (tokBits (portD s f .l)) (tokInt (portD s f .r)) width with
  | .ok _ =>
    if (portD s f .l).tag = .handle ∧ (portD s f .r).tag.isInt = true
        ∧ (match handleRec (tokBits (portD s f .l)) with | some k => spillingRec s k | none => false) = false
    then some (tokBits (portD s f .l), (tokInt (portD s f .r)).toNat) else none
  | .error _ => none

/-- A side of a copy: an address that is a multiple of 16, or a live handle with room for the bytes (R179). -/
def sideFits (s : State) (t : Token) (need : Nat) : Option Side :=
  if t.tag = .addr then (if tokBits t % 16 = 0 then some (.addr (tokBits t)) else none)
  else if t.tag = .handle then
    (match liveRec s (tokBits t) 0 with
      | .ok (_, r) => if need ≤ r.granules * 16 then some (.handle (tokBits t)) else none
      | .error _ => none)
  else none

/-- The request of a store-class word whose operands meet its checks, for the words that translate no address. -/
def requestOf (s : State) (f : Firing) (i : Instr) : Option ReqKind :=
  let l := portD s f .l
  let r := portD s f .r
  let x := portD s f .x
  let trigger := (Instr.dataPorts i).contains .l = false ∨ tagTile l.tag = false
  match i with
  | .trap imm _ => if trigger then some (.trap imm.toNat) else none
  | .bkpt imm _ => if trigger then some (.bkpt imm.toNat) else none
  | .fence sc _ _ => if trigger then some (.fence sc) else none
  | .lst fmt _ _ =>
    (localPlace s f (accessWidth fmt)).bind fun p => if x.tag = fmt ∨ x.tag = .poison then some (.lst p.1 p.2 fmt x) else none
  | .lamo _ op fmt _ _ =>
    (localPlace s f (accessWidth fmt)).bind fun p => if x.tag = fmt ∨ x.tag = .poison then some (.lamo op p.1 p.2 fmt x) else none
  | .fes _ _ =>
    (localPlace s f 16).bind fun p =>
      if x.tag.isInt = true ∧ (tokInt x = 0 ∨ tokInt x = 1) then some (.fes p.1 p.2 (decide (tokInt x = 1))) else none
  | .binit _ _ =>
    (localPlace s f 16).bind fun p =>
      if x.tag.isInt = true ∧ 1 ≤ tokInt x ∧ tokInt x ≤ 65535 then some (.binit p.1 p.2 (tokInt x).toNat) else none
  | .barr _ _ _ => (localPlace s f 16).map fun p => .barr p.1 p.2
  | .free _ =>
    if l.tag = .handle then (match ownRec s (tokBits l) with | .ok _ => some (.free (tokBits l)) | .error _ => none) else none
  | .rels _ =>
    if l.tag = .handle ∧ r.tag.isInt = true then
      (match ownRec s (tokBits l) with
        | .ok (_, y) => if 1 ≤ tokInt r ∧ tokInt r ≤ (y.granules : Int) then some (.rels (tokBits l) (tokInt r).toNat) else none
        | .error _ => none)
    else none
  | .cp _ ctx rv _ _ =>
    if x.tag.isInt = true ∧ 0 ≤ tokInt x ∧ tokInt x ≤ 4294967280 ∧ tokInt x % 16 = 0 then
      (sideFits s l (tokInt x).toNat).bind fun a => (sideFits s r (tokInt x).toNat).map fun b =>
        .engine 0 ctx.toNat (.cp a b (tokInt x).toNat rv)
    else none
  | .cpg _ ctx _ _ => if l.tag = .handle then some (.engine 1 ctx.toNat (.gather false (tokBits l))) else none
  | .cps _ ctx _ _ => if l.tag = .handle then some (.engine 1 ctx.toNat (.gather true (tokBits l))) else none
  | .pset _ reg _ _ => (sideFits s l 112).map fun a => .engine 1 0 (.pset a reg.toNat)
  | .cpp _ ctx _ _ =>
    let v := (tokInt x % 2 ^ 64).toNat
    if l.tag = .handle ∧ r.tag = .handle ∧ x.tag.isInt = true ∧ bits v 0 16 ≠ 0 ∧ bits v 19 3 ≤ 4 ∧ bits v 22 42 = 0
        ∧ (sideFits s l (bits v 0 16 * 128 * 2 ^ bits v 19 3)).isSome ∧ (sideFits s r (bits v 0 16 * 128 * 2 ^ bits v 19 3)).isSome
    then some (.engine 1 ctx.toNat (.cpp (tokBits l) (tokBits r) (bits v 0 16) (bits v 16 3) (bits v 19 3))) else none
  | .wload _ k j _ => if l.tag = .handle then some (.engine (k.toNat + 2) 0 (.wload k.toNat j.toNat (tokBits l))) else none
  | .wmma _ k j sat _ =>
    if l.tag = .handle ∧ r.tag = .handle then
      some (.engine (k.toNat + 2) 0 (.wmma k.toNat j.toNat sat (tokBits l) (tokBits r))) else none
  | .cvtt _ n _ =>
    if l.tag = .handle ∧ r.tag = .handle then some (.engine 5 0 (.cvtt (n.toNat + 1) (tokBits l) (tokBits r))) else none
  | .ref _ => if l.tag = .future then some (.ref l.val) else none
  | .drop _ => if l.tag = .future then some (.drop l.val) else none
  | .launch _ _ _ => if l.tag = .addr then some (.launch (tokBits l)) else none
  | .cancel level _ => if l.tag.isInt = true then some (.cancel level ((levelId level l).getD (2 ^ 64))) else none
  | .kvgrow _ _ _ =>
    if l.tag = .addr ∧ tokBits l % 65536 = 0 ∧ growable s (taskD s f.tid).vi (tokBits l) = true then some (.kvgrow (tokBits l)) else none
  | .syswr imm _ =>
    if l.tag.isInt = true ∨ l.tag = .addr ∨ l.tag = .time ∨ l.tag = .pred then some (.syswr imm.toNat l.val) else none
  | .prof imm _ => if l.tag.isInt = true then some (.prof imm.toNat (l.val.toNat % 2 ^ 32)) else none
  | _ => none

/-! ### What the checks of the store-class words raise (R140, R149, R157, R161 to R166, R176 to R207) -/

/-- A handle names no live record (R157). -/
def staleHandle (s : State) (h : Nat) : Prop :=
  match handleRec h with
  | none => True
  | some k => ∀ r, tget s.al.recs k = some r → r.live = false

/-- A handle names a record of the task pool, which no word frees (R176). -/
def poolHandle (s : State) (h : Nat) : Prop := ∃ k r, handleRec h = some k ∧ tget s.al.recs k = some r ∧ r.pool = true

/-- The granules of the record that a handle names. -/
def handleLength (s : State) (h : Nat) : Nat :=
  match (handleRec h).bind (tget s.al.recs) with
  | some r => r.len1 + r.len2
  | none => 0

/-- A side of a copy is an address that is no multiple of 16: `flt` is ALIGN with it. Or it is a handle of no live record: `flt` is
HANDLE_STALE (R157, R179). -/
def sideBad (s : State) (t : Token) (flt : Flt) : Prop :=
  (t.tag = .addr ∧ tokBits t % 16 ≠ 0 ∧ flt = ⟨.align, tokBits t⟩) ∨
  (t.tag = .handle ∧ staleHandle s (tokBits t) ∧ flt = ⟨.handleStale, handleForm (tokBits t) 0⟩)

/-- A side of a copy is a handle whose allocation has no room for the bytes: HANDLE_BOUND (R179). -/
def sideShortOf (s : State) (t : Token) (need : Nat) (flt : Flt) : Prop :=
  t.tag = .handle ∧ handleLength s (tokBits t) * 16 < need ∧ flt = ⟨.handleBound, handleForm (tokBits t) 0⟩

/-- The first that fails among the checks of two sides: alignment or liveness of each, then the room of each. -/
def sidesFail (s : State) (a b : Token) (need : Nat) (flt : Flt) : Prop :=
  let ok := fun (t : Token) => ∀ e, ¬ sideBad s t e
  sideBad s a flt ∨ (ok a ∧ sideBad s b flt) ∨ (ok a ∧ ok b ∧ sideShortOf s a need flt) ∨
    (ok a ∧ ok b ∧ (∀ e, ¬ sideShortOf s a need e) ∧ sideShortOf s b need flt)

/-- The fault of the checks that a store-class word makes when it fires; those of its global address or of its handle and
offset stand in AddressWordsRequest and LocalChecks. -/
def CheckFails (s : State) (f : Firing) (i : Instr) (flt : Flt) : Prop :=
  let l := portD s f .l
  let r := portD s f .r
  let x := portD s f .x
  let format := flt = ⟨.format, 0⟩
  let stale := fun (t : Token) => flt = ⟨.handleStale, handleForm (tokBits t) 0⟩
  let side := fun (t : Token) => t.tag = .addr ∨ t.tag = .handle
  match i with
  | .trap _ _ | .bkpt _ _ | .fence _ _ _ => (Instr.dataPorts i).contains .l = true ∧ tagTile l.tag = true ∧ format
  | .lst fmt _ _ | .lamo _ _ fmt _ _ => x.tag ≠ fmt ∧ x.tag ≠ .poison ∧ format
  | .fes _ _ => (x.tag.isInt = false ∨ (tokInt x ≠ 0 ∧ tokInt x ≠ 1)) ∧ format
  | .binit _ _ => (x.tag.isInt = false ∨ tokInt x < 1 ∨ 65535 < tokInt x) ∧ format
  | .free _ => (l.tag ≠ .handle ∧ format) ∨ (l.tag = .handle ∧ (staleHandle s (tokBits l) ∨ poolHandle s (tokBits l)) ∧ stale l)
  | .rels _ =>
    let tags := l.tag = .handle ∧ r.tag.isInt = true
    let gone := staleHandle s (tokBits l) ∨ poolHandle s (tokBits l)
    (¬ tags ∧ format) ∨ (tags ∧ gone ∧ stale l) ∨ (tags ∧ ¬ gone ∧ tokInt r < 1 ∧ format) ∨
      (tags ∧ ¬ gone ∧ (handleLength s (tokBits l) : Int) < tokInt r ∧ 1 ≤ tokInt r ∧ flt = ⟨.handleBound, handleForm (tokBits l) 0⟩)
  | .cp _ _ _ _ _ =>
    let ok := side l ∧ side r ∧ x.tag.isInt = true ∧ 0 ≤ tokInt x ∧ tokInt x ≤ 4294967280 ∧ tokInt x % 16 = 0
    (¬ ok ∧ format) ∨ (ok ∧ sidesFail s l r (tokInt x).toNat flt)
  | .cpg _ _ _ _ | .cps _ _ _ _ | .wload _ _ _ _ => l.tag ≠ .handle ∧ format
  | .pset _ _ _ _ =>
    (¬ side l ∧ format) ∨ (side l ∧ (sideBad s l flt ∨ ((∀ e, ¬ sideBad s l e) ∧ sideShortOf s l 112 flt)))
  | .cpp _ _ _ _ =>
    let v := (tokInt x % 2 ^ 64).toNat
    let ok := l.tag = .handle ∧ r.tag = .handle ∧ x.tag.isInt = true ∧ v % 2 ^ 16 ≠ 0 ∧ v / 2 ^ 19 % 2 ^ 3 ≤ 4 ∧ v / 2 ^ 22 = 0
    (¬ ok ∧ format) ∨ (ok ∧ sidesFail s l r (v % 2 ^ 16 * 128 * 2 ^ (v / 2 ^ 19 % 2 ^ 3)) flt)
  | .wmma _ _ _ _ _ | .cvtt _ _ _ => (l.tag ≠ .handle ∨ r.tag ≠ .handle) ∧ format
  | .ref _ | .drop _ => l.tag ≠ .future ∧ format
  | .launch _ _ _ => l.tag ≠ .addr ∧ format
  | .cancel _ _ | .prof _ _ => l.tag.isInt = false ∧ format
  | .kvgrow _ _ _ =>
    let va := tokBits l
    (l.tag ≠ .addr ∧ format) ∨ (l.tag = .addr ∧ va % 65536 ≠ 0 ∧ flt = ⟨.align, va⟩) ∨
      (l.tag = .addr ∧ va % 65536 = 0 ∧ growable s (taskD s f.tid).vi va = false ∧ flt = ⟨.prot, va⟩)
  | .syswr _ _ => l.tag.isInt = false ∧ l.tag ≠ .addr ∧ l.tag ≠ .time ∧ l.tag ≠ .pred ∧ format
  | _ => False

/-! ### Invariants -/

/-- The maps of the state stand in canonical form: keys strictly rising, and in the byte memories and the granules no entry
that an unlisted key reads as. -/
structure Canonical (s : State) : Prop where
  hbm : Memory.wf s.gm.hbm = true
  bytes : Memory.wf s.ls.bytes = true
  granules : twf 0 s.ls.gst = true
  granules1 : twf 0 s.ls.gst1 = true
  granules2 : twf 0 s.ls.gst2 = true
  insts : tsorted none s.wk.insts = true
  tasks : tsorted none s.wk.tasks = true
  regs : ∀ e ∈ s.wk.tasks, tsorted none e.2.regs = true
  cooling : tsorted none s.wk.cooling = true
  recs : tsorted none s.al.recs = true
  ctxs : tsorted none s.en.ctxs = true
  leaves : tsorted none s.en.leaves = true
  slots : tsorted none s.cf.slots = true
  jobs : tsorted none s.jb.jobs = true
  launches : tsorted none s.jb.launches = true
  ticks : tsorted none s.tm.ticks = true
  streams : tsorted none s.tm.streams = true
  ovp : tsorted none s.sr.ovp = true
  viCtl : tsorted none s.sr.viCtl = true
  badnode : tsorted none s.sr.badnode = true
  flashBad : tsorted none s.bt.flashBad = true
  perfSel : tsorted none s.sr.perfSel = true
  perfCnt : tsorted none s.sr.perfCnt = true
  trigger : tsorted none s.sr.trigger = true
  streamSel : tsorted none s.sr.streamSel = true
  mailbox : tsorted none s.fw.mailbox = true
  grants : tsorted none s.fw.grants = true
  active : tsorted none s.sh.active = true
  saved : tsorted none s.sh.saved = true
  throttle : tsorted none s.bt.throttle = true
  tlb : tsorted none s.gm.tlb = true
  scrub : tsorted none s.ls.scrub = true
  upset : tsorted none s.ls.upset = true

/-! ### Access at the homes (R225, R270, R279) -/

/-- An access of this device's memory within one line, which may perform now: its line is present, and nothing before it of
its task is left. -/
structure AtHome (s : State) (tid seq after pa width : Nat) : Prop where
  line : (tget s.gm.lines (pa / 128)).isSome = true
  within : 0 < width ∧ pa % 128 + width ≤ 128
  earlier : performedBelow s tid after = true
  own : ownEarlier s tid seq 0 pa width = false

/-- The lines of a task's write set are present (R288). -/
def TrackedHere (s : State) (tid : Nat) : Prop :=
  ∀ k ∈ (taskD s tid).writes, k % 2 = 1 → (tget s.gm.lines (k / 4)).isSome = true

/-- Every byte of HBM, and every byte of global memory outside a range, is as it was; so is local store. -/
structure GlobalFrame (s u : State) (pa n : Nat) : Prop where
  hbm : ∀ a, byteAt u.gm.hbm a = byteAt s.gm.hbm a
  global : ∀ a, a < pa ∨ pa + n ≤ a → paByte u.gm a = paByte s.gm a
  store : ∀ a, byteAt u.ls.bytes a = byteAt s.ls.bytes a

/-! ### Commits -/

/-- What the WRITEs of a block leave in a register: the token of the highest WID that produced one (R109). -/
def lastWrite (s : State) (x : Inst) (r : Nat) : Option Token :=
  (writesOf (blockSlots s x) r).findSome? fun w => tget x.wrote w.1

/-- An instance whose block commits now, with no fault (R14, R16, R141). -/
structure Commits (s : State) (tid iter : Nat) (t : Task) (x : Inst) : Prop where
  task : taskAt s tid = some t
  inst : instAt s tid iter = some x
  tidEq : x.tid = tid
  iterEq : x.iter = iter
  due : commitDue s t x = true
  sound : commitFault s t x = none

/-- A block outside a loop with one store-class word, which goes on to another block, and of which nothing else waits. -/
structure Alone (s : State) (tid iter : Nat) (t : Task) (x : Inst) (r : Request) : Prop extends Commits s tid iter t x where
  one : x.requests = [r]
  plain : t.loop = none
  branch : ∃ va, x.branch = some (.goto va false)
  refs : x.refs = []
  births : ∀ b ∈ s.wk.births, ofInst tid iter b.f = false
  asks : ∀ e ∈ s.al.arenas, ∀ r ∈ e.2.waiting, askedBy (ofInst tid iter) r = false
  frames : ∀ e ∈ s.wk.toks, inFrame e.place = true → e.msg.tid = tid → e.msg.iter ≠ iter

/-- The one word is one with an LSID. -/
def OneEffect (s : State) (tid iter : Nat) (t : Task) (x : Inst) (k : ReqKind) (ret : Option Nat) : Prop :=
  ∃ slot lsid, Alone s tid iter t x ⟨slot, some lsid, ret, k⟩

/-- A granule of the carve-out that holds a register or a spilled token of its task (R221). -/
def ownGranule (s : State) (t : Task) (g : Nat) : Prop := ∃ j, j < 52 ∧ carveGranule s t j = some (.here g)

/-- A byte of local store that holds no register and no spilled token of the task. -/
def outsideOwn (s : State) (t : Task) (a : Nat) : Prop := ¬ ownGranule s t (a / 16)

/-- The commit of an instance writes no register: it has no WRITE that took a token, no flag, and no POISON for a value that
returns. -/
def WritesNoRegister (s : State) (x : Inst) : Prop :=
  x.wrote = [] ∧ x.flags = 0 ∧ ∀ k r, retWrite s x k ≠ some (r, true)

/-- The lines of the write sets that a SPAWN is still to publish are present (R274, R288). -/
def StartsTracked (s : State) : Prop := ∀ w ∈ s.wk.rels, TrackedHere s w.tid

/-! ### Accesses of the parts themselves (R225, R355, R356) -/

/-- The lines that a walk of an address reads, and the line of its page's byte, are present: no line is filled for it. -/
def Present (s : State) (vi va : Nat) : Prop :=
  (∀ p ∈ (walk s vi va).2, (tget s.gm.lines (p / 128)).isSome = true) ∧
  ∀ t, (walk s vi va).1 = .leaf t → eRdev t.entry.toNat = 0 → (tget s.gm.lines (pagePa t va / 128)).isSome = true

/-- The pages of a graph's save area are present (R300). -/
def PagesPresent (s : State) (gk : Nat) (g : Graph) : Prop :=
  ∀ i ∈ graphSlots s gk, ∀ va, pageBase s g i ≤ va → va < pageBase s g i + 4096 → Present s g.vi va

/-! ### Engines -/

/-- The head of a context is a command that runs, held on no page. -/
def Runs (s : State) (k : Nat) (c : Cmd) : Prop := running s k = some c ∧ engineHeld s k = false

/-- A granule of local store that holds a register or a spilled token of the command's own task. -/
def cmdOwn (s : State) (c : Cmd) (g : Nat) : Prop :=
  ∃ tid t, cmdTask s c = some tid ∧ taskAt s tid = some t ∧ ownGranule s t g

/-- A granule of a handle that lies in local store, and is FULL and not poisoned: a read of it gives these bytes (R172). -/
structure Reads (s : State) (c : Cmd) (h off : Nat) (g : Nat) (b : List Byte) : Prop where
  place : cmdGranule s c h (off / 16) = some (.here g)
  full : gState s.ls g = 1
  clean : gPoison s.ls g = false
  bytes : b = granuleAt s.ls g

/-- Every one of these reads gives its bytes, and no code word of local store is upset (R219). -/
def Readable (s : State) (c : Cmd) (rs : List (Side × Nat)) : Prop :=
  s.ls.upset = [] ∧ ∀ e ∈ rs, ∃ h g b, e.1 = .handle h ∧ Reads s c h e.2 g b

/-- A command but for the lines of global memory that it last asked for (R263). -/
def butLines (x c : Cmd) : Prop := { x with lines := c.lines } = c

/-- A side at an offset whose accesses fill no line; a granule of a spilled record lies in global memory (R223). -/
def SidePresent (s : State) (c : Cmd) (side : Side) (off : Nat) : Prop :=
  match side with
  | .addr a => Present s c.origin.vi ((a + off) % 2 ^ 52)
  | .handle h => ∀ vi d st, cmdGranule s c h (off / 16) = some (.copy vi d st) → Present s vi d ∧ Present s vi st

/-- Reads of a command that fill no line. -/
def ReadsPresent (s : State) (c : Cmd) (rs : List (Side × Nat)) : Prop := ∀ e ∈ rs, SidePresent s c e.1 e.2

/-- A side that takes a write of 16 bytes at an offset: a granule in local store that is no barrier, or bytes of this device's
memory that may be written. -/
def SideOpen (s : State) (c : Cmd) (side : Side) (off : Nat) : Prop :=
  match side with
  | .handle h => ∃ g, cmdGranule s c h (off / 16) = some (.here g) ∧ gState s.ls g ≠ 2
  | .addr a => SidePresent s c side off ∧
    ∃ pa ck, devXlat s c.origin.vi ((a + off) % 2 ^ 52) .write = .hit pa 0 ck ∧ pa % 16 = 0

/-- Afterwards a side holds these 16 bytes at an offset, with this poison: a granule is FULL, a line keeps its poison bit or has
it set; no other byte of local store, or of global memory, is changed by the write. -/
def SideHolds (s u : State) (c : Cmd) (side : Side) (off : Nat) (b : List Byte) (p : Bool) : Prop :=
  match side with
  | .handle h => ∀ g, cmdGranule s c h (off / 16) = some (.here g) →
    granuleAt u.ls g = b ∧ gState u.ls g = 1 ∧ gPoison u.ls g = p ∧
    ∀ a, a < granuleByte g ∨ granuleByte g + 16 ≤ a → byteAt u.ls.bytes a = byteAt s.ls.bytes a
  | .addr a => ∀ pa ck, devXlat s c.origin.vi ((a + off) % 2 ^ 52) .write = .hit pa 0 ck →
    paBytes u.gm pa 16 = b ∧ (p = true → (lineAt u.gm (pa / 128)).poison = true) ∧ GlobalFrame s u pa 16

/-- What reads of a command find now: the granules as numbers, with their poison. -/
def fetched (s : State) (c : Cmd) (rs : List (Side × Nat)) : List (Nat × Bool) :=
  rs.map fun r => match fetch16 s c r.1 r.2 with
    | .bytes b p => (natOfBytes b, p)
    | _ => (0, false)

/-- These granules of a handle lie at different places of local store and are no barriers. -/
def Writable (s : State) (c : Cmd) (h : Nat) (js : List Nat) : Prop :=
  (∀ j ∈ js, ∃ g, cmdGranule s c h j = some (.here g) ∧ gState s.ls g ≠ 2) ∧
  ∀ i ∈ js, ∀ j ∈ js, i ≠ j → cmdGranule s c h i ≠ cmdGranule s c h j

/-- Granule `j` of a handle, which holds no register of the command's task, is FULL with this number and this poison. -/
def Filled (s u : State) (c : Cmd) (h j v : Nat) (p : Bool) : Prop :=
  ∀ g, cmdGranule s c h j = some (.here g) → ¬ cmdOwn s c g →
    granuleAt u.ls g = bytesOf 16 v ∧ gState u.ls g = 1 ∧ gPoison u.ls g = p

/-- The flags of a command have gone to its task (R81, R192). -/
def FlagsGo (s u : State) (c : Cmd) (fl : FlagSet) : Prop :=
  ∀ tid, cmdTask s c = some tid → (taskD u tid).regs = (orFlags (taskD s tid) fl).regs

/-- The local-store bytes that lie in these granules of a handle. -/
def inGranules (s : State) (c : Cmd) (h : Nat) (js : List Nat) (a : Nat) : Prop :=
  ∃ j ∈ js, ∃ g, cmdGranule s c h j = some (.here g) ∧ granuleByte g ≤ a ∧ a < granuleByte g + 16

/-- Every byte of local store is as it was but in these granules of a handle, and in the granules that hold the registers of
the command's task, which takes its flags. -/
def OnlyIn (s u : State) (c : Cmd) (h : Nat) (js : List Nat) : Prop :=
  ∀ a, ¬ inGranules s c h js a → ¬ cmdOwn s c (a / 16) → byteAt u.ls.bytes a = byteAt s.ls.bytes a

/-- The row whose turn it is in a WMMA may be taken: there is one, no shutter holds it, the pipeline has room, and all that it
reads is there (R190, R191). -/
def TakesRow (s : State) (k : Nat) (c : Cmd) (a acc : Nat) : Prop :=
  c.row < c.rows ∧ wmmaHeld s k c = false ∧ c.taken.length < pipeRows c.planes ∧
  readsReady s c (wmmaReads a acc c.rows c.planes c.row) = true

end Sys2Proof.Machine
end

