-- ==== Sys2Proof/Certificates/Slice0/Obligations.lean ====
section
/-! DEFINITION. The statements about the Q4. Each docstring names the rule it formalises. -/

section

open Sys2Proof Sys2Proof.Machine

/-! ### Encoding (R87 to R97) -/

/-- R87 to R97: every well-formed instruction word has an encoding, and decoding it gives the instruction back with every
operand. -/
def Obligations.DecodeEncode : Prop :=
  ∀ i : Instr, i.wf = true → Instr.cls i ≠ .event → ∃ w : Word, encode i = some w ∧ decode w = .ok i

/-- R88: a word that is an instruction holds in every zero bit, unused SUB bit and unused target the value given for it: it
is the one word that the instruction encodes to. -/
def Obligations.DecodedIsEncoded : Prop :=
  ∀ (w : Word) (i : Instr), decode w = .ok i → encode i = some w

/-- The worked encodings of 05 and 06: some words decode to the instructions that they stand for, and some words that R88,
R90 and R97 exclude decode to none. -/
def Obligations.DecodeSanity : Prop :=
  decode 0x007FD804#32 = .ok (.movi ⟨some ⟨0#7, .l⟩, 0xFFB#12, .same, .always⟩) ∧
  decode 0x067FC910#32 = .ok (.add ⟨some ⟨3#7, .l⟩, none, .same, .onTrue⟩ true) ∧
  decode 0x00001382#32 = .ok (.write 0#5 9#6 .onFalse) ∧
  decode 0x064B8240#32 = .ok (.ld ⟨some ⟨3#7, .l⟩, .ordered .die, .fp32, 1#5, .always⟩) ∧
  decode 0x0A114450#32 = .ok (.lld (some ⟨5#7, .l⟩) .take .i32 2#5 .always) ∧
  decode 0x12018252#32 = .ok (.lamo (some ⟨9#7, .l⟩) .add .n32 1#5 .always) ∧
  decode 0x127FD03A#32 = .ok (.red ⟨some ⟨9#7, .l⟩, none, .same, .always⟩ .max) ∧
  decode 0x00000000#32 = .error (.opcode 0) ∧
  decode 0x067FC890#32 = .error .pm ∧
  decode 0x067FD803#32 = .error .reserved

/-! ### The step -/

/-- R12, R13, R102: while words lie on the lanes, a step runs the first: the word of its slot, decoded, is executed in the
same state. A word that decodes to no instruction raises ILLEGAL_OP at its slot. -/
def Obligations.StepRunsWord : Prop :=
  ∀ (s : State) (f : Firing) (rest : List Firing) (w : Word) (i : Instr),
    runs s = true → s.wk.issue = f :: rest → wordAt s f.tid f.block f.slot = some w →
    (decode w = .ok i → step s = exec i s) ∧
    (∀ e x, decode w = .error e → instAt s f.tid f.iter = some x → x.block = f.block →
      step s = .next (raiseAt (popLane s) f ⟨.illegalOp, 0⟩))

/-- With empty lanes a step takes one of the acts that are possible: an input or a message is removed from its queue and
executed, an event is executed, an engine moves, a word that waits for the order looks again, an attempt that stands over is
made, a SPAWN of another device that waits goes on, or a cycle passes; the counter of the choices goes on. (The choice is the
model's free value, log 1; the standing attempts are log 87's.) -/
def Obligations.StepTakesChoice : Prop :=
  ∀ s : State, runs s = true → s.wk.issue = [] → (∀ x t, s.inp = x :: t → taken s x = true) →
    let c : State := { s with nd := s.nd + 1 }
    (∀ i, chosen s = .input i → step s = exec i { c with inp := s.inp.tail }) ∧
    (∀ i, chosen s = .message i → step s = exec i { c with net := lerase s.net i }) ∧
    (∀ i, chosen s = .event i → step s = exec i c) ∧
    (∀ k, chosen s = .move k → step s = .next (engineMove c k)) ∧
    (∀ w, chosen s = .retry w → step s = .next (wake c w)) ∧
    (∀ k, chosen s = .attempt k → step s = .next (attemptDue c k)) ∧
    (∀ n, chosen s = .remote n → step s = .next (remoteGo c n)) ∧
    (chosen s = .pass → step s = .next (passCycle c))

/-- R321, R322, R326 (log 8): a part that does not run takes only a RESET, and after a failed start a read of the start log, by a
port that has not been left down; another input is dropped, and with none it has stopped. -/
def Obligations.StoppedPart : Prop :=
  ∀ s : State, runs s = false →
    (s.inp = [] → step s = .fault .moduleStopped) ∧
    (∀ p outs t, routed s ⟨p, .reset outs⟩ = true → s.inp = ⟨p, .reset outs⟩ :: t →
      step s = exec (.reset outs) { s with inp := t }) ∧
    (∀ p t, routed s ⟨p, .startLogRead⟩ = true → s.bt.stopped = false → s.inp = ⟨p, .startLogRead⟩ :: t →
      step s = exec .startLogRead { s with inp := t }) ∧
    (∀ x t, s.inp = x :: t → stoppedTakes s x.act = false ∨ routed s x = false → step s = .next { s with inp := t })

/-- R217, R250, R306 and the reset columns of 08 to 12: memory and local store hold zero, every granule is EMPTY, device
time starts at zero, every system register reads zero but VI_ID, which shows the reading task, and CAPS, which is constant
(R212, R213); no task, token, allocation, launch, graph, phase or job is there, and no command context has a command. (The values
that no rule gives are the model's choice: logs 6, 7, 8.) -/
def Obligations.ResetState : Prop :=
  (∀ a, paByte State.reset.gm a = 0) ∧ (∀ a, byteAt State.reset.ls.bytes a = 0) ∧
  (∀ g, gstAt State.reset.ls g = 0) ∧
  (∀ die, dieTimeNs State.reset die = 0) ∧
  (∀ pane q, bindRec State.reset pane q = 0) ∧ (∀ pane q, ovpReg State.reset pane q = 0) ∧
  (∀ v, tgetD State.reset.sr.viCtl v 0 = 0) ∧ (∀ die, tgetD State.reset.sr.trigger die 0 = 0) ∧
  (∀ k, tgetD State.reset.sr.perfCnt k 0 = 0) ∧ (∀ k, tgetD State.reset.sr.faultInfo k 0 = 0) ∧
  (∀ tid, taskAt State.reset tid = none) ∧ (∀ tid iter, instAt State.reset tid iter = none) ∧
  (∀ k, ctxAt State.reset k = {}) ∧ (∀ die, (tgetD State.reset.wk.pools die {}).next = 0) ∧
  State.reset.wk.toks = [] ∧ State.reset.wk.issue = [] ∧ State.reset.net = [] ∧
  (∀ pane viId n, n ≠ 0x000 → n ≠ 0x001 → sysReg State.reset pane viId n = 0) ∧
  State.reset.al.recs = [] ∧ State.reset.jb.launches = [] ∧ State.reset.cf.graphs = [] ∧
  State.reset.jb.phases = [] ∧ State.reset.jb.jobs = []

/-! ### Value words (05) -/

/-- R13, R65, R103, R104, R105: a value word whose operands are there and whose predicate matches sends its result to both
targets, marks its slot fired with its flags, and changes nothing else of the state. For every value word but READ, SEL and
RED, which have statements of their own. -/
def Obligations.ValueWordSends : Prop :=
  ∀ (s : State) (f : Firing) (i : Instr) (a b : Token) (fl : FlagSet),
    Fires s f i → valueOf s f i = some (.send a b fl) → exec i s = .next (sent s f i a b fl)

/-- R65, R90, R104: a value word that meets POISON on any port it reads sends POISON to both targets; one that meets no
POISON but NULL, or a predicate that does not match, sends NULL; no flag is set, and nothing else changes. R66, R90, R104:
a predicated value word whose P carries another tag than PRED raises FORMAT at its slot, and so does a value word whose
operands carry tags that its table does not list. -/
def Obligations.ValueWordAbsorbsOrFaults : Prop :=
  (∀ (s : State) (f : Firing) (i : Instr), OnLane s f i → (valueOf s f i).isSome →
    (MeetsPoison s f i → exec i s = .next (sent s f i poisonTok poisonTok 0)) ∧
    (MeetsNull s f i → exec i s = .next (sent s f i nullTok nullTok 0)) ∧
    (Clean s f i → Mismatches s f i → exec i s = .next (sent s f i nullTok nullTok 0)) ∧
    (Clean s f i → Instr.predicate i ≠ .always → (portD s f .p).tag ≠ .pred → (portD s f .p).tag ≠ .null →
      (portD s f .p).tag ≠ .poison → exec i s = .next (raiseAt (popLane s) f ⟨.format, 0⟩))) ∧
  (∀ (s : State) (f : Firing) (i : Instr), Fires s f i → valueOf s f i = some .format →
    exec i s = .next (raiseAt (popLane s) f ⟨.format, 0⟩))

/-- R110, R111, R112: MOV sends the L token unchanged, whatever its tag; MOVI sends the sign-extended immediate with tag
I32; NUL sends NULL, and POISON for a POISON trigger. R114, R115: RETAG sends the payload bits that the new tag uses
under the new tag, whatever FMT is, and refuses FUTURE for another tag; TAGOF sends the iteration of its instance as
I32. R113: SEL reads both data operands and P. POISON on any of the three gives POISON, else NULL on any gives NULL,
else a P that is no PRED (or a tile tag, R66) raises FORMAT, else P chooses L or R with its tag. -/
def Obligations.MoveAndSelectWords : Prop :=
  ((∀ (s : State) (f : Firing),
    (∀ g, Fires s f (.mov g) → exec (.mov g) s = .next (sent s f (.mov g) (portD s f .l) (portD s f .l) 0)) ∧
    (∀ i, Fires s f (.movi i) → tagTile (portD s f .l).tag = false →
      ∃ v, exec (.movi i) s = .next (sent s f (.movi i) v v 0) ∧ v.tag = .i32 ∧ tokInt v = i.imm.toInt) ∧
    (∀ g, Fires s f (.nul g) → tagTile (portD s f .l).tag = false →
      exec (.nul g) s = .next (sent s f (.nul g) nullTok nullTok 0)) ∧
    (∀ g, OnLane s f (.nul g) → (portD s f .l).tag = .poison →
      exec (.nul g) s = .next (sent s f (.nul g) poisonTok poisonTok 0))) ∧
  (∀ (s : State) (f : Firing),
    (∀ c, Fires s f (.retag c) → tagTile (portD s f .l).tag = false → (c.fmt = .future → (portD s f .l).tag = .future) →
      ∃ v, exec (.retag c) s = .next (sent s f (.retag c) v v 0) ∧ v.tag = c.fmt ∧
        v.val.toNat % 2 ^ tagBits c.fmt = (portD s f .l).val.toNat % 2 ^ tagBits c.fmt ∧
        (tagSigned c.fmt = false → v.val.toNat < 2 ^ tagBits c.fmt)) ∧
    (∀ c, Fires s f (.retag c) → c.fmt = .future → (portD s f .l).tag ≠ .future →
      exec (.retag c) s = .next (raiseAt (popLane s) f ⟨.format, 0⟩)) ∧
    (∀ g, Fires s f (.tagof g) → tagTile (portD s f .l).tag = false → f.iter < 65536 →
      ∃ v, exec (.tagof g) s = .next (sent s f (.tagof g) v v 0) ∧ v.tag = .i32 ∧ tokInt v = f.iter))) ∧
  (∀ (s : State) (f : Firing) (t0 t1 : Tgt) (ta : TA), OnLane s f (.sel t0 t1 ta) →
    let i : Instr := .sel t0 t1 ta
    (MeetsPoison s f i → exec i s = .next (sent s f i poisonTok poisonTok 0)) ∧
    (MeetsNull s f i → exec i s = .next (sent s f i nullTok nullTok 0)) ∧
    (¬ MeetsPoison s f i → ¬ MeetsNull s f i →
      (portD s f .p).tag ≠ .pred ∨ tagTile (portD s f .l).tag = true ∨ tagTile (portD s f .r).tag = true →
      exec i s = .next (raiseAt (popLane s) f ⟨.format, 0⟩)) ∧
    (¬ MeetsPoison s f i → ¬ MeetsNull s f i → (portD s f .p).tag = .pred →
      tagTile (portD s f .l).tag = false → tagTile (portD s f .r).tag = false →
      exec i s = .next (if tokTrue (portD s f .p) then sent s f i (portD s f .l) (portD s f .l) 0
        else sent s f i (portD s f .r) (portD s f .r) 0)))

/-- R123: for every integer tag, ADD, SUB, MUL, MULH, DIV, REM, FMA, MIN, MAX, ABS and NEG send the operand's tag with the
exact result modulo 2^w (or saturated, with SAT), and set the flags of the table: no integer word faults for its value. -/
def Obligations.IntegerArithmetic : Prop :=
  ∀ (s : State) (f : Firing) (i : Instr) (t : Tag) (v : Int) (fl : FlagSet),
    Fires s f i → t.isInt = true → (∀ q ∈ Instr.dataPorts i, (portD s f q).tag = t) →
    intSpec i t (tokInt (portD s f .l)) (tokInt (portD s f .r)) (tokInt (portD s f .x)) = some (v, fl) →
    ∃ tok, exec i s = .next (sent s f i tok tok fl) ∧ tok.tag = t ∧ agree (tagBits t) (tokInt tok) v

/-- R124: ADDI and MULI wrap in the tag of L; ADDI on ADDR adds bytes modulo 2^52, on TIME nanoseconds; a float L raises
FORMAT, and so do ADDR and TIME on MULI. R125, R307: ADDR with I32 or I64 wraps modulo 2^52 with no flag, in either order
for ADD and as the first operand for SUB; TIME with I64 nanoseconds, in either order for ADD and as the first operand for SUB,
gives TIME, normalised; TIME less TIME gives I64 nanoseconds; any other combination with ADDR or TIME raises FORMAT. -/
def Obligations.ImmediateAndAddressArithmetic : Prop :=
  (∀ (s : State) (f : Firing) (i : IF),
    let t := (portD s f .l).tag
    let l := tokInt (portD s f .l)
    (Fires s f (.addi i) → t.isInt = true → ∃ tok, exec (.addi i) s = .next (sent s f (.addi i) tok tok 0) ∧
      tok.tag = t ∧ agree (tagBits t) (tokInt tok) (l + i.imm.toInt)) ∧
    (Fires s f (.muli i) → t.isInt = true → ∃ tok, exec (.muli i) s = .next (sent s f (.muli i) tok tok 0) ∧
      tok.tag = t ∧ agree (tagBits t) (tokInt tok) (l * i.imm.toInt)) ∧
    (Fires s f (.addi i) → t = .addr → ∃ tok, exec (.addi i) s = .next (sent s f (.addi i) tok tok 0) ∧
      tok.tag = .addr ∧ agree 52 (tokBits tok) (tokBits (portD s f .l) + i.imm.toInt)) ∧
    (Fires s f (.addi i) → t = .time → exec (.addi i) s =
      .next (sent s f (.addi i) ⟨.time, timeOfNs (timeNs (portD s f .l).val + i.imm.toInt)⟩
        ⟨.time, timeOfNs (timeNs (portD s f .l).val + i.imm.toInt)⟩ 0)) ∧
    (Fires s f (.addi i) → tagFloat t = true → exec (.addi i) s = .next (raiseAt (popLane s) f ⟨.format, 0⟩)) ∧
    (Fires s f (.muli i) → tagFloat t = true ∨ t = .addr ∨ t = .time →
      exec (.muli i) s = .next (raiseAt (popLane s) f ⟨.format, 0⟩))) ∧
  (∀ (s : State) (f : Firing) (g : GF) (sat : Bool),
    let l := portD s f .l
    let r := portD s f .r
    let special := fun (t : Token) => t.tag = .addr ∨ t.tag = .time
    let offset := fun (t : Token) => t.tag = .i32 ∨ t.tag = .i64
    let nanos := fun (t : Token) => ((t.val.toNat / 2 ^ 32 * 10 ^ 9 + t.val.toNat % 2 ^ 32 : Nat) : Int)
    let gives := fun (i : Instr) (v : Int) => ∃ tok, exec i s = .next (sent s f i tok tok 0) ∧ tok.tag = .time ∧
      ((tok.val.toNat / 2 ^ 32 : Nat) : Int) = v / 10 ^ 9 % 2 ^ 32 ∧ ((tok.val.toNat % 2 ^ 32 : Nat) : Int) = v % 10 ^ 9
    (Fires s f (.add g sat) → l.tag = .addr → r.tag = .i32 ∨ r.tag = .i64 →
      ∃ tok, exec (.add g sat) s = .next (sent s f (.add g sat) tok tok 0) ∧ tok.tag = .addr ∧
        agree 52 (tokBits tok) (tokBits l + tokInt r)) ∧
    (Fires s f (.add g sat) → r.tag = .addr → l.tag = .i32 ∨ l.tag = .i64 →
      ∃ tok, exec (.add g sat) s = .next (sent s f (.add g sat) tok tok 0) ∧ tok.tag = .addr ∧
        agree 52 (tokBits tok) (tokBits r + tokInt l)) ∧
    (Fires s f (.sub g sat) → l.tag = .addr → r.tag = .i32 ∨ r.tag = .i64 →
      ∃ tok, exec (.sub g sat) s = .next (sent s f (.sub g sat) tok tok 0) ∧ tok.tag = .addr ∧
        agree 52 (tokBits tok) (tokBits l - tokInt r)) ∧
    (Fires s f (.sub g sat) → l.tag = .time → r.tag = .time →
      ∃ tok, exec (.sub g sat) s = .next (sent s f (.sub g sat) tok tok 0) ∧ tok.tag = .i64 ∧
        agree 64 (tokInt tok) (timeDiff l.val r.val)) ∧
    (Fires s f (.add g sat) → l.tag = .time → r.tag = .i64 → gives (.add g sat) (nanos l + tokInt r)) ∧
    (Fires s f (.add g sat) → r.tag = .time → l.tag = .i64 → gives (.add g sat) (nanos r + tokInt l)) ∧
    (Fires s f (.sub g sat) → l.tag = .time → r.tag = .i64 → gives (.sub g sat) (nanos l - tokInt r)) ∧
    (Fires s f (.add g sat) → special l ∨ special r →
      ¬ (l.tag = .addr ∧ offset r) → ¬ (r.tag = .addr ∧ offset l) → ¬ (l.tag = .time ∧ r.tag = .i64) →
      ¬ (r.tag = .time ∧ l.tag = .i64) → exec (.add g sat) s = .next (raiseAt (popLane s) f ⟨.format, 0⟩)) ∧
    (Fires s f (.sub g sat) → special l ∨ special r →
      ¬ (l.tag = .addr ∧ offset r) → ¬ (l.tag = .time ∧ (r.tag = .i64 ∨ r.tag = .time)) →
      exec (.sub g sat) s = .next (raiseAt (popLane s) f ⟨.format, 0⟩)))

/-- R129, R130: the tests send PRED. TST compares integers as their tag orders them, ADDR and TIME as unsigned payloads, floats
in IEEE order, in which −0 equals +0; with a NaN only NE and UN are true, and INVALID is set for a signalling one; another
pair of tags raises FORMAT. TEQI and TLTI compare L's value with the sign-extended immediate, which is not reduced into L's width. R131: AND, OR,
XOR and NOT act bitwise within the width of an Int tag or PRED; the immediate forms take the immediate sign-extended
and reduced modulo 2^w, and refuse PRED. -/
def Obligations.TestAndLogicWords : Prop :=
  (∀ (s : State) (f : Firing),
    let l := portD s f .l
    let r := portD s f .r
    let orders := fun (cc : Cmp) (b : Bool) (x y : Int) =>
      (cc = .eq → (b = true ↔ x = y)) ∧ (cc = .ne → (b = true ↔ x ≠ y)) ∧
      (cc = .lt → (b = true ↔ x < y)) ∧ (cc = .le → (b = true ↔ x ≤ y)) ∧
      (cc = .gt → (b = true ↔ y < x)) ∧ (cc = .ge → (b = true ↔ y ≤ x)) ∧
      (cc = .un → b = false) ∧ (cc = .ord → b = true)
    (∀ g cc t, Fires s f (.tst g cc) → l.tag = t → r.tag = t → t.isInt = true →
      ∃ b : Bool, exec (.tst g cc) s = .next (sent s f (.tst g cc) (predTok b) (predTok b) 0) ∧
        orders cc b (tokInt l) (tokInt r)) ∧
    (∀ g cc t, Fires s f (.tst g cc) → l.tag = t → r.tag = t → t = .addr ∨ t = .time →
      ∃ b : Bool, exec (.tst g cc) s = .next (sent s f (.tst g cc) (predTok b) (predTok b) 0) ∧
        orders cc b (tokBits l) (tokBits r)) ∧
    (∀ g cc t, Fires s f (.tst g cc) → l.tag = t → r.tag = t → tagFloat t = true →
      ∃ b : Bool, exec (.tst g cc) s = .next (sent s f (.tst g cc) (predTok b) (predTok b)
          (flagIf ((kindOf l).isSnan || (kindOf r).isSnan) fInvalid)) ∧
        (((kindOf l).isNan || (kindOf r).isNan) = true → (b = true ↔ cc = .ne ∨ cc = .un)) ∧
        ((kindOf l).isNan = false → (kindOf r).isNan = false → orders cc b (floatKey l) (floatKey r))) ∧
    (∀ g cc, Fires s f (.tst g cc) →
      l.tag ≠ r.tag ∨ (l.tag.isInt = false ∧ tagFloat l.tag = false ∧ l.tag ≠ .addr ∧ l.tag ≠ .time) →
      exec (.tst g cc) s = .next (raiseAt (popLane s) f ⟨.format, 0⟩)) ∧
    (∀ i, Fires s f (.teqi i) → (portD s f .l).tag.isInt = true →
      ∃ b : Bool, exec (.teqi i) s = .next (sent s f (.teqi i) (predTok b) (predTok b) 0) ∧
        (b = true ↔ tokInt (portD s f .l) = i.imm.toInt)) ∧
    (∀ i, Fires s f (.tlti i) → (portD s f .l).tag.isInt = true →
      ∃ b : Bool, exec (.tlti i) s = .next (sent s f (.tlti i) (predTok b) (predTok b) 0) ∧
        (b = true ↔ tokInt (portD s f .l) < i.imm.toInt)) ∧
    (∀ i, Fires s f (.teqi i) → tagFloat (portD s f .l).tag = true ∨ (portD s f .l).tag = .addr ∨ (portD s f .l).tag = .time →
      exec (.teqi i) s = .next (raiseAt (popLane s) f ⟨.format, 0⟩)) ∧
    (∀ i, Fires s f (.tlti i) → tagFloat (portD s f .l).tag = true ∨ (portD s f .l).tag = .addr ∨ (portD s f .l).tag = .time →
      exec (.tlti i) s = .next (raiseAt (popLane s) f ⟨.format, 0⟩))) ∧
  (∀ (s : State) (f : Firing) (t : Tag), (portD s f .l).tag = t →
    let l := tokBits (portD s f .l)
    let r := tokBits (portD s f .r)
    let imm := fun (i : IF) => (i.imm.toInt % 2 ^ tagBits t).toNat
    let gives := fun (i : Instr) (v : Nat) =>
      ∃ tok, exec i s = .next (sent s f i tok tok 0) ∧ tok.tag = t ∧ tokBits tok = v
    (t.isInt = true ∨ t = .pred →
      (∀ g, (portD s f .r).tag = t → Fires s f (.and g) → gives (.and g) (l &&& r)) ∧
      (∀ g, (portD s f .r).tag = t → Fires s f (.or g) → gives (.or g) (l ||| r)) ∧
      (∀ g, (portD s f .r).tag = t → Fires s f (.xor g) → gives (.xor g) (l ^^^ r)) ∧
      (∀ g, Fires s f (.not g) → gives (.not g) (2 ^ tagBits t - 1 - l))) ∧
    (t.isInt = true →
      (∀ i, Fires s f (.andi i) → gives (.andi i) (l &&& imm i)) ∧
      (∀ i, Fires s f (.ori i) → gives (.ori i) (l ||| imm i)) ∧
      (∀ i, Fires s f (.xori i) → gives (.xori i) (l ^^^ imm i))) ∧
    (t = .pred → ∀ w,
      (Fires s f (.andi w) → exec (.andi w) s = .next (raiseAt (popLane s) f ⟨.format, 0⟩)) ∧
      (Fires s f (.ori w) → exec (.ori w) s = .next (raiseAt (popLane s) f ⟨.format, 0⟩)) ∧
      (Fires s f (.xori w) → exec (.xori w) s = .next (raiseAt (popLane s) f ⟨.format, 0⟩))))

/-- R132: with w the width of L and c_eff the count, or w where the count lies outside 0 to w − 1, SHL gives L × 2^c_eff
mod 2^w, SHR ⌊L ÷ 2^c_eff⌋ on the unsigned bits, SAR the floor on the signed value. R133: CLZ and POPC read an Int tag
of width w and send I32: the number of leading zero bits within w, from 0 to w, and the number of one bits within w.
R134: BFX takes the field of min(n, w − s) bits from bit s on, or 0 where s lies outside 0 to w − 1 or n ≤ 0, and
extends it as L's tag says. -/
def Obligations.ShiftAndBitWords : Prop :=
  (∀ (s : State) (f : Firing) (t : Tag), (portD s f .l).tag = t → t.isInt = true →
    let w := tagBits t
    let l := tokBits (portD s f .l)
    let c := tokInt (portD s f .r)
    let ceff := fun (c : Int) => if c < 0 ∨ (w : Int) ≤ c then w else c.toNat
    let gives := fun (i : Instr) (v : Int) =>
      ∃ tok, exec i s = .next (sent s f i tok tok 0) ∧ tok.tag = t ∧ agree w (tokBits tok) v
    (∀ g, (portD s f .r).tag.isInt = true → Fires s f (.shl g) → gives (.shl g) (l * 2 ^ ceff c : Nat)) ∧
    (∀ g, (portD s f .r).tag.isInt = true → Fires s f (.shr g) → gives (.shr g) (l / 2 ^ ceff c : Nat)) ∧
    (∀ g, (portD s f .r).tag.isInt = true → Fires s f (.sar g) → gives (.sar g) (toSigned w l / 2 ^ ceff c)) ∧
    (∀ i, Fires s f (.shli i) → gives (.shli i) (l * 2 ^ ceff i.imm.toInt : Nat)) ∧
    (∀ i, Fires s f (.shri i) → gives (.shri i) (l / 2 ^ ceff i.imm.toInt : Nat)) ∧
    (∀ i, Fires s f (.sari i) → gives (.sari i) (toSigned w l / 2 ^ ceff i.imm.toInt))) ∧
  ((∀ (s : State) (f : Firing) (t : Tag), (portD s f .l).tag = t → t.isInt = true →
    let w := tagBits t
    let l := tokBits (portD s f .l)
    (∀ g, Fires s f (.clz g) → ∃ (tok : Token) (n : Nat), exec (.clz g) s = .next (sent s f (.clz g) tok tok 0) ∧
      tok.tag = .i32 ∧ tokInt tok = n ∧ n ≤ w ∧ l < 2 ^ (w - n) ∧ (n < w → 2 ^ (w - n - 1) ≤ l)) ∧
    (∀ g, Fires s f (.popc g) → ∃ tok, exec (.popc g) s = .next (sent s f (.popc g) tok tok 0) ∧
      tok.tag = .i32 ∧ tokInt tok = (((List.range w).filter fun k => l.testBit k).length : Int))) ∧
  (∀ (s : State) (f : Firing) (g : GF) (t : Tag), Fires s f (.bfx g) →
    (portD s f .l).tag = t → t.isInt = true → (portD s f .r).tag.isInt = true → (portD s f .x).tag.isInt = true →
    let w := tagBits t
    let l := tokBits (portD s f .l)
    let b := tokInt (portD s f .r)
    let n := tokInt (portD s f .x)
    let len := (min n ((w : Int) - b)).toNat
    let field := l / 2 ^ b.toNat % 2 ^ len
    ∃ tok, exec (.bfx g) s = .next (sent s f (.bfx g) tok tok 0) ∧ tok.tag = t ∧
      (b < 0 ∨ (w : Int) ≤ b ∨ n ≤ 0 → tokInt tok = 0) ∧
      (0 ≤ b → b < w → 0 < n → tokInt tok = if tagSigned t then toSigned len field else field)))

/-- R72, R73: CVT and CVTZ from one integer tag to another send the value where the target holds it, with false on T1 and
no flag, and else the nearer end of the target's range, with true on T1, SAT and INEXACT. R135, R136: the special
values of SQRT, RCP, RSQRT, EXP2, LOG2 and TANH that are NaNs, infinities or zeros, with their flags, for every tag
that the word accepts. R69, R70, R126, R127: ADD, SUB, MUL, DIV, FMA, MIN, MAX, ABS, NEG and LDEXP on every Float tag where the
kinds of the operands decide the result; every NaN result is the canonical one; addends that cancel give +0; of two operands
that are no NaN MIN sends the lower and MAX the greater, −0 lying below +0; ABS and NEG change the sign bit alone; LDEXP by
4,096 or more leaves the range, and by −4,096 or less gives a zero. R128: FCLASS sends an N32 with the bit of the class of
L, and no flag. -/
def Obligations.ConversionsAndSpecialValues : Prop :=
  (∀ (s : State) (f : Firing) (i : Instr) (c : CF),
    i = .cvt c ∨ i = .cvtz c → Fires s f i → (portD s f .l).tag.isInt = true → c.fmt.isInt = true →
    (portD s f .l).tag ≠ c.fmt →
    let v := tokInt (portD s f .l)
    (intMin c.fmt ≤ v → v ≤ intMax c.fmt →
      ∃ tok, exec i s = .next (sent s f i tok (predTok false) 0) ∧ tok.tag = c.fmt ∧ tokInt tok = v) ∧
    (v < intMin c.fmt →
      ∃ tok, exec i s = .next (sent s f i tok (predTok true) (fSat ||| fInexact)) ∧ tok.tag = c.fmt ∧
        tokInt tok = intMin c.fmt) ∧
    (intMax c.fmt < v →
      ∃ tok, exec i s = .next (sent s f i tok (predTok true) (fSat ||| fInexact)) ∧ tok.tag = c.fmt ∧
        tokInt tok = intMax c.fmt)) ∧
  (∀ (s : State) (f : Firing) (i : Instr) (r : Special) (fl : FlagSet),
    Fires s f i →
    (portD s f .l).tag = .fp32 ∨ (portD s f .l).tag = .fp16 ∨ (portD s f .l).tag = .bf16
      ∨ ((∃ g, i = .sqrt g) ∧ (portD s f .l).tag = .fp64) →
    specialResult i (tokFVal (portD s f .l)) = some (r, fl) →
    ∃ tok, exec i s = .next (sent s f i tok tok fl) ∧ tok.tag = (portD s f .l).tag ∧ specialOf (tokFVal tok) = some r) ∧
  (∀ (s : State) (f : Firing) (i : Instr),
    let l := portD s f .l
    let r := portD s f .r
    let x := portD s f .x
    let sends := fun (tok : Token) (fl : FlagSet) => exec i s = .next (sent s f i tok tok fl) ∧ tok.tag = l.tag
    Fires s f i → tagFloat l.tag = true → ((∃ g, i = .ldexp g) ∨ ∀ q ∈ Instr.dataPorts i, (portD s f q).tag = l.tag) →
    (∀ g, i = .ldexp g → r.tag.isInt = true) →
    (∀ k fl, kindResult i (kindOf l) (kindOf r) (kindOf x) = some (k, fl) →
      ∃ tok, sends tok fl ∧ kindOf tok = k ∧ (k = .nan false → tokBits tok = canonNan l.tag)) ∧
    (∀ g sat n, i = .add g sat → kindOf l = .num n → floatKey l + floatKey r = 0 → ∃ tok, sends tok 0 ∧ kindOf tok = .zero false) ∧
    (∀ g sat n, i = .sub g sat → kindOf l = .num n → floatKey l = floatKey r → ∃ tok, sends tok 0 ∧ kindOf tok = .zero false) ∧
    ((kindOf l).isNan = false → (kindOf r).isNan = false →
      let lower := if floatKey l < floatKey r ∨ (floatKey l = floatKey r ∧ floatSigned l = true) then l else r
      let upper := if floatKey l < floatKey r ∨ (floatKey l = floatKey r ∧ floatSigned l = true) then r else l
      (∀ g, i = .min g → ∃ tok, sends tok 0 ∧ tokBits tok = tokBits lower) ∧
      (∀ g, i = .max g → ∃ tok, sends tok 0 ∧ tokBits tok = tokBits upper)) ∧
    (∀ g, (kindOf l).isNan = false → i = .abs g →
      ∃ tok, sends tok 0 ∧ floatMag tok = floatMag l ∧ floatSigned tok = false) ∧
    (∀ g, (kindOf l).isNan = false → i = .neg g →
      ∃ tok, sends tok 0 ∧ floatMag tok = floatMag l ∧ floatSigned tok = !floatSigned l) ∧
    (∀ g n, i = .ldexp g → kindOf l = .num n → 4096 ≤ tokInt r →
      ∃ tok, sends tok (fOverflow ||| fInexact) ∧ kindOf tok = .inf n) ∧
    (∀ g n, i = .ldexp g → kindOf l = .num n → tokInt r ≤ -4096 →
      ∃ tok, sends tok (fUnderflow ||| fInexact) ∧ kindOf tok = .zero n) ∧
    (∀ g, i = .fclass g → ∃ tok, exec i s = .next (sent s f i tok tok 0) ∧ tok.tag = .n32 ∧ tokBits tok = 2 ^ classOf l))

/-! ### READ, WRITE, RED and the branch words (02, 05) -/

/-- R18, R24, R25, R108: READ sends the register's value to both targets, or waits until the lower instances have left
one. (A committed register that cannot be read from its granules sends POISON, and one whose spill copy lies in a range that
two overflow areas share any token: logs 103, 12.) An ordinary block reads the register as committed; an unordered loop reads it
as it was when the loop began. R18, R90, R109: a WRITE keeps its token for the commit, POISON on either port as POISON; NULL or a
predicate that does not match nulls it; a tile tag raises FORMAT. No register changes before the commit. -/
def Obligations.ReadsAndWrites : Prop :=
  (∀ (s : State) (f : Firing) (t0 t1 : Tgt) (reg : BitVec 6), OnLane s f (.read t0 t1 reg) →
    let held := regGranules s f.tid reg.toNat
    (∀ v, readValue s f reg.toNat = .value v →
      let lost := readsCommitted s f reg.toNat = true ∧ held.any (unreadable s) = true
      let shared := readsCommitted s f reg.toNat = true ∧ held.any (locShared s) = true
      ∃ (c : Bool) (t : State) (v' : Token), exec (.read t0 t1 reg) s = .next t ∧ WordFrame s t f ∧
        (¬ lost → ¬ shared → v' = v) ∧ (lost → v' = poisonTok) ∧
        t.net = s.net ++ (tokMsg f f.iter c v' t0 ++ tokMsg f f.iter c v' t1) ∧
        instAt t f.tid f.iter = (instAt s f.tid f.iter).map (firedInst f 0) ∧
        ((∀ g ∈ held, ∃ n, g = .here n) → t.gm = s.gm) ∧
        ∀ a, byteAt t.ls.bytes a = byteAt s.ls.bytes a) ∧
    (∀ v, s.ls.upset = [] → (∀ g ∈ held, ∃ n, g = .here n) → readValue s f reg.toNat = .value v → ∃ c : Bool, exec (.read t0 t1 reg) s = .next { s with
      wk := laneDone s f (firedInst f 0)
      net := s.net ++ (tokMsg f f.iter c v t0 ++ tokMsg f f.iter c v t1) }) ∧
    (readValue s f reg.toNat = .wait → exec (.read t0 t1 reg) s = .next (waits s f .reg)) ∧
    ((taskD s f.tid).loop = none → readValue s f reg.toNat = .value (regOf (taskD s f.tid) reg.toNat)) ∧
    (∀ l, (taskD s f.tid).loop = some l → l.ordered = false →
      readValue s f reg.toNat = .value (tgetD l.regs reg.toNat nullTok))) ∧
  (∀ (s : State) (f : Firing) (wid : BitVec 5) (reg : BitVec 6) (pm : Pm), OnLane s f (.write wid reg pm) →
    let i : Instr := .write wid reg pm
    let takes := fun (v : Token) => ∃ t, exec i s = .next t ∧ WordFrame s t f ∧ MemFrame s t ∧ t.net = s.net ∧
      instAt t f.tid f.iter = (instAt s f.tid f.iter).map fun x => { firedInst f 0 x with wrote := tput x.wrote f.slot v }
    (Fires s f i → tagTile (portD s f .l).tag = false → takes (portD s f .l)) ∧
    (pm ≠ .always → (portD s f .p).tag = .poison → takes poisonTok) ∧
    (MeetsNull s f i ∨ ((portD s f .l).tag ≠ .null ∧ Mismatches s f i) →
      ∃ t, exec i s = .next t ∧ WordFrame s t f ∧ MemFrame s t ∧ t.net = s.net ∧
        instAt t f.tid f.iter = (instAt s f.tid f.iter).map (nulledInst f)) ∧
    (Fires s f i → tagTile (portD s f .l).tag = true → exec i s = .next (raiseAt (popLane s) f ⟨.format, 0⟩)))

/-- R15, R66, R92, R117, R118, R119: a branch word that fires resolves its block's branch: BR to the block's address + 64 ×
OFF, BRR to L, EXIT with L. BR.NEXT activates the next instance at once; a second branch is BLOCK_BAD; BRR refuses
what is no ADDR, EXIT a FUTURE or a tile, BR a trigger that carries a tile. R15: a second branch word that fires in a
block raises BLOCK_BAD at its slot; once every branch word of a block is nulled, the branch is the fall-through, the first 64-byte boundary after
the block's last word. -/
def Obligations.BranchesResolve : Prop :=
  (∀ (s : State) (f : Firing) (x : Inst), instAt s f.tid f.iter = some x → x.branch = none →
    let done := fun (b : Branch) (ms : List Instr) =>
      ({ s with wk := laneDone s f (fun y => { firedInst f 0 y with branch := some b }), net := s.net ++ ms } : State)
    let va := fun (off : BitVec 21) => (((f.block : Int) + off.toInt * 64) % 2 ^ 52).toNat
    let tile := fun (pm : Pm) => pm = .always ∧ tagTile (portD s f .l).tag = true
    (∀ off pm, Fires s f (.br off .jump pm) → ¬ tile pm → exec (.br off .jump pm) s = .next (done (.goto (va off) false) [])) ∧
    (∀ off pm, Fires s f (.br off .call pm) → ¬ tile pm → exec (.br off .call pm) s = .next (done (.goto (va off) true) [])) ∧
    (∀ off pm, Fires s f (.br off .next pm) → ¬ tile pm → exec (.br off .next pm) s = .next (done (.next (va off))
      (if x.mayNext then [.blockActivate ⟨f.tid, (f.iter + 1) % 65536, va off, true, false, true⟩] else []))) ∧
    (∀ off k pm, Fires s f (.br off k pm) → tile pm →
      exec (.br off k pm) s = .next (raiseAt (popLane s) f ⟨.format, 0⟩)) ∧
    (∀ call pm, Fires s f (.brr call pm) → (portD s f .l).tag = .addr →
      exec (.brr call pm) s = .next (done (.goto (tokBits (portD s f .l)) call) [])) ∧
    (∀ call pm, Fires s f (.brr call pm) → (portD s f .l).tag ≠ .addr →
      exec (.brr call pm) s = .next (raiseAt (popLane s) f ⟨.format, 0⟩)) ∧
    (∀ pm, Fires s f (.exit pm) → (portD s f .l).tag ≠ .future → tagTile (portD s f .l).tag = false →
      exec (.exit pm) s = .next (done (.exit (portD s f .l)) [])) ∧
    (∀ pm, Fires s f (.exit pm) → (portD s f .l).tag = .future ∨ tagTile (portD s f .l).tag = true →
      exec (.exit pm) s = .next (raiseAt (popLane s) f ⟨.format, 0⟩))) ∧
  (∀ (s : State) (f : Firing) (x : Inst), instAt s f.tid f.iter = some x →
    (∀ i, Instr.cls i = .branch → Fires s f i → x.branch.isSome = true →
      (∀ c pm, i = .brr c pm → (portD s f .l).tag = .addr) →
      (∀ o k, i = .br o k .always → tagTile (portD s f .l).tag = false) →
      (∀ pm, i = .exit pm → (portD s f .l).tag ≠ .future ∧ tagTile (portD s f .l).tag = false) →
      exec i s = .next (raiseAt (popLane s) f ⟨.blockBad, 0⟩)) ∧
    (∀ i b, Instr.cls i = .branch → OnLane s f i → MeetsNull s f i ∨ (Clean s f i ∧ Mismatches s f i) →
      x.branch = none → x.tid = f.tid → x.iter = f.iter → blkOf s x = some b →
      (∀ e ∈ blockSlots s x, Instr.cls e.2 = .branch → e.1 = f.slot ∨ e.1 ∈ x.nulled) →
      ∃ t y, exec i s = .next t ∧ instAt t f.tid f.iter = some y ∧
        y.branch = some (.goto (fallThrough x.block b.header) false) ∧ y.requests = x.requests ∧ y.wrote = x.wrote))

/-- R138, R139: a marker N of a RED opens a reduction over N iterations; when all their tokens are there it sends the result to
both targets, and its flags go to the task's. With N 0 the result is the identity in the marker's tag. POISON on the marker
sends POISON, NULL sends NULL. An L token that an open reduction covers takes the place of its iteration; a second one is
BLOCK_BAD, unless the first one's sender has been discarded since. -/
def Obligations.RedReduces : Prop :=
  (∀ (s : State) (f : Firing) (g : GF) (kind : RedKind), OnLane s f (.red g kind) → Matches s f (.red g kind) →
    let i : Instr := .red g kind
    let mark := portD s f .r
    (∀ r, mark.tag.isInt = true → 0 ≤ tokInt mark → tokInt mark ≤ 65536 → redAt s f.tid f.block f.slot f.iter = some r →
      r.toks.length = r.n → r.sent = none →
      ∃ t, exec i s = .next t ∧ t.net = s.net ++ resultMsgs f i (redResult r).1 (redResult r).1 ∧
        taskAt t f.tid = (taskAt s f.tid).map (fun u => orFlags u (redResult r).2) ∧
        instAt t f.tid f.iter = (instAt s f.tid f.iter).map (firedInst f 0) ∧
        ((redResult r).2 = 0 → MemFrame s t)) ∧
    (mark.tag.isInt = true → tokInt mark = 0 → redAt s f.tid f.block f.slot f.iter = none →
      ∃ t, exec i s = .next t ∧ t.net = s.net ++ resultMsgs f i (redIdentity kind mark.tag) (redIdentity kind mark.tag) ∧
        MemFrame s t) ∧
    (mark.tag.isInt = true → 0 < tokInt mark → tokInt mark ≤ 65536 → redAt s f.tid f.block f.slot f.iter = none →
      redWaiting s f (tokInt mark).toNat = [] →
      ∃ t r, exec i s = .next t ∧ redAt t f.tid f.block f.slot f.iter = some r ∧ r.n = (tokInt mark).toNat ∧ r.toks = [] ∧
        t.net = s.net ∧ MemFrame s t) ∧
    (mark.tag = .poison → exec i s = .next (sent s f i poisonTok poisonTok 0)) ∧
    (mark.tag = .null → exec i s = .next (sent s f i nullTok nullTok 0)) ∧
    (mark.tag ≠ .poison → mark.tag ≠ .null → mark.tag.isInt = false ∨ tokInt mark < 0 ∨ 65536 < tokInt mark →
      exec i s = .next (raiseAt (popLane s) f ⟨.format, 0⟩))) ∧
  (∀ (s : State) (m : TokMsg) (t : Task) (g : GF) (kind : RedKind), taskAt s m.tid = some t → m.port = .l →
    instrAt s m.tid m.block m.slot = some (.red g kind) → markedAt s t.graph (cellOf s t m.block m.slot) = false →
    let e : Instr := .tokenArrive m
    let blank := m.tok.tag = .null ∨ m.tok.tag = .poison
    let n := countMatch s t m
    (¬ blank → redTagOk kind m.tok.tag = false → exec e s = .next (raise n m.tid m.src m.slot ⟨.format, 0⟩)) ∧
    (∀ r, redCovering s m = some r → redAt s m.tid m.block m.slot r.m = some r → blank ∨ redTagOk kind m.tok.tag = true →
      let k := iterRank r.m m.iter
      let stale := k ∈ r.stale
      ((tget r.toks k).isSome = true → ¬ stale → (∃ x, instAt s m.tid m.iter = some x ∧ x.block = m.block) →
        exec e s = .next (raise n m.tid m.iter m.slot ⟨.blockBad, 0⟩)) ∧
      (tsorted none r.toks = true → tget r.toks k = none ∨ stale → (∀ y ∈ r.toks, y.1 ≠ k → blank ∨ y.2.tag = .null ∨ y.2.tag = .poison ∨ y.2.tag = m.tok.tag) →
        ∃ u r', exec e s = .next u ∧ redAt u m.tid m.block m.slot r.m = some r' ∧ tget r'.toks k = some m.tok ∧ r'.n = r.n ∧
          k ∉ r'.stale ∧ (∀ j, j ≠ k → tget r'.toks j = tget r.toks j) ∧ u.net = s.net ∧ u.wk.insts = s.wk.insts ∧ MemFrame s u)))

/-! ### Words that act at the commit (R14, R141, R168) -/

/-- R14, R120, R121, R141, R153, R161, R162, R164 to R166, R176 to R200, R204, R206, R207: a store-class word whose operands pass
its checks produces its request and does nothing else: it sends nothing, and memory stays as it was until the commit. R140, R157,
R161 to R166, R176 to R207: one whose checks fail raises at its slot the fault that its rule gives, FORMAT, ALIGN, HANDLE_STALE,
HANDLE_BOUND or PROT, and asks for nothing. (The words that translate an address stand in AddressWordsRequest, the resolution of
a handle and an offset in LocalChecks.) -/
def Obligations.StoreWordRequests : Prop :=
  (∀ (s : State) (f : Firing) (i : Instr) (k : ReqKind), Fires s f i → requestOf s f i = some k →
    exec i s = .next (requested s f i k)) ∧
  (∀ (s : State) (f : Firing) (i : Instr) (flt : Flt), Fires s f i → CheckFails s f i flt →
    exec i s = .next (raiseAt (popLane s) f flt))

/-- R140, R141, R142, R149, R151, R154, R287: ST, MST and the global atomics check the tags, the alignment, the
translation and the tracking, in this order, and produce a request that holds the physical address; memory stays as it
was. R152, R202: PREF produces its request whatever its address translates to, and it asks for a line only where the walk
ends at a page that may be read (a walk whose table entries lie in present lines changes no byte); TICKW checks its source, its grant and
its alignment, in the order of log 41, which also makes a source outside 0 to 15 a FORMAT, and translates its descriptor. -/
def Obligations.AddressWordsRequest : Prop :=
  (∀ (s : State) (f : Firing) (i : Instr) (g : GlobalWord), Fires s f i → globalWord s f i = some g →
    let l := portD s f .l
    let va := tokBits l
    let tags := l.tag = .addr ∧ ∀ d ∈ g.data, d.tag = g.fmt ∨ d.tag = .poison
    let vi := (taskD s f.tid).vi
    let pane := cellPane s f
    (¬ tags → exec i s = .next (raiseAt (popLane s) f ⟨.format, 0⟩)) ∧
    (tags → va % accessWidth g.fmt ≠ 0 → exec i s = .next (raiseAt (popLane s) f ⟨.align, va⟩)) ∧
    (tags → va % accessWidth g.fmt = 0 → wordXlat s f va g.access = .refused →
      exec i s = .next (raiseAt (popLane s) f ⟨.prot, va⟩)) ∧
    (tags → va % accessWidth g.fmt = 0 → wordXlat s f va g.access = .miss → exec i s = .next
      { waits s f .page with net := s.net ++ [.pageWalk ⟨paneDie pane, pane, vi, va, true, .word f⟩] }) ∧
    (∀ pa rdev c, tags → va % accessWidth g.fmt = 0 → wordXlat s f va g.access = .hit pa rdev c →
      (racesAt s f.tid pa rdev c g.plain = true → exec i s = .next (raiseAt (tlbUse (popLane s) pane vi va) f ⟨.mmRace, va⟩)) ∧
      (racesAt s f.tid pa rdev c g.plain = false → ∃ t, exec i s = .next t ∧ WordFrame s t f ∧ MemFrame s t ∧
        t.net = s.net ∧
        instAt t f.tid f.iter = (instAt s f.tid f.iter).map (requestInst f (requestFor s f i (g.req pa rdev c)))))) ∧
  (∀ (s : State) (f : Firing),
    (∀ lsid pm, Fires s f (.pref lsid pm) → (portD s f .l).tag = .addr →
      let va := tokBits (portD s f .l)
      let w := walk s (taskD s f.tid).vi va
      let found := ∃ x, w.1 = .leaf x ∧ permits s x .read va = true
      ∃ t pa rdev ok, exec (.pref lsid pm) s = .next t ∧ WordFrame s t f ∧ t.net = s.net ∧
        (∀ a, byteAt t.ls.bytes a = byteAt s.ls.bytes a) ∧ (∀ g, gstAt t.ls g = gstAt s.ls g) ∧
        ((∀ p ∈ w.2, (tget s.gm.lines (p / 128)).isSome = true) → MemFrame s t) ∧
        (ok = true ↔ found) ∧ (∀ x, w.1 = .leaf x → ok = true → pa = pagePa x va ∧ rdev = eRdev x.entry.toNat) ∧
        instAt t f.tid f.iter =
          (instAt s f.tid f.iter).map (requestInst f (requestFor s f (.pref lsid pm) (.pref va pa rdev ok)))) ∧
    (∀ lsid pm, Fires s f (.pref lsid pm) → (portD s f .l).tag ≠ .addr →
      exec (.pref lsid pm) s = .next (raiseAt (popLane s) f ⟨.format, 0⟩)) ∧
    (∀ t0 ta pm, Fires s f (.tickw t0 ta pm) →
      let i : Instr := .tickw t0 ta pm
      let l := portD s f .l
      let r := portD s f .r
      let good := l.tag.isInt = true ∧ r.tag = .addr ∧ 0 ≤ tokInt l ∧ tokInt l ≤ 15
      let grant := tickGranted s (taskD s f.tid).vi (tokInt l).toNat
      (¬ good → exec i s = .next (raiseAt (popLane s) f ⟨.format, 0⟩)) ∧
      (good → grant = false → exec i s = .next (raiseAt (popLane s) f ⟨.prot, 0⟩)) ∧
      (good → grant = true → tokBits r % 32 ≠ 0 → exec i s = .next (raiseAt (popLane s) f ⟨.align, tokBits r⟩)) ∧
      (∀ pa rdev c, good → grant = true → tokBits r % 32 = 0 → wordXlat s f (tokBits r) .read = .hit pa rdev c →
        ∃ t, exec i s = .next t ∧ WordFrame s t f ∧ MemFrame s t ∧ t.net = s.net ∧
          instAt t f.tid f.iter = (instAt s f.tid f.iter).map
            (requestInst f (requestFor s f i (.tickw (tokInt l).toNat (tokBits r) pa rdev))))))

/-- R14, R90, R144, R170: a store-class word that meets NULL, or whose predicate does not match, is nulled: it asks for
nothing and sends nothing. SYSWR and PROF are nulled by POISON as well. R90, R104: a fire-class word that meets NULL,
or whose predicate does not match, performs nothing and sends NULL. PLD, TNOW and (in a maintenance graph) SYSRD send
POISON where they meet it. -/
def Obligations.EffectWordsNulled : Prop :=
  (∀ (s : State) (f : Firing) (i : Instr), OnLane s f i → Instr.cls i = .store →
    let nulls := ∃ t, exec i s = .next t ∧ WordFrame s t f ∧ MemFrame s t ∧ t.net = s.net ∧
      instAt t f.tid f.iter = (instAt s f.tid f.iter).map (nulledInst f)
    (MeetsNull s f i ∨ (Clean s f i ∧ Mismatches s f i) → nulls) ∧
    ((∃ imm pm, i = .syswr imm pm ∨ i = .prof imm pm) → MeetsPoison s f i → nulls)) ∧
  (∀ (s : State) (f : Firing) (i : Instr), OnLane s f i → Instr.cls i = .fire →
    (∀ j, i = .sysrd j → taskMaint s (taskD s f.tid) = true) →
    (MeetsNull s f i ∨ (Clean s f i ∧ Mismatches s f i) → exec i s = .next (sent s f i nullTok nullTok 0)) ∧
    ((∃ j, i = .pld j ∨ i = .sysrd j) ∨ (∃ g, i = .tnow g) → MeetsPoison s f i →
      exec i s = .next (sent s f i poisonTok poisonTok 0)))

/-- R90, R144, R170: POISON on a port that steers a word raises POISON_USE at its slot and the word does nothing; on a port that
only counts it raises FORMAT. POISON on P counts as POISON on every port. -/
def Obligations.PoisonFaults : Prop :=
  ∀ (s : State) (f : Firing) (i : Instr), OnLane s f i →
    ((∃ q ∈ steerPorts i, (portD s f q).tag = .poison) →
      exec i s = .next (raiseAt (popLane s) f ⟨.poisonUse, 0⟩)) ∧
    ((∃ q ∈ countPorts i, (portD s f q).tag = .poison) → (∀ q ∈ steerPorts i, (portD s f q).tag ≠ .poison) →
      ¬ (Instr.predicate i ≠ .always ∧ (portD s f .p).tag = .poison) →
      exec i s = .next (raiseAt (popLane s) f ⟨.format, 0⟩)) ∧
    (Instr.predicate i ≠ .always → (portD s f .p).tag = .poison →
      steerPorts i ≠ [] ∨ (∃ pm, i = .exit pm) ∨ (∃ v pm, i = .trap v pm ∨ i = .bkpt v pm) ∨ (∃ o k pm, i = .br o k pm) →
      exec i s = .next (raiseAt (popLane s) f ⟨.poisonUse, 0⟩)) ∧
    (Instr.predicate i ≠ .always → (portD s f .p).tag = .poison → steerPorts i = [] → countPorts i ≠ [] →
      exec i s = .next (raiseAt (popLane s) f ⟨.format, 0⟩))

/-! ### Words that read when they fire (R116, R149, R158 to R163, R167) -/

/-- R140, R142, R146, R149, R150, R151, R287: LD waits while the order holds it, then checks tag, alignment, translation and
tracking. Where the multicast copies that have reached its pane hold all of it, none of them makes it wait for the MST and no
lower store of its block forwards a byte, it sends their value at once; else it waits, and its read is on its way to the home
with the forwarded bytes. (Which copies have reached the pane is the model's, log 111; a byte that a higher read of the task
has already taken is log 98's.) R116: PLD waits while the order holds it, and reads the window's descriptor in its launch's card.
An unbound window raises PARAM_UNBOUND; an index below 0 or not below COUNT sends zero of the window's tag with PARAM_OOB; else
the element's read is on its way, for E2M1 that of its half byte, and where the element crosses into another page in two parts.
(The descriptor is read at each firing: log 97. Where the lines that this reads are present, no byte of memory changes.) -/
def Obligations.LoadsRead : Prop :=
  (∀ (s : State) (f : Firing) (m : MF), Fires s f (.ld m) → instrAt s f.tid f.block f.slot = some (.ld m) →
    let i : Instr := .ld m
    let l := portD s f .l
    let va := tokBits l
    let w := accessWidth m.fmt
    let vi := (taskD s f.tid).vi
    let pane := cellPane s f
    let ok := orderOk (popLane s) f i = true
    (¬ ok → exec i s = .next (waits s f .order)) ∧
    (ok → l.tag ≠ .addr → exec i s = .next (raiseAt (popLane s) f ⟨.format, 0⟩)) ∧
    (ok → l.tag = .addr → va % w ≠ 0 → exec i s = .next (raiseAt (popLane s) f ⟨.align, va⟩)) ∧
    (ok → l.tag = .addr → va % w = 0 → wordXlat s f va .read = .refused →
      exec i s = .next (raiseAt (popLane s) f ⟨.prot, va⟩)) ∧
    (ok → l.tag = .addr → va % w = 0 → wordXlat s f va .read = .miss → exec i s = .next
      { waits s f .page with net := s.net ++ [.pageWalk ⟨paneDie pane, pane, vi, va, false, .word f⟩] }) ∧
    (∀ pa rdev c, ok → l.tag = .addr → va % w = 0 → wordXlat s f va .read = .hit pa rdev c →
      let races := racesAt s f.tid pa rdev c (decide (m.ord = .plain)) = true
      let read := loadMsg s f m pa rdev c
      let u := meetCopies (tlbUse (popLane s) pane vi va) read
      let near := (List.range w).map (nearByte u read)
      let hit := (∀ b ∈ near, b.isSome) ∧ (∀ b ∈ read.fwd, b = none) ∧ copyHolds u read = false
      (races → exec i s = .next (raiseAt (tlbUse (popLane s) pane vi va) f ⟨.mmRace, va⟩)) ∧
      (¬ races → hit → ∃ t v, exec i s = .next t ∧ SendsRead s t f i v ∧
        (s.gm.early = [] → v = loadResult m.fmt none read.fwdPoison (near.filterMap id))) ∧
      (¬ races → ¬ hit → ∃ t, exec i s = .next t ∧ WordFrame s t f ∧ MemFrame s t ∧ t.net = s.net ++ [.homeRead read] ∧
        (f, .read) ∈ t.wk.waits ∧ instAt t f.tid f.iter = instAt s f.tid f.iter))) ∧
  (∀ (s : State) (f : Firing) (j : IF), Fires s f (.pld j) → instrAt s f.tid f.block f.slot = some (.pld j) →
    let i : Instr := .pld j
    let l := portD s f .l
    let vi := (taskD s f.tid).vi
    let pane := cellPane s f
    let at_ := ((tgetD s.jb.launches (taskD s f.tid).launch {}).card + 0x40 + 16 * j.imm.toNat) % 2 ^ 52
    let d := natOfBytes (devGet s vi at_ 16)
    let count : Nat := d / 2 ^ 64 % 2 ^ 32
    let ok := orderOk (popLane s) f i = true
    (¬ ok → exec i s = .next (waits s f .order)) ∧
    (ok → l.tag.isInt = false → exec i s = .next (raiseAt (popLane s) f ⟨.format, 0⟩)) ∧
    (∀ pa rdev c, ok → l.tag.isInt = true → wordXlat s f at_ .read = .hit pa rdev c →
      let here := Present s vi at_ ∧ Present s vi (at_ + 15)
      (windowTag (d / 2 ^ 96 % 256) = none → exec i s = .next
        (raiseAt (devTouch (tlbUse (popLane s) pane vi at_) vi at_ 16) f ⟨.paramUnbound, j.imm.toNat⟩)) ∧
      (∀ g, windowTag (d / 2 ^ 96 % 256) = some g → tokInt l < 0 ∨ (count : Int) ≤ tokInt l →
        ∃ t, exec i s = .next t ∧ SendsValue s t f i (mkTok g 0) fParamOob id ∧ (here → MemFrame s t)) ∧
      (∀ g pa' rdev' c', windowTag (d / 2 ^ 96 % 256) = some g → 0 ≤ tokInt l → tokInt l < (count : Int) →
        let k := (tokInt l).toNat
        let w := accessWidth g
        let base := d % 2 ^ 64 % 2 ^ 52
        let va := (if g = .e2m1 then base + k / 2 else base + k * w) % 2 ^ 52
        let n := min w (65536 - va % 65536)
        let s1 := tlbUse (popLane s) pane vi at_
        let reads := fun (rest : Option (Nat × Nat × Nat)) =>
          ∃ t r, exec i s = .next t ∧ WordFrame s t f ∧ (here → MemFrame s t) ∧ t.net = s.net ++ [.homeRead r] ∧ r.f = f ∧
            r.pa = pa' ∧ r.rdev = rdev' ∧ r.width = n ∧ r.fmt = g ∧ (f, .read) ∈ t.wk.waits ∧ r.rest = rest ∧ r.got = [] ∧
            r.half = if g = .e2m1 then some (k % 2) else none
        wordXlat s1 f va .read = .hit pa' rdev' c' →
        (va % 65536 + w ≤ 65536 → reads none) ∧
        (∀ pa2 rdev2 c2, 65536 < va % 65536 + w →
          wordXlat (tlbUse s1 pane vi va) f ((va + n) % 2 ^ 52) .read = .hit pa2 rdev2 c2 → reads (some (pa2, rdev2, w - n))))))

/-- R150, R157 to R160, R274, R287: LLD reads a granule: at once with W 00, when it is FULL with W 01, and when it is FULL
and not reserved with W 10, which reserves it and takes it at the commit; a take that has reserved its granule while an acquire
of its block held it (log 123) then reads it. A barrier raises BARRIER_CLOBBER for W ≠ 00, a race of a plain read MM_RACE. A word
that may not read yet, or that the order holds, waits. R163, R167: FEW sends N16 0 from a FULL granule,
the PHASE from a barrier whose PHASE differs from X, and waits otherwise; LSZ sends the length of the allocation in
bytes, whether or not it is spilled. -/
def Obligations.LocalWordsRead : Prop :=
  (∀ (s : State) (f : Firing) (t0 : Tgt) (wait : LldWait) (fmt : Tag) (lsid : BitVec 5) (pm : Pm) (g : GLoc) (o : Nat),
    let i : Instr := .lld t0 wait fmt lsid pm
    Fires s f i →
    (orderOk (popLane s) f i = false → wait ≠ .take → exec i s = .next (waits s f .order)) ∧
    (orderOk (popLane s) f i = false → wait = .take → ∃ t, exec i s = .next t ∧ WordFrame s t f ∧ t.net = s.net ∧
      (∀ a, byteAt t.ls.bytes a = byteAt s.ls.bytes a) ∧ (f, .order) ∈ t.wk.waits) ∧
    (orderOk (popLane s) f i = true → localAt s f (accessWidth fmt) g o →
    let u := readCheck (popLane s) g
    let rs := lowerLsts u f lsid.toNat g
    let v := localValue u f rs g o fmt
    let place := handleForm (tokBits (portD s f .l)) (tokInt (portD s f .r)).toNat
    let full := locStateField u g = 1 ∨ rs ≠ []
    let barrier := locStateField u g = 2
    let sends := fun (upd : Inst → Inst) => ∃ t, exec i s = .next t ∧ SendsValue s t f i v 0 upd
    let take : Request := ⟨f.slot, some lsid.toNat, none,
      .take (tokBits (portD s f .l)) (tokInt (portD s f .r)).toNat⟩
    let waitsHere := exec i s = .next (waitFor u f .granule)
    (wait = .none → localRaces u f.tid g = false → sends id) ∧
    (wait = .none → localRaces u f.tid g = true → exec i s = .next (raiseAt u f ⟨.mmRace, place⟩)) ∧
    (wait ≠ .none → barrier → exec i s = .next (raiseAt u f ⟨.barrierClobber, place⟩)) ∧
    (wait = .keep → ¬ barrier → full → sends id) ∧
    (wait = .keep → ¬ barrier → ¬ full → waitsHere) ∧
    (wait = .take → ¬ barrier → full → hasTaken s f = true → sends id) ∧
    (wait = .take → ¬ barrier → full → hasTaken s f = false → locRsv u g = false →
      sends (fun x => { x with requests := x.requests ++ [take] }) ∧
      (∀ n, g = .here n → ∃ t, exec i s = .next t ∧ gRsv t.ls n = true)) ∧
    (wait = .take → ¬ barrier → ¬ full ∨ (locRsv u g = true ∧ hasTaken s f = false) → waitsHere))) ∧
  (∀ (s : State) (f : Firing) (t0 : Tgt) (lsid : BitVec 5) (pm : Pm),
    (Fires s f (.few t0 lsid pm) → orderOk (popLane s) f (.few t0 lsid pm) = false →
      exec (.few t0 lsid pm) s = .next (waits s f .order)) ∧
    (Fires s f (.few t0 lsid pm) → orderOk (popLane s) f (.few t0 lsid pm) = true → (portD s f .x).tag.isInt = false →
      exec (.few t0 lsid pm) s = .next (raiseAt (popLane s) f ⟨.format, 0⟩)) ∧
    (∀ g o, Fires s f (.few t0 lsid pm) → orderOk (popLane s) f (.few t0 lsid pm) = true → localAt s f 16 g o →
      (portD s f .x).tag.isInt = true →
      let i : Instr := .few t0 lsid pm
      let u := readCheck (popLane s) g
      let phase := natOfBytes (locBytes u 4 2 g)
      let differs := ((phase : Int) - tokInt (portD s f .x)) % 65536 ≠ 0
      let sends := fun (v : Nat) => ∃ t, exec i s = .next t ∧ SendsValue s t f i (mkTok .n16 v) 0 id
      let here := locStateField u g = 1 ∨ lowerLsts u f lsid.toNat g ≠ []
      (locStateField u g = 2 → differs → sends phase) ∧
      (locStateField u g ≠ 2 → here → sends 0) ∧
      ((locStateField u g = 2 ∧ ¬ differs) ∨ (locStateField u g ≠ 2 ∧ ¬ here) →
        exec i s = .next (waitFor u f .granule))) ∧
    (∀ k r, Fires s f (.lsz t0 lsid pm) → (portD s f .l).tag = .handle →
      liveRec s (tokBits (portD s f .l)) 0 = .ok (k, r) →
      exec (.lsz t0 lsid pm) s = .next (sent s f (.lsz t0 lsid pm) (mkTok .n32 ((r.len1 + r.len2) * 16))
        (mkTok .n32 ((r.len1 + r.len2) * 16)) 0)) ∧
    (∀ e, Fires s f (.lsz t0 lsid pm) → (portD s f .l).tag = .handle →
      liveRec s (tokBits (portD s f .l)) 0 = .error e →
      exec (.lsz t0 lsid pm) s = .next (raiseAt (popLane s) f e)) ∧
    (Fires s f (.lsz t0 lsid pm) → (portD s f .l).tag ≠ .handle →
      exec (.lsz t0 lsid pm) s = .next (raiseAt (popLane s) f ⟨.format, 0⟩)))

/-- R140, R157, R237: a local word whose handle or offset has another tag raises FORMAT (the checks of its data stand in
StoreWordRequests); a handle, an offset or an alignment that
does not resolve raises its fault at the word's slot; an access to a record whose spill copy runs waits. -/
def Obligations.LocalChecks : Prop :=
  ∀ (s : State) (f : Firing) (i : Instr) (w : Nat), Fires s f i →
    (∃ t0 wt fmt ls pm, i = .lld t0 wt fmt ls pm ∧ w = accessWidth fmt ∧ orderOk (popLane s) f i = true) ∨
    (∃ t0 ls pm, i = .few t0 ls pm ∧ w = 16 ∧ (portD s f .x).tag.isInt = true ∧ orderOk (popLane s) f i = true) ∨
    (∃ fmt ls pm, i = .lst fmt ls pm ∧ w = accessWidth fmt ∧ ((portD s f .x).tag = fmt ∨ (portD s f .x).tag = .poison)) ∨
    (∃ t0 op fmt ls pm, i = .lamo t0 op fmt ls pm ∧ w = accessWidth fmt ∧
      ((portD s f .x).tag = fmt ∨ (portD s f .x).tag = .poison)) ∨
    (∃ ls pm, i = .fes ls pm ∧ w = 16 ∧ (portD s f .x).tag.isInt = true ∧
      (tokInt (portD s f .x) = 0 ∨ tokInt (portD s f .x) = 1)) ∨
    (∃ ls pm, i = .binit ls pm ∧ w = 16 ∧ (portD s f .x).tag.isInt = true ∧
      1 ≤ tokInt (portD s f .x) ∧ tokInt (portD s f .x) ≤ 65535) ∨
    (∃ t0 ls pm, i = .barr t0 ls pm ∧ w = 16) →
    let l := portD s f .l
    let r := portD s f .r
    let h := tokBits l
    let off := tokInt r
    let res := resolve s h off w
    (l.tag ≠ .handle ∨ r.tag.isInt = false → exec i s = .next (raiseAt (popLane s) f ⟨.format, 0⟩)) ∧
    (∀ e, l.tag = .handle → r.tag.isInt = true → res = .error e → exec i s = .next (raiseAt (popLane s) f e)) ∧
    (∀ k p, l.tag = .handle → r.tag.isInt = true → res = .ok p → handleRec h = some k → spillingRec s k = true →
      exec i s = .next (waits s f .granule)) ∧
    (handleRec h = none → res = .error ⟨.handleStale, handleForm h off.toNat⟩) ∧
    (∀ k, handleRec h = some k → (∀ y, tget s.al.recs k = some y → y.live = false) →
      res = .error ⟨.handleStale, handleForm h off.toNat⟩) ∧
    (∀ k y, handleRec h = some k → tget s.al.recs k = some y → y.live = true →
      off < 0 ∨ (((y.len1 + y.len2) * 16 : Nat) : Int) < off + w →
      res = .error ⟨.handleBound, handleForm h (off % 2 ^ 20).toNat⟩)

/-! ### Words on queues, tables and counters that fire (07) -/

/-- R174, R175, R193, R194, R208: ALLOC checks its size and count and asks its arena for granules; the grant sends the handle. A
SPAWN that has its colour, record and carve-out starts the child with R in g0, and sends the FUTURE. One that comes first
takes its place on a pane and counts a FUTURE argument at its home; it waits while its launch's counter is full (R260), with a
FUTURE argument behind its task's earlier changes of futures (R42), and while a shutter holds its graph (R298). -/
def Obligations.AllocAndSpawn : Prop :=
  ∀ (s : State) (f : Firing) (g : GF),
    (∀ arena, Fires s f (.alloc g arena) →
      let i : Instr := .alloc g arena
      let l := portD s f .l
      let r := portD s f .r
      let t := taskD s f.tid
      let key := arenaKey t.pane t.q arena.toNat
      let good := l.tag.isInt = true ∧ r.tag.isInt = true ∧ 1 ≤ tokInt l ∧ tokInt l ≤ 4096 ∧ 1 ≤ tokInt r ∧ tokInt r ≤ 255
      (¬ good → exec i s = .next (raiseAt (popLane s) f ⟨.format, 0⟩)) ∧
      (good → ((arenaAt s key).size : Int) < tokInt l →
        exec i s = .next (raiseAt (popLane s) f ⟨.allocOversize, (tokInt l).toNat⟩)) ∧
      (good → tokInt l ≤ ((arenaAt s key).size : Int) →
        ∃ a : AllocReq, a.asker = .word f ∧ a.arena = key ∧ (a.size : Int) = tokInt l ∧ (a.count : Int) = tokInt r ∧
          a.colour = t.colour ∧
          exec i s = .next { waits s f .alloc with net := s.net ++ [.allocRequestArrive a] })) ∧
    (∀ place, Fires s f (.spawn g place) →
      let i : Instr := .spawn g place
      let l := portD s f .l
      let r := portD s f .r
      let t := taskD s f.tid
      (l.tag ≠ .addr ∨ tagTile r.tag = true → exec i s = .next (raiseAt (popLane s) f ⟨.format, 0⟩)) ∧
      (l.tag = .addr → tagTile r.tag = false → tokBits l % 64 ≠ 0 →
        exec i s = .next (raiseAt (popLane s) f ⟨.align, tokBits l⟩)) ∧
      let held := unitsFull s t.launch 1 = true ∨ (r.tag = .future ∧ ∃ k, .refChangeArrive k ∈ s.net ∧ k.src = some f.tid)
      (l.tag = .addr → tagTile r.tag = false → tokBits l % 64 = 0 → shuttered s t.graph = true →
        exec i s = .next (waits s f .colour)) ∧
      (l.tag = .addr → tagTile r.tag = false → tokBits l % 64 = 0 → shuttered s t.graph = false →
        (∀ b col fut carve, birthOf s f = some b → b.colour = some col → b.fut = some fut → b.granted = some carve →
          ∃ u c v, exec i s = .next u ∧ taskAt u (b.pane / 192 * 65536 + col) = some c ∧ c.pane = b.pane ∧ c.fut = fut ∧
            c.spawned = true ∧ regOf c 0 = r ∧ regOf c 58 = mkTok .i32 (tgetD s.jb.launches b.launch {}).id ∧
            ((∀ y ∈ regGranules s f.tid 59, unreadable s y = false ∧ locShared s y = false) → regOf c 59 = regOf t 59) ∧
            v.tag = .future ∧
            u.net = s.net ++ (entryRun (b.pane / 192 * 65536 + col) b.entry 1 ++ resultMsgs f i v v)) ∧
        (birthOf s f = none → spawnPane (popLane s) t.graph place t.die = none → exec i s = .next (waits s f .colour)) ∧
        (∀ p, birthOf s f = none → spawnPane (popLane s) t.graph place t.die = some p → held →
          exec i s = .next (waits s f .order)) ∧
        (∀ p, birthOf s f = none → spawnPane (popLane s) t.graph place t.die = some p → ¬ held →
          ∃ u b, exec i s = .next u ∧ birthOf u f = some b ∧ b.pane = p ∧ b.launch = t.launch ∧ b.entry = tokBits l ∧
            ((f, .alloc) ∈ u.wk.waits ∨ (f, .colour) ∈ u.wk.waits) ∧
            ∀ y, r.tag = .future → tsorted none s.wk.futs = true → futAt s r.val = some y → 0 < y.count → y.stuck = false →
              y.count + 1 < 2 ^ 24 → futAt u r.val = some { y with count := y.count + 1 })))

/-- R185, R196, R199, R201, R203: TWAIT, AWAIT and WAITC send their result once what they wait for has come, and wait
until then; TREAD sends DONE, TNOW the device time of its die, SWQ the report of its slot, each at once. R170, R185,
R193, R196, R199, R201, R203: the tag and range checks of the same words raise FORMAT. -/
def Obligations.QueueWordsAnswer : Prop :=
  (∀ (s : State) (f : Firing) (g : GF),
    let l := portD s f .l
    let r := portD s f .r
    let ctx := fun (sel sub : Nat) => ctxAt s (ctxKey (cellPane s f) sel sub)
    let sends := fun (i : Instr) (v : Token) => exec i s = .next (sent s f i v v 0)
    (∀ sub, Fires s f (.twait g sub) → l.tag.isInt = true → r.tag.isInt = true → 0 ≤ tokInt l →
      selectorOk (tokInt r) sub.toNat = true →
      let n := (tokInt l).toNat
      let c := ctx (tokInt r).toNat sub.toNat
      (n = 0 → sends (.twait g sub) (mkTok .n8 0)) ∧
      (0 < n → n ≤ c.done → sends (.twait g sub) (mkTok .n8 (tgetD c.statuses n 0))) ∧
      (c.done < n → exec (.twait g sub) s =
        .next (waits s f (.timeline (ctxKey (cellPane s f) (tokInt r).toNat sub.toNat) n)))) ∧
    (∀ sub, Fires s f (.tread g sub) → l.tag.isInt = true → selectorOk (tokInt l) sub.toNat = true →
      sends (.tread g sub) (mkTok .n64 (ctx (tokInt l).toNat sub.toNat).done)) ∧
    (Fires s f (.await g) → l.tag = .future →
      (∀ y, futAt s l.val = some y → y.state = .resolved → sends (.await g) y.result) ∧
      (∀ y, futAt s l.val = some y → y.state ≠ .resolved → exec (.await g) s = .next (waits s f (.future l.val))) ∧
      (futAt s l.val = none → exec (.await g) s = .next (raiseAt (popLane s) f ⟨.futureStale, l.val.toNat⟩))) ∧
    (∀ level, Fires s f (.waitc g level) → l.tag.isInt = true →
      let at_ := (levelId level l).bind fun id => levelAt s (taskD s f.tid).vi (taskD s f.tid).job level id
      (at_ = none → sends (.waitc g level) (mkTok .n8 0)) ∧
      (∀ v, at_ = some v → v.done = true → sends (.waitc g level) (mkTok .n8 v.stateCode)) ∧
      (∀ v id, levelId level l = some id → at_ = some v → v.done = false →
        exec (.waitc g level) s = .next (waits s f (.level level id)))) ∧
    (Fires s f (.tnow g) → tagTile l.tag = false →
      sends (.tnow g) ⟨.time, timeOfNs (dieTimeNs s (cellPane s f / 192))⟩) ∧
    (Fires s f (.swq g) → l.tag.isInt = true → r.tag.isInt = true → 0 ≤ tokInt l → tokInt l ≤ 31 →
      sends (.swq g) (mkTok .n64 (slotReport s (taskD s f.tid).vi (tokInt l).toNat (tokInt r))))) ∧
  (∀ (s : State) (f : Firing) (g : GF),
    let l := portD s f .l
    let r := portD s f .r
    let refuses := fun (i : Instr) => exec i s = .next (raiseAt (popLane s) f ⟨.format, 0⟩)
    (∀ sub, Fires s f (.twait g sub) → l.tag.isInt = false ∨ r.tag.isInt = false ∨ tokInt l < 0 ∨
      selectorOk (tokInt r) sub.toNat = false → refuses (.twait g sub)) ∧
    (∀ sub, Fires s f (.tread g sub) → l.tag.isInt = false ∨ selectorOk (tokInt l) sub.toNat = false →
      refuses (.tread g sub)) ∧
    (Fires s f (.await g) → l.tag ≠ .future → refuses (.await g)) ∧
    (∀ level, Fires s f (.waitc g level) → l.tag.isInt = false → refuses (.waitc g level)) ∧
    (Fires s f (.tnow g) → tagTile l.tag = true → refuses (.tnow g)) ∧
    (Fires s f (.swq g) → l.tag.isInt = false ∨ r.tag.isInt = false ∨ tokInt l < 0 ∨ 31 < tokInt l → refuses (.swq g)))

/-- R205, R212 to R216: SYSRD outside a maintenance graph raises PRIV with the register's number; inside one it sends the register's
value as N64, and a counter read with CLR set is cleared. An unassigned number reads zero. -/
def Obligations.SysrdReads : Prop :=
  ∀ (s : State) (f : Firing) (j : IF),
    let i : Instr := .sysrd j
    let n := j.imm.toNat
    let t := taskD s f.tid
    let v := mkTok .n64 (sysReg s (cellPane s f) (viIdOf s (some t)) n)
    (OnLane s f i → taskMaint s t = false → exec i s = .next (raiseAt (popLane s) f ⟨.priv, n⟩)) ∧
    (Fires s f i → taskMaint s t = true → tagTile (portD s f .l).tag = true →
      exec i s = .next (raiseAt (popLane s) f ⟨.format, 0⟩)) ∧
    (Fires s f i → taskMaint s t = true → tagTile (portD s f .l).tag = false →
      (n < 0x1C8 ∨ 0x1CF < n → exec i s = .next (sent s f i v v 0)) ∧
      (0x1C8 ≤ n → n ≤ 0x1CF → ∃ u, exec i s = .next u ∧ SendsValue s u f i v 0 id ∧ MemFrame s u ∧
        (Canonical s → bits (perfSelOf s (cellPane s f) (n - 0x1C8)) 13 1 = 1 → perfCntOf u (cellPane s f) (n - 0x1C8) = 0) ∧
        (bits (perfSelOf s (cellPane s f) (n - 0x1C8)) 13 1 = 0 → u.sr = s.sr))) ∧
    (0x2A8 ≤ n → v = mkTok .n64 0) ∧ (0x003 ≤ n → n ≤ 0x00F → v = mkTok .n64 0)

/-- R102, R216, R291 to R293, R303: a fault that a word raises before the marker of a shutter has come to its cell
stops its task: no instance of the task is left, the task is marked as stopped and keeps its registers, no word of it is on
a lane, and FAULT_INFO of the die holds the code and counts it. -/
def Obligations.FaultStopsTask : Prop :=
  ∀ (s : State) (f : Firing) (c : Flt) (t : Task) (x : Inst),
    taskAt s f.tid = some t → instAt s f.tid f.iter = some x → x.tid = f.tid → x.iter = f.iter →
    Canonical s → faultLate s t x f.slot = false →
    let p := placeOf s t x f.slot
    let u := raiseAt s f c
    (∃ t', taskAt u f.tid = some t' ∧ t'.stopped = true ∧ t'.regs = t.regs) ∧
    (∀ e ∈ s.wk.insts, e.2.tid = f.tid → instAt u f.tid e.2.iter = none ∧
      ∀ k ∈ u.wk.issue, k.tid = f.tid → k.iter ≠ e.2.iter) ∧
    tgetD u.sr.faultInfo p.die 0 = BitVec.ofNat 64
      (c.code.num + min (2 ^ 32 - 1) (bits (tgetD s.sr.faultInfo p.die 0).toNat 8 32 + 1) * 2 ^ 8)

/-! ### Tokens and activation (02, 08) -/

/-- R21, R23, R65, R89: a token that arrives for a live instance waits on its port, and its word becomes ready once every port it
reads is filled. A second token on a port is BLOCK_BAD; a token of a task that has ended, or of an iteration that has committed,
is dropped; one for another block of a live iteration, and one for an iteration still to come, wait. With the last token of a
word, those of it that lie in a frame or a spill come back to the matching store. A token that finds the store full goes to its
frame or to a spill (R223), and with no place left is STACK_LIMIT. R298: behind a shutter's marker no token is taken. -/
def Obligations.TokensArrive : Prop :=
  ∀ (s : State) (m : TokMsg),
    let e : Instr := .tokenArrive m
    let f : Firing := ⟨m.tid, m.iter, m.block, m.slot⟩
    let entry : TokEntry := ⟨m, s.clk.cycle, .store⟩
    let isRed := ∃ g k, instrAt s m.tid m.block m.slot = some (.red g k) ∧ m.port = .l
    let taken := ∃ y ∈ s.wk.toks, y.msg.tid = m.tid ∧ y.msg.iter = m.iter ∧ y.msg.block = m.block ∧ y.msg.slot = m.slot ∧
      y.msg.port = m.port
    let marked := fun (t : Task) => markedAt s t.graph (cellOf s t m.block m.slot)
    let room := fun (t : Task) => storeCount s (cellOf s t m.block m.slot) < 256
    let complete := ∃ i, instrAt s m.tid m.block m.slot = some i ∧
      canFire { s with wk := { s.wk with toks := s.wk.toks ++ [entry] } } f i = true
    (taskAt s m.tid = none → exec e s = .next s) ∧
    (∀ t, taskAt s m.tid = some t → marked t = true → exec e s = .next (repost s e)) ∧
    (∀ t x, taskAt s m.tid = some t → marked t = false → ¬ isRed → instAt s m.tid m.iter = some x →
      (x.block ≠ m.block → room t → exec e s = .next { s with wk := { s.wk with toks := s.wk.toks ++ [entry] } }) ∧
      (x.block = m.block → taken ∨ m.slot ∈ x.fired →
        exec e s = .next (raise s m.tid m.iter m.slot ⟨.blockBad, 0⟩)) ∧
      (x.block = m.block → ¬ taken → m.slot ∉ x.fired → room t ∨ complete →
        ∃ u, exec e s = .next u ∧ entry ∈ u.wk.toks ∧ u.wk.toks.length = s.wk.toks.length + 1 ∧
          (partners s f = [] → u.wk.toks = s.wk.toks ++ [entry] ∧ MemFrame s u) ∧ u.wk.insts = s.wk.insts ∧ u.wk.tasks = s.wk.tasks ∧
          u.net = s.net ∧
          (∀ i, instrAt s m.tid m.block m.slot = some i → Instr.firePorts i ≠ [] → waiting s f = false →
            canFire { s with wk := { s.wk with toks := s.wk.toks ++ [entry] } } f i = true →
            (∀ y ∈ u.wk.toks, sameWord y f = true → y.place = .store) ∧ ∃ r ∈ u.wk.ready, r.f = f)) ∧
      (∀ p, x.block = m.block → ¬ taken → m.slot ∉ x.fired → ¬ room t → ¬ complete →
        overflowPlace (countMatch s t m) t m = some p →
        ∃ u, exec e s = .next u ∧ u.wk.toks = s.wk.toks ++ [⟨m, s.clk.cycle, p⟩] ∧ p ≠ .store ∧ u.wk.insts = s.wk.insts ∧
          u.wk.tasks = s.wk.tasks ∧ u.net = s.net) ∧
      (x.block = m.block → ¬ taken → m.slot ∉ x.fired → ¬ room t → ¬ complete → t.stopped = false →
        overflowPlace (countMatch s t m) t m = none →
        exec e s = .next (raise (if (instAt s m.tid m.src).isSome then countMatch s t m else repost (countMatch s t m) e)
          m.tid m.iter m.slot ⟨.stackLimit, 0⟩))) ∧
    (∀ t, taskAt s m.tid = some t → marked t = false → ¬ isRed → instAt s m.tid m.iter = none →
      (addressPast s m = true → exec e s = .next s) ∧
      (addressPast s m = false → room t → ∃ u, exec e s = .next u ∧ entry ∈ u.wk.toks ∧ u.wk.insts = s.wk.insts ∧
        u.wk.tasks = s.wk.tasks ∧ u.net = s.net))

/-- R12, R22, R27, R84, R223, R353: an activation waits while its task is stopped, its iteration lives, 4,096 instances live or a
value is still to return; else it starts an instance in its frame, whose READs go to the datapath at once. A target that is
no block of the graph stops the task. -/
def Obligations.BlocksActivate : Prop :=
  ∀ (s : State) (a : Activation),
    let e : Instr := .blockActivate a
    (taskAt s a.tid = none → exec e s = .next s) ∧
    (∀ t, taskAt s a.tid = some t →
      (t.stopped = true ∨ (a.next = false ∧ outstanding s a.tid ≠ []) ∨ 4096 ≤ (instsOf s a.tid).length ∨
        (instAt s a.tid a.iter).isSome = true → exec e s = .next (repost s e)) ∧
      (t.stopped = false → a.next = true ∨ outstanding s a.tid = [] → (instsOf s a.tid).length < 4096 →
        instAt s a.tid a.iter = none →
        (blockAt (graphOf s t) a.block = none → blockMarked s t a.block 1 = false → t.spawned = false ∨ t.born = true →
          ∃ u t', exec e s = .next u ∧ taskAt u a.tid = some t' ∧ t'.stopped = true) ∧
        (∀ b frame, blockAt (graphOf s t) a.block = some b → blockMarked s t a.block b.words.length = false →
          (hdrRe b.header = true → a.loopHead = true ∨ t.loop.isSome = true) →
          (frameGranules b.header = 0 ∧ frame = none) ∨
            (frameGranules b.header ≠ 0 ∧ framePlace s t a.tid (frameGranules b.header) = frame ∧ frame.isSome = true) →
          activationBad ⟨(graphOf s t).blocks, (graphOf s t).arenas.length, (graphOf s t).waffles⟩ b = none →
          (∀ y ∈ s.wk.toks, ¬ (y.msg.tid = a.tid ∧ y.msg.iter = a.iter ∧ y.msg.block = a.block)) →
          ∃ u x, exec e s = .next u ∧ instAt u a.tid a.iter = some x ∧ x.block = a.block ∧ x.frame = frame ∧ x.fired = [] ∧
            x.nulled = [] ∧ x.requests = [] ∧ x.mayNext = a.mayNext ∧ u.wk.toks = s.wk.toks ∧ u.net = s.net ∧ MemFrame s u ∧
            (∀ k t0 t1 reg, (k, Instr.read t0 t1 reg) ∈ blockSlots u x → ⟨a.tid, a.iter, a.block, k⟩ ∈ u.wk.issue) ∧
            ((∀ y ∈ blockSlots u x, Instr.cls y.2 ≠ .branch) →
              x.branch = some (.goto (fallThrough a.block b.header) false)))))

/-- R28, R29, R240, R241: a cell issues at most eight ready instances of one word of one task; they leave the ready list
for the lanes; of an instance only its last issue is noted. It issues nothing where no context can, and something where a context with a positive deficit can.
READY_PROMOTE puts an instance that has been ready for 4,096 × W cycles ahead. R158, R185, R196, R199: a word that
waits goes back to the datapath to make its check anew: a wait on a granule at any time, the others once the timeline,
the future or the level has come; else it goes on waiting. (That an issue stands over to a later cycle, where an earlier issue
of the cycle took a higher slot of one of its instances, is log 109.) -/
def Obligations.CellsIssueAndWaitsEnd : Prop :=
  (∀ (s : State),
    (∀ die pane cell, ∃ u fs, exec (.cellIssue die pane cell) s = .next u ∧ u.wk.issue = s.wk.issue ++ fs ∧ fs.length ≤ 8 ∧
      (∀ f ∈ fs, (∃ r ∈ s.wk.ready, r.f = f) ∧ ¬ (∃ r ∈ u.wk.ready, r.f = f)) ∧
      (∀ f ∈ fs, ∀ k ∈ fs, f.tid = k.tid ∧ f.block = k.block ∧ f.slot = k.slot) ∧
      u.wk.tasks = s.wk.tasks ∧ u.wk.toks = s.wk.toks ∧ u.net = s.net ∧ MemFrame s u ∧
      (∀ tid iter, (instAt u tid iter).map (fun x => { x with last := (0, 0) }) =
        (instAt s tid iter).map fun x => { x with last := (0, 0) }) ∧
      ((∀ q, readyOn s ((die * 192 + pane) * 16 + cell) q = []) → u = s) ∧
      (∀ q ∈ boundContexts s (die * 192 + pane), readyOn s ((die * 192 + pane) * 16 + cell) q ≠ [] →
        (∀ r ∈ s.wk.ready, slotTurn s r.f = true) →
        (∃ d, (tgetD s.wk.cells ((die * 192 + pane) * 16 + cell) {}).deficits[q]? = some d ∧ 0 < d) → fs ≠ [])) ∧
    (∀ f, ∃ u, exec (.readyPromote f) s = .next u ∧ u.wk.issue = s.wk.issue ∧ u.wk.insts = s.wk.insts ∧ MemFrame s u ∧
      u.wk.ready.length = s.wk.ready.length ∧
      (∀ r ∈ s.wk.ready, r.f = f → r.since + 4096 * weightSum s (cellPane s f) ≤ s.clk.cycle →
        { r with promoted := true } ∈ u.wk.ready) ∧
      (∀ r ∈ u.wk.ready, r ∈ s.wk.ready ∨
        (r.f = f ∧ r.since + 4096 * weightSum s (cellPane s f) ≤ s.clk.cycle ∧ r.promoted = true)))) ∧
  (∀ (s : State) (f : Firing),
    let woken := { s with wk := { s.wk with
      waits := s.wk.waits.filter (fun w => w.1 ≠ f), issue := s.wk.issue ++ [f] } }
    ((f, .granule) ∈ s.wk.waits → exec (.granuleWake f) s = .next woken) ∧
    ((f, .granule) ∉ s.wk.waits → exec (.granuleWake f) s = .next s) ∧
    (∀ k n, (f, .timeline k n) ∈ s.wk.waits → n ≤ (ctxAt s k).done → exec (.twaitWake f) s = .next woken) ∧
    ((∀ k n, (f, .timeline k n) ∈ s.wk.waits → (ctxAt s k).done < n) → exec (.twaitWake f) s = .next s) ∧
    (∀ p r, (f, .future p) ∈ s.wk.waits → futAt s p = some r → r.state = .resolved →
      exec (.awaitWake f) s = .next woken) ∧
    ((∀ p, (f, .future p) ∈ s.wk.waits → ∃ r, futAt s p = some r ∧ r.state ≠ .resolved) →
      exec (.awaitWake f) s = .next s) ∧
    (∀ l id v, (f, .level l id) ∈ s.wk.waits → levelAt s (taskD s f.tid).vi (taskD s f.tid).job l id = some v →
      v.done = true → exec (.waitcWake f) s = .next woken) ∧
    ((∀ l id, (f, .level l id) ∈ s.wk.waits →
      ∃ v, levelAt s (taskD s f.tid).vi (taskD s f.tid).job l id = some v ∧ v.done = false) →
      exec (.waitcWake f) s = .next s))

/-! ### Commit (02, 03) -/

/-- R14 to R16, R20, R109, R117, R119, R141: a block that is not due does not commit, and one whose checks fail faults at the slot
found. A commit ends its instance; control goes where the branch says, EXIT ends the task with its result on the way to the
future's home, and the registers take the block's WRITEs, the highest WID last. -/
def Obligations.BlocksCommit : Prop :=
  ∀ (s : State) (tid iter : Nat) (t : Task) (x : Inst), Canonical s → taskAt s tid = some t → instAt s tid iter = some x →
    let e : Instr := .blockCommit tid iter
    (commitDue s t x = false → exec e s = .next s) ∧
    (∀ slot f, commitDue s t x = true → commitFault s t x = some (slot, f) →
      exec e s = .next (raise s tid iter slot f)) ∧
    (Commits s tid iter t x → ∃ u, exec e s = .next u ∧ tget u.wk.insts (instKey tid iter) = none ∧
      (trapOf s t x = none → (∀ r ∈ x.requests, ∀ l id, r.kind ≠ .cancel l id) →
        (∀ va call, x.branch = some (.goto va call) →
          .blockActivate ⟨tid, 0, va, true, true, false⟩ ∈ u.net ∧ ∃ t', taskAt u tid = some t') ∧
        (∀ v, x.branch = some (.exit v) → (∀ b ∈ s.wk.births, b.f.tid ≠ tid) → taskAt u tid = none ∧
          .futureExitArrive ⟨futPayload t.fut (tgetD s.wk.futs t.fut {}).gen, tid, v, !t.spawned⟩ ∈ u.net) ∧
        (∀ va, x.branch = some (.goto va false) → x.requests = [] → ∃ t', taskAt u tid = some t' ∧
          ∀ r, r ≠ 61 → regOf t' r = (lastWrite s x r).getD (regOf t r))))

/-- R161, R164 to R166, R160, R218: the effect of one local-store word at its block's commit, and its frame: LST writes
its token's bytes at handle and offset and makes the granule FULL; FES makes it FULL or EMPTY; BINIT makes a barrier
of N arrivals; BARR counts one and returns the PHASE; a take leaves it EMPTY. Every other byte of local store reads as
before, but for the granules that hold the task's own registers (R221), into which the commit writes its WRITEs and flags. R14, R149, R154, R270: a block's global store or atomic is on its way to its home from the commit on, with the
physical address found when it fired; memory stays as it was until it performs there, and an MST's copies are on their way to the
panes of its graph (R151). R171, R176, R177, R195, R198, R200, R202, R204, R206, R207: FREE and RELS give up a record and granules,
REF and DROP send a change to the future's home, an engine word takes the next number of its context, LAUNCH makes a launch with the next
id, CANCEL marks its level, TICKW sends its descriptor, KVGROW returns its page or waits for one, SYSWR goes to its
register's owner, and PROF raises the counters that select its event. (A commit that other tasks' starts follow publishes write
sets, whose lines are to be present for no line to be filled.) -/
def Obligations.EffectsAtCommit : Prop :=
  (∀ (s : State) (tid iter : Nat) (t : Task) (x : Inst) (ret : Option Nat) (g : Nat), Canonical s →
    let e : Instr := .blockCommit tid iter
    let same := fun (u : State) => ∀ a, outsideOwn s t a → byteAt u.ls.bytes a = byteAt s.ls.bytes a
    (∀ h off fmt tok o, OneEffect s tid iter t x (.lst h off fmt tok) ret → ¬ ownGranule s t g →
      resolve s h (off : Int) (accessWidth fmt) = .ok (.here g, o) → tok.tag ≠ .poison →
      ∃ u, exec e s = .next u ∧ gState u.ls g = 1 ∧
        bytesAt u.ls.bytes (granuleByte g + o) (accessWidth fmt) = storeBytes fmt tok ∧
        (∀ a, outsideOwn s t a → a < granuleByte g + o ∨ granuleByte g + o + accessWidth fmt ≤ a →
          byteAt u.ls.bytes a = byteAt s.ls.bytes a)) ∧
    (∀ h off fmt tok o, OneEffect s tid iter t x (.lst h off fmt tok) ret →
      resolve s h (off : Int) (accessWidth fmt) = .ok (.here g, o) → tok.tag = .poison →
      ∃ u, exec e s = .next u ∧ gState u.ls g = 1 ∧ gPoison u.ls g = true ∧ same u) ∧
    (∀ h off full, OneEffect s tid iter t x (.fes h off full) ret → localGranule s h off = some (.here g) →
      ∃ u, exec e s = .next u ∧ gState u.ls g = (if full then 1 else 0) ∧
        (full = false → s.ls.upset = [] → gPoison u.ls g = false) ∧ same u) ∧
    (∀ h off n, OneEffect s tid iter t x (.binit h off n) ret → ¬ ownGranule s t g → localGranule s h off = some (.here g) → n < 65536 →
      ∃ u, exec e s = .next u ∧ gState u.ls g = 2 ∧ gRsv u.ls g = false ∧
        bytesAt u.ls.bytes (granuleByte g) 16 = bytesOf 16 (n + n * 2 ^ 16) ∧
        (∀ a, outsideOwn s t a → a < granuleByte g ∨ granuleByte g + 16 ≤ a →
          byteAt u.ls.bytes a = byteAt s.ls.bytes a)) ∧
    (∀ h off, OneEffect s tid iter t x (.barr h off) ret → ¬ ownGranule s t g → localGranule s h off = some (.here g) →
      let v := natOfBytes (granuleAt s.ls g)
      let count := v % 65536
      let n := v / 65536 % 65536
      let phase := v / 2 ^ 32 % 65536
      ∃ u w reg, exec e s = .next u ∧ gState u.ls g = gState s.ls g ∧ w = natOfBytes (granuleAt u.ls g) ∧
        (count ≠ 1 → w % 65536 = (count + 65535) % 65536 ∧ w / 2 ^ 32 % 65536 = phase) ∧
        (count = 1 → w % 65536 = n ∧ w / 2 ^ 32 % 65536 = (phase + 1) % 65536) ∧
        .returnValueArrive ⟨tid, iter, t.launch, reg, mkTok .n16 phase, 0⟩ ∈ u.net ∧
        (∀ a, outsideOwn s t a → a < granuleByte g ∨ granuleByte g + 16 ≤ a →
          byteAt u.ls.bytes a = byteAt s.ls.bytes a)) ∧
    (∀ h off, OneEffect s tid iter t x (.take h off) ret → localGranule s h off = some (.here g) →
      ∃ u, exec e s = .next u ∧ gState u.ls g = 0 ∧ gRsv u.ls g = false ∧ (s.ls.upset = [] → gPoison u.ls g = false) ∧ same u) ∧
    (∀ op h off fmt v o, OneEffect s tid iter t x (.lamo op h off fmt v) ret → ¬ ownGranule s t g → s.ls.upset = [] →
      resolve s h (off : Int) (accessWidth fmt) = .ok (.here g, o) →
      let poisoned := gPoison s.ls g = true ∨ v.tag = .poison
      let old := loadTok fmt (bytesAt s.ls.bytes (granuleByte g + o) (accessWidth fmt))
      let new := atomNew op old v v
      ∃ u reg, exec e s = .next u ∧ gState u.ls g = 1 ∧
        (poisoned → gPoison u.ls g = true ∧ same u ∧
          .returnValueArrive ⟨tid, iter, t.launch, reg, poisonTok, 0⟩ ∈ u.net) ∧
        (¬ poisoned → bytesAt u.ls.bytes (granuleByte g + o) (accessWidth fmt) = storeBytes fmt new.1 ∧
          .returnValueArrive ⟨tid, iter, t.launch, reg, old, new.2⟩ ∈ u.net ∧
          (∀ a, outsideOwn s t a → a < granuleByte g + o ∨ granuleByte g + o + accessWidth fmt ≤ a →
            byteAt u.ls.bytes a = byteAt s.ls.bytes a)))) ∧
  (∀ (s : State) (tid iter : Nat) (t : Task) (x : Inst) (ret : Option Nat),
    let still := fun (u : State) => (∀ a, outsideOwn s t a → byteAt u.ls.bytes a = byteAt s.ls.bytes a) ∧
      (s.ls.upset = [] → ∀ g, gstAt u.ls g = gstAt s.ls g) ∧ (WritesNoRegister s x → StartsTracked s → MemFrame s u)
    (∀ va pa rdev fmt tok rel c, OneEffect s tid iter t x (.store va pa rdev fmt tok rel c false) ret →
      ∃ u m, exec (.blockCommit tid iter) s = .next u ∧ .globalWritePerform m ∈ u.net ∧ m.tid = tid ∧ m.pa = pa ∧
        m.rdev = rdev ∧ m.bytes = storeBytes fmt tok ∧ m.poison = decide (tok.tag = .poison) ∧ m.seq = t.seq ∧ still u) ∧
    (∀ op va pa rdev fmt a b rel, OneEffect s tid iter t x (.atom op va pa rdev fmt a b rel) ret →
      ∃ u m, exec (.blockCommit tid iter) s = .next u ∧ .atomicPerform m ∈ u.net ∧ m.tid = tid ∧ m.pa = pa ∧ m.rdev = rdev ∧
        m.op = op ∧ m.fmt = fmt ∧ m.r = a ∧ m.x = b ∧ m.seq = t.seq ∧ still u) ∧
    (∀ va pa rdev fmt tok rel c, OneEffect s tid iter t x (.store va pa rdev fmt tok rel c true) ret → WritesNoRegister s x →
      ∃ u m, exec (.blockCommit tid iter) s = .next u ∧ .globalWritePerform m ∈ u.net ∧ m.tid = tid ∧ m.pa = pa ∧
        m.rdev = rdev ∧ m.bytes = storeBytes fmt tok ∧ m.poison = decide (tok.tag = .poison) ∧ m.seq = t.seq ∧
        (∀ p ∈ boundPanes s t.graph, tok.tag ≠ .poison → ∃ k ∈ tgetD u.gm.mcast p [], k.tid = tid ∧ k.seq = t.seq ∧
          k.pa = devLoc rdev pa ∧ k.bytes = storeBytes fmt tok ∧ k.here = false) ∧ still u)) ∧
  (∀ (s : State) (tid iter : Nat) (t : Task) (x : Inst) (slot : Nat) (ret : Option Nat), Canonical s →
    let e : Instr := .blockCommit tid iter
    let alone := fun (k : ReqKind) => Alone s tid iter t x ⟨slot, none, ret, k⟩
    let pane := cellPane s ⟨tid, iter, x.block, slot⟩
    let rest := fun (u : State) => (∀ a, outsideOwn s t a → byteAt u.ls.bytes a = byteAt s.ls.bytes a) ∧
      (s.ls.upset = [] → ∀ g, gstAt u.ls g = gstAt s.ls g)
    let returns := fun (u : State) (v : Token) => ∃ reg, .returnValueArrive ⟨tid, iter, t.launch, reg, v, 0⟩ ∈ u.net
    (∀ h k r, alone (.free h) → handleRec h = some k → tget s.al.recs k = some r →
      ∃ u, exec e s = .next u ∧ (tgetD u.al.recs k {}).count = r.count - 1 ∧ rest u ∧
        (r.count = 1 → .allocationRelease ⟨k / 4096, k % 4096, true, [], [], r.gseq⟩ ∈ u.net) ∧
        (1 < r.count → ∀ m, .allocationRelease m ∈ u.net → .allocationRelease m ∈ s.net)) ∧
    (∀ h n k r, alone (.rels h n) → handleRec h = some k → tget s.al.recs k = some r → n ≤ r.len1 + r.len2 →
      let granule := fun (j : Nat) => if j < r.len1 then r.base1 + j else r.base2 + (j - r.len1)
      ∃ u y, exec e s = .next u ∧ tget u.al.recs k = some y ∧ y.len1 + y.len2 = n ∧ y.count = r.count ∧ y.live = r.live ∧
        y.base1 = r.base1 ∧ y.base2 = r.base2 ∧ rest u ∧
        (r.spilled = false → n < r.len1 + r.len2 → ∃ m, .allocationRelease m ∈ u.net ∧ m.whole = false ∧
          m.pane * 4096 + m.index = k ∧ m.copies = [] ∧
          ∀ g, (∃ c ∈ m.cut, c.1 ≤ g ∧ g < c.1 + c.2) ↔ ∃ j, n ≤ j ∧ j < r.len1 + r.len2 ∧ g = granule j)) ∧
    (∀ f, alone (.ref f) → ∃ u, exec e s = .next u ∧ rest u ∧
      .refChangeArrive ⟨f, true, some tid, some (originOf s t x slot)⟩ ∈ u.net) ∧
    (∀ f, alone (.drop f) → ∃ u, exec e s = .next u ∧ rest u ∧
      .refChangeArrive ⟨f, false, some tid, some (originOf s t x slot)⟩ ∈ u.net) ∧
    (∀ sel sub k, alone (.engine sel sub k) →
      let q := ctxAt s (ctxKey pane sel sub)
      ∃ u c, exec e s = .next u ∧ rest u ∧ (ctxAt u (ctxKey pane sel sub)).issued = q.issued + 1 ∧
        (ctxAt u (ctxKey pane sel sub)).done = q.done ∧ (ctxAt u (ctxKey pane sel sub)).queue = q.queue ++ [c] ∧
        c.num = q.issued + 1 ∧ c.kind = k ∧ c.tid = tid ∧ c.started = false ∧ c.status = none ∧
        returns u (mkTok .n64 (q.issued + 1))) ∧
    (∀ card, alone (.launch card) → (tget s.jb.vis t.vi).isSome = true →
      let id := (viD s t.vi).nextLaunch
      ∃ u l, exec e s = .next u ∧ rest u ∧ tget u.jb.launches (launchKey t.vi id) = some l ∧ l.card = card ∧ l.vi = t.vi ∧
        l.job = t.job ∧ l.id = id ∧ (viD u t.vi).nextLaunch = (if id + 1 < 2 ^ 32 then id + 1 else 1) ∧
        returns u (mkTok .i32 id)) ∧
    (∀ l id v, alone (.cancel l id) → levelAt s t.vi t.job l id = some v →
      ∃ u v', exec e s = .next u ∧ levelAt u t.vi t.job l id = some v' ∧ v'.cancelled = (v.cancelled || !v.done) ∧
        v'.done = v.done) ∧
    (∀ source va pa rdev, alone (.tickw source va pa rdev) → WritesNoRegister s x →
      ∃ u m, exec e s = .next u ∧ rest u ∧ .tickSetWrite (.install m) ∈ u.net ∧ m.source = source ∧ m.die = t.die ∧ m.tid = tid ∧
        m.vi = t.vi ∧ m.job = t.job ∧ m.desc = BitVec.ofNat 256 (natOfBytes (homeBytes s pa rdev 32))) ∧
    (∀ va, alone (.kvgrow va) → WritesNoRegister s x → Present s t.vi va →
      (isMapped s t.vi va = true → ∃ u, exec e s = .next u ∧ rest u ∧ returns u (mkTok .addr va) ∧ u.fw.grants = s.fw.grants) ∧
      (∀ p more, isMapped s t.vi va = false → tgetD s.fw.grants pane [] = p :: more →
        ∃ u, exec e s = .next u ∧ rest u ∧ returns u (mkTok .addr va) ∧ tgetD u.fw.grants pane [] = more) ∧
      (isMapped s t.vi va = false → tgetD s.fw.grants pane [] = [] → tget s.fw.mailbox pane = none →
        ∃ u y, exec e s = .next u ∧ rest u ∧ tget u.fw.mailbox pane = some y ∧ y.va = va ∧ y.vi = t.vi ∧ y.tid = tid)) ∧
    (∀ n v, alone (.syswr n v) → ∃ u, exec e s = .next u ∧ rest u ∧
      syswrMsg n ⟨pane / 192, pane, n, v, some tid, some t.launch⟩ ∈ u.net) ∧
    (∀ ev v c, alone (.prof ev v) → c < 8 → bits (perfSelOf s pane c) 11 2 = 2 → bits (perfSelOf s pane c) 0 11 = ev →
      frozen s (pane / 192) = false →
      ∃ u, exec e s = .next u ∧ rest u ∧ perfCntOf u pane c = min (2 ^ 64 - 1) (perfCntOf s pane c + v)))

/-- R105, R145, R147, R221: a value that returns goes to the register of its WRITE, its flags to the task's, and no other
register changes but g61. Register r stands in the carve-out: its payload in the eight bytes of half r mod 2 of granule
r ÷ 2, its tag in byte r mod 16 of granule 32 + r ÷ 16. No other byte changes. -/
def Obligations.ValuesReturn : Prop :=
  ∀ (s : State) (m : RetMsg) (t : Task), Canonical s → taskAt s m.tid = some t →
    ∃ u t', exec (.returnValueArrive m) s = .next u ∧ taskAt u m.tid = some t' ∧ u.wk.insts = s.wk.insts ∧
      (s.ls.upset = [] ∨ (∀ r, m.reg = some r → (regOf t r).tag ≠ .future) → ∀ g, gstAt u.ls g = gstAt s.ls g) ∧
      ((∀ r, m.reg = some r → r < 64) → ∀ a, outsideOwn s t a → byteAt u.ls.bytes a = byteAt s.ls.bytes a) ∧
      ((∀ r, tget s.al.recs t.carve = some r → r.spilled = false) → u.gm = s.gm) ∧
      (∀ r g k, m.reg = some r → r < 64 → r ≠ 61 → carveGranule s t (r / 2) = some (.here g) →
        carveGranule s t (32 + r / 16) = some (.here k) → g ≠ k →
        bytesAt u.ls.bytes (granuleByte g + 8 * (r % 2)) 8 = bytesOf 8 m.tok.val.toNat ∧
        byteAt u.ls.bytes (granuleByte k + r % 16) = BitVec.ofNat 8 (Tag.code m.tok.tag)) ∧
      (∀ r, m.reg = some r → r ≠ 61 → regOf t' r = m.tok) ∧
      (∀ r, m.reg ≠ some r → r ≠ 61 → regOf t' r = regOf t r) ∧
      (m.reg ≠ some 61 → m.flags ≠ 0 →
        regOf t' 61 = mkTok .n32 ((regOf t 61).val.toNat % 256 ||| m.flags.toNat)) ∧
      (m.reg ≠ some 61 → m.flags = 0 → regOf t' 61 = regOf t 61)

/-! ### Tasks, futures, colours, allocation (02, 03, 08) -/

/-- R32, R33, R208, R221, R242, R250, R260: a chunk in the dealer's hand asks for its colour and its carve-out on the pane with
the fewest tasks of the launch, or waits in line for the colour; with both it starts as a task with g56 to g61 set, its
registers in its carve-out, and its entry block activated once for each record of it. -/
def Obligations.ChunksDealt : Prop :=
  ∀ (s : State) (key : Nat) (l : Launch), Canonical s → tget s.jb.launches key = some l →
    let e : Instr := .dealChunk key
    (dealing s l = false ∨ unitsFull s key 1 = true → exec e s = .next s) ∧
    (dealing s l = true → l.hand = none → l.reccount ≤ l.dealt → exec e s = .next s) ∧
    (∀ p, dealing s l = true → unitsFull s key 1 = false → l.hand = none → l.dealt < l.reccount →
      fewest (fun p => liveOn s fun t => t.launch = key && t.pane = p)
        ((boundPanes s l.graph).filter fun p => liveOn s (fun t => t.launch = key && t.pane = p) < 2) = some p →
      takeColour s (p / 192) = none ∨ mayTake s (p / 192) false (.deal key) = false →
      ∃ u, exec e s = .next u ∧ u.net = s.net ∧ u.wk.tasks = s.wk.tasks ∧ MemFrame s u ∧
        ∃ q ∈ u.wk.line, q.who = .deal key ∧ q.die = p / 192 ∧ q.record = false) ∧
    (∀ p col s1, dealing s l = true → unitsFull s key 1 = false → l.hand = none → l.dealt < l.reccount →
      fewest (fun p => liveOn s fun t => t.launch = key && t.pane = p)
        ((boundPanes s l.graph).filter fun p => liveOn s (fun t => t.launch = key && t.pane = p) < 2) = some p →
      takeColour s (p / 192) = some (col, s1) → mayTake s (p / 192) false (.deal key) = true →
      ∃ u r l', exec e s = .next u ∧ u.net = s.net ++ [.allocRequestArrive r] ∧ r.asker = .deal key ∧ r.arena = poolKey p ∧
        r.size = Nat.max 128 l.carve ∧ r.colour = col ∧ tget u.jb.launches key = some l' ∧
        l'.dealt = l.dealt + chunkSize s l ∧
        l'.hand = some ⟨l.dealt, chunkSize s l, some p, some col, none⟩ ∧ MemFrame s u) ∧
    (∀ c p col carve fut, dealing s l = true → unitsFull s key 1 = false → l.hand = some c → c.pane = some p →
      c.colour = some col → c.granted = some carve → takeFut s (p / 192) = some fut →
      mayTake s (p / 192) true (.deal key) = true →
      ∃ u t, exec e s = .next u ∧ taskAt u (p / 192 * 65536 + col) = some t ∧ t.pane = p ∧ t.launch = key ∧ t.graph = l.graph ∧
        t.fut = fut ∧ regOf t 56 = mkTok .addr ((l.records + c.first * l.recsize) % 2 ^ 52) ∧
        regOf t 57 = mkTok .i32 c.count ∧ regOf t 58 = mkTok .i32 l.id ∧ regOf t 59 = mkTok .addr l.card ∧
        (regOf t 60).tag = .handle ∧ regOf t 61 = mkTok .n32 0 ∧
        (∀ r, r < 56 ∨ 61 < r → regOf t r = nullTok) ∧
        u.net = s.net ++ entryRun (p / 192 * 65536 + col) l.entry c.count ∧
        (∀ g, gstAt u.ls g = gstAt s.ls g) ∧ ∀ a, outsideOwn s t a → byteAt u.ls.bytes a = byteAt s.ls.bytes a)

/-- R38, R39, R41, R42, R119, R195, R256: a change of a count acts at the future's home: it saturates, and a count of zero
frees a resolved record, raising its generation, or reclaims a running task, unless its EXIT is on its way, which then
frees the record (that a count of zero while the EXIT is under way waits for it is log 43). An EXIT resolves its future once the
task's effects have performed; a dealt task's record is freed, and a saturated one whose job has gone. A late change is recorded as FUTURE_STALE. R43, R250: a
cooling colour, one of the first 64 of its die, goes to the end of the die's pool once no message and no token carries
it; before that nothing happens. -/
def Obligations.FuturesAndColours : Prop :=
  (∀ (s : State), Canonical s →
    (∀ m : RefMsg,
      let e : Instr := .refChangeArrive m
      let k := futKey m.fut
      (∀ o, liveFut s m.fut = none → m.origin = some o →
        exec e s = .next (recordGoOn s o ⟨.futureStale, m.fut.toNat⟩)) ∧
      (liveFut s m.fut = none → m.origin = none → exec e s = .next s) ∧
      (∀ r, liveFut s m.fut = some r →
        (r.stuck = true → exec e s = .next s) ∧
        (r.stuck = false → m.up = true → ∃ u, exec e s = .next u ∧ tget u.wk.futs k = some
          (if r.count = 2 ^ 24 - 1 then { r with stuck := true } else { r with count := r.count + 1 })) ∧
        (r.stuck = false → m.up = false → 1 < r.count →
          ∃ u, exec e s = .next u ∧ tget u.wk.futs k = some { r with count := r.count - 1 }) ∧
        (r.stuck = false → m.up = false → r.count ≤ 1 → r.state = .resolved →
          ∃ u, exec e s = .next u ∧ tget u.wk.futs k = some { gen := (r.gen + 1) % 2 ^ 32 }) ∧
        (r.stuck = false → m.up = false → r.count ≤ 1 → r.state = .running → exitUnderWay s m.fut = true →
          ∃ u, exec e s = .next u ∧ tget u.wk.futs k = some { r with count := 0 } ∧ u.wk.tasks = s.wk.tasks) ∧
        (r.stuck = false → m.up = false → r.count ≤ 1 → r.state = .running → exitUnderWay s m.fut = false →
          ∃ u, exec e s = .next u ∧ taskAt u (k / 131072 * 65536 + r.colour) = none))) ∧
    (∀ m : ExitMsg,
      let e : Instr := .futureExitArrive m
      let k := futKey m.fut
      let busy := (∃ i ∈ s.net, ∃ q, effectOf i = some (m.tid, q)) ∨ ∃ y ∈ s.gm.seen, y.tid = m.tid
      (busy → exec e s = .next (repost s e)) ∧
      (¬ busy → futAt s m.fut = none → exec e s = .next s) ∧
      (∀ r, ¬ busy → futAt s m.fut = some r →
        m.dealt = true ∨ (r.count = 0 ∧ r.stuck = false) ∨ (r.stuck = true ∧ tget s.jb.jobs r.job = none) →
        ∃ u, exec e s = .next u ∧ tget u.wk.futs k = some { gen := (r.gen + 1) % 2 ^ 32 }) ∧
      (∀ r, ¬ busy → futAt s m.fut = some r → m.dealt = false → r.count ≠ 0 ∨ r.stuck = true →
        (r.stuck = true → (tget s.jb.jobs r.job).isSome = true) →
        ∃ u, exec e s = .next u ∧ tget u.wk.futs k = some { r with state := .resolved, result := m.tok } ∧ MemFrame s u))) ∧
  (∀ (s : State) (die colour : Nat), Canonical s →
    let e : Instr := .colourDrainDone die colour
    let tid := die * 65536 + colour
    let cool := tgetD s.wk.cooling die []
    let carried := (∃ i ∈ s.net, carriesColour tid i = true) ∨ (∃ y ∈ s.wk.toks, y.msg.tid = tid) ∨
      ∃ y ∈ s.gm.seen, y.tid = tid
    (colour ∉ cool.take 64 ∨ carried → exec e s = .next s) ∧
    (colour ∈ cool.take 64 → ¬ carried → ∃ u, exec e s = .next u ∧ tgetD u.wk.cooling die [] = lerase cool colour ∧
      (tgetD u.wk.pools die {}).returned = (tgetD s.wk.pools die {}).returned ++ [colour] ∧
      (tgetD u.wk.pools die {}).next = (tgetD s.wk.pools die {}).next ∧ (∀ r ∈ u.wk.reds, r.tid ≠ tid) ∧ MemFrame s u))

/-- R174, R221, R222, R231 to R236, R257: a request that finds no hole waits; in NORMAL mode it is granted the lowest hole that
holds it and the lowest free record: the granules are EMPTY, and the word sends the handle. A request granted past an older one
overtakes it; one overtaken as often as the arena's limit says puts the arena in RESERVE mode, in which the oldest alone is
served, from the lowest hole that holds it or else from the largest hole and the lowest other one that holds the rest. A
carve-out takes two records, of the whole and of its stack; the dealer's goes to the chunk in its hand, a SPAWN's to the SPAWN,
which goes back to its lane. A carve-out that the pane's task pool can never hold is withdrawn with STACK_LIMIT. (That a request which
would come behind a later one of its cycle waits for the next is log 87.) -/
def Obligations.RequestsGranted : Prop :=
  (∀ (s : State) (r : AllocReq), Canonical s →
    let a := arenaAt s r.arena
    let e : Instr := .allocRequestArrive r
    let fits := a.pool = false ∨ r.size ≤ poolSize s a.pane
    let normal := a.reserve = false ∧ r.overtakes < a.limit
    let hs := holes s r.arena
    let empty := fun (u : State) (x : Nat × Nat) => ∀ g, x.1 ≤ g → g < x.1 + x.2 → gstAt u.ls (a.pane * 65536 + g) = 0
    let granted := fun (u : State) (key : Nat) (e1 e2 : Nat × Nat) => ∃ y, tget u.al.recs key = some y ∧ y.live = true ∧
      y.base1 = e1.1 ∧ y.len1 = e1.2 ∧ y.base2 = e2.1 ∧ y.len2 = e2.2 ∧ y.count = r.count ∧ y.owner = r.colour ∧
      empty u e1 ∧ empty u e2 ∧ (arenaAt u r.arena).waiting = [] ∧ (arenaAt u r.arena).reserve = false ∧
      ∀ b, byteAt u.ls.bytes b = byteAt s.ls.bytes b
    (inTurn s r.arena (arrivalRank r) = false → exec e s = .next (repost s e)) ∧
    (inTurn s r.arena (arrivalRank r) = true →
    (∀ f, ¬ fits → r.asker = .spawn f → exec e s = .next (raiseAt s f ⟨.stackLimit, r.size⟩)) ∧
    (∀ k l, ¬ fits → r.asker = .deal k → tget s.jb.launches k = some l →
      ∃ u l', exec e s = .next u ∧ tget u.jb.launches k = some l' ∧ l'.hand = none ∧ l'.stopDeal = true) ∧
    (a.waiting = [] →
    (fits → normal → firstHole hs r.size = none →
      ∃ u, exec e s = .next u ∧ (arenaAt u r.arena).waiting = [{ r with age := s.clk.cycle }] ∧ u.al.recs = s.al.recs ∧
        u.net = s.net ∧ MemFrame s u) ∧
    (∀ h f i, fits → normal → firstHole hs r.size = some h → recsFree s a.pane r = true → r.asker = .word f →
      instrAt s f.tid f.block f.slot = some i →
      ∃ u key, exec e s = .next u ∧ (freeRecs s a.pane).head? = some key ∧ granted u key (h.1, r.size) (0, 0) ∧
        u.net = s.net ++ resultMsgs f i (mkTok .handle (handleOf key)) (mkTok .handle (handleOf key))) ∧
    (fits → ¬ normal → recsFree s a.pane r = false ∨ reservePlace hs r.size = none →
      ∃ u, exec e s = .next u ∧ (arenaAt u r.arena).waiting = [{ r with age := s.clk.cycle }] ∧
        (arenaAt u r.arena).reserve = true ∧ u.al.recs = s.al.recs ∧ u.net = s.net ∧ MemFrame s u) ∧
    (∀ e1 e2 f i, fits → ¬ normal → reservePlace hs r.size = some (e1, e2) → recsFree s a.pane r = true → r.asker = .word f →
      instrAt s f.tid f.block f.slot = some i →
      ∃ u key, exec e s = .next u ∧ (freeRecs s a.pane).head? = some key ∧ granted u key e1 e2 ∧
        u.net = s.net ++ resultMsgs f i (mkTok .handle (handleOf key)) (mkTok .handle (handleOf key))) ∧
    (∀ b key key2 more, fits → ¬ normal → a.pool = true → 4 ≤ r.size → reservePlace hs r.size = some ((b, r.size), (0, 0)) →
      freeRecs s a.pane = key :: key2 :: more →
      let stack := fun (u : State) => ∃ z, tget u.al.recs key2 = some z ∧ z.live = true ∧ z.base1 = b + (r.size - r.size / 4) ∧
        z.len1 = r.size / 4 ∧ z.len2 = 0 ∧ z.count = 0
      (∀ k l c, r.asker = .deal k → tget s.jb.launches k = some l → l.hand = some c →
        ∃ u l', exec e s = .next u ∧ granted u key (b, r.size) (0, 0) ∧ stack u ∧ tget u.jb.launches k = some l' ∧
          l'.hand = some { c with granted := some key } ∧ u.net = s.net) ∧
      (∀ f w, r.asker = .spawn f → birthOf s f = some w →
        ∃ u, exec e s = .next u ∧ granted u key (b, r.size) (0, 0) ∧ stack u ∧
          birthOf u f = some { w with granted := some key } ∧ u.wk.issue = s.wk.issue ++ [f] ∧ u.net = s.net))) ∧
    (∀ o h f i, fits → a.waiting = [o] → a.reserve = false → o.age < s.clk.cycle → o.overtakes < a.limit → r.overtakes < a.limit →
      firstHole hs o.size = none → firstHole hs r.size = some h → recsFree s a.pane r = true → r.asker = .word f →
      instrAt s f.tid f.block f.slot = some i →
      ∃ u key y, exec e s = .next u ∧ (freeRecs s a.pane).head? = some key ∧ tget u.al.recs key = some y ∧ y.live = true ∧
        y.base1 = h.1 ∧ y.len1 = r.size ∧
        (∀ w ∈ (arenaAt u r.arena).waiting, w = { o with overtakes := o.overtakes + 1 } ∧
          (a.limit ≤ w.overtakes → (arenaAt u r.arena).reserve = true)) ∧
        ∃ more, u.net = s.net ++ (resultMsgs f i (mkTok .handle (handleOf key)) (mkTok .handle (handleOf key)) ++ more)))) ∧
  (∀ (hs : List (Nat × Nat)) (n : Nat),
    let total := (hs.map Prod.snd).sum
    (total < n → reservePlace hs n = none) ∧
    (∀ h, n ≤ total → hs.find? (fun x => n ≤ x.2) = some h → reservePlace hs n = some ((h.1, n), (0, 0))) ∧
    (∀ before a after, n ≤ total → (∀ h ∈ hs, h.2 < n) → hs = before ++ a :: after → (∀ h ∈ before, h.2 < a.2) →
      (∀ h ∈ after, h.2 ≤ a.2) →
      reservePlace hs n = ((hs.filter fun h => h ≠ a).find? fun h => n - a.2 ≤ h.2).map fun h => (a, (h.1, n - a.2))))

/-- R178, R223, R233, R237, R238: a release waits for the engine commands that name the record, and then the record is free; a release
of a record that lives no longer does nothing. QUIET starts a spill after its quiet time; where nothing can be spilled to a
place, the task of the oldest request stops. A finished spill leaves the record at its place in the overflow area. A release waits
too while its record is copied (R237), and the granules that a RELS cut off are EMPTY (R177). (That a release or the end of a spill
may stand over to the next cycle, where a later event of its arena has been handled, is log 87.) -/
def Obligations.SpillsAndReleases : Prop :=
  ∀ (s : State), Canonical s →
    (∀ m : ReleaseMsg,
      let e : Instr := .allocationRelease m
      let key := m.pane * 4096 + m.index
      let turn := inTurn s (tgetD s.al.recs key {}).akey releaseRank
      let free := engineNames s key = false ∧ spillingRec s key = false ∧ turn = true
      (¬ free → exec e s = .next (repost s e)) ∧
      (∀ r, free → m.whole = true → tget s.al.recs key = some r → r.live = true → r.gseq = m.gseq →
        (arenaAt s r.akey).waiting = [] → (∀ y ∈ s.al.arenas, y.2.pane = key / 4096 → y.2.waiting = []) →
        ∃ u, exec e s = .next u ∧ (tgetD u.al.recs key {}).live = false ∧
          ∀ b, byteAt u.ls.bytes b = byteAt s.ls.bytes b) ∧
      (∀ r, free → m.whole = true → tget s.al.recs key = some r → r.live = false ∨ r.gseq ≠ m.gseq →
        exec e s = .next s) ∧
      (free → m.whole = false → (arenaAt s (tgetD s.al.recs key {}).akey).waiting = [] →
        ∃ u, exec e s = .next u ∧ u.al.recs = s.al.recs ∧ (∀ b, byteAt u.ls.bytes b = byteAt s.ls.bytes b) ∧
          ∀ c ∈ m.cut, ∀ g, c.1 ≤ g → g < c.1 + c.2 → gstAt u.ls (m.pane * 65536 + g) = 0)) ∧
    (∀ k,
      let e : Instr := .quietSpill k
      let a := arenaAt s k
      (a.waiting = [] ∨ a.spilling.isSome = true ∨ quietTime s a < a.quiet → exec e s = .next s) ∧
      (∀ key r p, a.waiting ≠ [] → a.spilling = none → a.quiet ≤ quietTime s a →
        latest (s.al.recs.filter fun y => spillable s k y.1 y.2) = some (key, r) → spillPlace s k key r = some p →
        ∃ u, exec e s = .next u ∧ (arenaAt u k).spilling = some (key, p) ∧ u.al.recs = s.al.recs ∧ MemFrame s u) ∧
      (∀ key r o f t rest, a.waiting = o :: rest → a.spilling = none → a.quiet ≤ quietTime s a →
        latest (s.al.recs.filter fun y => spillable s k y.1 y.2) = some (key, r) → spillPlace s k key r = none →
        o.asker = .word f → taskAt s f.tid = some t → fireMarked s f = false →
        ∃ u t', exec e s = .next u ∧ taskAt u f.tid = some t' ∧ t'.stopped = true)) ∧
    (∀ k key p r,
      let e : Instr := .spillComplete k
      ((arenaAt s k).spilling = none ∨ inTurn s k spillRank = false → exec e s = .next s) ∧
      ((arenaAt s k).spilling = some (key, p) → inTurn s k spillRank = true → tget s.al.recs key = some r → r.pool = false →
        (∀ y ∈ s.al.arenas, y.2.waiting = []) → (arenaAt s k).waiting = [] →
        ∃ u, exec e s = .next u ∧
          tget u.al.recs key = some { r with spilled := true, ovf := p, ovs := p * 16 + 16 * (r.len1 + r.len2) } ∧
          (arenaAt u k).spilling = none ∧ ∀ b, byteAt u.ls.bytes b = byteAt s.ls.bytes b))

/-! ### Engines (07, 09) -/

/-- R171 to R173, R179, R180, R184, R188, R265: a context's head starts once its task's earlier effects have performed and no spill
copies what it names (R237); a revoked copy
that has not started ends with status 1, a copy of no bytes with status 0, CPP captures its register. At its end DONE becomes
the command's number and its status is kept; a status of 2 leaves an ENGINE_ERR record. -/
def Obligations.CommandsRun : Prop :=
  ∀ (s : State) (k : Nat) (c : Cmd) (rest : List Cmd), (ctxAt s k).queue = c :: rest →
    let head := fun (u : State) (h : Cmd) => (ctxAt u k).queue = h :: rest ∧ (ctxAt u k).issued = (ctxAt s k).issued ∧
      (ctxAt u k).done = (ctxAt s k).done
    let ready := c.started = false ∧ c.status = none ∧ engineHeld s k = false ∧ wmmaHeld s k c = false ∧
      performedBelow s c.tid c.seq = true ∧ ∀ h ∈ cmdHandles c.kind, handleSpilling s h = false
    (¬ ready → exec (.engineCmdStart k) s = .next s) ∧
    (ready → c.revoked = true → ∃ u, exec (.engineCmdStart k) s = .next u ∧ head u { c with status := some 1 } ∧ MemFrame s u) ∧
    (∀ a b n rv, ready → c.revoked = false → c.kind = .cp a b n rv → ∃ u, exec (.engineCmdStart k) s = .next u ∧
      head u { c with started := true, status := if n = 0 then some 0 else none } ∧ MemFrame s u) ∧
    (∀ a b g reg esz, ready → c.revoked = false → c.kind = .cpp a b g reg esz → ∃ u, exec (.engineCmdStart k) s = .next u ∧
      head u { c with started := true,
                      perm := tgetD s.en.benes (k / 1024 * 32 + (k % 1024 - 64) / 4 * 8 + reg) 0 } ∧ MemFrame s u) ∧
    (c.status = none → exec (.engineCmdEnd k) s = .next s) ∧
    (∀ st, c.status = some st → c.num ≠ 0 → ∃ u, exec (.engineCmdEnd k) s = .next u ∧ (ctxAt u k).done = c.num ∧
      (ctxAt u k).queue = rest ∧ (ctxAt u k).issued = (ctxAt s k).issued ∧
      (st ≠ 0 → tgetD (ctxAt u k).statuses c.num 0 = st) ∧
      (st = 2 → bits (tgetD u.sr.faultInfo c.origin.die 0).toNat 0 6 = 0x15) ∧
      u.wk.tasks = s.wk.tasks ∧ u.wk.insts = s.wk.insts ∧ u.net = s.net)

/-- R172, R180, R182, R188: a running copy moves a granule from its source to its destination; a gather takes the index of its
row once and moves the granule that its row and index name; a load takes the next granule of its tile, and with the last one
the leaf holds it. Every other byte of local store reads as before. R81, R190, R192: one row of a WMMA is taken or written (each in
a step of its own, and a row taken while there is room for it: log 54), or
one of a CVTT converted: the command goes on, or ends with status 0, and no byte of local store changes but the row's
accumulators, or the row's planes and its scale granule, and the task's registers, which take the flags. -/
def Obligations.EnginesMove : Prop :=
  (∀ (s : State) (k : Nat) (c : Cmd), Canonical s → Runs s k c → s.ls.upset = [] →
    (∀ hs hd n rv gs gd b, c.kind = .cp (.handle hs) (.handle hd) n rv → c.revoked = false → c.off + 16 < n →
      Reads s c hs c.off gs b → cmdGranule s c hd (c.off / 16) = some (.here gd) → gState s.ls gd ≠ 2 →
      granuleAt (engineMove s k).ls gd = b ∧ gState (engineMove s k).ls gd = 1 ∧
        headOf (engineMove s k) k = some { c with off := c.off + 16 } ∧
        (∀ a, a < granuleByte gd ∨ granuleByte gd + 16 ≤ a → byteAt (engineMove s k).ls.bytes a = byteAt s.ls.bytes a)) ∧
    (∀ h hs hd g, c.kind = .gather false h → c.gat = some g → g.src = .handle hs → g.dst = .handle hd →
      (∀ gi bi, c.elem = none → Reads s c g.idx (4 * c.row / 16 * 16) gi bi →
        ∃ u, exec (.gatherRow k) s = .next u ∧ MemFrame s u ∧
          headOf u k = some { c with elem := some (toSigned 32 (bits (natOfBytes bi) (32 * (c.row % 4)) 32)) }) ∧
      (∀ gs gd b (j : Nat), c.elem = some (j : Int) → c.off + 16 < g.rowBytes →
        rowFits c s g.src j g.rowBytes = true → rowFits c s g.dst c.row g.rowBytes = true →
        Reads s c hs (j * g.rowBytes + c.off) gs b →
        cmdGranule s c hd ((c.row * g.rowBytes + c.off) / 16) = some (.here gd) → gState s.ls gd ≠ 2 →
        ∃ u, exec (.gatherRow k) s = .next u ∧ granuleAt u.ls gd = b ∧ gState u.ls gd = 1 ∧
          headOf u k = some { c with off := c.off + 16 } ∧
          (∀ a, a < granuleByte gd ∨ granuleByte gd + 16 ≤ a → byteAt u.ls.bytes a = byteAt s.ls.bytes a))) ∧
    (∀ w j h g b, c.kind = .wload w j h → 0 < c.row → Reads s c h (16 * c.row) g b → bBad c.form c.row (natOfBytes b) = false →
      ∃ u, exec (.wloadRun k) s = .next u ∧ MemFrame s u ∧ u.net = s.net ∧
        (c.row + 1 < bGranules c.form → headOf u k = some { c with
          loading := c.loading ++ [(BitVec.ofNat 128 (natOfBytes b), false)], row := c.row + 1 } ∧ u.en.leaves = s.en.leaves) ∧
        (bGranules c.form ≤ c.row + 1 → headOf u k = some { c with status := some 0 } ∧
          tget u.en.leaves (leafKey (ctxPane k) w j) =
            some ⟨c.form, h, c.loading.map Prod.fst ++ [BitVec.ofNat 128 (natOfBytes b)]⟩))) ∧
  (∀ (s : State) (k : Nat) (c : Cmd), Canonical s → Runs s k c →
    (∀ w j sat a acc leaf, c.kind = .wmma w j sat a acc → tget s.en.leaves (leafKey (ctxPane k) w j) = some leaf →
      (TakesRow s k c a acc → Readable s c (wmmaReads a acc c.rows c.planes c.row) →
        ∃ u h, exec (.wmmaRow k) s = .next u ∧ headOf u k = some h ∧ h.row = c.row + 1 ∧ h.status = none ∧
          h.taken.length = c.taken.length + 1 ∧ ∀ b, byteAt u.ls.bytes b = byteAt s.ls.bytes b) ∧
      (∀ t ts, ¬ TakesRow s k c a acc → c.taken = t :: ts →
        let js := (List.range 32).map fun i => 1 + 32 * t.row + i
        Writable s c acc js →
        ∃ u h, exec (.wmmaRow k) s = .next u ∧ headOf u k = some h ∧ h.taken = ts ∧
          (c.row < c.rows ∨ ts ≠ [] → h.status = none) ∧ (c.rows ≤ c.row → ts = [] → h.status = some 0) ∧
          OnlyIn s u c acc js)) ∧
    (∀ n src dst, c.kind = .cvtt n src dst →
      let js := (List.range n).map (fun p => 1 + scaleGranules c.rows + c.row * n + p) ++ [1 + c.row / 16]
      Readable s c ((List.range c.form).map fun i => (Side.handle src, 16 * (1 + c.row * c.form + i))) →
      (∀ j ∈ js, ∃ g, cmdGranule s c dst j = some (.here g) ∧ gState s.ls g ≠ 2) →
      ∃ u h, exec (.cvttRow k) s = .next u ∧ headOf u k = some h ∧ h.row = c.row + 1 ∧
        (c.row + 1 < c.rows → h.status = none) ∧ (c.rows ≤ c.row + 1 → h.status = some 0) ∧ OnlyIn s u c dst js))

/-- R172, R182: GATHER_ROW. The index of a row is taken once, when its granule is FULL; a poisoned one stops the command (log 53).
A negative index skips the row of a scatter and fills the row of a gather with zeros; a row that lies outside its side stops
the command with status 2 at the row's offset. Else each step moves 16 bytes, with their poison, from the source's row to the
destination's; the last granule of a row goes on to the next row, and of the last row ends the command with status 0. -/
def Sys2Proof.Machine.GatherRows : Prop :=
  ∀ (s : State) (k : Nat) (c : Cmd) (sc : Bool) (h : Nat) (g : Gather), Canonical s → Runs s k c → s.ls.upset = [] →
    c.kind = .gather sc h → c.gat = some g →
    let e : Instr := .gatherRow k
    let row := c.row * g.rowBytes
    let ends := fun (u : State) (c' : Cmd) => ∃ x, headOf u k = some x ∧ butLines x c'
    let still := fun (c' : Cmd) => ∃ u, exec e s = .next u ∧ headOf u k = some c' ∧ MemFrame s u ∧ u.net = s.net
    let nextRow : Cmd :=
      { c with row := c.row + 1, off := 0, elem := none, status := if c.row + 1 < g.rows then none else some 0 }
    let next : Cmd := if c.off + 16 < g.rowBytes then { c with off := c.off + 16 } else nextRow
    (c.elem = none →
      (∀ gi b, Reads s c g.idx (4 * c.row / 16 * 16) gi b →
        still { c with elem := some (toSigned 32 (bits (natOfBytes b) (32 * (c.row % 4)) 32)) }) ∧
      (∀ gi, cmdGranule s c g.idx (4 * c.row / 16) = some (.here gi) →
        (gState s.ls gi ≠ 1 → exec e s = .next s) ∧
        (gState s.ls gi = 1 → gPoison s.ls gi = true → still { c with status := some 2, stopAt := row }))) ∧
    (∀ j, c.elem = some j →
      let src := (if sc then c.row else j.toNat)
      let dst := (if sc then j.toNat else c.row)
      let fromAt := src * g.rowBytes + c.off
      let toAt := dst * g.rowBytes + c.off
      let outside := (0 ≤ j ∧ rowFits c s g.src src g.rowBytes = false) ∨ rowFits c s g.dst dst g.rowBytes = false
      (sc = true → j < 0 → still nextRow) ∧
      (¬ (sc = true ∧ j < 0) → outside → still { c with status := some 2, stopAt := row }) ∧
      (sc = false → j < 0 → ¬ outside → SideOpen s c g.dst toAt →
        ∃ u, exec e s = .next u ∧ ends u next ∧ SideHolds s u c g.dst toAt (List.replicate 16 0) false) ∧
      (∀ b p, 0 ≤ j → ¬ outside → fetch16 s c g.src fromAt = .bytes b p → SidePresent s c g.src fromAt →
        SideOpen s c g.dst toAt →
        ∃ u, exec e s = .next u ∧ ends u next ∧ SideHolds s u c g.dst toAt b p) ∧
      (0 ≤ j → ¬ outside → fetch16 s c g.src fromAt = .wait → exec e s = .next s))

/-- R172, R187, R188: WLOAD_RUN takes the next granule of its tile when it is FULL. The header says the form, which clears the
leaf's other tiles that lie in the same quarters; a header that R188 refuses, a granule with a code that it refuses, a
poisoned granule (log 53) and one beyond the record stop the load with status 2 at the granule's offset, and load nothing. With the
last granule the leaf (k, j) holds the tile, and the status is 0. -/
def Sys2Proof.Machine.WloadGranules : Prop :=
  ∀ (s : State) (k : Nat) (c : Cmd) (w j h : Nat), Canonical s → Runs s k c → s.ls.upset = [] → c.kind = .wload w j h →
    let e : Instr := .wloadRun k
    let leaf := fun (u : State) (i : Nat) => tget u.en.leaves (leafKey (ctxPane k) w i)
    let still := fun (c' : Cmd) => ∃ u, exec e s = .next u ∧ headOf u k = some c' ∧ MemFrame s u ∧ u.net = s.net ∧
      u.en.leaves = s.en.leaves
    let stops := still { c with status := some 2, stopAt := 16 * c.row }
    (cmdGranule s c h c.row = none → stops) ∧
    (∀ g, cmdGranule s c h c.row = some (.here g) →
      (gState s.ls g ≠ 1 → exec e s = .next s) ∧ (gState s.ls g = 1 → gPoison s.ls g = true → stops)) ∧
    (∀ g b q r, c.row = 0 → Reads s c h 0 g b → cmdRec s c h = some (q, r) →
      let hdr := natOfBytes b
      let accepted := fun (form : Nat) => bForm hdr = some form ∧ bSquare hdr = true ∧ bAccepts form j = true ∧
        bGranules form ≤ r.granules
      ((∀ form, ¬ accepted form) → stops) ∧
      (∀ form, accepted form →
        ∃ u, exec e s = .next u ∧ headOf u k = some { c with form := form, row := 1 } ∧ MemFrame s u ∧ u.net = s.net ∧
          ∀ i, i < 4 →
            let clash := i ≠ j ∧ ∃ l, leaf s i = some l ∧ ∃ x ∈ bQuarters l.form i, x ∈ bQuarters form j
            (clash → leaf u i = none) ∧ (¬ clash → leaf u i = leaf s i))) ∧
    (∀ g b, 0 < c.row → Reads s c h (16 * c.row) g b →
      let data := c.loading ++ [(BitVec.ofNat 128 (natOfBytes b), false)]
      (bBad c.form c.row (natOfBytes b) = true → stops) ∧
      (bBad c.form c.row (natOfBytes b) = false → c.row + 1 < bGranules c.form →
        still { c with loading := data, row := c.row + 1 }) ∧
      (bBad c.form c.row (natOfBytes b) = false → bGranules c.form ≤ c.row + 1 →
        ∃ u, exec e s = .next u ∧ headOf u k = some { c with status := some 0 } ∧ MemFrame s u ∧ u.net = s.net ∧
          leaf u j = some ⟨c.form, h, data.map Prod.fst⟩))

/-- R81, R190, R191: WMMA_ROW takes the next row when its planes and its accumulators are FULL and the pipeline has room: the
accumulators become EMPTY, and the row that R81 computes from what was read is under way. Else it writes the oldest row taken:
its 32 granules become FULL with their values and their poison, its flags go to the task, and with the last row the command
ends with status 0. A leaf without a tile ends a command that has taken no row with status 2 (R189); where nothing may be
taken and nothing is under way it waits. (That a row is taken while there is room, and else one is written, each in a step of its
own, is log 54; that a row computed from poisoned granules sets its flags is log 93.) -/
def Sys2Proof.Machine.WmmaRows : Prop :=
  ∀ (s : State) (k : Nat) (c : Cmd) (w j : Nat) (sat : Bool) (a acc : Nat), Canonical s → Runs s k c → s.ls.upset = [] →
    c.kind = .wmma w j sat a acc →
    let e : Instr := .wmmaRow k
    let tile := tget s.en.leaves (leafKey (ctxPane k) w j)
    let reads := wmmaReads a acc c.rows c.planes c.row
    (∀ leaf, tile = some leaf → TakesRow s k c a acc → ReadsPresent s c reads →
      ∃ u h, exec e s = .next u ∧ u.net = s.net ∧ (∀ b, byteAt u.ls.bytes b = byteAt s.ls.bytes b) ∧ headOf u k = some h ∧
        butLines h { c with row := c.row + 1, taken := c.taken ++ [wmmaResult c sat leaf (fetched s c reads)] } ∧
        ∀ i g, i < 32 → cmdGranule s c acc (1 + 32 * c.row + i) = some (.here g) → gState u.ls g = 0) ∧
    (∀ t ts, tile = none ∨ ¬ TakesRow s k c a acc → c.taken = t :: ts → t.vals.length = 32 →
      let js := (List.range 32).map fun i => 1 + 32 * t.row + i
      Writable s c acc js →
      ∃ u, exec e s = .next u ∧ OnlyIn s u c acc js ∧ FlagsGo s u c t.flags ∧
        headOf u k = some { c with taken := ts, status := if ts = [] ∧ c.rows ≤ c.row then some 0 else none } ∧
        ∀ i v, t.vals[i]? = some v → Filled s u c acc (1 + 32 * t.row + i) v.1.toNat v.2) ∧
    (tile = none → c.taken = [] → c.row < c.rows → wmmaHeld s k c = false →
      ∃ u, exec e s = .next u ∧ headOf u k = some { c with status := some 2, stopAt := 0 } ∧ MemFrame s u ∧ u.net = s.net) ∧
    (c.taken = [] → c.rows ≤ c.row ∨ wmmaHeld s k c = true → exec e s = .next s) ∧
    (c.taken = [] → tile ≠ none → readsReady s c reads = false → exec e s = .next s)

/-- R77, R78, R192: CVTT_ROW converts a row when its source granules are FULL: its planes hold the integers of R78, poisoned where
a source granule was, its scale joins the scale granule, which is written with the last of its rows (bytes beyond row M − 1
being free values, and the flags of a poisoned row being set: log 93); the flags go to the task, and with the last row the command ends with status 0. It waits for a granule that
is not FULL. -/
def Sys2Proof.Machine.CvttRows : Prop :=
  ∀ (s : State) (k : Nat) (c : Cmd) (n src dst : Nat), Canonical s → Runs s k c → s.ls.upset = [] →
    c.kind = .cvtt n src dst →
    let e : Instr := .cvttRow k
    let reads := (List.range c.form).map fun i => (Side.handle src, 16 * (1 + c.row * c.form + i))
    let gs := fetched s c reads
    let r := cvttRow n (cvttValues c.form (gs.map Prod.fst))
    let bad := gs.any fun x => x.2
    let last := c.row % 16 = 15 ∨ c.row + 1 = c.rows
    let acc := setBits c.acc (8 * (c.row % 16)) 8 r.1
    let scales := if bad then setBits acc 128 1 1 else acc
    let first := 1 + scaleGranules c.rows + c.row * n
    let js := (List.range n).map (fun p => first + p) ++ (if last then [1 + c.row / 16] else [])
    (readsReady s c reads = true → Writable s c dst js → ReadsPresent s c reads →
      ∃ u h, exec e s = .next u ∧ OnlyIn s u c dst js ∧ FlagsGo s u c r.2.2 ∧ headOf u k = some h ∧
        butLines h { c with row := c.row + 1, acc := if last then 0 else scales,
                            status := if c.row + 1 < c.rows then none else some 0 } ∧
        (∀ p, p < n → Filled s u c dst (first + p) (planeOf r.2.1 p) bad) ∧
        (last → Filled s u c dst (1 + c.row / 16) (scaleGranule s.nd c.row scales) (decide (bits scales 128 1 = 1)))) ∧
    ((∀ x ∈ reads, fetch16 s c x.1 x.2 ≠ .stop) → readsReady s c reads = false → exec e s = .next s)

/-- R77, R78, R81, R172, R182, R187 to R192: GATHER_ROW, WLOAD_RUN, WMMA_ROW and CVTT_ROW answer the next state of one step of
the command that runs: `GatherRows`, `WloadGranules`, `WmmaRows` and `CvttRows` say which, on every input of the step: the
index of a row, the 16 bytes moved, the granule loaded, the row taken, written or converted, the wait for a granule that is
not FULL, and the stop with status 2 and its offset. -/
def Obligations.CommandRowsComplete : Prop := GatherRows ∧ WloadGranules ∧ WmmaRows ∧ CvttRows

/-! ### Global memory (04, 06, 08) -/

/-- R146, R149, R151, R270, R279: a read performs at its home, after what precedes it, and sends the bytes that
forwarding, the pane's multicast copies and the home give; poison of a line or of a forwarded store sends POISON. It
changes no byte. The first part of an element that lies in two pages goes on with the second (R116). (When a copy reaches the pane
is free, and a read that does not take a copy waits for its MST: log 111.) R142, R225, R254, R296: a walk that ends at a leaf
enters the page into the pane's TLB and lets the word fire again; a refusal is PROT at the word; a missing page holds the access and
asks firmware. A line is filled from HBM, and changes no byte. -/
def Obligations.WalksFillsAndReads : Prop :=
  (∀ (s : State) (m : ReadMsg) (i : Instr), instrAt s m.f.tid m.f.block m.f.slot = some i →
    let e : Instr := .homeRead m
    let met := meetCopies s m
    let ready := linesHere s m.pa m.width m.rdev = true ∧ performedBelow s m.f.tid m.after = true ∧
      ownEarlier s m.f.tid m.seq m.rdev m.pa m.width = false ∧ copyHolds met m = false
    let home := homeBytes s m.pa m.rdev m.width
    let copy := fun k => if m.lsid = none then none else mcastByte met m.f.tid (cellPane s m.f) (devLoc m.rdev m.pa + k)
    let byte := fun k => match (m.fwd[k]?).bind id, copy k with
      | some b, _ => b
      | none, some b => b
      | none, none => (home[k]?).getD 0
    let bytes := m.got ++ (List.range m.width).map byte
    let poison := m.fwdPoison || homePoison s m.pa m.rdev m.width
    let v := loadResult m.fmt m.half poison bytes
    let fresh := m.lsid = none ∨ s.gm.early = []
    let numbered := fun (u : State) => (nearCopies met m = [] → u.wk.tasks = s.wk.tasks) ∧
      (∃ n, taskAt u m.f.tid = (taskAt s m.f.tid).map fun y => { y with seq := y.seq + n }) ∧
      ∀ tid, tid ≠ m.f.tid → taskAt u tid = taskAt s tid
    (waiting s m.f = false → exec e s = .next s) ∧
    (waiting s m.f = true → ¬ ready → exec e s = .next (repost met e)) ∧
    (waiting s m.f = true → ready → fresh → m.rest = none → ∃ u, exec e s = .next u ∧ u.net = s.net ++ resultMsgs m.f i v v ∧
      instAt u m.f.tid m.f.iter = (instAt s m.f.tid m.f.iter).map (firedInst m.f 0) ∧ numbered u ∧
      waiting u m.f = false ∧ MemFrame s u) ∧
    (∀ pa rdev n, waiting s m.f = true → ready → fresh → m.rest = some (pa, rdev, n) → ∃ u, exec e s = .next u ∧
      u.net = s.net ++ [.homeRead { m with pa := pa, rdev := rdev, width := n, fwd := List.replicate n none, fwdPoison := poison,
                                           got := bytes, rest := none }] ∧
      u.wk.insts = s.wk.insts ∧ numbered u ∧ waiting u m.f = true ∧ MemFrame s u)) ∧
  (∀ (s : State),
    (∀ (m : WalkMsg) (f : Firing), m.who = .word f →
      let e : Instr := .pageWalk m
      let w := walk s m.vi m.va
      (waiting s f = false → exec e s = .next s) ∧
      (∀ t, waiting s f = true → w.1 = .leaf t → ∃ u, exec e s = .next u ∧
        (tgetD u.gm.tlb m.pane []).head? = some t ∧ u.wk.issue = s.wk.issue ++ [f] ∧ u.wk.insts = s.wk.insts ∧
        u.net = s.net) ∧
      (waiting s f = true → w.1 = .refused →
        exec e s = .next (raiseAt { s with gm := touchAll s.gm w.2 } f ⟨.prot, m.va⟩)) ∧
      (∀ lv p x, waiting s f = true → w.1 = .missing lv p x → ∃ u, exec e s = .next u ∧ m ∈ u.gm.held ∧
        (m.die, m.vi, m.va, m.write) ∈ u.fw.pageFaults ∧ u.wk = s.wk)) ∧
    (∀ line,
      let e : Instr := .homeLineFill line
      ((tget s.gm.lines line).isSome = true → exec e s = .next s) ∧
      (∀ st, tget s.gm.lines line = none → lineSet line = some st → (setLines s.gm st).length < 24 →
        ∃ u, exec e s = .next u ∧ (tget u.gm.lines line).isSome = true ∧ MemFrame s u ∧ u.wk = s.wk ∧ u.net = s.net)))

/-- R149, R150, R270, R279, R287: a store performs at its home, after what precedes it: its bytes stand at its physical
address, and no other byte changes; a store to a peer device changes no byte here. A store of POISON changes no byte and poisons its
line. It waits for an MST on its bytes whose copy its task has read, and an MST for those whose copies were read before its own
(log 111). R154, R155: an atomic
performs at its home: its new value stands at its address, no other byte changes, and the old value is on its way back
with the flags. POISON, in memory or in an operand, returns POISON and changes no byte. -/
def Obligations.StoresAndAtomicsPerform : Prop :=
  (∀ (s : State) (m : WriteMsg),
    let e : Instr := .globalWritePerform m
    let n := m.bytes.length
    let read := seenHolds s m.tid m.rdev m.pa n = true ∨ rankHolds s m = true
    (linesHere s m.pa n m.rdev = false ∨ performedBelow s m.tid m.after = false ∨
      ownEarlier s m.tid m.seq m.rdev m.pa n = true ∨ read → exec e s = .next (repost s e)) ∧
    (¬ read → m.rdev = 0 → AtHome s m.tid m.seq m.after m.pa n → (m.release = none ∨ TrackedHere s m.tid) → StartsTracked s →
      (m.checked = true → m.release = none → (taskD s m.tid).writes.length < 256) →
      ∃ u, exec e s = .next u ∧ GlobalFrame s u m.pa n ∧ u.net = s.net ∧
        (m.poison = false → paBytes u.gm m.pa n = m.bytes) ∧
        (m.poison = true → (lineAt u.gm (m.pa / 128)).poison = true ∧ MemFrame s u)) ∧
    (¬ read → m.rdev ≠ 0 → performedBelow s m.tid m.after = true → ownEarlier s m.tid m.seq m.rdev m.pa n = false →
      (m.release = none ∨ TrackedHere s m.tid) → StartsTracked s →
      ∃ u, exec e s = .next u ∧ MemFrame s u ∧ u.net = s.net)) ∧
  (∀ (s : State) (m : AtomMsg),
    let e : Instr := .atomicPerform m
    let w := accessWidth m.fmt
    let old := loadTok m.fmt (homeBytes s m.pa m.rdev w)
    let new := atomNew m.op old m.r m.x
    let read := seenHolds s m.tid m.rdev m.pa w = true
    let poison := homePoison s m.pa m.rdev w = true ∨ m.r.tag = .poison ∨ (m.op = .cas ∧ m.x.tag = .poison)
    let writes := m.op ≠ .cas ∨ tokBits old = tokBits m.r
    let returns := fun (u : State) (v : Token) (fl : FlagSet) =>
      u.net = s.net ++ [.returnValueArrive ⟨m.tid, m.iter, m.launch, m.reg, v, fl⟩]
    (linesHere s m.pa w m.rdev = false ∨ performedBelow s m.tid m.after = false ∨
      ownEarlier s m.tid m.seq m.rdev m.pa w = true ∨ read → exec e s = .next (repost s e)) ∧
    (¬ read → m.rdev ≠ 0 → performedBelow s m.tid m.after = true → ownEarlier s m.tid m.seq m.rdev m.pa w = false →
      (m.release = none ∨ TrackedHere s m.tid) → StartsTracked s →
      ∃ u, exec e s = .next u ∧ MemFrame s u ∧ (¬ poison → returns u old new.2) ∧ (poison → returns u poisonTok 0)) ∧
    (¬ read → m.rdev = 0 → AtHome s m.tid m.seq m.after m.pa w → (m.release = none ∨ TrackedHere s m.tid) → StartsTracked s →
      (¬ poison → ∃ u, exec e s = .next u ∧ returns u old new.2 ∧ GlobalFrame s u m.pa w ∧
        (writes → paBytes u.gm m.pa w = storeBytes m.fmt new.1) ∧ (¬ writes → MemFrame s u)) ∧
      (poison → ∃ u, exec e s = .next u ∧ returns u poisonTok 0 ∧ MemFrame s u)))

/-- R7, R150: a byte written reads as written, and every other byte as before; and the words of a store are little-endian: the token
that a load takes from the bytes that a store of the same integer format wrote has the stored value. -/
def Obligations.MemoryReads : Prop :=
  (∀ (m : List Host.Cell) (a b : Nat) (v : Byte), Memory.wf m = true →
    byteAt (setByte m a v) b = if b = a then v else byteAt m b) ∧
  (∀ (m : List Host.Cell) (a : Nat) (bs : List Byte), Memory.wf m = true →
    bytesAt (setBytes m a bs) a bs.length = bs ∧ Memory.wf (setBytes m a bs) = true ∧
    ∀ b, b < a ∨ a + bs.length ≤ b → byteAt (setBytes m a bs) b = byteAt m b) ∧
  (∀ (fmt : Tag) (t : Token), fmt.isInt = true → t.tag = fmt →
    (loadTok fmt (storeBytes fmt t)).tag = fmt ∧ tokInt (loadTok fmt (storeBytes fmt t)) = tokInt t)

/-! ### Levels of work and inboxes (02, 07, 08) -/

/-- R31, R34 to R36, R199, R246: a launch, a graph, a phase or a job completes when nothing of it is left, and not before: its level is
done, a launch's or a job's record of STATE, fault count and time goes to its address, and a completed job leaves. A phase
begins when the phase before it has completed. -/
def Obligations.LevelsComplete : Prop :=
  ∀ (s : State), Canonical s →
    (∀ key l, tget s.jb.launches key = some l →
      let e : Instr := .launchComplete key
      let lv : Lvl := { l.lvl with done := true, isOpen := false }
      let rec0 := Lvl.stateCode lv + lv.faults % 65536 * 2 ^ 16 + (dieTime s (graphDie s l.graph)).toNat * 2 ^ 64
      (l.lvl.done = true ∨ launchBusy s key = true ∨ launchDealt s l = false → exec e s = .next s) ∧
      (l.lvl.done = false → launchBusy s key = false → launchDealt s l = true → issuedAfter s l.vi l.job l.id < 4096 →
        ∃ u l', exec e s = .next u ∧ tget u.jb.launches key = some l' ∧ l'.lvl.done = true ∧
          (l.doneAddr = none → u.gm = s.gm) ∧
          (∀ a, l.doneAddr = some a → u.gm = (devWrite s (graphDie s l.graph) l.vi a (bytesOf 16 rec0)).gm) ∧ u.ls = s.ls ∧ u.wk = s.wk)) ∧
    (∀ k g n, tget s.cf.graphs k = some g → g.phase = some n →
      let e : Instr := .levelComplete .graph k
      let closed := (tgetD s.jb.phases (phaseKey g.vi g.job n) {}).lvl.isOpen = false
      let mayBe := fun (l : Launch) => l.graph = noGraph ∧ l.vi = g.vi ∧ l.job = g.job ∧ l.phase = n
      let busy := ∃ y ∈ s.jb.launches, (y.2.graph = k ∨ mayBe y.2) ∧ y.2.lvl.done = false
      (g.lvl.done = true ∨ ¬ closed ∨ busy → exec e s = .next s) ∧
      (g.lvl.done = false → closed → ¬ busy → ∃ u g', exec e s = .next u ∧ tget u.cf.graphs k = some g' ∧
        g'.lvl.done = true ∧ MemFrame s u)) ∧
    (∀ k p, tget s.jb.phases k = some p →
      let e : Instr := .levelComplete .phase k
      let jk := k / 2 ^ 32
      let busy := (∃ y ∈ s.cf.graphs, y.1 / 65536 = jk ∧ y.2.phase = some (k % 2 ^ 32) ∧ y.2.lvl.done = false) ∨
        (∃ y ∈ s.jb.launches, y.2.vi = jk / 65536 ∧ y.2.job = jk % 65536 ∧ y.2.phase = k % 2 ^ 32 ∧ y.2.lvl.done = false)
      (p.lvl.done = true ∨ p.lvl.isOpen = true ∨ busy → exec e s = .next s) ∧
      (p.lvl.done = false → p.lvl.isOpen = false → ¬ busy → ∃ u p', exec e s = .next u ∧ tget u.jb.phases k = some p' ∧
        p'.lvl.done = true ∧ MemFrame s u ∧ u.wk = s.wk)) ∧
    (∀ jk j, tget s.jb.jobs jk = some j →
      let e : Instr := .levelComplete .job jk
      let busy := (∃ y ∈ s.jb.phases, y.1 / 2 ^ 32 = jk ∧ y.2.lvl.done = false) ∨
        recsOfGraphs s (fun g => g / 65536 = jk) ≠ []
      let gone := fun (u : State) => tget u.jb.jobs jk = none ∧ ∀ y ∈ u.cf.graphs, y.1 / 65536 ≠ jk
      (j.endAt = none ∨ (j.lvl.done = false ∧ busy) → exec e s = .next s) ∧
      (∀ a, j.endAt = some a → j.lvl.done = false → ¬ busy →
        let w := devWrite s 0 j.vi a (bytesOf 16 (completionBits j.lvl (dieTime s 0)))
        ∃ u, exec e s = .next u ∧ u.gm = w.gm ∧ (recordHeld w j.vi a = false → gone u) ∧
          (recordHeld w j.vi a = true → tget u.jb.jobs jk = some { j with lvl := { j.lvl with done := true } })) ∧
      (∀ a, j.endAt = some a → j.lvl.done = true →
        (recordHeld s j.vi a = true → exec e s = .next s) ∧
        (recordHeld s j.vi a = false → ∃ u, exec e s = .next u ∧ gone u ∧ u.gm = s.gm)) ∧
      (∀ n p, n < 2 ^ 32 → tget s.jb.phases (jk * 2 ^ 32 + n) = some p →
        let before := n = 0 ∨ (tgetD s.jb.phases (jk * 2 ^ 32 + n - 1) {}).lvl.done = true
        ∃ u, exec (.phaseBegin jk) s = .next u ∧ MemFrame s u ∧ u.wk = s.wk ∧
          (before → tget u.jb.phases (jk * 2 ^ 32 + n) = some { p with begun := true }) ∧
          (¬ before → tget u.jb.phases (jk * 2 ^ 32 + n) = some p)))

/-- R243 to R246, R198, R318: the host's write takes an empty slot of a configured interface and is dropped otherwise. The interface runs
the slot at its index when it is FULL: SEAL, PHASE, LAUNCH, CANCEL and END have their effect, a refused slot none but its
record, and the ring goes on. -/
def Obligations.InboxRuns : Prop :=
  ∀ (s : State) (vi : Nat), Canonical s →
    let index := (viD s vi).index
    let present := fun (slot : Nat) => (tget s.gm.lines (slotPa s vi slot / 128)).isSome = true
    let done := fun (u : State) => (viD u vi).index = (index + 1) % 64 ∧ slotFull (slotAt u vi index) = false ∧
      GlobalFrame s u (slotPa s vi index + 56) 1 ∧ u.ls = s.ls
    (∀ slot v, s.bt.ready = true → (viD s vi).configured = true → slot < 64 → slotFull (slotAt s vi slot) = false →
      present slot → ∃ u, exec (.hostInboxWrite vi slot v) s = .next u ∧ slotAt u vi slot = v.toNat ∧
        (∀ k, k < 64 → k ≠ slot → slotAt u vi k = slotAt s vi k) ∧ GlobalFrame s u (slotPa s vi slot) 64 ∧ u.ls = s.ls ∧
        u.wk = s.wk) ∧
    (∀ slot v, s.bt.ready = false ∨ (viD s vi).configured = false ∨ 64 ≤ slot ∨ slotFull (slotAt s vi slot) = true →
      exec (.hostInboxWrite vi slot v) s = .next s) ∧
    (ringHead s vi = none → exec (.inboxLoad vi) s = .next s ∧ exec (.inboxSeal vi) s = .next s ∧
      exec (.inboxPhase vi) s = .next s ∧ exec (.inboxLaunch vi) s = .next s ∧ exec (.inboxCancel vi) s = .next s ∧
      exec (.inboxEnd vi) s = .next s) ∧
    (∀ d, ringHead s vi = some d → slotBad d = false → jobRefuses s (jobKey vi (slotJob d)) (slotKind d) = false →
      let jk := jobKey vi (slotJob d)
      let s1 := openJob { s with gm := withLine s.gm (slotPa s vi index / 128) } vi (slotJob d)
      let n := (tgetD s1.jb.jobs jk {}).phase
      (∀ r s2, slotKind d = 1 → imageHeld s vi = false → load s1 vi (slotJob d) (slotN d) (slotA d) = .ok (r, s2) →
        exec (.inboxLoad vi) s = .next (ringDone (devWrite s2 0 vi (slotB d % 2 ^ 52) (bytesOf 16 r)) vi)) ∧
      (∀ g, slotKind d = 2 → slotN d < 65536 → tget s.cf.graphs (jk * 65536 + slotN d) = some g → g.armed = true →
        g.phase = none → countFull (phaseUnits s1 (jk * 2 ^ 32 + n)) = false → present index → ∃ u g', exec (.inboxSeal vi) s = .next u ∧ done u ∧
          tget u.cf.graphs (jk * 65536 + slotN d) = some g' ∧ g'.phase = some n) ∧
      (slotKind d = 3 → slotN d = n + 1 → phasesFull s1 jk = false → present index →
        ∃ u j, exec (.inboxPhase vi) s = .next u ∧ done u ∧ tget u.jb.jobs jk = some j ∧ j.phase = n + 1 ∧
          (tgetD u.jb.phases (jk * 2 ^ 32 + (n + 1)) {}).lvl.isOpen = true) ∧
      (slotKind d = 4 → launchFull s1 vi (slotJob d) = true → exec (.inboxLaunch vi) s = .next s1) ∧
      (slotKind d = 4 → launchFull s1 vi (slotJob d) = false → ∃ u l, exec (.inboxLaunch vi) s = .next u ∧ (viD u vi).index = (index + 1) % 64 ∧
        tget u.jb.launches (launchKey vi (viD s vi).nextLaunch) = some l ∧ l.id = (viD s vi).nextLaunch ∧
        l.job = slotJob d ∧ l.card = slotA d % 2 ^ 52 ∧ l.phase = n) ∧
      (slotKind d = 5 → slotLevel d = 3 → (tgetD s1.jb.jobs jk {}).lvl.done = false →
        (tgetD s1.jb.jobs jk {}).lvl.cancelled = false → ∃ u j, exec (.inboxCancel vi) s = .next u ∧
          (viD u vi).index = (index + 1) % 64 ∧ tget u.jb.jobs jk = some j ∧ j.lvl.cancelled = true) ∧
      (slotKind d = 6 → present index → ∃ u j, exec (.inboxEnd vi) s = .next u ∧ done u ∧ tget u.jb.jobs jk = some j ∧
        j.endAt = some (slotA d % 2 ^ 52) ∧ j.lvl.isOpen = false))

/-! ### Firmware, shutters, binds (08, 09, 11) -/

/-- R204, R249, R254, R293, R296, R302, R320: firmware's acts. A mailbox answer returns the page and frees the slot; a grant
joins a cache of at most 16; an answer to a page fault writes the entry and lets the held word fire again, or refuses it with
PROT; a stopped task goes on from its entries or is reclaimed; a task that is not stopped is left alone. -/
def Obligations.FirmwareActs : Prop :=
  ∀ (s : State), Canonical s →
    (∀ pane page,
      let e : Instr := .mailboxAnswer pane page
      (tget s.fw.mailbox pane = none → exec e s = .next s) ∧
      (∀ m, tget s.fw.mailbox pane = some m → tgetD s.fw.queue pane [] = [] →
        ∃ u, exec e s = .next u ∧ tget u.fw.mailbox pane = none ∧ u.wk = s.wk ∧
          u.net = s.net ++ [.returnValueArrive ⟨m.tid, m.iter, m.launch, m.reg,
            mkTok .addr (if page.isSome || isMapped s m.vi m.va then m.va else 0), 0⟩])) ∧
    (∀ pane page,
      let c := tgetD s.fw.grants pane []
      (c.length < 16 → ∃ u, exec (.grantCacheRefill pane page) s = .next u ∧ tgetD u.fw.grants pane [] = c ++ [page] ∧
        (∀ k, k ≠ pane → tgetD u.fw.grants k [] = tgetD s.fw.grants k []) ∧ MemFrame s u ∧ u.wk = s.wk) ∧
      (16 ≤ c.length → exec (.grantCacheRefill pane page) s = .next s)) ∧
    (∀ die vi va lv pa x f m, (walk s vi va).1 = .missing lv pa x → s.jb.heldDev = [] → s.gm.held = [m] → m.who = .word f →
      m.die = die → m.vi = vi → m.va = va →
      (∀ b, waiting s f = true → ∃ u, exec (.pageFaultAnswer die vi va (some b)) s = .next u ∧ u.gm.held = [] ∧
        u.wk.issue = s.wk.issue ++ [f] ∧ waiting u f = false ∧ u.wk.tasks = s.wk.tasks ∧ u.net = s.net ∧
        ((tget s.gm.lines (pa / 128)).isSome = true → paBytes u.gm pa 8 = bytesOf 8 b.toNat ∧
          ∀ a, a < pa ∨ pa + 8 ≤ a → paByte u.gm a = paByte s.gm a)) ∧
      (∃ v, (let w := raiseAt v f ⟨.prot, va⟩
          exec (.pageFaultAnswer die vi va none) s = .next (drainArea vi w.jb.heldDev w)) ∧ v.wk = s.wk ∧ v.al = s.al ∧
        v.cf = s.cf ∧ v.jb = s.jb ∧ v.net = s.net ∧ v.sr = s.sr ∧ v.gm.held = [])) ∧
    (∀ tid,
      (taskAt s tid = none → exec (.fwTaskResume tid) s = .next s ∧ exec (.fwTaskReclaim tid) s = .next s) ∧
      (∀ t, taskAt s tid = some t → t.stopped = false →
        exec (.fwTaskResume tid) s = .next s ∧ exec (.fwTaskReclaim tid) s = .next s) ∧
      (∀ t, taskAt s tid = some t → t.stopped = true → shuttered s t.graph = false →
        ∃ u, exec (.fwTaskResume tid) s = .next u ∧ taskAt u tid = some { t with entries := [], stopped := false } ∧
          u.net = s.net ++ t.entries.flatMap (entryActivations t (graphOf s t) tid) ∧ u.wk.insts = s.wk.insts ∧
          MemFrame s u) ∧
      (∀ t, taskAt s tid = some t → t.stopped = true →
        ∃ u, exec (.fwTaskReclaim tid) s = .next u ∧ taskAt u tid = none))

/-- R229, R298 to R302: a shutter is raised on a placed graph; the marker reaches each cell of its region; with all of them the
cut discards the graph's instances and keeps its registers; the pages are written to the save area, and the graph is saved; a
resume arms the graph, loads its tiles, and once these have been loaded activates the entries that its pages hold, in the order of
the pages. (That the cut waits until the rows under way are written is log 66, what it discards is log 68, and that the entries are
activated too while a residual waits for a granule is log 101.) -/
def Obligations.ShuttersRun : Prop :=
  ∀ (s : State) (gk : Nat) (g : Graph), Canonical s → tget s.cf.graphs gk = some g →
    (tget s.sh.active gk = none → g.place.isSome = true → tget s.sh.saved gk = none →
      ∃ u, exec (.shutterRaise gk) s = .next u ∧ tget u.sh.active gk = some ⟨.firmware, [], false⟩ ∧
        u.wk.tasks = s.wk.tasks ∧ u.wk.insts = s.wk.insts ∧ u.wk.toks = s.wk.toks ∧ u.net = s.net ∧ MemFrame s u) ∧
    (g.place = none ∨ (tget s.sh.saved gk).isSome = true → exec (.shutterRaise gk) s = .next s) ∧
    (∀ x, tget s.sh.active gk = some x →
      (∀ cell, x.cut = false → cell ∈ regionCells g → cell ∉ x.marked → tokensAhead s gk cell = false →
        ∃ u, exec (.shutterMarkerArrive gk cell) s = .next u ∧
          tget u.sh.active gk = some { x with marked := x.marked ++ [cell] } ∧ u.wk = s.wk ∧ u.net = s.net ∧ MemFrame s u) ∧
      (∀ cell, x.cut = true ∨ cell ∉ regionCells g ∨ cell ∈ x.marked ∨ tokensAhead s gk cell = true →
        exec (.shutterMarkerArrive gk cell) s = .next s) ∧
      (x.cut = true ∨ (∃ c ∈ regionCells g, c ∉ x.marked) ∨ rowsWritten s gk = false → exec (.cutComplete gk) s = .next s) ∧
      (x.cut = false → (∀ c ∈ regionCells g, c ∈ x.marked) → rowsWritten s gk = true →
        ∃ u, exec (.cutComplete gk) s = .next u ∧ tget u.sh.active gk = some { x with cut := true } ∧
          (∀ tid t, taskAt s tid = some t → t.graph = gk → (∃ t', taskAt u tid = some t' ∧ t'.regs = t.regs) ∧
            ∀ iter i, instAt s tid iter = some i → i.tid = tid → i.iter = iter → instAt u tid iter = none)) ∧
      (x.cut = false → exec (.savePagesWrite gk) s = .next s) ∧
      (x.cut = true → areaHolds s gk g = true →
        ∃ u v, exec (.savePagesWrite gk) s = .next u ∧ tget u.sh.active gk = none ∧ tget u.sh.saved gk = some v ∧
          v = ⟨s.sh.seq, decide (x.cause = .parity), false⟩ ∧ u.sh.seq = s.sh.seq + 1 ∧ u.wk = s.wk ∧ u.net = s.net ∧
          u.gm = ((graphSlots s gk).foldl (fun a i =>
            let bs := pageBytes s gk g (slotPane i) (slotQ i) s.sh.seq
            let at_ := (viD s g.vi).saveBase + 4096 * i
            savePuts (devTouch a g.vi at_ bs.length) g.vi at_ bs) s).gm)) ∧
    (∀ v, tget s.sh.saved gk = some v →
      (v.armed = false → contextsBound s gk = false ∨ bindHeld s gk = true → exec (.contextResume gk) s = .next s) ∧
      (v.armed = false → contextsBound s gk = true → bindHeld s gk = false → v.moves = false → lostCell s g = false →
        ∃ u, exec (.contextResume gk) s = .next u ∧ tget u.sh.saved gk = some { v with armed := true } ∧
          u.wk.tasks = s.wk.tasks ∧ u.wk.insts = s.wk.insts ∧ u.net = s.net ∧ u.ls = s.ls ∧ (PagesPresent s gk g → MemFrame s u)) ∧
      (v.armed = true → replaysRun s gk = true → exec (.contextResume gk) s = .next s) ∧
      (v.armed = true → replaysRun s gk = false →
        (∀ y ∈ s.wk.toks, (taskD s y.msg.tid).graph ≠ gk) → PagesPresent s gk g →
        let tids := runningTasks s gk
        let run := (graphSlots s gk).flatMap fun i => (pageEntriesAt s g i).flatMap (pageRun s gk g tids i)
        ∃ w, exec (.contextResume gk) s = .next (wakeColour (activateAll w run)) ∧ tget w.sh.saved gk = none ∧
          w.wk.insts = s.wk.insts ∧ w.net = s.net ∧ MemFrame s w ∧
          ∀ tid t, taskAt s tid = some t →
            (tid ∈ tids → taskAt w tid = some { t with entries := [], stopped := false }) ∧
            (tid ∉ tids → taskAt w tid = some t)))

/-- R292, R297: a parity error on a waiting token is recorded as PARITY_RETRY and counted by cell. The token becomes POISON where a
READ or a block that has committed sent it; else the consuming instance is discarded and activated again. The second error of
a cell marks it bad. (That the count stays at 3 is log 72.) -/
def Obligations.ParityErrors : Prop :=
  ∀ (s : State) (f : Firing) (port : Port) (t : Task) (e : TokEntry), Canonical s → taskAt s f.tid = some t →
    s.wk.toks.find? (fun y => sameWord y f && y.msg.port = port) = some e →
    let cell := cellOf s t f.block f.slot
    let count := tgetD s.bt.parity cell 0
    let gone := e.msg.fromRead = true ∨ instAt s f.tid e.msg.src = none
    (gone → count ≠ 1 → ∃ u, exec (.parityError f port) s = .next u ∧ u.wk.insts = s.wk.insts ∧ u.wk.tasks = s.wk.tasks ∧
      u.wk.toks = s.wk.toks.map (fun y => if y = e then { y with msg := { y.msg with tok := poisonTok } } else y) ∧
      tgetD u.bt.parity cell 0 = min 3 (count + 1) ∧
      bits (tgetD u.sr.faultInfo (cell / 16 / 192) 0).toNat 0 6 = 0x10) ∧
    (¬ gone → ∀ x, instAt s f.tid f.iter = some x → x.block = f.block → x.tid = f.tid → x.iter = f.iter →
      ∃ u a, exec (.parityError f port) s = .next u ∧ instAt u f.tid f.iter = none ∧ .blockActivate a ∈ u.net ∧
        a.tid = f.tid ∧ a.iter = f.iter ∧ a.block = f.block) ∧
    (count = 1 → ∃ u, exec (.parityError f port) s = .next u ∧ cellBad u (cell / 16) (cell % 16) = true)

/-- R251, R252, R253, R255, R286, R298, R352: a write of a bind record changes WEIGHT and CLASS at once; another change waits while
the context is in use, or its shutter is under way, and else binds or frees it. An invalidation removes the die's translations of its
range, and completes once every access that had translated by then has performed. -/
def Obligations.BindsAndInvalidations : Prop :=
  ∀ (s : State), Canonical s →
    (∀ die index v, die < 4 → index < 1536 →
      let e : Instr := .bindRecordWrite die index v
      let pane := die * 192 + index / 8
      let q := index % 8
      let old := bindRec s pane q
      let inUse := bindValid old = true ∧ (contextLive s pane q = true ∨ (tget s.sh.active (bindGraph old)).isSome = true)
      (sameContext old v.toNat = true → ∃ u, exec e s = .next u ∧ bindRec u pane q = v.toNat % 2 ^ 45 ∧
        (∀ p j, j < 8 → p ≠ pane ∨ j ≠ q → bindRec u p j = bindRec s p j) ∧ MemFrame s u ∧ u.wk.tasks = s.wk.tasks ∧
        u.wk.insts = s.wk.insts ∧ u.net = s.net) ∧
      (sameContext old v.toNat = false → inUse → ∃ u, exec e s = .next u ∧ ⟨die, index, v, true⟩ ∈ u.cf.held ∧
        u.cf.slots = s.cf.slots ∧ u.wk.tasks = s.wk.tasks ∧ u.wk.insts = s.wk.insts ∧ u.wk.toks = s.wk.toks ∧
        u.net = s.net ∧ MemFrame s u ∧
        ∀ g, tget s.cf.graphs (bindGraph old) = some g → g.place.isSome = true → tget s.sh.saved (bindGraph old) = none →
          (tget u.sh.active (bindGraph old)).isSome = true) ∧
      (sameContext old v.toNat = false → ¬ inUse → bindValid v.toNat = false →
        ∃ u, exec e s = .next u ∧ bindRec u pane q = v.toNat % 2 ^ 45) ∧
      (∀ g, bindValid old = false → bindValid v.toNat = true → tget s.cf.graphs (bindGraph v.toNat) = some g → g.armed = true →
        (∃ pl, g.place = some pl ∧ pane ∈ rectPanes g pl) → paneServes s (bindGraph v.toNat) g q pane = true →
        overflowMapped s g = true → poolClear s g pane = true →
        ∃ u, exec e s = .next u ∧ bindRec u pane q = v.toNat % 2 ^ 45)) ∧
    (∀ die index v, 4 ≤ die ∨ 1536 ≤ index → exec (.bindRecordWrite die index v) s = .next s) ∧
    (∀ die index, die < 4 → index < 1536 →
      let found := s.cf.held.find? fun h => h.die = die && h.index = index
      let pane := die * 192 + index / 8
      let old := bindRec s pane (index % 8)
      let inUse := bindValid old = true ∧
        ((tget s.sh.active (bindGraph old)).isSome = true ∨ contextLive s pane (index % 8) = true)
      (found = none → exec (.bindHeldApply die index) s = .next s) ∧
      (∀ h, found = some h → h.shutter = true → inUse → exec (.bindHeldApply die index) s = .next s) ∧
      (∀ h, found = some h → h.shutter = true → ¬ inUse → bindValid h.v.toNat = false →
        ∃ u, exec (.bindHeldApply die index) s = .next u ∧ bindRec u pane (index % 8) = h.v.toNat % 2 ^ 45 ∧
          h ∉ u.cf.held)) ∧
    (∀ die vi lo hi, ∃ u, exec (.tlbInvalidate die vi lo hi) s = .next u ∧ MemFrame s u ∧ u.wk = s.wk ∧ u.net = s.net ∧
      (∀ k t, k / 192 = die → t ∈ tgetD u.gm.tlb k [] → ¬ (t.vi = vi ∧ t.base < hi ∧ lo < t.base + t.size)) ∧
      (∀ k, k / 192 ≠ die → tgetD u.gm.tlb k [] = tgetD s.gm.tlb k []) ∧
      (∃ x ∈ u.gm.invals, x.die = die ∧ x.vi = vi ∧ x.lo = lo ∧ x.hi = hi)) ∧
    (∀ id,
      let found := s.gm.invals.find? fun x => x.id = id
      (found = none → exec (.invalidateComplete id) s = .next s) ∧
      (∀ x, found = some x → usesOld s x = true → exec (.invalidateComplete id) s = .next s) ∧
      (∀ x, found = some x → usesOld s x = false → ∃ u, exec (.invalidateComplete id) s = .next u ∧
        (∀ y ∈ u.gm.invals, y.id ≠ id) ∧ MemFrame s u ∧ u.wk = s.wk ∧ u.net = s.net))

/-! ### System registers, correction, ticks and streams (08, 09, 12) -/

/-- R206, R211 to R216, R219, R220, R266, R267: a write of a system register takes the bits that the register has, and changes no other
register; a read-only or unassigned number is not written; a grant that is withdrawn disables its source; BADNODE takes the
OR; a counter's read with CLR clears it; the latch reaches a die at its cycle. The scrubber goes on to the next row. -/
def Obligations.SystemRegisters : Prop :=
  ∀ (s : State), Canonical s →
    let quiet := fun (u : State) => MemFrame s u ∧ u.wk = s.wk ∧ u.net = s.net
    (∀ w : SysW,
      let e : Instr := .ovpWrite w
      (0x010 ≤ w.n → w.n < 0x018 → ∃ u, exec e s = .next u ∧ quiet u ∧
        ovpReg u w.pane (w.n - 0x010) = w.val.toNat / 65536 * 65536 ∧
        ∀ p q, q < 8 → p ≠ w.pane ∨ q ≠ w.n - 0x010 → ovpReg u p q = ovpReg s p q) ∧
      (w.n < 0x010 ∨ 0x018 ≤ w.n → exec e s = .next s)) ∧
    (∀ w : SysW,
      let e : Instr := .viCtlWrite w
      let v := w.n - 0x040
      let old := (tgetD s.sr.viCtl v 0).toNat
      let new := bits w.val.toNat 0 1 + bits w.val.toNat 16 16 * 2 ^ 16
      (0x040 ≤ w.n → w.n < 0x080 → ∃ u, exec e s = .next u ∧ quiet u ∧ (tgetD u.sr.viCtl v 0).toNat = new ∧
        (∀ k, k ≠ v → tgetD u.sr.viCtl k 0 = tgetD s.sr.viCtl k 0) ∧
        ∀ n, n < 16 → tickAt u n =
          if bits old (16 + n) 1 = 1 ∧ bits new (16 + n) 1 = 0 then { tickAt s n with period := 0 } else tickAt s n) ∧
      (w.n < 0x040 ∨ 0x080 ≤ w.n → exec e s = .next s)) ∧
    (∀ w : SysW,
      let e : Instr := .badnodeWrite w
      let k := w.die * 48 + (w.n - 0x080)
      (0x080 ≤ w.n → w.n < 0x0B0 → ∃ u, exec e s = .next u ∧ quiet u ∧
        tgetD u.sr.badnode k 0 = tgetD s.sr.badnode k 0 ||| w.val ∧
        (∀ j, j ≠ k → tgetD u.sr.badnode j 0 = tgetD s.sr.badnode j 0) ∧ tgetD u.bt.flashBad k 0 = tgetD u.sr.badnode k 0) ∧
      (w.n < 0x080 ∨ 0x0B0 ≤ w.n → exec e s = .next s)) ∧
    (∀ w : SysW,
      let old := (tgetD s.sr.trigger w.die 0).toNat
      ∃ u, exec (.triggerWrite w) s = .next u ∧ quiet u ∧ (tgetD u.sr.trigger w.die 0).toNat =
        bits w.val.toNat 0 1 + (if bits w.val.toNat 1 1 = 1 then 0 else bits old 1 1) * 2) ∧
    (∀ w : SysW,
      let e : Instr := .sysregWrite w
      (w.n = 0x180 → ∃ u, exec e s = .next u ∧ quiet u ∧
        (tgetD u.sr.streamSel w.pane 0).toNat = w.val.toNat % 2 ^ 11) ∧
      (0x1C0 ≤ w.n → w.n < 0x1C8 → ∃ u, exec e s = .next u ∧ quiet u ∧
        perfSelOf u w.pane (w.n - 0x1C0) = w.val.toNat % 2 ^ 14 ∧ u.sr.perfCnt = s.sr.perfCnt) ∧
      (0x1C8 ≤ w.n → w.n < 0x1D0 → ∃ u, exec e s = .next u ∧ quiet u ∧
        perfCntOf u w.pane (w.n - 0x1C8) = w.val.toNat ∧ u.sr.perfSel = s.sr.perfSel) ∧
      (w.n ≠ 0x180 → w.n < 0x1C0 ∨ 0x1D0 ≤ w.n → exec e s = .next s)) ∧
    (∀ pane c,
      let e : Instr := .perfCntClearRead pane c
      (c < 8 → bits (perfSelOf s pane c) 13 1 = 1 → ∃ u, exec e s = .next u ∧ quiet u ∧ perfCntOf u pane c = 0) ∧
      (8 ≤ c ∨ bits (perfSelOf s pane c) 13 1 = 0 → exec e s = .next s)) ∧
    (∀ die,
      let e : Instr := .latchPropagate die
      let due := ∃ l ∈ s.sr.latch, l.2 = die ∧ l.1 ≤ s.clk.cycle
      let old := (tgetD s.sr.trigger die 0).toNat
      (due → ∃ u, exec e s = .next u ∧ quiet u ∧ bits (tgetD u.sr.trigger die 0).toNat 1 1 = 1 ∧
        bits (tgetD u.sr.trigger die 0).toNat 0 1 = bits old 0 1 ∧
        ¬ ∃ l ∈ u.sr.latch, l.2 = die ∧ l.1 ≤ s.clk.cycle) ∧
      (¬ due → exec e s = .next s)) ∧
    (∀ pane, s.ls.upset = [] → ∃ u, exec (.scrubRow pane) s = .next u ∧ quiet u ∧
      tgetD u.ls.scrub pane 0 = (tgetD s.ls.scrub pane 0 + 1) % 1024) ∧
    (∀ pane row,
      ((pane, row) ∉ s.ls.wbs → exec (.eccWriteback pane row) s = .next s) ∧
      ((pane, row) ∈ s.ls.wbs → ∃ u, exec (.eccWriteback pane row) s = .next u ∧ quiet u ∧
        u.ls.wbs = lerase s.ls.wbs (pane, row) ∧
        ∀ j, j < 32 → correctable s.ls (pane * 32768 + row * 32 + j) = true →
          tget u.ls.upset (pane * 32768 + row * 32 + j) = none))

/-- R202, R211, R308 to R310, R312, R313: writes of the tick set; a source's tick comes at ORIGIN + k × PERIOD, advances TICK_COUNT,
freezes the slots of the streams bound to the source up to its time, and starts its grace; when the grace ends each slot it froze
is LATE if it is still open, and HELD with the hold copy where the stream has one, and a slot that is present fills the hold copy;
then the tick's launch is made with the fields as at the firing, or deferred or skipped as the policy says, and a deferred one is
made once the source's launches have completed. (That a closed job, or an interface without the grant or not configured, makes no
launch and no tick is logs 69 and 107; a launch may also wait for a unit of a counter: R260, log 22.) -/
def Obligations.TicksLaunch : Prop :=
  ∀ (s : State), Canonical s →
    (∀ (w : SysW) (n i : Nat), n < 16 → i < 8 → w.n = 0x100 + 8 * n + i →
      let e : Instr := .tickSetWrite (.reg w)
      let t := tickAt s n
      let becomes := fun (t' : Tick) => ∃ u, exec e s = .next u ∧ tickAt u n = t' ∧ MemFrame s u ∧ u.wk = s.wk ∧
        u.net = s.net ∧ ∀ k, k ≠ n → tickAt u k = tickAt s k
      (i = 0 → becomes { t with origin := w.val }) ∧
      (i = 1 → t.period ≠ 0 ∨ BitVec.ofNat 32 w.val.toNat = 0 → becomes { t with period := BitVec.ofNat 32 w.val.toNat }) ∧
      (i = 1 → t.period = 0 → BitVec.ofNat 32 w.val.toNat ≠ 0 →
        let t1 := { t with period := BitVec.ofNat 32 w.val.toNat }
        becomes { t1 with count := firstTick (now0 s) t1 }) ∧
      (i = 2 → becomes { t with grace := BitVec.ofNat 32 w.val.toNat }) ∧
      (i = 3 → becomes { t with card := w.val }) ∧
      (i = 4 → becomes { t with policy := decide (w.val.toNat % 2 = 1) }) ∧
      (i = 6 → becomes { t with job := BitVec.ofNat 64 (w.val.toNat % 2 ^ 22) }) ∧
      (i = 5 ∨ i = 7 → exec e s = .next s)) ∧
    (∀ m : TickMsg,
      let e : Instr := .tickSetWrite (.install m)
      let d := m.desc.toNat
      let answers := fun (u : State) (v : Nat) =>
        u.net = s.net ++ [.returnValueArrive ⟨m.tid, m.iter, m.launch, m.reg, mkTok .n8 v, 0⟩]
      let good := tickGranted s m.vi m.source = true ∧ tickDescOk d = true
      (¬ good → ∃ u, exec e s = .next u ∧ answers u 1 ∧ u.tm = s.tm) ∧
      (good → ∃ u, exec e s = .next u ∧ answers u 0 ∧ (tickAt u m.source).origin.toNat = bits d 0 64 ∧
        (tickAt u m.source).period.toNat = bits d 64 32 ∧ (tickAt u m.source).grace.toNat = bits d 96 32 ∧
        (tickAt u m.source).card.toNat = bits d 128 64 ∧ (tickAt u m.source).policy = decide (bits d 192 1 = 1) ∧
        (tickAt u m.source).count = firstTick m.at_ (tickAt u m.source) ∧
        (tickAt u m.source).graces = (tickAt s m.source).graces ∧ (tickAt u m.source).deferred = (tickAt s m.source).deferred ∧
        ∀ k, k ≠ m.source → tickAt u k = tickAt s k)) ∧
    (∀ n,
      let t := tickAt s n
      let e : Instr := .tick n
      let once := n < 16 ∧ tickDue s t = true ∧ now0 s < t.timeOf (t.count + 1) ∧ t.graces = []
      (16 ≤ n ∨ tickDue s t = false → exec e s = .next s) ∧
      (once → tickLive s n t.job = false → ∃ u, exec e s = .next u ∧ tickAt u n = { t with count := t.count + 1 } ∧
        MemFrame s u ∧ u.jb = s.jb ∧ u.wk = s.wk ∧ ∀ k, streamAt u k = streamAt s k) ∧
      (once → tickLive s n t.job = true → now0 s < t.timeOf t.count + t.grace.toNat →
        ∃ u fr, exec e s = .next u ∧ MemFrame s u ∧ u.jb = s.jb ∧ u.wk = s.wk ∧
          tickAt u n = { t with count := t.count + 1,
                                graces := [⟨⟨t.count, t.timeOf t.count, t.grace.toNat, t.card, t.policy, t.job⟩, fr⟩] } ∧
          ∀ k,
            let x := streamAt s k
            let bound := x.enabled = true ∧ x.tickOf = n ∧ (viD s (k / 32)).configured = true
            let c := max x.covered (x.slotOf (timeOfNs (t.timeOf t.count)) - 1)
            (bound → streamAt u k = { x with covered := c }) ∧ (¬ bound → streamAt u k = x) ∧
            ∀ lo hi, (k, lo, hi) ∈ fr ↔ bound ∧ x.covered < c ∧ lo = x.covered + 1 ∧ hi = c)) ∧
    (∀ n,
      let t := tickAt s n
      let launched := fun (u : State) (x : Fired) =>
        ∃ l, tget u.jb.launches (launchKey (tickVi x.job) (viD s (tickVi x.job)).nextLaunch) = some l ∧ l.job = tickJob x.job ∧
          l.card = x.card.toNat % 2 ^ 52 ∧ l.tick = some (x.k, (timeOfNs x.t).toNat) ∧ l.source = some n
      let e : Instr := .graceExpiry n
      ((∀ g ∈ t.graces, now0 s < g.fired.t + g.fired.grace) → exec e s = .next s) ∧
      (∀ g rest, t.graces = g :: rest →
        (∀ h ∈ rest, g.fired.t + g.fired.grace ≤ h.fired.t + h.fired.grace) → g.fired.t + g.fired.grace ≤ now0 s →
        let x := g.fired
        let behind := sourceBusy s n = true ∨ t.deferred ≠ []
        let full := launchFull s (tickVi x.job) (tickJob x.job) = true
        let live := tickLive s n x.job = true
        (behind → x.policy = true → ∃ u, exec e s = .next u ∧ (tickAt u n).graces = rest ∧
          (tickAt u n).deferred = t.deferred ∧ u.jb = s.jb) ∧
        ((behind ∧ x.policy = false) ∨ (¬ behind ∧ full) → ∃ u, exec e s = .next u ∧ (tickAt u n).graces = rest ∧
          (tickAt u n).deferred = t.deferred ++ [x] ∧ u.jb = s.jb) ∧
        (¬ behind → ¬ full → ¬ live → ∃ u, exec e s = .next u ∧ (tickAt u n).graces = rest ∧ (tickAt u n).deferred = [] ∧
          u.jb = s.jb) ∧
        (¬ behind → ¬ full → live → ∃ u, exec e s = .next u ∧ (tickAt u n).graces = rest ∧ launched u x) ∧
        (∀ k i, g.frozen = [(k, i, i)] → (streamAt s k).covered = i → ∃ u, exec e s = .next u ∧
          let y := streamAt s k
          let z := streamAt u k
          let copied := fun (a b : Nat) => copySlot s (k / 32) a b y.slotB
          let quiet := behind ∨ full ∨ ¬ live
          z.covered = y.covered ∧ z.lateFill = y.lateFill ∧ z.dropped = y.dropped ∧
          (∀ j, j ≠ k → streamAt u j = streamAt s j) ∧
          (y.stateOf i = .opened → z.late = min (2 ^ 64 - 1) (y.late + 1) ∧ z.src = y.src ∧ z.filled = y.filled) ∧
          (y.stateOf i = .opened → y.hold = false ∨ y.filled = false ∨ copied y.holdPlace (y.place i) = none →
            z.stateOf i = .late ∧ (quiet → u.gm = s.gm)) ∧
          (∀ v, y.stateOf i = .opened → y.hold = true → y.filled = true → copied y.holdPlace (y.place i) = some v →
            z.stateOf i = .held y.src ∧ (quiet → u.gm = v.gm)) ∧
          (∀ late, y.stateOf i = .present late → z.stateOf i = .present late ∧ z.late = y.late) ∧
          (∀ late, y.stateOf i = .present late → y.hold = false ∨ copied (y.place i) y.holdPlace = none →
            z.src = y.src ∧ z.filled = y.filled ∧ (quiet → u.gm = s.gm)) ∧
          (∀ late v, y.stateOf i = .present late → y.hold = true → copied (y.place i) y.holdPlace = some v →
            z.src = i ∧ z.filled = true ∧ (quiet → u.gm = v.gm)))) ∧
      (t.deferred = [] → exec (.tickDeferredLaunch n) s = .next s) ∧
      (∀ x rest, t.deferred = x :: rest →
        let waits := sourceBusy s n = true ∨ launchFull s (tickVi x.job) (tickJob x.job) = true
        (waits → exec (.tickDeferredLaunch n) s = .next s) ∧
        (¬ waits → tickLive s n x.job = false → ∃ u, exec (.tickDeferredLaunch n) s = .next u ∧
          (tickAt u n).deferred = rest ∧ u.jb = s.jb ∧ MemFrame s u) ∧
        (¬ waits → tickLive s n x.job = true → ∃ u, exec (.tickDeferredLaunch n) s = .next u ∧
          (tickAt u n).deferred = rest ∧ launched u x)))

/-- R203, R211, R259, R311, R312, R317: a stream is reshaped only while it is disabled, and at enable its slots start afresh. A packet
within the window is written to its slot, and its last one makes the slot PRESENT; any other packet is dropped and counted,
and changes no byte. A sill that is pinned stands in the TLBs of its interface from the enable on (R228). -/
def Obligations.StreamsIngest : Prop :=
  ∀ (s : State), Canonical s →
    (∀ w : SysW,
      let e : Instr := .streamSetWrite w
      let k := selStream s w.pane
      let x := streamAt s k
      let becomes := fun (x' : Stream) => ∃ u, exec e s = .next u ∧ streamAt u k = x' ∧ MemFrame s u ∧ u.wk = s.wk ∧
        u.net = s.net ∧ ∀ j, j ≠ k → streamAt u j = streamAt s j
      (x.enabled = true → w.n ≠ 0x183 → exec e s = .next s) ∧
      let sill := ∀ va ∈ sillVas x, Present s (k / 32) va
      (w.n = 0x183 → w.val = 0 → becomes { x with period := w.val }) ∧
      (w.n = 0x183 → x.period ≠ 0 → w.val ≠ 0 → sill → becomes { x with period := w.val }) ∧
      (w.n = 0x183 → x.period = 0 → w.val ≠ 0 → sill →
        becomes { x with period := w.val, covered := -1, slots := [], filled := false, src := 0 }) ∧
      (w.n = 0x183 → w.val ≠ 0 → ∀ va ∈ sillVas x, ∀ y, (walk s (k / 32) va).1 = .leaf y → ePin y.entry.toNat = true →
        ∃ u, exec e s = .next u ∧ ∀ p ∈ viPanes s (k / 32), ∃ y' ∈ tgetD u.gm.tlb p [], y'.vi = y.vi ∧ y'.base = y.base) ∧
      (x.enabled = false → w.n = 0x181 → becomes { x with base := w.val }) ∧
      (x.enabled = false → w.n = 0x182 → becomes { x with geom := BitVec.ofNat 64 (w.val.toNat % 2 ^ 38) }) ∧
      (x.enabled = false → w.n = 0x184 → becomes { x with origin := w.val }) ∧
      (w.n < 0x181 ∨ 0x185 ≤ w.n → exec e s = .next s)) ∧
    (∀ p : Packet,
      let e : Instr := .ingestPacket p
      let vi := pktVi p
      let k := streamKey vi (pktStream p)
      let x := streamAt s k
      let n := pktLength p
      let o := p.offset.toNat
      let i := x.slotOf p.ts
      let known := (viD s vi).configured = true
      let fits := x.enabled = true ∧ x.valid = true ∧ n % 16 = 0 ∧ o % 16 = 0 ∧ o + n ≤ x.slotB ∧
        sillPinned s vi x = true ∧ 0 ≤ i ∧ i ≤ x.covered + x.win ∧ x.inWindow x.covered i = true ∧
        rangeOk s vi (x.place i) (max 1 x.slotB) .write = true
      (¬ known → exec e s = .next s) ∧
      (known → ¬ fits → ∃ u, exec e s = .next u ∧ streamAt u k = { x with dropped := min (2 ^ 64 - 1) (x.dropped + 1) } ∧
        MemFrame s u ∧ u.wk = s.wk) ∧
      (known → fits → ∃ u, exec e s = .next u ∧ u.wk = s.wk ∧ u.net = s.net ∧
        u.gm = (ingestBytes (sillHold s vi x) vi ((x.place i + o) % 2 ^ 52) ((pktBytes p).map fun b => (b, false))).gm ∧
        (pktLast p = false → streamAt u k = x) ∧
        (∀ j, j ≠ k → streamAt u j = streamAt s j) ∧
        (pktLast p = true → (streamAt u k).stateOf i = .present (decide (i ≤ x.covered)) ∧
          (streamAt u k).covered = x.covered ∧ (streamAt u k).dropped = x.dropped ∧
          (i ≤ x.covered → (streamAt u k).lateFill = min (2 ^ 64 - 1) (x.lateFill + 1)))))

/-! ### Time, boot, power (12) -/

/-- R304 to R306: device time never goes back, neither when a cycle passes nor when a message of the master corrects it. An offset
below 1 ms is slewed, a larger forward one stepped, a larger backward one held. A unit that does not run takes no message.
The loss of the master ends the lock and leaves the time as it is. A master heard twice in time is followed, and of two the better
one; only a message of the domain, from the master and at its port, corrects the time. (The algorithm that compares two masters is
the default one of IEEE 1588-2019: log 71.) -/
def Obligations.ClockRuns : Prop :=
  ∀ (s : State),
    (∀ die, dieTimeNs s die ≤ dieTimeNs (passCycle s) die) ∧
    (∀ m die, ∃ u, exec (.ptpMessage m) s = .next u ∧ dieTimeNs s die ≤ dieTimeNs u die ∧ MemFrame s u ∧ u.wk = s.wk) ∧
    (s.clk.ptp.running = false → ∀ m, exec (.ptpMessage m) s = .next s) ∧
    (s.clk.ptp.running = true → ∀ port who d seq t1,
      port ≠ s.clk.ptp.port ∨ s.clk.ptp.master ≠ some who ∨ d ≠ s.clk.ptp.domain →
      exec (.ptpMessage (.sync port who d seq false t1)) s = .next s) ∧
    (s.clk.ptp.running = true → ∀ port d a,
      let e : Instr := .ptpMessage (.announce port d a)
      let follows := fun (f : Foreign) => ∃ u, exec e s = .next u ∧ u.clk.ptp.master = some f.ann.sender ∧
        u.clk.ptp.port = f.port ∧ u.clk.times = s.clk.times ∧ MemFrame s u
      (d ≠ s.clk.ptp.domain → exec e s = .next s) ∧
      (∀ f, d = s.clk.ptp.domain → s.clk.ptp.foreign = [f] → f.port = port → f.ann.sender = a.sender → a.steps < 255 →
        ptpNow s.clk ≤ f.at_ + 4 * a.interval → follows ⟨port, a, ptpNow s.clk, some f.at_⟩) ∧
      (∀ f g, d = s.clk.ptp.domain → s.clk.ptp.foreign = [f, g] → f.port = port → f.ann.sender = a.sender → a.steps < 255 →
        ptpNow s.clk ≤ f.at_ + 4 * a.interval → g.port ≠ port ∨ g.ann.sender ≠ a.sender →
        ptpNow s.clk ≤ g.at_ + 4 * g.ann.interval → qualified g = true →
        let x : Foreign := ⟨port, a, ptpNow s.clk, some f.at_⟩
        (betterMaster g x = true → follows g) ∧ (betterMaster g x = false → follows x))) ∧
    (s.clk.ptp.running = true → ∀ who seq t1, s.clk.ptp.master = some who →
      let e : Instr := .ptpMessage (.sync s.clk.ptp.port who s.clk.ptp.domain seq false t1)
      let adj : Int := t1 + pathDelay s.clk.ptp - ptpNow s.clk
      (-1000000 < adj → adj < 1000000 → ∃ u, exec e s = .next u ∧ u.clk.slew = adj * 10000 ∧ u.clk.times = s.clk.times ∧
        u.clk.ptp.locked = true) ∧
      (1000000 ≤ adj → ∃ u, exec e s = .next u ∧ u.clk.times = s.clk.times.map (fun t => t + (adj * 10000).toNat) ∧
        u.clk.ptp.locked = true) ∧
      (adj ≤ -1000000 → ∃ u, exec e s = .next u ∧ u.clk.times = s.clk.times ∧ (u.clk.hold : Int) = - adj * 10000 ∧
        u.clk.ptp.locked = true)) ∧
    (∃ u, exec .ptpMasterLoss s = .next u ∧ u.clk.ptp.locked = false ∧ u.clk.ptp.master = none ∧
      u.clk.times = s.clk.times ∧ MemFrame s u ∧ u.wk = s.wk)

/-- R217, R321 to R326: a RESET starts the part anew with memory zero; it reports ready where every step passes, and a required step
without an alternate path that fails leaves it not ready. The lifecycle moves at a reset, and only by a signed request along
its arrows. The start log and the attestation report are answered. Clocks go down and up by one step; 115 °C stops the part. (That a clock goes
down by at most 15 steps is log 80; the layout of the attestation report is log 14.) -/
def Obligations.BootAndPower : Prop :=
  ∀ (s : State), Canonical s →
    (∀ outs, ∃ u, exec (.reset outs) s = .next u ∧ (∀ a, paByte u.gm a = 0) ∧ (∀ a, byteAt u.ls.bytes a = 0) ∧
      (∀ g, gstAt u.ls g = 0) ∧ u.wk = {} ∧ u.net = [] ∧ u.jb = {} ∧ u.cf = {} ∧ u.bt.start = s.bt.start + 1 ∧
      u.bt.stopped = false ∧ u.bt.lifecycle = s.bt.move.getD s.bt.lifecycle ∧ u.bt.move = none ∧
      ((∀ o ∈ outs, o.passed = true ∧ o.altPassed = true) → runs u = true) ∧
      ((∃ o ∈ outs, o.passed = false ∧ o.step ∈ [0, 1, 3, 7, 8, 11]) → runs u = false)) ∧
    (∃ u, exec .startLogRead s = .next u ∧ u.bt.replies = s.bt.replies ++ [.startLog (s.bt.log.map logBits)] ∧ MemFrame s u ∧
      u.wk = s.wk) ∧
    (∀ nonce, ∃ u sig, exec (.attestationRequest nonce) s = .next u ∧
      u.bt.replies = s.bt.replies ++ [.attestation (attestationReport s nonce) sig] ∧ MemFrame s u ∧ u.wk = s.wk) ∧
    (∀ dest signed,
      (signed = true → moveAllowed s.bt.lifecycle dest = true → ∃ u, exec (.lifecycleMove dest signed) s = .next u ∧
        u.bt.move = some dest ∧ u.bt.lifecycle = s.bt.lifecycle ∧ MemFrame s u ∧ u.wk = s.wk) ∧
      (signed = false ∨ moveAllowed s.bt.lifecycle dest = false → exec (.lifecycleMove dest signed) s = .next s)) ∧
    (∀ die,
      let n := tgetD s.bt.throttle die 0
      let becomes := fun (e : Instr) (v : Nat) => ∃ u, exec e s = .next u ∧ tgetD u.bt.throttle die 0 = v ∧
        (∀ k, k ≠ die → tgetD u.bt.throttle k 0 = tgetD s.bt.throttle k 0) ∧ MemFrame s u ∧ u.wk = s.wk
      becomes (.powerThrottle die) (min 15 (n + 1)) ∧ becomes (.thermalThrottle die) (min 15 (n + 1)) ∧
        becomes (.clockRestore die) (n - 1)) ∧
    (∀ die, ∃ u, exec (.thermalStop die) s = .next u ∧ runs u = false ∧ MemFrame s u ∧ u.wk = s.wk)

/-! ### Other devices and virtual interfaces (08, 12) -/

/-- R35, R149, R151, R154, R155, R193, R315: an access of another device is performed at the home of its line and answered; one
outside this device's memory is dropped. A remote SPAWN joins those that wait, and is refused where its launch takes no child; its
turn names its pane, then asks in line for a colour and a record and then for a carve-out, and once it has all three its child
starts; a remote count acts as a local one. (That an access outside memory, or across a line, is dropped without an answer is log
76; the turns of a remote SPAWN and what a refusal answers are log 75.) -/
def Obligations.RemoteAccess : Prop :=
  ∀ (s : State),
    (∀ r : RemoteRead,
      let e : Instr := .remoteMemoryRead r
      (lineAccess r.pa r.width = false → exec e s = .next s) ∧
      (lineAccess r.pa r.width = true → (tget s.gm.lines (r.pa / 128)).isSome = true →
        ∃ u, exec e s = .next u ∧ MemFrame s u ∧ u.wk = s.wk ∧ u.bt.replies = s.bt.replies ++
          [.remote r.tag (paBytes s.gm r.pa r.width) (homePoison s r.pa 0 r.width) 0])) ∧
    (∀ w : RemoteWrite,
      let e : Instr := .remoteMemoryWrite w
      let n := w.bytes.length
      (lineAccess w.pa n = false → exec e s = .next s) ∧
      (lineAccess w.pa n = true → (tget s.gm.lines (w.pa / 128)).isSome = true →
        (w.poison = false → ∃ u, exec e s = .next u ∧ GlobalFrame s u w.pa n ∧ u.wk = s.wk ∧ u.net = s.net ∧
          ∀ k, k < n → paByte u.gm (w.pa + k) = ((w.bytes[k]?).bind id).getD (paByte s.gm (w.pa + k))) ∧
        (w.poison = true → w.cmd = none → ∃ u, exec e s = .next u ∧ MemFrame s u ∧
          (lineAt u.gm (w.pa / 128)).poison = true))) ∧
    (∀ r : RemoteAmo,
      let e : Instr := .remoteAmo r
      let w := accessWidth r.fmt
      let good := remoteFmtOk r.op r.fmt = true ∧ r.pa % w = 0 ∧ lineAccess r.pa w = true
      let old := loadTok r.fmt (paBytes s.gm r.pa w)
      let new := atomNew r.op old r.r r.x
      let poison := homePoison s r.pa 0 w = true ∨ r.r.tag = .poison ∨ (r.op = .cas ∧ r.x.tag = .poison)
      let writes := r.op ≠ .cas ∨ tokBits old = tokBits r.r
      (¬ good → exec e s = .next s) ∧
      (good → (tget s.gm.lines (r.pa / 128)).isSome = true → ¬ poison → ∃ u, exec e s = .next u ∧ GlobalFrame s u r.pa w ∧
        u.bt.replies = s.bt.replies ++ [.remote r.tag (storeBytes r.fmt old) false new.2] ∧
        (writes → paBytes u.gm r.pa w = storeBytes r.fmt new.1) ∧ (¬ writes → MemFrame s u)) ∧
      (good → (tget s.gm.lines (r.pa / 128)).isSome = true → poison → ∃ u, exec e s = .next u ∧ MemFrame s u ∧
        u.bt.replies = s.bt.replies ++ [.remote r.tag [] true 0] ∧ (lineAt u.gm (r.pa / 128)).poison = true)) ∧
    (∀ (w : RemoteWrite) (gk : Nat),
      let e : Instr := .remoteMst w gk
      let good := lineAccess w.pa w.bytes.length = true ∧ ∀ b ∈ w.bytes, b.isSome = true
      (¬ good → exec e s = .next s) ∧
      (good → ∃ u m, exec e s = .next u ∧ MemFrame s u ∧ u.wk = s.wk ∧ u.net = s.net ++ [.globalWritePerform m] ∧
        m.pa = w.pa ∧ m.rdev = 0 ∧ m.bytes = w.bytes.filterMap id ∧ m.poison = w.poison)) ∧
    (∀ r : RemoteSpawn,
      let e : Instr := .remoteSpawn r
      (remoteLive s r.launch = false → exec e s = .next (refuseSpawn s r)) ∧
      (remoteLive s r.launch = true → ∃ u n, exec e s = .next u ∧ u.wk.remotes = s.wk.remotes ++ [{ num := n, r := r }] ∧
        (∀ y ∈ s.wk.remotes, y.num ≠ n) ∧ u.wk.tasks = s.wk.tasks ∧ u.net = s.net ∧ u.bt = s.bt ∧ MemFrame s u)) ∧
    (∀ x ∈ s.wk.remotes, (∀ y ∈ s.wk.remotes, y.num = x.num → y = x) →
      let turn := remoteGo s x.num
      let l := tgetD s.jb.launches x.r.launch {}
      let live := remoteLive s x.r.launch = true ∧ shuttered s l.graph = false
      (remoteLive s x.r.launch = false → turn = remoteDrop s x) ∧
      (remoteLive s x.r.launch = true → shuttered s l.graph = true → turn = s) ∧
      (∀ p, live → x.pane = none → spawnPane s l.graph .any 0 = some p →
        (poolSize s p < carveSize l → turn = remoteDrop s x) ∧
        (carveSize l ≤ poolSize s p → { x with pane := some p } ∈ turn.wk.remotes ∧ turn.net = s.net ∧ MemFrame s turn)) ∧
      (∀ p, live → x.pane = some p → x.colour = none →
        mayTake s (paneDie p) false (.remote x.num) = true → mayTake s (paneDie p) true (.remote x.num) = true →
        ∀ col s1 fut, takeColour s (paneDie p) = some (col, s1) → takeFut s (paneDie p) = some fut →
          { x with colour := some col, fut := some fut } ∈ turn.wk.remotes ∧
          turn.net = s.net ++ [.allocRequestArrive ⟨.remote x.num, poolKey p, carveSize l, 0, 17, 0, 0, col, s.clk.cycle, 0⟩]) ∧
      (∀ p, live → x.pane = some p → x.colour = none →
        mayTake s (paneDie p) false (.remote x.num) = false ∨ takeColour s (paneDie p) = none →
        turn.net = s.net ∧ turn.wk.tasks = s.wk.tasks ∧ MemFrame s turn ∧
          ∃ q ∈ turn.wk.line, q.die = paneDie p ∧ q.record = false ∧ q.who = .remote x.num) ∧
      (∀ p col fut carve, live → x.pane = some p → x.colour = some col → x.fut = some fut → x.granted = some carve →
        ∃ t, taskAt turn (paneDie p * 65536 + col) = some t ∧ t.pane = p ∧ t.launch = x.r.launch ∧ t.fut = fut ∧
          t.carve = carve ∧ regOf t 0 = x.r.arg ∧ regOf t 58 = mkTok .i32 l.id ∧ regOf t 59 = x.r.card ∧
          (∀ a ∈ entryRun (paneDie p * 65536 + col) x.r.entry 1, a ∈ turn.net) ∧ (∀ y ∈ turn.wk.remotes, y.num ≠ x.num) ∧
          turn.bt.replies = s.bt.replies ++
            [.remote x.r.tag (bytesOf 8 (futPayload fut (tgetD s.wk.futs fut {}).gen).toNat) false 0])) ∧
    (∀ m : RefMsg, exec (.remoteCount (.ref m)) s = exec (.refChangeArrive m) s) ∧
    (∀ k l up, tget s.jb.launches k = some l →
      let e : Instr := .remoteCount (.level k up)
      (up = true → unitsFull s k 1 = true → exec e s = .next (repost s e)) ∧
      (up = false ∨ unitsFull s k 1 = false → ∃ u, exec e s = .next u ∧ MemFrame s u ∧ u.wk = s.wk ∧
        tget u.jb.launches k = some { l with remote := if up then l.remote + 1 else l.remote - 1 }))

/-- R213, R243, R247, R318: an interface that is not configured takes its root, its places, its peers and its grants, and starts with
an empty inbox (log 105); one that is unconfigured stops at once where it has no job, and else cancels each of its jobs and
stops with the last. -/
def Obligations.InterfacesConfigured : Prop :=
  ∀ (s : State), Canonical s →
    (∀ c : ViConf,
      let e : Instr := .viConfigure c
      (63 < c.vi ∨ (viD s c.vi).configured = true → exec e s = .next s) ∧
      (c.vi ≤ 63 → (viD s c.vi).configured = false → ∃ u, exec e s = .next u ∧ u.wk = s.wk ∧
        ((∀ i, i < 64 → (tget s.gm.lines (slotPa u c.vi i / 128)).isSome = true) →
          (∀ i, i < 64 → slotFull (slotAt u c.vi i) = false) ∧ u.ls = s.ls ∧ (∀ a, byteAt u.gm.hbm a = byteAt s.gm.hbm a) ∧
          ∀ a, (∀ i, i < 64 → a ≠ slotPa u c.vi i + 56) → paByte u.gm a = paByte s.gm a) ∧
        (viD u c.vi).configured = true ∧ (viD u c.vi).inboxAt = c.inboxAt ∧ (viD u c.vi).root = c.root ∧ (viD u c.vi).faultBase = c.faultBase ∧
        (viD u c.vi).ringN = c.ringN ∧ (viD u c.vi).saveBase = c.saveBase ∧ (viD u c.vi).saveSize = c.saveSize ∧
        (viD u c.vi).peers = c.peers ∧ (viD u c.vi).index = 0 ∧ (viD u c.vi).put = 0 ∧
        (∀ v, v ≠ c.vi → viD u v = viD s v) ∧
        ∀ n, n < 16 → (tickGranted u c.vi n = true ↔ c.tickGrant.toNat.testBit n = true))) ∧
    (∀ vi,
      let e : Instr := .viUnconfigure vi
      ((viD s vi).configured = false → exec e s = .next s) ∧
      ((viD s vi).configured = true → jobsOf s vi = [] → ∃ u, exec e s = .next u ∧ (viD u vi).configured = false ∧
        MemFrame s u) ∧
      ((viD s vi).configured = true → jobsOf s vi ≠ [] → ∃ u, exec e s = .next u ∧ (viD u vi).stopping = true ∧
        (viD u vi).ending = jobsOf s vi ∧
        ∀ n j, n < 65536 → tget s.jb.jobs (jobKey vi n) = some j → j.vi = vi → j.lvl.done = false →
          ∃ j', tget u.jb.jobs (jobKey vi n) = some j' ∧ j'.lvl.cancelled = true))

/-! ### The invariant of every step -/

/-- R7, R217, R218: the state after reset has its maps in canonical form. (The form is the model's own: log 19.) -/
def Obligations.ResetCanonical : Prop := Canonical State.reset

/-- R7, R217, R218: every step keeps the maps in canonical form: no address, granule, register, record or context has two values.
(The form is the model's own: log 19.) -/
def Obligations.StepKeepsCanonical : Prop :=
  ∀ s t : State, Canonical s → step s = .next t → Canonical t

end
end

