-- ==== Sys2Proof/Laws/State.lean ====
section
/-! SUPPORT. One lemma for each field under each update of the state, so that no later proof unfolds a record update. -/

namespace Sys2Proof.Machine

/-! ### post -/

@[simp] theorem post_clk (s : State) (ms : List Instr) : (post s ms).clk = s.clk := rfl
@[simp] theorem post_gm (s : State) (ms : List Instr) : (post s ms).gm = s.gm := rfl
@[simp] theorem post_ls (s : State) (ms : List Instr) : (post s ms).ls = s.ls := rfl
@[simp] theorem post_al (s : State) (ms : List Instr) : (post s ms).al = s.al := rfl
@[simp] theorem post_wk (s : State) (ms : List Instr) : (post s ms).wk = s.wk := rfl
@[simp] theorem post_cf (s : State) (ms : List Instr) : (post s ms).cf = s.cf := rfl
@[simp] theorem post_en (s : State) (ms : List Instr) : (post s ms).en = s.en := rfl
@[simp] theorem post_jb (s : State) (ms : List Instr) : (post s ms).jb = s.jb := rfl
@[simp] theorem post_tm (s : State) (ms : List Instr) : (post s ms).tm = s.tm := rfl
@[simp] theorem post_sr (s : State) (ms : List Instr) : (post s ms).sr = s.sr := rfl
@[simp] theorem post_fw (s : State) (ms : List Instr) : (post s ms).fw = s.fw := rfl
@[simp] theorem post_sh (s : State) (ms : List Instr) : (post s ms).sh = s.sh := rfl
@[simp] theorem post_bt (s : State) (ms : List Instr) : (post s ms).bt = s.bt := rfl
@[simp] theorem post_net (s : State) (ms : List Instr) : (post s ms).net = s.net ++ ms := rfl
@[simp] theorem post_inp (s : State) (ms : List Instr) : (post s ms).inp = s.inp := rfl
@[simp] theorem post_nd (s : State) (ms : List Instr) : (post s ms).nd = s.nd := rfl

/-! ### repost -/

@[simp] theorem repost_clk (s : State) (m : Instr) : (repost s m).clk = s.clk := rfl
@[simp] theorem repost_gm (s : State) (m : Instr) : (repost s m).gm = s.gm := rfl
@[simp] theorem repost_ls (s : State) (m : Instr) : (repost s m).ls = s.ls := rfl
@[simp] theorem repost_al (s : State) (m : Instr) : (repost s m).al = s.al := rfl
@[simp] theorem repost_wk (s : State) (m : Instr) : (repost s m).wk = s.wk := rfl
@[simp] theorem repost_cf (s : State) (m : Instr) : (repost s m).cf = s.cf := rfl
@[simp] theorem repost_en (s : State) (m : Instr) : (repost s m).en = s.en := rfl
@[simp] theorem repost_jb (s : State) (m : Instr) : (repost s m).jb = s.jb := rfl
@[simp] theorem repost_tm (s : State) (m : Instr) : (repost s m).tm = s.tm := rfl
@[simp] theorem repost_sr (s : State) (m : Instr) : (repost s m).sr = s.sr := rfl
@[simp] theorem repost_fw (s : State) (m : Instr) : (repost s m).fw = s.fw := rfl
@[simp] theorem repost_sh (s : State) (m : Instr) : (repost s m).sh = s.sh := rfl
@[simp] theorem repost_bt (s : State) (m : Instr) : (repost s m).bt = s.bt := rfl
@[simp] theorem repost_net (s : State) (m : Instr) : (repost s m).net = m :: s.net := rfl
@[simp] theorem repost_inp (s : State) (m : Instr) : (repost s m).inp = s.inp := rfl
@[simp] theorem repost_nd (s : State) (m : Instr) : (repost s m).nd = s.nd := rfl

/-! ### setTask -/

@[simp] theorem setTask_clk (s : State) (k : Nat) (t : Task) : (setTask s k t).clk = s.clk := rfl
@[simp] theorem setTask_gm (s : State) (k : Nat) (t : Task) : (setTask s k t).gm = s.gm := rfl
@[simp] theorem setTask_ls (s : State) (k : Nat) (t : Task) : (setTask s k t).ls = s.ls := rfl
@[simp] theorem setTask_al (s : State) (k : Nat) (t : Task) : (setTask s k t).al = s.al := rfl
@[simp] theorem setTask_tasks (s : State) (k : Nat) (t : Task) : (setTask s k t).wk.tasks = tput s.wk.tasks k t := rfl
@[simp] theorem setTask_insts (s : State) (k : Nat) (t : Task) : (setTask s k t).wk.insts = s.wk.insts := rfl
@[simp] theorem setTask_toks (s : State) (k : Nat) (t : Task) : (setTask s k t).wk.toks = s.wk.toks := rfl
@[simp] theorem setTask_reds (s : State) (k : Nat) (t : Task) : (setTask s k t).wk.reds = s.wk.reds := rfl
@[simp] theorem setTask_issue (s : State) (k : Nat) (t : Task) : (setTask s k t).wk.issue = s.wk.issue := rfl
@[simp] theorem setTask_waits (s : State) (k : Nat) (t : Task) : (setTask s k t).wk.waits = s.wk.waits := rfl
@[simp] theorem setTask_ready (s : State) (k : Nat) (t : Task) : (setTask s k t).wk.ready = s.wk.ready := rfl
@[simp] theorem setTask_cells (s : State) (k : Nat) (t : Task) : (setTask s k t).wk.cells = s.wk.cells := rfl
@[simp] theorem setTask_pools (s : State) (k : Nat) (t : Task) : (setTask s k t).wk.pools = s.wk.pools := rfl
@[simp] theorem setTask_cooling (s : State) (k : Nat) (t : Task) : (setTask s k t).wk.cooling = s.wk.cooling := rfl
@[simp] theorem setTask_futs (s : State) (k : Nat) (t : Task) : (setTask s k t).wk.futs = s.wk.futs := rfl
@[simp] theorem setTask_births (s : State) (k : Nat) (t : Task) : (setTask s k t).wk.births = s.wk.births := rfl
@[simp] theorem setTask_remotes (s : State) (k : Nat) (t : Task) : (setTask s k t).wk.remotes = s.wk.remotes := rfl
@[simp] theorem setTask_rels (s : State) (k : Nat) (t : Task) : (setTask s k t).wk.rels = s.wk.rels := rfl
@[simp] theorem setTask_order (s : State) (k : Nat) (t : Task) : (setTask s k t).wk.order = s.wk.order := rfl
@[simp] theorem setTask_line (s : State) (k : Nat) (t : Task) : (setTask s k t).wk.line = s.wk.line := rfl
@[simp] theorem setTask_pubs (s : State) (k : Nat) (t : Task) : (setTask s k t).wk.pubs = s.wk.pubs := rfl
@[simp] theorem setTask_cf (s : State) (k : Nat) (t : Task) : (setTask s k t).cf = s.cf := rfl
@[simp] theorem setTask_en (s : State) (k : Nat) (t : Task) : (setTask s k t).en = s.en := rfl
@[simp] theorem setTask_jb (s : State) (k : Nat) (t : Task) : (setTask s k t).jb = s.jb := rfl
@[simp] theorem setTask_tm (s : State) (k : Nat) (t : Task) : (setTask s k t).tm = s.tm := rfl
@[simp] theorem setTask_sr (s : State) (k : Nat) (t : Task) : (setTask s k t).sr = s.sr := rfl
@[simp] theorem setTask_fw (s : State) (k : Nat) (t : Task) : (setTask s k t).fw = s.fw := rfl
@[simp] theorem setTask_sh (s : State) (k : Nat) (t : Task) : (setTask s k t).sh = s.sh := rfl
@[simp] theorem setTask_bt (s : State) (k : Nat) (t : Task) : (setTask s k t).bt = s.bt := rfl
@[simp] theorem setTask_net (s : State) (k : Nat) (t : Task) : (setTask s k t).net = s.net := rfl
@[simp] theorem setTask_inp (s : State) (k : Nat) (t : Task) : (setTask s k t).inp = s.inp := rfl
@[simp] theorem setTask_nd (s : State) (k : Nat) (t : Task) : (setTask s k t).nd = s.nd := rfl

/-! ### modTask -/

@[simp] theorem modTask_clk (s : State) (k : Nat) (f : Task → Task) : (modTask s k f).clk = s.clk := rfl
@[simp] theorem modTask_gm (s : State) (k : Nat) (f : Task → Task) : (modTask s k f).gm = s.gm := rfl
@[simp] theorem modTask_ls (s : State) (k : Nat) (f : Task → Task) : (modTask s k f).ls = s.ls := rfl
@[simp] theorem modTask_al (s : State) (k : Nat) (f : Task → Task) : (modTask s k f).al = s.al := rfl
@[simp] theorem modTask_tasks (s : State) (k : Nat) (f : Task → Task) : (modTask s k f).wk.tasks = tmod s.wk.tasks k f := rfl
@[simp] theorem modTask_insts (s : State) (k : Nat) (f : Task → Task) : (modTask s k f).wk.insts = s.wk.insts := rfl
@[simp] theorem modTask_toks (s : State) (k : Nat) (f : Task → Task) : (modTask s k f).wk.toks = s.wk.toks := rfl
@[simp] theorem modTask_reds (s : State) (k : Nat) (f : Task → Task) : (modTask s k f).wk.reds = s.wk.reds := rfl
@[simp] theorem modTask_issue (s : State) (k : Nat) (f : Task → Task) : (modTask s k f).wk.issue = s.wk.issue := rfl
@[simp] theorem modTask_waits (s : State) (k : Nat) (f : Task → Task) : (modTask s k f).wk.waits = s.wk.waits := rfl
@[simp] theorem modTask_ready (s : State) (k : Nat) (f : Task → Task) : (modTask s k f).wk.ready = s.wk.ready := rfl
@[simp] theorem modTask_cells (s : State) (k : Nat) (f : Task → Task) : (modTask s k f).wk.cells = s.wk.cells := rfl
@[simp] theorem modTask_pools (s : State) (k : Nat) (f : Task → Task) : (modTask s k f).wk.pools = s.wk.pools := rfl
@[simp] theorem modTask_cooling (s : State) (k : Nat) (f : Task → Task) : (modTask s k f).wk.cooling = s.wk.cooling := rfl
@[simp] theorem modTask_futs (s : State) (k : Nat) (f : Task → Task) : (modTask s k f).wk.futs = s.wk.futs := rfl
@[simp] theorem modTask_births (s : State) (k : Nat) (f : Task → Task) : (modTask s k f).wk.births = s.wk.births := rfl
@[simp] theorem modTask_remotes (s : State) (k : Nat) (f : Task → Task) : (modTask s k f).wk.remotes = s.wk.remotes := rfl
@[simp] theorem modTask_rels (s : State) (k : Nat) (f : Task → Task) : (modTask s k f).wk.rels = s.wk.rels := rfl
@[simp] theorem modTask_order (s : State) (k : Nat) (f : Task → Task) : (modTask s k f).wk.order = s.wk.order := rfl
@[simp] theorem modTask_line (s : State) (k : Nat) (f : Task → Task) : (modTask s k f).wk.line = s.wk.line := rfl
@[simp] theorem modTask_pubs (s : State) (k : Nat) (f : Task → Task) : (modTask s k f).wk.pubs = s.wk.pubs := rfl
@[simp] theorem modTask_cf (s : State) (k : Nat) (f : Task → Task) : (modTask s k f).cf = s.cf := rfl
@[simp] theorem modTask_en (s : State) (k : Nat) (f : Task → Task) : (modTask s k f).en = s.en := rfl
@[simp] theorem modTask_jb (s : State) (k : Nat) (f : Task → Task) : (modTask s k f).jb = s.jb := rfl
@[simp] theorem modTask_tm (s : State) (k : Nat) (f : Task → Task) : (modTask s k f).tm = s.tm := rfl
@[simp] theorem modTask_sr (s : State) (k : Nat) (f : Task → Task) : (modTask s k f).sr = s.sr := rfl
@[simp] theorem modTask_fw (s : State) (k : Nat) (f : Task → Task) : (modTask s k f).fw = s.fw := rfl
@[simp] theorem modTask_sh (s : State) (k : Nat) (f : Task → Task) : (modTask s k f).sh = s.sh := rfl
@[simp] theorem modTask_bt (s : State) (k : Nat) (f : Task → Task) : (modTask s k f).bt = s.bt := rfl
@[simp] theorem modTask_net (s : State) (k : Nat) (f : Task → Task) : (modTask s k f).net = s.net := rfl
@[simp] theorem modTask_inp (s : State) (k : Nat) (f : Task → Task) : (modTask s k f).inp = s.inp := rfl
@[simp] theorem modTask_nd (s : State) (k : Nat) (f : Task → Task) : (modTask s k f).nd = s.nd := rfl

/-! ### setInst -/

@[simp] theorem setInst_clk (s : State) (x : Inst) : (setInst s x).clk = s.clk := rfl
@[simp] theorem setInst_gm (s : State) (x : Inst) : (setInst s x).gm = s.gm := rfl
@[simp] theorem setInst_ls (s : State) (x : Inst) : (setInst s x).ls = s.ls := rfl
@[simp] theorem setInst_al (s : State) (x : Inst) : (setInst s x).al = s.al := rfl
@[simp] theorem setInst_tasks (s : State) (x : Inst) : (setInst s x).wk.tasks = s.wk.tasks := rfl
@[simp] theorem setInst_insts (s : State) (x : Inst) : (setInst s x).wk.insts = tput s.wk.insts (instKey x.tid x.iter) x := rfl
@[simp] theorem setInst_toks (s : State) (x : Inst) : (setInst s x).wk.toks = s.wk.toks := rfl
@[simp] theorem setInst_reds (s : State) (x : Inst) : (setInst s x).wk.reds = s.wk.reds := rfl
@[simp] theorem setInst_issue (s : State) (x : Inst) : (setInst s x).wk.issue = s.wk.issue := rfl
@[simp] theorem setInst_waits (s : State) (x : Inst) : (setInst s x).wk.waits = s.wk.waits := rfl
@[simp] theorem setInst_ready (s : State) (x : Inst) : (setInst s x).wk.ready = s.wk.ready := rfl
@[simp] theorem setInst_cells (s : State) (x : Inst) : (setInst s x).wk.cells = s.wk.cells := rfl
@[simp] theorem setInst_pools (s : State) (x : Inst) : (setInst s x).wk.pools = s.wk.pools := rfl
@[simp] theorem setInst_cooling (s : State) (x : Inst) : (setInst s x).wk.cooling = s.wk.cooling := rfl
@[simp] theorem setInst_futs (s : State) (x : Inst) : (setInst s x).wk.futs = s.wk.futs := rfl
@[simp] theorem setInst_births (s : State) (x : Inst) : (setInst s x).wk.births = s.wk.births := rfl
@[simp] theorem setInst_remotes (s : State) (x : Inst) : (setInst s x).wk.remotes = s.wk.remotes := rfl
@[simp] theorem setInst_rels (s : State) (x : Inst) : (setInst s x).wk.rels = s.wk.rels := rfl
@[simp] theorem setInst_order (s : State) (x : Inst) : (setInst s x).wk.order = s.wk.order := rfl
@[simp] theorem setInst_line (s : State) (x : Inst) : (setInst s x).wk.line = s.wk.line := rfl
@[simp] theorem setInst_pubs (s : State) (x : Inst) : (setInst s x).wk.pubs = s.wk.pubs := rfl
@[simp] theorem setInst_cf (s : State) (x : Inst) : (setInst s x).cf = s.cf := rfl
@[simp] theorem setInst_en (s : State) (x : Inst) : (setInst s x).en = s.en := rfl
@[simp] theorem setInst_jb (s : State) (x : Inst) : (setInst s x).jb = s.jb := rfl
@[simp] theorem setInst_tm (s : State) (x : Inst) : (setInst s x).tm = s.tm := rfl
@[simp] theorem setInst_sr (s : State) (x : Inst) : (setInst s x).sr = s.sr := rfl
@[simp] theorem setInst_fw (s : State) (x : Inst) : (setInst s x).fw = s.fw := rfl
@[simp] theorem setInst_sh (s : State) (x : Inst) : (setInst s x).sh = s.sh := rfl
@[simp] theorem setInst_bt (s : State) (x : Inst) : (setInst s x).bt = s.bt := rfl
@[simp] theorem setInst_net (s : State) (x : Inst) : (setInst s x).net = s.net := rfl
@[simp] theorem setInst_inp (s : State) (x : Inst) : (setInst s x).inp = s.inp := rfl
@[simp] theorem setInst_nd (s : State) (x : Inst) : (setInst s x).nd = s.nd := rfl

/-! ### modInst -/

@[simp] theorem modInst_clk (s : State) (tid iter : Nat) (f : Inst → Inst) : (modInst s tid iter f).clk = s.clk := rfl
@[simp] theorem modInst_gm (s : State) (tid iter : Nat) (f : Inst → Inst) : (modInst s tid iter f).gm = s.gm := rfl
@[simp] theorem modInst_ls (s : State) (tid iter : Nat) (f : Inst → Inst) : (modInst s tid iter f).ls = s.ls := rfl
@[simp] theorem modInst_al (s : State) (tid iter : Nat) (f : Inst → Inst) : (modInst s tid iter f).al = s.al := rfl
@[simp] theorem modInst_tasks (s : State) (tid iter : Nat) (f : Inst → Inst) : (modInst s tid iter f).wk.tasks = s.wk.tasks := rfl
@[simp] theorem modInst_insts (s : State) (tid iter : Nat) (f : Inst → Inst) : (modInst s tid iter f).wk.insts = tmod s.wk.insts (instKey tid iter) f := rfl
@[simp] theorem modInst_toks (s : State) (tid iter : Nat) (f : Inst → Inst) : (modInst s tid iter f).wk.toks = s.wk.toks := rfl
@[simp] theorem modInst_reds (s : State) (tid iter : Nat) (f : Inst → Inst) : (modInst s tid iter f).wk.reds = s.wk.reds := rfl
@[simp] theorem modInst_issue (s : State) (tid iter : Nat) (f : Inst → Inst) : (modInst s tid iter f).wk.issue = s.wk.issue := rfl
@[simp] theorem modInst_waits (s : State) (tid iter : Nat) (f : Inst → Inst) : (modInst s tid iter f).wk.waits = s.wk.waits := rfl
@[simp] theorem modInst_ready (s : State) (tid iter : Nat) (f : Inst → Inst) : (modInst s tid iter f).wk.ready = s.wk.ready := rfl
@[simp] theorem modInst_cells (s : State) (tid iter : Nat) (f : Inst → Inst) : (modInst s tid iter f).wk.cells = s.wk.cells := rfl
@[simp] theorem modInst_pools (s : State) (tid iter : Nat) (f : Inst → Inst) : (modInst s tid iter f).wk.pools = s.wk.pools := rfl
@[simp] theorem modInst_cooling (s : State) (tid iter : Nat) (f : Inst → Inst) : (modInst s tid iter f).wk.cooling = s.wk.cooling := rfl
@[simp] theorem modInst_futs (s : State) (tid iter : Nat) (f : Inst → Inst) : (modInst s tid iter f).wk.futs = s.wk.futs := rfl
@[simp] theorem modInst_births (s : State) (tid iter : Nat) (f : Inst → Inst) : (modInst s tid iter f).wk.births = s.wk.births := rfl
@[simp] theorem modInst_remotes (s : State) (tid iter : Nat) (f : Inst → Inst) : (modInst s tid iter f).wk.remotes = s.wk.remotes := rfl
@[simp] theorem modInst_rels (s : State) (tid iter : Nat) (f : Inst → Inst) : (modInst s tid iter f).wk.rels = s.wk.rels := rfl
@[simp] theorem modInst_order (s : State) (tid iter : Nat) (f : Inst → Inst) : (modInst s tid iter f).wk.order = s.wk.order := rfl
@[simp] theorem modInst_line (s : State) (tid iter : Nat) (f : Inst → Inst) : (modInst s tid iter f).wk.line = s.wk.line := rfl
@[simp] theorem modInst_pubs (s : State) (tid iter : Nat) (f : Inst → Inst) : (modInst s tid iter f).wk.pubs = s.wk.pubs := rfl
@[simp] theorem modInst_cf (s : State) (tid iter : Nat) (f : Inst → Inst) : (modInst s tid iter f).cf = s.cf := rfl
@[simp] theorem modInst_en (s : State) (tid iter : Nat) (f : Inst → Inst) : (modInst s tid iter f).en = s.en := rfl
@[simp] theorem modInst_jb (s : State) (tid iter : Nat) (f : Inst → Inst) : (modInst s tid iter f).jb = s.jb := rfl
@[simp] theorem modInst_tm (s : State) (tid iter : Nat) (f : Inst → Inst) : (modInst s tid iter f).tm = s.tm := rfl
@[simp] theorem modInst_sr (s : State) (tid iter : Nat) (f : Inst → Inst) : (modInst s tid iter f).sr = s.sr := rfl
@[simp] theorem modInst_fw (s : State) (tid iter : Nat) (f : Inst → Inst) : (modInst s tid iter f).fw = s.fw := rfl
@[simp] theorem modInst_sh (s : State) (tid iter : Nat) (f : Inst → Inst) : (modInst s tid iter f).sh = s.sh := rfl
@[simp] theorem modInst_bt (s : State) (tid iter : Nat) (f : Inst → Inst) : (modInst s tid iter f).bt = s.bt := rfl
@[simp] theorem modInst_net (s : State) (tid iter : Nat) (f : Inst → Inst) : (modInst s tid iter f).net = s.net := rfl
@[simp] theorem modInst_inp (s : State) (tid iter : Nat) (f : Inst → Inst) : (modInst s tid iter f).inp = s.inp := rfl
@[simp] theorem modInst_nd (s : State) (tid iter : Nat) (f : Inst → Inst) : (modInst s tid iter f).nd = s.nd := rfl

/-! ### popLane -/

@[simp] theorem popLane_clk (s : State) : (popLane s).clk = s.clk := rfl
@[simp] theorem popLane_gm (s : State) : (popLane s).gm = s.gm := rfl
@[simp] theorem popLane_ls (s : State) : (popLane s).ls = s.ls := rfl
@[simp] theorem popLane_al (s : State) : (popLane s).al = s.al := rfl
@[simp] theorem popLane_tasks (s : State) : (popLane s).wk.tasks = s.wk.tasks := rfl
@[simp] theorem popLane_insts (s : State) : (popLane s).wk.insts = s.wk.insts := rfl
@[simp] theorem popLane_toks (s : State) : (popLane s).wk.toks = s.wk.toks := rfl
@[simp] theorem popLane_reds (s : State) : (popLane s).wk.reds = s.wk.reds := rfl
@[simp] theorem popLane_issue (s : State) : (popLane s).wk.issue = s.wk.issue.tail := rfl
@[simp] theorem popLane_waits (s : State) : (popLane s).wk.waits = s.wk.waits := rfl
@[simp] theorem popLane_ready (s : State) : (popLane s).wk.ready = s.wk.ready := rfl
@[simp] theorem popLane_cells (s : State) : (popLane s).wk.cells = s.wk.cells := rfl
@[simp] theorem popLane_pools (s : State) : (popLane s).wk.pools = s.wk.pools := rfl
@[simp] theorem popLane_cooling (s : State) : (popLane s).wk.cooling = s.wk.cooling := rfl
@[simp] theorem popLane_futs (s : State) : (popLane s).wk.futs = s.wk.futs := rfl
@[simp] theorem popLane_births (s : State) : (popLane s).wk.births = s.wk.births := rfl
@[simp] theorem popLane_remotes (s : State) : (popLane s).wk.remotes = s.wk.remotes := rfl
@[simp] theorem popLane_rels (s : State) : (popLane s).wk.rels = s.wk.rels := rfl
@[simp] theorem popLane_order (s : State) : (popLane s).wk.order = s.wk.order := rfl
@[simp] theorem popLane_line (s : State) : (popLane s).wk.line = s.wk.line := rfl
@[simp] theorem popLane_pubs (s : State) : (popLane s).wk.pubs = s.wk.pubs := rfl
@[simp] theorem popLane_cf (s : State) : (popLane s).cf = s.cf := rfl
@[simp] theorem popLane_en (s : State) : (popLane s).en = s.en := rfl
@[simp] theorem popLane_jb (s : State) : (popLane s).jb = s.jb := rfl
@[simp] theorem popLane_tm (s : State) : (popLane s).tm = s.tm := rfl
@[simp] theorem popLane_sr (s : State) : (popLane s).sr = s.sr := rfl
@[simp] theorem popLane_fw (s : State) : (popLane s).fw = s.fw := rfl
@[simp] theorem popLane_sh (s : State) : (popLane s).sh = s.sh := rfl
@[simp] theorem popLane_bt (s : State) : (popLane s).bt = s.bt := rfl
@[simp] theorem popLane_net (s : State) : (popLane s).net = s.net := rfl
@[simp] theorem popLane_inp (s : State) : (popLane s).inp = s.inp := rfl
@[simp] theorem popLane_nd (s : State) : (popLane s).nd = s.nd := rfl

/-! ### waitFor -/

@[simp] theorem waitFor_clk (s : State) (f : Firing) (w : Wait) : (waitFor s f w).clk = s.clk := rfl
@[simp] theorem waitFor_gm (s : State) (f : Firing) (w : Wait) : (waitFor s f w).gm = s.gm := rfl
@[simp] theorem waitFor_ls (s : State) (f : Firing) (w : Wait) : (waitFor s f w).ls = s.ls := rfl
@[simp] theorem waitFor_al (s : State) (f : Firing) (w : Wait) : (waitFor s f w).al = s.al := rfl
@[simp] theorem waitFor_tasks (s : State) (f : Firing) (w : Wait) : (waitFor s f w).wk.tasks = s.wk.tasks := rfl
@[simp] theorem waitFor_insts (s : State) (f : Firing) (w : Wait) : (waitFor s f w).wk.insts = s.wk.insts := rfl
@[simp] theorem waitFor_toks (s : State) (f : Firing) (w : Wait) : (waitFor s f w).wk.toks = s.wk.toks := rfl
@[simp] theorem waitFor_reds (s : State) (f : Firing) (w : Wait) : (waitFor s f w).wk.reds = s.wk.reds := rfl
@[simp] theorem waitFor_issue (s : State) (f : Firing) (w : Wait) : (waitFor s f w).wk.issue = s.wk.issue := rfl
@[simp] theorem waitFor_waits (s : State) (f : Firing) (w : Wait) : (waitFor s f w).wk.waits = s.wk.waits ++ [(f, w)] := rfl
@[simp] theorem waitFor_ready (s : State) (f : Firing) (w : Wait) : (waitFor s f w).wk.ready = s.wk.ready := rfl
@[simp] theorem waitFor_cells (s : State) (f : Firing) (w : Wait) : (waitFor s f w).wk.cells = s.wk.cells := rfl
@[simp] theorem waitFor_pools (s : State) (f : Firing) (w : Wait) : (waitFor s f w).wk.pools = s.wk.pools := rfl
@[simp] theorem waitFor_cooling (s : State) (f : Firing) (w : Wait) : (waitFor s f w).wk.cooling = s.wk.cooling := rfl
@[simp] theorem waitFor_futs (s : State) (f : Firing) (w : Wait) : (waitFor s f w).wk.futs = s.wk.futs := rfl
@[simp] theorem waitFor_births (s : State) (f : Firing) (w : Wait) : (waitFor s f w).wk.births = s.wk.births := rfl
@[simp] theorem waitFor_remotes (s : State) (f : Firing) (w : Wait) : (waitFor s f w).wk.remotes = s.wk.remotes := rfl
@[simp] theorem waitFor_rels (s : State) (f : Firing) (w : Wait) : (waitFor s f w).wk.rels = s.wk.rels := rfl
@[simp] theorem waitFor_order (s : State) (f : Firing) (w : Wait) : (waitFor s f w).wk.order = s.wk.order := rfl
@[simp] theorem waitFor_line (s : State) (f : Firing) (w : Wait) : (waitFor s f w).wk.line = s.wk.line := rfl
@[simp] theorem waitFor_pubs (s : State) (f : Firing) (w : Wait) : (waitFor s f w).wk.pubs = s.wk.pubs := rfl
@[simp] theorem waitFor_cf (s : State) (f : Firing) (w : Wait) : (waitFor s f w).cf = s.cf := rfl
@[simp] theorem waitFor_en (s : State) (f : Firing) (w : Wait) : (waitFor s f w).en = s.en := rfl
@[simp] theorem waitFor_jb (s : State) (f : Firing) (w : Wait) : (waitFor s f w).jb = s.jb := rfl
@[simp] theorem waitFor_tm (s : State) (f : Firing) (w : Wait) : (waitFor s f w).tm = s.tm := rfl
@[simp] theorem waitFor_sr (s : State) (f : Firing) (w : Wait) : (waitFor s f w).sr = s.sr := rfl
@[simp] theorem waitFor_fw (s : State) (f : Firing) (w : Wait) : (waitFor s f w).fw = s.fw := rfl
@[simp] theorem waitFor_sh (s : State) (f : Firing) (w : Wait) : (waitFor s f w).sh = s.sh := rfl
@[simp] theorem waitFor_bt (s : State) (f : Firing) (w : Wait) : (waitFor s f w).bt = s.bt := rfl
@[simp] theorem waitFor_net (s : State) (f : Firing) (w : Wait) : (waitFor s f w).net = s.net := rfl
@[simp] theorem waitFor_inp (s : State) (f : Firing) (w : Wait) : (waitFor s f w).inp = s.inp := rfl
@[simp] theorem waitFor_nd (s : State) (f : Firing) (w : Wait) : (waitFor s f w).nd = s.nd := rfl

/-! ### markFired -/

@[simp] theorem markFired_clk (s : State) (f : Firing) (fl : FlagSet) : (markFired s f fl).clk = s.clk := rfl
@[simp] theorem markFired_gm (s : State) (f : Firing) (fl : FlagSet) : (markFired s f fl).gm = s.gm := rfl
@[simp] theorem markFired_ls (s : State) (f : Firing) (fl : FlagSet) : (markFired s f fl).ls = s.ls := rfl
@[simp] theorem markFired_al (s : State) (f : Firing) (fl : FlagSet) : (markFired s f fl).al = s.al := rfl
@[simp] theorem markFired_tasks (s : State) (f : Firing) (fl : FlagSet) : (markFired s f fl).wk.tasks = s.wk.tasks := rfl
@[simp] theorem markFired_insts (s : State) (f : Firing) (fl : FlagSet) :
    (markFired s f fl).wk.insts = tmod s.wk.insts (instKey f.tid f.iter) (fun i => { i with fired := i.fired ++ [f.slot], flags := i.flags ||| fl }) := rfl
@[simp] theorem markFired_toks (s : State) (f : Firing) (fl : FlagSet) : (markFired s f fl).wk.toks = s.wk.toks := rfl
@[simp] theorem markFired_reds (s : State) (f : Firing) (fl : FlagSet) : (markFired s f fl).wk.reds = s.wk.reds := rfl
@[simp] theorem markFired_issue (s : State) (f : Firing) (fl : FlagSet) : (markFired s f fl).wk.issue = s.wk.issue := rfl
@[simp] theorem markFired_waits (s : State) (f : Firing) (fl : FlagSet) : (markFired s f fl).wk.waits = s.wk.waits := rfl
@[simp] theorem markFired_ready (s : State) (f : Firing) (fl : FlagSet) : (markFired s f fl).wk.ready = s.wk.ready := rfl
@[simp] theorem markFired_cells (s : State) (f : Firing) (fl : FlagSet) : (markFired s f fl).wk.cells = s.wk.cells := rfl
@[simp] theorem markFired_pools (s : State) (f : Firing) (fl : FlagSet) : (markFired s f fl).wk.pools = s.wk.pools := rfl
@[simp] theorem markFired_cooling (s : State) (f : Firing) (fl : FlagSet) : (markFired s f fl).wk.cooling = s.wk.cooling := rfl
@[simp] theorem markFired_futs (s : State) (f : Firing) (fl : FlagSet) : (markFired s f fl).wk.futs = s.wk.futs := rfl
@[simp] theorem markFired_births (s : State) (f : Firing) (fl : FlagSet) : (markFired s f fl).wk.births = s.wk.births := rfl
@[simp] theorem markFired_remotes (s : State) (f : Firing) (fl : FlagSet) : (markFired s f fl).wk.remotes = s.wk.remotes := rfl
@[simp] theorem markFired_rels (s : State) (f : Firing) (fl : FlagSet) : (markFired s f fl).wk.rels = s.wk.rels := rfl
@[simp] theorem markFired_order (s : State) (f : Firing) (fl : FlagSet) : (markFired s f fl).wk.order = s.wk.order := rfl
@[simp] theorem markFired_line (s : State) (f : Firing) (fl : FlagSet) : (markFired s f fl).wk.line = s.wk.line := rfl
@[simp] theorem markFired_pubs (s : State) (f : Firing) (fl : FlagSet) : (markFired s f fl).wk.pubs = s.wk.pubs := rfl
@[simp] theorem markFired_cf (s : State) (f : Firing) (fl : FlagSet) : (markFired s f fl).cf = s.cf := rfl
@[simp] theorem markFired_en (s : State) (f : Firing) (fl : FlagSet) : (markFired s f fl).en = s.en := rfl
@[simp] theorem markFired_jb (s : State) (f : Firing) (fl : FlagSet) : (markFired s f fl).jb = s.jb := rfl
@[simp] theorem markFired_tm (s : State) (f : Firing) (fl : FlagSet) : (markFired s f fl).tm = s.tm := rfl
@[simp] theorem markFired_sr (s : State) (f : Firing) (fl : FlagSet) : (markFired s f fl).sr = s.sr := rfl
@[simp] theorem markFired_fw (s : State) (f : Firing) (fl : FlagSet) : (markFired s f fl).fw = s.fw := rfl
@[simp] theorem markFired_sh (s : State) (f : Firing) (fl : FlagSet) : (markFired s f fl).sh = s.sh := rfl
@[simp] theorem markFired_bt (s : State) (f : Firing) (fl : FlagSet) : (markFired s f fl).bt = s.bt := rfl
@[simp] theorem markFired_net (s : State) (f : Firing) (fl : FlagSet) : (markFired s f fl).net = s.net := rfl
@[simp] theorem markFired_inp (s : State) (f : Firing) (fl : FlagSet) : (markFired s f fl).inp = s.inp := rfl
@[simp] theorem markFired_nd (s : State) (f : Firing) (fl : FlagSet) : (markFired s f fl).nd = s.nd := rfl

/-! ### modGraph -/

@[simp] theorem modGraph_clk (s : State) (k : Nat) (f : Graph → Graph) : (modGraph s k f).clk = s.clk := rfl
@[simp] theorem modGraph_gm (s : State) (k : Nat) (f : Graph → Graph) : (modGraph s k f).gm = s.gm := rfl
@[simp] theorem modGraph_ls (s : State) (k : Nat) (f : Graph → Graph) : (modGraph s k f).ls = s.ls := rfl
@[simp] theorem modGraph_al (s : State) (k : Nat) (f : Graph → Graph) : (modGraph s k f).al = s.al := rfl
@[simp] theorem modGraph_wk (s : State) (k : Nat) (f : Graph → Graph) : (modGraph s k f).wk = s.wk := rfl
@[simp] theorem modGraph_cf (s : State) (k : Nat) (f : Graph → Graph) : (modGraph s k f).cf = { s.cf with graphs := tmod s.cf.graphs k f } := rfl
@[simp] theorem modGraph_en (s : State) (k : Nat) (f : Graph → Graph) : (modGraph s k f).en = s.en := rfl
@[simp] theorem modGraph_jb (s : State) (k : Nat) (f : Graph → Graph) : (modGraph s k f).jb = s.jb := rfl
@[simp] theorem modGraph_tm (s : State) (k : Nat) (f : Graph → Graph) : (modGraph s k f).tm = s.tm := rfl
@[simp] theorem modGraph_sr (s : State) (k : Nat) (f : Graph → Graph) : (modGraph s k f).sr = s.sr := rfl
@[simp] theorem modGraph_fw (s : State) (k : Nat) (f : Graph → Graph) : (modGraph s k f).fw = s.fw := rfl
@[simp] theorem modGraph_sh (s : State) (k : Nat) (f : Graph → Graph) : (modGraph s k f).sh = s.sh := rfl
@[simp] theorem modGraph_bt (s : State) (k : Nat) (f : Graph → Graph) : (modGraph s k f).bt = s.bt := rfl
@[simp] theorem modGraph_net (s : State) (k : Nat) (f : Graph → Graph) : (modGraph s k f).net = s.net := rfl
@[simp] theorem modGraph_inp (s : State) (k : Nat) (f : Graph → Graph) : (modGraph s k f).inp = s.inp := rfl
@[simp] theorem modGraph_nd (s : State) (k : Nat) (f : Graph → Graph) : (modGraph s k f).nd = s.nd := rfl

/-! ### modJob -/

@[simp] theorem modJob_clk (s : State) (k : Nat) (f : Job → Job) : (modJob s k f).clk = s.clk := rfl
@[simp] theorem modJob_gm (s : State) (k : Nat) (f : Job → Job) : (modJob s k f).gm = s.gm := rfl
@[simp] theorem modJob_ls (s : State) (k : Nat) (f : Job → Job) : (modJob s k f).ls = s.ls := rfl
@[simp] theorem modJob_al (s : State) (k : Nat) (f : Job → Job) : (modJob s k f).al = s.al := rfl
@[simp] theorem modJob_wk (s : State) (k : Nat) (f : Job → Job) : (modJob s k f).wk = s.wk := rfl
@[simp] theorem modJob_cf (s : State) (k : Nat) (f : Job → Job) : (modJob s k f).cf = s.cf := rfl
@[simp] theorem modJob_en (s : State) (k : Nat) (f : Job → Job) : (modJob s k f).en = s.en := rfl
@[simp] theorem modJob_jb (s : State) (k : Nat) (f : Job → Job) : (modJob s k f).jb = { s.jb with jobs := tmod s.jb.jobs k f } := rfl
@[simp] theorem modJob_tm (s : State) (k : Nat) (f : Job → Job) : (modJob s k f).tm = s.tm := rfl
@[simp] theorem modJob_sr (s : State) (k : Nat) (f : Job → Job) : (modJob s k f).sr = s.sr := rfl
@[simp] theorem modJob_fw (s : State) (k : Nat) (f : Job → Job) : (modJob s k f).fw = s.fw := rfl
@[simp] theorem modJob_sh (s : State) (k : Nat) (f : Job → Job) : (modJob s k f).sh = s.sh := rfl
@[simp] theorem modJob_bt (s : State) (k : Nat) (f : Job → Job) : (modJob s k f).bt = s.bt := rfl
@[simp] theorem modJob_net (s : State) (k : Nat) (f : Job → Job) : (modJob s k f).net = s.net := rfl
@[simp] theorem modJob_inp (s : State) (k : Nat) (f : Job → Job) : (modJob s k f).inp = s.inp := rfl
@[simp] theorem modJob_nd (s : State) (k : Nat) (f : Job → Job) : (modJob s k f).nd = s.nd := rfl

/-! ### modPhase -/

@[simp] theorem modPhase_clk (s : State) (k : Nat) (f : Phase → Phase) : (modPhase s k f).clk = s.clk := rfl
@[simp] theorem modPhase_gm (s : State) (k : Nat) (f : Phase → Phase) : (modPhase s k f).gm = s.gm := rfl
@[simp] theorem modPhase_ls (s : State) (k : Nat) (f : Phase → Phase) : (modPhase s k f).ls = s.ls := rfl
@[simp] theorem modPhase_al (s : State) (k : Nat) (f : Phase → Phase) : (modPhase s k f).al = s.al := rfl
@[simp] theorem modPhase_wk (s : State) (k : Nat) (f : Phase → Phase) : (modPhase s k f).wk = s.wk := rfl
@[simp] theorem modPhase_cf (s : State) (k : Nat) (f : Phase → Phase) : (modPhase s k f).cf = s.cf := rfl
@[simp] theorem modPhase_en (s : State) (k : Nat) (f : Phase → Phase) : (modPhase s k f).en = s.en := rfl
@[simp] theorem modPhase_jb (s : State) (k : Nat) (f : Phase → Phase) : (modPhase s k f).jb = { s.jb with phases := tmod s.jb.phases k f } := rfl
@[simp] theorem modPhase_tm (s : State) (k : Nat) (f : Phase → Phase) : (modPhase s k f).tm = s.tm := rfl
@[simp] theorem modPhase_sr (s : State) (k : Nat) (f : Phase → Phase) : (modPhase s k f).sr = s.sr := rfl
@[simp] theorem modPhase_fw (s : State) (k : Nat) (f : Phase → Phase) : (modPhase s k f).fw = s.fw := rfl
@[simp] theorem modPhase_sh (s : State) (k : Nat) (f : Phase → Phase) : (modPhase s k f).sh = s.sh := rfl
@[simp] theorem modPhase_bt (s : State) (k : Nat) (f : Phase → Phase) : (modPhase s k f).bt = s.bt := rfl
@[simp] theorem modPhase_net (s : State) (k : Nat) (f : Phase → Phase) : (modPhase s k f).net = s.net := rfl
@[simp] theorem modPhase_inp (s : State) (k : Nat) (f : Phase → Phase) : (modPhase s k f).inp = s.inp := rfl
@[simp] theorem modPhase_nd (s : State) (k : Nat) (f : Phase → Phase) : (modPhase s k f).nd = s.nd := rfl

/-! ### modLaunch -/

@[simp] theorem modLaunch_clk (s : State) (k : Nat) (f : Launch → Launch) : (modLaunch s k f).clk = s.clk := rfl
@[simp] theorem modLaunch_gm (s : State) (k : Nat) (f : Launch → Launch) : (modLaunch s k f).gm = s.gm := rfl
@[simp] theorem modLaunch_ls (s : State) (k : Nat) (f : Launch → Launch) : (modLaunch s k f).ls = s.ls := rfl
@[simp] theorem modLaunch_al (s : State) (k : Nat) (f : Launch → Launch) : (modLaunch s k f).al = s.al := rfl
@[simp] theorem modLaunch_wk (s : State) (k : Nat) (f : Launch → Launch) : (modLaunch s k f).wk = s.wk := rfl
@[simp] theorem modLaunch_cf (s : State) (k : Nat) (f : Launch → Launch) : (modLaunch s k f).cf = s.cf := rfl
@[simp] theorem modLaunch_en (s : State) (k : Nat) (f : Launch → Launch) : (modLaunch s k f).en = s.en := rfl
@[simp] theorem modLaunch_jb (s : State) (k : Nat) (f : Launch → Launch) : (modLaunch s k f).jb = { s.jb with launches := tmod s.jb.launches k f } := rfl
@[simp] theorem modLaunch_tm (s : State) (k : Nat) (f : Launch → Launch) : (modLaunch s k f).tm = s.tm := rfl
@[simp] theorem modLaunch_sr (s : State) (k : Nat) (f : Launch → Launch) : (modLaunch s k f).sr = s.sr := rfl
@[simp] theorem modLaunch_fw (s : State) (k : Nat) (f : Launch → Launch) : (modLaunch s k f).fw = s.fw := rfl
@[simp] theorem modLaunch_sh (s : State) (k : Nat) (f : Launch → Launch) : (modLaunch s k f).sh = s.sh := rfl
@[simp] theorem modLaunch_bt (s : State) (k : Nat) (f : Launch → Launch) : (modLaunch s k f).bt = s.bt := rfl
@[simp] theorem modLaunch_net (s : State) (k : Nat) (f : Launch → Launch) : (modLaunch s k f).net = s.net := rfl
@[simp] theorem modLaunch_inp (s : State) (k : Nat) (f : Launch → Launch) : (modLaunch s k f).inp = s.inp := rfl
@[simp] theorem modLaunch_nd (s : State) (k : Nat) (f : Launch → Launch) : (modLaunch s k f).nd = s.nd := rfl

/-! ### modVi -/

@[simp] theorem modVi_clk (s : State) (k : Nat) (f : Vi → Vi) : (modVi s k f).clk = s.clk := rfl
@[simp] theorem modVi_gm (s : State) (k : Nat) (f : Vi → Vi) : (modVi s k f).gm = s.gm := rfl
@[simp] theorem modVi_ls (s : State) (k : Nat) (f : Vi → Vi) : (modVi s k f).ls = s.ls := rfl
@[simp] theorem modVi_al (s : State) (k : Nat) (f : Vi → Vi) : (modVi s k f).al = s.al := rfl
@[simp] theorem modVi_wk (s : State) (k : Nat) (f : Vi → Vi) : (modVi s k f).wk = s.wk := rfl
@[simp] theorem modVi_cf (s : State) (k : Nat) (f : Vi → Vi) : (modVi s k f).cf = s.cf := rfl
@[simp] theorem modVi_en (s : State) (k : Nat) (f : Vi → Vi) : (modVi s k f).en = s.en := rfl
@[simp] theorem modVi_jb (s : State) (k : Nat) (f : Vi → Vi) : (modVi s k f).jb = { s.jb with vis := tmod s.jb.vis k f } := rfl
@[simp] theorem modVi_tm (s : State) (k : Nat) (f : Vi → Vi) : (modVi s k f).tm = s.tm := rfl
@[simp] theorem modVi_sr (s : State) (k : Nat) (f : Vi → Vi) : (modVi s k f).sr = s.sr := rfl
@[simp] theorem modVi_fw (s : State) (k : Nat) (f : Vi → Vi) : (modVi s k f).fw = s.fw := rfl
@[simp] theorem modVi_sh (s : State) (k : Nat) (f : Vi → Vi) : (modVi s k f).sh = s.sh := rfl
@[simp] theorem modVi_bt (s : State) (k : Nat) (f : Vi → Vi) : (modVi s k f).bt = s.bt := rfl
@[simp] theorem modVi_net (s : State) (k : Nat) (f : Vi → Vi) : (modVi s k f).net = s.net := rfl
@[simp] theorem modVi_inp (s : State) (k : Nat) (f : Vi → Vi) : (modVi s k f).inp = s.inp := rfl
@[simp] theorem modVi_nd (s : State) (k : Nat) (f : Vi → Vi) : (modVi s k f).nd = s.nd := rfl

/-! ### setArena -/

@[simp] theorem setArena_clk (s : State) (k : Nat) (a : Arena) : (setArena s k a).clk = s.clk := rfl
@[simp] theorem setArena_gm (s : State) (k : Nat) (a : Arena) : (setArena s k a).gm = s.gm := rfl
@[simp] theorem setArena_ls (s : State) (k : Nat) (a : Arena) : (setArena s k a).ls = s.ls := rfl
@[simp] theorem setArena_al (s : State) (k : Nat) (a : Arena) : (setArena s k a).al = { s.al with arenas := tput s.al.arenas k a } := rfl
@[simp] theorem setArena_wk (s : State) (k : Nat) (a : Arena) : (setArena s k a).wk = s.wk := rfl
@[simp] theorem setArena_cf (s : State) (k : Nat) (a : Arena) : (setArena s k a).cf = s.cf := rfl
@[simp] theorem setArena_en (s : State) (k : Nat) (a : Arena) : (setArena s k a).en = s.en := rfl
@[simp] theorem setArena_jb (s : State) (k : Nat) (a : Arena) : (setArena s k a).jb = s.jb := rfl
@[simp] theorem setArena_tm (s : State) (k : Nat) (a : Arena) : (setArena s k a).tm = s.tm := rfl
@[simp] theorem setArena_sr (s : State) (k : Nat) (a : Arena) : (setArena s k a).sr = s.sr := rfl
@[simp] theorem setArena_fw (s : State) (k : Nat) (a : Arena) : (setArena s k a).fw = s.fw := rfl
@[simp] theorem setArena_sh (s : State) (k : Nat) (a : Arena) : (setArena s k a).sh = s.sh := rfl
@[simp] theorem setArena_bt (s : State) (k : Nat) (a : Arena) : (setArena s k a).bt = s.bt := rfl
@[simp] theorem setArena_net (s : State) (k : Nat) (a : Arena) : (setArena s k a).net = s.net := rfl
@[simp] theorem setArena_inp (s : State) (k : Nat) (a : Arena) : (setArena s k a).inp = s.inp := rfl
@[simp] theorem setArena_nd (s : State) (k : Nat) (a : Arena) : (setArena s k a).nd = s.nd := rfl

/-! ### setRec -/

@[simp] theorem setRec_clk (s : State) (k : Nat) (r : Rec) : (setRec s k r).clk = s.clk := rfl
@[simp] theorem setRec_gm (s : State) (k : Nat) (r : Rec) : (setRec s k r).gm = s.gm := rfl
@[simp] theorem setRec_ls (s : State) (k : Nat) (r : Rec) : (setRec s k r).ls = s.ls := rfl
@[simp] theorem setRec_al (s : State) (k : Nat) (r : Rec) : (setRec s k r).al = { s.al with recs := tputD {} s.al.recs k r } := rfl
@[simp] theorem setRec_wk (s : State) (k : Nat) (r : Rec) : (setRec s k r).wk = s.wk := rfl
@[simp] theorem setRec_cf (s : State) (k : Nat) (r : Rec) : (setRec s k r).cf = s.cf := rfl
@[simp] theorem setRec_en (s : State) (k : Nat) (r : Rec) : (setRec s k r).en = s.en := rfl
@[simp] theorem setRec_jb (s : State) (k : Nat) (r : Rec) : (setRec s k r).jb = s.jb := rfl
@[simp] theorem setRec_tm (s : State) (k : Nat) (r : Rec) : (setRec s k r).tm = s.tm := rfl
@[simp] theorem setRec_sr (s : State) (k : Nat) (r : Rec) : (setRec s k r).sr = s.sr := rfl
@[simp] theorem setRec_fw (s : State) (k : Nat) (r : Rec) : (setRec s k r).fw = s.fw := rfl
@[simp] theorem setRec_sh (s : State) (k : Nat) (r : Rec) : (setRec s k r).sh = s.sh := rfl
@[simp] theorem setRec_bt (s : State) (k : Nat) (r : Rec) : (setRec s k r).bt = s.bt := rfl
@[simp] theorem setRec_net (s : State) (k : Nat) (r : Rec) : (setRec s k r).net = s.net := rfl
@[simp] theorem setRec_inp (s : State) (k : Nat) (r : Rec) : (setRec s k r).inp = s.inp := rfl
@[simp] theorem setRec_nd (s : State) (k : Nat) (r : Rec) : (setRec s k r).nd = s.nd := rfl

/-! ### setCtx -/

@[simp] theorem setCtx_clk (s : State) (k : Nat) (c : Ctx) : (setCtx s k c).clk = s.clk := rfl
@[simp] theorem setCtx_gm (s : State) (k : Nat) (c : Ctx) : (setCtx s k c).gm = s.gm := rfl
@[simp] theorem setCtx_ls (s : State) (k : Nat) (c : Ctx) : (setCtx s k c).ls = s.ls := rfl
@[simp] theorem setCtx_al (s : State) (k : Nat) (c : Ctx) : (setCtx s k c).al = s.al := rfl
@[simp] theorem setCtx_wk (s : State) (k : Nat) (c : Ctx) : (setCtx s k c).wk = s.wk := rfl
@[simp] theorem setCtx_cf (s : State) (k : Nat) (c : Ctx) : (setCtx s k c).cf = s.cf := rfl
@[simp] theorem setCtx_en (s : State) (k : Nat) (c : Ctx) : (setCtx s k c).en = { s.en with ctxs := tputD {} s.en.ctxs k c } := rfl
@[simp] theorem setCtx_jb (s : State) (k : Nat) (c : Ctx) : (setCtx s k c).jb = s.jb := rfl
@[simp] theorem setCtx_tm (s : State) (k : Nat) (c : Ctx) : (setCtx s k c).tm = s.tm := rfl
@[simp] theorem setCtx_sr (s : State) (k : Nat) (c : Ctx) : (setCtx s k c).sr = s.sr := rfl
@[simp] theorem setCtx_fw (s : State) (k : Nat) (c : Ctx) : (setCtx s k c).fw = s.fw := rfl
@[simp] theorem setCtx_sh (s : State) (k : Nat) (c : Ctx) : (setCtx s k c).sh = s.sh := rfl
@[simp] theorem setCtx_bt (s : State) (k : Nat) (c : Ctx) : (setCtx s k c).bt = s.bt := rfl
@[simp] theorem setCtx_net (s : State) (k : Nat) (c : Ctx) : (setCtx s k c).net = s.net := rfl
@[simp] theorem setCtx_inp (s : State) (k : Nat) (c : Ctx) : (setCtx s k c).inp = s.inp := rfl
@[simp] theorem setCtx_nd (s : State) (k : Nat) (c : Ctx) : (setCtx s k c).nd = s.nd := rfl

/-! ### modFut -/

@[simp] theorem modFut_clk (s : State) (k : Nat) (f : Fut → Fut) : (modFut s k f).clk = s.clk := rfl
@[simp] theorem modFut_gm (s : State) (k : Nat) (f : Fut → Fut) : (modFut s k f).gm = s.gm := rfl
@[simp] theorem modFut_ls (s : State) (k : Nat) (f : Fut → Fut) : (modFut s k f).ls = s.ls := rfl
@[simp] theorem modFut_al (s : State) (k : Nat) (f : Fut → Fut) : (modFut s k f).al = s.al := rfl
@[simp] theorem modFut_tasks (s : State) (k : Nat) (f : Fut → Fut) : (modFut s k f).wk.tasks = s.wk.tasks := rfl
@[simp] theorem modFut_insts (s : State) (k : Nat) (f : Fut → Fut) : (modFut s k f).wk.insts = s.wk.insts := rfl
@[simp] theorem modFut_toks (s : State) (k : Nat) (f : Fut → Fut) : (modFut s k f).wk.toks = s.wk.toks := rfl
@[simp] theorem modFut_reds (s : State) (k : Nat) (f : Fut → Fut) : (modFut s k f).wk.reds = s.wk.reds := rfl
@[simp] theorem modFut_issue (s : State) (k : Nat) (f : Fut → Fut) : (modFut s k f).wk.issue = s.wk.issue := rfl
@[simp] theorem modFut_waits (s : State) (k : Nat) (f : Fut → Fut) : (modFut s k f).wk.waits = s.wk.waits := rfl
@[simp] theorem modFut_ready (s : State) (k : Nat) (f : Fut → Fut) : (modFut s k f).wk.ready = s.wk.ready := rfl
@[simp] theorem modFut_cells (s : State) (k : Nat) (f : Fut → Fut) : (modFut s k f).wk.cells = s.wk.cells := rfl
@[simp] theorem modFut_pools (s : State) (k : Nat) (f : Fut → Fut) : (modFut s k f).wk.pools = s.wk.pools := rfl
@[simp] theorem modFut_cooling (s : State) (k : Nat) (f : Fut → Fut) : (modFut s k f).wk.cooling = s.wk.cooling := rfl
@[simp] theorem modFut_futs (s : State) (k : Nat) (f : Fut → Fut) : (modFut s k f).wk.futs = tmod s.wk.futs k f := rfl
@[simp] theorem modFut_births (s : State) (k : Nat) (f : Fut → Fut) : (modFut s k f).wk.births = s.wk.births := rfl
@[simp] theorem modFut_remotes (s : State) (k : Nat) (f : Fut → Fut) : (modFut s k f).wk.remotes = s.wk.remotes := rfl
@[simp] theorem modFut_rels (s : State) (k : Nat) (f : Fut → Fut) : (modFut s k f).wk.rels = s.wk.rels := rfl
@[simp] theorem modFut_line (s : State) (k : Nat) (f : Fut → Fut) : (modFut s k f).wk.line = s.wk.line := rfl
@[simp] theorem modFut_order (s : State) (k : Nat) (f : Fut → Fut) : (modFut s k f).wk.order = s.wk.order := rfl
@[simp] theorem modFut_pubs (s : State) (k : Nat) (f : Fut → Fut) : (modFut s k f).wk.pubs = s.wk.pubs := rfl
@[simp] theorem modFut_cf (s : State) (k : Nat) (f : Fut → Fut) : (modFut s k f).cf = s.cf := rfl
@[simp] theorem modFut_en (s : State) (k : Nat) (f : Fut → Fut) : (modFut s k f).en = s.en := rfl
@[simp] theorem modFut_jb (s : State) (k : Nat) (f : Fut → Fut) : (modFut s k f).jb = s.jb := rfl
@[simp] theorem modFut_tm (s : State) (k : Nat) (f : Fut → Fut) : (modFut s k f).tm = s.tm := rfl
@[simp] theorem modFut_sr (s : State) (k : Nat) (f : Fut → Fut) : (modFut s k f).sr = s.sr := rfl
@[simp] theorem modFut_fw (s : State) (k : Nat) (f : Fut → Fut) : (modFut s k f).fw = s.fw := rfl
@[simp] theorem modFut_sh (s : State) (k : Nat) (f : Fut → Fut) : (modFut s k f).sh = s.sh := rfl
@[simp] theorem modFut_bt (s : State) (k : Nat) (f : Fut → Fut) : (modFut s k f).bt = s.bt := rfl
@[simp] theorem modFut_net (s : State) (k : Nat) (f : Fut → Fut) : (modFut s k f).net = s.net := rfl
@[simp] theorem modFut_inp (s : State) (k : Nat) (f : Fut → Fut) : (modFut s k f).inp = s.inp := rfl
@[simp] theorem modFut_nd (s : State) (k : Nat) (f : Fut → Fut) : (modFut s k f).nd = s.nd := rfl

/-! ### notePub -/

@[simp] theorem notePub_clk (s : State) (x : TrackUnit) (pane : Nat) : (notePub s x pane).clk = s.clk := rfl
@[simp] theorem notePub_gm (s : State) (x : TrackUnit) (pane : Nat) : (notePub s x pane).gm = s.gm := rfl
@[simp] theorem notePub_ls (s : State) (x : TrackUnit) (pane : Nat) : (notePub s x pane).ls = s.ls := rfl
@[simp] theorem notePub_al (s : State) (x : TrackUnit) (pane : Nat) : (notePub s x pane).al = s.al := rfl
@[simp] theorem notePub_tasks (s : State) (x : TrackUnit) (pane : Nat) : (notePub s x pane).wk.tasks = s.wk.tasks := rfl
@[simp] theorem notePub_insts (s : State) (x : TrackUnit) (pane : Nat) : (notePub s x pane).wk.insts = s.wk.insts := rfl
@[simp] theorem notePub_toks (s : State) (x : TrackUnit) (pane : Nat) : (notePub s x pane).wk.toks = s.wk.toks := rfl
@[simp] theorem notePub_reds (s : State) (x : TrackUnit) (pane : Nat) : (notePub s x pane).wk.reds = s.wk.reds := rfl
@[simp] theorem notePub_issue (s : State) (x : TrackUnit) (pane : Nat) : (notePub s x pane).wk.issue = s.wk.issue := rfl
@[simp] theorem notePub_waits (s : State) (x : TrackUnit) (pane : Nat) : (notePub s x pane).wk.waits = s.wk.waits := rfl
@[simp] theorem notePub_ready (s : State) (x : TrackUnit) (pane : Nat) : (notePub s x pane).wk.ready = s.wk.ready := rfl
@[simp] theorem notePub_cells (s : State) (x : TrackUnit) (pane : Nat) : (notePub s x pane).wk.cells = s.wk.cells := rfl
@[simp] theorem notePub_pools (s : State) (x : TrackUnit) (pane : Nat) : (notePub s x pane).wk.pools = s.wk.pools := rfl
@[simp] theorem notePub_cooling (s : State) (x : TrackUnit) (pane : Nat) : (notePub s x pane).wk.cooling = s.wk.cooling := rfl
@[simp] theorem notePub_futs (s : State) (x : TrackUnit) (pane : Nat) : (notePub s x pane).wk.futs = s.wk.futs := rfl
@[simp] theorem notePub_births (s : State) (x : TrackUnit) (pane : Nat) : (notePub s x pane).wk.births = s.wk.births := rfl
@[simp] theorem notePub_remotes (s : State) (x : TrackUnit) (pane : Nat) : (notePub s x pane).wk.remotes = s.wk.remotes := rfl
@[simp] theorem notePub_rels (s : State) (x : TrackUnit) (pane : Nat) : (notePub s x pane).wk.rels = s.wk.rels := rfl
@[simp] theorem notePub_line (s : State) (x : TrackUnit) (pane : Nat) : (notePub s x pane).wk.line = s.wk.line := rfl
@[simp] theorem notePub_order (s : State) (x : TrackUnit) (pane : Nat) : (notePub s x pane).wk.order = s.wk.order := rfl
@[simp] theorem notePub_pubs (s : State) (x : TrackUnit) (pane : Nat) : (notePub s x pane).wk.pubs = tput s.wk.pubs x.key pane := rfl
@[simp] theorem notePub_cf (s : State) (x : TrackUnit) (pane : Nat) : (notePub s x pane).cf = s.cf := rfl
@[simp] theorem notePub_en (s : State) (x : TrackUnit) (pane : Nat) : (notePub s x pane).en = s.en := rfl
@[simp] theorem notePub_jb (s : State) (x : TrackUnit) (pane : Nat) : (notePub s x pane).jb = s.jb := rfl
@[simp] theorem notePub_tm (s : State) (x : TrackUnit) (pane : Nat) : (notePub s x pane).tm = s.tm := rfl
@[simp] theorem notePub_sr (s : State) (x : TrackUnit) (pane : Nat) : (notePub s x pane).sr = s.sr := rfl
@[simp] theorem notePub_fw (s : State) (x : TrackUnit) (pane : Nat) : (notePub s x pane).fw = s.fw := rfl
@[simp] theorem notePub_sh (s : State) (x : TrackUnit) (pane : Nat) : (notePub s x pane).sh = s.sh := rfl
@[simp] theorem notePub_bt (s : State) (x : TrackUnit) (pane : Nat) : (notePub s x pane).bt = s.bt := rfl
@[simp] theorem notePub_net (s : State) (x : TrackUnit) (pane : Nat) : (notePub s x pane).net = s.net := rfl
@[simp] theorem notePub_inp (s : State) (x : TrackUnit) (pane : Nat) : (notePub s x pane).inp = s.inp := rfl
@[simp] theorem notePub_nd (s : State) (x : TrackUnit) (pane : Nat) : (notePub s x pane).nd = s.nd := rfl

/-! ### bumpSeq -/

@[simp] theorem bumpSeq_clk (s : State) (tid : Nat) : (bumpSeq s tid).clk = s.clk := rfl
@[simp] theorem bumpSeq_gm (s : State) (tid : Nat) : (bumpSeq s tid).gm = s.gm := rfl
@[simp] theorem bumpSeq_ls (s : State) (tid : Nat) : (bumpSeq s tid).ls = s.ls := rfl
@[simp] theorem bumpSeq_al (s : State) (tid : Nat) : (bumpSeq s tid).al = s.al := rfl
@[simp] theorem bumpSeq_tasks (s : State) (tid : Nat) : (bumpSeq s tid).wk.tasks = tmod s.wk.tasks tid fun t => { t with seq := t.seq + 1 } := rfl
@[simp] theorem bumpSeq_insts (s : State) (tid : Nat) : (bumpSeq s tid).wk.insts = s.wk.insts := rfl
@[simp] theorem bumpSeq_toks (s : State) (tid : Nat) : (bumpSeq s tid).wk.toks = s.wk.toks := rfl
@[simp] theorem bumpSeq_reds (s : State) (tid : Nat) : (bumpSeq s tid).wk.reds = s.wk.reds := rfl
@[simp] theorem bumpSeq_issue (s : State) (tid : Nat) : (bumpSeq s tid).wk.issue = s.wk.issue := rfl
@[simp] theorem bumpSeq_waits (s : State) (tid : Nat) : (bumpSeq s tid).wk.waits = s.wk.waits := rfl
@[simp] theorem bumpSeq_ready (s : State) (tid : Nat) : (bumpSeq s tid).wk.ready = s.wk.ready := rfl
@[simp] theorem bumpSeq_cells (s : State) (tid : Nat) : (bumpSeq s tid).wk.cells = s.wk.cells := rfl
@[simp] theorem bumpSeq_pools (s : State) (tid : Nat) : (bumpSeq s tid).wk.pools = s.wk.pools := rfl
@[simp] theorem bumpSeq_cooling (s : State) (tid : Nat) : (bumpSeq s tid).wk.cooling = s.wk.cooling := rfl
@[simp] theorem bumpSeq_futs (s : State) (tid : Nat) : (bumpSeq s tid).wk.futs = s.wk.futs := rfl
@[simp] theorem bumpSeq_births (s : State) (tid : Nat) : (bumpSeq s tid).wk.births = s.wk.births := rfl
@[simp] theorem bumpSeq_remotes (s : State) (tid : Nat) : (bumpSeq s tid).wk.remotes = s.wk.remotes := rfl
@[simp] theorem bumpSeq_line (s : State) (tid : Nat) : (bumpSeq s tid).wk.line = s.wk.line := rfl
@[simp] theorem bumpSeq_order (s : State) (tid : Nat) : (bumpSeq s tid).wk.order = s.wk.order := rfl
@[simp] theorem bumpSeq_pubs (s : State) (tid : Nat) : (bumpSeq s tid).wk.pubs = s.wk.pubs := rfl
@[simp] theorem bumpSeq_rels (s : State) (tid : Nat) : (bumpSeq s tid).wk.rels = s.wk.rels := rfl
@[simp] theorem bumpSeq_cf (s : State) (tid : Nat) : (bumpSeq s tid).cf = s.cf := rfl
@[simp] theorem bumpSeq_en (s : State) (tid : Nat) : (bumpSeq s tid).en = s.en := rfl
@[simp] theorem bumpSeq_jb (s : State) (tid : Nat) : (bumpSeq s tid).jb = s.jb := rfl
@[simp] theorem bumpSeq_tm (s : State) (tid : Nat) : (bumpSeq s tid).tm = s.tm := rfl
@[simp] theorem bumpSeq_sr (s : State) (tid : Nat) : (bumpSeq s tid).sr = s.sr := rfl
@[simp] theorem bumpSeq_fw (s : State) (tid : Nat) : (bumpSeq s tid).fw = s.fw := rfl
@[simp] theorem bumpSeq_sh (s : State) (tid : Nat) : (bumpSeq s tid).sh = s.sh := rfl
@[simp] theorem bumpSeq_bt (s : State) (tid : Nat) : (bumpSeq s tid).bt = s.bt := rfl
@[simp] theorem bumpSeq_net (s : State) (tid : Nat) : (bumpSeq s tid).net = s.net := rfl
@[simp] theorem bumpSeq_inp (s : State) (tid : Nat) : (bumpSeq s tid).inp = s.inp := rfl
@[simp] theorem bumpSeq_nd (s : State) (tid : Nat) : (bumpSeq s tid).nd = s.nd := rfl

/-! ### setRemote -/

@[simp] theorem setRemote_clk (s : State) (x : Remote) : (setRemote s x).clk = s.clk := rfl
@[simp] theorem setRemote_gm (s : State) (x : Remote) : (setRemote s x).gm = s.gm := rfl
@[simp] theorem setRemote_ls (s : State) (x : Remote) : (setRemote s x).ls = s.ls := rfl
@[simp] theorem setRemote_al (s : State) (x : Remote) : (setRemote s x).al = s.al := rfl
@[simp] theorem setRemote_tasks (s : State) (x : Remote) : (setRemote s x).wk.tasks = s.wk.tasks := rfl
@[simp] theorem setRemote_insts (s : State) (x : Remote) : (setRemote s x).wk.insts = s.wk.insts := rfl
@[simp] theorem setRemote_toks (s : State) (x : Remote) : (setRemote s x).wk.toks = s.wk.toks := rfl
@[simp] theorem setRemote_reds (s : State) (x : Remote) : (setRemote s x).wk.reds = s.wk.reds := rfl
@[simp] theorem setRemote_issue (s : State) (x : Remote) : (setRemote s x).wk.issue = s.wk.issue := rfl
@[simp] theorem setRemote_waits (s : State) (x : Remote) : (setRemote s x).wk.waits = s.wk.waits := rfl
@[simp] theorem setRemote_ready (s : State) (x : Remote) : (setRemote s x).wk.ready = s.wk.ready := rfl
@[simp] theorem setRemote_cells (s : State) (x : Remote) : (setRemote s x).wk.cells = s.wk.cells := rfl
@[simp] theorem setRemote_pools (s : State) (x : Remote) : (setRemote s x).wk.pools = s.wk.pools := rfl
@[simp] theorem setRemote_cooling (s : State) (x : Remote) : (setRemote s x).wk.cooling = s.wk.cooling := rfl
@[simp] theorem setRemote_futs (s : State) (x : Remote) : (setRemote s x).wk.futs = s.wk.futs := rfl
@[simp] theorem setRemote_births (s : State) (x : Remote) : (setRemote s x).wk.births = s.wk.births := rfl
@[simp] theorem setRemote_remotes (s : State) (x : Remote) : (setRemote s x).wk.remotes = s.wk.remotes.map fun y => if y.num = x.num then x else y := rfl
@[simp] theorem setRemote_line (s : State) (x : Remote) : (setRemote s x).wk.line = s.wk.line := rfl
@[simp] theorem setRemote_order (s : State) (x : Remote) : (setRemote s x).wk.order = s.wk.order := rfl
@[simp] theorem setRemote_pubs (s : State) (x : Remote) : (setRemote s x).wk.pubs = s.wk.pubs := rfl
@[simp] theorem setRemote_rels (s : State) (x : Remote) : (setRemote s x).wk.rels = s.wk.rels := rfl
@[simp] theorem setRemote_cf (s : State) (x : Remote) : (setRemote s x).cf = s.cf := rfl
@[simp] theorem setRemote_en (s : State) (x : Remote) : (setRemote s x).en = s.en := rfl
@[simp] theorem setRemote_jb (s : State) (x : Remote) : (setRemote s x).jb = s.jb := rfl
@[simp] theorem setRemote_tm (s : State) (x : Remote) : (setRemote s x).tm = s.tm := rfl
@[simp] theorem setRemote_sr (s : State) (x : Remote) : (setRemote s x).sr = s.sr := rfl
@[simp] theorem setRemote_fw (s : State) (x : Remote) : (setRemote s x).fw = s.fw := rfl
@[simp] theorem setRemote_sh (s : State) (x : Remote) : (setRemote s x).sh = s.sh := rfl
@[simp] theorem setRemote_bt (s : State) (x : Remote) : (setRemote s x).bt = s.bt := rfl
@[simp] theorem setRemote_net (s : State) (x : Remote) : (setRemote s x).net = s.net := rfl
@[simp] theorem setRemote_inp (s : State) (x : Remote) : (setRemote s x).inp = s.inp := rfl
@[simp] theorem setRemote_nd (s : State) (x : Remote) : (setRemote s x).nd = s.nd := rfl

/-! ### setTick -/

@[simp] theorem setTick_clk (s : State) (n : Nat) (t : Tick) : (setTick s n t).clk = s.clk := rfl
@[simp] theorem setTick_gm (s : State) (n : Nat) (t : Tick) : (setTick s n t).gm = s.gm := rfl
@[simp] theorem setTick_ls (s : State) (n : Nat) (t : Tick) : (setTick s n t).ls = s.ls := rfl
@[simp] theorem setTick_al (s : State) (n : Nat) (t : Tick) : (setTick s n t).al = s.al := rfl
@[simp] theorem setTick_wk (s : State) (n : Nat) (t : Tick) : (setTick s n t).wk = s.wk := rfl
@[simp] theorem setTick_cf (s : State) (n : Nat) (t : Tick) : (setTick s n t).cf = s.cf := rfl
@[simp] theorem setTick_en (s : State) (n : Nat) (t : Tick) : (setTick s n t).en = s.en := rfl
@[simp] theorem setTick_jb (s : State) (n : Nat) (t : Tick) : (setTick s n t).jb = s.jb := rfl
@[simp] theorem setTick_expired (s : State) (n : Nat) (t : Tick) : (setTick s n t).tm.expired = s.tm.expired := rfl
@[simp] theorem setTick_ticks (s : State) (n : Nat) (t : Tick) : (setTick s n t).tm.ticks = tputD {} s.tm.ticks n t := rfl
@[simp] theorem setTick_streams (s : State) (n : Nat) (t : Tick) : (setTick s n t).tm.streams = s.tm.streams := rfl
@[simp] theorem setTick_sr (s : State) (n : Nat) (t : Tick) : (setTick s n t).sr = s.sr := rfl
@[simp] theorem setTick_fw (s : State) (n : Nat) (t : Tick) : (setTick s n t).fw = s.fw := rfl
@[simp] theorem setTick_sh (s : State) (n : Nat) (t : Tick) : (setTick s n t).sh = s.sh := rfl
@[simp] theorem setTick_bt (s : State) (n : Nat) (t : Tick) : (setTick s n t).bt = s.bt := rfl
@[simp] theorem setTick_net (s : State) (n : Nat) (t : Tick) : (setTick s n t).net = s.net := rfl
@[simp] theorem setTick_inp (s : State) (n : Nat) (t : Tick) : (setTick s n t).inp = s.inp := rfl
@[simp] theorem setTick_nd (s : State) (n : Nat) (t : Tick) : (setTick s n t).nd = s.nd := rfl

/-! ### setStream -/

@[simp] theorem setStream_clk (s : State) (k : Nat) (x : Stream) : (setStream s k x).clk = s.clk := rfl
@[simp] theorem setStream_gm (s : State) (k : Nat) (x : Stream) : (setStream s k x).gm = s.gm := rfl
@[simp] theorem setStream_ls (s : State) (k : Nat) (x : Stream) : (setStream s k x).ls = s.ls := rfl
@[simp] theorem setStream_al (s : State) (k : Nat) (x : Stream) : (setStream s k x).al = s.al := rfl
@[simp] theorem setStream_wk (s : State) (k : Nat) (x : Stream) : (setStream s k x).wk = s.wk := rfl
@[simp] theorem setStream_cf (s : State) (k : Nat) (x : Stream) : (setStream s k x).cf = s.cf := rfl
@[simp] theorem setStream_en (s : State) (k : Nat) (x : Stream) : (setStream s k x).en = s.en := rfl
@[simp] theorem setStream_jb (s : State) (k : Nat) (x : Stream) : (setStream s k x).jb = s.jb := rfl
@[simp] theorem setStream_expired (s : State) (k : Nat) (x : Stream) : (setStream s k x).tm.expired = s.tm.expired := rfl
@[simp] theorem setStream_ticks (s : State) (k : Nat) (x : Stream) : (setStream s k x).tm.ticks = s.tm.ticks := rfl
@[simp] theorem setStream_streams (s : State) (k : Nat) (x : Stream) : (setStream s k x).tm.streams = tputD {} s.tm.streams k x := rfl
@[simp] theorem setStream_sr (s : State) (k : Nat) (x : Stream) : (setStream s k x).sr = s.sr := rfl
@[simp] theorem setStream_fw (s : State) (k : Nat) (x : Stream) : (setStream s k x).fw = s.fw := rfl
@[simp] theorem setStream_sh (s : State) (k : Nat) (x : Stream) : (setStream s k x).sh = s.sh := rfl
@[simp] theorem setStream_bt (s : State) (k : Nat) (x : Stream) : (setStream s k x).bt = s.bt := rfl
@[simp] theorem setStream_net (s : State) (k : Nat) (x : Stream) : (setStream s k x).net = s.net := rfl
@[simp] theorem setStream_inp (s : State) (k : Nat) (x : Stream) : (setStream s k x).inp = s.inp := rfl
@[simp] theorem setStream_nd (s : State) (k : Nat) (x : Stream) : (setStream s k x).nd = s.nd := rfl

end Sys2Proof.Machine
end

