-- ==== Sys2Proof/Laws/Copies.lean ====
section
/-! SUPPORT. What the shared operations on the copies of MSTs, on early reads and on the arenas' turns leave as it is. -/

namespace Sys2Proof.Machine

/-- A view that one turn of a fold keeps is kept by the whole fold. -/
theorem foldl_keeps {α β : Type} {f : State → α → State} (p : State → β) (h : ∀ s a, p (f s a) = p s) (l : List α) (s : State) :
    p (l.foldl f s) = p s := by
  induction l generalizing s with
  | nil => rfl
  | cons a t ih => rw [List.foldl_cons, ih, h]

/-! ### A copy reaches a pane: only the buffers and their ranks change -/

@[simp] theorem landCopy_ls (s : State) (p : Nat) (c : McastCopy) : (landCopy s p c).ls = s.ls := rfl
@[simp] theorem landCopy_wk (s : State) (p : Nat) (c : McastCopy) : (landCopy s p c).wk = s.wk := rfl
@[simp] theorem landCopy_net (s : State) (p : Nat) (c : McastCopy) : (landCopy s p c).net = s.net := rfl
@[simp] theorem landCopy_nd (s : State) (p : Nat) (c : McastCopy) : (landCopy s p c).nd = s.nd := rfl
@[simp] theorem landCopy_hbm (s : State) (p : Nat) (c : McastCopy) : (landCopy s p c).gm.hbm = s.gm.hbm := rfl
@[simp] theorem landCopy_lines (s : State) (p : Nat) (c : McastCopy) : (landCopy s p c).gm.lines = s.gm.lines := rfl
@[simp] theorem landCopy_tlb (s : State) (p : Nat) (c : McastCopy) : (landCopy s p c).gm.tlb = s.gm.tlb := rfl
@[simp] theorem landCopy_seen (s : State) (p : Nat) (c : McastCopy) : (landCopy s p c).gm.seen = s.gm.seen := rfl
@[simp] theorem landCopy_early (s : State) (p : Nat) (c : McastCopy) : (landCopy s p c).gm.early = s.gm.early := rfl

/-- A view that the arrival of a copy keeps is kept as a read meets the copies of its bytes. -/
theorem meetCopies_keeps {β : Type} (p : State → β) (h : ∀ s n c, p (landCopy s n c) = p s) (s : State) (m : ReadMsg) :
    p (meetCopies s m) = p s := by
  refine foldl_keeps p (fun a c => ?_) _ s
  show p (if copyLands a m c then _ else a) = p a
  split
  · exact h _ _ _
  · rfl

@[simp] theorem meetCopies_ls (s : State) (m : ReadMsg) : (meetCopies s m).ls = s.ls := meetCopies_keeps State.ls (fun _ _ _ => rfl) s m
@[simp] theorem meetCopies_wk (s : State) (m : ReadMsg) : (meetCopies s m).wk = s.wk := meetCopies_keeps State.wk (fun _ _ _ => rfl) s m
@[simp] theorem meetCopies_net (s : State) (m : ReadMsg) : (meetCopies s m).net = s.net :=
  meetCopies_keeps State.net (fun _ _ _ => rfl) s m
@[simp] theorem meetCopies_hbm (s : State) (m : ReadMsg) : (meetCopies s m).gm.hbm = s.gm.hbm :=
  meetCopies_keeps (fun s => s.gm.hbm) (fun _ _ _ => rfl) s m
@[simp] theorem meetCopies_lines (s : State) (m : ReadMsg) : (meetCopies s m).gm.lines = s.gm.lines :=
  meetCopies_keeps (fun s => s.gm.lines) (fun _ _ _ => rfl) s m
@[simp] theorem meetCopies_seen (s : State) (m : ReadMsg) : (meetCopies s m).gm.seen = s.gm.seen :=
  meetCopies_keeps (fun s => s.gm.seen) (fun _ _ _ => rfl) s m

/-- Where no copy lies in a pane's buffer, a read meets none. -/
theorem meetCopies_none {s : State} {m : ReadMsg} (h : tgetD s.gm.mcast (cellPane s m.f) [] = []) : meetCopies s m = s := by
  simp [meetCopies, h]

/-! ### A task has read copies: its program order counts on, and only `seen` changes of the memory -/

theorem seeCopies_keeps {β : Type} (p : State → β) (h : ∀ s l, p { s with gm := { s.gm with seen := l } } = p s)
    (hb : ∀ s tid, p (bumpSeq s tid) = p s) (s : State) (tid : Nat) (cs : List McastCopy) : p (seeCopies s tid cs) = p s := by
  refine foldl_keeps p (fun a c => ?_) _ s
  show p (if c.tid = tid || seenBy a tid c then a else _) = p a
  split
  · rfl
  · rw [hb]; exact h _ _

@[simp] theorem seeCopies_ls (s : State) (tid : Nat) (cs : List McastCopy) : (seeCopies s tid cs).ls = s.ls :=
  seeCopies_keeps State.ls (fun _ _ => rfl) (fun _ _ => rfl) s tid cs
@[simp] theorem seeCopies_net (s : State) (tid : Nat) (cs : List McastCopy) : (seeCopies s tid cs).net = s.net :=
  seeCopies_keeps State.net (fun _ _ => rfl) (fun _ _ => rfl) s tid cs
@[simp] theorem seeCopies_lines (s : State) (tid : Nat) (cs : List McastCopy) : (seeCopies s tid cs).gm.lines = s.gm.lines :=
  seeCopies_keeps (fun s => s.gm.lines) (fun _ _ => rfl) (fun _ _ => rfl) s tid cs
@[simp] theorem seeCopies_hbm (s : State) (tid : Nat) (cs : List McastCopy) : (seeCopies s tid cs).gm.hbm = s.gm.hbm :=
  seeCopies_keeps (fun s => s.gm.hbm) (fun _ _ => rfl) (fun _ _ => rfl) s tid cs
@[simp] theorem seeCopies_nil (s : State) (tid : Nat) : seeCopies s tid [] = s := rfl

/-! ### Early reads -/

theorem noteEarly_none {s : State} {f : Firing} (h : readsEarly s f = false) (l : Nat ⊕ Nat) (bs : List Byte) (b : Bool) :
    noteEarly s f l bs b = s := by simp [noteEarly, h]

theorem withEarly_none {s : State} (h : s.gm.early = []) (f : Firing) (at_ : Nat → Nat ⊕ Nat) (bs : List Byte) :
    withEarly s f at_ bs = bs := by simp [withEarly, h]

/-! ### The turns of an arena (R233) -/

/-- The attempt of an event: none where nothing waits; at once in its turn; else it stands over. -/
theorem attemptAt_cases (rank : Nat) (s : State) (k : Nat) :
    attemptAt rank s k = s ∨ attemptAt rank s k = grantAttempt (noteTurn s k rank) k ∨
      attemptAt rank s k = setArena s k { arenaAt s k with due := (arenaAt s k).due ++ [rank] } := by
  simp only [attemptAt]
  by_cases hw : (arenaAt s k).waiting.isEmpty = true
  · simp [hw]
  · by_cases ht : inTurn s k rank = true <;> simp [hw, ht]

/-! ### Values that come too late for their register (R24) -/

@[simp] theorem supersede_nil (s : State) (tid : Nat) : supersede s tid [] = s := rfl

theorem supersede_keeps {β : Type} (p : State → β) (h : ∀ s n w, p { s with net := n, fw := w } = p s) (s : State) (tid : Nat)
    (regs : List Nat) : p (supersede s tid regs) = p s := by
  unfold supersede
  split
  · rfl
  · exact h _ _ _

@[simp] theorem supersede_gm (s : State) (tid : Nat) (regs : List Nat) : (supersede s tid regs).gm = s.gm :=
  supersede_keeps State.gm (fun _ _ _ => rfl) s tid regs
@[simp] theorem supersede_ls (s : State) (tid : Nat) (regs : List Nat) : (supersede s tid regs).ls = s.ls :=
  supersede_keeps State.ls (fun _ _ _ => rfl) s tid regs
@[simp] theorem supersede_wk (s : State) (tid : Nat) (regs : List Nat) : (supersede s tid regs).wk = s.wk :=
  supersede_keeps State.wk (fun _ _ _ => rfl) s tid regs
@[simp] theorem supersede_al (s : State) (tid : Nat) (regs : List Nat) : (supersede s tid regs).al = s.al :=
  supersede_keeps State.al (fun _ _ _ => rfl) s tid regs

end Sys2Proof.Machine
end

