-- ==== Sys2Proof/Laws/Dispatch.lean ====
section
/-! SUPPORT. What `exec` is on each constructor: its meaning. -/

namespace Sys2Proof.Machine

@[simp] theorem exec_read (t0 t1 : Tgt) (reg : BitVec 6) (s : State) :
    exec (.read t0 t1 reg) s = execRead t0 t1 reg s := rfl
@[simp] theorem exec_write (wid : BitVec 5) (reg : BitVec 6) (pm : Pm) (s : State) :
    exec (.write wid reg pm) s = execWrite wid reg pm s := rfl
@[simp] theorem exec_mov (g : GF) (s : State) :
    exec (.mov g) s = execMov g s := rfl
@[simp] theorem exec_movi (i : IF) (s : State) :
    exec (.movi i) s = execMovi i s := rfl
@[simp] theorem exec_nul (g : GF) (s : State) :
    exec (.nul g) s = execNul g s := rfl
@[simp] theorem exec_sel (t0 t1 : Tgt) (ta : TA) (s : State) :
    exec (.sel t0 t1 ta) s = execSel t0 t1 ta s := rfl
@[simp] theorem exec_retag (c : CF) (s : State) :
    exec (.retag c) s = execRetag c s := rfl
@[simp] theorem exec_pld (i : IF) (s : State) :
    exec (.pld i) s = execPld i s := rfl
@[simp] theorem exec_tagof (g : GF) (s : State) :
    exec (.tagof g) s = execTagof g s := rfl
@[simp] theorem exec_br (off : BitVec 21) (bk : BranchKind) (pm : Pm) (s : State) :
    exec (.br off bk pm) s = execBr off bk pm s := rfl
@[simp] theorem exec_brr (call : Bool) (pm : Pm) (s : State) :
    exec (.brr call pm) s = execBrr call pm s := rfl
@[simp] theorem exec_exit (pm : Pm) (s : State) :
    exec (.exit pm) s = execExit pm s := rfl
@[simp] theorem exec_trap (imm : BitVec 12) (pm : Pm) (s : State) :
    exec (.trap imm pm) s = execTrap imm pm s := rfl
@[simp] theorem exec_bkpt (imm : BitVec 12) (pm : Pm) (s : State) :
    exec (.bkpt imm pm) s = execBkpt imm pm s := rfl
@[simp] theorem exec_fence (scope : Scope) (lsid : BitVec 5) (pm : Pm) (s : State) :
    exec (.fence scope lsid pm) s = execFence scope lsid pm s := rfl
@[simp] theorem exec_add (g : GF) (sat : Bool) (s : State) :
    exec (.add g sat) s = execAdd g sat s := rfl
@[simp] theorem exec_sub (g : GF) (sat : Bool) (s : State) :
    exec (.sub g sat) s = execSub g sat s := rfl
@[simp] theorem exec_mul (g : GF) (sat : Bool) (s : State) :
    exec (.mul g sat) s = execMul g sat s := rfl
@[simp] theorem exec_mulh (g : GF) (s : State) :
    exec (.mulh g) s = execMulh g s := rfl
@[simp] theorem exec_div (g : GF) (s : State) :
    exec (.div g) s = execDiv g s := rfl
@[simp] theorem exec_rem (g : GF) (s : State) :
    exec (.rem g) s = execRem g s := rfl
@[simp] theorem exec_fma (g : GF) (s : State) :
    exec (.fma g) s = execFma g s := rfl
@[simp] theorem exec_min (g : GF) (s : State) :
    exec (.min g) s = execMin g s := rfl
@[simp] theorem exec_max (g : GF) (s : State) :
    exec (.max g) s = execMax g s := rfl
@[simp] theorem exec_abs (g : GF) (s : State) :
    exec (.abs g) s = execAbs g s := rfl
@[simp] theorem exec_neg (g : GF) (s : State) :
    exec (.neg g) s = execNeg g s := rfl
@[simp] theorem exec_addi (i : IF) (s : State) :
    exec (.addi i) s = execAddi i s := rfl
@[simp] theorem exec_muli (i : IF) (s : State) :
    exec (.muli i) s = execMuli i s := rfl
@[simp] theorem exec_tst (g : GF) (cc : Cmp) (s : State) :
    exec (.tst g cc) s = execTst g cc s := rfl
@[simp] theorem exec_teqi (i : IF) (s : State) :
    exec (.teqi i) s = execTeqi i s := rfl
@[simp] theorem exec_tlti (i : IF) (s : State) :
    exec (.tlti i) s = execTlti i s := rfl
@[simp] theorem exec_and (g : GF) (s : State) :
    exec (.and g) s = execAnd g s := rfl
@[simp] theorem exec_or (g : GF) (s : State) :
    exec (.or g) s = execOr g s := rfl
@[simp] theorem exec_xor (g : GF) (s : State) :
    exec (.xor g) s = execXor g s := rfl
@[simp] theorem exec_not (g : GF) (s : State) :
    exec (.not g) s = execNot g s := rfl
@[simp] theorem exec_andi (i : IF) (s : State) :
    exec (.andi i) s = execAndi i s := rfl
@[simp] theorem exec_ori (i : IF) (s : State) :
    exec (.ori i) s = execOri i s := rfl
@[simp] theorem exec_xori (i : IF) (s : State) :
    exec (.xori i) s = execXori i s := rfl
@[simp] theorem exec_shl (g : GF) (s : State) :
    exec (.shl g) s = execShl g s := rfl
@[simp] theorem exec_shr (g : GF) (s : State) :
    exec (.shr g) s = execShr g s := rfl
@[simp] theorem exec_sar (g : GF) (s : State) :
    exec (.sar g) s = execSar g s := rfl
@[simp] theorem exec_shli (i : IF) (s : State) :
    exec (.shli i) s = execShli i s := rfl
@[simp] theorem exec_shri (i : IF) (s : State) :
    exec (.shri i) s = execShri i s := rfl
@[simp] theorem exec_sari (i : IF) (s : State) :
    exec (.sari i) s = execSari i s := rfl
@[simp] theorem exec_clz (g : GF) (s : State) :
    exec (.clz g) s = execClz g s := rfl
@[simp] theorem exec_popc (g : GF) (s : State) :
    exec (.popc g) s = execPopc g s := rfl
@[simp] theorem exec_bfx (g : GF) (s : State) :
    exec (.bfx g) s = execBfx g s := rfl
@[simp] theorem exec_sqrt (g : GF) (s : State) :
    exec (.sqrt g) s = execSqrt g s := rfl
@[simp] theorem exec_rcp (g : GF) (s : State) :
    exec (.rcp g) s = execRcp g s := rfl
@[simp] theorem exec_rsqrt (g : GF) (s : State) :
    exec (.rsqrt g) s = execRsqrt g s := rfl
@[simp] theorem exec_exp2 (g : GF) (s : State) :
    exec (.exp2 g) s = execExp2 g s := rfl
@[simp] theorem exec_log2 (g : GF) (s : State) :
    exec (.log2 g) s = execLog2 g s := rfl
@[simp] theorem exec_tanh (g : GF) (s : State) :
    exec (.tanh g) s = execTanh g s := rfl
@[simp] theorem exec_cvt (c : CF) (s : State) :
    exec (.cvt c) s = execCvt c s := rfl
@[simp] theorem exec_cvtz (c : CF) (s : State) :
    exec (.cvtz c) s = execCvtz c s := rfl
@[simp] theorem exec_ldexp (g : GF) (s : State) :
    exec (.ldexp g) s = execLdexp g s := rfl
@[simp] theorem exec_fclass (g : GF) (s : State) :
    exec (.fclass g) s = execFclass g s := rfl
@[simp] theorem exec_red (g : GF) (kind : RedKind) (s : State) :
    exec (.red g kind) s = execRed g kind s := rfl
@[simp] theorem exec_ld (m : MF) (s : State) :
    exec (.ld m) s = execLd m s := rfl
@[simp] theorem exec_st (ord : Order) (fmt : Tag) (lsid : BitVec 5) (pm : Pm) (s : State) :
    exec (.st ord fmt lsid pm) s = execSt ord fmt lsid pm s := rfl
@[simp] theorem exec_aadd (m : MF) (s : State) :
    exec (.aadd m) s = execAadd m s := rfl
@[simp] theorem exec_amin (m : MF) (s : State) :
    exec (.amin m) s = execAmin m s := rfl
@[simp] theorem exec_amax (m : MF) (s : State) :
    exec (.amax m) s = execAmax m s := rfl
@[simp] theorem exec_aand (m : MF) (s : State) :
    exec (.aand m) s = execAand m s := rfl
@[simp] theorem exec_aor (m : MF) (s : State) :
    exec (.aor m) s = execAor m s := rfl
@[simp] theorem exec_axor (m : MF) (s : State) :
    exec (.axor m) s = execAxor m s := rfl
@[simp] theorem exec_aswp (m : MF) (s : State) :
    exec (.aswp m) s = execAswp m s := rfl
@[simp] theorem exec_acas (m : MF) (s : State) :
    exec (.acas m) s = execAcas m s := rfl
@[simp] theorem exec_mst (ord : Order) (fmt : Tag) (lsid : BitVec 5) (pm : Pm) (s : State) :
    exec (.mst ord fmt lsid pm) s = execMst ord fmt lsid pm s := rfl
@[simp] theorem exec_pref (lsid : BitVec 5) (pm : Pm) (s : State) :
    exec (.pref lsid pm) s = execPref lsid pm s := rfl
@[simp] theorem exec_lld (t0 : Tgt) (wait : LldWait) (fmt : Tag) (lsid : BitVec 5) (pm : Pm) (s : State) :
    exec (.lld t0 wait fmt lsid pm) s = execLld t0 wait fmt lsid pm s := rfl
@[simp] theorem exec_lst (fmt : Tag) (lsid : BitVec 5) (pm : Pm) (s : State) :
    exec (.lst fmt lsid pm) s = execLst fmt lsid pm s := rfl
@[simp] theorem exec_lamo (t0 : Tgt) (op : AtomOp) (fmt : Tag) (lsid : BitVec 5) (pm : Pm) (s : State) :
    exec (.lamo t0 op fmt lsid pm) s = execLamo t0 op fmt lsid pm s := rfl
@[simp] theorem exec_few (t0 : Tgt) (lsid : BitVec 5) (pm : Pm) (s : State) :
    exec (.few t0 lsid pm) s = execFew t0 lsid pm s := rfl
@[simp] theorem exec_fes (lsid : BitVec 5) (pm : Pm) (s : State) :
    exec (.fes lsid pm) s = execFes lsid pm s := rfl
@[simp] theorem exec_binit (lsid : BitVec 5) (pm : Pm) (s : State) :
    exec (.binit lsid pm) s = execBinit lsid pm s := rfl
@[simp] theorem exec_barr (t0 : Tgt) (lsid : BitVec 5) (pm : Pm) (s : State) :
    exec (.barr t0 lsid pm) s = execBarr t0 lsid pm s := rfl
@[simp] theorem exec_lsz (t0 : Tgt) (lsid : BitVec 5) (pm : Pm) (s : State) :
    exec (.lsz t0 lsid pm) s = execLsz t0 lsid pm s := rfl
@[simp] theorem exec_alloc (g : GF) (arena : BitVec 3) (s : State) :
    exec (.alloc g arena) s = execAlloc g arena s := rfl
@[simp] theorem exec_free (pm : Pm) (s : State) :
    exec (.free pm) s = execFree pm s := rfl
@[simp] theorem exec_rels (pm : Pm) (s : State) :
    exec (.rels pm) s = execRels pm s := rfl
@[simp] theorem exec_cp (t0 : Tgt) (ctx : BitVec 2) (rv : Bool) (ta : TA) (pm : Pm) (s : State) :
    exec (.cp t0 ctx rv ta pm) s = execCp t0 ctx rv ta pm s := rfl
@[simp] theorem exec_cpg (t0 : Tgt) (ctx : BitVec 2) (ta : TA) (pm : Pm) (s : State) :
    exec (.cpg t0 ctx ta pm) s = execCpg t0 ctx ta pm s := rfl
@[simp] theorem exec_cps (t0 : Tgt) (ctx : BitVec 2) (ta : TA) (pm : Pm) (s : State) :
    exec (.cps t0 ctx ta pm) s = execCps t0 ctx ta pm s := rfl
@[simp] theorem exec_pset (t0 : Tgt) (reg : BitVec 3) (ta : TA) (pm : Pm) (s : State) :
    exec (.pset t0 reg ta pm) s = execPset t0 reg ta pm s := rfl
@[simp] theorem exec_cpp (t0 : Tgt) (ctx : BitVec 2) (ta : TA) (pm : Pm) (s : State) :
    exec (.cpp t0 ctx ta pm) s = execCpp t0 ctx ta pm s := rfl
@[simp] theorem exec_twait (g : GF) (ctx : BitVec 2) (s : State) :
    exec (.twait g ctx) s = execTwait g ctx s := rfl
@[simp] theorem exec_tread (g : GF) (ctx : BitVec 2) (s : State) :
    exec (.tread g ctx) s = execTread g ctx s := rfl
@[simp] theorem exec_wload (t0 : Tgt) (k : BitVec 2) (j : BitVec 2) (pm : Pm) (s : State) :
    exec (.wload t0 k j pm) s = execWload t0 k j pm s := rfl
@[simp] theorem exec_wmma (t0 : Tgt) (k : BitVec 2) (j : BitVec 2) (sat : Bool) (pm : Pm) (s : State) :
    exec (.wmma t0 k j sat pm) s = execWmma t0 k j sat pm s := rfl
@[simp] theorem exec_cvtt (t0 : Tgt) (n : BitVec 4) (pm : Pm) (s : State) :
    exec (.cvtt t0 n pm) s = execCvtt t0 n pm s := rfl
@[simp] theorem exec_spawn (g : GF) (place : SpawnPlace) (s : State) :
    exec (.spawn g place) s = execSpawn g place s := rfl
@[simp] theorem exec_ref (pm : Pm) (s : State) :
    exec (.ref pm) s = execRef pm s := rfl
@[simp] theorem exec_drop (pm : Pm) (s : State) :
    exec (.drop pm) s = execDrop pm s := rfl
@[simp] theorem exec_await (g : GF) (s : State) :
    exec (.await g) s = execAwait g s := rfl
@[simp] theorem exec_launch (t0 : Tgt) (ta : TA) (pm : Pm) (s : State) :
    exec (.launch t0 ta pm) s = execLaunch t0 ta pm s := rfl
@[simp] theorem exec_waitc (g : GF) (level : Level) (s : State) :
    exec (.waitc g level) s = execWaitc g level s := rfl
@[simp] theorem exec_cancel (level : Level) (pm : Pm) (s : State) :
    exec (.cancel level pm) s = execCancel level pm s := rfl
@[simp] theorem exec_tnow (g : GF) (s : State) :
    exec (.tnow g) s = execTnow g s := rfl
@[simp] theorem exec_tickw (t0 : Tgt) (ta : TA) (pm : Pm) (s : State) :
    exec (.tickw t0 ta pm) s = execTickw t0 ta pm s := rfl
@[simp] theorem exec_swq (g : GF) (s : State) :
    exec (.swq g) s = execSwq g s := rfl
@[simp] theorem exec_kvgrow (t0 : Tgt) (ta : TA) (pm : Pm) (s : State) :
    exec (.kvgrow t0 ta pm) s = execKvgrow t0 ta pm s := rfl
@[simp] theorem exec_sysrd (i : IF) (s : State) :
    exec (.sysrd i) s = execSysrd i s := rfl
@[simp] theorem exec_syswr (imm : BitVec 12) (pm : Pm) (s : State) :
    exec (.syswr imm pm) s = execSyswr imm pm s := rfl
@[simp] theorem exec_prof (imm : BitVec 12) (pm : Pm) (s : State) :
    exec (.prof imm pm) s = execProf imm pm s := rfl
@[simp] theorem exec_self (g : GF) (s : State) :
    exec (.self g) s = execSelf g s := rfl
@[simp] theorem exec_blockActivate (a : Activation) (s : State) :
    exec (.blockActivate a) s = execBlockActivate a s := rfl
@[simp] theorem exec_tokenArrive (m : TokMsg) (s : State) :
    exec (.tokenArrive m) s = execTokenArrive m s := rfl
@[simp] theorem exec_cellIssue (die pane cell : Nat) (s : State) :
    exec (.cellIssue die pane cell) s = execCellIssue die pane cell s := rfl
@[simp] theorem exec_readyPromote (f : Firing) (s : State) :
    exec (.readyPromote f) s = execReadyPromote f s := rfl
@[simp] theorem exec_blockCommit (tid iter : Nat) (s : State) :
    exec (.blockCommit tid iter) s = execBlockCommit tid iter s := rfl
@[simp] theorem exec_returnValueArrive (m : RetMsg) (s : State) :
    exec (.returnValueArrive m) s = execReturnValueArrive m s := rfl
@[simp] theorem exec_dealChunk (launch : Nat) (s : State) :
    exec (.dealChunk launch) s = execDealChunk launch s := rfl
@[simp] theorem exec_refChangeArrive (m : RefMsg) (s : State) :
    exec (.refChangeArrive m) s = execRefChangeArrive m s := rfl
@[simp] theorem exec_futureExitArrive (m : ExitMsg) (s : State) :
    exec (.futureExitArrive m) s = execFutureExitArrive m s := rfl
@[simp] theorem exec_colourDrainDone (die colour : Nat) (s : State) :
    exec (.colourDrainDone die colour) s = execColourDrainDone die colour s := rfl
@[simp] theorem exec_allocRequestArrive (r : AllocReq) (s : State) :
    exec (.allocRequestArrive r) s = execAllocRequestArrive r s := rfl
@[simp] theorem exec_quietSpill (arena : Nat) (s : State) :
    exec (.quietSpill arena) s = execQuietSpill arena s := rfl
@[simp] theorem exec_spillComplete (arena : Nat) (s : State) :
    exec (.spillComplete arena) s = execSpillComplete arena s := rfl
@[simp] theorem exec_allocationRelease (m : ReleaseMsg) (s : State) :
    exec (.allocationRelease m) s = execAllocationRelease m s := rfl
@[simp] theorem exec_engineCmdStart (ctx : Nat) (s : State) :
    exec (.engineCmdStart ctx) s = execEngineCmdStart ctx s := rfl
@[simp] theorem exec_gatherRow (ctx : Nat) (s : State) :
    exec (.gatherRow ctx) s = execGatherRow ctx s := rfl
@[simp] theorem exec_wloadRun (ctx : Nat) (s : State) :
    exec (.wloadRun ctx) s = execWloadRun ctx s := rfl
@[simp] theorem exec_wmmaRow (ctx : Nat) (s : State) :
    exec (.wmmaRow ctx) s = execWmmaRow ctx s := rfl
@[simp] theorem exec_cvttRow (ctx : Nat) (s : State) :
    exec (.cvttRow ctx) s = execCvttRow ctx s := rfl
@[simp] theorem exec_engineCmdEnd (ctx : Nat) (s : State) :
    exec (.engineCmdEnd ctx) s = execEngineCmdEnd ctx s := rfl
@[simp] theorem exec_granuleWake (f : Firing) (s : State) :
    exec (.granuleWake f) s = execGranuleWake f s := rfl
@[simp] theorem exec_awaitWake (f : Firing) (s : State) :
    exec (.awaitWake f) s = execAwaitWake f s := rfl
@[simp] theorem exec_twaitWake (f : Firing) (s : State) :
    exec (.twaitWake f) s = execTwaitWake f s := rfl
@[simp] theorem exec_waitcWake (f : Firing) (s : State) :
    exec (.waitcWake f) s = execWaitcWake f s := rfl
@[simp] theorem exec_launchComplete (launch : Nat) (s : State) :
    exec (.launchComplete launch) s = execLaunchComplete launch s := rfl
@[simp] theorem exec_levelComplete (level : Level) (key : Nat) (s : State) :
    exec (.levelComplete level key) s = execLevelComplete level key s := rfl
@[simp] theorem exec_phaseBegin (job : Nat) (s : State) :
    exec (.phaseBegin job) s = execPhaseBegin job s := rfl
@[simp] theorem exec_hostInboxWrite (vi slot : Nat) (v : BitVec 512) (s : State) :
    exec (.hostInboxWrite vi slot v) s = execHostInboxWrite vi slot v s := rfl
@[simp] theorem exec_inboxLoad (vi : Nat) (s : State) :
    exec (.inboxLoad vi) s = execInboxLoad vi s := rfl
@[simp] theorem exec_inboxSeal (vi : Nat) (s : State) :
    exec (.inboxSeal vi) s = execInboxSeal vi s := rfl
@[simp] theorem exec_inboxPhase (vi : Nat) (s : State) :
    exec (.inboxPhase vi) s = execInboxPhase vi s := rfl
@[simp] theorem exec_inboxLaunch (vi : Nat) (s : State) :
    exec (.inboxLaunch vi) s = execInboxLaunch vi s := rfl
@[simp] theorem exec_inboxCancel (vi : Nat) (s : State) :
    exec (.inboxCancel vi) s = execInboxCancel vi s := rfl
@[simp] theorem exec_inboxEnd (vi : Nat) (s : State) :
    exec (.inboxEnd vi) s = execInboxEnd vi s := rfl
@[simp] theorem exec_shutterRaise (graph : Nat) (s : State) :
    exec (.shutterRaise graph) s = execShutterRaise graph s := rfl
@[simp] theorem exec_shutterMarkerArrive (graph cell : Nat) (s : State) :
    exec (.shutterMarkerArrive graph cell) s = execShutterMarkerArrive graph cell s := rfl
@[simp] theorem exec_cutComplete (graph : Nat) (s : State) :
    exec (.cutComplete graph) s = execCutComplete graph s := rfl
@[simp] theorem exec_savePagesWrite (graph : Nat) (s : State) :
    exec (.savePagesWrite graph) s = execSavePagesWrite graph s := rfl
@[simp] theorem exec_contextResume (graph : Nat) (s : State) :
    exec (.contextResume graph) s = execContextResume graph s := rfl
@[simp] theorem exec_fwTaskResume (tid : Nat) (s : State) :
    exec (.fwTaskResume tid) s = execFwTaskResume tid s := rfl
@[simp] theorem exec_fwTaskReclaim (tid : Nat) (s : State) :
    exec (.fwTaskReclaim tid) s = execFwTaskReclaim tid s := rfl
@[simp] theorem exec_parityError (f : Firing) (port : Port) (s : State) :
    exec (.parityError f port) s = execParityError f port s := rfl
@[simp] theorem exec_pageFaultAnswer (die vi va : Nat) (entry : Option (BitVec 64)) (s : State) :
    exec (.pageFaultAnswer die vi va entry) s = execPageFaultAnswer die vi va entry s := rfl
@[simp] theorem exec_pageWalk (m : WalkMsg) (s : State) :
    exec (.pageWalk m) s = execPageWalk m s := rfl
@[simp] theorem exec_tlbInvalidate (die vi lo hi : Nat) (s : State) :
    exec (.tlbInvalidate die vi lo hi) s = execTlbInvalidate die vi lo hi s := rfl
@[simp] theorem exec_invalidateComplete (id : Nat) (s : State) :
    exec (.invalidateComplete id) s = execInvalidateComplete id s := rfl
@[simp] theorem exec_bindRecordWrite (die index : Nat) (v : BitVec 64) (s : State) :
    exec (.bindRecordWrite die index v) s = execBindRecordWrite die index v s := rfl
@[simp] theorem exec_bindHeldApply (die index : Nat) (s : State) :
    exec (.bindHeldApply die index) s = execBindHeldApply die index s := rfl
@[simp] theorem exec_homeLineFill (line : Nat) (s : State) :
    exec (.homeLineFill line) s = execHomeLineFill line s := rfl
@[simp] theorem exec_globalWritePerform (m : WriteMsg) (s : State) :
    exec (.globalWritePerform m) s = execGlobalWritePerform m s := rfl
@[simp] theorem exec_homeRead (m : ReadMsg) (s : State) :
    exec (.homeRead m) s = execHomeRead m s := rfl
@[simp] theorem exec_atomicPerform (m : AtomMsg) (s : State) :
    exec (.atomicPerform m) s = execAtomicPerform m s := rfl
@[simp] theorem exec_scrubRow (pane : Nat) (s : State) :
    exec (.scrubRow pane) s = execScrubRow pane s := rfl
@[simp] theorem exec_eccWriteback (pane row : Nat) (s : State) :
    exec (.eccWriteback pane row) s = execEccWriteback pane row s := rfl
@[simp] theorem exec_ptpMessage (m : PtpMsg) (s : State) :
    exec (.ptpMessage m) s = execPtpMessage m s := rfl
@[simp] theorem exec_tick (source : Nat) (s : State) :
    exec (.tick source) s = execTick source s := rfl
@[simp] theorem exec_graceExpiry (source : Nat) (s : State) :
    exec (.graceExpiry source) s = execGraceExpiry source s := rfl
@[simp] theorem exec_tickDeferredLaunch (source : Nat) (s : State) :
    exec (.tickDeferredLaunch source) s = execTickDeferredLaunch source s := rfl
@[simp] theorem exec_ingestPacket (p : Packet) (s : State) :
    exec (.ingestPacket p) s = execIngestPacket p s := rfl
@[simp] theorem exec_tickSetWrite (w : TickSet) (s : State) :
    exec (.tickSetWrite w) s = execTickSetWrite w s := rfl
@[simp] theorem exec_streamSetWrite (w : SysW) (s : State) :
    exec (.streamSetWrite w) s = execStreamSetWrite w s := rfl
@[simp] theorem exec_viCtlWrite (w : SysW) (s : State) :
    exec (.viCtlWrite w) s = execViCtlWrite w s := rfl
@[simp] theorem exec_badnodeWrite (w : SysW) (s : State) :
    exec (.badnodeWrite w) s = execBadnodeWrite w s := rfl
@[simp] theorem exec_perfCntClearRead (pane c : Nat) (s : State) :
    exec (.perfCntClearRead pane c) s = execPerfCntClearRead pane c s := rfl
@[simp] theorem exec_triggerWrite (w : SysW) (s : State) :
    exec (.triggerWrite w) s = execTriggerWrite w s := rfl
@[simp] theorem exec_ovpWrite (w : SysW) (s : State) :
    exec (.ovpWrite w) s = execOvpWrite w s := rfl
@[simp] theorem exec_sysregWrite (w : SysW) (s : State) :
    exec (.sysregWrite w) s = execSysregWrite w s := rfl
@[simp] theorem exec_latchPropagate (die : Nat) (s : State) :
    exec (.latchPropagate die) s = execLatchPropagate die s := rfl
@[simp] theorem exec_mailboxAnswer (pane : Nat) (page : Option Nat) (s : State) :
    exec (.mailboxAnswer pane page) s = execMailboxAnswer pane page s := rfl
@[simp] theorem exec_grantCacheRefill (pane page : Nat) (s : State) :
    exec (.grantCacheRefill pane page) s = execGrantCacheRefill pane page s := rfl
@[simp] theorem exec_remoteMemoryRead (r : RemoteRead) (s : State) :
    exec (.remoteMemoryRead r) s = execRemoteMemoryRead r s := rfl
@[simp] theorem exec_remoteMemoryWrite (w : RemoteWrite) (s : State) :
    exec (.remoteMemoryWrite w) s = execRemoteMemoryWrite w s := rfl
@[simp] theorem exec_remoteAmo (r : RemoteAmo) (s : State) :
    exec (.remoteAmo r) s = execRemoteAmo r s := rfl
@[simp] theorem exec_remoteMst (w : RemoteWrite) (graph : Nat) (s : State) :
    exec (.remoteMst w graph) s = execRemoteMst w graph s := rfl
@[simp] theorem exec_remoteSpawn (r : RemoteSpawn) (s : State) :
    exec (.remoteSpawn r) s = execRemoteSpawn r s := rfl
@[simp] theorem exec_remoteCount (c : RemoteCount) (s : State) :
    exec (.remoteCount c) s = execRemoteCount c s := rfl
@[simp] theorem exec_viConfigure (c : ViConf) (s : State) :
    exec (.viConfigure c) s = execViConfigure c s := rfl
@[simp] theorem exec_viUnconfigure (vi : Nat) (s : State) :
    exec (.viUnconfigure vi) s = execViUnconfigure vi s := rfl
@[simp] theorem exec_reset (outs : List BootOut) (s : State) :
    exec (.reset outs) s = execReset outs s := rfl
@[simp] theorem exec_startLogRead (s : State) :
    exec .startLogRead s = execStartLogRead s := rfl
@[simp] theorem exec_lifecycleMove (dest : Lifecycle) (signed : Bool) (s : State) :
    exec (.lifecycleMove dest signed) s = execLifecycleMove dest signed s := rfl
@[simp] theorem exec_attestationRequest (nonce : BitVec 256) (s : State) :
    exec (.attestationRequest nonce) s = execAttestationRequest nonce s := rfl
@[simp] theorem exec_powerThrottle (die : Nat) (s : State) :
    exec (.powerThrottle die) s = execPowerThrottle die s := rfl
@[simp] theorem exec_clockRestore (die : Nat) (s : State) :
    exec (.clockRestore die) s = execClockRestore die s := rfl
@[simp] theorem exec_thermalThrottle (die : Nat) (s : State) :
    exec (.thermalThrottle die) s = execThermalThrottle die s := rfl
@[simp] theorem exec_thermalStop (die : Nat) (s : State) :
    exec (.thermalStop die) s = execThermalStop die s := rfl
@[simp] theorem exec_ptpMasterLoss (s : State) :
    exec .ptpMasterLoss s = execPtpMasterLoss s := rfl

end Sys2Proof.Machine
end

