-- ==== Sys2Proof/Laws/Table.lean ====
section
/-! SUPPORT. What the finite maps do: read after write, and the canonical form (keys strictly rising, no entry that an
unlisted key reads as), which every operation keeps. -/

namespace Sys2Proof.Machine

variable {α : Type}

/-! ### Read after write -/

@[simp] theorem tget_tput_same (t : Table α) (k : Nat) (v : α) : tget (tput t k v) k = some v := by
  induction t with
  | nil => simp [tput, tget]
  | cons e t ih =>
    obtain ⟨k', w⟩ := e
    simp only [tput]
    split
    · simp [tget]
    · split
      · simp [tget]
      · simp [tget, *]

theorem tget_tput_other (t : Table α) (k k' : Nat) (v : α) (h : k' ≠ k) : tget (tput t k v) k' = tget t k' := by
  induction t with
  | nil =>
    simp only [tput, tget, h, if_false]
    split <;> rfl
  | cons e t ih =>
    obtain ⟨j, w⟩ := e
    simp only [tput]
    split
    · simp only [tget, h, if_false]
      split
      · rw [if_neg (by omega), if_pos (by omega)]
      · rfl
    · split
      · subst_vars
        simp [tget, h]
      · simp only [tget, ih]

@[simp] theorem tget_tmod_same (t : Table α) (k : Nat) (f : α → α) : tget (tmod t k f) k = (tget t k).map f := by
  cases h : tget t k <;> simp [tmod, h]

theorem tget_tmod_other (t : Table α) (k k' : Nat) (f : α → α) (h : k' ≠ k) : tget (tmod t k f) k' = tget t k' := by
  cases hk : tget t k with
  | none => simp [tmod, hk]
  | some v => simp [tmod, hk, tget_tput_other _ _ _ _ h]

/-! ### Keys strictly rising -/

/-- Below the bound nothing is listed. -/
theorem tget_below {t : Table α} {b k : Nat} (h : tsorted (some b) t = true) (hk : k ≤ b) : tget t k = none := by
  cases t with
  | nil => rfl
  | cons e t =>
    obtain ⟨j, w⟩ := e
    simp only [tsorted, Bool.and_eq_true, decide_eq_true_eq] at h
    simp only [tget]
    rw [if_neg (by omega), if_pos (by omega)]

theorem tsorted_weaken {t : Table α} {a b : Nat} (hab : a ≤ b) (h : tsorted (some b) t = true) :
    tsorted (some a) t = true := by
  cases t with
  | nil => rfl
  | cons e t =>
    obtain ⟨j, w⟩ := e
    simp only [tsorted, Bool.and_eq_true, decide_eq_true_eq] at h ⊢
    exact ⟨by omega, h.2⟩

theorem tsorted_none {t : Table α} {a : Nat} (h : tsorted (some a) t = true) : tsorted none t = true := by
  cases t with
  | nil => rfl
  | cons e t =>
    obtain ⟨j, w⟩ := e
    simp only [tsorted, Bool.and_eq_true, decide_eq_true_eq] at h ⊢
    exact h.2

theorem tput_sorted_above (t : Table α) (b k : Nat) (v : α) (hb : b < k) (h : tsorted (some b) t = true) :
    tsorted (some b) (tput t k v) = true := by
  induction t generalizing b with
  | nil => simp [tput, tsorted, hb]
  | cons e t ih =>
    obtain ⟨j, w⟩ := e
    simp only [tsorted, Bool.and_eq_true, decide_eq_true_eq] at h
    simp only [tput]
    split
    · simp [tsorted, *]
    · split
      · subst_vars
        simp [tsorted, h.2, hb]
      · simp only [tsorted, Bool.and_eq_true, decide_eq_true_eq]
        exact ⟨h.1, ih j (by omega) h.2⟩

theorem tput_sorted (t : Table α) (k : Nat) (v : α) (h : tsorted none t = true) : tsorted none (tput t k v) = true := by
  cases t with
  | nil => rfl
  | cons e t =>
    obtain ⟨j, w⟩ := e
    simp only [tsorted] at h
    simp only [tput]
    split
    · simp [tsorted, *]
    · split
      · subst_vars
        simpa [tsorted] using h
      · simpa [tsorted] using tput_sorted_above t j k v (by omega) h

theorem tdel_sorted_above (t : Table α) (b k : Nat) (h : tsorted (some b) t = true) :
    tsorted (some b) (tdel t k) = true := by
  induction t generalizing b with
  | nil => rfl
  | cons e t ih =>
    obtain ⟨j, w⟩ := e
    have h' := h
    simp only [tsorted, Bool.and_eq_true, decide_eq_true_eq] at h'
    simp only [tdel]
    split
    · exact h
    · split
      · exact tsorted_weaken (by omega) h'.2
      · simp only [tsorted, Bool.and_eq_true, decide_eq_true_eq]
        exact ⟨h'.1, ih j h'.2⟩

theorem tdel_sorted (t : Table α) (k : Nat) (h : tsorted none t = true) : tsorted none (tdel t k) = true := by
  cases t with
  | nil => rfl
  | cons e t =>
    obtain ⟨j, w⟩ := e
    simp only [tdel]
    split
    · exact h
    · simp only [tsorted] at h
      split
      · exact tsorted_none h
      · simpa [tsorted] using tdel_sorted_above t j k h

theorem tget_tdel_above (t : Table α) (b k : Nat) (h : tsorted (some b) t = true) : tget (tdel t k) k = none := by
  induction t generalizing b with
  | nil => rfl
  | cons e t ih =>
    obtain ⟨j, w⟩ := e
    simp only [tsorted, Bool.and_eq_true, decide_eq_true_eq] at h
    simp only [tdel]
    split
    · simp only [tget]
      rw [if_neg (by omega), if_pos (by omega)]
    · split
      · subst_vars
        exact tget_below h.2 (le_refl _)
      · simp only [tget]
        rw [if_neg (by omega), if_neg (by omega)]
        exact ih j h.2

theorem tget_tdel_same (t : Table α) (k : Nat) (h : tsorted none t = true) : tget (tdel t k) k = none := by
  cases t with
  | nil => rfl
  | cons e t =>
    obtain ⟨j, w⟩ := e
    simp only [tsorted] at h
    simp only [tdel]
    split
    · simp only [tget]
      rw [if_neg (by omega), if_pos (by omega)]
    · split
      · subst_vars
        exact tget_below h (le_refl _)
      · simp only [tget]
        rw [if_neg (by omega), if_neg (by omega)]
        exact tget_tdel_above t j k h

theorem tget_tdel_other (t : Table α) (k k' : Nat) (hk : k' ≠ k) (h : tsorted none t = true) :
    tget (tdel t k) k' = tget t k' := by
  induction t with
  | nil => rfl
  | cons e t ih =>
    obtain ⟨j, w⟩ := e
    simp only [tsorted] at h
    simp only [tdel]
    split
    · rfl
    · split
      · subst_vars
        simp only [tget, hk, if_false]
        split
        · exact tget_below h (by omega)
        · rfl
      · simp only [tget, ih (tsorted_none h)]

/-! ### The canonical form -/

theorem tput_all (t : Table α) (k : Nat) (v : α) (p : Nat × α → Bool) (hv : p (k, v) = true) (h : t.all p = true) :
    (tput t k v).all p = true := by
  induction t with
  | nil => simp [tput, hv]
  | cons e t ih =>
    obtain ⟨j, w⟩ := e
    simp only [List.all_cons, Bool.and_eq_true] at h
    simp only [tput]
    split
    · simp [hv, h.1, h.2]
    · split
      · simp [hv, h.2]
      · simp [h.1, ih h.2]

theorem tdel_all (t : Table α) (k : Nat) (p : Nat × α → Bool) (h : t.all p = true) : (tdel t k).all p = true := by
  induction t with
  | nil => rfl
  | cons e t ih =>
    obtain ⟨j, w⟩ := e
    have h' := h
    simp only [List.all_cons, Bool.and_eq_true] at h'
    simp only [tdel]
    split
    · exact h
    · split
      · exact h'.2
      · simp [h'.1, ih h'.2]

variable [DecidableEq α]

/-- Writing what an unlisted key reads as removes the entry, and the canonical form stands. -/
theorem twf_tputD (d : α) (t : Table α) (k : Nat) (v : α) (h : twf d t = true) : twf d (tputD d t k v) = true := by
  simp only [twf, Bool.and_eq_true] at h ⊢
  simp only [tputD]
  split
  · exact ⟨tdel_sorted t k h.1, tdel_all t k _ h.2⟩
  · exact ⟨tput_sorted t k v h.1, tput_all t k v _ (by simpa) h.2⟩

theorem tgetD_tputD_same (d : α) (t : Table α) (k : Nat) (v : α) (h : tsorted none t = true) :
    tgetD (tputD d t k v) k d = v := by
  simp only [tputD]
  split
  · simp [tgetD, tget_tdel_same t k h, *]
  · simp [tgetD]

theorem tgetD_tputD_other (d : α) (t : Table α) (k k' : Nat) (v : α) (hk : k' ≠ k) (h : tsorted none t = true) :
    tgetD (tputD d t k v) k' d = tgetD t k' d := by
  simp only [tputD]
  split
  · simp [tgetD, tget_tdel_other t k k' hk h]
  · simp [tgetD, tget_tput_other t k k' v hk]

end Sys2Proof.Machine
end

