-- ==== Sys2Proof/Laws/Lane.lean ====
section
/-! SUPPORT. What the lane does once, for every word: the ways in (`onLane`), the value rule, the gate, and the ways a word
ends. -/

namespace Sys2Proof.Machine

/-! ### Views that a lane's word leaves as they are -/

@[simp] theorem portTok_popLane (s : State) (f : Firing) (q : Port) : portTok (popLane s) f q = portTok s f q := rfl
@[simp] theorem portD_popLane (s : State) (f : Firing) (q : Port) : portD (popLane s) f q = portD s f q := rfl
@[simp] theorem predTokOf_popLane (s : State) (f : Firing) (pm : Pm) : predTokOf (popLane s) f pm = predTokOf s f pm := rfl
@[simp] theorem taskD_popLane (s : State) (tid : Nat) : taskD (popLane s) tid = taskD s tid := rfl
@[simp] theorem taskAt_popLane (s : State) (tid : Nat) : taskAt (popLane s) tid = taskAt s tid := rfl
@[simp] theorem instAt_popLane (s : State) (tid iter : Nat) : instAt (popLane s) tid iter = instAt s tid iter := rfl
@[simp] theorem instrAt_popLane (s : State) (t b k : Nat) : instrAt (popLane s) t b k = instrAt s t b k := rfl
@[simp] theorem cellPane_popLane (s : State) (f : Firing) : cellPane (popLane s) f = cellPane s f := rfl
@[simp] theorem retReg_popLane (s : State) (f : Firing) (i : Instr) : retReg (popLane s) f i = retReg s f i := rfl

theorem predTokOf_always (s : State) (f : Firing) : predTokOf s f .always = none := rfl
theorem predTokOf_onTrue (s : State) (f : Firing) : predTokOf s f .onTrue = some (portD s f .p) := rfl
theorem predTokOf_onFalse (s : State) (f : Firing) : predTokOf s f .onFalse = some (portD s f .p) := rfl

/-! ### The lane -/

theorem onLane_fires {s : State} {f : Firing} {i : Instr} (h : OnLane s f i) (k : Firing → State → State) :
    onLane s i k = .next (k f (popLane s)) := by
  obtain ⟨hd, hc⟩ := h
  unfold onLane
  cases hi : s.wk.issue with
  | nil => simp [hi] at hd
  | cons g t =>
    simp only [hi, List.head?_cons, Option.some.injEq] at hd
    subst hd
    simp [hc]

/-- Every word's meaning answers a next state. -/
theorem onLane_next (s : State) (i : Instr) (k : Firing → State → State) : ∃ t, onLane s i k = .next t := by
  unfold onLane
  split
  · exact ⟨_, rfl⟩
  · split <;> exact ⟨_, rfl⟩

/-! ### P under PM -/

theorem predTag_of_matches {s : State} {f : Firing} {i : Instr} (h : Matches s f i) (g : Tag) (hg : g ≠ .pred) :
    anyTag g (predTokOf s f (Instr.predicate i)).toList = false := by
  unfold Matches at h
  cases hp : Instr.predicate i <;> simp only [hp] at h <;>
    simp [predTokOf, anyTag, h]
  · exact fun e => hg e.symm
  · exact fun e => hg e.symm

theorem predMatch_of_matches {s : State} {f : Firing} {i : Instr} (h : Matches s f i) :
    predMatch (Instr.predicate i) (predTokOf s f (Instr.predicate i)) = some true := by
  unfold Matches at h
  cases hp : Instr.predicate i <;> simp only [hp] at h <;> simp [predTokOf, predMatch, h]

/-! ### The value rule (R65, R90, R104) -/

theorem valueRule_go {pm : Pm} {p : Option Token} {data : List Token} {v : VOut}
    (hp : ∀ g, g ≠ Tag.pred → anyTag g p.toList = false) (hm : predMatch pm p = some true)
    (hd : ∀ t ∈ data, t.tag ≠ .poison ∧ t.tag ≠ .null) : valueRule pm p data v = v := by
  have h1 : anyTag .poison (data ++ p.toList) = false := by
    have := hp .poison (by decide)
    simp only [anyTag, List.any_append, Bool.or_eq_false_iff] at this ⊢
    exact ⟨by simpa using fun t ht => (hd t ht).1, this⟩
  have h2 : anyTag .null (data ++ p.toList) = false := by
    have := hp .null (by decide)
    simp only [anyTag, List.any_append, Bool.or_eq_false_iff] at this ⊢
    exact ⟨by simpa using fun t ht => (hd t ht).2, this⟩
  simp [valueRule, h1, h2, hm]

/-- A value word on its lane: the value rule over its ports. -/
theorem valueWord_on {s : State} {f : Firing} {i : Instr} (h : OnLane s f i) (res : State → Firing → VOut) :
    valueWord s i res = .next (finishValue (popLane s) f i (valueRule (Instr.predicate i)
      (predTokOf s f (Instr.predicate i)) ((Instr.dataPorts i).map (portD s f)) (res (popLane s) f))) :=
  onLane_fires h _

/-- What a value word that answers `v` leaves, by the value rule. -/
def valueEnd (s : State) (f : Firing) (i : Instr) (v : VOut) : State :=
  finishValue (popLane s) f i (valueRule (Instr.predicate i) (predTokOf s f (Instr.predicate i))
    ((Instr.dataPorts i).map (portD s f)) v)

theorem value1_on {s : State} {f : Firing} {i : Instr} (h : OnLane s f i) (c : Token → VOut) :
    value1 s i c = .next (valueEnd s f i (c (portD s f .l))) := by
  rw [value1, valueWord_on h]
  rfl

theorem value2_on {s : State} {f : Firing} {i : Instr} (h : OnLane s f i) (c : Token → Token → VOut) :
    value2 s i c = .next (valueEnd s f i (c (portD s f .l) (portD s f .r))) := by
  rw [value2, valueWord_on h]
  rfl

theorem value3_on {s : State} {f : Firing} {i : Instr} (h : OnLane s f i) (c : Token → Token → Token → VOut) :
    value3 s i c = .next (valueEnd s f i (c (portD s f .l) (portD s f .r) (portD s f .x))) := by
  rw [value3, valueWord_on h]
  rfl

theorem valueEnd_go {s : State} {f : Firing} {i : Instr} (h : Fires s f i) (hc : carriesPoison i = []) (v : VOut) :
    valueEnd s f i v = finishValue (popLane s) f i v := by
  unfold valueEnd
  rw [valueRule_go (fun g hg => predTag_of_matches h.matched g hg) (predMatch_of_matches h.matched)]
  intro t ht
  obtain ⟨q, hq, rfl⟩ := List.mem_map.mp ht
  obtain ⟨h1, h2⟩ := h.clean q hq
  exact ⟨fun e => by simpa [hc] using h2 e, h1⟩

theorem finishValue_send (s : State) (f : Firing) (i : Instr) (a b : Token) (fl : FlagSet) :
    finishValue (popLane s) f i (.send a b fl) = sent s f i a b fl := rfl

theorem fireSend_popLane (s : State) (f : Firing) (i : Instr) (a b : Token) (fl : FlagSet) :
    fireSend (popLane s) f i a b fl = sent s f i a b fl := rfl

theorem request_popLane (s : State) (f : Firing) (i : Instr) (k : ReqKind) :
    request (popLane s) f i k = requested s f i k := rfl

theorem waitFor_popLane (s : State) (f : Firing) (w : Wait) : waitFor (popLane s) f w = waits s f w := rfl

/-! ### The gate (R65, R90, R104, R144, R170) -/

theorem gate_go {pm : Pm} {p : Option Token} {us : List (PortUse × Token)}
    (hp : ∀ g, g ≠ Tag.pred → anyTag g p.toList = false) (hm : predMatch pm p = some true)
    (hu : ∀ u ∈ us, u.2.tag ≠ .null ∧ (u.2.tag = .poison → u.1 = .data)) : gate pm p us = .go := by
  have h1 := hp .poison (by decide)
  have h2 : anyTag .null (us.map Prod.snd ++ p.toList) = false := by
    have := hp .null (by decide)
    simp only [anyTag, List.any_append, Bool.or_eq_false_iff] at this ⊢
    refine ⟨?_, this⟩
    simp only [List.any_map, List.any_eq_false, Function.comp]
    intro u hu'
    simpa using (hu u hu').1
  have h3 : poisonGate ((us.filter fun u => u.2.tag = .poison).map Prod.fst) = none := by
    have key : ∀ x ∈ (us.filter fun u => u.2.tag = .poison).map Prod.fst, x = PortUse.data := by
      intro x hx
      obtain ⟨u, hu', rfl⟩ := List.mem_map.mp hx
      obtain ⟨hm', ht⟩ := List.mem_filter.mp hu'
      exact (hu u hm').2 (by simpa using ht)
    have no : ∀ y : PortUse, y ≠ .data →
        ((us.filter fun u => u.2.tag = .poison).map Prod.fst).contains y = false := by
      intro y hy
      by_contra hc
      simp only [Bool.not_eq_false, List.contains_iff_mem] at hc
      exact hy (key y hc)
    simp only [poisonGate, no .steer (by decide), no .count (by decide), no .quiet (by decide), no .pass (by decide)]
    rfl
  simp [gate, h1, h2, h3, hm]

theorem fireWord_go {s : State} {f : Firing} {i : Instr} {uses : State → Firing → List (PortUse × Token)}
    (hl : OnLane s f i) (hm : Matches s f i)
    (hu : ∀ u ∈ uses (popLane s) f, u.2.tag ≠ .null ∧ (u.2.tag = .poison → u.1 = .data))
    (k : Firing → State → State) : fireWord s i uses k = .next (k f (popLane s)) := by
  unfold fireWord
  rw [onLane_fires hl]
  simp only [fireGate, predTokOf_popLane]
  rw [gate_go (fun g hg => predTag_of_matches hm g hg) (predMatch_of_matches hm) hu]

theorem effectWord_go {s : State} {f : Firing} {i : Instr} {uses : State → Firing → List (PortUse × Token)}
    (hl : OnLane s f i) (hm : Matches s f i)
    (hu : ∀ u ∈ uses (popLane s) f, u.2.tag ≠ .null ∧ (u.2.tag = .poison → u.1 = .data))
    (null : State → Firing → State) (k : Firing → State → State) :
    effectWord s i uses null k = .next (k f (popLane s)) := by
  unfold effectWord
  rw [onLane_fires hl]
  simp only [predTokOf_popLane]
  rw [gate_go (fun g hg => predTag_of_matches hm g hg) (predMatch_of_matches hm) hu]

theorem storeWord_go {s : State} {f : Firing} {i : Instr} {uses : State → Firing → List (PortUse × Token)}
    (hl : OnLane s f i) (hm : Matches s f i)
    (hu : ∀ u ∈ uses (popLane s) f, u.2.tag ≠ .null ∧ (u.2.tag = .poison → u.1 = .data))
    (k : Firing → State → State) : storeWord s i uses k = .next (k f (popLane s)) :=
  effectWord_go hl hm hu _ _

/-! ### Instances after a change -/

theorem instAt_modInst_same (s : State) (tid iter : Nat) (g : Inst → Inst) :
    instAt (modInst s tid iter g) tid iter = (instAt s tid iter).map g := tget_tmod_same _ _ _

theorem instAt_modInst_other (s : State) (tid iter t' i' : Nat) (g : Inst → Inst)
    (h : instKey t' i' ≠ instKey tid iter) : instAt (modInst s tid iter g) t' i' = instAt s t' i' :=
  tget_tmod_other _ _ _ _ h

theorem taskAt_modTask_same (s : State) (tid : Nat) (g : Task → Task) :
    taskAt (modTask s tid g) tid = (taskAt s tid).map g := tget_tmod_same _ _ _

theorem taskAt_modTask_other (s : State) (tid t' : Nat) (g : Task → Task) (h : t' ≠ tid) :
    taskAt (modTask s tid g) t' = taskAt s t' := tget_tmod_other _ _ _ _ h

end Sys2Proof.Machine
end

