-- ==== Sys2Proof/Laws/Memory.lean ====
section
/-! SUPPORT. Byte memories: every operation keeps the canonical form, a read after a write gives the value written, and a
write leaves every other byte alone. -/

namespace Sys2Proof.Machine

theorem Memory.sorted_of_wf {m : List Host.Cell} (h : Memory.wf m = true) : tsorted none m = true := by
  simp only [Memory.wf, twf, Bool.and_eq_true] at h
  exact h.1

theorem setByte_wf (m : List Host.Cell) (a : Nat) (b : Byte) (h : Memory.wf m = true) :
    Memory.wf (setByte m a b) = true := twf_tputD _ _ _ _ h

theorem setBytes_wf (bs : List Byte) (m : List Host.Cell) (a : Nat) (h : Memory.wf m = true) :
    Memory.wf (setBytes m a bs) = true := by
  induction bs generalizing m a with
  | nil => exact h
  | cons b t ih => exact ih _ _ (setByte_wf _ _ _ h)

theorem byteAt_setByte_same (m : List Host.Cell) (a : Nat) (b : Byte) (h : Memory.wf m = true) :
    byteAt (setByte m a b) a = b := tgetD_tputD_same _ _ _ _ (Memory.sorted_of_wf h)

theorem byteAt_setByte_other (m : List Host.Cell) (a c : Nat) (b : Byte) (hc : c ≠ a) (h : Memory.wf m = true) :
    byteAt (setByte m a b) c = byteAt m c := tgetD_tputD_other _ _ _ _ _ hc (Memory.sorted_of_wf h)

/-- A byte outside those written reads as before. -/
theorem byteAt_setBytes_outside (bs : List Byte) (m : List Host.Cell) (a c : Nat) (h : Memory.wf m = true)
    (hc : c < a ∨ a + bs.length ≤ c) : byteAt (setBytes m a bs) c = byteAt m c := by
  induction bs generalizing m a with
  | nil => rfl
  | cons b t ih =>
    simp only [List.length_cons] at hc
    simp only [setBytes]
    rw [ih _ _ (setByte_wf _ _ _ h) (by omega), byteAt_setByte_other _ _ _ _ (by omega) h]

/-- Each byte written reads back. -/
theorem byteAt_setBytes_inside (bs : List Byte) (m : List Host.Cell) (a k : Nat) (h : Memory.wf m = true)
    (hk : k < bs.length) : byteAt (setBytes m a bs) (a + k) = bs[k] := by
  induction bs generalizing m a k with
  | nil => simp at hk
  | cons b t ih =>
    simp only [setBytes]
    cases k with
    | zero =>
      rw [byteAt_setBytes_outside t _ _ _ (setByte_wf _ _ _ h) (by omega)]
      simpa using byteAt_setByte_same m a b h
    | succ k =>
      simp only [List.length_cons] at hk
      have := ih (setByte m a b) (a + 1) k (setByte_wf _ _ _ h) (by omega)
      simpa [Nat.add_assoc, Nat.add_comm 1 k] using this

/-! ### HBM under the home caches: the canonical form -/

theorem writeBack_wf (g : Gm) (line : Nat) (l : Line) (h : Memory.wf g.hbm = true) :
    Memory.wf (writeBack g line l).hbm = true := by
  simp only [writeBack]
  split
  · exact h
  · exact setBytes_wf _ _ _ h

theorem evictFor_wf (g : Gm) (line : Nat) (h : Memory.wf g.hbm = true) : Memory.wf (evictFor g line).hbm = true := by
  simp only [evictFor]
  split
  · exact h
  · split
    · exact h
    · split
      · exact h
      · simp only
        split
        · exact writeBack_wf _ _ _ h
        · exact h

theorem fillLine_wf (g : Gm) (line : Nat) (h : Memory.wf g.hbm = true) : Memory.wf (fillLine g line).hbm = true := by
  simp only [fillLine]
  split
  · exact h
  · exact h
  · exact evictFor_wf _ _ h

@[simp] theorem touchLine_hbm (g : Gm) (line : Nat) : (touchLine g line).hbm = g.hbm := rfl

theorem withLine_wf (g : Gm) (line : Nat) (h : Memory.wf g.hbm = true) : Memory.wf (withLine g line).hbm = true :=
  fillLine_wf g line h

theorem writeLine_wf (g : Gm) (pa : Nat) (bs : List (Option Byte)) (f : Line → Line) (h : Memory.wf g.hbm = true) :
    Memory.wf (writeLine g pa bs f).hbm = true := withLine_wf g _ h

theorem setGranuleBytes_wf (l : Ls) (g off : Nat) (bs : List Byte) (h : Memory.wf l.bytes = true) :
    Memory.wf (setGranuleBytes l g off bs).bytes = true := setBytes_wf _ _ _ h

@[simp] theorem setGst_bytes (l : Ls) (g v : Nat) : (setGst l g v).bytes = l.bytes := rfl
@[simp] theorem setGField_bytes (l : Ls) (g lo w v : Nat) : (setGField l g lo w v).bytes = l.bytes := rfl

end Sys2Proof.Machine
end

