-- ==== Sys2Proof/Laws/PerInstr.lean ====
section
/-! SUPPORT. One lemma for each instruction: the words have an encoding, and the events none (R86, R87). -/

namespace Sys2Proof.Laws.Encodable

open Sys2Proof Sys2Proof.Machine

/-- An instruction has a word exactly if it is no event. -/
def Statement (i : Instr) : Prop := (encode i).isSome = decide (Instr.cls i ≠ .event)

theorem read (t0 t1 : Tgt) (reg : BitVec 6) : Statement (.read t0 t1 reg) := rfl
theorem write (wid : BitVec 5) (reg : BitVec 6) (pm : Pm) : Statement (.write wid reg pm) := rfl
theorem mov (g : GF) : Statement (.mov g) := rfl
theorem movi (i : IF) : Statement (.movi i) := rfl
theorem nul (g : GF) : Statement (.nul g) := rfl
theorem sel (t0 t1 : Tgt) (ta : TA) : Statement (.sel t0 t1 ta) := rfl
theorem retag (c : CF) : Statement (.retag c) := rfl
theorem pld (i : IF) : Statement (.pld i) := rfl
theorem tagof (g : GF) : Statement (.tagof g) := rfl
theorem br (off : BitVec 21) (bk : BranchKind) (pm : Pm) : Statement (.br off bk pm) := rfl
theorem brr (call : Bool) (pm : Pm) : Statement (.brr call pm) := rfl
theorem exit (pm : Pm) : Statement (.exit pm) := rfl
theorem trap (imm : BitVec 12) (pm : Pm) : Statement (.trap imm pm) := rfl
theorem bkpt (imm : BitVec 12) (pm : Pm) : Statement (.bkpt imm pm) := rfl
theorem fence (scope : Scope) (lsid : BitVec 5) (pm : Pm) : Statement (.fence scope lsid pm) := rfl
theorem add (g : GF) (sat : Bool) : Statement (.add g sat) := rfl
theorem sub (g : GF) (sat : Bool) : Statement (.sub g sat) := rfl
theorem mul (g : GF) (sat : Bool) : Statement (.mul g sat) := rfl
theorem mulh (g : GF) : Statement (.mulh g) := rfl
theorem div (g : GF) : Statement (.div g) := rfl
theorem rem (g : GF) : Statement (.rem g) := rfl
theorem fma (g : GF) : Statement (.fma g) := rfl
theorem min (g : GF) : Statement (.min g) := rfl
theorem max (g : GF) : Statement (.max g) := rfl
theorem abs (g : GF) : Statement (.abs g) := rfl
theorem neg (g : GF) : Statement (.neg g) := rfl
theorem addi (i : IF) : Statement (.addi i) := rfl
theorem muli (i : IF) : Statement (.muli i) := rfl
theorem tst (g : GF) (cc : Cmp) : Statement (.tst g cc) := rfl
theorem teqi (i : IF) : Statement (.teqi i) := rfl
theorem tlti (i : IF) : Statement (.tlti i) := rfl
theorem and (g : GF) : Statement (.and g) := rfl
theorem or (g : GF) : Statement (.or g) := rfl
theorem xor (g : GF) : Statement (.xor g) := rfl
theorem not (g : GF) : Statement (.not g) := rfl
theorem andi (i : IF) : Statement (.andi i) := rfl
theorem ori (i : IF) : Statement (.ori i) := rfl
theorem xori (i : IF) : Statement (.xori i) := rfl
theorem shl (g : GF) : Statement (.shl g) := rfl
theorem shr (g : GF) : Statement (.shr g) := rfl
theorem sar (g : GF) : Statement (.sar g) := rfl
theorem shli (i : IF) : Statement (.shli i) := rfl
theorem shri (i : IF) : Statement (.shri i) := rfl
theorem sari (i : IF) : Statement (.sari i) := rfl
theorem clz (g : GF) : Statement (.clz g) := rfl
theorem popc (g : GF) : Statement (.popc g) := rfl
theorem bfx (g : GF) : Statement (.bfx g) := rfl
theorem sqrt (g : GF) : Statement (.sqrt g) := rfl
theorem rcp (g : GF) : Statement (.rcp g) := rfl
theorem rsqrt (g : GF) : Statement (.rsqrt g) := rfl
theorem exp2 (g : GF) : Statement (.exp2 g) := rfl
theorem log2 (g : GF) : Statement (.log2 g) := rfl
theorem tanh (g : GF) : Statement (.tanh g) := rfl
theorem cvt (c : CF) : Statement (.cvt c) := rfl
theorem cvtz (c : CF) : Statement (.cvtz c) := rfl
theorem ldexp (g : GF) : Statement (.ldexp g) := rfl
theorem fclass (g : GF) : Statement (.fclass g) := rfl
theorem red (g : GF) (kind : RedKind) : Statement (.red g kind) := rfl
theorem ld (m : MF) : Statement (.ld m) := rfl
theorem st (ord : Order) (fmt : Tag) (lsid : BitVec 5) (pm : Pm) : Statement (.st ord fmt lsid pm) := rfl
theorem aadd (m : MF) : Statement (.aadd m) := rfl
theorem amin (m : MF) : Statement (.amin m) := rfl
theorem amax (m : MF) : Statement (.amax m) := rfl
theorem aand (m : MF) : Statement (.aand m) := rfl
theorem aor (m : MF) : Statement (.aor m) := rfl
theorem axor (m : MF) : Statement (.axor m) := rfl
theorem aswp (m : MF) : Statement (.aswp m) := rfl
theorem acas (m : MF) : Statement (.acas m) := rfl
theorem mst (ord : Order) (fmt : Tag) (lsid : BitVec 5) (pm : Pm) : Statement (.mst ord fmt lsid pm) := rfl
theorem pref (lsid : BitVec 5) (pm : Pm) : Statement (.pref lsid pm) := rfl
theorem lld (t0 : Tgt) (wait : LldWait) (fmt : Tag) (lsid : BitVec 5) (pm : Pm) : Statement (.lld t0 wait fmt lsid pm) := rfl
theorem lst (fmt : Tag) (lsid : BitVec 5) (pm : Pm) : Statement (.lst fmt lsid pm) := rfl
theorem lamo (t0 : Tgt) (op : AtomOp) (fmt : Tag) (lsid : BitVec 5) (pm : Pm) : Statement (.lamo t0 op fmt lsid pm) := rfl
theorem few (t0 : Tgt) (lsid : BitVec 5) (pm : Pm) : Statement (.few t0 lsid pm) := rfl
theorem fes (lsid : BitVec 5) (pm : Pm) : Statement (.fes lsid pm) := rfl
theorem binit (lsid : BitVec 5) (pm : Pm) : Statement (.binit lsid pm) := rfl
theorem barr (t0 : Tgt) (lsid : BitVec 5) (pm : Pm) : Statement (.barr t0 lsid pm) := rfl
theorem lsz (t0 : Tgt) (lsid : BitVec 5) (pm : Pm) : Statement (.lsz t0 lsid pm) := rfl
theorem alloc (g : GF) (arena : BitVec 3) : Statement (.alloc g arena) := rfl
theorem free (pm : Pm) : Statement (.free pm) := rfl
theorem rels (pm : Pm) : Statement (.rels pm) := rfl
theorem cp (t0 : Tgt) (ctx : BitVec 2) (rv : Bool) (ta : TA) (pm : Pm) : Statement (.cp t0 ctx rv ta pm) := rfl
theorem cpg (t0 : Tgt) (ctx : BitVec 2) (ta : TA) (pm : Pm) : Statement (.cpg t0 ctx ta pm) := rfl
theorem cps (t0 : Tgt) (ctx : BitVec 2) (ta : TA) (pm : Pm) : Statement (.cps t0 ctx ta pm) := rfl
theorem pset (t0 : Tgt) (reg : BitVec 3) (ta : TA) (pm : Pm) : Statement (.pset t0 reg ta pm) := rfl
theorem cpp (t0 : Tgt) (ctx : BitVec 2) (ta : TA) (pm : Pm) : Statement (.cpp t0 ctx ta pm) := rfl
theorem twait (g : GF) (ctx : BitVec 2) : Statement (.twait g ctx) := rfl
theorem tread (g : GF) (ctx : BitVec 2) : Statement (.tread g ctx) := rfl
theorem wload (t0 : Tgt) (k : BitVec 2) (j : BitVec 2) (pm : Pm) : Statement (.wload t0 k j pm) := rfl
theorem wmma (t0 : Tgt) (k : BitVec 2) (j : BitVec 2) (sat : Bool) (pm : Pm) : Statement (.wmma t0 k j sat pm) := rfl
theorem cvtt (t0 : Tgt) (n : BitVec 4) (pm : Pm) : Statement (.cvtt t0 n pm) := rfl
theorem spawn (g : GF) (place : SpawnPlace) : Statement (.spawn g place) := rfl
theorem ref (pm : Pm) : Statement (.ref pm) := rfl
theorem drop (pm : Pm) : Statement (.drop pm) := rfl
theorem await (g : GF) : Statement (.await g) := rfl
theorem launch (t0 : Tgt) (ta : TA) (pm : Pm) : Statement (.launch t0 ta pm) := rfl
theorem waitc (g : GF) (level : Level) : Statement (.waitc g level) := rfl
theorem cancel (level : Level) (pm : Pm) : Statement (.cancel level pm) := rfl
theorem tnow (g : GF) : Statement (.tnow g) := rfl
theorem tickw (t0 : Tgt) (ta : TA) (pm : Pm) : Statement (.tickw t0 ta pm) := rfl
theorem swq (g : GF) : Statement (.swq g) := rfl
theorem kvgrow (t0 : Tgt) (ta : TA) (pm : Pm) : Statement (.kvgrow t0 ta pm) := rfl
theorem sysrd (i : IF) : Statement (.sysrd i) := rfl
theorem syswr (imm : BitVec 12) (pm : Pm) : Statement (.syswr imm pm) := rfl
theorem prof (imm : BitVec 12) (pm : Pm) : Statement (.prof imm pm) := rfl
theorem self (g : GF) : Statement (.self g) := rfl
theorem blockActivate (a : Activation) : Statement (.blockActivate a) := rfl
theorem tokenArrive (m : TokMsg) : Statement (.tokenArrive m) := rfl
theorem cellIssue (die pane cell : Nat) : Statement (.cellIssue die pane cell) := rfl
theorem readyPromote (f : Firing) : Statement (.readyPromote f) := rfl
theorem blockCommit (tid iter : Nat) : Statement (.blockCommit tid iter) := rfl
theorem returnValueArrive (m : RetMsg) : Statement (.returnValueArrive m) := rfl
theorem dealChunk (launch : Nat) : Statement (.dealChunk launch) := rfl
theorem refChangeArrive (m : RefMsg) : Statement (.refChangeArrive m) := rfl
theorem futureExitArrive (m : ExitMsg) : Statement (.futureExitArrive m) := rfl
theorem colourDrainDone (die colour : Nat) : Statement (.colourDrainDone die colour) := rfl
theorem allocRequestArrive (r : AllocReq) : Statement (.allocRequestArrive r) := rfl
theorem quietSpill (arena : Nat) : Statement (.quietSpill arena) := rfl
theorem spillComplete (arena : Nat) : Statement (.spillComplete arena) := rfl
theorem allocationRelease (m : ReleaseMsg) : Statement (.allocationRelease m) := rfl
theorem engineCmdStart (ctx : Nat) : Statement (.engineCmdStart ctx) := rfl
theorem gatherRow (ctx : Nat) : Statement (.gatherRow ctx) := rfl
theorem wloadRun (ctx : Nat) : Statement (.wloadRun ctx) := rfl
theorem wmmaRow (ctx : Nat) : Statement (.wmmaRow ctx) := rfl
theorem cvttRow (ctx : Nat) : Statement (.cvttRow ctx) := rfl
theorem engineCmdEnd (ctx : Nat) : Statement (.engineCmdEnd ctx) := rfl
theorem granuleWake (f : Firing) : Statement (.granuleWake f) := rfl
theorem awaitWake (f : Firing) : Statement (.awaitWake f) := rfl
theorem twaitWake (f : Firing) : Statement (.twaitWake f) := rfl
theorem waitcWake (f : Firing) : Statement (.waitcWake f) := rfl
theorem launchComplete (launch : Nat) : Statement (.launchComplete launch) := rfl
theorem levelComplete (level : Level) (key : Nat) : Statement (.levelComplete level key) := rfl
theorem phaseBegin (job : Nat) : Statement (.phaseBegin job) := rfl
theorem hostInboxWrite (vi slot : Nat) (v : BitVec 512) : Statement (.hostInboxWrite vi slot v) := rfl
theorem inboxLoad (vi : Nat) : Statement (.inboxLoad vi) := rfl
theorem inboxSeal (vi : Nat) : Statement (.inboxSeal vi) := rfl
theorem inboxPhase (vi : Nat) : Statement (.inboxPhase vi) := rfl
theorem inboxLaunch (vi : Nat) : Statement (.inboxLaunch vi) := rfl
theorem inboxCancel (vi : Nat) : Statement (.inboxCancel vi) := rfl
theorem inboxEnd (vi : Nat) : Statement (.inboxEnd vi) := rfl
theorem shutterRaise (graph : Nat) : Statement (.shutterRaise graph) := rfl
theorem shutterMarkerArrive (graph cell : Nat) : Statement (.shutterMarkerArrive graph cell) := rfl
theorem cutComplete (graph : Nat) : Statement (.cutComplete graph) := rfl
theorem savePagesWrite (graph : Nat) : Statement (.savePagesWrite graph) := rfl
theorem contextResume (graph : Nat) : Statement (.contextResume graph) := rfl
theorem fwTaskResume (tid : Nat) : Statement (.fwTaskResume tid) := rfl
theorem fwTaskReclaim (tid : Nat) : Statement (.fwTaskReclaim tid) := rfl
theorem parityError (f : Firing) (port : Port) : Statement (.parityError f port) := rfl
theorem pageFaultAnswer (die vi va : Nat) (entry : Option (BitVec 64)) : Statement (.pageFaultAnswer die vi va entry) := rfl
theorem pageWalk (m : WalkMsg) : Statement (.pageWalk m) := rfl
theorem tlbInvalidate (die vi lo hi : Nat) : Statement (.tlbInvalidate die vi lo hi) := rfl
theorem invalidateComplete (id : Nat) : Statement (.invalidateComplete id) := rfl
theorem bindRecordWrite (die index : Nat) (v : BitVec 64) : Statement (.bindRecordWrite die index v) := rfl
theorem bindHeldApply (die index : Nat) : Statement (.bindHeldApply die index) := rfl
theorem homeLineFill (line : Nat) : Statement (.homeLineFill line) := rfl
theorem globalWritePerform (m : WriteMsg) : Statement (.globalWritePerform m) := rfl
theorem homeRead (m : ReadMsg) : Statement (.homeRead m) := rfl
theorem atomicPerform (m : AtomMsg) : Statement (.atomicPerform m) := rfl
theorem scrubRow (pane : Nat) : Statement (.scrubRow pane) := rfl
theorem eccWriteback (pane row : Nat) : Statement (.eccWriteback pane row) := rfl
theorem ptpMessage (m : PtpMsg) : Statement (.ptpMessage m) := rfl
theorem tick (source : Nat) : Statement (.tick source) := rfl
theorem graceExpiry (source : Nat) : Statement (.graceExpiry source) := rfl
theorem tickDeferredLaunch (source : Nat) : Statement (.tickDeferredLaunch source) := rfl
theorem ingestPacket (p : Packet) : Statement (.ingestPacket p) := rfl
theorem tickSetWrite (w : TickSet) : Statement (.tickSetWrite w) := rfl
theorem streamSetWrite (w : SysW) : Statement (.streamSetWrite w) := rfl
theorem viCtlWrite (w : SysW) : Statement (.viCtlWrite w) := rfl
theorem badnodeWrite (w : SysW) : Statement (.badnodeWrite w) := rfl
theorem perfCntClearRead (pane c : Nat) : Statement (.perfCntClearRead pane c) := rfl
theorem triggerWrite (w : SysW) : Statement (.triggerWrite w) := rfl
theorem ovpWrite (w : SysW) : Statement (.ovpWrite w) := rfl
theorem sysregWrite (w : SysW) : Statement (.sysregWrite w) := rfl
theorem latchPropagate (die : Nat) : Statement (.latchPropagate die) := rfl
theorem mailboxAnswer (pane : Nat) (page : Option Nat) : Statement (.mailboxAnswer pane page) := rfl
theorem grantCacheRefill (pane page : Nat) : Statement (.grantCacheRefill pane page) := rfl
theorem remoteMemoryRead (r : RemoteRead) : Statement (.remoteMemoryRead r) := rfl
theorem remoteMemoryWrite (w : RemoteWrite) : Statement (.remoteMemoryWrite w) := rfl
theorem remoteAmo (r : RemoteAmo) : Statement (.remoteAmo r) := rfl
theorem remoteMst (w : RemoteWrite) (graph : Nat) : Statement (.remoteMst w graph) := rfl
theorem remoteSpawn (r : RemoteSpawn) : Statement (.remoteSpawn r) := rfl
theorem remoteCount (c : RemoteCount) : Statement (.remoteCount c) := rfl
theorem viConfigure (c : ViConf) : Statement (.viConfigure c) := rfl
theorem viUnconfigure (vi : Nat) : Statement (.viUnconfigure vi) := rfl
theorem reset (outs : List BootOut) : Statement (.reset outs) := rfl
theorem startLogRead : Statement (.startLogRead) := rfl
theorem lifecycleMove (dest : Lifecycle) (signed : Bool) : Statement (.lifecycleMove dest signed) := rfl
theorem attestationRequest (nonce : BitVec 256) : Statement (.attestationRequest nonce) := rfl
theorem powerThrottle (die : Nat) : Statement (.powerThrottle die) := rfl
theorem clockRestore (die : Nat) : Statement (.clockRestore die) := rfl
theorem thermalThrottle (die : Nat) : Statement (.thermalThrottle die) := rfl
theorem thermalStop (die : Nat) : Statement (.thermalStop die) := rfl
theorem ptpMasterLoss : Statement (.ptpMasterLoss) := rfl

end Sys2Proof.Laws.Encodable
end

