-- ==== Sys2Proof/Laws/Token.lean ====
section
/-! SUPPORT. What a token made under a tag holds: the used bits of its payload, and its mathematical value (R64, R67). -/

namespace Sys2Proof.Machine

@[simp] theorem mkTok_tag (t : Tag) (n : Nat) : (mkTok t n).tag = t := rfl
@[simp] theorem mkInt_tag (t : Tag) (v : Int) : (mkInt t v).tag = t := rfl

theorem toSigned_mod (w n : Nat) : toSigned w (n % 2 ^ w) = toSigned w n := by simp [toSigned]

/-- The signed reading agrees with the number modulo 2^w. -/
theorem toSigned_agree (w n : Nat) : (toSigned w n - (n : Int)) % 2 ^ w = 0 := by
  have h : ((n % 2 ^ w : Nat) : Int) = (n : Int) % 2 ^ w := by simp
  simp only [toSigned]
  split
  · rw [h]
    simp [Int.emod_emod_of_dvd, Int.sub_emod]
  · rw [h]
    simp [Int.sub_emod]

theorem toSigned_bounds (w n : Nat) (hw : 0 < w) : -(2 ^ (w - 1)) ≤ toSigned w n ∧ toSigned w n < 2 ^ (w - 1) := by
  obtain ⟨k, rfl⟩ : ∃ k, w = k + 1 := ⟨w - 1, by omega⟩
  have h := Nat.mod_lt n (show 0 < 2 ^ (k + 1) by positivity)
  have e : (2 : Nat) ^ (k + 1) = 2 * 2 ^ k := by ring
  have ei : (2 : Int) ^ (k + 1) = 2 * 2 ^ k := by ring
  have hc : ((2 ^ k : Nat) : Int) = (2 : Int) ^ k := by push_cast; ring
  simp only [Nat.add_sub_cancel, toSigned]
  rw [e] at h ⊢
  rw [ei, ← hc]
  split <;> omega

/-- Two numbers in the signed range that agree modulo 2^w are equal. -/
theorem eq_of_agree {w : Nat} {a b : Int} (hw : 0 < w) (ha : -(2 ^ (w - 1)) ≤ a ∧ a < 2 ^ (w - 1))
    (hb : -(2 ^ (w - 1)) ≤ b ∧ b < 2 ^ (w - 1)) (h : (a - b) % 2 ^ w = 0) : a = b := by
  obtain ⟨k, rfl⟩ : ∃ k, w = k + 1 := ⟨w - 1, by omega⟩
  simp only [Nat.add_sub_cancel] at ha hb
  obtain ⟨c, hc⟩ := Int.dvd_of_emod_eq_zero h
  have ei : (2 : Int) ^ (k + 1) = 2 * 2 ^ k := by ring
  have hp : (0 : Int) < 2 ^ k := by positivity
  rw [ei] at hc
  have : c = 0 := by
    rcases lt_trichotomy c 0 with hlt | heq | hgt
    · nlinarith
    · exact heq
    · nlinarith
  subst this
  linarith

theorem canonical_signed_bits (w n : Nat) (hw : 0 < w) (h64 : w ≤ 64) :
    (payloadOfInt (toSigned w n)).toNat % 2 ^ w = n % 2 ^ w := by
  have hd : (2 : Int) ^ w ∣ 2 ^ 64 := pow_dvd_pow 2 h64
  have h1 : (((payloadOfInt (toSigned w n)).toNat % 2 ^ w : Nat) : Int) = ((n % 2 ^ w : Nat) : Int) := by
    have hn : (0 : Int) ≤ toSigned w n % 2 ^ 64 := Int.emod_nonneg _ (by positivity)
    simp only [payloadOfInt, BitVec.toNat_ofInt]
    push_cast
    rw [Int.toNat_of_nonneg (by simpa using hn)]
    have h2 := toSigned_agree w n
    have h3 : toSigned w n % 2 ^ 64 % 2 ^ w = toSigned w n % 2 ^ w := Int.emod_emod_of_dvd _ hd
    have h4 : toSigned w n % 2 ^ w = (n : Int) % 2 ^ w := Int.emod_eq_emod_iff_emod_sub_eq_zero.mpr h2
    simpa using h3.trans h4
  exact_mod_cast h1

theorem tagBits_le (t : Tag) : tagBits t ≤ 64 := by cases t <;> decide
theorem tagBits_pos {t : Tag} (h : t.isInt = true) : 0 < tagBits t := by cases t <;> first | decide | cases h
theorem tagBits_pos_of_signed {t : Tag} (h : tagSigned t = true) : 0 < tagBits t := by
  cases t <;> first | decide | cases h

/-- The used bits of a token made from a number. -/
theorem tokBits_mkTok (t : Tag) (n : Nat) : tokBits (mkTok t n) = n % 2 ^ tagBits t := by
  simp only [tokBits, mkTok, canonical]
  split
  · exact canonical_signed_bits _ _ (tagBits_pos_of_signed ‹_›) (tagBits_le t)
  · have h : n % 2 ^ tagBits t < 2 ^ 64 :=
      lt_of_lt_of_le (Nat.mod_lt _ (by positivity)) (Nat.pow_le_pow_right (by norm_num) (tagBits_le t))
    rw [BitVec.toNat_ofNat, Nat.mod_eq_of_lt h, Nat.mod_mod]

/-- The value of an integer token made from a number agrees with it modulo the tag's width. -/
theorem tokInt_mkTok_agree (t : Tag) (n : Nat) : (tokInt (mkTok t n) - (n : Int)) % 2 ^ tagBits t = 0 := by
  have hb := tokBits_mkTok t n
  by_cases hs : tagSigned t = true
  · simp only [tokInt, mkTok_tag, hs, if_true]
    rw [← toSigned_mod]
    simp only [tokBits, mkTok_tag] at hb
    rw [hb, toSigned_mod]
    exact toSigned_agree _ _
  · simp only [tokInt, mkTok_tag, hs, if_false, Bool.false_eq_true]
    rw [hb]
    simp [Int.sub_emod]

theorem tokInt_mkInt_agree (t : Tag) (v : Int) : (tokInt (mkInt t v) - v) % 2 ^ tagBits t = 0 := by
  have h := tokInt_mkTok_agree t (v % 2 ^ tagBits t).toNat
  have hn : (0 : Int) ≤ v % 2 ^ tagBits t := Int.emod_nonneg _ (by positivity)
  rw [Int.toNat_of_nonneg hn] at h
  simp only [mkInt]
  have h2 : (v % 2 ^ tagBits t - v) % 2 ^ tagBits t = 0 := by simp [Int.sub_emod]
  have : tokInt (mkTok t (v % 2 ^ tagBits t).toNat) - v
      = (tokInt (mkTok t (v % 2 ^ tagBits t).toNat) - v % 2 ^ tagBits t) + (v % 2 ^ tagBits t - v) := by ring
  rw [this, Int.add_emod, h, h2]
  simp

/-- An integer token's value lies in its tag's range (R67). -/
theorem tokInt_range (t : Token) (h : t.tag.isInt = true) : intMin t.tag ≤ tokInt t ∧ tokInt t ≤ intMax t.tag := by
  simp only [tokInt, intMin, intMax]
  split
  · have := toSigned_bounds (tagBits t.tag) t.val.toNat (tagBits_pos h)
    constructor
    · exact this.1
    · omega
  · have hb : tokBits t < 2 ^ tagBits t.tag := Nat.mod_lt _ (by positivity)
    have hc : ((2 ^ tagBits t.tag : Nat) : Int) = 2 ^ tagBits t.tag := by push_cast; ring
    constructor
    · omega
    · rw [← hc]; omega

/-- A value in the tag's range is the value of the token made from it. -/
theorem tokInt_mkInt_of_range (t : Tag) (v : Int) (h : t.isInt = true) (h1 : intMin t ≤ v) (h2 : v ≤ intMax t) :
    tokInt (mkInt t v) = v := by
  have ha := tokInt_mkInt_agree t v
  have hr := tokInt_range (mkInt t v) h
  simp only [mkInt_tag] at hr
  have hw := tagBits_pos h
  by_cases hs : tagSigned t = true
  · simp only [intMin, intMax, hs, if_true] at h1 h2 hr
    exact eq_of_agree hw ⟨hr.1, by omega⟩ ⟨h1, by omega⟩ ha
  · simp only [intMin, intMax, hs, if_false, Bool.false_eq_true] at h1 h2 hr
    obtain ⟨c, hc⟩ := Int.dvd_of_emod_eq_zero ha
    have hp : (0 : Int) < 2 ^ tagBits t := by positivity
    have : c = 0 := by
      rcases lt_trichotomy c 0 with hlt | heq | hgt
      · nlinarith
      · exact heq
      · nlinarith
    subst this
    linarith

@[simp] theorem predTok_tag (b : Bool) : (predTok b).tag = .pred := rfl
@[simp] theorem tokTrue_predTok (b : Bool) : tokTrue (predTok b) = b := by cases b <;> decide

end Sys2Proof.Machine
end

