-- ==== Sys2Proof/Tests/Slice0.lean ====
section
/-! SUPPORT. Tests: ill-formed terms that the checks refuse, words written out from the spec's encodings, the spec's worked
examples, and for each statement the states and operands that meet its hypotheses. -/

namespace Sys2Proof.Tests

open Sys2Proof Sys2Proof.Machine

set_option Elab.async false

/-! ### WellFormed refuses -/

theorem test_wf_fields :
    Instr.wf (.retag ⟨none, none, .tern, .always⟩) = false ∧
    Instr.wf (.cvt ⟨none, none, .pred, .always⟩) = false ∧ Instr.wf (.cvtz ⟨none, none, .handle, .always⟩) = false ∧
    Instr.wf (.pld ⟨none, 8#12, .same, .always⟩) = false ∧
    Instr.wf (.shli ⟨none, 64#12, .same, .always⟩) = false ∧ Instr.wf (.shri ⟨none, 0xFFF#12, .same, .always⟩) = false ∧
    Instr.wf (.sari ⟨none, 64#12, .same, .always⟩) = false ∧
    Instr.wf (.trap 2048#12 .always) = false ∧ Instr.wf (.bkpt 0x800#12 .always) = false ∧
    Instr.wf (.syswr 0x800#12 .always) = false ∧ Instr.wf (.prof 0x800#12 .always) = false ∧
    Instr.wf (.sysrd ⟨none, 0x800#12, .same, .always⟩) = false ∧
    Instr.wf (.ld ⟨none, .plain, .poison, 0#5, .always⟩) = false ∧ Instr.wf (.st .plain .bi 0#5 .always) = false ∧
    Instr.wf (.mst .plain .null 0#5 .always) = false ∧
    Instr.wf (.aadd ⟨none, .plain, .i8, 0#5, .always⟩) = false ∧ Instr.wf (.aand ⟨none, .plain, .fp32, 0#5, .always⟩) = false ∧
    Instr.wf (.aswp ⟨none, .plain, .future, 0#5, .always⟩) = false ∧
    Instr.wf (.acas ⟨none, .plain, .fp64, 0#5, .always⟩) = false ∧
    Instr.wf (.lld none .keep .tern 0#5 .always) = false ∧ Instr.wf (.lst .null 0#5 .always) = false ∧
    Instr.wf (.lamo none .cas .i32 0#5 .always) = false ∧ Instr.wf (.lamo none .swp .future 0#5 .always) = false ∧
    Instr.wf (.lamo none .and .fp32 0#5 .always) = false ∧
    Instr.wf (.wload none 3#2 0#2 .always) = false ∧ Instr.wf (.wmma none 3#2 0#2 false .always) = false ∧
    Instr.wf (.cvtt none 0#4 .always) = false := by decide

theorem test_wf_targets :
    Instr.wf (.mov ⟨some ⟨127#7, .x⟩, none, .same, .always⟩) = false ∧
    Instr.wf (.mov ⟨some ⟨1#7, .l⟩, some ⟨1#7, .l⟩, .same, .always⟩) = false ∧
    Instr.wf (.mov ⟨none, none, .next, .always⟩) = false ∧
    Instr.wf (.movi ⟨none, 0#12, .next, .always⟩) = false ∧
    Instr.wf (.read (some ⟨1#7, .l⟩) (some ⟨1#7, .l⟩) 0#6) = false ∧
    Instr.wf (.sel none none .next) = false ∧
    Instr.wf (.cvt ⟨some ⟨1#7, .l⟩, some ⟨1#7, .l⟩, .i8, .always⟩) = false ∧
    Instr.wf (.ld ⟨some ⟨127#7, .x⟩, .plain, .i8, 0#5, .always⟩) = false ∧
    Instr.wf (.aadd ⟨some ⟨1#7, .r⟩, .plain, .i32, 0#5, .always⟩) = false ∧
    Instr.wf (.barr (some ⟨1#7, .p⟩) 0#5 .always) = false ∧
    Instr.wf (.cp none 0#2 false .next .always) = false ∧
    Instr.wf (.launch (some ⟨1#7, .x⟩) .same .always) = false ∧
    Instr.wf (.mov ⟨some ⟨1#7, .l⟩, none, .next, .always⟩) = true := by decide

/-! ### Words by the layouts of R87, field by field -/

theorem test_words_registers :
    decode 0b000001000_111111111_0_111000_0000001#32 = .ok (.read (some ⟨2#7, .l⟩) none 56#6) ∧
    decode 0b000000000000_11111_111111_11_0000010#32 = .ok (.write 31#5 63#6 .onFalse) := by decide

theorem test_words_moves :
    decode 0b000001100_111111001_000_01_10_0000011#32 = .ok (.mov ⟨some ⟨3#7, .l⟩, some ⟨126#7, .r⟩, .next, .onTrue⟩) ∧
    decode 0b000000011_111111111011_00_00_0000100#32 = .ok (.movi ⟨some ⟨0#7, .x⟩, 4091#12, .same, .always⟩) ∧
    decode 0b000100110_111111111_000_00_11_0000101#32 = .ok (.nul ⟨some ⟨9#7, .p⟩, none, .same, .onFalse⟩) ∧
    decode 0b000001100_111111001_000_00_00_0000110#32 = .ok (.sel (some ⟨3#7, .l⟩) (some ⟨126#7, .r⟩) .same) ∧
    decode 0b000001100_111111111_01110_10_0000111#32 = .ok (.retag ⟨some ⟨3#7, .l⟩, none, .fp32, .onTrue⟩) ∧
    decode 0b000001100_000000000111_11_00_0001000#32 = .ok (.pld ⟨some ⟨3#7, .l⟩, 7#12, .prev, .always⟩) ∧
    decode 0b000001100_111111111_000_00_00_0001001#32 = .ok (.tagof ⟨some ⟨3#7, .l⟩, none, .same, .always⟩) := by decide

theorem test_words_branches :
    decode 0b111111111111111111111_10_10_0001010#32 = .ok (.br 0x1FFFFF#21 .next .onTrue) ∧
    decode 0b000000000000000000101_01_00_0001010#32 = .ok (.br 5#21 .call .always) ∧
    decode 0b111111111_111111111_001_00_11_0001011#32 = .ok (.brr true .onFalse) ∧
    decode 0b111111111_111111111_000_00_00_0001100#32 = .ok (.exit .always) ∧
    decode 0b111111111_011111111111_00_10_0001101#32 = .ok (.trap 2047#12 .onTrue) ∧
    decode 0b111111111_000000000001_00_00_0001110#32 = .ok (.bkpt 1#12 .always) ∧
    decode 0b111111111_1011_00000_00100_11_0001111#32 = .ok (.fence .system 4#5 .onFalse) := by decide

theorem test_words_arithmetic :
    decode 0b000001100_111111001_001_10_10_0010000#32 = .ok (.add ⟨some ⟨3#7, .l⟩, some ⟨126#7, .r⟩, .zero, .onTrue⟩ true) ∧
    decode 0b000001100_111111001_000_10_10_0010001#32 = .ok (.sub ⟨some ⟨3#7, .l⟩, some ⟨126#7, .r⟩, .zero, .onTrue⟩ false) ∧
    decode 0b000001100_111111001_001_10_10_0010010#32 = .ok (.mul ⟨some ⟨3#7, .l⟩, some ⟨126#7, .r⟩, .zero, .onTrue⟩ true) ∧
    decode 0b111111001_000100110_000_00_11_0010011#32 = .ok (.mulh ⟨some ⟨126#7, .r⟩, some ⟨9#7, .p⟩, .same, .onFalse⟩) ∧
    decode 0b111111001_000100110_000_00_11_0010100#32 = .ok (.div ⟨some ⟨126#7, .r⟩, some ⟨9#7, .p⟩, .same, .onFalse⟩) ∧
    decode 0b111111001_000100110_000_00_11_0010101#32 = .ok (.rem ⟨some ⟨126#7, .r⟩, some ⟨9#7, .p⟩, .same, .onFalse⟩) ∧
    decode 0b111111001_000100110_000_00_11_0010110#32 = .ok (.fma ⟨some ⟨126#7, .r⟩, some ⟨9#7, .p⟩, .same, .onFalse⟩) ∧
    decode 0b111111001_000100110_000_00_11_0010111#32 = .ok (.min ⟨some ⟨126#7, .r⟩, some ⟨9#7, .p⟩, .same, .onFalse⟩) ∧
    decode 0b111111001_000100110_000_00_11_0011000#32 = .ok (.max ⟨some ⟨126#7, .r⟩, some ⟨9#7, .p⟩, .same, .onFalse⟩) ∧
    decode 0b111111001_000100110_000_00_11_0011001#32 = .ok (.abs ⟨some ⟨126#7, .r⟩, some ⟨9#7, .p⟩, .same, .onFalse⟩) ∧
    decode 0b111111001_000100110_000_00_11_0011010#32 = .ok (.neg ⟨some ⟨126#7, .r⟩, some ⟨9#7, .p⟩, .same, .onFalse⟩) := by decide

theorem test_words_immediates :
    decode 0b000001100_111111111111_00_00_0011011#32 = .ok (.addi ⟨some ⟨3#7, .l⟩, 4095#12, .same, .always⟩) ∧
    decode 0b000001100_000000000010_00_00_0011100#32 = .ok (.muli ⟨some ⟨3#7, .l⟩, 2#12, .same, .always⟩) ∧
    decode 0b000001100_100000000000_00_00_0011110#32 = .ok (.teqi ⟨some ⟨3#7, .l⟩, 2048#12, .same, .always⟩) ∧
    decode 0b000001100_000000000111_00_00_0011111#32 = .ok (.tlti ⟨some ⟨3#7, .l⟩, 7#12, .same, .always⟩) ∧
    decode 0b000001100_011111111111_00_00_0100100#32 = .ok (.andi ⟨some ⟨3#7, .l⟩, 2047#12, .same, .always⟩) ∧
    decode 0b000001100_000000000001_00_00_0100101#32 = .ok (.ori ⟨some ⟨3#7, .l⟩, 1#12, .same, .always⟩) ∧
    decode 0b000001100_111111111111_00_00_0100110#32 = .ok (.xori ⟨some ⟨3#7, .l⟩, 4095#12, .same, .always⟩) ∧
    decode 0b000001100_000000111111_00_00_0101010#32 = .ok (.shli ⟨some ⟨3#7, .l⟩, 63#12, .same, .always⟩) ∧
    decode 0b000001100_000000000001_00_00_0101011#32 = .ok (.shri ⟨some ⟨3#7, .l⟩, 1#12, .same, .always⟩) ∧
    decode 0b000001100_000000000000_00_00_0101100#32 = .ok (.sari ⟨some ⟨3#7, .l⟩, 0#12, .same, .always⟩) := by decide

theorem test_words_logic :
    decode 0b000001100_111111001_101_00_00_0011101#32 = .ok (.tst ⟨some ⟨3#7, .l⟩, some ⟨126#7, .r⟩, .same, .always⟩ .ge) ∧
    decode 0b000001100_111111111_000_01_00_0100000#32 = .ok (.and ⟨some ⟨3#7, .l⟩, none, .next, .always⟩) ∧
    decode 0b000001100_111111111_000_01_00_0100001#32 = .ok (.or ⟨some ⟨3#7, .l⟩, none, .next, .always⟩) ∧
    decode 0b000001100_111111111_000_01_00_0100010#32 = .ok (.xor ⟨some ⟨3#7, .l⟩, none, .next, .always⟩) ∧
    decode 0b000001100_111111111_000_01_00_0100011#32 = .ok (.not ⟨some ⟨3#7, .l⟩, none, .next, .always⟩) ∧
    decode 0b000001100_111111111_000_01_00_0100111#32 = .ok (.shl ⟨some ⟨3#7, .l⟩, none, .next, .always⟩) ∧
    decode 0b000001100_111111111_000_01_00_0101000#32 = .ok (.shr ⟨some ⟨3#7, .l⟩, none, .next, .always⟩) ∧
    decode 0b000001100_111111111_000_01_00_0101001#32 = .ok (.sar ⟨some ⟨3#7, .l⟩, none, .next, .always⟩) ∧
    decode 0b000001100_111111111_000_01_00_0101101#32 = .ok (.clz ⟨some ⟨3#7, .l⟩, none, .next, .always⟩) ∧
    decode 0b000001100_111111111_000_01_00_0101110#32 = .ok (.popc ⟨some ⟨3#7, .l⟩, none, .next, .always⟩) ∧
    decode 0b000001100_111111111_000_01_00_0101111#32 = .ok (.bfx ⟨some ⟨3#7, .l⟩, none, .next, .always⟩) := by decide

theorem test_words_functions :
    decode 0b000100110_111111111_000_00_00_0110000#32 = .ok (.sqrt ⟨some ⟨9#7, .p⟩, none, .same, .always⟩) ∧
    decode 0b000100110_111111111_000_00_00_0110001#32 = .ok (.rcp ⟨some ⟨9#7, .p⟩, none, .same, .always⟩) ∧
    decode 0b000100110_111111111_000_00_00_0110010#32 = .ok (.rsqrt ⟨some ⟨9#7, .p⟩, none, .same, .always⟩) ∧
    decode 0b000100110_111111111_000_00_00_0110011#32 = .ok (.exp2 ⟨some ⟨9#7, .p⟩, none, .same, .always⟩) ∧
    decode 0b000100110_111111111_000_00_00_0110100#32 = .ok (.log2 ⟨some ⟨9#7, .p⟩, none, .same, .always⟩) ∧
    decode 0b000100110_111111111_000_00_00_0110101#32 = .ok (.tanh ⟨some ⟨9#7, .p⟩, none, .same, .always⟩) ∧
    decode 0b000100110_111111111_000_00_00_0111000#32 = .ok (.ldexp ⟨some ⟨9#7, .p⟩, none, .same, .always⟩) ∧
    decode 0b000100110_111111111_000_00_00_0111001#32 = .ok (.fclass ⟨some ⟨9#7, .p⟩, none, .same, .always⟩) ∧
    decode 0b000010000_000010110_10011_00_0110110#32 = .ok (.cvt ⟨some ⟨4#7, .l⟩, some ⟨5#7, .p⟩, .e2m1, .always⟩) ∧
    decode 0b000001100_111111111_00001_10_0110111#32 = .ok (.cvtz ⟨some ⟨3#7, .l⟩, none, .i8, .onTrue⟩) ∧
    decode 0b000001100_111111111_101_00_00_0111010#32 = .ok (.red ⟨some ⟨3#7, .l⟩, none, .same, .always⟩ .xor) ∧
    decode 0b000001100_111111111_000_00_00_1111110#32 = .ok (.self ⟨some ⟨3#7, .l⟩, none, .same, .always⟩) := by decide

theorem test_words_globals :
    decode 0b000001100_1001_01110_00001_00_1000000#32 = .ok (.ld ⟨some ⟨3#7, .l⟩, .ordered .die, .fp32, 1#5, .always⟩) ∧
    decode 0b111111111_1010_00101_00000_00_1000001#32 = .ok (.st (.ordered .device) .i32 0#5 .always) ∧
    decode 0b000001100_0000_00111_11111_10_1000010#32 = .ok (.aadd ⟨some ⟨3#7, .l⟩, .plain, .i64, 31#5, .onTrue⟩) ∧
    decode 0b000001100_0000_00111_11111_10_1000011#32 = .ok (.amin ⟨some ⟨3#7, .l⟩, .plain, .i64, 31#5, .onTrue⟩) ∧
    decode 0b000001100_0000_00111_11111_10_1000100#32 = .ok (.amax ⟨some ⟨3#7, .l⟩, .plain, .i64, 31#5, .onTrue⟩) ∧
    decode 0b000001100_0000_00111_11111_10_1000101#32 = .ok (.aand ⟨some ⟨3#7, .l⟩, .plain, .i64, 31#5, .onTrue⟩) ∧
    decode 0b000001100_0000_00111_11111_10_1000110#32 = .ok (.aor ⟨some ⟨3#7, .l⟩, .plain, .i64, 31#5, .onTrue⟩) ∧
    decode 0b000001100_0000_00111_11111_10_1000111#32 = .ok (.axor ⟨some ⟨3#7, .l⟩, .plain, .i64, 31#5, .onTrue⟩) ∧
    decode 0b000001100_0000_00111_11111_10_1001000#32 = .ok (.aswp ⟨some ⟨3#7, .l⟩, .plain, .i64, 31#5, .onTrue⟩) ∧
    decode 0b000001100_0000_00111_11111_10_1001001#32 = .ok (.acas ⟨some ⟨3#7, .l⟩, .plain, .i64, 31#5, .onTrue⟩) ∧
    decode 0b111111111_0000_00010_00010_11_1001010#32 = .ok (.mst .plain .n8 2#5 .onFalse) ∧
    decode 0b111111111_0000_00000_00011_00_1001011#32 = .ok (.pref 3#5 .always) := by decide

theorem test_words_locals :
    decode 0b000001100_0010_00101_00010_00_1010000#32 = .ok (.lld (some ⟨3#7, .l⟩) .take .i32 2#5 .always) ∧
    decode 0b111111111_0000_00100_00010_00_1010001#32 = .ok (.lst .n16 2#5 .always) ∧
    decode 0b000001100_0110_01011_00010_10_1010010#32 = .ok (.lamo (some ⟨3#7, .l⟩) .swp .handle 2#5 .onTrue) ∧
    decode 0b000001100_0000_00000_00010_00_1010011#32 = .ok (.few (some ⟨3#7, .l⟩) 2#5 .always) ∧
    decode 0b111111111_0000_00000_00010_00_1010100#32 = .ok (.fes 2#5 .always) ∧
    decode 0b111111111_0000_00000_00010_00_1010101#32 = .ok (.binit 2#5 .always) ∧
    decode 0b111111111_0000_00000_00010_00_1010110#32 = .ok (.barr none 2#5 .always) ∧
    decode 0b111111001_0000_00000_11110_11_1010111#32 = .ok (.lsz (some ⟨126#7, .r⟩) 30#5 .onFalse) := by decide

theorem test_words_queues :
    decode 0b000001100_111111111_111_00_00_1100000#32 = .ok (.alloc ⟨some ⟨3#7, .l⟩, none, .same, .always⟩ 7#3) ∧
    decode 0b111111111_111111111_000_00_10_1100001#32 = .ok (.free .onTrue) ∧
    decode 0b111111111_111111111_000_00_00_1100010#32 = .ok (.rels .always) ∧
    decode 0b000001100_111111111_111_00_00_1100011#32 = .ok (.cp (some ⟨3#7, .l⟩) 3#2 true .same .always) ∧
    decode 0b000001100_111111111_001_00_00_1100100#32 = .ok (.cpg (some ⟨3#7, .l⟩) 1#2 .same .always) ∧
    decode 0b111111111_111111111_010_00_00_1100101#32 = .ok (.cps none 2#2 .same .always) ∧
    decode 0b000001100_111111111_111_01_00_1100110#32 = .ok (.pset (some ⟨3#7, .l⟩) 7#3 .next .always) ∧
    decode 0b000001100_111111111_011_00_11_1100111#32 = .ok (.cpp (some ⟨3#7, .l⟩) 3#2 .same .onFalse) ∧
    decode 0b000001100_111111001_010_00_00_1101000#32 = .ok (.twait ⟨some ⟨3#7, .l⟩, some ⟨126#7, .r⟩, .same, .always⟩ 2#2) ∧
    decode 0b000001100_111111001_011_00_00_1101001#32 = .ok (.tread ⟨some ⟨3#7, .l⟩, some ⟨126#7, .r⟩, .same, .always⟩ 3#2) ∧
    decode 0b000001100_111111111_01100_00_1101010#32 = .ok (.wload (some ⟨3#7, .l⟩) 1#2 2#2 .always) ∧
    decode 0b111111111_111111111_10111_00_1101011#32 = .ok (.wmma none 2#2 3#2 true .always) := by decide

theorem test_words_queues_2 :
    decode 0b000001100_111111111_00111_00_1101100#32 = .ok (.cvtt (some ⟨3#7, .l⟩) 7#4 .always) := by decide

theorem test_words_levels :
    decode 0b000001100_111111001_010_00_00_1110000#32 = .ok (.spawn ⟨some ⟨3#7, .l⟩, some ⟨126#7, .r⟩, .same, .always⟩ .any) ∧
    decode 0b111111111_111111111_000_00_00_1110001#32 = .ok (.ref .always) ∧
    decode 0b111111111_111111111_000_00_11_1110010#32 = .ok (.drop .onFalse) ∧
    decode 0b000001100_111111001_000_00_00_1110011#32 = .ok (.await ⟨some ⟨3#7, .l⟩, some ⟨126#7, .r⟩, .same, .always⟩) ∧
    decode 0b000001100_111111111_000_00_00_1110100#32 = .ok (.launch (some ⟨3#7, .l⟩) .same .always) ∧
    decode 0b000001100_111111001_011_00_00_1110101#32 = .ok (.waitc ⟨some ⟨3#7, .l⟩, some ⟨126#7, .r⟩, .same, .always⟩ .job) ∧
    decode 0b111111111_111111111_001_00_00_1110110#32 = .ok (.cancel .graph .always) ∧
    decode 0b000001100_111111111_000_00_00_1110111#32 = .ok (.tnow ⟨some ⟨3#7, .l⟩, none, .same, .always⟩) ∧
    decode 0b000001100_111111111_000_11_00_1111000#32 = .ok (.tickw (some ⟨3#7, .l⟩) .prev .always) ∧
    decode 0b000001100_111111111_000_00_00_1111001#32 = .ok (.swq ⟨some ⟨3#7, .l⟩, none, .same, .always⟩) ∧
    decode 0b111111111_111111111_000_00_00_1111010#32 = .ok (.kvgrow none .same .always) ∧
    decode 0b000001100_011111111111_00_00_1111011#32 = .ok (.sysrd ⟨some ⟨3#7, .l⟩, 2047#12, .same, .always⟩) := by decide

theorem test_words_levels_2 :
    decode 0b111111111_000000010000_00_10_1111100#32 = .ok (.syswr 16#12 .onTrue) ∧
    decode 0b111111111_000000000000_00_00_1111101#32 = .ok (.prof 0#12 .always) := by decide

theorem test_words_refused :
    decode 0b000000001_111111111_000_00_00_0000000#32 = .error (.opcode 0) ∧
    decode 0b000000001_111111111_000_00_00_0111011#32 = .error (.opcode 0x3B) ∧
    decode 0b000000001_111111111_000_00_00_1111111#32 = .error (.opcode 0x7F) ∧
    decode 0b000000001_111111111_000_00_01_0000011#32 = .error .pm ∧
    decode 0b000000001_111111111_001_00_00_0000011#32 = .error .reserved ∧
    decode 0b111111111_111111111_010_00_00_0001011#32 = .error .field ∧
    decode 0b000000001_111111111_110_00_00_0111010#32 = .error .field ∧
    decode 0b000000000000000000000_11_00_0001010#32 = .error .bk := by decide

/-! ### Single steps: a word placed with its ports filled (the spec's worked examples) -/

/-- The firing of a placed word. -/
def f0 : Firing := ⟨0, 0, placedBase, 0⟩

/-- A word on the lane with tokens on L, R, P and X. -/
def st (i : Instr) (l r p x : Token) : State :=
  let s := State.reset.withFetchWord 32 ((encode i).getD 0).toNat
  let tok := fun (e : Port × Token) => (⟨⟨0, 0, placedBase, 0, e.1, e.2, 0, true⟩, 0, .store⟩ : TokEntry)
  { s with wk := { s.wk with toks := [(.l, l), (.r, r), (.p, p), (.x, x)].map tok } }

/-- What a word sends on L, R, X: its tokens in order, and its flags. -/
def outs (i : Instr) (l r x : Token) : List Token × FlagSet :=
  match exec i (st i l r (predTok true) x) with
  | .next u =>
    (u.net.filterMap fun m => match m with | .tokenArrive t => some t.tok | _ => none,
      (((tget u.wk.insts 0).map fun y => y.flags).getD 0))
  | _ => ([], 0)

def g1 : GF := ⟨some ⟨1#7, .l⟩, none, .same, .always⟩
def i1 (v : BitVec 12) : IF := ⟨some ⟨1#7, .l⟩, v, .same, .always⟩
def z : Token := mkTok .i32 0
def yes : Token := predTok true
def no : Token := predTok false

/-- R123's table. -/
theorem test_integer_examples :
    outs (.add g1 true) (mkInt .i8 100) (mkInt .i8 100) z = ([mkInt .i8 127], fSat) ∧
    outs (.add g1 false) (mkInt .i8 100) (mkInt .i8 100) z = ([mkInt .i8 (-56)], 0) ∧
    outs (.sub g1 true) (mkInt .n8 3) (mkInt .n8 5) z = ([mkInt .n8 0], fSat) ∧
    outs (.mulh g1) (mkInt .i32 0x40000000) (mkInt .i32 4) z = ([mkInt .i32 1], 0) ∧
    outs (.div g1) (mkInt .i32 (-7)) (mkInt .i32 2) z = ([mkInt .i32 (-3)], 0) ∧
    outs (.rem g1) (mkInt .i32 (-7)) (mkInt .i32 2) z = ([mkInt .i32 (-1)], 0) ∧
    outs (.div g1) (mkInt .n16 9) (mkInt .n16 0) z = ([mkInt .n16 65535], fDivzero) ∧
    outs (.rem g1) (mkInt .n16 9) (mkInt .n16 0) z = ([mkInt .n16 9], fDivzero) := by decide +kernel

/-- R123: the corner of DIV and REM, FMA, the order of MIN and MAX, ABS and NEG of the minimum. -/
theorem test_integer_corners :
    outs (.div g1) (mkInt .i8 (-128)) (mkInt .i8 (-1)) z = ([mkInt .i8 (-128)], 0) ∧
    outs (.rem g1) (mkInt .i8 (-128)) (mkInt .i8 (-1)) z = ([mkInt .i8 0], 0) ∧
    outs (.mul g1 true) (mkInt .i8 16) (mkInt .i8 (-16)) z = ([mkInt .i8 (-128)], fSat) ∧
    outs (.fma g1) (mkInt .n8 16) (mkInt .n8 16) (mkInt .n8 3) = ([mkInt .n8 3], 0) ∧
    outs (.min g1) (mkInt .i8 (-1)) (mkInt .i8 1) z = ([mkInt .i8 (-1)], 0) ∧
    outs (.max g1) (mkInt .n8 255) (mkInt .n8 1) z = ([mkInt .n8 255], 0) ∧
    outs (.abs g1) (mkInt .i8 (-128)) z z = ([mkInt .i8 (-128)], 0) ∧
    outs (.neg g1) (mkInt .i8 (-128)) z z = ([mkInt .i8 (-128)], 0) := by decide +kernel

/-- R124, R125, R130: immediates, addresses, tests. -/
theorem test_immediate_examples :
    outs (.addi (i1 0xFFF#12)) (mkInt .n8 5) z z = ([mkInt .n8 4], 0) ∧
    outs (.muli (i1 2#12)) (mkInt .i32 21) z z = ([mkInt .i32 42], 0) ∧
    outs (.addi (i1 0xFFF#12)) (mkTok .addr 0) z z = ([mkTok .addr (2 ^ 52 - 1)], 0) ∧
    outs (.sub g1 false) (mkTok .time (5 + 2 ^ 32)) (mkTok .time 6) z = ([mkInt .i64 999999999], 0) ∧
    outs (.tlti (i1 0#12)) (mkInt .n8 255) z z = ([no], 0) ∧
    outs (.teqi (i1 0xFFF#12)) (mkInt .n8 255) z z = ([no], 0) ∧
    outs (.tst g1 .lt) (mkInt .i8 (-1)) (mkInt .i8 0) z = ([yes], 0) ∧
    outs (.tst g1 .lt) (mkInt .n8 255) (mkInt .n8 0) z = ([no], 0) := by decide +kernel

/-- R131 to R134: logic, shifts, counts, the field examples of BFX. -/
theorem test_bit_examples :
    outs (.xor g1) (mkInt .n8 0xF0) (mkInt .n8 0xFF) z = ([mkInt .n8 0x0F], 0) ∧
    outs (.not g1) no z z = ([yes], 0) ∧
    outs (.andi (i1 0xFFE#12)) (mkInt .n8 0xFF) z z = ([mkInt .n8 0xFE], 0) ∧
    outs (.shr g1) (mkInt .i8 (-1)) (mkInt .i8 1) z = ([mkInt .i8 127], 0) ∧
    outs (.shl g1) (mkInt .n8 1) (mkInt .i8 (-1)) z = ([mkInt .n8 0], 0) ∧
    outs (.sar g1) (mkInt .i8 (-2)) (mkInt .n8 8) z = ([mkInt .i8 (-1)], 0) ∧
    outs (.sari (i1 1#12)) (mkInt .i8 (-2)) z z = ([mkInt .i8 (-1)], 0) ∧
    outs (.clz g1) (mkInt .n16 1) z z = ([mkInt .i32 15], 0) ∧
    outs (.popc g1) (mkInt .i8 (-1)) z z = ([mkInt .i32 8], 0) ∧
    outs (.bfx g1) (mkInt .n32 0xB5A0) (mkInt .i32 4) (mkInt .i32 8) = ([mkInt .n32 0x5A], 0) ∧
    outs (.bfx g1) (mkInt .i32 0xB5A0) (mkInt .i32 4) (mkInt .i32 8) = ([mkInt .i32 90], 0) ∧
    outs (.bfx g1) (mkInt .n32 0xB5A0) (mkInt .i32 12) (mkInt .i32 4) = ([mkInt .n32 0xB], 0) ∧
    outs (.bfx g1) (mkInt .i32 0xB5A0) (mkInt .i32 12) (mkInt .i32 4) = ([mkInt .i32 (-5)], 0) := by decide +kernel

/-- R65, R110 to R115: moves, NULL and POISON, the choice of SEL, RETAG and CVT of the example. -/
theorem test_move_examples :
    outs (.movi (i1 0xFFB#12)) z z z = ([mkInt .i32 (-5)], 0) ∧
    outs (.nul g1) z z z = ([nullTok], 0) ∧
    outs (.nul g1) poisonTok z z = ([poisonTok], 0) ∧
    outs (.add g1 false) nullTok poisonTok z = ([poisonTok], 0) ∧
    outs (.sel (some ⟨1#7, .l⟩) none .same) (mkInt .i8 1) (mkTok .addr 2) z = ([mkInt .i8 1], 0) ∧
    outs (.sel (some ⟨1#7, .l⟩) none .same) (mkInt .i8 1) nullTok z = ([nullTok], 0) ∧
    outs (.retag ⟨some ⟨1#7, .l⟩, none, .fp32, .always⟩) (mkTok .i32 0x3FC00000) z z = ([mkTok .fp32 0x3FC00000], 0) ∧
    outs (.cvt ⟨some ⟨1#7, .l⟩, none, .fp32, .always⟩) (mkTok .i32 0x3FC00000) z z = ([mkTok .fp32 0x4E7F0000], 0) ∧
    outs (.tagof g1) z z z = ([mkInt .i32 0], 0) := by decide +kernel

/-- R126, R127: the examples of BF16 and FP32, the special cases. -/
theorem test_float_examples :
    outs (.add g1 false) (mkTok .bf16 0x3F80) (mkTok .bf16 0x3B80) z = ([mkTok .bf16 0x3F80], fInexact) ∧
    outs (.add g1 false) (mkTok .fp32 0x3F800000) (mkTok .fp32 0x3B800000) z = ([mkTok .fp32 0x3F808000], 0) ∧
    outs (.add g1 false) (mkTok .fp32 0x7F800000) (mkTok .fp32 0xFF800000) z = ([mkTok .fp32 0x7FC00000], fInvalid) ∧
    outs (.div g1) (mkTok .fp32 0xBF800000) (mkTok .fp32 0) z = ([mkTok .fp32 0xFF800000], fDivzero) ∧
    outs (.fma g1) (mkTok .fp32 0) (mkTok .fp32 0x7F800000) (mkTok .fp32 0x7FC00000) = ([mkTok .fp32 0x7FC00000], fInvalid) ∧
    outs (.min g1) (mkTok .fp32 0) (mkTok .fp32 0x80000000) z = ([mkTok .fp32 0x80000000], 0) ∧
    outs (.neg g1) (mkTok .fp32 0) z z = ([mkTok .fp32 0x80000000], 0) ∧
    outs (.ldexp g1) (mkTok .fp32 0x3F800000) (mkInt .i32 (-1)) z = ([mkTok .fp32 0x3F000000], 0) := by decide +kernel

/-- R136: special values of the functions; R72, R73: conversions that saturate. -/
theorem test_function_examples :
    outs (.sqrt g1) (mkTok .fp32 0x80000000) z z = ([mkTok .fp32 0x80000000], 0) ∧
    outs (.sqrt g1) (mkTok .fp32 0x40800000) z z = ([mkTok .fp32 0x40000000], 0) ∧
    outs (.rcp g1) (mkTok .fp32 0x80000000) z z = ([mkTok .fp32 0xFF800000], fDivzero) ∧
    outs (.rsqrt g1) (mkTok .fp32 0x40800000) z z = ([mkTok .fp32 0x3F000000], 0) ∧
    outs (.exp2 g1) (mkTok .fp32 0x40400000) z z = ([mkTok .fp32 0x41000000], 0) ∧
    outs (.log2 g1) (mkTok .fp32 0x3F800000) z z = ([mkTok .fp32 0], 0) ∧
    outs (.tanh g1) (mkTok .fp32 0xFF800000) z z = ([mkTok .fp32 0xBF800000], 0) ∧
    outs (.cvt ⟨some ⟨1#7, .l⟩, some ⟨2#7, .p⟩, .i8, .always⟩) (mkInt .i32 300) z z = ([mkInt .i8 127, yes], fSat ||| fInexact) ∧
    outs (.cvt ⟨some ⟨1#7, .l⟩, some ⟨2#7, .p⟩, .e2m1, .always⟩) (mkTok .fp32 0x40240000) z z = ([mkTok .e2m1 5, no], fInexact) ∧
    outs (.cvtz ⟨some ⟨1#7, .l⟩, some ⟨2#7, .p⟩, .i8, .always⟩) (mkTok .fp32 0xBFC00000) z z = ([mkInt .i8 (-1), no], fInexact) := by
  decide +kernel

/-! ### What the statements ask of a state, as checks that evaluate -/

def onLaneB (s : State) (f : Firing) (i : Instr) : Bool := decide (s.wk.issue.head? = some f) && canFire s f i

def predIs (s : State) (f : Firing) (i : Instr) (m : Bool) : Bool :=
  match Instr.predicate i with
  | .always => m
  | .onTrue => decide ((portD s f .p).tag = .pred) && decide (tokTrue (portD s f .p) = m)
  | .onFalse => decide ((portD s f .p).tag = .pred) && decide (tokTrue (portD s f .p) = !m)

def cleanB (s : State) (f : Firing) (i : Instr) : Bool :=
  (Instr.dataPorts i).all fun q =>
    decide ((portD s f q).tag ≠ .null) && decide ((portD s f q).tag = .poison → q ∈ carriesPoison i)

def firesB (s : State) (f : Firing) (i : Instr) : Bool := onLaneB s f i && predIs s f i true && cleanB s f i

theorem onLane_iff {s f i} : OnLane s f i ↔ onLaneB s f i = true := by simp [OnLane, onLaneB]

theorem matches_iff {s f i} : Matches s f i ↔ predIs s f i true = true := by
  unfold Matches predIs; cases Instr.predicate i <;> simp

theorem mismatches_iff {s f i} : Mismatches s f i ↔ predIs s f i false = true := by
  unfold Mismatches predIs; cases Instr.predicate i <;> simp

theorem clean_iff {s f i} : Clean s f i ↔ cleanB s f i = true := by simp [Clean, cleanB, imp_iff_not_or]

theorem fires_iff {s f i} : Fires s f i ↔ firesB s f i = true := by
  simp only [firesB, Bool.and_eq_true, ← onLane_iff, ← matches_iff, ← clean_iff]
  exact ⟨fun h => ⟨⟨h.lane, h.matched⟩, h.clean⟩, fun h => ⟨h.1.1, h.1.2, h.2⟩⟩

theorem meetsPoison_iff {s f i} : MeetsPoison s f i ↔ ∃ q ∈ Instr.ports i, (portD s f q).tag = .poison := Iff.rfl

theorem meetsNull_iff {s f i} : MeetsNull s f i ↔
    (¬ ∃ q ∈ Instr.ports i, (portD s f q).tag = .poison) ∧ ∃ q ∈ Instr.ports i, (portD s f q).tag = .null := Iff.rfl

def canonB (s : State) : Bool :=
  Memory.wf s.gm.hbm && Memory.wf s.ls.bytes && twf 0 s.ls.gst && twf 0 s.ls.gst1 && twf 0 s.ls.gst2 && tsorted none s.wk.insts && tsorted none s.wk.tasks &&
  s.wk.tasks.all (fun e => tsorted none e.2.regs) && tsorted none s.wk.cooling && tsorted none s.al.recs &&
  tsorted none s.en.ctxs && tsorted none s.en.leaves && tsorted none s.cf.slots &&
  tsorted none s.jb.jobs && tsorted none s.jb.launches && tsorted none s.tm.ticks && tsorted none s.tm.streams &&
  tsorted none s.sr.ovp && tsorted none s.sr.viCtl && tsorted none s.sr.badnode && tsorted none s.bt.flashBad &&
  tsorted none s.sr.perfSel && tsorted none s.sr.perfCnt && tsorted none s.sr.trigger && tsorted none s.sr.streamSel &&
  tsorted none s.fw.mailbox && tsorted none s.fw.grants && tsorted none s.sh.active && tsorted none s.sh.saved &&
  tsorted none s.bt.throttle && tsorted none s.gm.tlb && tsorted none s.ls.scrub && tsorted none s.ls.upset

theorem canonical_iff {s : State} : Canonical s ↔ canonB s = true := by
  simp only [canonB, Bool.and_eq_true, List.all_eq_true, and_assoc]
  exact ⟨fun ⟨a, b, c, d, e, f, g, h, i, j, k, l, m, n, o, p, q, r, t, u, v, w, x, y, z, a1, b1, c1, d1, e1, f1, g1, h1⟩ =>
      ⟨a, b, c, d, e, f, g, h, i, j, k, l, m, n, o, p, q, r, t, u, v, w, x, y, z, a1, b1, c1, d1, e1, f1, g1, h1⟩,
    fun ⟨a, b, c, d, e, f, g, h, i, j, k, l, m, n, o, p, q, r, t, u, v, w, x, y, z, a1, b1, c1, d1, e1, f1, g1, h1⟩ =>
      ⟨a, b, c, d, e, f, g, h, i, j, k, l, m, n, o, p, q, r, t, u, v, w, x, y, z, a1, b1, c1, d1, e1, f1, g1, h1⟩⟩

/-! ### Witnesses: states and operands that meet the hypotheses of each statement -/

def g0 : GF := ⟨none, none, .same, .always⟩
def n32' (v : Int) : Token := mkInt .i32 v
def hi8 : Token := mkInt .i8 100
def adr : Token := mkTok .addr 0x10000
def hnd : Token := mkTok .handle 0

theorem witness_DecodeEncode : Instr.wf (.add g1 true) = true ∧ Instr.cls (.add g1 true) ≠ .event := by decide

theorem witness_DecodedIsEncoded : decode 0x067FC910#32 = .ok (.add ⟨some ⟨3#7, .l⟩, none, .same, .onTrue⟩ true) := by
  decide

theorem witness_StepRunsWord :
    let s := st (.mov g1) z z yes z
    let u := State.reset.withFetchWord 32 0
    runs s = true ∧ s.wk.issue = [f0] ∧ wordAt s 0 placedBase 0 = encode (.mov g1) ∧
      (encode (.mov g1)).map decode = some (.ok (.mov g1)) ∧
    runs u = true ∧ u.wk.issue = [f0] ∧ wordAt u 0 placedBase 0 = some 0#32 ∧ decode 0#32 = .error (.opcode 0) ∧
      (instAt u 0 0).map (fun x => x.block) = some placedBase := by decide +kernel

theorem witness_StepTakesChoice :
    let s := { State.reset with inp := [⟨none, .bindRecordWrite 0 0 0⟩], net := [.returnValueArrive ⟨0, 0, 0, none, z, 0⟩] }
    (runs s = true ∧ s.wk.issue = [] ∧ ∀ i ∈ s.inp, taken s i = true) ∧
    (∀ a ∈ [Act.pass, .input (.bindRecordWrite 0 0 0), .message (.returnValueArrive ⟨0, 0, 0, none, z, 0⟩),
      .event (.scrubRow 0)], a ∈ acts s) ∧
    let o : Origin := ⟨0, 0, 0, 0, 0, 0, 0, 0, 0⟩
    let c : Cmd := { num := 1, tid := 0, order := 0, seq := 0, origin := o, kind := .cpp 0 0 1 0 0, issued := 0, started := true }
    Act.move 64 ∈ acts { State.reset with en := { ctxs := [(64, { queue := [c] })] } } ∧
    Act.retry f0 ∈ acts { State.reset with wk := { waits := [(f0, .order)] } } ∧
    Act.attempt 3 ∈ acts { State.reset with al := { arenas := [(3, { due := [0] })] } } ∧
    Act.remote 7 ∈ acts { State.reset with wk := { remotes := [{ num := 7, r := ⟨0, 0, 0, z, z⟩ }] } } := by decide +kernel

theorem witness_StoppedPart :
    let s := { State.reset with bt := { ready := false } }
    runs s = false ∧ s.inp = [] ∧ s.bt.stopped = false ∧ stoppedTakes s (.clockRestore 0) = false ∧
    stoppedTakes { s with bt := { s.bt with stopped := true } } .startLogRead = false ∧
    routed s ⟨some 3, .reset []⟩ = true ∧ routed s ⟨none, .startLogRead⟩ = true ∧
    routed { s with bt := { s.bt with ports := [(0, 3)] } } ⟨some 3, .startLogRead⟩ = false := by decide +kernel

theorem witness_ValueWordSends :
    let s := st (.add g1 true) hi8 hi8 yes z
    Fires s f0 (.add g1 true) ∧ valueOf s f0 (.add g1 true) = some (.send (mkInt .i8 127) (mkInt .i8 127) fSat) := by
  simp only [fires_iff]; decide +kernel

theorem witness_ValueWordAbsorbsOrFaults :
    let c : Instr := .add ⟨none, none, .same, .onTrue⟩ false
    (OnLane (st c poisonTok nullTok yes z) f0 c ∧ MeetsPoison (st c poisonTok nullTok yes z) f0 c) ∧
    (OnLane (st c z nullTok yes z) f0 c ∧ MeetsNull (st c z nullTok yes z) f0 c) ∧
    (OnLane (st c z z no z) f0 c ∧ Clean (st c z z no z) f0 c ∧ Mismatches (st c z z no z) f0 c) ∧
    (OnLane (st c z z z z) f0 c ∧ Clean (st c z z z z) f0 c ∧ (portD (st c z z z z) f0 .p).tag = .i32) ∧
    (Fires (st c z hi8 yes z) f0 c ∧ valueOf (st c z hi8 yes z) f0 c = some .format) := by
  simp only [fires_iff, onLane_iff, clean_iff, mismatches_iff, meetsPoison_iff, meetsNull_iff]; decide +kernel

theorem witness_MoveAndSelectWords :
    let c : CF := ⟨some ⟨1#7, .l⟩, none, .future, .always⟩
    let x : Instr := .sel (some ⟨1#7, .l⟩) none .same
    let at_ := fun (i : Instr) => Fires (st i hi8 z yes z) f0 i ∧ tagTile (portD (st i hi8 z yes z) f0 .l).tag = false
    at_ (.mov g1) ∧ at_ (.movi (i1 0#12)) ∧ at_ (.nul g1) ∧ at_ (.tagof g1) ∧ at_ (.retag ⟨none, none, .fp32, .always⟩) ∧
    (OnLane (st (.nul g1) poisonTok z yes z) f0 (.nul g1) ∧ (portD (st (.nul g1) poisonTok z yes z) f0 .l).tag = .poison) ∧
    (Fires (st (.retag c) z z yes z) f0 (.retag c) ∧ (portD (st (.retag c) z z yes z) f0 .l).tag ≠ .future) ∧
    (OnLane (st x z poisonTok yes z) f0 x ∧ MeetsPoison (st x z poisonTok yes z) f0 x) ∧
    (OnLane (st x z nullTok yes z) f0 x ∧ MeetsNull (st x z nullTok yes z) f0 x) ∧
    (OnLane (st x z z z z) f0 x ∧ ¬ MeetsPoison (st x z z z z) f0 x ∧ ¬ MeetsNull (st x z z z z) f0 x ∧
      (portD (st x z z z z) f0 .p).tag ≠ .pred) ∧
    (∀ p ∈ [yes, no], OnLane (st x z hi8 p z) f0 x ∧ ¬ MeetsPoison (st x z hi8 p z) f0 x ∧
      ¬ MeetsNull (st x z hi8 p z) f0 x ∧ (portD (st x z hi8 p z) f0 .p).tag = .pred ∧
      tagTile (portD (st x z hi8 p z) f0 .l).tag = false ∧ tagTile (portD (st x z hi8 p z) f0 .r).tag = false) := by
  simp only [fires_iff, onLane_iff, meetsPoison_iff, meetsNull_iff]; decide +kernel

theorem witness_IntegerArithmetic :
    ∀ i ∈ [Instr.add g1 true, .sub g1 false, .mul g1 true, .mulh g1, .div g1, .rem g1, .fma g1, .min g1, .max g1, .abs g1,
        .neg g1],
      let s := st i (mkInt .i8 (-128)) (mkInt .i8 0) yes hi8
      let x := st i (mkInt .i8 (-128)) (mkInt .i8 0) yes (mkInt .i8 1)
      Fires s f0 i ∧ Fires x f0 i ∧ Tag.isInt .i8 = true ∧ (∀ q ∈ Instr.dataPorts i, (portD s f0 q).tag = .i8) ∧
        (intSpec i .i8 (tokInt (portD s f0 .l)) (tokInt (portD s f0 .r)) (tokInt (portD s f0 .x))).isSome = true := by
  simp only [fires_iff]; decide +kernel

theorem witness_ImmediateAndAddressArithmetic :
    let at_ := fun (i : Instr) (l r : Token) =>
      Fires (st i l r yes z) f0 i ∧ (portD (st i l r yes z) f0 .l).tag = l.tag ∧ (portD (st i l r yes z) f0 .r).tag = r.tag
    let tim := mkTok .time 6
    let fp := mkTok .fp32 0
    at_ (.addi (i1 0x800#12)) hi8 z ∧ at_ (.muli (i1 0x7FF#12)) hi8 z ∧ at_ (.addi (i1 1#12)) adr z ∧
    at_ (.addi (i1 1#12)) tim z ∧ at_ (.addi (i1 1#12)) fp z ∧ tagFloat fp.tag = true ∧ at_ (.muli (i1 1#12)) fp z ∧
    at_ (.muli (i1 1#12)) tim z ∧ at_ (.add g1 true) adr z ∧ at_ (.add g1 false) z adr ∧ at_ (.sub g1 false) adr z ∧
    at_ (.sub g1 false) tim tim ∧ at_ (.sub g1 false) adr adr ∧ at_ (.add g1 false) adr adr ∧
    (let far := mkInt .i64 (-2 ^ 63)
     at_ (.add g1 false) tim far ∧ at_ (.add g1 true) far tim ∧ at_ (.sub g1 false) tim far) ∧
    at_ (.add g1 false) adr tim ∧ at_ (.add g1 false) tim tim ∧ at_ (.sub g1 false) z adr ∧ at_ (.sub g1 false) hi8 tim := by
  simp only [fires_iff]; decide +kernel

theorem witness_TestAndLogicWords :
    let at_ := fun (i : Instr) (l r : Token) =>
      Fires (st i l r yes z) f0 i ∧ (portD (st i l r yes z) f0 .l).tag = l.tag ∧ (portD (st i l r yes z) f0 .r).tag = r.tag
    let tim := mkTok .time 6
    at_ (.tst g1 .ge) hi8 hi8 ∧ at_ (.tst g1 .lt) adr adr ∧ at_ (.tst g1 .lt) tim tim ∧
    at_ (.teqi (i1 0x800#12)) hi8 z ∧ at_ (.tlti (i1 0x800#12)) hi8 z ∧ at_ (.teqi (i1 0#12)) adr z ∧
    at_ (.tlti (i1 0#12)) (mkTok .fp32 0) z ∧ tagFloat .fp32 = true ∧
    (∀ cc ∈ [Cmp.eq, .ne, .lt, .le, .gt, .ge, .un, .ord], at_ (.tst g1 cc) (mkTok .fp64 0) (mkTok .fp64 (2 ^ 63)) ∧
      at_ (.tst g1 cc) (mkTok .fp16 0x7D00) (mkTok .fp16 0x3C00)) ∧
    (kindOf (mkTok .fp64 (2 ^ 63)) = .zero true ∧ kindOf (mkTok .fp16 0x7D00) = .nan true ∧ kindOf (mkTok .fp16 0x3C00) = .num false) ∧
    at_ (.tst g1 .eq) hi8 z ∧ at_ (.tst g1 .ne) yes yes ∧
    (∀ i ∈ [Instr.and g1, .or g1, .xor g1, .not g1, .andi (i1 0#12), .ori (i1 0#12), .xori (i1 0#12)],
      at_ i hi8 hi8 ∧ at_ i yes yes) := by
  simp only [fires_iff]; decide +kernel

theorem witness_ShiftAndBitWords :
    let at_ := fun (i : Instr) (r x : Token) =>
      let s := st i (mkInt .i8 (-1)) r yes x
      Fires s f0 i ∧ (portD s f0 .l).tag = .i8 ∧ (portD s f0 .r).tag.isInt = true ∧ (portD s f0 .x).tag.isInt = true
    (∀ i ∈ [Instr.shl g1, .shr g1, .sar g1, .shli (i1 8#12), .shri (i1 7#12), .sari (i1 63#12), .clz g1, .popc g1],
      at_ i (mkInt .i8 7) z ∧ at_ i (mkInt .i8 8) z ∧ at_ i (mkInt .i8 (-1)) z) ∧
    at_ (.bfx g1) (mkInt .i8 7) (mkInt .i8 127) ∧ at_ (.bfx g1) (mkInt .i8 8) (mkInt .i8 1) ∧ at_ (.bfx g1) z z := by
  simp only [fires_iff]; decide +kernel

theorem witness_ConversionsAndSpecialValues :
    let at_ := fun (i : Instr) (l : Token) => Fires (st i l z yes z) f0 i ∧ (portD (st i l z yes z) f0 .l) = l
    let c : CF := ⟨none, none, .n8, .always⟩
    (∀ i ∈ [Instr.cvt c, .cvtz c], at_ i (mkInt .i32 255) ∧ at_ i (mkInt .i32 (-1)) ∧ at_ i (mkInt .i32 256)) ∧
    intMin .n8 = 0 ∧ intMax .n8 = 255 ∧
    (∀ i ∈ [Instr.sqrt g1, .rcp g1, .rsqrt g1, .exp2 g1, .log2 g1, .tanh g1],
      at_ i (mkTok .fp32 0x7FC00000) ∧ (specialResult i (tokFVal (mkTok .fp32 0x7FC00000))).isSome = true) ∧
    (∀ i ∈ [Instr.sqrt g1, .rcp g1, .rsqrt g1, .log2 g1, .tanh g1],
      at_ i (mkTok .bf16 0x8000) ∧ (specialResult i (tokFVal (mkTok .bf16 0x8000))).isSome = true) ∧
    (∀ i ∈ [Instr.sqrt g1, .rcp g1, .rsqrt g1, .exp2 g1, .log2 g1],
      at_ i (mkTok .fp16 0xFC00) ∧ (specialResult i (tokFVal (mkTok .fp16 0xFC00))).isSome = true) ∧
    at_ (.sqrt g1) (mkTok .fp64 0) ∧ (specialResult (.sqrt g1) (tokFVal (mkTok .fp64 0))).isSome = true ∧
    (let inf := mkTok .fp32 0x7F800000
     let nan := mkTok .fp32 0x7FA00000
     let a := mkTok .fp32 0x3F800000
     let b := mkTok .fp32 0xBF800000
     let on := fun (i : Instr) (l r x : Token) => Fires (st i l r yes x) f0 i ∧ tagFloat (portD (st i l r yes x) f0 .l).tag = true ∧
       (i = .ldexp g1 ∨ ∀ q ∈ Instr.dataPorts i, (portD (st i l r yes x) f0 q).tag = l.tag)
     (∀ i ∈ [Instr.add g1 false, .sub g1 true, .mul g1 false, .div g1, .fma g1, .min g1, .max g1, .abs g1, .neg g1],
       on i nan a a ∧ (kindResult i (kindOf nan) (kindOf a) (kindOf a)).isSome = true) ∧
     (∀ i ∈ [Instr.add g1 false, .sub g1 true, .mul g1 false, .div g1, .fma g1, .abs g1, .neg g1],
       on i inf a b ∧ (kindResult i (kindOf inf) (kindOf a) (kindOf b)).isSome = true) ∧
     on (.fclass g1) nan z z ∧
     (on (.ldexp g1) inf (n32' 1) z ∧ kindResult (.ldexp g1) (kindOf inf) (kindOf z) (kindOf z) = some (.inf false, 0)) ∧
     (on (.ldexp g1) a (n32' 4096) z ∧ on (.ldexp g1) b (n32' (-4096)) z ∧ kindOf a = .num false ∧ kindOf b = .num true) ∧
     (on (.add g1 false) a b z ∧ floatKey a + floatKey b = 0) ∧ (on (.sub g1 false) b b z ∧ floatKey b = floatKey b) ∧
     (∀ i ∈ [Instr.min g1, .max g1], on i a b z ∧ on i (mkTok .fp32 0) (mkTok .fp32 0x80000000) z) ∧
     (∀ i ∈ [Instr.abs g1, .neg g1], on i b z z ∧ (kindOf b).isNan = false)) := by
  simp only [fires_iff]; and_intros <;> decide +kernel

/-- The task with the word runs a loop. -/
def looped (s : State) (ordered : Bool) (first : Nat) : State := { s with
  wk := { s.wk with tasks := tmod s.wk.tasks 0 fun t => { t with loop := some ⟨ordered, first, [], []⟩ } } }

theorem witness_ReadsAndWrites :
    let r : Instr := .read (some ⟨1#7, .l⟩) none 63#6
    let w := fun (pm : Pm) => Instr.write 0#5 0#6 pm
    let s := st r z z yes z
    let v := { looped s true 65535 with wk := { (looped s true 65535).wk with
      insts := [(0, { block := placedBase }), (65535, { iter := 65535, block := placedBase })] } }
    let lost := { s with
      al := { s.al with recs := [(0, { live := true, len1 := 64 })] }, ls := { s.ls with upset := [(15, [(0, 1), (2, 1), (4, 1)])] } }
    (OnLane s f0 r ∧ readValue s f0 63 = .value nullTok ∧ (taskD s 0).loop = none ∧ s.ls.upset = [] ∧ regGranules s 0 63 = []) ∧
    (OnLane lost f0 r ∧ readValue lost f0 63 = .value nullTok ∧ readsCommitted lost f0 63 = true ∧
      regGranules lost 0 63 = [.here 31, .here 35] ∧ (regGranules lost 0 63).any (unreadable lost) = true) ∧
    (OnLane (looped s false 0) f0 r ∧ ((taskD (looped s false 0) 0).loop.map fun l => l.ordered) = some false) ∧
    (OnLane v f0 (.read none none 61#6) ∧ readValue v f0 61 = .wait) ∧
    (Fires (st (w .always) z z yes z) f0 (w .always) ∧ tagTile z.tag = false) ∧
    (OnLane (st (w .onTrue) nullTok z poisonTok z) f0 (w .onTrue) ∧
      (portD (st (w .onTrue) nullTok z poisonTok z) f0 .p).tag = .poison) ∧
    (OnLane (st (w .always) nullTok z yes z) f0 (w .always) ∧ MeetsNull (st (w .always) nullTok z yes z) f0 (w .always)) ∧
    (OnLane (st (w .onFalse) poisonTok z yes z) f0 (w .onFalse) ∧ (portD (st (w .onFalse) poisonTok z yes z) f0 .l).tag ≠ .null ∧
      Mismatches (st (w .onFalse) poisonTok z yes z) f0 (w .onFalse)) ∧
    (Fires (st (w .onFalse) (mkTok .e2m1 0) z no z) f0 (w .onFalse) ∧
      tagTile (portD (st (w .onFalse) (mkTok .tern 0) z no z) f0 .l).tag = true) := by
  simp only [fires_iff, onLane_iff, meetsNull_iff, mismatches_iff]; decide +kernel

/-- The instance with the word, changed. -/
def withInst (s : State) (u : Inst → Inst) : State := { s with wk := { s.wk with insts := tmod s.wk.insts 0 u } }

theorem witness_BranchesResolve :
    let at_ := fun (i : Instr) (l : Token) => Fires (st i l z yes z) f0 i ∧ (portD (st i l z yes z) f0 .l).tag = l.tag ∧
      (instAt (st i l z yes z) 0 0).map (fun x => x.branch) = some none
    let twice := fun (i : Instr) (l : Token) => Fires (withInst (st i l z yes z) fun x => { x with branch := some (.goto 0 false) }) f0 i
    let one := fun (i : Instr) (l p : Token) => OnLane (st i l z p z) f0 i ∧
      (instAt (st i l z p z) 0 0).map (fun x => (x.branch, x.tid, x.iter)) = some (none, 0, 0) ∧
      ((instAt (st i l z p z) 0 0).bind fun x => blkOf (st i l z p z) x).isSome = true ∧
      ∀ x ∈ (instAt (st i l z p z) 0 0).toList, ∀ e ∈ blockSlots (st i l z p z) x, Instr.cls e.2 = .branch → e.1 = f0.slot
    let c : Instr := .brr true .onTrue
    (∀ e ∈ ([(.br 0x0FFFFF#21 .jump .always, z), (.br 0x100000#21 .call .always, z), (.br 0#21 .next .onTrue, z),
      (.brr false .always, adr), (.brr true .always, z), (.exit .always, poisonTok), (.exit .always, z),
      (.exit .always, mkTok .future 0), (.exit .always, mkTok .tern 0), (.br 0#21 .next .always, mkTok .tern 0)] :
      List (Instr × Token)), at_ e.1 e.2) ∧ tagTile .tern = true ∧
    (∀ e ∈ ([(.br 0#21 .jump .always, z), (.brr true .always, adr), (.exit .always, z)] : List (Instr × Token)),
      twice e.1 e.2) ∧
    (one c nullTok yes ∧ MeetsNull (st c nullTok z yes z) f0 c) ∧
    (one c adr no ∧ Clean (st c adr z no z) f0 c ∧ Mismatches (st c adr z no z) f0 c) := by
  simp only [fires_iff, onLane_iff, meetsNull_iff, mismatches_iff, clean_iff]; decide +kernel

theorem witness_RedReduces :
    let i : Instr := .red g1 .add
    let at_ := fun (s : State) => OnLane s f0 i ∧ Matches s f0 i
    let done : Red := ⟨0, placedBase, 0, 0, 1, .i32, .add, [(0, mkTok .i32 7)], none, [], []⟩
    let s := st i z (mkTok .i32 1) yes z
    let r := { s with wk := { s.wk with reds := [done] } }
    let w := fun (m : Token) => { st i z m yes z with wk := { (st i z m yes z).wk with
      toks := (st i z m yes z).wk.toks.filter fun e => e.msg.port ≠ .l } }
    (at_ r ∧ redAt r 0 placedBase 0 0 = some done ∧ done.toks.length = done.n ∧ done.sent = none ∧ (redResult done).2 = 0) ∧
    (at_ (w z) ∧ tokInt z = 0 ∧ redAt (w z) 0 placedBase 0 0 = none) ∧
    (at_ (w (mkTok .i32 65536)) ∧ redAt (w (mkTok .i32 65536)) 0 placedBase 0 0 = none ∧
      redWaiting (w (mkTok .i32 65536)) f0 65536 = []) ∧
    (at_ (w poisonTok) ∧ (portD (w poisonTok) f0 .r).tag = .poison) ∧
    (at_ (w nullTok) ∧ (portD (w nullTok) f0 .r).tag = .null) ∧
    (at_ (w (mkTok .i32 65537)) ∧ tokInt (portD (w (mkTok .i32 65537)) f0 .r) = 65537) ∧
    (at_ (w adr) ∧ (portD (w adr) f0 .r).tag.isInt = false) ∧
    (let u := { w z with wk := { (w z).wk with issue := [], toks := [], reds := [done] } }
     let v := { u with wk := { u.wk with reds := [{ done with stale := [0] }] } }
     let m : TokMsg := ⟨0, 0, placedBase, 0, .l, mkTok .i32 9, 0, false⟩
     let e := { u with wk := { u.wk with reds := [{ done with toks := [] }] } }
     (instrAt u 0 placedBase 0 = some i ∧ markedAt u (taskD u 0).graph (cellOf u (taskD u 0) placedBase 0) = false ∧
       redTagOk .add m.tok.tag = true ∧ redTagOk .add .pred = false ∧ redCovering u m = some done ∧ (tget done.toks 0).isSome = true ∧
       iterRank 0 m.iter = 0 ∧ (instAt u 0 0).map (fun x => x.block) = some placedBase) ∧
     redCovering v m = some { done with stale := [0] } ∧ redAt v 0 placedBase 0 0 = some { done with stale := [0] } ∧
     redCovering e m = some { done with toks := [] } ∧ tsorted none done.toks = true) := by
  simp only [onLane_iff, matches_iff]; decide +kernel

/-- A local allocation of eight granules, and a page at 0x10000 with these permissions, in the TLB and in the tables. -/
def rec0 : Rec := { live := true, len1 := 8, count := 1 }

def mem (e : Nat) (s : State) : State := { s with
  gm := { s.gm with
    tlb := [(0, [⟨0, 0x10000, 65536, BitVec.ofNat 64 (0x10000 + e)⟩])]
    lines := [(0, { data := BitVec.ofNat 1024 (1 + 2 ^ 64 * (0x10000 + e)) }), (512, { track0 := 17 })] }
  al := { s.al with recs := [(0, rec0)] } }

/-- A word placed over that memory; 15 is a page that may be read and written, 31 one with CHECKED set. -/
def sm (i : Instr) (l r x : Token) : State := mem 15 (st i l r yes x)

def fu : Token := mkTok .future 0
def n32 (v : Int) : Token := mkInt .i32 v
def m1 (fmt : Tag) : MF := ⟨none, .plain, fmt, 0#5, .always⟩

def presentB (s : State) (vi va : Nat) : Bool :=
  (walk s vi va).2.all (fun p => (tget s.gm.lines (p / 128)).isSome) &&
  match (walk s vi va).1 with
  | .leaf t => eRdev t.entry.toNat ≠ 0 || (tget s.gm.lines (pagePa t va / 128)).isSome
  | _ => true

theorem present_iff {s vi va} : Present s vi va ↔ presentB s vi va = true := by
  unfold Present presentB
  cases h : (walk s vi va).1 <;> simp [or_iff_not_imp_left]

/-- Words whose checks fail, with their L, R and X and the fault. -/
def failing : List ((Instr × Token × Token × Token) × Flt) :=
  let fmt : Flt := ⟨.format, 0⟩
  let cp : Instr := .cp none 3#2 true .same .always
  let gone := mkTok .handle 1024
  let odd := mkTok .addr 0x10008
  let stale : Flt := ⟨.handleStale, handleForm 1024 0⟩
  let bound : Flt := ⟨.handleBound, handleForm 0 0⟩
  [((.lst .i32 0#5 .always, hnd, z, hi8), fmt), ((.lamo none .add .i32 0#5 .always, hnd, z, hi8), fmt),
    ((.fes 0#5 .always, hnd, z, n32 2), fmt), ((.binit 0#5 .always, hnd, z, n32 0), fmt), ((.binit 0#5 .always, hnd, z, n32 65536), fmt),
    ((.free .always, z, z, z), fmt), ((.free .always, gone, z, z), stale), ((.rels .always, hnd, adr, z), fmt),
    ((.rels .always, gone, n32 1, z), stale), ((.rels .always, hnd, n32 0, z), fmt), ((.rels .always, hnd, n32 9, z), bound)] ++
  [((cp, z, hnd, n32 16), fmt), ((cp, adr, hnd, n32 8), fmt), ((cp, adr, hnd, n32 (-16)), fmt),
    ((cp, odd, gone, n32 16), ⟨.align, 0x10008⟩), ((cp, adr, gone, n32 16), stale), ((cp, hnd, adr, n32 144), bound),
    ((cp, adr, hnd, n32 144), bound), ((.cpg none 3#2 .same .always, adr, z, z), fmt), ((.cps none 0#2 .same .always, z, z, z), fmt),
    ((.pset none 7#3 .same .always, z, z, z), fmt), ((.pset none 7#3 .same .always, odd, z, z), ⟨.align, 0x10008⟩),
    ((.pset none 7#3 .same .always, gone, z, z), stale)] ++
  [((.cpp none 3#2 .same .always, hnd, hnd, n32 0), fmt), ((.cpp none 3#2 .same .always, hnd, gone, n32 1), stale),
    ((.cpp none 3#2 .same .always, hnd, hnd, n32 2), bound), ((.wload none 2#2 3#2 .always, adr, z, z), fmt),
    ((.wmma none 2#2 3#2 true .always, hnd, adr, z), fmt), ((.cvtt none 15#4 .always, z, hnd, z), fmt),
    ((.ref .always, z, z, z), fmt), ((.drop .always, z, z, z), fmt), ((.launch none .same .always, z, z, z), fmt),
    ((.cancel .launch .always, adr, z, z), fmt), ((.prof 0#12 .always, adr, z, z), fmt), ((.kvgrow none .same .always, z, z, z), fmt),
    ((.kvgrow none .same .always, odd, z, z), ⟨.align, 0x10008⟩),
    ((.kvgrow none .same .always, mkTok .addr 0x20000, z, z), ⟨.prot, 0x20000⟩), ((.syswr 0x2A7#12 .always, mkTok .fp32 0, z, z), fmt)]

def failState (e : Instr × Token × Token × Token) : State := mem 79 (st e.1 e.2.1 e.2.2.1 yes e.2.2.2)

def staleB (s : State) (h : Nat) : Bool :=
  match handleRec h with
  | none => true
  | some k => match tget s.al.recs k with | some r => !r.live | none => true

def poolB (s : State) (h : Nat) : Bool :=
  match handleRec h with
  | none => false
  | some k => match tget s.al.recs k with | some r => r.pool | none => false

theorem stale_iff {s h} : staleHandle s h ↔ staleB s h = true := by
  unfold staleHandle staleB
  cases handleRec h with
  | none => simp
  | some k => cases hk : tget s.al.recs k <;> simp [hk]

theorem pool_iff {s h} : poolHandle s h ↔ poolB s h = true := by
  unfold poolHandle poolB
  cases handleRec h with
  | none => simp
  | some k => cases hk : tget s.al.recs k <;> simp [hk]

theorem sidesOk_iff {s t} : (∀ e, ¬ sideBad s t e) ↔
    ¬ (t.tag = .addr ∧ tokBits t % 16 ≠ 0) ∧ ¬ (t.tag = .handle ∧ staleB s (tokBits t) = true) := by
  simp only [sideBad, stale_iff, ← and_assoc, not_or]
  exact ⟨fun h => ⟨fun a => (h _).1 ⟨a, rfl⟩, fun a => (h _).2 ⟨a, rfl⟩⟩, fun h e => ⟨fun a => h.1 a.1, fun a => h.2 a.1⟩⟩

theorem roomOk_iff {s t n} : (∀ e, ¬ sideShortOf s t n e) ↔ ¬ (t.tag = .handle ∧ handleLength s (tokBits t) * 16 < n) := by
  simp only [sideShortOf, ← and_assoc]
  exact ⟨fun h a => h _ ⟨a, rfl⟩, fun h e a => h a.1⟩

theorem witness_StoreWordRequests :
    (∀ e ∈ ([(.trap 2047#12 .always, z, z, z), (.bkpt 0#12 .always, z, z, z), (.fence .system 0#5 .always, z, z, z),
        (.lst .i32 0#5 .always, hnd, n32 124, poisonTok), (.lamo none .add .i32 0#5 .always, hnd, z, z),
        (.fes 0#5 .always, hnd, n32 112, n32 1), (.binit 0#5 .always, hnd, z, n32 65535), (.barr none 0#5 .always, hnd, z, z),
        (.free .always, hnd, z, z), (.rels .always, hnd, n32 8, z), (.cp none 3#2 true .same .always, adr, hnd, n32 128),
        (.cpg none 3#2 .same .always, hnd, z, z), (.cps none 0#2 .same .always, hnd, z, z),
        (.pset none 7#3 .same .always, hnd, z, z), (.cpp none 3#2 .same .always, hnd, hnd, n32 1),
        (.wload none 2#2 3#2 .always, hnd, z, z), (.wmma none 2#2 3#2 true .always, hnd, hnd, z),
        (.cvtt none 15#4 .always, hnd, hnd, z), (.ref .always, fu, z, z), (.drop .always, fu, z, z),
        (.launch none .same .always, adr, z, z), (.cancel .launch .always, n32 (-1), z, z),
        (.kvgrow none .same .always, adr, z, z), (.syswr 0x2A7#12 .always, yes, z, z), (.prof 0#12 .always, z, z, z)] :
        List (Instr × Token × Token × Token)),
      let s := mem 79 (st e.1 e.2.1 e.2.2.1 yes e.2.2.2)
      Fires s f0 e.1 ∧ (requestOf s f0 e.1).isSome = true) ∧
    (∀ e ∈ failing, Fires (failState e.1) f0 e.1.1 ∧ CheckFails (failState e.1) f0 e.1.1 e.2) := by
  refine ⟨?_, ?_⟩
  · simp only [fires_iff]; decide +kernel
  · simp only [failing, List.cons_append, List.nil_append, List.forall_mem_cons, List.not_mem_nil, false_imp_iff, forall_true_iff, implies_true, and_true, fires_iff,
      CheckFails, sidesFail, sidesOk_iff, roomOk_iff]
    simp only [sideBad, sideShortOf, stale_iff, pool_iff]
    and_intros <;> first
      | decide +kernel
      | (left; decide +kernel)
      | (right; and_intros <;> decide +kernel)

theorem witness_AddressWordsRequest :
    let i : Instr := .st .plain .i32 0#5 .always
    let at_ := fun (s : State) => Fires s f0 i ∧ (globalWord s f0 i).isSome = true
    let ro := mem 7 (st i adr z yes z)
    let ck := mem 31 (st i adr z yes z)
    let p := fun (l : Token) => sm (.pref 0#5 .always) l z z
    let t := fun (l r : Token) (grant : Nat) => { sm (.tickw none .same .always) l r z with
      sr := { viCtl := [(0, BitVec.ofNat 64 (grant * 2 ^ 16))] } }
    let w : Instr := .tickw none .same .always
    (∀ j ∈ [i, .mst (.ordered .die) .i32 0#5 .always, .aadd (m1 .i32), .amin (m1 .i32), .amax (m1 .i32), .aand (m1 .i32),
      .aor (m1 .i32), .axor (m1 .i32), .aswp (m1 .i32), .acas (m1 .i32)],
      Fires (sm j adr z poisonTok) f0 j ∨ Fires (sm j adr z z) f0 j) ∧
    (∀ j ∈ [i, .aadd (m1 .i32), .acas (m1 .i32)], (globalWord (sm j adr z z) f0 j).isSome = true) ∧
    (at_ (sm i adr hi8 z) ∧ at_ (sm i z z z)) ∧
    at_ (sm i (mkTok .addr 0x10001) z z) ∧
    (at_ ro ∧ wordXlat ro f0 0x10000 .write = .refused) ∧
    (at_ (sm i (mkTok .addr 0x20000) z z) ∧ wordXlat (sm i (mkTok .addr 0x20000) z z) f0 0x20000 .write = .miss) ∧
    (at_ ck ∧ wordXlat ck f0 0x10000 .write = .hit 0x10000 0 true ∧ racesAt ck 0 0x10000 0 true true = true) ∧
    (at_ (sm i adr z z) ∧ wordXlat (sm i adr z z) f0 0x10000 .write = .hit 0x10000 0 false ∧
      racesAt (sm i adr z z) 0 0x10000 0 false true = false) ∧
    (Fires (p adr) f0 (.pref 0#5 .always) ∧ (∀ a ∈ (walk (p adr) 0 0x10000).2, (tget (p adr).gm.lines (a / 128)).isSome = true) ∧
      Fires (p z) f0 (.pref 0#5 .always)) ∧
    (Fires (t (n32 16) adr 65535) f0 w ∧ Fires (t z z 65535) f0 w) ∧
    (Fires (t (n32 15) adr 32767) f0 w ∧ tickGranted (t (n32 15) adr 32767) 0 15 = false) ∧
    (Fires (t (n32 15) (mkTok .addr 0x10010) 32768) f0 w ∧ tickGranted (t (n32 15) adr 32768) 0 15 = true ∧ 0x10010 % 32 ≠ 0) ∧
    (Fires (t z adr 1) f0 w ∧ tickGranted (t z adr 1) 0 0 = true ∧ wordXlat (t z adr 1) f0 0x10000 .read = .hit 0x10000 0 false) := by
  simp only [fires_iff]; decide +kernel

theorem witness_EffectWordsNulled :
    let f : Instr := .fence .die 0#5 .onTrue
    let w : Instr := .syswr 0x010#12 .always
    let d : Instr := .drop .onFalse
    let t : Instr := .tread ⟨none, none, .same, .onTrue⟩ 0#2
    let n : Instr := .tnow g1
    (Instr.cls f = .store ∧ OnLane (st f nullTok z yes z) f0 f ∧ MeetsNull (st f nullTok z yes z) f0 f) ∧
    (Instr.cls d = .store ∧ OnLane (st d fu z yes z) f0 d ∧ Clean (st d fu z yes z) f0 d ∧ Mismatches (st d fu z yes z) f0 d) ∧
    (Instr.cls w = .store ∧ OnLane (st w poisonTok z yes z) f0 w ∧ MeetsPoison (st w poisonTok z yes z) f0 w) ∧
    (Instr.cls t = .fire ∧ OnLane (st t z z nullTok z) f0 t ∧ MeetsNull (st t z z nullTok z) f0 t) ∧
    (OnLane (st t z z no z) f0 t ∧ Clean (st t z z no z) f0 t ∧ Mismatches (st t z z no z) f0 t) ∧
    (∀ i ∈ [n, .pld (i1 7#12), .sysrd (i1 0#12)], Instr.cls i = .fire ∧ OnLane (st i poisonTok z yes z) f0 i ∧
      MeetsPoison (st i poisonTok z yes z) f0 i ∧ taskMaint (st i poisonTok z yes z) (taskD (st i poisonTok z yes z) 0) = true) := by
  simp only [onLane_iff, meetsNull_iff, meetsPoison_iff, clean_iff, mismatches_iff]; decide +kernel

theorem witness_PoisonFaults :
    let i : Instr := .ld (m1 .i32)
    let c : Instr := .rels .onTrue
    let w : Instr := .waitc ⟨none, none, .same, .onFalse⟩ .job
    (OnLane (st i poisonTok z yes z) f0 i ∧ Port.l ∈ steerPorts i ∧ (portD (st i poisonTok z yes z) f0 .l).tag = .poison) ∧
    (OnLane (st c hnd poisonTok yes z) f0 c ∧ Port.r ∈ countPorts c ∧ steerPorts c = [.l] ∧
      (portD (st c hnd poisonTok yes z) f0 .l).tag = .handle ∧ (portD (st c hnd poisonTok yes z) f0 .r).tag = .poison ∧
      (portD (st c hnd poisonTok yes z) f0 .p).tag = .pred) ∧
    (OnLane (st c hnd z poisonTok z) f0 c ∧ Instr.predicate c ≠ .always ∧
      (portD (st c hnd z poisonTok z) f0 .p).tag = .poison ∧ steerPorts c ≠ []) ∧
    (OnLane (st w z z poisonTok z) f0 w ∧ (portD (st w z z poisonTok z) f0 .p).tag = .poison ∧ steerPorts w = [] ∧
      countPorts w ≠ []) := by
  simp only [onLane_iff]; decide +kernel

/-- A write of the task is still to perform, and the words after a fence wait for it. -/
def owing (s : State) : State := { s with
  net := [.globalWritePerform ⟨0, 0, 0, 0, 0, 0, 0, 0, [], false, none, false, false, 0, 0⟩]
  wk := { s.wk with tasks := tmod s.wk.tasks 0 fun t => { t with floor := 1 } } }

theorem witness_LoadsRead :
    let i : Instr := .ld (m1 .i32)
    let at_ := fun (s : State) => Fires s f0 i ∧ orderOk (popLane s) f0 i = true ∧ instrAt s 0 placedBase 0 = some i
    let ck := mem 31 (st i adr z yes z)
    let i1' : Instr := .ld { m1 .i32 with lsid := 1#5 }
    let fw := withInst (sm i1' adr z z) fun x => { x with
      requests := [⟨1, some 0, none, .store 0x10000 0x10000 0 .i32 z none false false⟩] }
    let mc := { sm i adr z z with gm := { (sm i adr z z).gm with mcast := [(0, [{ pa := 0x10000, bytes := [1, 2, 3, 4], tid := 5, seq := 0, here := true }])] } }
    let read := fun (s : State) => loadMsg s f0 (m1 .i32) 0x10000 0 false
    let met := fun (s : State) => meetCopies (tlbUse (popLane s) 0 0 0x10000) (read s)
    let j := i1 0#12
    let p := fun (l : Token) (d : Nat) => { sm (.pld j) l z z with
      gm := { (sm (.pld j) l z z).gm with lines := [(0, { data := BitVec.ofNat 1024 (1 + 2 ^ 64 * 0x1000F) }),
        (512, { data := BitVec.ofNat 1024 (d * 2 ^ 512) })] }
      jb := { launches := [(0, { card := 0x10000 })] } }
    let pat := fun (s : State) => Fires s f0 (.pld j) ∧ orderOk (popLane s) f0 (.pld j) = true ∧
      instrAt s 0 placedBase 0 = some (.pld j)
    let d := fun (s : State) => natOfBytes (devGet s 0 0x10040 16)
    let bad := p z (255 * 2 ^ 96)
    let ok := fun (l : Token) => p l (0x10000 + 2 * 2 ^ 64 + Tag.code .i32 * 2 ^ 96)
    (Fires (owing (sm i z z z)) f0 i ∧ orderOk (popLane (owing (sm i z z z))) f0 i = false) ∧
    (Fires (owing (p z 0)) f0 (.pld j) ∧ orderOk (popLane (owing (p z 0))) f0 (.pld j) = false) ∧
    at_ (sm i z z z) ∧ at_ (sm i (mkTok .addr 0x10002) z z) ∧
    (at_ (mem 11 (st i adr z yes z)) ∧ wordXlat (mem 11 (st i adr z yes z)) f0 0x10000 .read = .refused) ∧
    (at_ (sm i (mkTok .addr 0) z z) ∧ wordXlat (sm i (mkTok .addr 0) z z) f0 0 .read = .miss) ∧
    (at_ ck ∧ wordXlat ck f0 0x10000 .read = .hit 0x10000 0 true ∧ racesAt ck 0 0x10000 0 true true = true) ∧
    (at_ (sm i adr z z) ∧ wordXlat (sm i adr z z) f0 0x10000 .read = .hit 0x10000 0 false ∧
      (List.range 4).map (nearByte (met (sm i adr z z)) (read (sm i adr z z))) = [none, none, none, none]) ∧
    (Fires fw f0 i1' ∧ orderOk (popLane fw) f0 i1' = true ∧ wordXlat fw f0 0x10000 .read = .hit 0x10000 0 false ∧
      ∀ b ∈ forwarded fw f0 1 4 0x10000 0, b.isSome) ∧
    (at_ mc ∧ wordXlat mc f0 0x10000 .read = .hit 0x10000 0 false ∧ racesAt mc 0 0x10000 0 false true = false ∧
      ((List.range 4).map (nearByte (met mc) (read mc)) = [some 1, some 2, some 3, some 4]) ∧
      (read mc).fwd = [none, none, none, none] ∧ copyHolds (met mc) (read mc) = false ∧ mc.gm.early = []) ∧
    pat (p adr 0) ∧
    (pat bad ∧ wordXlat bad f0 0x10040 .read = .hit 0x10040 0 false ∧ windowTag (d bad / 2 ^ 96 % 256) = none) ∧
    (pat (ok (n32 2)) ∧ pat (ok (n32 (-1))) ∧ windowTag (d (ok z) / 2 ^ 96 % 256) = some .i32 ∧ d (ok z) / 2 ^ 64 % 2 ^ 32 = 2) ∧
    (pat (ok (n32 1)) ∧ wordXlat (tlbUse (popLane (ok (n32 1))) 0 0 0x10040) f0 0x10004 .read = .hit 0x10004 0 false ∧
      cellPane (ok (n32 1)) f0 = 0 ∧ Present (ok (n32 1)) 0 0x10040 ∧ Present (ok (n32 1)) 0 0x1004F) ∧
    (let cross := { p (n32 0) (0x1FFFE + 2 ^ 64 + Tag.code .i32 * 2 ^ 96) with
       gm := { (p (n32 0) (0x1FFFE + 2 ^ 64 + Tag.code .i32 * 2 ^ 96)).gm with
         tlb := [(0, [⟨0, 0x10000, 65536, 0x1000F#64⟩, ⟨0, 0x20000, 65536, 0x2000F#64⟩])] } }
     let s1 := tlbUse (popLane cross) 0 0 0x10040
     pat cross ∧ wordXlat cross f0 0x10040 .read = .hit 0x10040 0 false ∧
       wordXlat s1 f0 0x1FFFE .read = .hit 0x1FFFE 0 false ∧ 65536 < 0x1FFFE % 65536 + 4 ∧
       wordXlat (tlbUse s1 0 0 0x1FFFE) f0 0x20000 .read = .hit 0x20000 0 false) := by
  simp only [fires_iff, present_iff]; and_intros <;> decide +kernel

/-- Granule 0 of pane 0 in a state, with a tracking word and its bytes. -/
def gran (s : State) (v track : Nat) (bytes : List Byte) : State := { s with
  ls := { setGst s.ls 0 v with gtrack := [(0, BitVec.ofNat 24 track)], bytes := setBytes [] 0 bytes } }

theorem witness_LocalWordsRead :
    let at_ := fun (s : State) (i : Instr) (w : Nat) => Fires s f0 i ∧ orderOk (popLane s) f0 i = true ∧
      (resolve s 0 0 w).toOption = some (.here 0, 0) ∧ spillingRec s 0 = false ∧ handleRec (tokBits (portD s f0 .l)) = some 0
    let i := fun (w : LldWait) => Instr.lld none w .i32 0#5 .always
    let s := fun (w : LldWait) (v t : Nat) => gran (sm (i w) hnd z z) v t []
    let few : Instr := .few none 0#5 .always
    let u := fun (v : Nat) => gran (sm few hnd z (mkInt .i8 (-1))) v 0 [5, 0, 5, 0, 255, 255]
    let lsz : Instr := .lsz none 0#5 .always
    let field := fun (s : State) => locStateField (readCheck (popLane s) (.here 0)) (.here 0)
    (at_ (s .none 0 0) (i .none) 4 ∧ localRaces (s .none 0 0) 0 (.here 0) = false) ∧
    (at_ (s .none 0 17) (i .none) 4 ∧ localRaces (readCheck (popLane (s .none 0 17)) (.here 0)) 0 (.here 0) = true) ∧
    (at_ (s .keep 2 0) (i .keep) 4 ∧ field (s .keep 2 0) = 2) ∧
    (at_ (s .keep 1 0) (i .keep) 4 ∧ field (s .keep 1 0) = 1) ∧
    (at_ (s .keep 0 0) (i .keep) 4 ∧ field (s .keep 0 0) = 0 ∧ lowerLsts (s .keep 0 0) f0 0 (.here 0) = []) ∧
    (at_ (s .take 1 0) (i .take) 4 ∧ field (s .take 1 0) = 1 ∧ locRsv (s .take 1 0) (.here 0) = false) ∧
    (at_ (s .take 5 0) (i .take) 4 ∧ field (s .take 5 0) = 1 ∧ locRsv (s .take 5 0) (.here 0) = true ∧ hasTaken (s .take 5 0) f0 = false) ∧
    (let took := withInst (s .take 5 0) fun x => { x with requests := [⟨0, some 0, none, .take 0 0⟩] }
     at_ took (i .take) 4 ∧ field took = 1 ∧ hasTaken took f0 = true) ∧
    (∀ w ∈ [LldWait.none, .keep, .take], Fires (owing (s w 1 0)) f0 (i w) ∧ orderOk (popLane (owing (s w 1 0))) f0 (i w) = false) ∧
    (Fires (owing (u 2)) f0 few ∧ orderOk (popLane (owing (u 2))) f0 few = false) ∧
    (Fires (sm few hnd z adr) f0 few ∧ orderOk (popLane (sm few hnd z adr)) f0 few = true ∧ (portD (sm few hnd z adr) f0 .x).tag.isInt = false) ∧
    (at_ (u 2) few 16 ∧ field (u 2) = 2 ∧ natOfBytes (locBytes (u 2) 4 2 (.here 0)) = 65535) ∧
    (at_ (gran (u 2) 2 0 []) few 16 ∧ natOfBytes (locBytes (gran (u 2) 2 0 []) 4 2 (.here 0)) = 0) ∧
    (at_ (u 1) few 16 ∧ field (u 1) = 1) ∧ (at_ (u 0) few 16 ∧ field (u 0) = 0) ∧
    (Fires (sm lsz hnd z z) f0 lsz ∧ (liveRec (sm lsz hnd z z) 0 0).toOption = some (0, rec0)) ∧
    (Fires (sm lsz (mkTok .handle 1024) z z) f0 lsz ∧ (liveRec (sm lsz hnd z z) 1024 0).toOption = none) ∧
    Fires (sm lsz z z z) f0 lsz := by
  simp only [fires_iff]; and_intros <;> decide +kernel

theorem witness_LocalChecks :
    let i : Instr := .lst .i32 0#5 .always
    let b : Instr := .barr none 0#5 .always
    let sp := { sm i hnd z z with al := { recs := [(0, rec0)], arenas := [(0, { spilling := some (0, 0) })] } }
    (∀ e ∈ ([(.lld none .keep .i32 0#5 .always, z), (.few none 0#5 .always, z), (i, z), (i, poisonTok),
        (.lamo none .min .i32 0#5 .always, z), (.fes 0#5 .always, n32 1), (.binit 0#5 .always, n32 1),
        (.binit 0#5 .always, n32 65535), (b, z)] : List (Instr × Token)),
      ∀ l ∈ [hnd, z], Fires (sm e.1 l z e.2) f0 e.1 ∧ orderOk (popLane (sm e.1 l z e.2)) f0 e.1 = true) ∧
    (Fires (sm i hnd adr z) f0 i ∧ (portD (sm i hnd adr z) f0 .r).tag.isInt = false) ∧
    (Fires sp f0 i ∧ (resolve sp 0 0 4).toOption = some (.here 0, 0) ∧ handleRec 0 = some 0 ∧ spillingRec sp 0 = true) ∧
    (Fires (sm b (mkTok .handle 1) z z) f0 b ∧ handleRec 1 = none) ∧
    (Fires (sm b (mkTok .handle 1024) z z) f0 b ∧ handleRec 1024 = some 1 ∧ tget (sm b hnd z z).al.recs 1 = none) ∧
    (Fires (sm b hnd (n32 (-16)) z) f0 b ∧ Fires (sm b hnd (n32 113) z) f0 b ∧ tget (sm b hnd z z).al.recs 0 = some rec0) ∧
    (Fires (sm b hnd (n32 8) z) f0 b ∧ (resolve (sm b hnd z z) 0 8 16).toOption = none) := by
  simp only [fires_iff]; and_intros <;> decide +kernel

theorem witness_AllocAndSpawn :
    let a : Instr := .alloc g1 7#3
    let sa := fun (l r : Int) => { sm a (n32 l) (n32 r) z with al := { arenas := [(7, { index := 7, size := 2048 })] } }
    let p : Instr := .spawn g1 .any
    let s := fun (l r : Token) => sm p l r z
    let b := { s adr fu with wk := { (s adr fu).wk with births := [⟨f0, 0, 0, 0x10000, some 1, some 0, some 8⟩] } }
    (∀ e ∈ [(0, 1), (4097, 1), (1, 0), (1, 256)], Fires (sa e.1 e.2) f0 a) ∧
    (Fires (sa 4096 255) f0 a ∧ (arenaAt (sa 4096 255) (arenaKey 0 0 7)).size = 2048) ∧
    (Fires (sa 2048 1) f0 a ∧ Fires (sa 1 255) f0 a) ∧
    (Fires (s z z) f0 p ∧ Fires (s adr (mkTok .e2m1 0)) f0 p ∧ tagTile .e2m1 = false ∧ Fires (s adr (mkTok .tern 0)) f0 p) ∧
    Fires (s (mkTok .addr 32) fu) f0 p ∧ tokBits adr % 64 = 0 ∧ shuttered (s adr fu) 0 = false ∧
    (let shut := { s adr fu with sh := { active := [(0, ⟨.firmware, [], false⟩)] } }
     let none_ := { s adr fu with cf := { (s adr fu).cf with slots := [] } }
     let after := { s adr fu with net := [.refChangeArrive ⟨0, true, some 0, none⟩] }
     (Fires shut f0 p ∧ shuttered shut 0 = true) ∧
     (Fires none_ f0 p ∧ birthOf none_ f0 = none ∧ spawnPane (popLane none_) 0 .any 0 = none) ∧
     (Fires after f0 p ∧ birthOf after f0 = none ∧ spawnPane (popLane after) 0 .any 0 = some 0 ∧
       ∃ k ∈ after.net, carriesColour 0 k = true)) ∧
    (Fires b f0 p ∧ birthOf b f0 = some ⟨f0, 0, 0, 0x10000, some 1, some 0, some 8⟩ ∧ shuttered b 0 = false ∧
      ∀ y ∈ regGranules b 0 59, unreadable b y = false ∧ locShared b y = false) ∧
    (Fires (s adr fu) f0 p ∧ birthOf (s adr fu) f0 = none ∧ spawnPane (popLane (s adr fu)) 0 .any 0 = some 0 ∧
      unitsFull (s adr fu) 0 1 = false) ∧
    (let full := { s adr fu with jb := { launches := [(0, { remote := 2 ^ 32 - 1 })] } }
     Fires full f0 p ∧ birthOf full f0 = none ∧ spawnPane (popLane full) 0 .any 0 = some 0 ∧ unitsFull full 0 1 = true) ∧
    (let futs : Table Fut := [(0, { state := .running, count := 1 })]
     let held := { s adr fu with wk := { (s adr fu).wk with futs := futs } }
     Fires held f0 p ∧ birthOf held f0 = none ∧ spawnPane (popLane held) 0 .any 0 = some 0 ∧ unitsFull held 0 1 = false ∧
       tsorted none held.wk.futs = true ∧ (futAt held fu.val).map (fun y => (y.count, y.stuck)) = some (1, false)) := by
  simp only [fires_iff]; and_intros <;> decide +kernel

theorem witness_QueueWordsAnswer :
    let t : Instr := .twait g1 3#2
    let c := fun (i : Instr) (l r : Token) => { sm i l r z with
      en := { ctxs := [(67, { issued := 2, done := 1, statuses := [(1, 2)] })] } }
    let w := fun (st : FutState) => { sm (.await g1) fu z z with wk := { (sm (.await g1) fu z z).wk with
      futs := [(0, { state := st })] } }
    let v := fun (d : Bool) => { sm (.waitc g1 .job) z z z with jb := { jobs := [(0, { lvl := { done := d } })] } }
    (∀ n ∈ [0, 1, 2], Fires (c t (n32 n) (n32 1)) f0 t) ∧ selectorOk 1 3 = true ∧
    (ctxAt (c t z z) (ctxKey (cellPane (c t z z) f0) 1 3)).done = 1 ∧
    Fires (c (.tread g1 0#2) (n32 5) z) f0 (.tread g1 0#2) ∧ selectorOk 5 0 = true ∧
    (Fires (w .resolved) f0 (.await g1) ∧ (futAt (w .resolved) 0).map (fun y => y.state) = some .resolved) ∧
    (Fires (w .running) f0 (.await g1) ∧ (futAt (w .running) 0).map (fun y => y.state) = some .running) ∧
    (Fires (w .free) f0 (.await g1) ∧ futAt (w .free) 0 = none) ∧
    (Fires (sm (.waitc g1 .launch) (n32 (-1)) z z) f0 (.waitc g1 .launch) ∧ (levelId .launch (n32 (-1))).bind (levelAt (sm (.waitc g1 .launch) (n32 (-1)) z z) 0 0 .launch) = none) ∧
    (∀ d ∈ [false, true], Fires (v d) f0 (.waitc g1 .job) ∧
      (levelAt (v d) 0 0 .job 0).map (fun x => x.done) = some d ∧ levelId .job z = some 0) ∧
    Fires (sm (.tnow g1) z z z) f0 (.tnow g1) ∧ Fires (sm (.tnow g1) (mkTok .tern 0) z z) f0 (.tnow g1) ∧
    (∀ n ∈ [-1, 0, 31, 32], Fires (sm (.swq g1) (n32 n) z z) f0 (.swq g1)) ∧
    Fires (c t (n32 (-1)) (n32 1)) f0 t ∧ Fires (c t z (n32 2)) f0 t ∧ selectorOk 2 3 = false ∧
    Fires (c (.tread g1 0#2) (n32 6) z) f0 (.tread g1 0#2) ∧ selectorOk 6 0 = false ∧
    Fires (sm (.await g1) z z z) f0 (.await g1) ∧ Fires (sm (.waitc g1 .graph) adr z z) f0 (.waitc g1 .graph) := by
  simp only [fires_iff]; and_intros <;> decide +kernel

theorem witness_SysrdReads :
    let i := fun (n : BitVec 12) => Instr.sysrd (i1 n)
    let user := fun (s : State) => { s with cf := { s.cf with slots := [(0, BitVec.ofNat 64 (2 ^ 38 + 2 ^ 44))] } }
    let s := fun (n : BitVec 12) (l : Token) => sm (i n) l z z
    let clr := { s 0x1C8#12 z with sr := { perfSel := [(0, 2 ^ 13)], perfCnt := [(0, 5)] } }
    (OnLane (user (s 0#12 z)) f0 (i 0#12) ∧ taskMaint (user (s 0#12 z)) (taskD (user (s 0#12 z)) 0) = false) ∧
    (∀ l ∈ [mkTok .tern 0, z], ∀ n ∈ [0x000#12, 0x00F#12, 0x1C7#12, 0x1C8#12, 0x1CF#12, 0x1D0#12, 0x2A8#12, 0x7FF#12],
      Fires (s n l) f0 (i n) ∧ taskMaint (s n l) (taskD (s n l) 0) = true) ∧
    (Fires clr f0 (i 0x1C8#12) ∧ taskMaint clr (taskD clr 0) = true ∧ Canonical clr ∧
      bits (perfSelOf clr (cellPane clr f0) 0) 13 1 = 1) := by
  simp only [fires_iff, onLane_iff, canonical_iff]; and_intros <;> decide +kernel

theorem witness_FaultStopsTask :
    let s := st (.mov g1) z z yes z
    (taskAt s 0).isSome = true ∧ (instAt s 0 0).map (fun x => (x.tid, x.iter)) = some (0, 0) ∧ Canonical s := by
  simp only [canonical_iff]; decide +kernel

/-- A placed word whose ports are empty, off the lane. -/
def idle (i : Instr) : State := { st i z z z z with wk := { (st i z z z z).wk with toks := [], issue := [] } }

theorem witness_TokensArrive :
    let m : TokMsg := ⟨0, 0, placedBase, 0, .l, z, 0, true⟩
    let s := idle (.mov g1)
    let taken := { s with wk := { s.wk with toks := [⟨m, 0, .store⟩] } }
    let fired := withInst s fun x => { x with fired := [0] }
    let gone := { s with wk := { s.wk with insts := [] } }
    taskAt State.reset 0 = none ∧
    ((taskAt s 0).isSome = true ∧ instrAt s 0 placedBase 0 = some (.mov g1) ∧
      (instAt s 0 0).map (fun x => x.block) = some placedBase) ∧
    ((taken.wk.toks.map fun y => y.msg) = [m] ∧ instrAt taken 0 placedBase 0 = some (.mov g1)) ∧
    (instAt fired 0 0).map (fun x => x.fired) = some [0] ∧
    (s.wk.toks = [] ∧ storeCount s (cellOf s (taskD s 0) placedBase 0) < 256 ∧ Instr.firePorts (.mov g1) ≠ [] ∧
      waiting s f0 = false ∧ canFire { s with wk := { s.wk with toks := [⟨m, 0, .store⟩] } } f0 (.mov g1) = true) ∧
    ((taskAt gone 0).isSome = true ∧ instAt gone 0 0 = none ∧ addressPast gone m = true) ∧
    (let other := withInst s fun x => { x with block := 0 }
     let ahead := { looped gone true 0 with wk := { (looped gone true 0).wk with insts := [(1, { iter := 1, block := placedBase })] } }
     (instAt other 0 0).map (fun x => x.block) = some 0 ∧
     (instAt ahead 0 2).isNone = true ∧ addressPast ahead { m with iter := 2 } = false ∧
       storeCount ahead (cellOf ahead (taskD ahead 0) placedBase 0) < 256) ∧
    (let i : Instr := .add g1 false
     let full := { idle i with wk := { (idle i).wk with toks := (List.range 256).map fun k => ⟨{ m with iter := k + 1, src := 9 }, 0, .store⟩ } }
     let framed := withInst { full with al := { recs := [(0, { live := true, len1 := 2048 })] } } fun x => { x with frame := some (.carve 40) }
     let gone_ := { full with wk := { full.wk with
       toks := full.wk.toks ++ (List.range 16).map fun k => ⟨{ m with iter := k + 300 }, 0, .spill (.carve (36 + k))⟩ } }
     storeCount full (cellOf full (taskD full 0) placedBase 0) = 256 ∧ instrAt full 0 placedBase 0 = some i ∧
       canFire { full with wk := { full.wk with toks := full.wk.toks ++ [⟨m, full.clk.cycle, .store⟩] } } f0 i = false ∧
       (overflowPlace (countMatch framed (taskD framed 0) m) (taskD framed 0) m).isSome = true ∧
       overflowPlace (countMatch gone_ (taskD gone_ 0) m) (taskD gone_ 0) m = none ∧ (taskD gone_ 0).stopped = false) := by
  and_intros <;> decide +kernel

theorem witness_BlocksActivate :
    let i : Instr := .read none none 0#6
    let a : Activation := ⟨0, 0, placedBase, true, false, false⟩
    let s := { idle i with wk := { (idle i).wk with insts := [] } }
    let b := placedBlock ((encode i).getD 0)
    let stopped := { s with wk := { s.wk with tasks := tmod s.wk.tasks 0 fun t => { t with stopped := true } } }
    let owes := { s with net := [.returnValueArrive ⟨0, 0, 0, none, z, 0⟩] }
    taskAt State.reset 0 = none ∧ (taskAt stopped 0).map (fun t => t.stopped) = some true ∧
    ((taskAt owes 0).isSome = true ∧ a.next = false ∧ outstanding owes 0 ≠ []) ∧
    ((taskAt (idle i) 0).isSome = true ∧ (instAt (idle i) 0 0).isSome = true) ∧
    ((taskAt s 0).map (fun t => (t.stopped, t.spawned)) = some (false, false) ∧ outstanding s 0 = [] ∧ instAt s 0 0 = none ∧
      blockAt (graphOf s (taskD s 0)) 0 = none ∧ blockMarked s (taskD s 0) 0 1 = false) ∧
    (blockAt (graphOf s (taskD s 0)) placedBase = some b ∧ blockMarked s (taskD s 0) placedBase b.words.length = false ∧
      hdrRe b.header = false ∧ frameGranules b.header = 0 ∧
      activationBad ⟨(graphOf s (taskD s 0)).blocks, (graphOf s (taskD s 0)).arenas.length, (graphOf s (taskD s 0)).waffles⟩ b
        = none ∧ s.wk.toks = []) := by decide +kernel

theorem witness_CellsIssueAndWaitsEnd :
    let s := st (.mov g1) z z yes z
    let r := { s with
      clk := { s.clk with cycle := 4096 }
      wk := { s.wk with
        issue := [], ready := [⟨f0, 0, false⟩]
        cells := [(0, { deficits := [1, 0, 0, 0, 0, 0, 0, 0] })] } }
    let w := fun (k : Wait) => { s with
      wk := { s.wk with issue := [], waits := [(f0, k)], futs := [(0, { state := .resolved })] } }
    let done := { w (.level .job 0) with
      en := { ctxs := [(3, { issued := 2, done := 2 })] }, jb := { jobs := [(0, { lvl := { done := true } })] } }
    (∀ q ∈ [0, 1, 7], readyOn s 0 q = []) ∧
    (0 ∈ boundContexts r 0 ∧ readyOn r 0 0 ≠ [] ∧ (∀ y ∈ r.wk.ready, slotTurn r y.f = true) ∧ (tgetD r.wk.cells 0 {}).deficits[0]? = some 1) ∧
    0 + 4096 * weightSum r (cellPane r f0) ≤ r.clk.cycle ∧
    ((f0, Wait.granule) ∈ (w .granule).wk.waits ∧ (f0, Wait.granule) ∉ s.wk.waits) ∧
    ((f0, Wait.timeline 3 2) ∈ (w (.timeline 3 2)).wk.waits ∧ (ctxAt (w (.timeline 3 2)) 3).done = 0 ∧ (ctxAt done 3).done = 2) ∧
    ((f0, Wait.future 0) ∈ (w (.future 0)).wk.waits ∧ (futAt (w (.future 0)) 0).map (fun y => y.state) = some .resolved) ∧
    ((f0, Wait.level .job 0) ∈ done.wk.waits ∧ (levelAt done 0 0 .job 0).map (fun v => v.done) = some true) ∧
    (levelAt { done with jb := { jobs := [(0, {})] } } 0 0 .job 0).map (fun v => v.done) = some false := by decide +kernel

/-- A block of one store-class word that has asked for `k` and goes on to another block. -/
def ends (i : Instr) (b : Branch) (rs : List Request) : State :=
  let s := { idle i with
    al := { recs := [(0, rec0)] }, wk := { (idle i).wk with tasks := tmod (idle i).wk.tasks 0 fun t => { t with carve := 5 } } }
  withInst s fun x => { x with fired := [0], branch := some b, requests := rs }

def one (i : Instr) (k : ReqKind) : State := ends i (.goto placedBase false) [⟨0, some 0, none, k⟩]

theorem commits_iff {s : State} {tid iter : Nat} {t : Task} {x : Inst} : Commits s tid iter t x ↔ taskAt s tid = some t ∧
    instAt s tid iter = some x ∧ x.tid = tid ∧ x.iter = iter ∧ commitDue s t x = true ∧ commitFault s t x = none :=
  ⟨fun h => ⟨h.task, h.inst, h.tidEq, h.iterEq, h.due, h.sound⟩, fun ⟨a, b, c, d, e, f⟩ => ⟨a, b, c, d, e, f⟩⟩

theorem witness_BlocksCommit :
    let t := { taskD (idle (.trap 0#12 .always)) 0 with carve := 5 }
    let s := fun (b : Branch) (rs : List Request) => ends (.trap 0#12 .always) b rs
    let w := ends (.trap 0#12 .always) (.goto placedBase false) [⟨0, some 0, none, .syswr 0 z.val⟩]
    let user := { w with cf := { w.cf with slots := [] } }
    (∀ e ∈ [s (.goto placedBase true) [], s (.exit z) [], w, user], Canonical e ∧ taskAt e 0 = some t) ∧
    commitDue (idle (.trap 0#12 .always)) t ((instAt (idle (.trap 0#12 .always)) 0 0).getD {}) = false ∧
    (commitDue user t ((instAt user 0 0).getD {}) = true ∧ (commitFault user t ((instAt user 0 0).getD {})).isSome = true) ∧
    Commits (s (.goto placedBase true) []) 0 0 t ((instAt (s (.goto placedBase true) []) 0 0).getD {}) ∧
    Commits (s (.exit z) []) 0 0 t ((instAt (s (.exit z) []) 0 0).getD {}) ∧ (s (.exit z) []).wk.births = [] ∧
    trapOf (s (.exit z) []) t ((instAt (s (.exit z) []) 0 0).getD {}) = none := by
  simp only [commits_iff, canonical_iff]; and_intros <;> decide +kernel

theorem alone_of {s : State} {t : Task} {x : Inst} {r : Request} (h : Commits s 0 0 t x)
    (h1 : x.requests = [r] ∧ t.loop = none ∧ x.branch = some (.goto placedBase false) ∧ x.refs = []
      ∧ s.wk.births = [] ∧ s.al.arenas = [] ∧ s.wk.toks = []) : Alone s 0 0 t x r :=
  { toCommits := h, one := h1.1, plain := h1.2.1, branch := ⟨placedBase, h1.2.2.1⟩, refs := h1.2.2.2.1,
    births := by simp [h1.2.2.2.2.1], asks := by simp [h1.2.2.2.2.2.1],
    frames := by simp [h1.2.2.2.2.2.2] }

theorem oneEffect_of {s : State} {t : Task} {x : Inst} {k : ReqKind} (h : Commits s 0 0 t x)
    (h1 : x.requests = [⟨0, some 0, none, k⟩] ∧ t.loop = none ∧ x.branch = some (.goto placedBase false) ∧ x.refs = []
      ∧ s.wk.births = [] ∧ s.al.arenas = [] ∧ s.wk.toks = []) : OneEffect s 0 0 t x k none :=
  ⟨0, 0, alone_of h h1⟩

theorem notOwn {s : State} {t : Task} (h : tget s.al.recs t.carve = none) (g : Nat) : ¬ ownGranule s t g := by
  rintro ⟨j, _, hj⟩
  simp [carveGranule, h] at hj

def effects : List (Instr × ReqKind) :=
  [(.lst .i32 0#5 .always, .lst 0 12 .i32 (n32 (-1))), (.lst .i32 0#5 .always, .lst 0 12 .i32 poisonTok),
    (.fes 0#5 .always, .fes 0 112 false), (.fes 0#5 .always, .fes 0 112 true), (.binit 0#5 .always, .binit 0 0 65535),
    (.st .plain .i32 0#5 .always, .store 0x10000 0x10000 0 .i32 poisonTok none false false),
    (.aadd (m1 .i32), .atom .add 0x10000 0x10000 0 .i32 z z none),
    (.lamo none .add .i32 0#5 .always, .lamo .add 0 12 .i32 z), (.lamo none .add .i32 0#5 .always, .lamo .add 0 12 .i32 poisonTok),
    (.mst (.ordered .die) .i32 0#5 .always, .store 0x10000 0x10000 0 .i32 z (some .die) false true)]

theorem writesNone_of {s : State} {x : Inst} (h : x.wrote = [] ∧ x.flags = 0) (b : (blkOf s x).all (fun b => decide (b.words.length ≤ 1)) = true)
    (c : retSlot s x 0 = none) : WritesNoRegister s x := by
  refine ⟨h.1, h.2, fun k r => ?_⟩
  cases k with
  | zero => simp [retWrite, c]
  | succ k =>
    have : instrAt s x.tid x.block (k + 1) = none := by
      unfold instrAt wordAt
      unfold blkOf at b
      cases hb : blockAt (graphOf s (taskD s x.tid)) x.block with
      | none => rfl
      | some y =>
        have hl : y.words.length ≤ 1 := by simpa [hb] using b
        simp [List.getElem?_eq_none (show y.words.length ≤ k + 1 by omega)]
    simp [retWrite, retSlot, this]

/-- A block of one word without an LSID that has asked for `k`, over a page, a job, and a counter of event 5. -/
def solo (i : Instr) (k : ReqKind) : State := { mem 15 (ends i (.goto placedBase false) [⟨0, none, none, k⟩]) with
  jb := { vis := [(0, { configured := true })], jobs := [(0, {})] }
  sr := { perfSel := [(0, BitVec.ofNat 64 (2 * 2 ^ 11 + 5))] } }

def solos : List (Instr × ReqKind) :=
  [(.free .always, .free 0), (.rels .always, .rels 0 5), (.rels .always, .rels 0 8), (.ref .always, .ref 0), (.drop .always, .drop 0),
    (.cpg none 3#2 .same .always, .engine 1 3 (.gather false 0)), (.launch none .same .always, .launch 0x10000),
    (.cancel .job .always, .cancel .job 0), (.tickw none .same .always, .tickw 15 0x10000 0x10000 0),
    (.kvgrow none .same .always, .kvgrow 0x10000), (.kvgrow none .same .always, .kvgrow 0x20000), (.syswr 0x017#12 .always, .syswr 0x017 0),
    (.prof 5#12 .always, .prof 5 1)]

theorem witness_EffectsAtCommit :
    (∀ e ∈ effects, OneEffect (one e.1 e.2) 0 0 (taskD (one e.1 e.2) 0) ((instAt (one e.1 e.2) 0 0).getD {}) e.2 none ∧
      Canonical (one e.1 e.2)) ∧
    (let b := gran (one (.barr none 0#5 .always) (.barr 0 0)) 2 0 [1, 0, 255, 255]
     OneEffect b 0 0 (taskD b 0) ((instAt b 0 0).getD {}) (.barr 0 0) none ∧ Canonical b) ∧
    (let k := gran (one (.trap 0#12 .always) (.take 0 0)) 5 0 []
     OneEffect k 0 0 (taskD k 0) ((instAt k 0 0).getD {}) (.take 0 0) none ∧ Canonical k) ∧
    (∀ i k g, ¬ ownGranule (one i k) (taskD (one i k) 0) g) ∧
    (∀ e ∈ effects, (one e.1 e.2).wk.tasks.all (fun y => y.2.wait.isEmpty) = true ∧
      ((instAt (one e.1 e.2) 0 0).map fun x => (x.wrote, x.flags)) = some ([], 0)) ∧
    ((resolve (one (.trap 0#12 .always) (.take 0 0)) 0 12 4).toOption = some (.here 0, 12) ∧
      localGranule (one (.trap 0#12 .always) (.take 0 0)) 0 112 = some (.here 7)) ∧
    (∀ e ∈ effects, (one e.1 e.2).ls.upset = [] ∧ WritesNoRegister (one e.1 e.2) ((instAt (one e.1 e.2) 0 0).getD {})) ∧
    (∀ e ∈ solos, Alone (solo e.1 e.2) 0 0 (taskD (solo e.1 e.2) 0) ((instAt (solo e.1 e.2) 0 0).getD {}) ⟨0, none, none, e.2⟩ ∧
      Canonical (solo e.1 e.2) ∧ (solo e.1 e.2).ls.upset = [] ∧
      WritesNoRegister (solo e.1 e.2) ((instAt (solo e.1 e.2) 0 0).getD {})) ∧
    (let s := solo (.free .always) (.free 0)
     let grown := { s with fw := { grants := [(0, [1])] } }
     handleRec 0 = some 0 ∧ tget s.al.recs 0 = some rec0 ∧ 8 ≤ rec0.len1 + rec0.len2 ∧ (tget s.jb.vis 0).isSome = true ∧
       (levelAt s 0 0 .job 0).isSome = true ∧ frozen s 0 = false ∧ bits (perfSelOf s 0 0) 11 2 = 2 ∧ bits (perfSelOf s 0 0) 0 11 = 5 ∧
       presentB s 0 0x10000 = true ∧ isMapped s 0 0x10000 = true ∧ presentB s 0 0x20000 = true ∧ isMapped s 0 0x20000 = false ∧
       tgetD s.fw.grants 0 [] = [] ∧ tget s.fw.mailbox 0 = none ∧ tgetD grown.fw.grants 0 [] = [1]) := by
  refine ⟨fun e he => ?_, ⟨oneEffect_of ?_ ?_, ?_⟩, ⟨oneEffect_of ?_ ?_, ?_⟩, fun _ _ => notOwn rfl, by decide +kernel,
    by decide +kernel, fun e he => ⟨?_, writesNone_of ?_ ?_ ?_⟩, fun e he => ⟨alone_of (commits_iff.mpr ?_) ?_, canonical_iff.mpr ?_, ?_,
    writesNone_of ?_ ?_ ?_⟩, by and_intros <;> decide +kernel⟩
  · refine ⟨oneEffect_of (commits_iff.mpr ?_) ?_, canonical_iff.mpr ?_⟩ <;> revert e <;> decide +kernel
  all_goals first
    | exact commits_iff.mpr (by decide +kernel)
    | exact canonical_iff.mpr (by decide +kernel)
    | (revert e; decide +kernel)
    | decide +kernel
theorem witness_ValuesReturn :
    let s := idle (.mov g1)
    let c := { s with al := { recs := [(0, { live := true, len1 := 128 })] } }
    (Canonical s ∧ (taskAt s 0).isSome = true) ∧
    (Canonical c ∧ ∀ r ∈ [0, 63], carveGranule c (taskD c 0) (r / 2) = some (.here (r / 2)) ∧
      carveGranule c (taskD c 0) (32 + r / 16) = some (.here (32 + r / 16))) := by
  simp only [canonical_iff]; decide +kernel

def launchOf (hand : Option Chunk) (n : Nat) : State := { idle (.mov g1) with
  jb := { launches := [(0, { ready := true, reccount := n, recsize := 128, chunkmax := 1, hand := hand })],
          phases := [(0, { begun := true })] } }

def tableFull (s : State) : State := { s with
  jb := { s.jb with launches := tmod s.jb.launches 0 fun l => { l with remote := 2 ^ 32 - 1 } } }

theorem witness_ChunksDealt :
    let l := fun (s : State) => tgetD s.jb.launches 0 {}
    let s := launchOf none 2
    let c : Chunk := ⟨0, 1, some 0, some 1, some 8⟩
    let empty := { s with wk := { s.wk with pools := [(0, { next := 65536 })] } }
    let behind := { s with
      jb := { s.jb with launches := s.jb.launches ++ [(1, { hand := some ⟨0, 1, some 0, none, none⟩ })] }
      wk := { s.wk with line := [⟨0, false, .deal 1, 0⟩] } }
    let first := fun (s : State) => dealing s (l s) = true ∧ unitsFull s 0 1 = false ∧ (l s).hand = none ∧
      (l s).dealt < (l s).reccount ∧
      fewest (fun p => liveOn s fun t => t.launch = 0 && t.pane = p)
        ((boundPanes s (l s).graph).filter fun p => liveOn s (fun t => t.launch = 0 && t.pane = p) < 2) = some 0
    (∀ x ∈ [s, launchOf none 0, launchOf (some c) 2, empty, behind, tableFull s], Canonical x ∧ (tget x.jb.launches 0).isSome = true) ∧
    dealing { s with jb := { s.jb with phases := [] } } (l s) = false ∧ unitsFull (tableFull s) 0 1 = true ∧
    (dealing (launchOf none 0) (l (launchOf none 0)) = true ∧ (l (launchOf none 0)).reccount ≤ (l (launchOf none 0)).dealt) ∧
    (first empty ∧ (takeColour empty 0).isNone = true) ∧ (first behind ∧ mayTake behind 0 false (.deal 0) = false) ∧
    (first s ∧ (takeColour s 0).isSome = true ∧ mayTake s 0 false (.deal 0) = true) ∧
    (dealing (launchOf (some c) 2) (l (launchOf (some c) 2)) = true ∧ unitsFull (launchOf (some c) 2) 0 1 = false ∧
      (l (launchOf (some c) 2)).hand = some c ∧ takeFut (launchOf (some c) 2) 0 = some 0 ∧
      mayTake (launchOf (some c) 2) 0 true (.deal 0) = true) := by
  simp only [canonical_iff]; and_intros <;> decide +kernel

theorem witness_FuturesAndColours :
    let s := idle (.mov g1)
    let w := fun (r : Fut) => { s with wk := { s.wk with futs := [(0, r)] } }
    let one : Fut := { state := .running, count := 1 }
    let busy := { w one with net := [.globalWritePerform ⟨0, 0, 0, 0, 0, 0, 0, 0, [], false, none, false, false, 0, 0⟩] }
    let leaving := { w one with net := [.futureExitArrive ⟨0, 0, z, false⟩] }
    let cool := { s with wk := { s.wk with cooling := [(0, [5, 0])] } }
    (Canonical s ∧ futAt s 0 = none ∧ liveFut s 0 = none) ∧
    (∀ r ∈ [({ one with stuck := true } : Fut), { one with count := 2 ^ 24 - 1 }, { one with count := 2 }, { one with state := .resolved },
        one], Canonical (w r) ∧ liveFut (w r) 0 = some r ∧ futAt (w r) 0 = some r ∧ exitUnderWay (w r) 0 = false ∧ (w r).net = []) ∧
    (let gone := w { one with stuck := true }
     let job := { gone with jb := { jobs := [(0, {})] } }
     let seen := { w one with gm := { (w one).gm with seen := [⟨0, 0, 5, 0, 0, 4⟩] } }
     (Canonical gone ∧ futAt gone 0 = some { one with stuck := true } ∧ tget gone.jb.jobs 0 = none) ∧
     (Canonical job ∧ futAt job 0 = some { one with stuck := true } ∧ (tget job.jb.jobs 0).isSome = true) ∧
     (Canonical seen ∧ ∃ y ∈ seen.gm.seen, y.tid = 0)) ∧
    (Canonical leaving ∧ liveFut leaving 0 = some one ∧ exitUnderWay leaving 0 = true) ∧
    (Canonical (w { one with count := 0 }) ∧ futAt (w { one with count := 0 }) 0 = some { one with count := 0 }) ∧
    ((∃ i ∈ busy.net, effectOf i = some (0, 0)) ∧ Canonical busy) ∧
    (Canonical cool ∧ (tgetD cool.wk.cooling 0 []).take 64 = [5, 0] ∧ cool.net = [] ∧ cool.wk.toks = []) ∧
    (carriesColour 5 (.refChangeArrive ⟨0, false, some 5, none⟩) = true) := by
  simp only [canonical_iff]; and_intros <;> decide +kernel

theorem witness_RequestsGranted :
    let i : Instr := .alloc g1 0#3
    let a : Arena := { size := 128, base := 16 }
    let r := fun (k : Asker) (n key : Nat) => (⟨k, key, n, 1, 0, 0, 0, 0, 0, 0⟩ : AllocReq)
    let s := { idle i with al := { arenas := [(0, a), (64, poolArena 0)] } }
    let l := { s with jb := (launchOf none 2).jb }
    let late := { s with al := { arenas := [(0, { a with last := (s.clk.cycle + 1, 2 ^ 65) })] } }
    (Canonical s ∧ arenaAt s 0 = a ∧ arenaAt s 64 = poolArena 0 ∧ a.waiting = [] ∧ (poolArena 0).waiting = []) ∧
    (Canonical late ∧ inTurn late 0 (arrivalRank (r (.word f0) 128 0)) = false) ∧
    (poolSize s 0 < (r (.spawn f0) 65536 64).size ∧ (poolArena 0).pool = true ∧ inTurn s 64 (arrivalRank (r (.spawn f0) 65536 64)) = true ∧
      Canonical l ∧ (tget l.jb.launches 0).isSome = true ∧ inTurn l 64 (arrivalRank (r (.deal 0) 65536 64)) = true) ∧
    (a.reserve = false ∧ a.pool = false ∧ firstHole (holes s 0) (r (.word f0) 129 0).size = none ∧
      inTurn s 0 (arrivalRank (r (.word f0) 129 0)) = true ∧ (r (.word f0) 129 0).overtakes < { a with limit := 1 }.limit) ∧
    (firstHole (holes { s with al := { arenas := [(0, { a with limit := 1 })] } } 0) 128 = some (16, 128) ∧
      recsFree s 0 (r (.word f0) 128 0) = true ∧ instrAt s 0 placedBase 0 = some i) ∧
    (let res := { idle i with al := { arenas := [(0, { a with reserve := true }), (64, { poolArena 0 with reserve := true })] } }
     let full := { res with al := { res.al with recs := [(0, { live := true, base1 := 16, len1 := 128 })] } }
     let cut := { res with al := { res.al with recs := [(0, { live := true, base1 := 32, len1 := 8 })] } }
     let hand := { res with jb := (launchOf (some ⟨0, 1, some 0, some 5, none⟩) 2).jb }
     let born := { res with wk := { res.wk with births := [⟨f0, 0, 0, 0x10000, some 5, some 0, none⟩] } }
     (Canonical res ∧ inTurn res 0 (arrivalRank (r (.word f0) 128 0)) = true ∧ recsFree res 0 (r (.word f0) 128 0) = true ∧
       reservePlace (holes res 0) 128 = some ((16, 128), (0, 0))) ∧
     (Canonical full ∧ (arenaAt full 0).reserve = true ∧ reservePlace (holes full 0) 8 = none) ∧
     (Canonical cut ∧ reservePlace (holes cut 0) 110 = some ((40, 104), (16, 6)) ∧ instrAt cut 0 placedBase 0 = some i) ∧
     ((arenaAt hand 64).pool = true ∧ reservePlace (holes hand 64) 128 = some ((144, 128), (0, 0))
       ∧ Canonical hand ∧ Canonical born ∧ (tget hand.jb.launches 0).bind (fun l => l.hand) = some ⟨0, 1, some 0, some 5, none⟩ ∧
       birthOf born f0 = some ⟨f0, 0, 0, 0x10000, some 5, some 0, none⟩ ∧ (freeRecs hand 0).length = 4096 ∧
       inTurn hand 64 (arrivalRank (r (.deal 0) 128 64)) = true ∧ inTurn born 64 (arrivalRank (r (.spawn f0) 128 64)) = true)) ∧
    (let o := { r (.word f0) 129 0 with age := 0 }
     let past := { idle i with
       clk := { (idle i).clk with cycle := 5 }, al := { arenas := [(0, { a with limit := 1, waiting := [o] })] } }
     Canonical past ∧ inTurn past 0 (arrivalRank (r (.word f0) 128 0)) = true ∧ (arenaAt past 0).waiting = [o] ∧ o.age < past.clk.cycle ∧
       firstHole (holes past 0) o.size = none ∧ firstHole (holes past 0) 128 = some (16, 128) ∧ recsFree past 0 (r (.word f0) 128 0) = true) ∧
    (let hs := [(0, 4), (10, 7), (20, 5)]
     (hs.map Prod.snd).sum < 17 ∧ hs.find? (fun x => 5 ≤ x.2) = some (10, 7) ∧ (∀ h ∈ hs, h.2 < 12) ∧
       hs = [(0, 4)] ++ (10, 7) :: [(20, 5)]) := by
  simp only [canonical_iff]; and_intros <;> decide +kernel

def cmd (k : CmdKind) : Cmd :=
  { num := 1, tid := 0, order := 0, seq := 0, origin := ⟨0, 0, 0, 0, 0, 0, 0, 0, 0⟩, kind := k, issued := 0, started := true }

theorem witness_SpillsAndReleases :
    let r : Rec := { live := true, len1 := 8, akey := 0, gseq := 7 }
    let o : AllocReq := ⟨.word f0, 0, 8, 1, 0, 0, 0, 0, 0, 0⟩
    let s := fun (a : Arena) => { idle (.mov g1) with al := { recs := [(0, r)], arenas := [(0, a)] } }
    let q : Arena := { size := 8, quiet := 0, waiting := [o], ovSize := 4096 }
    let full := { q with ovSize := 0 }
    let sp : Arena := { size := 8, spilling := some (0, 64) }
    let late := fun (a : Arena) => s { a with last := ((idle (.mov g1)).clk.cycle + 1, 3) }
    let m : ReleaseMsg := ⟨0, 0, true, [], [], 7⟩
    let named := { s {} with en := { ctxs := [(0, { queue := [{ cmd (.cp (.handle 0) (.addr 0) 16 false) with recs := [(0, r)] }] })] } }
    (Canonical named ∧ engineNames named 0 = true) ∧
    (let copied := s { spilling := some (0, 64) }
     Canonical copied ∧ spillingRec copied 0 = true) ∧ spillingRec (s {}) 0 = false ∧
    ({ m with whole := false, cut := [(5, 3)] } : ReleaseMsg).whole = false ∧ (Canonical (late {}) ∧ inTurn (late {}) 0 releaseRank = false) ∧
    (Canonical (s {}) ∧ engineNames (s {}) 0 = false ∧ inTurn (s {}) 0 releaseRank = true ∧ tget (s {}).al.recs 0 = some r ∧ r.akey = 0 ∧
      r.gseq = m.gseq ∧ r.gseq ≠ 6 ∧ (arenaAt (s {}) r.akey).spilling = none) ∧
    (arenaAt (s {}) 0).waiting = [] ∧
    (Canonical (s q) ∧ (arenaAt (s q) 0).quiet ≤ quietTime (s q) (arenaAt (s q) 0) ∧
      latest ((s q).al.recs.filter fun y => spillable (s q) 0 y.1 y.2) = some (0, r) ∧ (spillPlace (s q) 0 0 r).isSome = true) ∧
    (Canonical (s full) ∧ spillPlace (s full) 0 0 r = none ∧
      latest ((s full).al.recs.filter fun y => spillable (s full) 0 y.1 y.2) = some (0, r) ∧ (taskAt (s full) 0).isSome = true ∧
      fireMarked (s full) f0 = false) ∧
    (Canonical (late sp) ∧ inTurn (late sp) 0 spillRank = false) ∧
    (Canonical (s sp) ∧ (arenaAt (s sp) 0).spilling = some (0, 64) ∧ inTurn (s sp) 0 spillRank = true ∧ r.pool = false) := by
  simp only [canonical_iff]; and_intros <;> decide +kernel

def header (rows : Nat) (fmt : Tag) (planes : Nat) : Nat := rows - 1 + 127 * 2 ^ 8 + fmt.code * 2 ^ 16 + planes * 2 ^ 21

/-- A command at the head of a context, over two records of `n` and `m` granules with these states, and with the headers of a
BI tile of one row and two planes, and of an accumulator tile of one row; and a page that may be read and written. -/
def engAt (n m v k : Nat) (c : Cmd) : State := { mem 15 (idle (.mov g1)) with
  en := { ctxs := [(k, { issued := 1, queue := [c] })], leaves := [(leafKey 0 0 0, ⟨1, 0, []⟩)] }
  al := { recs := [(0, { live := true, len1 := n }), (1, { live := true, base1 := n, len1 := m, gseq := 1 })] }
  ls := let t := if v = 0 then [] else (List.range (n + m)).map fun g => (g, BitVec.ofNat 8 v)
    { gst := t, gst1 := t, gst2 := t
      bytes := setBytes (setBytes [] 0 (bytesOf 16 (header 1 .bi 1))) (16 * n) (bytesOf 16 (header 1 .i32 0)) } }

def eng (k : Nat) (c : Cmd) : State := engAt 64 64 1 k c

theorem witness_CommandsRun :
    let w := fun (c : Cmd) => eng 64 { c with started := false }
    let c := cmd (.cp (.addr 0) (.handle 0) 0 false)
    let done := eng 64 { c with status := some 2 }
    (∀ x ∈ [c, { c with revoked := true }, cmd (.cpp 0 1024 1 0 0)], (ctxAt (w x) 64).queue = [{ x with started := false }] ∧
      (∀ h ∈ cmdHandles x.kind, handleSpilling (w x) h = false) ∧ engineHeld (w x) 64 = false ∧ wmmaHeld (w x) 64 { x with started := false } = false ∧ performedBelow (w x) 0 0 = true) ∧
    ((ctxAt (eng 64 c) 64).queue = [c] ∧ c.started = true) ∧
    (let busy := { w c with al := { (w c).al with arenas := [(0, { spilling := some (0, 64) })] } }
     ∃ h ∈ cmdHandles c.kind, handleSpilling busy h = true) ∧
    ((ctxAt done 64).queue = [{ c with status := some 2 }] ∧ c.status = none ∧ c.num ≠ 0) := by decide +kernel

def readsB (s : State) (c : Cmd) (h off : Nat) : Bool :=
  match cmdGranule s c h (off / 16) with
  | some (.here g) => decide (gState s.ls g = 1) && !gPoison s.ls g
  | _ => false

theorem reads_of {s : State} {c : Cmd} {h off : Nat} (e : readsB s c h off = true) : ∃ g b, Reads s c h off g b := by
  unfold readsB at e
  split at e
  · rename_i g hg; simp at e; exact ⟨g, _, ⟨hg, e.1, e.2, rfl⟩⟩
  · cases e

theorem readable_of {s : State} {c : Cmd} {rs : List (Side × Nat)} (h : s.ls.upset = [] ∧
    rs.all (fun e => match e.1 with | .handle h => readsB s c h e.2 | _ => false) = true) : Readable s c rs := by
  refine ⟨h.1, fun e he => ?_⟩
  have h2 := List.all_eq_true.mp h.2 e he
  revert h2; cases hk : e.1 with
  | addr a => intro h2; cases h2
  | handle k => exact fun h2 => let ⟨g, b, r⟩ := reads_of h2; ⟨k, g, b, rfl, r⟩

theorem readsPresent_of {s : State} {c : Cmd} {rs : List (Side × Nat)} (h : Readable s c rs) : ReadsPresent s c rs := by
  intro e he
  obtain ⟨k, g, b, hk, hr⟩ := h.2 e he
  simp [hk, SidePresent, hr.place]

def openB (s : State) (c : Cmd) (h j : Nat) : Bool :=
  match cmdGranule s c h j with
  | some (.here g) => decide (gState s.ls g ≠ 2)
  | _ => false

theorem writable_of {s : State} {c : Cmd} {h : Nat} {js : List Nat} (a : js.all (openB s c h) = true)
    (b : ∀ i ∈ js, ∀ j ∈ js, i ≠ j → cmdGranule s c h i ≠ cmdGranule s c h j) : Writable s c h js := by
  refine ⟨fun j hj => ?_, b⟩
  have h2 := List.all_eq_true.mp a j hj
  unfold openB at h2
  split at h2
  · rename_i g hg; exact ⟨g, hg, by simpa using h2⟩
  · cases h2

/-- A gather of four rows of 32 bytes, whose indices stand at the start of the second record. -/
def gatherCmd (sc : Bool) (src dst : Side) : Cmd := { cmd (.gather sc 0) with gat := some ⟨src, dst, 1024, 32, 4⟩ }

theorem witness_EnginesMove :
    (let c := cmd (.cp (.handle 0) (.handle 1024) 64 false)
     Canonical (eng 0 c) ∧ Runs (eng 0 c) 0 c ∧ readsB (eng 0 c) c 0 0 = true ∧ openB (eng 0 c) c 1024 0 = true) ∧
    (let c := gatherCmd false (.handle 0) (.handle 1024)
     let d := { c with elem := some 0 }
     Canonical (eng 64 c) ∧ Runs (eng 64 c) 64 c ∧ readsB (eng 64 c) c 1024 0 = true ∧
     Canonical (eng 64 d) ∧ Runs (eng 64 d) 64 d ∧ rowFits d (eng 64 d) (.handle 0) 0 32 = true ∧
       rowFits d (eng 64 d) (.handle 1024) 0 32 = true ∧ readsB (eng 64 d) d 0 0 = true ∧ openB (eng 64 d) d 1024 0 = true) ∧
    (∀ n ∈ [1, 256], let c := { cmd (.wload 0 0 0) with row := n, form := 1, recs := [(0, { live := true, len1 := 257 })] }
     Canonical (engAt 257 0 1 128 c) ∧ Runs (engAt 257 0 1 128 c) 128 c ∧ readsB (engAt 257 0 1 128 c) c 0 (16 * n) = true ∧
       bBad 1 n 0 = false) := by
  simp only [Runs, canonical_iff]; and_intros <;> decide +kernel

theorem witness_GatherRows :
    let runs_ := fun (s : State) (c : Cmd) => Canonical s ∧ Runs s 64 c ∧ s.ls.upset = []
    let fits := fun (s : State) (c : Cmd) (j : Int) (src dst : Side) =>
      ¬ ((0 ≤ j ∧ rowFits c s src j.toNat 32 = false) ∨ rowFits c s dst 0 32 = false)
    let c := gatherCmd false (.handle 0) (.handle 1024)
    let c2 := fun (sc : Bool) (j : Int) => { gatherCmd sc (.handle 0) (.handle 1024) with elem := some j }
    let up := { gatherCmd false (.handle 0) (.addr 0x10000) with elem := some (-1) }
    let down := { gatherCmd false (.addr 0x10000) (.handle 1024) with elem := some 0 }
    (runs_ (eng 64 c) c ∧ readsB (eng 64 c) c 1024 0 = true) ∧
    (∀ v ∈ [0, 9], runs_ (engAt 64 64 v 64 c) c ∧ cmdGranule (engAt 64 64 v 64 c) c 1024 0 = some (.here 64) ∧
      gState (engAt 64 64 v 64 c).ls 64 = v % 2 ∧ gPoison (engAt 64 64 v 64 c).ls 64 = decide (v = 9)) ∧
    runs_ (eng 64 (c2 true (-1))) (c2 true (-1)) ∧
    (runs_ (eng 64 (c2 false 32)) (c2 false 32) ∧ rowFits (c2 false 32) (eng 64 (c2 false 32)) (.handle 0) 32 32 = false) ∧
    (runs_ (eng 64 (c2 true 32)) (c2 true 32) ∧ rowFits (c2 true 32) (eng 64 (c2 true 32)) (.handle 1024) 32 32 = false) ∧
    (runs_ (eng 64 (c2 false (-1))) (c2 false (-1)) ∧ fits (eng 64 (c2 false (-1))) (c2 false (-1)) (-1) (.handle 0) (.handle 1024) ∧
      openB (eng 64 (c2 false (-1))) (c2 false (-1)) 1024 0 = true) ∧
    (runs_ (eng 64 up) up ∧ fits (eng 64 up) up (-1) (.handle 0) (.addr 0x10000) ∧ presentB (eng 64 up) 0 0x10000 = true ∧
      devXlat (eng 64 up) 0 0x10000 .write = .hit 0x10000 0 false) ∧
    (runs_ (eng 64 down) down ∧ fits (eng 64 down) down 0 (.addr 0x10000) (.handle 1024) ∧ presentB (eng 64 down) 0 0x10000 = true ∧
      (match fetch16 (eng 64 down) down (.addr 0x10000) 0 with | .bytes _ _ => true | _ => false) = true ∧
      openB (eng 64 down) down 1024 0 = true) ∧
    (runs_ (eng 64 (c2 false 31)) (c2 false 31) ∧ fits (eng 64 (c2 false 31)) (c2 false 31) 31 (.handle 0) (.handle 1024) ∧
      readsB (eng 64 (c2 false 31)) (c2 false 31) 0 (31 * 32) = true ∧ openB (eng 64 (c2 false 31)) (c2 false 31) 1024 0 = true) ∧
    (runs_ (engAt 64 64 0 64 (c2 false 0)) (c2 false 0) ∧
      fits (engAt 64 64 0 64 (c2 false 0)) (c2 false 0) 0 (.handle 0) (.handle 1024) ∧
      fetch16 (engAt 64 64 0 64 (c2 false 0)) (c2 false 0) (.handle 0) 0 = .wait) := by
  simp only [Runs, canonical_iff]; and_intros <;> decide +kernel

/-- A load at one of its granules, over a record that holds this header. -/
def loadAt (n row hdr v : Nat) : State × Cmd :=
  let c := { cmd (.wload 0 0 0) with row := row, form := 1, recs := [(0, { live := true, len1 := n })] }
  let s := engAt n 0 v 128 c
  ({ s with en := { s.en with leaves := [(leafKey 0 0 0, ⟨1, 0, []⟩), (leafKey 0 0 1, ⟨1, 0, []⟩), (leafKey 0 0 2, ⟨1, 0, []⟩)] }
            ls := { s.ls with bytes := setBytes [] (16 * row) (bytesOf 16 hdr) } }, c)

theorem witness_WloadGranules :
    let runs_ := fun (e : State × Cmd) => Canonical e.1 ∧ Runs e.1 128 e.2 ∧ e.1.ls.upset = []
    let clash := fun (form : Nat) => (bQuarters 1 1).any fun q => (bQuarters form 0).contains q
    (runs_ (loadAt 64 64 0 1) ∧ cmdGranule (loadAt 64 64 0 1).1 (loadAt 64 64 0 1).2 0 64 = none) ∧
    (∀ v ∈ [0, 9], runs_ (loadAt 64 0 0 v) ∧ cmdGranule (loadAt 64 0 0 v).1 (loadAt 64 0 0 v).2 0 0 = some (.here 0) ∧
      gState (loadAt 64 0 0 v).1.ls 0 = v % 2 ∧ gPoison (loadAt 64 0 0 v).1.ls 0 = decide (v = 9)) ∧
    (∀ e ∈ [(257, header 128 .tern 1, some 1), (521, header 128 .i8 3, some 2), (256, header 128 .tern 1, none), (521, header 1 .bi 1, none)],
      let x := loadAt e.1 0 e.2.1 1
      runs_ x ∧ readsB x.1 x.2 0 0 = true ∧ (cmdRec x.1 x.2 0).isSome = true ∧ natOfBytes (granuleAt x.1.ls 0) = e.2.1 ∧
        (bForm e.2.1).filter (fun f => bSquare e.2.1 && bAccepts f 0 && decide (bGranules f ≤ e.1)) = e.2.2) ∧
    (clash 1 = false ∧ clash 2 = true) ∧
    (∀ e ∈ [(1, 2, true), (1, 0, false), (256, 0, false)],
      let x := loadAt 257 e.1 e.2.1 1
      runs_ x ∧ readsB x.1 x.2 0 (16 * e.1) = true ∧ bBad 1 e.1 (natOfBytes (granuleAt x.1.ls e.1)) = e.2.2) := by
  simp only [Runs, canonical_iff]; and_intros <;> decide +kernel

/-- A WMMA with this many rows, at this row, with these rows taken. -/
def wmmaCmd (rows row : Nat) (taken : List TakenRow) : Cmd :=
  { cmd (.wmma 0 0 true 0 1024) with rows := rows, planes := 2, row := row, taken := taken }

def takenRow : TakenRow := ⟨0, List.replicate 32 (5#128, false), 0⟩

theorem witness_WmmaRows :
    let runs_ := fun (s : State) (c : Cmd) => Canonical s ∧ Runs s 128 c ∧ s.ls.upset = []
    let bare := fun (c : Cmd) => { eng 128 c with en := { (eng 128 c).en with leaves := [] } }
    let held := fun (c : Cmd) => { eng 128 c with sh := { saved := [(0, ⟨0, false, false⟩)] } }
    let a := wmmaCmd 1 0 []
    let last := wmmaCmd 1 1 [takenRow]
    let more := wmmaCmd 2 1 [takenRow]
    (runs_ (eng 128 a) a ∧ TakesRow (eng 128 a) 128 a 0 1024 ∧ (tget (eng 128 a).en.leaves (leafKey (ctxPane 128) 0 0)).isSome = true ∧
      Readable (eng 128 a) a (wmmaReads 0 1024 1 2 0) ∧ ReadsPresent (eng 128 a) a (wmmaReads 0 1024 1 2 0)) ∧
    (∀ c ∈ [last, more], runs_ (eng 128 c) c ∧ ¬ TakesRow (eng 128 c) 128 c 0 1024 ∧ takenRow.vals.length = 32 ∧
      Writable (eng 128 c) c 1024 ((List.range 32).map fun i => 1 + i)) ∧
    (runs_ (bare a) a ∧ tget (bare a).en.leaves (leafKey (ctxPane 128) 0 0) = none ∧ a.row < a.rows ∧ wmmaHeld (bare a) 128 a = false) ∧
    (runs_ (eng 128 (wmmaCmd 1 1 [])) (wmmaCmd 1 1 []) ∧ runs_ (held a) a ∧ wmmaHeld (held a) 128 a = true) ∧
    (runs_ (engAt 64 64 0 128 a) a ∧ readsReady (engAt 64 64 0 128 a) a (wmmaReads 0 1024 1 2 0) = false) := by
  simp only [Runs, TakesRow, canonical_iff]
  refine ⟨⟨?_, ?_, ?_, readable_of ?_, readsPresent_of (readable_of ?_)⟩, fun c hc => ⟨?_, ?_, ?_, writable_of ?_ ?_⟩, ?_, ?_, ?_⟩ <;>
    first | decide +kernel | (revert c; decide +kernel)

/-- A CVTT to 16 planes with this many rows, at this row. -/
def cvttCmd (rows row : Nat) : Cmd := { cmd (.cvtt 16 0 1024) with rows := rows, row := row, form := 32 }

theorem witness_CvttRows :
    let runs_ := fun (s : State) (c : Cmd) => Canonical s ∧ Runs s 131 c ∧ s.ls.upset = []
    let reads := fun (r : Nat) => (List.range 32).map fun i => (Side.handle 0, 16 * (1 + r * 32 + i))
    let s := fun (v rows row : Nat) => engAt 600 300 v 131 (cvttCmd rows row)
    (∀ e ∈ [(1, 0, [1]), (2, 0, []), (17, 15, [1])], runs_ (s 1 e.1 e.2.1) (cvttCmd e.1 e.2.1) ∧
      readsReady (s 1 e.1 e.2.1) (cvttCmd e.1 e.2.1) (reads e.2.1) = true ∧ ReadsPresent (s 1 e.1 e.2.1) (cvttCmd e.1 e.2.1) (reads e.2.1) ∧
      Writable (s 1 e.1 e.2.1) (cvttCmd e.1 e.2.1) 1024
        ((List.range 16).map (fun p => 1 + scaleGranules e.1 + e.2.1 * 16 + p) ++ e.2.2)) ∧
    Readable (s 1 1 0) (cvttCmd 1 0) (reads 0) ∧
    (runs_ (s 0 1 0) (cvttCmd 1 0) ∧ readsReady (s 0 1 0) (cvttCmd 1 0) (reads 0) = false ∧
      ∀ x ∈ reads 0, fetch16 (s 0 1 0) (cvttCmd 1 0) x.1 x.2 ≠ .stop) := by
  simp only [Runs, canonical_iff]
  refine ⟨fun e he => ⟨?_, ?_, readsPresent_of (readable_of ?_), writable_of ?_ ?_⟩, readable_of ?_, ?_⟩ <;>
    first | decide +kernel | (revert e; decide +kernel)

theorem witness_WalksFillsAndReads :
    let i : Instr := .ld (m1 .i32)
    let s := { mem 15 (idle i) with wk := { (idle i).wk with waits := [(f0, .read)] } }
    let m : ReadMsg := ⟨f0, 0, 0, some 0, false, 0x10000, 0x10000, 0, 4, .i32, none, [], false, false, none, [], none⟩
    let w : WalkMsg := ⟨0, 0, 0, 0x10000, false, .word f0⟩
    let tab := fun (e : Nat) => { s with gm := { s.gm with lines := [(0, { data := BitVec.ofNat 1024 (1 + e * 2 ^ 64) })] } }
    (instrAt s 0 placedBase 0 = some i ∧ waiting (idle i) f0 = false ∧ waiting s f0 = true ∧ m.rest = none) ∧
    (linesHere s 0x10000 4 0 = true ∧ performedBelow s 0 0 = true ∧ ownEarlier s 0 0 0 0x10000 4 = false ∧
      copyHolds (meetCopies s m) m = false ∧ s.gm.early = [] ∧ nearCopies (meetCopies s m) m = [] ∧ linesHere s 0x20000 4 0 = false) ∧
    (let part := { m with width := 2, rest := some (0x20000, 0, 2) }
     let seen := { s with gm := { s.gm with seen := [⟨0, 0, 5, 0, devLoc 0 0x10000, 4⟩] } }
     part.rest = some (0x20000, 0, 2) ∧ copyHolds (meetCopies s part) part = false ∧ linesHere s 0x10000 2 0 = true ∧
       copyHolds (meetCopies seen m) m = true) ∧
    (w.who = .word f0 ∧ (walk s 0 0x10000).1 = .leaf ⟨0, 0x10000, 65536, 0x1000F#64⟩) ∧
    ((walk (tab 0x83) 0 0x10000).1 = .refused ∧ waiting (tab 0x83) f0 = true) ∧
    ((walk (tab 0) 0 0x10000).1 = .missing 4 8 0 ∧ waiting (tab 0) f0 = true) ∧
    (tget s.gm.lines 512).isSome = true ∧
    (tget s.gm.lines 7 = none ∧ (lineSet 7).isSome = true ∧ ∀ st ∈ (lineSet 7).toList, (setLines s.gm st).length < 24) := by
  decide +kernel

theorem atHome_of {s : State} {tid seq after pa width : Nat} (h : (tget s.gm.lines (pa / 128)).isSome = true ∧
    (0 < width ∧ pa % 128 + width ≤ 128) ∧ performedBelow s tid after = true ∧ ownEarlier s tid seq 0 pa width = false) :
    AtHome s tid seq after pa width := ⟨h.1, h.2.1, h.2.2.1, h.2.2.2⟩

theorem witness_StoresAndAtomicsPerform :
    let s := mem 15 (idle (.mov g1))
    let m : WriteMsg := ⟨0, 0, 0, 0, 0, 0x1007C, 0x1007C, 0, [1, 2, 3, 4], false, none, false, false, 0, 0⟩
    let a : AtomMsg := ⟨0, 0, 0, 0, none, 0, 0x1007C, 0, .cas, .i32, z, z, none, 0, 0, 0, 0x1007C⟩
    AtHome s 0 0 0 0x1007C 4 ∧ TrackedHere s 0 ∧ StartsTracked s ∧ (taskD s 0).writes = [] ∧
    (seenHolds s 0 0 0x1007C 4 = false ∧ rankHolds s m = false ∧
      (let read := { s with gm := { s.gm with
         seen := [⟨0, 0, 5, 0, devLoc 0 0x1007C, 4⟩]
         mcast := [(0, [{ pa := devLoc 0 0x1007C, bytes := [1], tid := 0, seq := 0, rank := 2 },
           { pa := devLoc 0 0x1007C, bytes := [2], tid := 5, seq := 0, rank := 1 }])] } }
       seenHolds read 0 0 0x1007C 4 = true ∧ rankHolds read m = true)) ∧
    (ownEarlier s 0 0 3 0x1007C 4 = false ∧ seenHolds s 0 3 0x1007C 4 = false) ∧
    (linesHere s 0x20000 4 0 = false ∧ m.rdev = 0 ∧ m.release = none ∧ m.poison = false) ∧
    (performedBelow s 0 0 = true ∧ ownEarlier s 0 0 1 0x1007C 4 = false) ∧
    (homePoison s a.pa 0 4 = false ∧ tokBits (loadTok .i32 (paBytes s.gm a.pa 4)) = tokBits z ∧
      tokBits (loadTok .i32 (paBytes s.gm a.pa 4)) ≠ tokBits (n32 1) ∧ poisonTok.tag = .poison) := by
  refine ⟨atHome_of (by decide +kernel), ?_, (fun w hw => by cases hw), ?_, ?_, ?_, ?_, ?_, ?_⟩ <;>
    first | decide +kernel | (intro k hk; revert k; decide +kernel)

theorem witness_MemoryReads : Memory.wf [] = true ∧ Memory.wf [(0, 1), (7, 255)] = true ∧ Tag.isInt .i8 = true := by decide

theorem witness_LevelsComplete :
    let s := { idle (.mov g1) with wk := { (idle (.mov g1)).wk with tasks := [] } }
    let l := fun (x : Launch) => { s with
      jb := { launches := [(5, { x with id := 5 })], phases := [(0, {})], jobs := [(0, {})] } }
    let shut : Lvl := { isOpen := false }
    let c := { l { ready := true } with
      jb := { phases := [(0, { lvl := { shut with done := true } })], jobs := [(0, { phase := 1, endAt := some 0x10000 })] } }
    let p := { s with jb := { phases := [(0, { lvl := shut })] } }
    let unread := { p with jb := { p.jb with launches := [(5, { graph := noGraph })] } }
    let paged := { mem 15 c with wk := c.wk }
    let ended := fun (h : List DevAccess) => { c with
      jb := { c.jb with jobs := [(0, { endAt := some 0x10000, lvl := { shut with done := true } })], heldDev := h } }
    let after := fun (d : Bool) => { l {} with jb := { phases := [(0, { lvl := { shut with done := d } }), (1, {})], jobs := [(0, { phase := 1 })] } }
    let rec1 := fun (u : State) => recordHeld (devWrite u 0 0 0x10000 (bytesOf 16 0)) 0 0x10000
    (Canonical (l { ready := true }) ∧ launchBusy (l { ready := true }) 5 = false ∧
      launchDealt (l { ready := true }) { ready := true, id := 5 } = true ∧ issuedAfter (l { ready := true }) 0 0 5 < 4096) ∧
    (launchDealt (l { reccount := 1 }) { reccount := 1, id := 5 } = false) ∧
    ((tget s.cf.graphs 0).map (fun g => (g.phase, g.lvl.done)) = some (some 0, false) ∧
      (tgetD s.jb.phases (phaseKey 0 0 0) {}).lvl.isOpen = true ∧ (tgetD p.jb.phases (phaseKey 0 0 0) {}).lvl.isOpen = false ∧
      p.jb.launches = [] ∧ Canonical p ∧ Canonical unread) ∧
    ((tget (l {}).jb.phases 0).map (fun x => x.lvl.isOpen) = some true ∧ (l {}).jb.launches ≠ []) ∧
    ((tget c.jb.phases 0).map (fun x => x.lvl.done) = some true ∧ recsOfGraphs c (fun g => g / 65536 = 0) = [] ∧
      (tget c.jb.jobs 0).map (fun j => (j.endAt, j.phase)) = some (some 0x10000, 1) ∧ Canonical c ∧
      rec1 c = true ∧ rec1 paged = false ∧ Canonical paged) ∧
    (∀ h ∈ [[], [.record 0 0 0x10000 []]], Canonical (ended h) ∧ recordHeld (ended h) 0 0x10000 = decide (h ≠ []) ∧
      (tget (ended h).jb.jobs 0).map (fun j => (j.endAt, j.lvl.done)) = some (some 0x10000, true)) ∧
    (∀ d ∈ [true, false], Canonical (after d) ∧ (tget (after d).jb.phases 1).isSome = true ∧
      (tgetD (after d).jb.phases 0 {}).lvl.done = d) ∧
    ((tget (l {}).jb.jobs 0).map (fun j => (j.endAt, j.phase)) = some (none, 0)) ∧
    (let b := { c with jb := { c.jb with phases := [(0, {}), (1, {})] } }
     ∃ y ∈ b.jb.phases, y.1 / 2 ^ 32 = 0 ∧ y.2.lvl.done = false) := by
  simp only [canonical_iff]; and_intros <;> decide +kernel

/-- Open launches of graph 0, one for each of `n` keys from `k` on. -/
def launchesOf : Nat → Nat → Table Launch
  | _, 0 => []
  | k, n + 1 => (k, {}) :: launchesOf (k + 1) n

theorem launchesOf_sorted (n k : Nat) : tsorted none (launchesOf k n) = true := by
  suffices h : ∀ n b k, b < k → tsorted (some b) (launchesOf k n) = true by
    cases n with
    | zero => rfl
    | succ n => exact h n k (k + 1) k.lt_succ_self
  intro n
  induction n with
  | zero => intros; rfl
  | succ n ih => intro b k h; simp [launchesOf, tsorted, h, ih k (k + 1) k.lt_succ_self]

theorem canonical_launches {s : State} (h : Canonical s) (k n : Nat) :
    Canonical { s with jb := { s.jb with launches := launchesOf k n } } := { h with launches := launchesOf_sorted n k }

theorem launchesOf_counted (p : Nat × Launch → Bool) (hp : ∀ k, p (k, {}) = true) (n k : Nat) :
    ((launchesOf k n).filter p).length = n := by
  induction n generalizing k with
  | zero => rfl
  | succ n ih => simp [launchesOf, hp, ih]

theorem tget_mem {α : Type} {t : Table α} {k : Nat} {v : α} (h : tget t k = some v) : (k, v) ∈ t := by
  induction t with
  | nil => simp [tget] at h
  | cons e t ih =>
    obtain ⟨j, w⟩ := e
    simp only [tget] at h
    split at h <;> simp_all

/-- A graph with 2^32 − 1 open launches takes none more (R260). -/
theorem launchFull_many {s : State} (g : Graph) (hj : (tgetD s.jb.jobs 0 {}).phase = 0) (hg : tget s.cf.graphs 0 = some g)
    (hp : g.phase = some 0) (hl : s.jb.launches = launchesOf 0 (2 ^ 32 - 1)) : launchFull s 0 0 = true := by
  have hc := launchesOf_counted (fun e => countsIn 0 (tgetD s.cf.graphs 0 {}) e.2 && !e.2.lvl.done) (fun _ => by simp [countsIn])
    (2 ^ 32 - 1) 0
  have hf : countFull (graphUnits s 0) = true := by
    simp only [countFull, graphUnits, hl, hc, decide_eq_true_eq]
    exact Nat.le_add_right _ _
  simp only [launchFull, List.any_eq_true]
  exact ⟨(0, g), tget_mem hg, by simp [jobKey, hj, hp, hf]⟩

theorem witness_InboxRuns :
    let s := fun (d : Nat) => { idle (.mov g1) with
      jb := { vis := [(0, { configured := true })] }
      gm := { (idle (.mov g1)).gm with lines := [(0, { data := BitVec.ofNat 1024 (d + 2 ^ 448) }), (31, {})] } }
    let none' := { s 0 with gm := { (s 0).gm with lines := [] } }
    let slotSeal := { s 2 with cf := { (s 2).cf with graphs := (s 2).cf.graphs.map fun e => (e.1, { e.2 with phase := none }) } }
    (Canonical (s 1) ∧ (s 1).bt.ready = true ∧ (viD (s 1) 0).configured = true ∧ slotFull (slotAt (s 1) 0 63) = false ∧
      (tget (s 1).gm.lines (slotPa (s 1) 0 63 / 128)).isSome = true ∧ (tget (s 1).gm.lines (slotPa (s 1) 0 0 / 128)).isSome = true ∧
      slotFull (slotAt (s 1) 0 0) = true ∧ (viD State.reset 0).configured = false) ∧
    ringHead none' 0 = none ∧
    (∀ d ∈ [1, 2, 3 + 2 ^ 192, 4, 5 + 3 * 2 ^ 8, 6], ringHead (s d) 0 = some (d + 2 ^ 448) ∧ slotBad (d + 2 ^ 448) = false ∧
      jobRefuses (s d) (jobKey 0 (slotJob d)) (slotKind d) = false) ∧
    (imageHeld (s 1) 0 = false ∧ (match load (openJob (s 1) 0 0) 0 0 0 0 with
      | .ok (_, s2) => decide ((viD s2 0).index = (viD (s 1) 0).index) | _ => false) = true) ∧
    (Canonical slotSeal ∧ (tget slotSeal.cf.graphs 0).map (fun g => (g.armed, g.phase)) = some (true, none)) ∧
    (countFull (phaseUnits (openJob slotSeal 0 0) 0) = false ∧ launchFull (openJob (s 4) 0 0) 0 0 = false ∧
      (let held := { s 4 with jb := { (s 4).jb with launches := launchesOf 0 (2 ^ 32 - 1) } }
       Canonical held ∧ launchFull (openJob held 0 0) 0 0 = true)) ∧
    ((tgetD (openJob (s 3) 0 0).jb.jobs 0 {}).phase = 0 ∧ slotN (3 + 2 ^ 192) = 1 ∧
      phasesFull (openJob (s 3) 0 0) 0 = false ∧ slotLevel (5 + 3 * 2 ^ 8) = 3 ∧
      (tgetD (openJob (s 5) 0 0).jb.jobs 0 {}).lvl.cancelled = false ∧ (tgetD (openJob (s 5) 0 0).jb.jobs 0 {}).lvl.done = false) := by
  intro s none' slotSeal
  have wf := canonical_launches (canonical_iff.mpr (by decide +kernel : canonB (s 4) = true)) 0
  refine ⟨?_, ?_, ?_, ?_, ?_, ⟨?_, ?_, wf _, launchFull_many ((tget (s 4).cf.graphs 0).getD {}) ?_ rfl ?_ rfl⟩, ?_⟩
  all_goals try simp only [canonical_iff]
  all_goals and_intros <;> decide +kernel

theorem witness_FirmwareActs :
    let s := idle (.mov g1)
    let m : Mail := ⟨0, 0, 0, 0, none, 0x10000, 0, 0, 0, 0⟩
    let mail := { s with fw := { mailbox := [(0, m)], grants := [(0, List.replicate 16 0)] } }
    let w : WalkMsg := ⟨0, 0, 0, 0x10000, false, .word f0⟩
    let held := { mem 0 s with
      gm := { (mem 0 s).gm with lines := [(0, { data := 1 })], held := [w] }
      wk := { s.wk with waits := [(f0, .page)] } }
    let stop := { s with wk := { s.wk with tasks := tmod s.wk.tasks 0 fun t => { t with stopped := true } } }
    (Canonical s ∧ tget s.fw.mailbox 0 = none) ∧
    (Canonical mail ∧ tget mail.fw.mailbox 0 = some m ∧ tgetD mail.fw.queue 0 [] = [] ∧
      (tgetD mail.fw.grants 0 []).length = 16 ∧ (tgetD s.fw.grants 0 []).length = 0) ∧
    (Canonical held ∧ (walk held 0 0x10000).1 = .missing 4 8 0 ∧ held.jb.heldDev = [] ∧ held.gm.held = [w] ∧
      w.who = .word f0 ∧ waiting held f0 = true ∧ (tget held.gm.lines (8 / 128)).isSome = true) ∧
    (taskAt State.reset 0 = none ∧ (taskAt s 0).map (fun t => t.stopped) = some false) ∧
    (Canonical stop ∧ (taskAt stop 0).map (fun t => t.stopped) = some true ∧ shuttered stop 0 = false) := by
  simp only [canonical_iff]; and_intros <;> decide +kernel

/-- Where the first table at 0 holds no entry for low addresses, their pages are missing and no line is filled for them. -/
theorem missing_present {s : State} {vi va : Nat} (hr : (tgetD s.jb.vis vi {}).root = 0)
    (he : natOfBytes (paBytes s.gm 0 8) = 0) (hl : (tget s.gm.lines 0).isSome = true) (hv : va < 4096) : Present s vi va := by
  have hw : walk s vi va = (.missing 0 0 0, [0]) := by
    have h0 : bits va 42 10 = 0 := by simp only [bits]; omega
    have hb : eBit 0 0 = false := by decide
    simp [walk, walkFrom, levelShape, hr, h0, he, hb]
  simp [Present, hw, hl]

theorem witness_ShuttersRun :
    let s := idle (.mov g1)
    let g := tgetD s.cf.graphs 0 {}
    let x := fun (m : List Nat) (c : Bool) => { s with sh := { active := [(0, ⟨.firmware, m, c⟩)] } }
    let all := x (regionCells g) false
    let cut := { x [] true with jb := { vis := [(0, { configured := true, saveSize := 4096 })] } }
    let saved := { s with sh := { saved := [(0, ⟨0, false, false⟩)] } }
    let armed := { s with sh := { saved := [(0, ⟨0, false, true⟩)] }, gm := { s.gm with lines := [(0, {})] } }
    let loads := { armed with en := { ctxs := [(128, { queue := [{ cmd (.wload 0 0 0) with num := 0, started := false, graph := 0 }] })] } }
    let ahead := { x [] false with net := [.tokenArrive ⟨0, 0, placedBase, 0, .l, z, 0, true⟩] }
    let rows := { all with en := { ctxs := [(128, { queue := [wmmaCmd 1 1 [takenRow]] })] } }
    (Canonical s ∧ tget s.cf.graphs 0 = some g ∧ tget s.sh.active 0 = none ∧ g.place.isSome = true ∧ tget s.sh.saved 0 = none) ∧
    (Canonical saved ∧ (tget saved.sh.saved 0).isSome = true) ∧
    (Canonical (x [] false) ∧ 0 ∈ regionCells g ∧ 15 ∈ regionCells g ∧ 16 ∉ regionCells g ∧
      tokensAhead (x [] false) 0 0 = false ∧ tokensAhead (x [] false) 0 15 = false ∧ Canonical ahead ∧ tokensAhead ahead 0 0 = true) ∧
    (Canonical all ∧ ((tget all.sh.active 0).map fun y => y.cut) = some false ∧
      (∀ c ∈ regionCells g, c ∈ ((tget all.sh.active 0).map fun y => y.marked).getD []) ∧
      (taskAt all 0).map (fun t => t.graph) = some 0 ∧ (instAt all 0 0).map (fun i => (i.tid, i.iter)) = some (0, 0) ∧
      rowsWritten all 0 = true ∧ Canonical rows ∧ rowsWritten rows 0 = false) ∧
    (Canonical cut ∧ ((tget cut.sh.active 0).map fun y => y.cut) = some true ∧ areaHolds cut 0 g = true) ∧
    (let held := { saved with cf := { saved.cf with held := [⟨0, 0, 0, true⟩] } }
     bindHeld saved 0 = false ∧ Canonical held ∧ bindHeld held 0 = true) ∧
    (contextsBound saved 0 = true ∧ lostCell saved g = false ∧ contextsBound { saved with cf := { saved.cf with slots := [] } } 0 = false) ∧
    (Canonical armed ∧ Canonical loads ∧ ((tget armed.sh.saved 0).map fun v => v.armed) = some true ∧ replaysRun armed 0 = false ∧
      replaysRun loads 0 = true ∧ armed.wk.toks = [] ∧ (taskAt armed 0).map (fun t => (t.graph, t.stopped)) = some (0, false) ∧
      (graphSlots armed 0).map slotPane = [(taskD armed 0).pane] ∧ runningTasks armed 0 = [0]) ∧
    PagesPresent armed 0 g := by
  intro s g x all cut saved armed loads ahead rows
  have pages : PagesPresent armed 0 g := by
    intro i hi va _ hv
    have hi : i = 0 := by simpa using (show i ∈ [0] from hi)
    have hb : pageBase armed g i = 0 := by subst hi; decide +kernel
    exact missing_present (by decide +kernel) (by decide +kernel) (by decide +kernel) (by omega)
  refine ⟨?_, ?_, ?_, ?_, ?_, ?_, ?_, ?_, pages⟩
  all_goals simp only [canonical_iff]; and_intros <;> decide +kernel

theorem witness_ParityErrors :
    let s := fun (fromRead : Bool) (n : Nat) => { idle (.mov g1) with
      wk := { (idle (.mov g1)).wk with toks := [⟨⟨0, 0, placedBase, 0, .l, z, 0, fromRead⟩, 0, .store⟩] }
      bt := { parity := if n = 0 then [] else [(0, n)] } }
    ∀ b ∈ [true, false], ∀ n ∈ [0, 1, 2, 3], Canonical (s b n) ∧ (taskAt (s b n) 0).isSome = true ∧
      ((s b n).wk.toks.find? fun y => sameWord y f0 && y.msg.port = .l).map (fun e => e.msg.fromRead) = some b ∧
      cellOf (s b n) (taskD (s b n) 0) placedBase 0 = 0 ∧ tgetD (s b n).bt.parity 0 0 = n ∧
      (instAt (s b n) 0 0).map (fun x => (x.block, x.tid, x.iter)) = some (placedBase, 0, 0) := by
  simp only [canonical_iff]; decide +kernel

theorem witness_BindsAndInvalidations :
    let s := idle (.mov g1)
    let old := 2 ^ 38 + 3 * 2 ^ 42 + 2 ^ 44
    let free := { s with wk := { s.wk with insts := [] }, cf := { s.cf with slots := [] } }
    let h : HeldBind := ⟨0, 0, 0, true⟩
    let held := { free with cf := { free.cf with held := [h] } }
    let e : TlbEntry := ⟨0, 0x10000, 65536, 0x1000F#64⟩
    let x : Inval := ⟨7, 0, 0, 0, 0x20000, [e], [f0], [], [(0, 0)]⟩
    let inv := { s with gm := { s.gm with invals := [x] } }
    let used := { inv with net := [.globalWritePerform ⟨0, 0, 0, 0, 0, 0, 0x10000, 0, [1], false, none, false, false, 0, 0⟩] }
    let g := tgetD s.cf.graphs 0 {}
    (Canonical s ∧ bindRec s 0 0 = old ∧ contextLive s 0 0 = true ∧ sameContext old (old + 2 ^ 38) = true ∧
      sameContext old 0 = false ∧ (tget s.cf.graphs (bindGraph old)).isSome = true ∧ g.place.isSome = true) ∧
    (let cutting := { s with wk := { s.wk with insts := [] }, sh := { active := [(0, ⟨.firmware, [], true⟩)] } }
     contextLive cutting 0 0 = false ∧ bindValid (bindRec cutting 0 0) = true ∧ (tget cutting.sh.active (bindGraph old)).isSome = true) ∧
    (contextLive free 0 0 = false ∧ bindValid 0 = false ∧ sameContext (bindRec free 0 0) 1 = false) ∧
    (bindValid (bindRec free 0 0) = false ∧ bindValid old = true ∧ g.armed = true ∧ 0 ∈ rectPanes g ⟨0, 0, 0, 1⟩ ∧
      paneServes free 0 g 0 0 = true ∧ overflowMapped free g = true ∧ poolClear free g 0 = true ∧ Canonical free) ∧
    ((held.cf.held.find? fun x => x.die = 0 && x.index = 0) = some h ∧ contextLive held 0 0 = false ∧ Canonical held) ∧
    (let live := { s with cf := { s.cf with held := [h] } }
     bindValid (bindRec live 0 0) = true ∧ contextLive live 0 0 = true ∧ Canonical live) ∧
    (let cutting := { s with wk := { s.wk with insts := [] }, cf := { s.cf with held := [h] }
                             sh := { active := [(0, ⟨.firmware, [], true⟩)] } }
     bindValid (bindRec cutting 0 0) = true ∧ contextLive cutting 0 0 = false ∧
       (tget cutting.sh.active (bindGraph (bindRec cutting 0 0))).isSome = true ∧ Canonical cutting) ∧
    (Canonical used ∧ usesOld used x = true ∧ usesOld inv x = false ∧
      (inv.gm.invals.find? fun x => x.id = 7).isSome = true ∧ (inv.gm.invals.find? fun x => x.id = 6) = none) := by
  simp only [canonical_iff]; and_intros <;> decide +kernel

def sysW (n v : Nat) : SysW := ⟨0, 0, n, BitVec.ofNat 64 v, none, none⟩

theorem witness_SystemRegisters :
    let s := { State.reset with sr := { perfSel := [(7, 2 ^ 13)], latch := [(0, 1)], viCtl := [(0, BitVec.ofNat 64 (2 ^ 16))] } }
    let w := { s with ls := { wbs := [(0, 3)], upset := [(96, [(0, 1)])] } }
    (Canonical s ∧ s.ls.upset = [] ∧ (sysW 0x017 1).n < 0x018) ∧
    (bits (perfSelOf s 0 7) 13 1 = 1 ∧ bits (perfSelOf s 0 6) 13 1 = 0) ∧
    ((∃ l ∈ s.sr.latch, l.2 = 1 ∧ l.1 ≤ s.clk.cycle) ∧ ¬ ∃ l ∈ s.sr.latch, l.2 = 0 ∧ l.1 ≤ s.clk.cycle) ∧
    (Canonical w ∧ (0, 3) ∈ w.ls.wbs ∧ (0, 4) ∉ w.ls.wbs ∧ correctable w.ls 96 = true) ∧
    (bits (tgetD s.sr.viCtl 0 0).toNat 16 1 = 1 ∧ bits (2 ^ 31) 16 1 = 0) := by
  simp only [canonical_iff]; and_intros <;> decide +kernel

theorem launchesOf_idle (n k m : Nat) : (launchesOf k m).any (fun e => e.2.source = some n && !e.2.lvl.done) = false := by
  induction m generalizing k with
  | zero => rfl
  | succ m ih => simp [launchesOf, ih]

theorem witness_TicksLaunch :
    let live := { mem 15 (idle (.mov g1)) with
      sr := { viCtl := [(0, BitVec.ofNat 64 (2 ^ 16))] }
      jb := { vis := [(0, { configured := true })], jobs := [(0, {})] } }
    let x := fun (hold : Nat) (base : Nat) (filled : Bool) (st : List (Int × SlotState)) =>
      ({ base := BitVec.ofNat 64 base, geom := BitVec.ofNat 64 (16 + 3 * 2 ^ 21 + hold * 2 ^ 33), period := 1000, covered := 0,
         slots := st, filled := filled, src := -7 } : Stream)
    let s := fun (t : Tick) => { live with tm := { ticks := [(0, t)], streams := [(0, { x 1 0x10000 false [] with covered := -9 })] } }
    let t : Tick := { period := 1000, grace := 1 }
    let due := s t
    let dead := { due with sr := {} }
    let f : Fired := { k := 0, t := 0 }
    let later : Grace := ⟨{ f with k := 1, t := 5 }, []⟩
    let g : Tick := { t with graces := [⟨f, []⟩, later] }
    let d : Tick := { t with deferred := [f, f] }
    let busy := fun (t : Tick) => { s t with jb := { (s t).jb with launches := [(1, { source := some 0, id := 1 })] } }
    let full := fun (t : Tick) => { s t with
      jb := { (s t).jb with launches := launchesOf 0 (2 ^ 32 - 1) }, cf := { (s t).cf with graphs := [(0, { phase := some 0 })] } }
    let fz := fun (y : Stream) => { live with tm := { ticks := [(0, { t with graces := [⟨f, [(0, 0, 0)]⟩] })], streams := [(0, y)] } }
    (Canonical due ∧ (sysW 0x101 1).n = 0x100 + 8 * 0 + 1 ∧ (tickAt due 0).period ≠ 0 ∧ (tickAt State.reset 0).period = 0) ∧
    (tickGranted live 0 0 = true ∧ tickDescOk (2 ^ 193) = false ∧ tickDescOk (999999999 + 2 * 2 ^ 64 + 2 ^ 96) = true) ∧
    (tickDue due (tickAt due 0) = true ∧ now0 due < (tickAt due 0).timeOf 1 ∧ (tickAt due 0).graces = [] ∧
      tickLive due 0 (tickAt due 0).job = true ∧ now0 due < (tickAt due 0).timeOf 0 + (tickAt due 0).grace.toNat ∧
      (streamAt due 0).tickOf = 0 ∧ (streamAt due 0).covered < (streamAt due 0).slotOf (timeOfNs ((tickAt due 0).timeOf 0)) - 1 ∧
      tickLive dead 0 (tickAt dead 0).job = false ∧ tickDue State.reset {} = false) ∧
    (Canonical (s g) ∧ (tickAt (s g) 0).graces = [⟨f, []⟩, later] ∧ f.t + f.grace ≤ later.fired.t + later.fired.grace ∧
      f.t + f.grace ≤ now0 (s g) ∧ sourceBusy (s g) 0 = false ∧ (tickAt (s g) 0).deferred = [] ∧
      launchFull (s g) (tickVi f.job) (tickJob f.job) = false ∧ tickLive (s g) 0 f.job = true ∧
      tickLive { s g with sr := {} } 0 f.job = false ∧ Canonical { s g with sr := {} }) ∧
    (now0 (s g) < later.fired.t + later.fired.grace) ∧
    (Canonical (busy g) ∧ sourceBusy (busy g) 0 = true ∧ f.policy = false ∧ { f with policy := true }.policy = true) ∧
    (∀ t ∈ [g, d], Canonical (full t) ∧ sourceBusy (full t) 0 = false ∧ launchFull (full t) (tickVi f.job) (tickJob f.job) = true) ∧
    (∀ st ∈ [[], [((0 : Int), SlotState.present true)]], ∀ base ∈ [0x10000, 0x30000], ∀ filled ∈ [true, false], ∀ hold ∈ [0, 1],
      let y := x hold base filled st
      Canonical (fz y) ∧ streamAt (fz y) 0 = y ∧ y.covered = 0 ∧ y.hold = decide (hold = 1) ∧
        y.stateOf 0 = (if st = [] then .opened else .present true) ∧
        (copySlot (fz y) 0 y.holdPlace (y.place 0) y.slotB).isSome = decide (base = 0x10000) ∧
        (copySlot (fz y) 0 (y.place 0) y.holdPlace y.slotB).isSome = decide (base = 0x10000)) ∧
    (Canonical (s d) ∧ (tickAt (s d) 0).deferred = [f, f] ∧ sourceBusy (s d) 0 = false ∧ sourceBusy (busy d) 0 = true ∧
      launchFull (s d) (tickVi f.job) (tickJob f.job) = false ∧ tickLive (s d) 0 f.job = true ∧
      tickLive { s d with sr := {} } 0 f.job = false) := by
  intro live x s t due dead f later g d busy full fz
  have many : ∀ t ∈ [g, d], Canonical (full t) ∧ sourceBusy (full t) 0 = false ∧
      launchFull (full t) (tickVi f.job) (tickJob f.job) = true := by
    intro t ht
    have h : canonB { full t with jb := (s t).jb } = true := by
      simp only [List.mem_cons, List.not_mem_nil, or_false] at ht
      obtain rfl | rfl := ht <;> decide +kernel
    have hj : (full t).jb.launches = launchesOf 0 (2 ^ 32 - 1) := by with_reducible rfl
    have hv : tickVi f.job = 0 ∧ tickJob f.job = 0 := by decide
    refine ⟨?_, ?_, ?_⟩
    case refine_2 => simp only [sourceBusy, hj]; exact launchesOf_idle 0 0 _
    case refine_3 =>
      rw [hv.1, hv.2]
      exact launchFull_many (s := full t) { phase := some 0 } (by rfl) (by rfl) (by rfl) hj
    exact canonical_launches (canonical_iff.mpr h) 0 _
  refine ⟨?_, ?_, ?_, ?_, ?_, ?_, many, ?_, ?_⟩
  all_goals try simp only [canonical_iff]
  all_goals and_intros <;> decide +kernel

theorem witness_StreamsIngest :
    let s := fun (e p : Nat) => { mem e (idle (.mov g1)) with
      jb := { vis := [(0, { configured := true })] }
      tm := { streams := [(0, { base := 0x10000, geom := BitVec.ofNat 64 (16 + 2 * 2 ^ 16 + 2 ^ 21), covered := 5,
                                period := BitVec.ofNat 64 p })] } }
    let p : Packet := ⟨BitVec.ofNat 64 (2 ^ 11 + 16 * 2 ^ 16), 0, 0, List.replicate 16 7⟩
    let x := streamAt (s 47 1000) 0
    (∀ n ∈ [0, 1000], Canonical (s 47 n) ∧ selStream (s 47 n) 0 = 0 ∧ (streamAt (s 47 n) 0).enabled = decide (n ≠ 0) ∧
      sillVas (streamAt (s 47 n) 0) = [0x10000, 0x1001F] ∧ ∀ va ∈ [0x10000, 0x1001F], presentB (s 47 n) 0 va = true) ∧
    (∃ y, (walk (s 47 0) 0 0x10000).1 = .leaf y ∧ ePin y.entry.toNat = true ∧ viPanes (s 47 0) 0 = [0]) ∧
    ((viD State.reset 0).configured = false ∧ (viD (s 47 0) 0).configured = true ∧ pktVi p = 0 ∧ pktStream p = 0) ∧
    (x.valid = true ∧ pktLength p = x.slotB ∧ x.slotB = 16 ∧ p.offset.toNat = 0 ∧ pktLast p = true ∧
      pktLast { p with head := 16 * 2 ^ 16 } = false ∧ sillPinned (s 47 1000) 0 x = true ∧ sillPinned (s 15 1000) 0 x = false ∧
      x.slotOf p.ts = 0 ∧ 0 ≤ x.covered + x.win ∧ 0 ≤ x.covered ∧ x.inWindow x.covered 0 = true ∧
      rangeOk (s 47 1000) 0 (x.place 0) (max 1 x.slotB) .write = true) := by
  simp only [canonical_iff]
  refine ⟨?_, ⟨⟨0, 0x10000, 65536, BitVec.ofNat 64 (0x10000 + 47)⟩, ?_⟩, ?_, ?_⟩
  all_goals and_intros <;> decide +kernel

theorem witness_ClockRuns :
    let a : Announce := ⟨1, 128, 6, 0x21, 0, 128, 1, 0, 1000⟩
    let b := fun (p : Nat) => { a with sender := 2, gm := 2, prio1 := p }
    let f : Foreign := ⟨0, a, 0, none⟩
    let g := fun (p : Nat) => (⟨0, b p, 0, some 0⟩ : Foreign)
    let s := { State.reset with clk := { ptp := { master := some 1 } } }
    let slow := { s with clk := { s.clk with times := [10 ^ 10, 10 ^ 10, 10 ^ 10, 10 ^ 10] } }
    let heard := fun (l : List Foreign) => { s with clk := { ptp := { foreign := l } } }
    let adj := fun (s : State) (t1 : Int) => t1 + pathDelay s.clk.ptp - ptpNow s.clk
    (s.clk.ptp.running = true ∧ s.clk.ptp.master = some 1) ∧ { s.clk.ptp with running := false }.running = false ∧
    (1 ≠ s.clk.ptp.port ∧ s.clk.ptp.master ≠ some 2 ∧ 1 ≠ s.clk.ptp.domain) ∧
    (f.port = 0 ∧ f.ann.sender = a.sender ∧ a.steps < 255 ∧ ptpNow (heard [f]).clk ≤ f.at_ + 4 * a.interval ∧
      (heard [f]).clk.ptp.foreign = [f] ∧ (heard [f]).clk.ptp.domain = 0) ∧
    (∀ p ∈ [0, 255], (g p).ann.sender ≠ a.sender ∧ ptpNow (heard [f, g p]).clk ≤ (g p).at_ + 4 * (g p).ann.interval ∧
      qualified (g p) = true ∧ betterMaster (g p) ⟨0, a, 0, some f.at_⟩ = decide (p = 0)) ∧
    (-1000000 < adj s 0 ∧ adj s 0 < 1000000 ∧ 1000000 ≤ adj s 1000000 ∧ adj slow 0 ≤ -1000000) := by decide

theorem witness_BootAndPower :
    Canonical (idle (.mov g1)) ∧ (∀ e ∈ ([] : List BootOut), e.passed = true) ∧
    (∃ o ∈ [(⟨8, false, false, 0, 0⟩ : BootOut)], o.passed = false ∧ o.step ∈ [0, 1, 3, 7, 8, 11]) ∧
    moveAllowed .manufacture .provisioned = true ∧ moveAllowed .manufacture .manufacture = false := by
  simp only [canonical_iff]; and_intros <;> decide +kernel

theorem witness_RemoteAccess :
    let s := mem 15 (idle (.mov g1))
    let a : RemoteAmo := ⟨0, 0x1007C, .cas, .i32, z, z⟩
    let l := fun (r : Bool) => { launchOf none 0 with jb := { launches := [(0, { ready := r })] } }
    let sh := { l true with sh := { active := [(0, ⟨.firmware, [], false⟩)] } }
    (lineAccess 0x1007C 4 = true ∧ lineAccess 0x1007D 4 = false ∧ (tget s.gm.lines (0x1007C / 128)).isSome = true) ∧
    (remoteFmtOk a.op a.fmt = true ∧ a.pa % accessWidth a.fmt = 0 ∧ remoteFmtOk .and .fp32 = false ∧
      homePoison s a.pa 0 4 = false ∧ tokBits (loadTok .i32 (paBytes s.gm a.pa 4)) = 0) ∧
    (remoteLive State.reset 0 = false ∧ remoteLive (l true) 0 = true ∧ remoteLive (l false) 0 = false) ∧
    (let r : RemoteSpawn := ⟨0, 0, placedBase, z, z⟩
     let w := fun (s : State) (y : Remote) => { s with wk := { s.wk with remotes := [y, { num := 2, r := r }] } }
     let new : Remote := { num := 1, r := r }
     let big := { l true with jb := { (l true).jb with launches := [(0, { ready := true, carve := 65537 })] } }
     let dry := { l true with wk := { (l true).wk with pools := [(0, { next := 65536 })] } }
     (∀ y ∈ [new, { new with pane := some 0 }, { new with pane := some 0, colour := some 3, fut := some 1, granted := some 9 }],
       y ∈ (w (l true) y).wk.remotes ∧ (∀ x ∈ (w (l true) y).wk.remotes, x.num = y.num → x = y) ∧ shuttered (w (l true) y) 0 = false ∧
       remoteLive (w (l true) y) y.r.launch = true) ∧
     (remoteLive (w (l false) new) 0 = false ∧ remoteLive (w sh new) 0 = true ∧ shuttered (w sh new) 0 = true) ∧
     (spawnPane (w (l true) new) 0 .any 0 = some 0 ∧ carveSize { ready := true } ≤ poolSize (w (l true) new) 0 ∧
       spawnPane (w big new) 0 .any 0 = some 0 ∧ poolSize (w big new) 0 < carveSize { ready := true, carve := 65537 } ∧
       remoteLive (w big new) 0 = true) ∧
     (let asks := w (l true) { new with pane := some 0 }
      mayTake asks 0 false (.remote 1) = true ∧ mayTake asks 0 true (.remote 1) = true ∧ (takeColour asks 0).isSome = true ∧
        (takeFut asks 0).isSome = true) ∧
     ((takeColour (w dry { new with pane := some 0 }) 0).isNone = true ∧ remoteLive (w dry new) 0 = true)) ∧
    (unitsFull (tableFull (l true)) 0 1 = true ∧ unitsFull (l true) 0 1 = false) := by
  and_intros <;> decide +kernel

theorem witness_InterfacesConfigured :
    let s := fun (js : Table Job) => { State.reset with jb := { vis := [(63, { configured := true })], jobs := js } }
    (Canonical (s []) ∧ (viD (s []) 63).configured = true ∧ (viD (s []) 62).configured = false ∧ jobsOf (s []) 63 = []) ∧
    (let here := { s [] with gm := { lines := (List.range 32).map fun i => (i, {}) } }
     Canonical here ∧ ∀ i, i < 64 → (tget here.gm.lines (slotPa here 62 i / 128)).isSome = true) ∧
    (Canonical (s [(jobKey 63 65535, { vi := 63, job := 65535 })]) ∧
      jobsOf (s [(jobKey 63 65535, { vi := 63, job := 65535 })]) 63 = [jobKey 63 65535]) := by
  simp only [canonical_iff]; and_intros <;> decide +kernel

theorem witness_StepKeepsCanonical :
    Canonical (st (.mov g1) z z yes z) ∧ ∃ t, step (st (.mov g1) z z yes z) = .next t :=
  ⟨canonical_iff.mpr (by decide +kernel), ⟨_, rfl⟩⟩


end Sys2Proof.Tests
end

namespace Sys2Proof.Machine

/-! ## The canonical form is kept (R7, R217, R218)

What the operations on tables do to the order of keys, the parts of the form that belong to global memory, local store and the
working state, and the operations on tasks that change a register. -/

/-! ### Sorted tables as rising lists of keys -/

section Tables
variable {α β : Type}

theorem tsorted_some_iff (b : Nat) (t : Table α) :
    tsorted (some b) t = true ↔ (b :: t.map Prod.fst).Pairwise (· < ·) := by
  induction t generalizing b with
  | nil => simp [tsorted]
  | cons e t ih =>
    simp only [tsorted, Bool.and_eq_true, decide_eq_true_eq, ih, List.map_cons, List.pairwise_cons, List.mem_cons, forall_eq_or_imp]
    exact ⟨fun ⟨h, h1, h2⟩ => ⟨⟨h, fun k hk => h.trans (h1 k hk)⟩, h1, h2⟩, fun ⟨⟨h, _⟩, h1, h2⟩ => ⟨h, h1, h2⟩⟩

/-- Keys strictly rising, as the library says it. -/
theorem tsorted_iff_pairwise (t : Table α) : tsorted none t = true ↔ (t.map Prod.fst).Pairwise (· < ·) := by
  cases t with
  | nil => simp [tsorted]
  | cons e t => exact tsorted_some_iff e.1 t

theorem tmod_sorted {t : Table α} {k : Nat} {f : α → α} (h : tsorted none t = true) : tsorted none (tmod t k f) = true := by
  unfold tmod
  split
  exacts [tput_sorted _ _ _ h, h]

theorem tputD_sorted [DecidableEq α] {d : α} {t : Table α} {k : Nat} {v : α} (h : tsorted none t = true) :
    tsorted none (tputD d t k v) = true := by
  unfold tputD
  split
  exacts [tdel_sorted _ _ h, tput_sorted _ _ _ h]

theorem tfilter_sorted {t : Table α} {p : Nat × α → Bool} (h : tsorted none t = true) : tsorted none (t.filter p) = true := by
  rw [tsorted_iff_pairwise] at h ⊢
  exact h.sublist (List.filter_sublist.map _)

/-- A map over the entries that keeps each key keeps the order. -/
theorem tmap_sorted {t : Table α} {f : Nat × α → Nat × β} (hf : ∀ e, (f e).1 = e.1) (h : tsorted none t = true) :
    tsorted none (t.map f) = true := by
  rw [tsorted_iff_pairwise] at h ⊢
  simpa [Function.comp_def, hf] using h

/-- What holds of every entry still holds once one has been set. -/
theorem forall_tput {P : Nat × α → Prop} {t : Table α} {k : Nat} {v : α} (h : ∀ e ∈ t, P e) (hv : P (k, v)) :
    ∀ e ∈ tput t k v, P e := by
  induction t with
  | nil => simpa [tput] using hv
  | cons e t ih =>
    obtain ⟨he, ht⟩ := List.forall_mem_cons.mp h
    simp only [tput]
    split
    · exact List.forall_mem_cons.mpr ⟨hv, h⟩
    · split
      exacts [List.forall_mem_cons.mpr ⟨hv, ht⟩, List.forall_mem_cons.mpr ⟨he, ih ht⟩]

theorem tdel_sublist (t : Table α) (k : Nat) : (tdel t k).Sublist t := by
  induction t with
  | nil => exact .slnil
  | cons e t ih =>
    simp only [tdel]
    split
    · exact .refl _
    · split
      exacts [.cons _ (.refl _), .cons_cons _ ih]

/-- A listed entry is a member. -/
theorem mem_of_tget {t : Table α} {k : Nat} {v : α} (h : tget t k = some v) : (k, v) ∈ t := by
  induction t with
  | nil => simp [tget] at h
  | cons e t ih =>
    obtain ⟨j, w⟩ := e
    simp only [tget] at h
    split at h
    · simp_all
    · split at h
      · simp at h
      · exact List.mem_cons_of_mem _ (ih h)

end Tables

/-- A property that each turn of a fold keeps is kept by the whole fold. -/
theorem foldl_keeps_prop {σ β : Type} {P : σ → Prop} {g : σ → β → σ} (hg : ∀ a x, P a → P (g a x)) {l : List β} {a : σ}
    (ha : P a) : P (l.foldl g a) :=
  List.foldlRecOn l g ha fun a h x _ => hg a x h

/-! ### The parts of the canonical form -/

/-- Global memory's part of the canonical form. -/
structure GmCanonical (g : Gm) : Prop where
  hbm : Memory.wf g.hbm = true
  tlb : tsorted none g.tlb = true

/-- Local store's part of the canonical form. -/
structure LsCanonical (l : Ls) : Prop where
  bytes : Memory.wf l.bytes = true
  granules : twf 0 l.gst = true
  granules1 : twf 0 l.gst1 = true
  granules2 : twf 0 l.gst2 = true
  scrub : tsorted none l.scrub = true
  upset : tsorted none l.upset = true

/-- A task's registers stand in canonical form. -/
def RegsCanonical (t : Task) : Prop := tsorted none t.regs = true

/-- An outcome whose next state, where there is one, is canonical. -/
def NextCanonical (o : Out) : Prop := ∀ t, o = .next t → Canonical t

variable {s : State}

theorem next_canon (hs : Canonical s) : NextCanonical (.next s) := by
  rintro t ⟨⟩
  exact hs

theorem Canonical.gm (hs : Canonical s) : GmCanonical s.gm := ⟨hs.hbm, hs.tlb⟩

theorem Canonical.ls (hs : Canonical s) : LsCanonical s.ls :=
  ⟨hs.bytes, hs.granules, hs.granules1, hs.granules2, hs.scrub, hs.upset⟩

theorem withGm_canon {g : Gm} (hs : Canonical s) (hg : GmCanonical g) : Canonical { s with gm := g } :=
  { hs with hbm := hg.hbm, tlb := hg.tlb }

theorem withLs_canon {l : Ls} (hs : Canonical s) (hl : LsCanonical l) : Canonical { s with ls := l } :=
  { hs with bytes := hl.bytes, granules := hl.granules, granules1 := hl.granules1, granules2 := hl.granules2,
            scrub := hl.scrub, upset := hl.upset }

theorem State.reset_canon : Canonical State.reset := by
  constructor
  case regs => exact List.forall_mem_nil _
  all_goals rfl

theorem ite_canon {c : Prop} [Decidable c] {a b : State} (ha : Canonical a) (hb : Canonical b) :
    Canonical (if c then a else b) := by
  split
  exacts [ha, hb]

theorem foldl_canon {α : Type} {f : State → α → State} {l : List α} (hf : ∀ a x, Canonical a → Canonical (f a x))
    (hs : Canonical s) : Canonical (l.foldl f s) := foldl_keeps_prop hf hs

/-! ### The state's own operations -/

theorem taskAt_regs {tid : Nat} {t : Task} (hs : Canonical s) (ht : taskAt s tid = some t) : RegsCanonical t :=
  hs.regs _ (mem_of_tget ht)

theorem setReg_regs {t : Task} {r : Nat} {v : Token} (ht : RegsCanonical t) : RegsCanonical (setReg t r v) := tputD_sorted ht

theorem orFlags_regs {t : Task} {f : FlagSet} (ht : RegsCanonical t) : RegsCanonical (orFlags t f) := by
  unfold orFlags
  split
  exacts [ht, setReg_regs ht]

theorem setTask_canon {tid : Nat} {t : Task} (hs : Canonical s) (ht : RegsCanonical t) : Canonical (setTask s tid t) :=
  { hs with tasks := tput_sorted _ _ _ hs.tasks, regs := forall_tput hs.regs ht }

theorem modTask_canon {tid : Nat} {f : Task → Task} (hs : Canonical s) (hf : ∀ t, RegsCanonical t → RegsCanonical (f t)) :
    Canonical (modTask s tid f) := by
  refine { hs with tasks := tmod_sorted hs.tasks, regs := ?_ }
  simp only [modTask, tmod]
  split
  · exact forall_tput hs.regs (hf _ (taskAt_regs hs ‹_›))
  · exact hs.regs

/-- The working part of the canonical form: tasks, instances and the colours that cool. -/
structure WkCanonical (w : Wk) : Prop where
  insts : tsorted none w.insts = true
  tasks : tsorted none w.tasks = true
  regs : ∀ e ∈ w.tasks, RegsCanonical e.2
  cooling : tsorted none w.cooling = true

theorem withWk_canon {w : Wk} (hs : Canonical s) (hw : WkCanonical s.wk → WkCanonical w) : Canonical { s with wk := w } :=
  have h := hw ⟨hs.insts, hs.tasks, hs.regs, hs.cooling⟩
  { hs with insts := h.insts, tasks := h.tasks, regs := h.regs, cooling := h.cooling }

theorem withNetGmWk_canon {g : Gm} {w : Wk} {net : List Instr} (hs : Canonical s) (hg : g.hbm = s.gm.hbm)
    (ht : g.tlb = s.gm.tlb) (hw : WkCanonical s.wk → WkCanonical w) : Canonical { s with net := net, gm := g, wk := w } :=
  have h := hw ⟨hs.insts, hs.tasks, hs.regs, hs.cooling⟩
  { hs with insts := h.insts, tasks := h.tasks, regs := h.regs, cooling := h.cooling, hbm := hg ▸ hs.hbm, tlb := ht ▸ hs.tlb }

theorem bumpSeq_canon {tid : Nat} (hs : Canonical s) : Canonical (bumpSeq s tid) := modTask_canon hs fun _ h => h

end Sys2Proof.Machine

namespace Sys2Proof.Machine

/-! ## Each function of the model keeps the canonical form

`f_canon` says that the function `f` keeps the form, in the order of the model's files. A function that writes no map is a record
update that leaves each field of `Canonical` as it was, `{ hs with }`; one that writes a map gives that field its own proof; every
other one cites the lemmas of the functions it calls, branch by branch. A function that takes the rest of the work as an argument
keeps the form where that argument does. `step_canon` is the last of them. -/

variable {s : State}

/-! ### Bytes, cache lines and granules -/

theorem writeBack_canon {g : Gm} {line : Nat} {l : Line} (hg : GmCanonical g) : GmCanonical (writeBack g line l) := by
  simp only [writeBack]
  split
  exacts [hg, { hg with hbm := setBytes_wf _ _ _ hg.hbm }]

theorem evictFor_canon {g : Gm} {line : Nat} (hg : GmCanonical g) : GmCanonical (evictFor g line) := by
  have back (k : Nat) (l : Line) : GmCanonical (if l.dirty then writeBack g k l else g) := by
    split
    exacts [writeBack_canon hg, hg]
  simp only [evictFor]
  split
  · exact hg
  · split
    · exact hg
    · split
      exacts [hg, { back _ _ with }]

theorem fillLine_canon {g : Gm} {line : Nat} (hg : GmCanonical g) : GmCanonical (fillLine g line) := by
  simp only [fillLine]
  split
  exacts [hg, hg, { evictFor_canon hg with }]

theorem touchLine_canon {g : Gm} {line : Nat} (hg : GmCanonical g) : GmCanonical (touchLine g line) := { hg with }

theorem withLine_canon {g : Gm} {line : Nat} (hg : GmCanonical g) : GmCanonical (withLine g line) :=
  touchLine_canon (fillLine_canon hg)

theorem writeLine_canon {g : Gm} {pa : Nat} {bs : List (Option Byte)} {f : Line → Line} (hg : GmCanonical g) :
    GmCanonical (writeLine g pa bs f) := { withLine_canon hg with }

theorem setGst_canon {l : Ls} {g v : Nat} (hl : LsCanonical l) : LsCanonical (setGst l g v) :=
  { hl with granules := twf_tputD _ _ _ _ hl.granules, granules1 := twf_tputD _ _ _ _ hl.granules1,
            granules2 := twf_tputD _ _ _ _ hl.granules2 }

theorem setGField_canon {l : Ls} {g lo w v : Nat} (hl : LsCanonical l) : LsCanonical (setGField l g lo w v) := setGst_canon hl

theorem upsetAfter_sorted {l : Ls} {g off n : Nat} (hl : LsCanonical l) : tsorted none (upsetAfter l g off n) = true := by
  simp only [upsetAfter]
  split
  exacts [tdel_sorted _ _ hl.upset, tputD_sorted hl.upset]

theorem setGranuleBytes_canon {l : Ls} {g off : Nat} {bs : List Byte} (hl : LsCanonical l) :
    LsCanonical (setGranuleBytes l g off bs) := { hl with bytes := setBytes_wf _ _ _ hl.bytes, upset := upsetAfter_sorted hl }

/-! ### Page tables and TLBs -/

theorem touchAll_canon {g : Gm} {pas : List Nat} (hg : GmCanonical g) : GmCanonical (touchAll g pas) := by
  induction pas with
  | nil => exact hg
  | cons pa t ih => exact withLine_canon ih

theorem tlbPut_canon {pane : Nat} {t : TlbEntry} (hs : Canonical s) : Canonical (tlbPut s pane t) :=
  { hs with tlb := tput_sorted _ _ _ hs.tlb }

theorem noteChecked_canon {t : TlbEntry} (hs : Canonical s) : Canonical (noteChecked s t) := ite_canon hs { hs with }

theorem tlbPin_canon {t : TlbEntry} (hs : Canonical s) : Canonical (tlbPin s t) :=
  foldl_canon (fun _ _ h1 => tlbPut_canon h1) (noteChecked_canon hs)

theorem tlbInsert_canon {pane : Nat} {t : TlbEntry} (hs : Canonical s) : Canonical (tlbInsert s pane t) :=
  ite_canon (tlbPin_canon (tlbPut_canon hs)) (noteChecked_canon (tlbPut_canon hs))

theorem tlbJoin_canon {vi pane : Nat} (hs : Canonical s) : Canonical (tlbJoin s vi pane) :=
  foldl_canon (fun _ _ h1 => tlbPut_canon h1) hs

theorem tlbUse_canon {pane vi va : Nat} (hs : Canonical s) : Canonical (tlbUse s pane vi va) := by
  simp only [tlbUse]
  split
  exacts [{ hs with tlb := tput_sorted _ _ _ hs.tlb }, hs]

theorem devPut_canon {vi va : Nat} {b : Byte} (hs : Canonical s) : Canonical (devPut s vi va b) := by
  simp only [devPut]
  split
  exacts [withGm_canon hs (writeLine_canon (touchAll_canon hs.gm)), hs]

theorem devPutAll_canon {vi va : Nat} {bs : List Byte} (hs : Canonical s) : Canonical (devPutAll s vi va bs) := by
  induction bs generalizing s va with
  | nil => exact hs
  | cons b t ih => exact ih (devPut_canon hs)

theorem touchAt_canon {vi va : Nat} (hs : Canonical s) : Canonical (touchAt vi s va) := by
  simp only [touchAt]
  split
  · exact noteChecked_canon (ite_canon (withGm_canon hs (withLine_canon (touchAll_canon hs.gm)))
      (withGm_canon hs (touchAll_canon hs.gm)))
  · exact withGm_canon hs (touchAll_canon hs.gm)

theorem devTouch_canon {vi va n : Nat} (hs : Canonical s) : Canonical (devTouch s vi va n) :=
  foldl_canon (fun _ _ h1 => touchAt_canon h1) (ite_canon hs (touchAt_canon hs))

theorem sendPageFault_canon {die vi va : Nat} {write : Bool} (hs : Canonical s) : Canonical (sendPageFault s die vi va write) :=
  ite_canon hs { hs with }

/-! ### Names and views of the state -/

theorem post_canon {ms : List Instr} (hs : Canonical s) : Canonical (post s ms) := { hs with }

theorem repost_canon {m : Instr} (hs : Canonical s) : Canonical (repost s m) := { hs with }

theorem setInst_canon {i : Inst} (hs : Canonical s) : Canonical (setInst s i) := { hs with insts := tput_sorted _ _ _ hs.insts }

theorem modInst_canon {tid iter : Nat} {f : Inst → Inst} (hs : Canonical s) : Canonical (modInst s tid iter f) :=
  { hs with insts := tmod_sorted hs.insts }

theorem modGraph_canon {k : Nat} {f : Graph → Graph} (hs : Canonical s) : Canonical (modGraph s k f) := { hs with }

theorem modJob_canon {k : Nat} {f : Job → Job} (hs : Canonical s) : Canonical (modJob s k f) :=
  { hs with jobs := tmod_sorted hs.jobs }

theorem modPhase_canon {k : Nat} {f : Phase → Phase} (hs : Canonical s) : Canonical (modPhase s k f) := { hs with }

theorem modLaunch_canon {k : Nat} {f : Launch → Launch} (hs : Canonical s) : Canonical (modLaunch s k f) :=
  { hs with launches := tmod_sorted hs.launches }

theorem modVi_canon {k : Nat} {f : Vi → Vi} (hs : Canonical s) : Canonical (modVi s k f) := { hs with }

theorem faultJob_canon {k : Nat} (hs : Canonical s) : Canonical (faultJob s k) := modJob_canon hs

theorem faultPhase_canon {k : Nat} (hs : Canonical s) : Canonical (faultPhase s k) := faultJob_canon (modPhase_canon hs)

theorem faultGraph_canon {k : Nat} (hs : Canonical s) : Canonical (faultGraph s k) := by
  simp only [faultGraph]
  split
  exacts [faultPhase_canon (modGraph_canon hs), faultJob_canon (modGraph_canon hs)]

theorem faultLaunch_canon {k : Nat} (hs : Canonical s) : Canonical (faultLaunch s k) := by
  simp only [faultLaunch]
  split
  exacts [ite_canon (faultPhase_canon (modLaunch_canon hs)) (faultGraph_canon (modLaunch_canon hs)), hs]

theorem countFaultInfo_canon {die code : Nat} (hs : Canonical s) : Canonical (countFaultInfo s die code) := { hs with }

theorem holdRecord_canon {die vi va : Nat} {bs : List Byte} (hs : Canonical s) : Canonical (holdRecord s die vi va bs) :=
  { hs with }

theorem faultRecord_canon {die vi va : Nat} {bs : List Byte} (hs : Canonical s) : Canonical (faultRecord s die vi va bs) :=
  sendPageFault_canon (holdRecord_canon hs)

theorem devStore_canon {vi va : Nat} {bs : List Byte} (hs : Canonical s) : Canonical (devStore s vi va bs) :=
  devPutAll_canon (devTouch_canon hs)

theorem devWriteFault_canon {vi va : Nat} {bs : List Byte} (hs : Canonical s) : Canonical (devWriteFault s vi va bs) := by
  simp only [devWriteFault]
  split
  · exact holdRecord_canon hs
  · split
    exacts [devStore_canon hs, faultRecord_canon hs, hs]

theorem ringWrite_canon {vi : Nat} {recs : List Nat} (hs : Canonical s) : Canonical (ringWrite s vi recs) := by
  simp only [ringWrite]
  split
  · exact hs
  · split
    · exact devWriteFault_canon (modVi_canon (devTouch_canon hs))
    · refine devWriteFault_canon (modVi_canon ?_)
      exact foldl_keeps_prop (P := fun (a : State × Nat) => Canonical a.1) (fun _ _ h1 => devWriteFault_canon h1)
        (devTouch_canon hs)

theorem writeRecord_canon {vi : Nat} {f : Flt} {p : Place4} (hs : Canonical s) : Canonical (writeRecord s vi f p) :=
  ringWrite_canon (countFaultInfo_canon hs)

theorem devWrite_canon {die vi va : Nat} {bs : List Byte} (hs : Canonical s) : Canonical (devWrite s die vi va bs) := by
  simp only [devWrite]
  split
  exacts [devStore_canon hs, faultRecord_canon hs, ite_canon hs (writeRecord_canon hs)]

/-! ### Results -/

theorem sendResult_canon {f : Firing} {i : Instr} {a b : Token} (hs : Canonical s) : Canonical (sendResult s f i a b) :=
  post_canon hs

theorem markFired_canon {f : Firing} {fl : FlagSet} (hs : Canonical s) : Canonical (markFired s f fl) := modInst_canon hs

theorem fireSend_canon {f : Firing} {i : Instr} {a b : Token} {fl : FlagSet} (hs : Canonical s) :
    Canonical (fireSend s f i a b fl) := sendResult_canon (markFired_canon hs)

/-! ### Handles and granules -/

theorem logEntry_canon {step outcome die detail : Nat} (hs : Canonical s) : Canonical (logEntry s step outcome die detail) :=
  { hs with }

theorem markBank_canon {pane bank : Nat} (hs : Canonical s) : Canonical (markBank s pane bank) :=
  ite_canon hs (logEntry_canon { hs with })

theorem countCorrection_canon {pane bank : Nat} (hs : Canonical s) : Canonical (countCorrection s pane bank) :=
  ite_canon (markBank_canon { hs with }) { hs with }

theorem decodeWord_canon {cw : Nat} (hs : Canonical s) : Canonical (decodeWord s cw) :=
  ite_canon hs (ite_canon { foldl_canon (fun _ _ h1 => countCorrection_canon h1) hs with }
    (withLs_canon hs (setGField_canon (setGField_canon hs.ls))))

theorem noteChange_canon {g : Nat} (hs : Canonical s) : Canonical (noteChange s g) := { hs with }

theorem setLocState_canon {v : Nat} {l : GLoc} (hs : Canonical s) : Canonical (setLocState s v l) := by
  simp only [setLocState]
  split
  · exact ite_canon (withLs_canon hs (setGst_canon hs.ls)) (noteChange_canon (withLs_canon hs (setGst_canon hs.ls)))
  · exact devPut_canon hs

theorem setLocBytes_canon {off : Nat} {bs : List Byte} {l : GLoc} (hs : Canonical s) : Canonical (setLocBytes s off bs l) := by
  simp only [setLocBytes]
  split
  exacts [withLs_canon hs (setGranuleBytes_canon hs.ls), devPutAll_canon hs]

theorem setLocField_canon {l : GLoc} {lo w v : Nat} (hs : Canonical s) : Canonical (setLocField s l lo w v) :=
  setLocState_canon hs

theorem readCheck_canon {l : GLoc} (hs : Canonical s) : Canonical (readCheck s l) := by
  simp only [readCheck]
  split
  exacts [decodeWord_canon hs, touchAt_canon (touchAt_canon hs)]

theorem dropHalf_canon {src : Option Nat} {l : GLoc} {h : Nat} (hs : Canonical s) : Canonical (dropHalf src s l h) :=
  ite_canon (setLocField_canon (post_canon hs)) hs

theorem dropHalves_canon {src : Option Nat} {l : GLoc} {off n : Nat} (hs : Canonical s) :
    Canonical (dropHalves src s l off n) :=
  ite_canon (dropHalf_canon (ite_canon (dropHalf_canon hs) hs)) (ite_canon (dropHalf_canon hs) hs)

/-! ### The allocator -/

theorem setArena_canon {k : Nat} {a : Arena} (hs : Canonical s) : Canonical (setArena s k a) := { hs with }

theorem noteTurn_canon {k rank : Nat} (hs : Canonical s) : Canonical (noteTurn s k rank) := ite_canon (setArena_canon hs) hs

theorem setRec_canon {k : Nat} {r : Rec} (hs : Canonical s) : Canonical (setRec s k r) :=
  { hs with recs := tputD_sorted hs.recs }

theorem clearGranules_canon {pane : Nat} {e : Nat × Nat} (hs : Canonical s) : Canonical (clearGranules s pane e) :=
  foldl_canon (fun _ g h1 => withLs_canon h1 { setGst_canon (g := pane * 65536 + g) (v := 0) h1.ls with }) hs

theorem deliverHandle_canon {f : Firing} {key : Nat} (hs : Canonical s) : Canonical (deliverHandle s f key) := by
  simp only [deliverHandle]
  split
  exacts [fireSend_canon (modInst_canon { hs with }), hs]

theorem grant_canon {k : Nat} {r : AllocReq} {e1 e2 : Nat × Nat} (hs : Canonical s) : Canonical (grant s k r e1 e2) := by
  unfold grant
  extract_lets a s0 cleared _ s1 rec0
  have hc : Canonical cleared := clearGranules_canon (clearGranules_canon (setArena_canon hs))
  have h1 : Canonical s1 := { hc with recs := hs.recs }
  split
  · exact hs
  · next key more _ =>
    extract_lets s2
    have h2 : Canonical s2 := setRec_canon h1
    clear_value s2
    split
    · exact deliverHandle_canon h2
    · split
      exacts [hs, modLaunch_canon (setRec_canon h2)]
    · split
      exacts [hs, { setRec_canon h2 with }]
    · split
      exacts [hs, { setRec_canon h2 with }]

theorem scanGrant_canon {k limit : Nat} {ws older : List AllocReq} (hs : Canonical s) :
    Canonical (scanGrant k limit ws older s).1 := by
  induction ws generalizing s older with
  | nil => exact hs
  | cons w rest ih =>
    have h2 (e : Nat × Nat) (a : Arena) : Canonical (setArena (grant s k w e (0, 0)) k a) := setArena_canon (grant_canon hs)
    simp only [scanGrant]
    split
    · exact ih hs
    · split
      · exact ih hs
      · split
        · simp only [apply_ite Prod.fst]
          exact ite_canon (h2 _ _) (ih (h2 _ _))
        · split
          · simp only [apply_ite Prod.fst]
            exact ite_canon (h2 _ _) (ih (h2 _ _))
          · exact h2 _ _

theorem attemptFuel_canon {k n : Nat} (hs : Canonical s) : Canonical (attemptFuel k n s) := by
  induction n generalizing s with
  | zero => exact hs
  | succ n ih =>
    simp only [attemptFuel]
    split
    · exact hs
    · split
      · split
        · exact setArena_canon hs
        · split
          exacts [setArena_canon hs, ih (setArena_canon (grant_canon (setArena_canon hs)))]
      · exact ite_canon (ih (scanGrant_canon hs)) (scanGrant_canon hs)

theorem grantAttempt_canon {k : Nat} (hs : Canonical s) : Canonical (grantAttempt s k) := attemptFuel_canon hs

theorem attemptPane_canon {pane : Nat} (hs : Canonical s) : Canonical (attemptPane s pane) :=
  foldl_canon (fun _ _ h1 => grantAttempt_canon h1) hs

theorem attemptAt_canon {rank k : Nat} (hs : Canonical s) : Canonical (attemptAt rank s k) :=
  ite_canon hs (ite_canon (grantAttempt_canon (noteTurn_canon hs)) (setArena_canon hs))

theorem attemptDue_canon {k : Nat} (hs : Canonical s) : Canonical (attemptDue s k) := by
  simp only [attemptDue]
  split
  exacts [hs, ite_canon (grantAttempt_canon (noteTurn_canon (setArena_canon hs))) hs]

theorem recordFreed_canon {pane : Nat} (hs : Canonical s) : Canonical (recordFreed s pane) :=
  foldl_canon (fun _ _ h1 => attemptAt_canon h1) hs

theorem withdraw_canon {p : AllocReq → Bool} (hs : Canonical s) : Canonical (withdraw s p) :=
  foldl_canon (fun _ _ h1 => attemptAt_canon h1) { hs with }

theorem freeGranule_canon {l : GLoc} (hs : Canonical s) : Canonical (freeGranule s l) := by
  simp only [freeGranule]
  split
  · exact { setLocState_canon (dropHalf_canon (dropHalf_canon hs)) with }
  · exact setLocState_canon (dropHalf_canon (dropHalf_canon hs))

theorem releaseRec_canon {key : Nat} (hs : Canonical s) : Canonical (releaseRec s key) := by
  unfold releaseRec
  split
  · exact hs
  · extract_lets s1 s2 _ s3
    have h2 : Canonical s2 := setRec_canon (foldl_canon (fun _ _ h => freeGranule_canon h) hs)
    have h3 : Canonical s3 := ite_canon (setArena_canon h2) h2
    exact recordFreed_canon (attemptAt_canon h3)

theorem askRelease_canon {key : Nat} (hs : Canonical s) : Canonical (askRelease s key) := post_canon hs

/-! ### Shared operations on tasks -/

theorem carvePut_canon {t : Task} {j off : Nat} {bs : List Byte} (hs : Canonical s) : Canonical (carvePut s t j off bs) := by
  simp only [carvePut]
  split
  exacts [setLocBytes_canon hs, hs]

theorem storeReg_canon {tid r : Nat} (hs : Canonical s) : Canonical (storeReg s tid r) := by
  simp only [storeReg]
  split
  exacts [carvePut_canon (carvePut_canon hs), hs]

theorem regCheck_canon {tid r : Nat} (hs : Canonical s) : Canonical (regCheck s tid r) :=
  foldl_canon (fun _ _ h1 => readCheck_canon h1) hs

theorem storeRegs_canon {tid : Nat} (hs : Canonical s) : Canonical (storeRegs s tid) :=
  foldl_canon (fun _ _ h1 => storeReg_canon h1) hs

theorem flagTask_canon {tid : Nat} {fl : FlagSet} (hs : Canonical s) : Canonical (flagTask s tid fl) :=
  ite_canon hs (storeReg_canon (modTask_canon hs (fun _ h1 => orFlags_regs h1)))

theorem setTrack_canon {v : Nat} {x : TrackUnit} (hs : Canonical s) : Canonical (setTrack s v x) := by
  cases x with
  | granule g => exact { hs with }
  | half l h => exact withGm_canon hs { fillLine_canon hs.gm with }

theorem ownUnit_canon {tid : Nat} {x : TrackUnit} (hs : Canonical s) : Canonical (ownUnit s tid x) := by
  simp only [ownUnit]
  split
  · exact hs
  · split
    · exact ite_canon (setTrack_canon hs) (ite_canon (flagTask_canon (setTrack_canon hs))
        (modTask_canon (setTrack_canon hs) (fun _ h1 => h1)))
    · exact setTrack_canon hs

theorem notePub_canon {x : TrackUnit} {pane : Nat} (hs : Canonical s) : Canonical (notePub s x pane) := { hs with }

theorem publish_canon {tid scope : Nat} (hs : Canonical s) : Canonical (publish s tid scope) :=
  modTask_canon (foldl_canon (fun _ _ h1 => ite_canon (setTrack_canon (ite_canon (notePub_canon h1) h1)) h1) hs)
    (fun _ h1 => h1)

theorem publishUnit_canon {tid : Nat} {x : TrackUnit} (hs : Canonical s) : Canonical (publishUnit s tid x) := setTrack_canon hs

theorem openWaits_canon (hs : Canonical s) : Canonical (openWaits s) := by
  simp only [openWaits]
  refine ite_canon (withWk_canon (foldl_canon (fun _ _ h1 => ite_canon (publish_canon h1) h1) hs) fun h => ?_) hs
  exact { h with tasks := tmap_sorted (fun _ => rfl) h.tasks, regs := List.forall_mem_map.mpr h.regs }

theorem settleWaits_canon {tid iter : Nat} (hs : Canonical s) : Canonical (settleWaits s tid iter) := by
  simp only [settleWaits]
  refine ite_canon (openWaits_canon (withWk_canon hs fun h => ?_)) hs
  exact { h with tasks := tmap_sorted (fun _ => rfl) h.tasks, regs := List.forall_mem_map.mpr h.regs }

theorem undoTake_canon {r : Request} (hs : Canonical s) : Canonical (undoTake s r) := by
  simp only [undoTake]
  split
  · split
    exacts [setLocField_canon hs, hs]
  · exact hs

theorem wakeColour_canon (hs : Canonical s) : Canonical (wakeColour s) := { hs with }

theorem freeFut_canon {k : Nat} (hs : Canonical s) : Canonical (freeFut s k) := wakeColour_canon { hs with }

theorem giveColour_canon {die c : Nat} (hs : Canonical s) : Canonical (giveColour s die c) := wakeColour_canon { hs with }

theorem undoBirth_canon {b : Birth} (hs : Canonical s) : Canonical (undoBirth s b) := by
  unfold undoBirth
  extract_lets s0 _ sl s1 s2
  have h0 : Canonical s0 := by
    unfold s0
    split
    exacts [ite_canon (post_canon hs) hs, hs]
  have h1 : Canonical s1 := by
    unfold s1
    split
    exacts [releaseRec_canon (releaseRec_canon { h0 with }), { h0 with }]
  have h2 : Canonical s2 := by
    unfold s2
    split
    exacts [freeFut_canon h1, h1]
  split
  exacts [giveColour_canon h2, wakeColour_canon h2]

theorem discardInst_canon {i : Inst} (hs : Canonical s) : Canonical (discardInst s i) :=
  withNetGmWk_canon
    (withdraw_canon (foldl_canon (fun _ _ h1 => undoBirth_canon h1)
      (post_canon (foldl_canon (fun _ _ h1 => askRelease_canon h1) (foldl_canon (fun _ _ h1 => undoTake_canon h1) hs)))))
    rfl rfl fun h => { h with insts := tdel_sorted _ _ h.insts }

theorem discardAll_canon {tid : Nat} {stopped : Bool} (hs : Canonical s) : Canonical (discardAll s tid stopped) := by
  simp only [discardAll]
  split
  exacts [hs, modTask_canon (foldl_canon (fun _ _ h1 => discardInst_canon h1) { hs with }) (fun _ h1 => h1)]

theorem stopTask_canon {tid : Nat} {f : Flt} {p : Place4} (hs : Canonical s) : Canonical (stopTask s tid f p) := by
  simp only [stopTask]
  split
  exacts [hs, discardAll_canon (faultLaunch_canon (writeRecord_canon hs))]

theorem raise_canon {tid iter slot : Nat} {f : Flt} (hs : Canonical s) : Canonical (raise s tid iter slot f) := by
  simp only [raise]
  split
  exacts [ite_canon hs (stopTask_canon hs), hs]

theorem raiseAt_canon {f : Firing} {c : Flt} (hs : Canonical s) : Canonical (raiseAt s f c) := raise_canon hs

theorem recordGoOn_canon {o : Origin} {f : Flt} (hs : Canonical s) : Canonical (recordGoOn s o f) :=
  faultLaunch_canon (writeRecord_canon hs)

theorem resumeTask_canon {tid : Nat} (hs : Canonical s) : Canonical (resumeTask s tid) := by
  simp only [resumeTask]
  split
  exacts [hs, post_canon (modTask_canon hs (fun _ h1 => h1))]

theorem dropRegs_canon {tid : Nat} {t : Task} (hs : Canonical s) : Canonical (dropRegs s tid t) :=
  foldl_canon (fun _ _ h1 => ite_canon (ite_canon (post_canon (regCheck_canon h1)) (regCheck_canon h1)) h1) hs

theorem endTask_canon {tid : Nat} (hs : Canonical s) : Canonical (endTask s tid) := by
  simp only [endTask]
  split
  · exact hs
  · refine withWk_canon (releaseRec_canon (releaseRec_canon (dropRegs_canon (publish_canon hs)))) fun h => ?_
    exact { h with tasks := tdel_sorted _ _ h.tasks, cooling := tput_sorted _ _ _ h.cooling,
                   regs := fun e he => h.regs e ((tdel_sublist _ _).subset he) }

theorem revokeCmds_canon {p : Cmd → Bool} (hs : Canonical s) : Canonical (revokeCmds s p) :=
  { hs with ctxs := tmap_sorted (fun _ => rfl) hs.ctxs }

theorem reclaimTask_canon {tid : Nat} (hs : Canonical s) : Canonical (reclaimTask s tid) := by
  simp only [reclaimTask]
  split
  · exact hs
  · exact freeFut_canon (endTask_canon (foldl_canon (fun _ _ h1 => askRelease_canon h1)
      (revokeCmds_canon (discardAll_canon { hs with }))))

/-! ### Counters and the latch -/

theorem perfBump_canon {n k : Nat} (hs : Canonical s) : Canonical (perfBump s n k) :=
  ite_canon hs { hs with perfCnt := tputD_sorted hs.perfCnt }

theorem perfPane_canon {pane ev n : Nat} (hs : Canonical s) : Canonical (perfPane s pane ev n) :=
  foldl_canon (fun _ _ h1 => perfBump_canon h1) hs

theorem perfDie_canon {die ev n : Nat} (hs : Canonical s) : Canonical (perfDie s die ev n) :=
  foldl_canon (fun _ _ h1 => perfBump_canon h1) hs

theorem perfProf_canon {pane ev n : Nat} (hs : Canonical s) : Canonical (perfProf s pane ev n) :=
  foldl_canon (fun _ _ h1 => perfBump_canon h1) hs

theorem lineRequest_canon {die pa rdev : Nat} (hs : Canonical s) : Canonical (lineRequest s die pa rdev) := by
  simp only [lineRequest]
  split
  · exact perfDie_canon hs
  · split
    exacts [perfDie_canon hs, hs]

theorem watchFire_canon {k : Nat} (hs : Canonical s) : Canonical (watchFire s k) := ite_canon { hs with } hs

theorem watchCount_canon {b : Nat} {w : Nat × Nat} (hs : Canonical s) : Canonical (watchCount b s w) :=
  ite_canon hs (watchFire_canon (ite_canon (perfBump_canon { hs with }) { hs with }))

theorem perfCommand_canon {pane e latency : Nat} (hs : Canonical s) : Canonical (perfCommand s pane e latency) :=
  foldl_canon (fun _ _ h1 => watchCount_canon h1) (perfPane_canon hs)

theorem perfSet_canon {k v : Nat} (hs : Canonical s) : Canonical (perfSet s k v) :=
  { hs with perfCnt := tputD_sorted hs.perfCnt }

/-! ### The ways a word ends -/

theorem popLane_canon (hs : Canonical s) : Canonical (popLane s) := { hs with }

theorem onLane_canon {i : Instr} {k : Firing → State → State} (hs : Canonical s) (hk : ∀ f u, Canonical u → Canonical (k f u)) :
    NextCanonical (onLane s i k) := by
  simp only [onLane]
  split
  · exact next_canon hs
  · split
    exacts [next_canon (hk _ _ (popLane_canon hs)), next_canon (popLane_canon hs)]

theorem finishValue_canon {f : Firing} {i : Instr} {v : VOut} (hs : Canonical s) : Canonical (finishValue s f i v) := by
  simp only [finishValue]
  split
  exacts [fireSend_canon hs, raiseAt_canon hs]

theorem valueWord_canon {i : Instr} {res : State → Firing → VOut} (hs : Canonical s) : NextCanonical (valueWord s i res) :=
  onLane_canon hs (fun _ _ h1 => finishValue_canon h1)

theorem value1_canon {i : Instr} {c : Token → VOut} (hs : Canonical s) : NextCanonical (value1 s i c) := valueWord_canon hs

theorem value2_canon {i : Instr} {c : Token → Token → VOut} (hs : Canonical s) : NextCanonical (value2 s i c) :=
  valueWord_canon hs

theorem value3_canon {i : Instr} {c : Token → Token → Token → VOut} (hs : Canonical s) : NextCanonical (value3 s i c) :=
  valueWord_canon hs

theorem wakeReads_canon {tid : Nat} (hs : Canonical s) : Canonical (wakeReads s tid) := { hs with }

theorem nullSlot_canon {f : Firing} (hs : Canonical s) : Canonical (nullSlot s f) := wakeReads_canon (modInst_canon hs)

theorem sendNull_canon {f : Firing} {i : Instr} (hs : Canonical s) : Canonical (sendNull s f i) := fireSend_canon hs

theorem request_canon {f : Firing} {i : Instr} {k : ReqKind} (hs : Canonical s) : Canonical (request s f i k) :=
  modInst_canon hs

theorem waitFor_canon {f : Firing} {w : Wait} (hs : Canonical s) : Canonical (waitFor s f w) := { hs with }

theorem wake_canon {f : Firing} (hs : Canonical s) : Canonical (wake s f) := ite_canon { hs with } hs

theorem fireGate_canon {f : Firing} {i : Instr} {uses : List (PortUse × Token)} {k : State → State} (hs : Canonical s)
    (hk : ∀ u, Canonical u → Canonical (k u)) :
    Canonical (fireGate s f i uses k) := by
  simp only [fireGate]
  split
  exacts [hk _ hs, sendNull_canon hs, fireSend_canon hs, raiseAt_canon hs]

theorem fireWord_canon {i : Instr} {uses : State → Firing → List (PortUse × Token)} {k : Firing → State → State}
    (hs : Canonical s) (hk : ∀ f u, Canonical u → Canonical (k f u)) :
    NextCanonical (fireWord s i uses k) := onLane_canon hs (fun _ _ h1 => fireGate_canon h1 (fun _ h2 => hk _ _ h2))

theorem effectWord_canon {i : Instr} {uses : State → Firing → List (PortUse × Token)} {null : State → Firing → State}
    {k : Firing → State → State} (hs : Canonical s) (hnull : ∀ u f, Canonical u → Canonical (null u f))
    (hk : ∀ f u, Canonical u → Canonical (k f u)) :
    NextCanonical (effectWord s i uses null k) := by
  simp only [effectWord]
  refine onLane_canon hs fun _ _ h1 => ?_
  split
  exacts [hk _ _ h1, hnull _ _ h1, hnull _ _ h1, raiseAt_canon h1]

theorem storeWord_canon {i : Instr} {uses : State → Firing → List (PortUse × Token)} {k : Firing → State → State}
    (hs : Canonical s) (hk : ∀ f u, Canonical u → Canonical (k f u)) :
    NextCanonical (storeWord s i uses k) := effectWord_canon hs (fun _ _ h1 => nullSlot_canon h1) (fun _ _ h1 => hk _ _ h1)

theorem withTrigger_canon {i : Instr} {f : Firing} {k : State → State} (hs : Canonical s)
    (hk : ∀ u, Canonical u → Canonical (k u)) :
    Canonical (withTrigger i f s k) := ite_canon (raiseAt_canon hs) (hk _ hs)

/-! ### Early reads -/

theorem noteEarly_canon {f : Firing} {loc : Nat ⊕ Nat} {bytes : List Byte} {poison : Bool} (hs : Canonical s) :
    Canonical (noteEarly s f loc bytes poison) := ite_canon { hs with } hs

/-! ### Tokens, branches, activation and issue -/

theorem readTok_canon {e : TokEntry} (hs : Canonical s) : Canonical (readTok s e).1 := by
  unfold readTok
  split
  exacts [readCheck_canon hs, hs]

theorem putTok_canon {e : TokEntry} {p : TokPlace} (hs : Canonical s) : Canonical (putTok s e p) := { readTok_canon hs with }

theorem storeSpill_canon {t : Task} {m : TokMsg} {p : TokPlace} (hs : Canonical s) : Canonical (storeSpill s t m p) := by
  unfold storeSpill
  extract_lets bytes s1
  have h1 : Canonical s1 := by
    unfold s1
    split
    exacts [setLocBytes_canon hs, devStore_canon hs, hs]
  split
  exacts [h1, h1, perfPane_canon h1]

theorem markReady_canon {f : Firing} (hs : Canonical s) : Canonical (markReady s f) := ite_canon hs { hs with }

theorem checkReady_canon {f : Firing} (hs : Canonical s) : Canonical (checkReady s f) := by
  simp only [checkReady]
  split
  exacts [ite_canon (markReady_canon (foldl_canon (fun _ _ h1 => putTok_canon h1) hs)) hs, hs]

theorem countMatch_canon {t : Task} {m : TokMsg} (hs : Canonical s) : Canonical (countMatch s t m) := by
  simp only [countMatch]
  split
  exacts [ite_canon (perfPane_canon hs) hs, hs]

theorem setRed_canon {r : Red} (hs : Canonical s) : Canonical (setRed s r) := { hs with }

theorem secondToken_canon {m : TokMsg} (hs : Canonical s) : Canonical (secondToken s m) := by
  simp only [secondToken]
  split
  exacts [raise_canon hs, raise_canon hs]

theorem redJoin_canon {r : Red} {m : TokMsg} (hs : Canonical s) : Canonical (redJoin s r m) :=
  ite_canon (secondToken_canon hs) (ite_canon (raise_canon hs)
    (ite_canon (markReady_canon (setRed_canon hs)) (setRed_canon hs)))

theorem redOpen_canon {f : Firing} {kind : RedKind} {mark : Tag} {n : Nat} (hs : Canonical s) :
    Canonical (redOpen s f kind mark n) := by
  simp only [redOpen]
  split
  · exact hs
  · refine foldl_canon (fun _ _ h1 => ?_) (setRed_canon { hs with })
    split
    exacts [redJoin_canon (readTok_canon h1), h1]

theorem redSend_canon {f : Firing} {i : Instr} {r : Red} (hs : Canonical s) : Canonical (redSend s f i r) :=
  fireSend_canon (flagTask_canon (setRed_canon hs))

theorem execRed_canon {g : GF} {kind : RedKind} (hs : Canonical s) : NextCanonical (execRed g kind s) := by
  simp only [execRed]
  refine onLane_canon hs fun _ _ h1 => ?_
  split
  · exact raiseAt_canon h1
  · split
    · exact fireSend_canon h1
    · split
      exacts [ite_canon (redSend_canon (redOpen_canon h1)) (redOpen_canon h1), redOpen_canon h1]

theorem restoreTok_canon {e : TokEntry} (hs : Canonical s) : Canonical (restoreTok s e) := ite_canon (putTok_canon hs) hs

theorem tokenLost_canon {t : Task} {m : TokMsg} (hs : Canonical s) : Canonical (tokenLost s t m) := by
  unfold tokenLost
  extract_lets s1
  have h1 : Canonical s1 := ite_canon hs (repost_canon hs)
  exact ite_canon (repost_canon hs) (ite_canon (raise_canon h1) (ite_canon (raise_canon h1) (stopTask_canon h1)))

theorem keepToken_canon {t : Task} {m : TokMsg} (hs : Canonical s) : Canonical (keepToken s t m) := by
  simp only [keepToken]
  split
  · exact { hs with }
  · split
    exacts [storeSpill_canon { hs with }, tokenLost_canon hs]

theorem redData_canon {kind : RedKind} {m : TokMsg} (hs : Canonical s) : Canonical (redData s kind m) := by
  simp only [redData]
  split
  · exact raise_canon hs
  · split
    exacts [redJoin_canon hs, ite_canon (secondToken_canon hs) (keepToken_canon hs)]

theorem placeToken_canon {t : Task} {m : TokMsg} (hs : Canonical s) : Canonical (placeToken s t m) :=
  ite_canon (checkReady_canon { hs with }) (ite_canon (checkReady_canon
    (foldl_canon (fun _ _ h1 => restoreTok_canon h1) { hs with })) (keepToken_canon hs))

theorem tokenArrive_canon {m : TokMsg} (hs : Canonical s) : Canonical (tokenArrive s m) := by
  simp only [tokenArrive]
  split
  · exact hs
  · split
    · exact repost_canon hs
    · split
      · exact redData_canon (countMatch_canon hs)
      · split
        · exact ite_canon (keepToken_canon hs) (ite_canon (raise_canon hs) (placeToken_canon (countMatch_canon hs)))
        · exact ite_canon hs (placeToken_canon (ite_canon hs (countMatch_canon hs)))

theorem execRead_canon {t0 t1 : Tgt} {reg : BitVec 6} (hs : Canonical s) : NextCanonical (execRead t0 t1 reg s) := by
  simp only [execRead]
  refine onLane_canon hs fun _ _ h1 => ?_
  split
  exacts [waitFor_canon h1, post_canon (markFired_canon (ite_canon (regCheck_canon h1) h1))]

theorem execWrite_canon {wid : BitVec 5} {reg : BitVec 6} {pm : Pm} (hs : Canonical s) :
    NextCanonical (execWrite wid reg pm s) := by
  simp only [execWrite]
  refine onLane_canon hs fun _ _ h1 => ?_
  split
  · exact wakeReads_canon (modInst_canon (markFired_canon h1))
  · split
    · exact ite_canon (raiseAt_canon h1) (wakeReads_canon (modInst_canon (markFired_canon h1)))
    · exact nullSlot_canon h1
    · exact nullSlot_canon h1
    · exact raiseAt_canon h1

theorem branchNull_canon {f : Firing} (hs : Canonical s) : Canonical (branchNull s f) := by
  simp only [branchNull]
  split
  · split
    exacts [ite_canon (setInst_canon (nullSlot_canon hs)) (nullSlot_canon hs), nullSlot_canon hs]
  · exact nullSlot_canon hs

theorem resolveBranch_canon {f : Firing} {b : Branch} (hs : Canonical s) : Canonical (resolveBranch s f b) := by
  simp only [resolveBranch]
  split
  exacts [ite_canon (raiseAt_canon hs) (modInst_canon (markFired_canon hs)), hs]

theorem branchNext_canon {f : Firing} {va : Nat} (hs : Canonical s) : Canonical (branchNext s f va) := by
  simp only [branchNext]
  split
  exacts [ite_canon (post_canon (resolveBranch_canon hs)) (resolveBranch_canon hs), hs]

theorem execBr_canon {off : BitVec 21} {bk : BranchKind} {pm : Pm} (hs : Canonical s) : NextCanonical (execBr off bk pm s) := by
  simp only [execBr]
  refine effectWord_canon hs (fun _ _ h1 => branchNull_canon h1) fun _ _ h1 => ?_
  refine withTrigger_canon h1 fun _ h1 => ?_
  split
  exacts [resolveBranch_canon h1, resolveBranch_canon h1, branchNext_canon h1]

theorem execBrr_canon {call : Bool} {pm : Pm} (hs : Canonical s) : NextCanonical (execBrr call pm s) :=
  effectWord_canon hs (fun _ _ h1 => branchNull_canon h1) (fun _ _ h1 => ite_canon (raiseAt_canon h1) (resolveBranch_canon h1))

theorem execExit_canon {pm : Pm} (hs : Canonical s) : NextCanonical (execExit pm s) :=
  effectWord_canon hs (fun _ _ h1 => branchNull_canon h1) (fun _ _ h1 => ite_canon (raiseAt_canon h1) (resolveBranch_canon h1))

theorem execTrap_canon {imm : BitVec 12} {pm : Pm} (hs : Canonical s) : NextCanonical (execTrap imm pm s) :=
  storeWord_canon hs (fun _ _ h1 => withTrigger_canon h1 (fun _ h2 => request_canon h2))

theorem execBkpt_canon {imm : BitVec 12} {pm : Pm} (hs : Canonical s) : NextCanonical (execBkpt imm pm s) :=
  storeWord_canon hs (fun _ _ h1 => withTrigger_canon h1 (fun _ h2 => request_canon h2))

theorem execFence_canon {scope : Scope} {lsid : BitVec 5} {pm : Pm} (hs : Canonical s) :
    NextCanonical (execFence scope lsid pm s) :=
  storeWord_canon hs (fun _ _ h1 => withTrigger_canon h1 (fun _ h2 => request_canon h2))

theorem countIssue_canon {pane k : Nat} (hs : Canonical s) : Canonical (countIssue s pane k) :=
  perfPane_canon (perfPane_canon (perfPane_canon hs))

theorem injectReads_canon {a : Activation} {es : List (Nat × Instr)} (hs : Canonical s) : Canonical (injectReads s a es) := by
  simp only [injectReads]
  exact withWk_canon (foldl_canon (fun _ _ h1 => countIssue_canon h1) hs) fun _ =>
    { insts := hs.insts, tasks := hs.tasks, regs := hs.regs, cooling := hs.cooling }

theorem meetTokens_canon {a : Activation} {es : List (Nat × Instr)} (hs : Canonical s) : Canonical (meetTokens s a es) := by
  simp only [meetTokens]
  split
  exacts [raise_canon hs, foldl_canon (fun _ _ h1 => checkReady_canon h1) hs]

theorem startInst_canon {t : Task} {a : Activation} {b : Blk} {frame : Option Place} (hs : Canonical s)
    (ht : RegsCanonical t) : Canonical (startInst s t a b frame) := by
  have h1 (l : Option Loop) : Canonical (setTask s a.tid { t with loop := l, born := true }) := setTask_canon hs ht
  simp only [startInst]
  split
  · exact raise_canon (setInst_canon (h1 _))
  · exact wakeReads_canon (meetTokens_canon (injectReads_canon
      (ite_canon (setInst_canon (h1 _)) (setInst_canon (setInst_canon (h1 _))))))

theorem badTargetStop_canon {t : Task} {a : Activation} (hs : Canonical s) : Canonical (badTargetStop s t a) :=
  ite_canon (reclaimTask_canon (faultLaunch_canon (writeRecord_canon hs))) (stopTask_canon (repost_canon hs))

theorem blockActivate_canon {a : Activation} (hs : Canonical s) : Canonical (blockActivate s a) := by
  simp only [blockActivate]
  split
  · exact hs
  · next t ht =>
    have start (b : Blk) (p : Option Place) : Canonical (startInst s t a b p) := startInst_canon hs (taskAt_regs hs ht)
    refine ite_canon (repost_canon hs) ?_
    split
    · exact badTargetStop_canon hs
    · refine ite_canon (repost_canon hs) (ite_canon (start _ _) ?_)
      split
      · exact start _ _
      · exact ite_canon (repost_canon hs) (stopTask_canon (repost_canon hs))

theorem settlePromoted_canon {pane : Nat} (hs : Canonical s) : Canonical (settlePromoted s pane) := { hs with }

theorem cellIssue_canon {die pane cell : Nat} (hs : Canonical s) : Canonical (cellIssue s die pane cell) := by
  simp only [cellIssue]
  split
  · exact hs
  · split
    · exact hs
    · split
      exacts [hs, ite_canon hs (countIssue_canon (foldl_canon (fun _ _ h1 => modInst_canon h1) { hs with }))]

theorem readyPromote_canon {f : Firing} (hs : Canonical s) : Canonical (readyPromote s f) := { hs with }

/-! ### Words on global memory -/

theorem holdWord_canon {f : Firing} {pane vi va : Nat} {write : Bool} (hs : Canonical s) :
    Canonical (holdWord s f pane vi va write) := post_canon (waitFor_canon hs)

theorem xlatWord_canon {f : Firing} {va : Nat} {a : Access} {k : Nat → Nat → Bool → State → State} (hs : Canonical s)
    (hk : ∀ pa r p u, Canonical u → Canonical (k pa r p u)) :
    Canonical (xlatWord s f va a k) := by
  simp only [xlatWord]
  split
  exacts [hk _ _ _ _ (tlbUse_canon hs), raiseAt_canon hs, holdWord_canon hs]

theorem landCopy_canon {pane : Nat} {c : McastCopy} (hs : Canonical s) : Canonical (landCopy s pane c) := { hs with }

theorem meetCopies_canon {m : ReadMsg} (hs : Canonical s) : Canonical (meetCopies s m) :=
  foldl_canon (fun _ _ h1 => ite_canon (landCopy_canon h1) h1) hs

theorem seeCopies_canon {tid : Nat} {cs : List McastCopy} (hs : Canonical s) : Canonical (seeCopies s tid cs) :=
  foldl_canon (fun _ _ h1 => ite_canon h1 (bumpSeq_canon { h1 with })) hs

theorem finishLoad_canon {f : Firing} {v : Token} {fl : FlagSet} (hs : Canonical s) : Canonical (finishLoad s f v fl) := by
  simp only [finishLoad]
  split
  exacts [fireSend_canon { hs with }, { hs with }]

theorem readDone_canon {m : ReadMsg} {bs : List Byte} {poison : Bool} (hs : Canonical s) :
    Canonical (readDone s m bs poison) := by
  simp only [readDone]
  split
  exacts [finishLoad_canon hs, post_canon hs]

theorem takeRead_canon {m : ReadMsg} {bs : List Byte} {poison : Bool} (hs : Canonical s) : Canonical (takeRead s m bs poison) :=
  ite_canon (readDone_canon hs) (readDone_canon (noteEarly_canon hs))

theorem sendRead_canon {s0 : State} {m : ReadMsg} (hs : Canonical s0) : Canonical (sendRead s0 m) :=
  ite_canon (takeRead_canon (seeCopies_canon (ite_canon (waitFor_canon (meetCopies_canon hs)) (meetCopies_canon hs))))
    (lineRequest_canon (post_canon (waitFor_canon (meetCopies_canon hs))))

theorem execLd_canon {m : MF} (hs : Canonical s) : NextCanonical (execLd m s) :=
  fireWord_canon hs (fun _ _ h1 => ite_canon (waitFor_canon h1)
    (ite_canon (raiseAt_canon h1) (ite_canon (raiseAt_canon h1)
    (xlatWord_canon h1 (fun _ _ _ _ h2 => ite_canon (raiseAt_canon h2) (sendRead_canon h2))))))

theorem pldElement_canon {f : Firing} {i : IF} {base count : Nat} {fmt : Tag} {idx : Int} (hs : Canonical s) :
    Canonical (pldElement s f i base count fmt idx) :=
  ite_canon (fireSend_canon hs) (xlatWord_canon hs (fun _ _ _ _ h1 => ite_canon
    (xlatWord_canon h1 (fun _ _ _ _ h2 => sendRead_canon h2)) (sendRead_canon h1)))

theorem execPld_canon {i : IF} (hs : Canonical s) : NextCanonical (execPld i s) := by
  simp only [execPld]
  refine fireWord_canon hs fun _ _ h1 => ?_
  split
  · exact waitFor_canon h1
  · split
    · exact raiseAt_canon h1
    · refine xlatWord_canon h1 fun _ _ _ _ h1 => ?_
      split
      exacts [raiseAt_canon (devTouch_canon h1), pldElement_canon (devTouch_canon h1)]

theorem fireGlobal_canon {f : Firing} {a : Access} {fmt : Tag} {data : List Token} {plain : Bool}
    {k : Nat → Nat → Nat → Bool → State → State} (hs : Canonical s)
    (hk : ∀ va pa r p u, Canonical u → Canonical (k va pa r p u)) :
    Canonical (fireGlobal s f a fmt data plain k) :=
  ite_canon (raiseAt_canon hs) (ite_canon (raiseAt_canon hs)
    (xlatWord_canon hs (fun _ _ _ _ h1 => ite_canon (raiseAt_canon h1) (hk _ _ _ _ _ h1))))

theorem storeReq_canon {i : Instr} {ord : Order} {fmt : Tag} {mst : Bool} (hs : Canonical s) :
    NextCanonical (storeReq s i ord fmt mst) :=
  storeWord_canon hs (fun _ _ h1 => fireGlobal_canon h1 (fun _ _ _ _ _ h2 => request_canon h2))

theorem atomReq_canon {i : Instr} {op : AtomOp} {m : MF} (hs : Canonical s) : NextCanonical (atomReq s i op m) :=
  storeWord_canon hs (fun _ _ h1 => fireGlobal_canon h1 (fun _ _ _ _ _ h2 => request_canon h2))

theorem execPref_canon {lsid : BitVec 5} {pm : Pm} (hs : Canonical s) : NextCanonical (execPref lsid pm s) := by
  simp only [execPref]
  refine storeWord_canon hs fun _ _ h1 => ?_
  split
  · exact raiseAt_canon h1
  · split
    · exact ite_canon (request_canon (tlbInsert_canon (withGm_canon h1 (touchAll_canon h1.gm)))) (request_canon h1)
    · exact request_canon h1

theorem wakeHeld_canon {m : WalkMsg} (hs : Canonical s) : Canonical (wakeHeld s m) := by
  simp only [wakeHeld]
  split
  exacts [wake_canon hs, hs]

theorem refuseHeld_canon {m : WalkMsg} (hs : Canonical s) : Canonical (refuseHeld s m) := by
  simp only [refuseHeld]
  split
  exacts [raiseAt_canon hs, hs]

theorem pageWalk_canon {m : WalkMsg} (hs : Canonical s) : Canonical (pageWalk s m) := by
  have h1 (ps : List Nat) : Canonical { s with gm := touchAll s.gm ps } := withGm_canon hs (touchAll_canon hs.gm)
  unfold pageWalk
  extract_lets live
  clear_value live
  split
  · exact hs
  · dsimp only
    split
    exacts [wakeHeld_canon (tlbInsert_canon (h1 _)), refuseHeld_canon (h1 _), sendPageFault_canon { h1 _ with }]

theorem touchLines_canon {g : Gm} {pa n : Nat} (hg : GmCanonical g) : GmCanonical (touchLines g pa n) := by
  simp only [touchLines]
  split
  exacts [touchLine_canon hg, touchLine_canon (touchLine_canon hg)]

theorem homeRead_canon {s0 : State} {m : ReadMsg} (hs : Canonical s0) : Canonical (homeRead s0 m) :=
  ite_canon hs (ite_canon (repost_canon hs) (takeRead_canon
    (seeCopies_canon (ite_canon (withGm_canon (meetCopies_canon hs) (touchLines_canon ((meetCopies_canon hs).gm)))
    (meetCopies_canon hs)))))

theorem storeAt_canon {g : Gm} {pa : Nat} {bytes : List Byte} {poison : Bool} (hg : GmCanonical g) :
    GmCanonical (storeAt g pa bytes poison) := by
  simp only [storeAt]
  split
  exacts [writeLine_canon hg, writeLine_canon hg]

theorem retireCopies_canon {tid seq : Nat} (hs : Canonical s) : Canonical (retireCopies s tid seq) := { hs with }

theorem performWrite_canon {m : WriteMsg} (hs : Canonical s) : Canonical (performWrite s m) := by
  unfold performWrite
  extract_lets s1 s2
  have h1 : Canonical s1 := ite_canon (withGm_canon hs (storeAt_canon hs.gm)) hs
  have h2 : Canonical s2 := by
    unfold s2
    split
    exacts [publish_canon h1, ite_canon (ownUnit_canon h1) h1]
  exact ite_canon (retireCopies_canon h2) h2

theorem globalWrite_canon {m : WriteMsg} (hs : Canonical s) : Canonical (globalWrite s m) :=
  ite_canon (repost_canon hs) (openWaits_canon (performWrite_canon hs))

theorem performAtom_canon {m : AtomMsg} (hs : Canonical s) : Canonical (performAtom s m) := by
  unfold performAtom
  extract_lets w old poison s0 new
  have h0 : Canonical s0 := by
    unfold s0
    split
    exacts [publish_canon hs, hs]
  clear_value s0
  have stored (bs : List Byte) (p : Bool) : Canonical { s0 with gm := storeAt s0.gm m.pa bs p } :=
    withGm_canon h0 (storeAt_canon h0.gm)
  exact ite_canon (post_canon (ite_canon (stored _ _) h0)) (post_canon (ite_canon (stored _ _) h0))

theorem atomicPerform_canon {m : AtomMsg} (hs : Canonical s) : Canonical (atomicPerform s m) :=
  ite_canon (repost_canon hs) (openWaits_canon (performAtom_canon hs))

/-! ### Words on local store -/

theorem withGranule_canon {f : Firing} {width : Nat} {k : Nat → Nat → GLoc → Nat → State → State} (hs : Canonical s)
    (hk : ∀ h off l o u, Canonical u → Canonical (k h off l o u)) :
    Canonical (withGranule s f width k) := by
  simp only [withGranule]
  split
  · exact raiseAt_canon hs
  · split
    exacts [raiseAt_canon hs, ite_canon (waitFor_canon hs) (hk _ _ _ _ _ hs)]

theorem reserveTake_canon {f : Firing} {lsid h off : Nat} {l : GLoc} (hs : Canonical s) :
    Canonical (reserveTake s f lsid h off l) := modInst_canon (setLocField_canon hs)

theorem takeEarly_canon {f : Firing} {i : Instr} {fmt : Tag} {lsid : Nat} (hs : Canonical s) :
    Canonical (takeEarly s f i fmt lsid) := by
  simp only [takeEarly]
  split
  · split
    exacts [ite_canon (reserveTake_canon hs) hs, hs]
  · exact hs

theorem execLld_canon {t0 : Tgt} {wait : LldWait} {fmt : Tag} {lsid : BitVec 5} {pm : Pm} (hs : Canonical s) :
    NextCanonical (execLld t0 wait fmt lsid pm s) := by
  unfold execLld
  refine fireWord_canon hs fun f s1 h1 => ite_canon (waitFor_canon (ite_canon (takeEarly_canon h1) h1)) ?_
  refine withGranule_canon h1 fun _ _ l _ s2 h2 => ?_
  have h3 : Canonical (readCheck s2 l) := readCheck_canon h2
  dsimp only
  split
  · exact ite_canon (raiseAt_canon h3) (fireSend_canon (noteEarly_canon h3))
  · exact ite_canon (raiseAt_canon h3) (ite_canon (fireSend_canon (noteEarly_canon h3)) (waitFor_canon h3))
  · exact ite_canon (raiseAt_canon h3) (ite_canon (fireSend_canon (noteEarly_canon h3))
      (ite_canon (fireSend_canon (noteEarly_canon (reserveTake_canon h3))) (waitFor_canon h3)))

theorem execFew_canon {t0 : Tgt} {lsid : BitVec 5} {pm : Pm} (hs : Canonical s) : NextCanonical (execFew t0 lsid pm s) := by
  refine fireWord_canon hs fun _ s1 h1 => ite_canon (waitFor_canon h1) (ite_canon (raiseAt_canon h1) ?_)
  refine withGranule_canon h1 fun _ _ l _ s2 h2 => ?_
  have h3 : Canonical (readCheck s2 l) := readCheck_canon h2
  exact ite_canon (ite_canon (fireSend_canon h3) (waitFor_canon h3)) (ite_canon (fireSend_canon h3) (waitFor_canon h3))

theorem execLsz_canon {t0 : Tgt} {lsid : BitVec 5} {pm : Pm} (hs : Canonical s) : NextCanonical (execLsz t0 lsid pm s) := by
  simp only [execLsz]
  refine fireWord_canon hs fun _ _ h1 => ?_
  split
  · exact raiseAt_canon h1
  · split
    exacts [raiseAt_canon h1, fireSend_canon h1]

theorem execLst_canon {fmt : Tag} {lsid : BitVec 5} {pm : Pm} (hs : Canonical s) : NextCanonical (execLst fmt lsid pm s) :=
  storeWord_canon hs (fun _ _ h1 => ite_canon (raiseAt_canon h1) (withGranule_canon h1 (fun _ _ _ _ _ h2 => request_canon h2)))

theorem execLamo_canon {t0 : Tgt} {op : AtomOp} {fmt : Tag} {lsid : BitVec 5} {pm : Pm} (hs : Canonical s) :
    NextCanonical (execLamo t0 op fmt lsid pm s) :=
  storeWord_canon hs (fun _ _ h1 => ite_canon (raiseAt_canon h1) (withGranule_canon h1 (fun _ _ _ _ _ h2 => request_canon h2)))

theorem execFes_canon {lsid : BitVec 5} {pm : Pm} (hs : Canonical s) : NextCanonical (execFes lsid pm s) :=
  storeWord_canon hs (fun _ _ h1 => ite_canon (raiseAt_canon h1) (withGranule_canon h1 (fun _ _ _ _ _ h2 => request_canon h2)))

theorem execBinit_canon {lsid : BitVec 5} {pm : Pm} (hs : Canonical s) : NextCanonical (execBinit lsid pm s) :=
  storeWord_canon hs (fun _ _ h1 => ite_canon (raiseAt_canon h1) (withGranule_canon h1 (fun _ _ _ _ _ h2 => request_canon h2)))

theorem execBarr_canon {t0 : Tgt} {lsid : BitVec 5} {pm : Pm} (hs : Canonical s) : NextCanonical (execBarr t0 lsid pm s) :=
  storeWord_canon hs (fun _ _ h1 => withGranule_canon h1 (fun _ _ _ _ _ h2 => request_canon h2))

/-! ### Words on queues, tables and counters -/

theorem setCtx_canon {k : Nat} {c : Ctx} (hs : Canonical s) : Canonical (setCtx s k c) :=
  { hs with ctxs := tputD_sorted hs.ctxs }

theorem execAlloc_canon {g : GF} {arena : BitVec 3} (hs : Canonical s) : NextCanonical (execAlloc g arena s) :=
  fireWord_canon hs (fun _ _ h1 => ite_canon (raiseAt_canon h1) (ite_canon (raiseAt_canon h1) (post_canon (waitFor_canon h1))))

theorem execFree_canon {pm : Pm} (hs : Canonical s) : NextCanonical (execFree pm s) := by
  simp only [execFree]
  refine storeWord_canon hs fun _ _ h1 => ?_
  split
  · exact raiseAt_canon h1
  · split
    exacts [raiseAt_canon h1, request_canon h1]

theorem execRels_canon {pm : Pm} (hs : Canonical s) : NextCanonical (execRels pm s) := by
  simp only [execRels]
  refine storeWord_canon hs fun _ _ h1 => ?_
  split
  · exact raiseAt_canon h1
  · split
    exacts [raiseAt_canon h1, ite_canon (raiseAt_canon h1) (ite_canon (raiseAt_canon h1) (request_canon h1))]

theorem execCp_canon {t0 : Tgt} {ctx : BitVec 2} {rv : Bool} {ta : TA} {pm : Pm} (hs : Canonical s) :
    NextCanonical (execCp t0 ctx rv ta pm s) := by
  simp only [execCp]
  refine storeWord_canon hs fun _ _ h1 => ?_
  split
  · split
    · exact raiseAt_canon h1
    · split
      exacts [raiseAt_canon h1, request_canon h1]
  · exact raiseAt_canon h1

theorem gatherReq_canon {i : Instr} {ctx : BitVec 2} {scatter : Bool} (hs : Canonical s) :
    NextCanonical (gatherReq s i ctx scatter) :=
  storeWord_canon hs (fun _ _ h1 => ite_canon (raiseAt_canon h1) (request_canon h1))

theorem execPset_canon {t0 : Tgt} {reg : BitVec 3} {ta : TA} {pm : Pm} (hs : Canonical s) :
    NextCanonical (execPset t0 reg ta pm s) := by
  simp only [execPset]
  refine storeWord_canon hs fun _ _ h1 => ?_
  split
  · split
    exacts [raiseAt_canon h1, request_canon h1]
  · exact raiseAt_canon h1

theorem execCpp_canon {t0 : Tgt} {ctx : BitVec 2} {ta : TA} {pm : Pm} (hs : Canonical s) :
    NextCanonical (execCpp t0 ctx ta pm s) := by
  simp only [execCpp]
  refine storeWord_canon hs fun _ _ h1 => ?_
  split
  · exact raiseAt_canon h1
  · split
    exacts [raiseAt_canon h1, request_canon h1]

theorem execTwait_canon {g : GF} {ctx : BitVec 2} (hs : Canonical s) : NextCanonical (execTwait g ctx s) :=
  fireWord_canon hs (fun _ _ h1 => ite_canon (raiseAt_canon h1)
    (ite_canon (fireSend_canon h1) (ite_canon (fireSend_canon h1) (waitFor_canon h1))))

theorem execTread_canon {g : GF} {ctx : BitVec 2} (hs : Canonical s) : NextCanonical (execTread g ctx s) :=
  fireWord_canon hs (fun _ _ h1 => ite_canon (raiseAt_canon h1) (fireSend_canon h1))

theorem execWload_canon {t0 : Tgt} {k j : BitVec 2} {pm : Pm} (hs : Canonical s) : NextCanonical (execWload t0 k j pm s) :=
  storeWord_canon hs (fun _ _ h1 => ite_canon (raiseAt_canon h1) (request_canon h1))

theorem execWmma_canon {t0 : Tgt} {k j : BitVec 2} {sat : Bool} {pm : Pm} (hs : Canonical s) :
    NextCanonical (execWmma t0 k j sat pm s) :=
  storeWord_canon hs (fun _ _ h1 => ite_canon (raiseAt_canon h1) (request_canon h1))

theorem execCvtt_canon {t0 : Tgt} {n : BitVec 4} {pm : Pm} (hs : Canonical s) : NextCanonical (execCvtt t0 n pm s) :=
  storeWord_canon hs (fun _ _ h1 => ite_canon (raiseAt_canon h1) (request_canon h1))

theorem refReq_canon {i : Instr} {k : Payload → ReqKind} (hs : Canonical s) : NextCanonical (refReq s i k) :=
  storeWord_canon hs (fun _ _ h1 => ite_canon (raiseAt_canon h1) (request_canon h1))

theorem execAwait_canon {g : GF} (hs : Canonical s) : NextCanonical (execAwait g s) := by
  simp only [execAwait]
  refine fireWord_canon hs fun _ _ h1 => ?_
  split
  · exact raiseAt_canon h1
  · split
    exacts [raiseAt_canon h1, ite_canon (fireSend_canon h1) (waitFor_canon h1)]

theorem execLaunch_canon {t0 : Tgt} {ta : TA} {pm : Pm} (hs : Canonical s) : NextCanonical (execLaunch t0 ta pm s) :=
  storeWord_canon hs (fun _ _ h1 => ite_canon (raiseAt_canon h1) (request_canon h1))

theorem execWaitc_canon {g : GF} {level : Level} (hs : Canonical s) : NextCanonical (execWaitc g level s) := by
  simp only [execWaitc]
  refine fireWord_canon hs fun _ _ h1 => ?_
  split
  · exact raiseAt_canon h1
  · split
    · exact fireSend_canon h1
    · split
      exacts [fireSend_canon h1, ite_canon (fireSend_canon h1) (waitFor_canon h1)]

theorem execCancel_canon {level : Level} {pm : Pm} (hs : Canonical s) : NextCanonical (execCancel level pm s) :=
  storeWord_canon hs (fun _ _ h1 => ite_canon (raiseAt_canon h1) (request_canon h1))

theorem execTnow_canon {g : GF} (hs : Canonical s) : NextCanonical (execTnow g s) :=
  fireWord_canon hs (fun _ _ h1 => ite_canon (raiseAt_canon h1) (fireSend_canon h1))

theorem execTickw_canon {t0 : Tgt} {ta : TA} {pm : Pm} (hs : Canonical s) : NextCanonical (execTickw t0 ta pm s) :=
  storeWord_canon hs (fun _ _ h1 => ite_canon (raiseAt_canon h1)
    (ite_canon (raiseAt_canon h1) (ite_canon (raiseAt_canon h1) (xlatWord_canon h1 (fun _ _ _ _ h2 => request_canon h2)))))

theorem execKvgrow_canon {t0 : Tgt} {ta : TA} {pm : Pm} (hs : Canonical s) : NextCanonical (execKvgrow t0 ta pm s) :=
  storeWord_canon hs (fun _ _ h1 => ite_canon (raiseAt_canon h1)
    (ite_canon (raiseAt_canon h1) (ite_canon (raiseAt_canon h1) (request_canon h1))))

theorem execSyswr_canon {imm : BitVec 12} {pm : Pm} (hs : Canonical s) : NextCanonical (execSyswr imm pm s) :=
  storeWord_canon hs (fun _ _ h1 => ite_canon (request_canon h1) (raiseAt_canon h1))

theorem execProf_canon {imm : BitVec 12} {pm : Pm} (hs : Canonical s) : NextCanonical (execProf imm pm s) :=
  storeWord_canon hs (fun _ _ h1 => ite_canon (request_canon h1) (raiseAt_canon h1))

/-! ### Starts, futures and colours -/

theorem takeColour_canon {die c : Nat} {u : State} {p : Bool} (hs : Canonical s)
    (h : (if p then takeColour s die else none) = some (c, u)) : Canonical u := by
  simp only [takeColour] at h
  split at h
  · split at h
    · cases h
      exact { hs with }
    · split at h
      · cases h
        exact { hs with }
      · cases h
  · cases h

theorem putFut_canon {key colour pane launch job : Nat} (hs : Canonical s) : Canonical (putFut s key colour pane launch job) :=
  { hs with }

theorem joinLine_canon {die : Nat} {record : Bool} {who : Asker} (hs : Canonical s) : Canonical (joinLine s die record who) :=
  ite_canon hs { hs with }

theorem leaveLine_canon {who : Asker} (hs : Canonical s) : Canonical (leaveLine s who) :=
  ite_canon (wakeColour_canon { hs with }) hs

theorem startTask_canon {b : Start} (hs : Canonical s) (hb : tsorted none b.regs = true) : Canonical (startTask s b) := by
  simp only [startTask]
  exact storeRegs_canon (setTask_canon { hs with } (tput_sorted _ _ _ (tput_sorted _ _ _ hb)))

theorem dealAsk_canon {key : Nat} {l : Launch} {c : Chunk} (hs : Canonical s) : Canonical (dealAsk s key l c) := by
  simp only [dealAsk]
  split
  · exact modLaunch_canon hs
  · split
    · exact modLaunch_canon hs
    · split
      · exact joinLine_canon (modLaunch_canon hs)
      · exact post_canon (leaveLine_canon (modLaunch_canon (takeColour_canon hs ‹_›)))

theorem dealStart_canon {key p col carve : Nat} {l : Launch} {c : Chunk} (hs : Canonical s) :
    Canonical (dealStart s key l c p col carve) := by
  simp only [dealStart]
  split
  · exact joinLine_canon hs
  · exact post_canon (modLaunch_canon (startTask_canon (putFut_canon (leaveLine_canon hs)) rfl))

theorem dealChunk_canon {key : Nat} (hs : Canonical s) : Canonical (dealChunk s key) := by
  simp only [dealChunk]
  split
  · exact hs
  · split
    · exact hs
    · split
      · exact hs
      · split
        exacts [dealStart_canon hs, dealAsk_canon hs]

theorem modFut_canon {k : Nat} {f : Fut → Fut} (hs : Canonical s) : Canonical (modFut s k f) := { hs with }

theorem countZero_canon {p : Payload} {r : Fut} (hs : Canonical s) : Canonical (countZero s p r) := by
  simp only [countZero]
  split
  exacts [freeFut_canon hs, ite_canon (modFut_canon hs) (reclaimTask_canon hs), hs]

theorem refChange_canon {m : RefMsg} (hs : Canonical s) : Canonical (refChange s m) := by
  simp only [refChange]
  split
  · split
    exacts [recordGoOn_canon hs, hs]
  · exact ite_canon hs (ite_canon (ite_canon (modFut_canon hs) (modFut_canon hs))
      (ite_canon (countZero_canon hs) (modFut_canon hs)))

theorem setBirth_canon {b : Birth} (hs : Canonical s) : Canonical (setBirth s b) := { hs with }

theorem spawnStart_canon {i : Instr} {b : Birth} {col fut carve : Nat} (hs : Canonical s) :
    Canonical (spawnStart s i b col fut carve) := by
  simp only [spawnStart]
  refine fireSend_canon (openWaits_canon (post_canon (modInst_canon (startTask_canon { regCheck_canon hs with } ?_))))
  have none_sorted : tsorted none ([] : Table Token) = true := rfl
  exact tputD_sorted (tput_sorted _ _ _ (tputD_sorted none_sorted))

theorem spawnGo_canon {i : Instr} {b : Birth} (hs : Canonical s) : Canonical (spawnGo s i b) := by
  simp only [spawnGo]
  split
  · exact spawnStart_canon hs
  · exact waitFor_canon hs
  · have line (c : Bool) {r : Bool} {n : Nat} {w : Asker} {a : State} (ha : Canonical a) :
        Canonical (if c then joinLine a n r w else a) := ite_canon (joinLine_canon ha) ha
    split
    · exact post_canon (waitFor_canon (setBirth_canon (putFut_canon (leaveLine_canon (takeColour_canon hs ‹_›)))))
    · exact waitFor_canon (line _ (line _ hs))

theorem execSpawn_canon {g : GF} {place : SpawnPlace} (hs : Canonical s) : NextCanonical (execSpawn g place s) := by
  simp only [execSpawn]
  refine fireWord_canon hs fun _ _ h1 => ?_
  split
  · exact raiseAt_canon h1
  · split
    · exact raiseAt_canon h1
    · split
      · exact ite_canon (waitFor_canon h1) (spawnGo_canon h1)
      · split
        · exact waitFor_canon h1
        · split
          · exact waitFor_canon h1
          · exact ite_canon (waitFor_canon h1) (spawnGo_canon
              (ite_canon (refChange_canon (setBirth_canon h1)) (setBirth_canon h1)))

theorem futureExit_canon {m : ExitMsg} (hs : Canonical s) : Canonical (futureExit s m) := by
  simp only [futureExit]
  split
  · exact repost_canon hs
  · split
    exacts [hs, ite_canon (freeFut_canon hs) (modFut_canon hs)]

theorem colourDrain_canon {die colour : Nat} (hs : Canonical s) : Canonical (colourDrain s die colour) :=
  ite_canon (giveColour_canon { hs with cooling := tputD_sorted hs.cooling }) hs

/-! ### Events of the allocator -/

theorem remoteDrop_canon {x : Remote} (hs : Canonical s) : Canonical (remoteDrop s x) := by
  unfold remoteDrop
  extract_lets _ s0 s1 s2 s3 s4 s5 _
  have h1 : Canonical s1 := withdraw_canon { hs with }
  have h2 : Canonical s2 := by
    unfold s2
    split
    exacts [releaseRec_canon (releaseRec_canon h1), h1]
  have h3 : Canonical s3 := by
    unfold s3
    split
    exacts [freeFut_canon h2, h2]
  have h4 : Canonical s4 := by
    unfold s4
    split
    exacts [giveColour_canon h3, wakeColour_canon h3]
  have h5 : Canonical s5 := modLaunch_canon h4
  exact { h5 with }

theorem withdrawCarve_canon {r : AllocReq} (hs : Canonical s) : Canonical (withdrawCarve s r) := by
  simp only [withdrawCarve]
  split
  · exact hs
  · split
    exacts [remoteDrop_canon hs, hs]
  · exact raiseAt_canon hs
  · split
    · exact hs
    · refine faultLaunch_canon (writeRecord_canon ?_)
      refine modLaunch_canon ?_
      split
      · split
        exacts [giveColour_canon hs, hs]
      · exact hs

theorem allocArrive_canon {r : AllocReq} (hs : Canonical s) : Canonical (allocArrive s r) :=
  ite_canon (repost_canon hs) (ite_canon (withdrawCarve_canon hs) (grantAttempt_canon (noteTurn_canon (setArena_canon hs))))

theorem withdrawUnfit_canon {pane : Nat} (hs : Canonical s) : Canonical (withdrawUnfit s pane) :=
  foldl_canon (fun _ _ h1 => withdrawCarve_canon (withdraw_canon h1)) hs

theorem allocDeadlock_canon {k : Nat} {o : AllocReq} (hs : Canonical s) : Canonical (allocDeadlock s k o) := by
  unfold allocDeadlock
  extract_lets a p launch vi rec0 s1 s2 _ s3
  have h3 : Canonical s3 := setArena_canon (faultLaunch_canon (ringWrite_canon (countFaultInfo_canon hs)))
  split
  exacts [discardAll_canon h3, discardAll_canon h3, h3, h3]

theorem quietSpill_canon {k : Nat} (hs : Canonical s) : Canonical (quietSpill s k) := by
  simp only [quietSpill]
  split
  · exact hs
  · split
    · exact hs
    · split
      · exact setArena_canon hs
      · split
        exacts [ite_canon hs (allocDeadlock_canon hs), setArena_canon hs]

theorem spillCopy_canon {key : Nat} {r : Rec} {p : Nat} (hs : Canonical s) : Canonical (spillCopy s key r p) :=
  foldl_canon (fun _ _ h1 => devPut_canon (devPutAll_canon (readCheck_canon h1))) hs

theorem clearAfterSpill_canon {key : Nat} {r : Rec} (hs : Canonical s) : Canonical (clearAfterSpill s key r) := by
  simp only [clearAfterSpill]
  refine foldl_canon (fun _ _ h1 => ?_) hs
  split
  · next g _ => exact withLs_canon h1 { setGst_canon (g := g) (v := 0) h1.ls with }
  · exact h1

theorem spillComplete_canon {k : Nat} (hs : Canonical s) : Canonical (spillComplete s k) := by
  unfold spillComplete
  extract_lets a
  split
  · exact hs
  · refine ite_canon hs ?_
    split
    · exact setArena_canon hs
    · extract_lets s1 s2 st off s3 _ s4
      have h2 : Canonical s2 := setRec_canon (clearAfterSpill_canon (spillCopy_canon hs))
      have h3 : Canonical s3 := ite_canon (setRec_canon h2) h2
      exact grantAttempt_canon (noteTurn_canon (setArena_canon h3))

theorem releaseCut_canon {k : Nat} {m : ReleaseMsg} (hs : Canonical s) : Canonical (releaseCut s k m) :=
  grantAttempt_canon (foldl_canon (fun _ _ h1 => freeGranule_canon h1)
    (foldl_canon (fun _ _ h1 => foldl_canon (fun _ _ h2 => freeGranule_canon h2) h1) hs))

theorem allocationRelease_canon {m : ReleaseMsg} (hs : Canonical s) : Canonical (allocationRelease s m) := by
  simp only [allocationRelease]
  split
  · exact repost_canon hs
  · split
    · split
      exacts [ite_canon (releaseRec_canon (noteTurn_canon hs)) hs, hs]
    · exact releaseCut_canon (noteTurn_canon hs)

/-! ### Launches, graphs, phases and jobs -/

theorem pruneLaunches_canon {vi job : Nat} (hs : Canonical s) : Canonical (pruneLaunches s vi job) :=
  { hs with launches := foldl_keeps_prop (P := fun t => tsorted none t = true) (fun _ _ => tdel_sorted _ _) hs.launches }

theorem launchComplete_canon {key : Nat} (hs : Canonical s) : Canonical (launchComplete s key) := by
  simp only [launchComplete]
  split
  · exact hs
  · split
    · exact hs
    · refine pruneLaunches_canon ?_
      split
      exacts [devWrite_canon (modLaunch_canon hs), modLaunch_canon hs]

theorem releaseArenas_canon {g : Nat} (hs : Canonical s) : Canonical (releaseArenas s g) :=
  foldl_canon (fun _ _ h1 => askRelease_canon h1) hs

theorem dropArenas_canon {i : Nat} (hs : Canonical s) : Canonical (dropArenas s i) := { hs with }

theorem withCells_canon {c : Table CellSt} (hs : Canonical s) : Canonical { s with wk := { s.wk with cells := c } } :=
  { hs with }

theorem resetPtrs_canon {pane : Nat} (hs : Canonical s) : Canonical (resetPtrs s pane) := withCells_canon hs

theorem setSlot_canon {i : Nat} {v : BitVec 64} (hs : Canonical s) : Canonical (setSlot s i v) :=
  have h1 : Canonical (settlePromoted s (slotPane i)) := settlePromoted_canon hs
  { h1 with slots := tputD_sorted h1.slots }

theorem unbind_canon {i : Nat} (hs : Canonical s) : Canonical (unbind s i) :=
  attemptPane_canon (resetPtrs_canon (dropArenas_canon (setSlot_canon hs)))

theorem dropJob_canon {jk : Nat} (hs : Canonical s) : Canonical (dropJob s jk) := by
  unfold dropJob
  extract_lets s1 vi job
  have h1 : Canonical s1 := foldl_canon (fun _ _ h => unbind_canon h) hs
  exact { h1 with jobs := tdel_sorted _ _ h1.jobs, launches := tfilter_sorted h1.launches,
                  active := tfilter_sorted h1.active, saved := tfilter_sorted h1.saved }

theorem dropFuts_canon {jk : Nat} (hs : Canonical s) : Canonical (dropFuts s jk) :=
  foldl_canon (fun _ _ h1 => freeFut_canon h1) hs

theorem disableTicks_canon {vi job : Nat} (hs : Canonical s) : Canonical (disableTicks s vi job) :=
  { hs with ticks := tmap_sorted (fun _ => by split <;> rfl) hs.ticks }

theorem stopVi_canon {vi : Nat} (hs : Canonical s) : Canonical (stopVi s vi) := modVi_canon hs

theorem jobGone_canon {vi jk : Nat} (hs : Canonical s) : Canonical (jobGone s vi jk) :=
  ite_canon (stopVi_canon (modVi_canon hs)) (modVi_canon hs)

theorem graphComplete_canon {k : Nat} (hs : Canonical s) : Canonical (graphComplete s k) := by
  simp only [graphComplete]
  split
  exacts [hs, ite_canon hs (releaseArenas_canon (modGraph_canon hs))]

theorem phaseComplete_canon {k : Nat} (hs : Canonical s) : Canonical (phaseComplete s k) := by
  simp only [phaseComplete]
  split
  exacts [hs, ite_canon hs (modPhase_canon hs)]

theorem jobLeave_canon {jk : Nat} {j : Job} {a : Nat} (hs : Canonical s) : Canonical (jobLeave s jk j a) :=
  ite_canon hs (jobGone_canon (dropFuts_canon (dropJob_canon (disableTicks_canon hs))))

theorem jobComplete_canon {jk : Nat} (hs : Canonical s) : Canonical (jobComplete s jk) := by
  simp only [jobComplete]
  split
  · exact hs
  · split
    exacts [hs, ite_canon (jobLeave_canon hs) (ite_canon hs (jobLeave_canon (devWrite_canon (modJob_canon hs))))]

theorem levelComplete_canon {level : Level} {key : Nat} (hs : Canonical s) : Canonical (levelComplete s level key) := by
  simp only [levelComplete]
  split
  exacts [launchComplete_canon hs, graphComplete_canon hs, phaseComplete_canon hs, jobComplete_canon hs]

theorem phaseBegin_canon {jk : Nat} (hs : Canonical s) : Canonical (phaseBegin s jk) := { hs with }

theorem clearSlot_canon {vi i : Nat} (hs : Canonical s) : Canonical (clearSlot vi s i) :=
  withGm_canon hs (writeLine_canon hs.gm)

theorem emptySlot_canon {vi : Nat} {o : Option Nat} (hs : Canonical s) : Canonical (emptySlot s vi o) := by
  simp only [emptySlot]
  split
  exacts [hs, clearSlot_canon hs]

theorem refuseLaunch_canon {key : Nat} (hs : Canonical s) : Canonical (refuseLaunch s key) := by
  simp only [refuseLaunch]
  split
  exacts [hs, faultLaunch_canon (writeRecord_canon (modLaunch_canon (emptySlot_canon hs)))]

theorem holdDev_canon {d : DevAccess} {die vi va : Nat} {write : Bool} (hs : Canonical s) :
    Canonical (holdDev s d die vi va write) := sendPageFault_canon { hs with }

theorem refusedCard_canon {key : Nat} {l1 : Launch} (hs : Canonical s) : Canonical (refusedCard s key l1) := modLaunch_canon hs

theorem launchReady_canon {key : Nat} {l : Launch} (hs : Canonical s) : Canonical (launchReady s key l) :=
  modLaunch_canon (modLaunch_canon (emptySlot_canon hs))

theorem readCard_canon {key : Nat} (hs : Canonical s) : Canonical (readCard s key) := by
  simp only [readCard]
  split
  · exact hs
  · split
    · exact holdDev_canon hs
    · split
      · exact refuseLaunch_canon (refusedCard_canon (devTouch_canon hs))
      · split
        · exact launchReady_canon (devTouch_canon hs)
        · split
          · exact launchReady_canon (devStore_canon (devTouch_canon hs))
          · exact holdDev_canon (devTouch_canon hs)
          · exact refuseLaunch_canon (writeRecord_canon (refusedCard_canon (devTouch_canon hs)))
    · exact refuseLaunch_canon hs

theorem newLaunch_canon {l : Launch} (hs : Canonical s) : Canonical (newLaunch s l).2 :=
  readCard_canon (pruneLaunches_canon { hs with launches := tput_sorted _ _ _ hs.launches })

theorem withdrawHand_canon {key : Nat} (hs : Canonical s) : Canonical (withdrawHand s key) := by
  unfold withdrawHand
  split
  · exact hs
  · extract_lets s0 s1 s2
    have h1 : Canonical s1 := withdraw_canon (modLaunch_canon hs)
    have h2 : Canonical s2 := by
      unfold s2
      split
      exacts [releaseRec_canon (releaseRec_canon h1), h1]
    split
    exacts [giveColour_canon h2, wakeColour_canon h2]

theorem cancelLaunch_canon {own : Option Nat} {key : Nat} (hs : Canonical s) : Canonical (cancelLaunch own s key) :=
  revokeCmds_canon (foldl_canon (fun _ _ h1 => reclaimTask_canon h1)
    (modLaunch_canon (emptySlot_canon { withdrawHand_canon (modLaunch_canon hs) with })))

theorem markGraph_canon {k : Nat} (hs : Canonical s) : Canonical (markGraph s k) := modGraph_canon hs

theorem markPhase_canon {k : Nat} (hs : Canonical s) : Canonical (markPhase s k) := modPhase_canon hs

theorem cancelLaunches_canon {own : Option Nat} {l : List Nat} (hs : Canonical s) : Canonical (l.foldl (cancelLaunch own) s) :=
  foldl_canon (fun _ _ h => cancelLaunch_canon h) hs

theorem markGraphs_canon {l : List Nat} (hs : Canonical s) : Canonical (l.foldl markGraph s) :=
  foldl_canon (fun _ _ h => markGraph_canon h) hs

theorem markPhases_canon {l : List Nat} (hs : Canonical s) : Canonical (l.foldl markPhase s) :=
  foldl_canon (fun _ _ h => markPhase_canon h) hs

theorem cancelBelow_canon {vi job : Nat} {level : Level} {id : Nat} {own : Option Nat} (hs : Canonical s) :
    Canonical (cancelBelow s vi job level id own) := by
  simp only [cancelBelow]
  split
  · exact cancelLaunch_canon hs
  · exact cancelLaunches_canon (markGraph_canon hs)
  · exact cancelLaunches_canon (markGraphs_canon (markPhase_canon hs))
  · exact cancelLaunches_canon (markPhases_canon (markGraphs_canon (modJob_canon (disableTicks_canon hs))))

theorem faultLevel_canon {vi job : Nat} {level : Level} {id : Nat} (hs : Canonical s) :
    Canonical (faultLevel s vi job level id) := by
  simp only [faultLevel]
  split
  exacts [faultLaunch_canon hs, faultGraph_canon hs, faultPhase_canon hs, faultJob_canon hs]

theorem cancelLevel_canon {vi job : Nat} {level : Level} {id : Nat} {p : Place4} {own : Option Nat} (hs : Canonical s) :
    Canonical (cancelLevel s vi job level id p own) := by
  simp only [cancelLevel]
  split
  exacts [hs, ite_canon hs (faultLevel_canon (writeRecord_canon (cancelBelow_canon hs)))]

/-! ### Growing ranges -/

theorem mapPage_canon {vi va page : Nat} (hs : Canonical s) : Canonical (mapPage s vi va page) := by
  simp only [mapPage]
  split
  exacts [withGm_canon hs (writeLine_canon hs.gm), hs]

theorem growReturn_canon {m : Mail} {va : Nat} (hs : Canonical s) : Canonical (growReturn s m va) := post_canon hs

theorem walkTouch_canon {vi va : Nat} (hs : Canonical s) : Canonical (walkTouch s vi va) :=
  withGm_canon hs (touchAll_canon hs.gm)

theorem growCommit_canon {s0 : State} {pane : Nat} {m : Mail} (hs : Canonical s0) : Canonical (growCommit s0 pane m) := by
  unfold growCommit
  extract_lets s
  have h : Canonical s := walkTouch_canon hs
  refine ite_canon (growReturn_canon h) ?_
  split
  · exact growReturn_canon (mapPage_canon { h with grants := tputD_sorted h.grants })
  · exact ite_canon { h with mailbox := tput_sorted _ _ _ h.mailbox } { h with }

theorem mailNext_canon {pane : Nat} {ms : List Mail} (hs : Canonical s) : Canonical (mailNext s pane ms) := by
  induction ms generalizing s with
  | nil => exact { hs with }
  | cons m t ih => exact ite_canon (ih (growReturn_canon hs)) { hs with mailbox := tput_sorted _ _ _ hs.mailbox }

theorem mailboxAnswer_canon {pane : Nat} {page : Option Nat} (hs : Canonical s) : Canonical (mailboxAnswer s pane page) := by
  unfold mailboxAnswer
  split
  · exact hs
  · extract_lets _ s1 s2
    have h1 : Canonical s1 := { hs with mailbox := tdel_sorted _ _ hs.mailbox }
    have h2 : Canonical s2 := by
      unfold s2
      split
      exacts [growReturn_canon (mapPage_canon h1), growReturn_canon h1]
    exact mailNext_canon h2

theorem grantRefill_canon {pane page : Nat} (hs : Canonical s) : Canonical (grantRefill s pane page) :=
  ite_canon { hs with grants := tput_sorted _ _ _ hs.grants } hs

/-! ### Commit -/

theorem pushCopy_canon {c : McastCopy} {pane : Nat} (hs : Canonical s) : Canonical (pushCopy c s pane) := { hs with }

theorem commitStore_canon {t : Task} {va pa rdev : Nat} {fmt : Tag} {tok : Token} {rel : Option Scope} {checked mst now : Bool}
    {tid : Nat} (hs : Canonical s) : Canonical (commitStore s t va pa rdev fmt tok rel checked mst now tid) := by
  have h1 : Canonical (bumpSeq s tid) := bumpSeq_canon hs
  exact ite_canon (performWrite_canon h1) (post_canon (ite_canon (foldl_canon (fun _ _ h => pushCopy_canon h) h1) h1))

theorem commitAtom_canon {t : Task} {m : AtomMsg} {now : Bool} (hs : Canonical s) : Canonical (commitAtom s t m now) := by
  unfold commitAtom
  extract_lets s1 s2
  have h1 : Canonical s1 := bumpSeq_canon hs
  have h2 : Canonical s2 := ite_canon (modTask_canon h1 fun _ h => h) h1
  exact ite_canon (performAtom_canon h2) (post_canon h2)

theorem setRet_canon {x : Inst} {t : Task} {reg : Option Nat} {v : Token} {fl : FlagSet} (hs : Canonical s) :
    Canonical (setRet s x t reg v fl) := post_canon hs

theorem publishIf_canon {b : Bool} {tid scope : Nat} (hs : Canonical s) : Canonical (publishIf b s tid scope) :=
  ite_canon (publish_canon hs) hs

theorem commitLst_canon {t : Task} {tid h off : Nat} {fmt : Tag} {tok : Token} {release : Bool} (hs : Canonical s) :
    Canonical (commitLst s t tid h off fmt tok release) := by
  unfold commitLst
  split
  · exact hs
  · extract_lets s1 a s2 s3
    have h1 : Canonical s1 := publishIf_canon hs
    have ha : Canonical a := setLocBytes_canon (dropHalves_canon h1)
    have h2 : Canonical s2 := ite_canon (setLocField_canon h1) (ite_canon (setLocField_canon ha) ha)
    split
    exacts [ownUnit_canon (setLocField_canon h2), setLocField_canon h2]

theorem commitLamo_canon {t : Task} {x : Inst} {op : AtomOp} {h off : Nat} {fmt : Tag} {v : Token} {release : Bool}
    {reg : Option Nat} (hs : Canonical s) :
    Canonical (commitLamo s t x op h off fmt v release reg) := by
  simp only [commitLamo]
  split
  · exact hs
  · exact ite_canon (setRet_canon (setLocField_canon (setLocField_canon (publishIf_canon (readCheck_canon hs)))))
      (setRet_canon (setLocField_canon (setLocBytes_canon (dropHalves_canon (publishIf_canon (readCheck_canon hs))))))

theorem commitTake_canon {tid : Nat} {l : GLoc} (hs : Canonical s) : Canonical (commitTake s tid l) :=
  setLocField_canon (setLocField_canon (setLocField_canon (dropHalves_canon hs)))

theorem commitFes_canon {l : GLoc} {full : Bool} (hs : Canonical s) : Canonical (commitFes s l full) :=
  ite_canon (setLocField_canon hs) (setLocField_canon (setLocField_canon hs))

theorem commitBinit_canon {tid : Nat} {l : GLoc} {n : Nat} (hs : Canonical s) : Canonical (commitBinit s tid l n) :=
  setLocField_canon (setLocField_canon (setLocField_canon (setLocBytes_canon (dropHalves_canon hs))))

theorem commitBarr_noteLoc_canon {l : GLoc} (hs : Canonical s) : Canonical (commitBarr.noteLoc s l) := by
  simp only [commitBarr.noteLoc]
  split
  exacts [noteChange_canon hs, hs]

theorem commitBarr_canon {s0 : State} {l : GLoc} (hs : Canonical s0) : Canonical (commitBarr s0 l).1 :=
  commitBarr_noteLoc_canon (setLocBytes_canon (readCheck_canon hs))

theorem carryUse_canon {f : Firing} {n : Nat} (hs : Canonical s) : Canonical (carryUse s f n) := ite_canon hs { hs with }

theorem memEffect_canon {s0 : State} {x : Inst} {now : Bool} {r : Request} (hs : Canonical s) :
    Canonical (memEffect s0 x now s r) := by
  simp only [memEffect]
  split
  · exact commitStore_canon (carryUse_canon hs)
  · exact commitAtom_canon (carryUse_canon hs)
  · exact ite_canon (withGm_canon hs (withLine_canon hs.gm)) hs
  · exact modTask_canon hs (fun _ h1 => h1)
  · exact commitLst_canon hs
  · exact commitLamo_canon hs
  · split
    exacts [commitTake_canon hs, hs]
  · split
    exacts [commitFes_canon (publishIf_canon hs), hs]
  · split
    exacts [commitBinit_canon hs, hs]
  · split
    exacts [setRet_canon (commitBarr_canon (publish_canon hs)), hs]
  · exact hs

theorem countLine_canon {s0 : State} {x : Inst} {r : Request} (hs : Canonical s) : Canonical (countLine s0 x s r) := by
  simp only [countLine]
  split
  exacts [lineRequest_canon hs, lineRequest_canon hs, lineRequest_canon hs, hs]

theorem memEffects_canon {s0 : State} {x : Inst} (hs : Canonical s) : Canonical (memEffects s0 s x) :=
  foldl_canon (fun _ _ h1 => memEffect_canon (countLine_canon h1)) hs

theorem commitFree_canon {h : Nat} (hs : Canonical s) : Canonical (commitFree s h) := by
  simp only [commitFree]
  split
  exacts [hs, ite_canon (askRelease_canon (setRec_canon hs)) (setRec_canon hs)]

theorem commitRels_canon {h n : Nat} (hs : Canonical s) : Canonical (commitRels s h n) := by
  simp only [commitRels]
  split
  exacts [hs, ite_canon (setRec_canon hs) (post_canon (setRec_canon hs))]

theorem commitEngine_canon {t : Task} {x : Inst} {r : Request} {selector sub : Nat} {k : CmdKind} {reg : Option Nat}
    (hs : Canonical s) :
    Canonical (commitEngine s t x r selector sub k reg) := setRet_canon (setCtx_canon hs)

theorem slotEffect_canon {s0 : State} {x : Inst} {r : Request} (hs : Canonical s) : Canonical (slotEffect s0 x s r) := by
  simp only [slotEffect]
  split
  · exact commitFree_canon hs
  · exact commitRels_canon hs
  · exact commitEngine_canon hs
  · exact post_canon hs
  · exact post_canon hs
  · exact setRet_canon (newLaunch_canon (publish_canon hs))
  · refine post_canon ?_
    refine withGm_canon hs ?_
    split
    exacts [withLine_canon hs.gm, hs.gm]
  · exact cancelLevel_canon hs
  · exact growCommit_canon hs
  · exact post_canon hs
  · exact perfProf_canon hs
  · exact hs

theorem slotEffects_canon {s0 : State} {x : Inst} (hs : Canonical s) : Canonical (slotEffects s0 s x) :=
  foldl_canon (fun _ _ h1 => slotEffect_canon h1) hs

theorem writeReg_canon {tid r : Nat} {v : Token} (hs : Canonical s) : Canonical (writeReg s tid r v) := by
  unfold writeReg
  extract_lets was old s0 v' s1
  have h0 : Canonical s0 := ite_canon (regCheck_canon hs) hs
  have h1 : Canonical s1 := storeReg_canon (modTask_canon h0 fun _ h => setReg_regs h)
  exact ite_canon (post_canon h1) h1

theorem writeRegs_canon {p : Nat → Bool} {s0 : State} {x : Inst} (hs : Canonical s) : Canonical (writeRegs p s0 s x) := by
  simp only [writeRegs]
  refine foldl_canon (fun _ _ h1 => ?_) hs
  split
  · split
    exacts [ite_canon (writeReg_canon h1) h1, h1]
  · split
    exacts [ite_canon (writeReg_canon h1) h1, h1]

theorem supersede_canon {tid : Nat} {regs : List Nat} (hs : Canonical s) : Canonical (supersede s tid regs) :=
  ite_canon hs { hs with mailbox := tmap_sorted (fun _ => rfl) hs.mailbox }

theorem dropRefs_canon {x : Inst} (hs : Canonical s) : Canonical (dropRefs s x) := post_canon hs

theorem writeLink_canon {s0 : State} {x : Inst} (hs : Canonical s) : Canonical (writeLink s0 s x) := by
  simp only [writeLink]
  split
  exacts [writeReg_canon hs, hs]

theorem rehouse_canon {x : Inst} (hs : Canonical s) : Canonical (rehouse s x) := by
  simp only [rehouse]
  refine foldl_canon (fun _ _ h1 => ?_) hs
  split
  · exact putTok_canon h1
  · split
    exacts [storeSpill_canon (putTok_canon h1), tokenLost_canon { h1 with }]

theorem endInst_canon {x : Inst} (hs : Canonical s) : Canonical (endInst s x) :=
  rehouse_canon (withNetGmWk_canon (withdraw_canon (foldl_canon (fun _ _ h1 => undoBirth_canon h1) hs)) rfl rfl
    fun h => { h with insts := tdel_sorted _ _ h.insts })

theorem leaveLoop_canon {tid : Nat} (hs : Canonical s) : Canonical (leaveLoop s tid) :=
  modTask_canon { foldl_canon (fun _ _ h1 => discardInst_canon h1) hs with } (fun _ h1 => h1)

theorem commitExit_canon {t : Task} {tid : Nat} {v : Token} (hs : Canonical s) : Canonical (commitExit s t tid v) :=
  endTask_canon (post_canon hs)

theorem commitBranch_canon {x : Inst} (hs : Canonical s) : Canonical (commitBranch s x) := by
  simp only [commitBranch]
  split
  · exact modTask_canon hs (fun _ h1 => h1)
  · exact post_canon (ite_canon (leaveLoop_canon hs) hs)
  · exact commitExit_canon (ite_canon (leaveLoop_canon hs) hs)
  · exact hs

theorem trapRecord_canon {t : Task} {f : Flt} {p : Place4} (hs : Canonical s) : Canonical (trapRecord s t f p) :=
  ite_canon { countFaultInfo_canon hs with } (writeRecord_canon hs)

theorem trapStop_canon {s0 : State} {x : Inst} (hs : Canonical s) : Canonical (trapStop s0 s x) := by
  simp only [trapStop]
  split
  exacts [hs, discardAll_canon (faultLaunch_canon (trapRecord_canon (publish_canon hs)))]

theorem cancelOwn_canon {s0 : State} {x : Inst} (hs : Canonical s) : Canonical (cancelOwn s0 s x) :=
  ite_canon (reclaimTask_canon hs) hs

theorem commitNow_canon {x : Inst} (hs : Canonical s) : Canonical (commitNow s x) :=
  wakeReads_canon (cancelOwn_canon (trapStop_canon (settleWaits_canon
    (commitBranch_canon (endInst_canon (flagTask_canon (dropRefs_canon
    (writeLink_canon (writeRegs_canon (slotEffects_canon (memEffects_canon (writeRegs_canon (supersede_canon hs)))))))))))))

theorem blockCommit_canon {tid iter : Nat} (hs : Canonical s) : Canonical (blockCommit s tid iter) := by
  simp only [blockCommit]
  split
  · split
    · exact hs
    · split
      exacts [raise_canon hs, commitNow_canon hs]
  · exact hs

theorem returnValue_canon {m : RetMsg} (hs : Canonical s) : Canonical (returnValue s m) := by
  simp only [returnValue]
  refine wakeReads_canon ?_
  split
  exacts [ite_canon (flagTask_canon hs) (writeReg_canon (flagTask_canon hs)), flagTask_canon hs]

/-! ### Engines -/

theorem modHead_canon {k : Nat} {f : Cmd → Cmd} (hs : Canonical s) : Canonical (modHead s k f) := by
  simp only [modHead]
  split
  exacts [setCtx_canon hs, hs]

theorem finish_canon {k st off : Nat} (hs : Canonical s) : Canonical (finish s k st off) := modHead_canon hs

theorem cmdFlags_canon {c : Cmd} {fl : FlagSet} (hs : Canonical s) : Canonical (cmdFlags s c fl) := by
  simp only [cmdFlags]
  split
  exacts [flagTask_canon hs, hs]

theorem holdEngine_canon {k : Nat} {c : Cmd} {va : Nat} {write : Bool} (hs : Canonical s) :
    Canonical (holdEngine s k c va write) := sendPageFault_canon { hs with }

theorem engLine_canon {k n pa r : Nat} (hs : Canonical s) : Canonical (engLine s k n pa r) :=
  ite_canon hs (modHead_canon (lineRequest_canon hs))

theorem engCopyLine_canon {k n : Nat} {l : GLoc} (hs : Canonical s) : Canonical (engCopyLine s k n l) := by
  simp only [engCopyLine]
  split
  · exact hs
  · split
    · refine engLine_canon ?_
      split
      exacts [engLine_canon hs, hs]
    · split
      exacts [engLine_canon hs, hs]

theorem fetchTouch_canon {k : Nat} {c : Cmd} {side : Side} {off : Nat} (hs : Canonical s) :
    Canonical (fetchTouch s k c side off) := by
  simp only [fetchTouch]
  split
  · split
    exacts [touchAt_canon (engLine_canon hs), hs]
  · split
    exacts [readCheck_canon (engCopyLine_canon hs), hs]

theorem engRead_canon {k : Nat} {c : Cmd} {side : Side} {off at_ : Nat} {f : State → List Byte → Bool → State}
    (hs : Canonical s)
    (hf : ∀ u bs p, Canonical u → Canonical (f u bs p)) : Canonical (engRead s k c side off at_ f) := by
  unfold engRead
  extract_lets s1
  have h1 : Canonical s1 := by
    unfold s1
    split
    exacts [fetchTouch_canon hs, hs]
  split
  exacts [hf _ _ _ h1, hs, holdEngine_canon hs, finish_canon hs]

theorem engReadsFrom_canon {k : Nat} {c : Cmd} {at_ : Nat → Nat} {rs : List (Side × Nat)} {acc : List (Nat × Bool)}
    {f : State → List (Nat × Bool) → State} (hs : Canonical s) (hf : ∀ u gs, Canonical u → Canonical (f u gs)) :
    Canonical (engReadsFrom s k c at_ rs acc f) := by
  induction rs generalizing s acc with
  | nil => exact hf _ _ hs
  | cons r t ih => exact engRead_canon hs fun _ _ _ h1 => ih h1

theorem engReads_canon {k : Nat} {c : Cmd} {at_ : Nat → Nat} {rs : List (Side × Nat)} {f : State → List (Nat × Bool) → State}
    (hs : Canonical s) (hf : ∀ u gs, Canonical u → Canonical (f u gs)) :
    Canonical (engReads s k c at_ rs f) := ite_canon hs (engReadsFrom_canon hs (fun _ _ h1 => hf _ _ h1))

theorem engineStore_canon {g : Gm} {pa : Nat} {bs : List Byte} {poison : Bool} {id : Nat} (hg : GmCanonical g) :
    GmCanonical (engineStore g pa bs poison id) := by
  simp only [engineStore]
  split
  exacts [writeLine_canon hg, writeLine_canon hg]

theorem engineFill_canon {c : Cmd} {pane : Nat} {l : GLoc} {bs : List Byte} {poison : Bool} (hs : Canonical s) :
    Canonical (engineFill s c pane l bs poison) := by
  unfold engineFill
  extract_lets full s1 s2 s3
  have h1 : Canonical s1 := by
    unfold s1
    split
    exacts [publishIf_canon hs, hs]
  have h3 : Canonical s3 := setLocField_canon (setLocField_canon (setLocBytes_canon (dropHalves_canon h1)))
  split
  exacts [publishUnit_canon h3, h3]

theorem engWrite_canon {k : Nat} {c : Cmd} {side : Side} {off at_ : Nat} {bs : List Byte} {poison : Bool} {f : State → State}
    (hs : Canonical s) (hf : ∀ u, Canonical u → Canonical (f u)) : Canonical (engWrite s k c side off at_ bs poison f) := by
  unfold engWrite
  split
  · extract_lets va
    split
    · extract_lets s1 s2
      have h1 : Canonical s1 := engLine_canon (touchAt_canon hs)
      have h2 : Canonical s2 := withGm_canon h1 (engineStore_canon h1.gm)
      exact ite_canon (hf _ h1) (hf _ (ite_canon (publishUnit_canon h2) h2))
    · exact holdEngine_canon hs
    · exact finish_canon hs
  · split
    exacts [finish_canon hs, ite_canon (finish_canon hs) (hf _ (engineFill_canon (engCopyLine_canon hs)))]

theorem engWrites_canon {k : Nat} {c : Cmd} {ws : List (Side × Nat × Nat × Bool)} {f : State → State} (hs : Canonical s)
    (hf : ∀ u, Canonical u → Canonical (f u)) : Canonical (engWrites s k c ws f) := by
  induction ws generalizing s with
  | nil => exact hf _ hs
  | cons w t ih => exact engWrite_canon hs fun _ h1 => ih h1

theorem cpDone_canon {k : Nat} {c : Cmd} {n off : Nat} (hs : Canonical s) : Canonical (cpDone s k c n off) :=
  ite_canon (finish_canon hs) (ite_canon (finish_canon hs) hs)

theorem cpMove_canon {k : Nat} {c : Cmd} {src dst : Side} {n : Nat} (hs : Canonical s) : Canonical (cpMove s k c src dst n) :=
  ite_canon (cpDone_canon hs) (engRead_canon hs (fun _ _ _ h1 => engWrite_canon h1
    (fun _ h2 => cpDone_canon (modHead_canon h2))))

theorem cppMove_canon {k : Nat} {c : Cmd} {src dst groups esz : Nat} (hs : Canonical s) :
    Canonical (cppMove s k c src dst groups esz) := by
  simp only [cppMove]
  split
  · exact ite_canon (finish_canon hs) (engReads_canon hs (fun _ _ h1 => modHead_canon h1))
  · exact engWrite_canon hs (fun _ h1 => ite_canon (finish_canon (modHead_canon h1)) (modHead_canon h1))

theorem engineMove_canon {k : Nat} (hs : Canonical s) : Canonical (engineMove s k) := by
  simp only [engineMove]
  split
  · exact hs
  · split
    · exact hs
    · split
      exacts [cpMove_canon hs, cppMove_canon hs, hs]

theorem start_canon {k : Nat} {f : Cmd → Cmd} (hs : Canonical s) : Canonical (start s k f) := modHead_canon hs

theorem startGather_canon {k : Nat} {c : Cmd} {h : Nat} (hs : Canonical s) : Canonical (startGather s k c h) := by
  simp only [startGather]
  split
  · exact finish_canon (start_canon hs)
  · split
    · exact finish_canon (start_canon hs)
    · refine engReads_canon hs fun _ _ h1 => ?_
      split
      · split
        exacts [ite_canon hs (start_canon h1), finish_canon (start_canon h1)]
      · exact hs

theorem startPset_canon {k : Nat} {c : Cmd} {src : Side} {reg : Nat} (hs : Canonical s) :
    Canonical (startPset s k c src reg) := by
  simp only [startPset]
  refine engReads_canon hs fun _ _ h1 => ?_
  split
  exacts [finish_canon (start_canon h1), finish_canon (start_canon { h1 with })]

theorem startCpp_canon {k reg : Nat} (hs : Canonical s) : Canonical (startCpp s k reg) := by
  simp only [startCpp]
  exact start_canon hs

theorem clearLeaf_canon {key : Nat} (hs : Canonical s) : Canonical (clearLeaf s key) :=
  { hs with leaves := tdel_sorted _ _ hs.leaves }

theorem startWload_canon {k : Nat} {c : Cmd} {w j h : Nat} (hs : Canonical s) : Canonical (startWload s k c w j h) := by
  simp only [startWload]
  split
  exacts [finish_canon (start_canon (clearLeaf_canon hs)), start_canon (clearLeaf_canon hs)]

theorem startWmma_canon {k : Nat} {c : Cmd} {w j a acc : Nat} (hs : Canonical s) : Canonical (startWmma s k c w j a acc) := by
  simp only [startWmma]
  split
  · refine engReads_canon hs fun _ _ h1 => ?_
    split
    · split
      exacts [ite_canon (start_canon h1) (finish_canon (start_canon h1)), finish_canon (start_canon h1)]
    · exact hs
  · exact finish_canon (start_canon hs)

theorem startCvtt_canon {k : Nat} {c : Cmd} {n src dst : Nat} (hs : Canonical s) : Canonical (startCvtt s k c n src dst) := by
  simp only [startCvtt]
  split
  · refine engRead_canon hs fun _ _ _ h1 => ?_
    split
    · exact ite_canon (finish_canon (start_canon h1)) (engWrite_canon (start_canon h1) (fun _ h1 => h1))
    · exact finish_canon (start_canon h1)
  · exact finish_canon (start_canon hs)

theorem cmdStart_canon {k : Nat} (hs : Canonical s) : Canonical (cmdStart s k) := by
  simp only [cmdStart]
  split
  · exact hs
  · split
    · exact hs
    · split
      · exact finish_canon hs
      · split
        · exact ite_canon (finish_canon (start_canon hs)) (start_canon hs)
        · exact startGather_canon hs
        · exact startPset_canon hs
        · exact startCpp_canon hs
        · exact startWload_canon hs
        · exact startWmma_canon hs
        · exact startCvtt_canon hs

theorem rowNext_canon {k : Nat} {g : Gather} {row off : Nat} (hs : Canonical s) : Canonical (rowNext s k g row off) :=
  ite_canon (modHead_canon hs) (ite_canon (modHead_canon hs) (finish_canon (modHead_canon hs)))

theorem gatherIndex_canon {k : Nat} {c : Cmd} {g : Gather} (hs : Canonical s) : Canonical (gatherIndex s k c g) := by
  simp only [gatherIndex]
  exact engRead_canon hs (fun _ _ _ h1 => ite_canon (finish_canon h1) (modHead_canon h1))

theorem gatherMove_canon {k : Nat} {c : Cmd} {scatter : Bool} {g : Gather} {j : Int} (hs : Canonical s) :
    Canonical (gatherMove s k c scatter g j) :=
  ite_canon (rowNext_canon hs) (ite_canon (finish_canon hs)
    (ite_canon (engWrite_canon hs (fun _ h1 => rowNext_canon h1))
    (engRead_canon hs (fun _ _ _ h1 => engWrite_canon h1 (fun _ h2 => rowNext_canon h2)))))

theorem gatherStep_canon {k : Nat} {c : Cmd} {scatter : Bool} {g : Gather} (hs : Canonical s) :
    Canonical (gatherStep s k c scatter g) := by
  simp only [gatherStep]
  split
  exacts [gatherIndex_canon hs, gatherMove_canon hs]

theorem gatherRow_canon {k : Nat} (hs : Canonical s) : Canonical (gatherRow s k) := by
  simp only [gatherRow]
  split
  · exact hs
  · split
    · split
      exacts [gatherStep_canon hs, hs]
    · exact hs

theorem wloadHeader_canon {k : Nat} {c : Cmd} {w j len hdr : Nat} {poison : Bool} (hs : Canonical s) :
    Canonical (wloadHeader s k c w j len hdr poison) := by
  simp only [wloadHeader]
  split
  · exact finish_canon hs
  · exact ite_canon (finish_canon hs) (modHead_canon (foldl_canon (fun _ _ h1 => clearLeaf_canon h1) hs))

theorem wloadStep_canon {k : Nat} {c : Cmd} {w j h : Nat} (hs : Canonical s) : Canonical (wloadStep s k c w j h) := by
  simp only [wloadStep]
  refine engRead_canon hs fun _ _ _ h1 => ?_
  split
  · split
    exacts [wloadHeader_canon h1, finish_canon h1]
  · exact ite_canon (finish_canon h1) (ite_canon (modHead_canon h1)
      (finish_canon { h1 with leaves := tput_sorted _ _ _ h1.leaves }))

theorem wloadRun_canon {k : Nat} (hs : Canonical s) : Canonical (wloadRun s k) := by
  simp only [wloadRun]
  split
  · split
    exacts [wloadStep_canon hs, hs]
  · exact hs

theorem emptyGranules_canon {c : Cmd} {h : Nat} {offs : List Nat} (hs : Canonical s) :
    Canonical (emptyGranules s c h offs) := by
  simp only [emptyGranules]
  refine foldl_canon (fun _ _ h1 => ?_) hs
  split
  exacts [setLocField_canon h1, h1]

theorem wmmaTake_canon {k : Nat} {c : Cmd} {sat : Bool} {a acc : Nat} {leaf : Leaf} (hs : Canonical s) :
    Canonical (wmmaTake s k c sat a acc leaf) := engReads_canon hs (fun _ _ h1 => modHead_canon (emptyGranules_canon h1))

theorem wmmaWrite_canon {k : Nat} {c : Cmd} {acc : Nat} {t : TakenRow} (hs : Canonical s) : Canonical (wmmaWrite s k c acc t) :=
  engWrites_canon hs (fun _ h1 => ite_canon (finish_canon (modHead_canon (cmdFlags_canon h1)))
    (modHead_canon (cmdFlags_canon h1)))

theorem wmmaStep_canon {k : Nat} {c : Cmd} {w j : Nat} {sat : Bool} {a acc : Nat} (hs : Canonical s) :
    Canonical (wmmaStep s k c w j sat a acc) := by
  simp only [wmmaStep]
  split
  · exact ite_canon (finish_canon hs) hs
  · exact wmmaWrite_canon hs
  · split
    · exact wmmaTake_canon hs
    · split
      exacts [wmmaWrite_canon hs, hs]

theorem wmmaRow_canon {k : Nat} (hs : Canonical s) : Canonical (wmmaRow s k) := by
  simp only [wmmaRow]
  split
  · split
    exacts [wmmaStep_canon hs, hs]
  · exact hs

theorem cvttStep_canon {k : Nat} {c : Cmd} {n src dst : Nat} (hs : Canonical s) : Canonical (cvttStep s k c n src dst) :=
  engReads_canon hs (fun _ _ h1 => engWrites_canon h1 (fun _ h2 => ite_canon (modHead_canon (cmdFlags_canon h2))
    (finish_canon (modHead_canon (cmdFlags_canon h2)))))

theorem cvttRowStep_canon {k : Nat} (hs : Canonical s) : Canonical (cvttRowStep s k) := by
  simp only [cvttRowStep]
  split
  · split
    exacts [cvttStep_canon hs, hs]
  · exact hs

theorem replayEnd_canon {c : Cmd} {st : Nat} (hs : Canonical s) : Canonical (replayEnd s c st) :=
  ite_canon (faultGraph_canon (writeRecord_canon hs)) hs

theorem cmdEnd_canon {k : Nat} (hs : Canonical s) : Canonical (cmdEnd s k) := by
  unfold cmdEnd
  extract_lets x
  split
  · exact hs
  · split
    · exact hs
    · refine ite_canon (replayEnd_canon (setCtx_canon hs)) ?_
      extract_lets s1 s2
      have h1 : Canonical s1 := setCtx_canon hs
      exact perfCommand_canon (ite_canon (recordGoOn_canon h1) h1)

/-! ### Bind records and invalidation -/

theorem makeArenas_canon {g : Graph} {pane q : Nat} (hs : Canonical s) : Canonical (makeArenas s g pane q) := { hs with }

theorem moveArena_canon {src dst : Nat} (hs : Canonical s) : Canonical (moveArena src dst s) := by
  simp only [moveArena]
  split
  exacts [hs, { hs with recs := tmap_sorted (fun _ => by split <;> rfl) hs.recs }]

theorem parkArenas_canon {gk pane q : Nat} (hs : Canonical s) : Canonical (parkArenas s gk pane q) :=
  foldl_canon (fun _ _ h1 => moveArena_canon h1) hs

theorem normalArena_canon {k : Nat} (hs : Canonical s) : Canonical (normalArena s k) := by
  simp only [normalArena]
  split
  exacts [setArena_canon hs, hs]

theorem bindArenas_canon {gk : Nat} {g : Graph} {pane q : Nat} (hs : Canonical s) : Canonical (bindArenas s gk g pane q) :=
  ite_canon (foldl_canon (fun _ _ h1 => normalArena_canon (moveArena_canon h1)) hs) (makeArenas_canon hs)

theorem modDeficits_canon {pane q : Nat} {f : Int → Int} (hs : Canonical s) : Canonical (modDeficits s pane q f) :=
  withCells_canon hs

theorem homeRecs_canon {gk pane q : Nat} (hs : Canonical s) : Canonical (homeRecs s gk pane q) :=
  { hs with recs := tmap_sorted (fun _ => by split <;> rfl) hs.recs }

theorem bindPane_canon {pane q gk : Nat} {v : BitVec 64} {g : Graph} (hs : Canonical s) :
    Canonical (bindPane s pane q v gk g) := by
  unfold bindPane
  extract_lets s1 s2 home
  have h1 : Canonical s1 := bindArenas_canon (setSlot_canon hs)
  have h2 : Canonical s2 := homeRecs_canon (resetPtrs_canon (modDeficits_canon h1))
  have hkey (e : Nat × Task) : (home e).1 = e.1 := by
    unfold home
    split <;> rfl
  have hregs (e : Nat × Task) (he : RegsCanonical e.2) : RegsCanonical (home e).2 := by
    unfold home
    split
    exacts [he, he]
  clear_value s2 home
  refine tlbJoin_canon (withdrawUnfit_canon (withWk_canon h2 fun h => ?_))
  exact { h with tasks := tmap_sorted hkey h.tasks, regs := List.forall_mem_map.mpr fun e he => hregs e (h.regs e he) }

theorem raiseShutter_canon {gk : Nat} {c : Cause} (hs : Canonical s) : Canonical (raiseShutter s gk c) := by
  simp only [raiseShutter]
  split
  exacts [hs, ite_canon hs (wakeColour_canon { hs with active := tput_sorted _ _ _ hs.active })]

theorem leaveContext_canon {pane q : Nat} (hs : Canonical s) : Canonical (leaveContext s pane q) :=
  ite_canon hs (resetPtrs_canon (modGraph_canon (ite_canon (parkArenas_canon hs) (dropArenas_canon hs))))

theorem holdBind_canon {h : HeldBind} (hs : Canonical s) : Canonical (holdBind s h) := { hs with }

theorem tryBind_canon {die index : Nat} {v : BitVec 64} {free : Bool} (hs : Canonical s) :
    Canonical (tryBind s die index v free) := by
  simp only [tryBind]
  split
  · exact hs
  · exact ite_canon hs (ite_canon (withdrawUnfit_canon (holdBind_canon hs))
      (attemptPane_canon (bindPane_canon (modGraph_canon (ite_canon (setSlot_canon (leaveContext_canon hs)) hs)))))

theorem changeContext_canon {die index : Nat} {v : BitVec 64} {free : Bool} (hs : Canonical s) :
    Canonical (changeContext s die index v free) :=
  ite_canon (tryBind_canon hs) (attemptPane_canon (setSlot_canon (leaveContext_canon hs)))

theorem bindRecordWrite_canon {die index : Nat} {v : BitVec 64} (hs : Canonical s) :
    Canonical (bindRecordWrite s die index v) :=
  ite_canon hs (ite_canon (modDeficits_canon (setSlot_canon hs))
    (ite_canon (raiseShutter_canon (holdBind_canon hs)) (changeContext_canon hs)))

theorem bindHeldApply_canon {die index : Nat} (hs : Canonical s) : Canonical (bindHeldApply s die index) := by
  simp only [bindHeldApply]
  split
  · exact hs
  · split
    · exact ite_canon hs (changeContext_canon { hs with })
    · split
      exacts [{ hs with }, ite_canon (changeContext_canon { hs with }) hs]

theorem tlbInvalidate_canon {die vi lo hi : Nat} (hs : Canonical s) : Canonical (tlbInvalidate s die vi lo hi) :=
  { hs with tlb := tfilter_sorted (tmap_sorted (fun _ => by split <;> rfl) hs.tlb) }

theorem cleanRange_canon {pa n : Nat} (hs : Canonical s) : Canonical (cleanRange s pa n) := { hs with }

theorem cleanPages_canon {x : Inval} {n va : Nat} (hs : Canonical s) : Canonical (cleanPages x n va s) := by
  induction n generalizing s va with
  | zero => exact hs
  | succ n ih =>
    simp only [cleanPages]
    split
    · exact hs
    · split
      exacts [ih (ite_canon (cleanRange_canon hs) hs), ih hs]

theorem forgetChecked_canon {x : Inval} (hs : Canonical s) : Canonical (forgetChecked x s) := { hs with }

theorem invalidateComplete_canon {id : Nat} (hs : Canonical s) : Canonical (invalidateComplete s id) := by
  simp only [invalidateComplete]
  split
  exacts [hs, ite_canon hs (forgetChecked_canon (cleanPages_canon { hs with }))]

/-! ### The loader -/

theorem placeGraph_canon {gk cls : Nat} {g : Graph} {u : State} (hs : Canonical s) (h : placeGraph s gk g cls = some u) :
    Canonical u := by
  simp only [placeGraph] at h
  split at h
  · cases h
  · split at h
    · cases h
    · cases h
      exact foldl_canon (fun _ _ h1 => bindPane_canon h1) { hs with }

theorem loadGraph_canon {g : Graph} (hs : Canonical s) : Canonical (loadGraph s g).2 := by
  unfold loadGraph
  extract_lets gk put
  have hput (cls : Nat) : Canonical (put cls).2 := by
    unfold put
    split
    exacts [placeGraph_canon hs ‹_›, hs]
  split
  · exact hput _
  · split
    exacts [hput _, hs]

theorem load_canon {vi job n a r : Nat} {u : State} (hs : Canonical s) (h : load s vi job n a = .ok (r, u)) : Canonical u := by
  simp only [load] at h
  split at h
  · cases h
    exact hs
  · split at h
    · cases h
    · cases h
      exact hs
    · obtain ⟨rfl, rfl⟩ := Prod.mk.inj (Img.ok.inj h)
      exact loadGraph_canon (devTouch_canon hs)

/-! ### Inboxes and page faults -/

theorem hostInboxWrite_canon {vi slot : Nat} {v : BitVec 512} (hs : Canonical s) : Canonical (hostInboxWrite s vi slot v) :=
  ite_canon hs (withGm_canon hs (writeLine_canon hs.gm))

theorem ringNext_canon {vi : Nat} (hs : Canonical s) : Canonical (ringNext s vi) := modVi_canon hs

theorem ringDone_canon {vi : Nat} (hs : Canonical s) : Canonical (ringDone s vi) := ringNext_canon (emptySlot_canon hs)

theorem refuseSlot_canon {vi : Nat} (hs : Canonical s) : Canonical (refuseSlot s vi) := ringDone_canon (writeRecord_canon hs)

theorem openJob_canon {vi job : Nat} (hs : Canonical s) : Canonical (openJob s vi job) := by
  simp only [openJob]
  split
  exacts [hs, { hs with jobs := tput_sorted _ _ _ hs.jobs }]

theorem actSlot_canon {vi kind : Nat} {f : State → Nat → Nat → State} (hs : Canonical s)
    (hf : ∀ u job slot, Canonical u → Canonical (f u job slot)) :
    Canonical (actSlot s vi kind f) := by
  simp only [actSlot]
  split
  · exact hs
  · exact ite_canon hs (ite_canon (refuseSlot_canon (withGm_canon hs (withLine_canon hs.gm)))
      (hf _ _ _ (openJob_canon (withGm_canon hs (withLine_canon hs.gm)))))

theorem inboxLoad_canon {vi : Nat} (hs : Canonical s) : Canonical (inboxLoad s vi) := by
  simp only [inboxLoad]
  split
  · exact hs
  · refine ite_canon (refuseSlot_canon hs) (ite_canon hs (actSlot_canon hs fun _ _ _ h1 => ?_))
    split
    exacts [holdDev_canon h1, h1, ringDone_canon (devWrite_canon (load_canon h1 ‹_›))]

theorem inboxSeal_canon {vi : Nat} (hs : Canonical s) : Canonical (inboxSeal s vi) := by
  simp only [inboxSeal]
  refine actSlot_canon hs fun _ _ _ h1 => ?_
  split
  · exact ite_canon h1 (ite_canon (ringDone_canon (modGraph_canon h1)) (refuseSlot_canon h1))
  · exact refuseSlot_canon h1

theorem closePhase_canon {jk : Nat} (hs : Canonical s) : Canonical (closePhase s jk) := modPhase_canon hs

theorem inboxPhase_canon {vi : Nat} (hs : Canonical s) : Canonical (inboxPhase s vi) :=
  actSlot_canon hs (fun _ _ _ h1 => ite_canon (refuseSlot_canon h1)
    (ite_canon h1 (ringDone_canon { modJob_canon (closePhase_canon h1) with })))

theorem inboxLaunch_canon {vi : Nat} (hs : Canonical s) : Canonical (inboxLaunch s vi) :=
  actSlot_canon hs (fun _ _ _ h1 => ite_canon h1 (newLaunch_canon (ringNext_canon h1)))

theorem inboxCancel_canon {vi : Nat} (hs : Canonical s) : Canonical (inboxCancel s vi) :=
  actSlot_canon hs (fun _ _ _ h1 => ringDone_canon (cancelLevel_canon h1))

theorem inboxEnd_canon {vi : Nat} (hs : Canonical s) : Canonical (inboxEnd s vi) :=
  actSlot_canon hs (fun _ _ _ h1 => ringDone_canon (modJob_canon (closePhase_canon (disableTicks_canon h1))))

theorem putEntry_canon {pa : Nat} {e : BitVec 64} (hs : Canonical s) : Canonical (putEntry s pa e) :=
  withGm_canon hs (writeLine_canon hs.gm)

theorem retryDev_canon {d : DevAccess} (hs : Canonical s) : Canonical (retryDev s d) := by
  simp only [retryDev]
  split
  exacts [devWrite_canon hs, readCard_canon hs, hs]

theorem drainArea_canon {vi : Nat} {ds : List DevAccess} (hs : Canonical s) : Canonical (drainArea vi ds s) := by
  induction ds generalizing s with
  | nil => exact hs
  | cons d t ih =>
    cases d with
    | record die v va bs =>
      simp only [drainArea]
      split
      · split
        exacts [sendPageFault_canon hs, ih (devStore_canon { hs with }), ih { hs with }]
      · exact ih hs
    | card launch va => exact ih hs
    | image v va => exact ih hs

theorem refuseImage_canon {vi : Nat} (hs : Canonical s) : Canonical (refuseImage s vi) :=
  actSlot_canon hs (fun _ _ _ h1 => ringDone_canon (devWrite_canon h1))

theorem refuseCardAt_canon {k : Nat} (hs : Canonical s) : Canonical (refuseCardAt s k) := by
  simp only [refuseCardAt]
  split
  · exact hs
  · split
    exacts [refuseLaunch_canon (writeRecord_canon (refusedCard_canon hs)), refuseLaunch_canon hs]

theorem refuseDev_canon {d : DevAccess} (hs : Canonical s) : Canonical (refuseDev s d) := by
  simp only [refuseDev]
  split
  exacts [ite_canon hs (writeRecord_canon hs), refuseCardAt_canon hs, refuseImage_canon hs]

theorem refuseEngine_canon {k va : Nat} (hs : Canonical s) : Canonical (refuseEngine s k va) := by
  simp only [refuseEngine]
  split
  exacts [ite_canon hs (finish_canon (start_canon hs)), hs]

theorem refuseWalk_canon {m : WalkMsg} (hs : Canonical s) : Canonical (refuseWalk s m) := by
  simp only [refuseWalk]
  split
  exacts [refuseEngine_canon hs, refuseHeld_canon hs]

theorem pageFaultAnswer_mapped_canon {vi : Nat} (hs : Canonical s) : Canonical (pageFaultAnswer.mapped vi s) :=
  drainArea_canon hs

theorem pageFaultAnswer_canon {die vi va : Nat} {entry : Option (BitVec 64)} (hs : Canonical s) :
    Canonical (pageFaultAnswer s die vi va entry) := by
  have retried (ms : List WalkMsg) (ds : List DevAccess) {a : State} (ha : Canonical a) :
      Canonical (ds.foldl retryDev (ms.foldl wakeHeld a)) :=
    foldl_canon (fun _ _ h1 => retryDev_canon h1) (foldl_canon (fun _ _ h1 => wakeHeld_canon h1) ha)
  unfold pageFaultAnswer
  split
  · exact pageFaultAnswer_mapped_canon (retried _ _ (putEntry_canon { hs with }))
  · exact pageFaultAnswer_mapped_canon (foldl_canon (fun _ _ h1 => refuseDev_canon h1)
      (foldl_canon (fun _ _ h1 => refuseWalk_canon h1) { hs with }))
  · exact pageFaultAnswer_mapped_canon (retried _ _ { hs with })

/-! ### Ticks and streams -/

theorem setStream_canon {k : Nat} {x : Stream} (hs : Canonical s) : Canonical (setStream s k x) :=
  { hs with streams := tputD_sorted hs.streams }

theorem execSwq_canon {g : GF} (hs : Canonical s) : NextCanonical (execSwq g s) :=
  fireWord_canon hs (fun _ _ h1 => ite_canon (raiseAt_canon h1) (fireSend_canon h1))

theorem ingestByte_canon {vi va : Nat} {b : Byte} {poison : Bool} (hs : Canonical s) :
    Canonical (ingestByte s vi va b poison) := by
  simp only [ingestByte]
  split
  exacts [withGm_canon hs (engineStore_canon (touchAll_canon hs.gm)), hs]

theorem ingestBytes_canon {vi va : Nat} {bs : List (Byte × Bool)} (hs : Canonical s) : Canonical (ingestBytes s vi va bs) := by
  induction bs generalizing s va with
  | nil => exact hs
  | cons b t ih => exact ih (ingestByte_canon hs)

theorem copySlot_canon {vi src dst n : Nat} {u : State} (hs : Canonical s) (h : copySlot s vi src dst n = some u) :
    Canonical u := by
  simp only [copySlot] at h
  split at h
  · cases h
    exact ingestBytes_canon (devTouch_canon hs)
  · cases h

theorem sillHold_canon {vi : Nat} {x : Stream} (hs : Canonical s) : Canonical (sillHold s vi x) := by
  simp only [sillHold]
  refine foldl_canon (fun _ _ h1 => ?_) hs
  split
  exacts [ite_canon (tlbPin_canon (walkTouch_canon h1)) h1, h1]

theorem ingestPacket_canon {p : Packet} (hs : Canonical s) : Canonical (ingestPacket s p) :=
  ite_canon hs (ite_canon (setStream_canon hs) (ite_canon (setStream_canon hs)
    (ite_canon (setStream_canon hs) (ite_canon (ingestBytes_canon (sillHold_canon hs))
    (setStream_canon (ingestBytes_canon (sillHold_canon hs)))))))

theorem setTick_canon {n : Nat} {t : Tick} (hs : Canonical s) : Canonical (setTick s n t) :=
  { hs with ticks := tputD_sorted hs.ticks }

theorem freezeOne_canon {time : Payload} {n k : Nat} {acc : State × List (Nat × Int × Int)} (hs : Canonical acc.1) :
    Canonical (freezeOne time n acc k).1 := by
  simp only [freezeOne]
  split
  exacts [setStream_canon hs, hs]

theorem fireTick_canon {n : Nat} (hs : Canonical s) : Canonical (fireTick s n) := by
  simp only [fireTick]
  refine ite_canon (setTick_canon hs) (setTick_canon ?_)
  exact foldl_keeps_prop (P := fun (a : State × List (Nat × Int × Int)) => Canonical a.1) (fun _ _ h1 => freezeOne_canon h1)
    (setTick_canon hs)

theorem expireSlot_canon {k : Nat} {c i : Int} (hs : Canonical s) : Canonical (expireSlot k c s i) := by
  simp only [expireSlot]
  split
  · refine ite_canon ?_ hs
    split
    exacts [setStream_canon (copySlot_canon hs ‹_›), hs]
  · refine ite_canon (setStream_canon hs) ?_
    split
    exacts [setStream_canon (copySlot_canon hs ‹_›), setStream_canon hs]
  · exact hs

theorem pruneSlots_canon {k : Nat} {hi : Int} (hs : Canonical s) : Canonical (pruneSlots s k hi) := setStream_canon hs

theorem expireStream_canon {f : Nat × Int × Int} (hs : Canonical s) : Canonical (expireStream s f) :=
  pruneSlots_canon (foldl_canon (fun _ _ h1 => expireSlot_canon h1) hs)

theorem tickLaunch_canon {n : Nat} {x : Fired} (hs : Canonical s) : Canonical (tickLaunch s n x) :=
  ite_canon hs (newLaunch_canon hs)

theorem expireHead_canon {n : Nat} (hs : Canonical s) : Canonical (expireHead s n) := by
  unfold expireHead
  extract_lets t _ s0
  split
  · exact hs
  · extract_lets s1 behind _
    have h1 : Canonical s1 := foldl_canon (fun _ _ h => expireStream_canon h) (setTick_canon { hs with })
    exact ite_canon h1 (ite_canon (setTick_canon h1) (tickLaunch_canon h1))

theorem tickLoop_canon {n fuel : Nat} (hs : Canonical s) : Canonical (tickLoop n fuel s) := by
  induction fuel generalizing s with
  | zero => exact hs
  | succ fuel ih =>
    have fired : Canonical (if tickDue s (tickAt s n) then tickLoop n fuel (fireTick s n) else s) :=
      ite_canon (ih (fireTick_canon hs)) hs
    simp only [tickLoop]
    split
    exacts [ite_canon (ih (expireHead_canon hs)) fired, fired]

theorem tick_canon {n : Nat} (hs : Canonical s) : Canonical (tick s n) := ite_canon hs (tickLoop_canon hs)

theorem graceExpiry_canon {n : Nat} (hs : Canonical s) : Canonical (graceExpiry s n) := by
  simp only [graceExpiry]
  split
  exacts [ite_canon (expireHead_canon hs) hs, hs]

theorem deferredLaunch_canon {n : Nat} (hs : Canonical s) : Canonical (deferredLaunch s n) := by
  simp only [deferredLaunch]
  split
  exacts [hs, ite_canon hs (tickLaunch_canon (setTick_canon hs))]

theorem tickInstall_canon {m : TickMsg} (hs : Canonical s) : Canonical (tickInstall s m) :=
  ite_canon (post_canon hs) (post_canon (setTick_canon hs))

theorem tickReg_canon {n i : Nat} {v : Payload} (hs : Canonical s) : Canonical (tickReg s n i v) := by
  simp only [tickReg]
  split
  · exact setTick_canon hs
  · exact setTick_canon hs
  · exact setTick_canon hs
  · exact setTick_canon hs
  · exact setTick_canon hs
  · exact setTick_canon hs
  · exact hs

theorem tickSetWrite_canon {w : TickSet} (hs : Canonical s) : Canonical (tickSetWrite s w) := by
  simp only [tickSetWrite]
  split
  exacts [tickInstall_canon hs, ite_canon (tickReg_canon hs) hs]

theorem streamSetWrite_canon {w : SysW} (hs : Canonical s) : Canonical (streamSetWrite s w) :=
  ite_canon (setStream_canon (ite_canon (sillHold_canon hs) hs))
    (ite_canon hs (ite_canon (setStream_canon hs) (ite_canon (setStream_canon hs) (ite_canon (setStream_canon hs) hs))))

/-! ### System registers -/

theorem clearOnRead_canon {pane c : Nat} (hs : Canonical s) : Canonical (clearOnRead s pane c) :=
  ite_canon (perfSet_canon hs) hs

theorem execSysrd_canon {i : IF} (hs : Canonical s) : NextCanonical (execSysrd i s) :=
  onLane_canon hs (fun _ _ h1 => ite_canon (raiseAt_canon h1)
    (fireGate_canon h1 (fun _ h2 => ite_canon (raiseAt_canon h2) (fireSend_canon (ite_canon (clearOnRead_canon h2) h2)))))

theorem ovpWrite_canon {w : SysW} (hs : Canonical s) : Canonical (ovpWrite s w) :=
  ite_canon { hs with ovp := tputD_sorted hs.ovp } hs

theorem dropGrants_canon {old new : Nat} (hs : Canonical s) : Canonical (dropGrants old new s) :=
  foldl_canon (fun _ _ h1 => ite_canon (setTick_canon h1) h1) hs

theorem viCtlWrite_canon {w : SysW} (hs : Canonical s) : Canonical (viCtlWrite s w) :=
  ite_canon (dropGrants_canon { hs with viCtl := tputD_sorted hs.viCtl }) hs

theorem setBad_canon {die y : Nat} {v : BitVec 64} (hs : Canonical s) : Canonical (setBad s die y v) :=
  foldl_canon (fun _ _ h1 => ite_canon (logEntry_canon h1) h1)
    { hs with badnode := tputD_sorted hs.badnode, flashBad := tputD_sorted hs.flashBad }

theorem badnodeWrite_canon {w : SysW} (hs : Canonical s) : Canonical (badnodeWrite s w) := ite_canon (setBad_canon hs) hs

theorem triggerWrite_canon {w : SysW} (hs : Canonical s) : Canonical (triggerWrite s w) :=
  ite_canon { hs with trigger := tputD_sorted hs.trigger } { hs with trigger := tputD_sorted hs.trigger }

theorem sysregWrite_canon {w : SysW} (hs : Canonical s) : Canonical (sysregWrite s w) :=
  ite_canon { hs with streamSel := tputD_sorted hs.streamSel }
    (ite_canon { hs with perfSel := tputD_sorted hs.perfSel } (ite_canon (perfSet_canon hs) hs))

theorem latchPropagate_canon {die : Nat} (hs : Canonical s) : Canonical (latchPropagate s die) :=
  ite_canon { hs with trigger := tputD_sorted hs.trigger } hs

theorem withCorr_canon {c : Table Nat} (hs : Canonical s) : Canonical { s with ls := { s.ls with corr := c } } := { hs with }

theorem scrubRow_canon {pane : Nat} (hs : Canonical s) : Canonical (scrubRow s pane) := by
  unfold scrubRow
  extract_lets row _ s0 s1
  have h0 : Canonical s0 := ite_canon (withCorr_canon hs) hs
  have h1 : Canonical s1 := foldl_canon (fun _ _ h1 => decodeWord_canon h1) h0
  clear_value s1
  exact { h1 with scrub := tputD_sorted h1.scrub }

theorem eccWriteback_canon {pane row : Nat} (hs : Canonical s) : Canonical (eccWriteback s pane row) := by
  simp only [eccWriteback]
  refine ite_canon { hs with upset := foldl_keeps_prop (P := fun u => tsorted none u = true) (fun _ _ h1 => ?_) hs.upset } hs
  split
  exacts [tdel_sorted _ _ h1, h1]

/-! ### Shutters, resume, parity -/

theorem markerArrive_canon {gk cell : Nat} (hs : Canonical s) : Canonical (markerArrive s gk cell) := by
  simp only [markerArrive]
  split
  exacts [ite_canon { hs with active := tput_sorted _ _ _ hs.active } hs, hs]

theorem saveTok_canon {e : TokEntry} (hs : Canonical s) : Canonical (saveTok s e) := by
  simp only [saveTok]
  split
  · split
    exacts [storeSpill_canon (putTok_canon hs), hs]
  · exact hs

theorem cutTask_canon {tid : Nat} (hs : Canonical s) : Canonical (cutTask s tid) :=
  discardAll_canon (foldl_canon (fun _ _ h1 => saveTok_canon h1) hs)

theorem cutComplete_canon {gk : Nat} (hs : Canonical s) : Canonical (cutComplete s gk) := by
  unfold cutComplete
  split
  · refine ite_canon hs ?_
    extract_lets s1 _
    have h1 : Canonical s1 := foldl_canon (fun _ _ h => cutTask_canon h) hs
    exact { h1 with active := tput_sorted _ _ _ h1.active }
  · exact hs

theorem savePut_canon {vi va : Nat} {b : Byte} (hs : Canonical s) : Canonical (savePut s vi va b) := by
  simp only [savePut]
  split
  exacts [ite_canon (withGm_canon hs (writeLine_canon hs.gm)) hs, hs]

theorem savePuts_canon {vi va : Nat} {bs : List Byte} (hs : Canonical s) : Canonical (savePuts s vi va bs) := by
  induction bs generalizing s va with
  | nil => exact hs
  | cons b t ih => exact ih (savePut_canon hs)

theorem endLaunch_canon {key : Nat} (hs : Canonical s) : Canonical (endLaunch s key) :=
  foldl_canon (fun _ _ h1 => reclaimTask_canon h1) (modLaunch_canon (withdrawHand_canon hs))

theorem endGraph_canon {gk : Nat} (hs : Canonical s) : Canonical (endGraph s gk) := by
  unfold endGraph
  extract_lets s1 s2
  have h2 : Canonical s2 := foldl_canon (fun _ _ h => endLaunch_canon h) (modGraph_canon hs)
  exact { h2 with active := tdel_sorted _ _ h2.active, saved := tdel_sorted _ _ h2.saved }

theorem freeContexts_canon {gk : Nat} (hs : Canonical s) : Canonical (freeContexts s gk) :=
  foldl_canon (fun _ _ h1 => unbind_canon h1) (releaseArenas_canon hs)

theorem restoreToks_canon {gk : Nat} (hs : Canonical s) : Canonical (restoreToks s gk) :=
  foldl_canon (fun _ _ h1 => restoreTok_canon h1) hs

theorem activateAll_canon {ms : List Instr} (hs : Canonical s) : Canonical (activateAll s ms) := by
  simp only [activateAll]
  refine foldl_canon (fun _ _ h1 => ?_) hs
  split
  exacts [blockActivate_canon h1, h1]

theorem takeEntries_canon {tids : List Nat} (hs : Canonical s) : Canonical (takeEntries s tids) :=
  foldl_canon (fun _ _ h1 => modTask_canon h1 (fun _ h2 => h2)) hs

theorem resumeTasks_canon {gk : Nat} (hs : Canonical s) : Canonical (resumeTasks s gk) :=
  wakeColour_canon (activateAll_canon (takeEntries_canon (restoreToks_canon hs)))

theorem residualRead_canon {g : Graph} {i w : Nat} (hs : Canonical s) : Canonical (residualRead g i s w) :=
  ite_canon (setCtx_canon hs) hs

theorem readPages_canon {gk : Nat} {g : Graph} (hs : Canonical s) : Canonical (readPages s gk g) :=
  foldl_canon (fun _ _ h1 => devTouch_canon h1) hs

theorem unsavedStop_canon {e : TokEntry} (hs : Canonical s) : Canonical (unsavedStop s e) := by
  simp only [unsavedStop]
  split
  exacts [ite_canon (stopTask_canon hs) hs, hs]

theorem resumePages_canon {gk : Nat} {g : Graph} (hs : Canonical s) : Canonical (resumePages s gk g) :=
  wakeColour_canon (activateAll_canon (takeEntries_canon (readPages_canon
    (restoreToks_canon (foldl_canon (fun _ _ h1 => unsavedStop_canon h1) hs)))))

theorem replayLoad_canon {gk : Nat} {l : Nat × Nat × Nat} (hs : Canonical s) : Canonical (replayLoad gk s l) := setCtx_canon hs

theorem freshIssue_canon {i : Nat} (hs : Canonical s) : Canonical (freshIssue s i) := resetPtrs_canon (modDeficits_canon hs)

theorem replaceFails_canon {gk : Nat} {g : Graph} (hs : Canonical s) : Canonical (replaceFails s gk g) :=
  endGraph_canon (faultGraph_canon (writeRecord_canon hs))

theorem resumeArm_canon {gk : Nat} {g : Graph} {v : Saved} (hs : Canonical s) : Canonical (resumeArm s gk g v) :=
  foldl_canon (fun _ _ h1 => foldl_canon (fun _ _ h2 => replayLoad_canon h2)
    (foldl_canon (fun _ _ h2 => residualRead_canon h2) (freshIssue_canon h1)))
    (readPages_canon { hs with saved := tput_sorted _ _ _ hs.saved })

theorem contextResume_canon {gk : Nat} (hs : Canonical s) : Canonical (contextResume s gk) := by
  simp only [contextResume]
  split
  · split
    · exact ite_canon hs (resumePages_canon { hs with saved := tdel_sorted _ _ hs.saved })
    · split
      · exact hs
      · split
        exacts [replaceFails_canon hs, resumeArm_canon hs]
  · exact hs

theorem saveFails_canon {gk : Nat} {g : Graph} {c : Cause} (hs : Canonical s) : Canonical (saveFails s gk g c) := by
  unfold saveFails
  extract_lets pane s1 mine _ _ s2
  have h1 : Canonical s1 := faultGraph_canon (writeRecord_canon hs)
  have h2 : Canonical s2 := { h1 with active := tdel_sorted _ _ h1.active }
  split
  exacts [freeContexts_canon (endGraph_canon h2), resumeTasks_canon (foldl_canon (fun _ _ h => freshIssue_canon h) h2)]

theorem savePages_canon {gk : Nat} (hs : Canonical s) : Canonical (savePages s gk) := by
  unfold savePages
  split
  · refine ite_canon hs (ite_canon (saveFails_canon hs) ?_)
    extract_lets one s1 v
    have h1 : Canonical s1 := foldl_canon (fun _ _ h => savePuts_canon (devTouch_canon h)) hs
    exact { h1 with active := tdel_sorted _ _ h1.active, saved := tput_sorted _ _ _ h1.saved }
  · exact hs

theorem fwResume_canon {tid : Nat} (hs : Canonical s) : Canonical (fwResume s tid) := by
  simp only [fwResume]
  split
  exacts [hs, ite_canon hs (ite_canon (modTask_canon hs (fun _ h1 => h1)) (resumeTask_canon hs))]

theorem execFwTaskReclaim_canon {tid : Nat} (hs : Canonical s) : NextCanonical (execFwTaskReclaim tid s) := by
  simp only [execFwTaskReclaim]
  refine next_canon ?_
  split
  exacts [ite_canon (reclaimTask_canon hs) hs, hs]

theorem retireCell_canon {cell : Nat} (hs : Canonical s) : Canonical (retireCell s cell) :=
  foldl_canon (fun _ _ h1 => raiseShutter_canon h1) (setBad_canon hs)

theorem retryInst_canon {t : Task} {x : Inst} (hs : Canonical s) : Canonical (retryInst s t x) :=
  repost_canon (discardInst_canon hs)

theorem poisonToken_canon {e : TokEntry} (hs : Canonical s) : Canonical (poisonToken s e) := { hs with }

theorem parityError_canon {f : Firing} {port : Port} (hs : Canonical s) : Canonical (parityError s f port) := by
  unfold parityError
  split
  · extract_lets cell n p _
    split
    extract_lets adr s1 s2
    have h1 : Canonical s1 := faultLaunch_canon (writeRecord_canon { hs with })
    have h2 : Canonical s2 := by
      unfold s2
      split
      · exact poisonToken_canon h1
      · split
        exacts [ite_canon (retryInst_canon h1) h1, h1]
    exact ite_canon (retireCell_canon h2) h2
  · exact hs

/-! ### Remote transactions -/

theorem reply_canon {r : Reply} (hs : Canonical s) : Canonical (reply s r) := { hs with }

theorem remoteRead_canon {r : RemoteRead} (hs : Canonical s) : Canonical (remoteRead s r) :=
  ite_canon (reply_canon (withGm_canon hs (withLine_canon hs.gm))) hs

theorem remoteStore_canon {g : Gm} {w : RemoteWrite} (hg : GmCanonical g) : GmCanonical (remoteStore g w) := by
  simp only [remoteStore]
  split
  exacts [writeLine_canon hg, writeLine_canon hg, writeLine_canon hg, writeLine_canon hg]

theorem remoteWrite_canon {w : RemoteWrite} (hs : Canonical s) : Canonical (remoteWrite s w) :=
  ite_canon (withGm_canon hs (remoteStore_canon hs.gm)) hs

theorem remoteAmo_canon {r : RemoteAmo} (hs : Canonical s) : Canonical (remoteAmo s r) := by
  unfold remoteAmo
  extract_lets w s1 old new writes s2
  have h1 : Canonical s1 := withGm_canon hs (withLine_canon hs.gm)
  clear_value s1
  have stored (bs : List Byte) (p : Bool) : Canonical { s1 with gm := storeAt s1.gm r.pa bs p } :=
    withGm_canon h1 (storeAt_canon h1.gm)
  exact ite_canon (ite_canon (reply_canon (stored _ _)) (reply_canon (ite_canon (stored _ _) h1))) hs

theorem remoteMst_canon {w : RemoteWrite} {graph : Nat} (hs : Canonical s) : Canonical (remoteMst s w graph) :=
  ite_canon (post_canon (ite_canon hs (foldl_canon (fun _ _ h1 => pushCopy_canon h1) hs))) hs

theorem giveUnit_canon {launch : Nat} (hs : Canonical s) : Canonical (giveUnit s launch) := modLaunch_canon hs

theorem refuseSpawn_canon {r : RemoteSpawn} (hs : Canonical s) : Canonical (refuseSpawn s r) := reply_canon (giveUnit_canon hs)

theorem setRemote_canon {x : Remote} (hs : Canonical s) : Canonical (setRemote s x) := { hs with }

theorem remoteSpawn_canon {r : RemoteSpawn} (hs : Canonical s) : Canonical (remoteSpawn s r) :=
  ite_canon { hs with } (refuseSpawn_canon hs)

theorem remotePane_canon {x : Remote} {l : Launch} (hs : Canonical s) : Canonical (remotePane s x l) := by
  simp only [remotePane]
  split
  exacts [hs, ite_canon (remoteDrop_canon hs) (setRemote_canon hs)]

theorem remoteAsk_canon {x : Remote} {l : Launch} {p : Nat} (hs : Canonical s) : Canonical (remoteAsk s x l p) := by
  simp only [remoteAsk]
  split
  · exact post_canon (setRemote_canon (putFut_canon (leaveLine_canon (takeColour_canon hs ‹_›))))
  · exact ite_canon (joinLine_canon (ite_canon (joinLine_canon hs) hs)) (ite_canon (joinLine_canon hs) hs)

theorem remoteStart_canon {x : Remote} {l : Launch} {p col fut carve : Nat} (hs : Canonical s) :
    Canonical (remoteStart s x l p col fut carve) := by
  simp only [remoteStart]
  refine reply_canon (post_canon (startTask_canon (giveUnit_canon { hs with }) ?_))
  have none_sorted : tsorted none ([] : Table Token) = true := rfl
  exact tputD_sorted (tput_sorted _ _ _ (tputD_sorted none_sorted))

theorem remoteGo_canon {num : Nat} (hs : Canonical s) : Canonical (remoteGo s num) := by
  simp only [remoteGo]
  split
  · exact hs
  · split
    · exact remoteDrop_canon hs
    · split
      · exact hs
      · split
        exacts [remotePane_canon hs, remoteStart_canon hs, hs, remoteAsk_canon hs]

theorem remoteCount_canon {c : RemoteCount} (hs : Canonical s) : Canonical (remoteCount s c) := by
  simp only [remoteCount]
  split
  exacts [refChange_canon hs, ite_canon (giveUnit_canon hs) (ite_canon (repost_canon hs) (modLaunch_canon hs))]

theorem viConfigure_canon {c : ViConf} (hs : Canonical s) : Canonical (viConfigure s c) :=
  ite_canon hs (dropGrants_canon (foldl_canon (fun _ _ h1 => clearSlot_canon h1) { hs with viCtl := tputD_sorted hs.viCtl }))

theorem viUnconfigure_canon {vi : Nat} (hs : Canonical s) : Canonical (viUnconfigure s vi) := by
  refine ite_canon hs ?_
  extract_lets jobs s1 s2
  have h2 : Canonical s2 := foldl_canon (fun _ _ h => cancelLevel_canon h) (modVi_canon hs)
  exact ite_canon (stopVi_canon h2) h2

/-! ### Reset, boot, power -/

theorem bootEntry_canon {step outcome : Nat} {at_ : Nat × Nat} (hs : Canonical s) : Canonical (bootEntry step outcome s at_) :=
  { hs with }

theorem bootWipe_canon (hs : Canonical s) : Canonical (bootWipe s) := by
  have hf : tsorted none (if s.bt.move.isSome then [] else s.bt.flashBad) = true := by
    split
    exacts [rfl, hs.flashBad]
  exact { State.reset_canon with flashBad := hf }

theorem bootEntries_canon {n o : Nat} {l : List (Nat × Nat)} (hs : Canonical s) : Canonical (l.foldl (bootEntry n o) s) :=
  foldl_canon (fun _ _ h1 => bootEntry_canon h1) hs

theorem bootAlternate_canon {n : Nat} {outs : List BootOut} {before : List LogEntry} (hs : Canonical s) :
    Canonical (bootAlternate n s outs before).1 := by
  have h1 (l : List (Nat × Nat)) : Canonical (if before.isEmpty then l.foldl (bootEntry n 1) s else s) :=
    ite_canon (bootEntries_canon hs) hs
  simp only [bootAlternate, apply_ite Prod.fst]
  exact ite_canon (bootEntry_canon hs) (ite_canon (bootEntries_canon (h1 _)) (bootEntries_canon (h1 _)))

theorem bootRequired_canon {n : Nat} {outs : List BootOut} (hs : Canonical s) : Canonical (bootRequired n s outs).1 := by
  simp only [bootRequired]
  split
  exacts [bootEntry_canon hs, bootEntries_canon hs]

theorem bootPorts_canon {outs : List BootOut} {before : List LogEntry} (hs : Canonical s) :
    Canonical (bootPorts s outs before) := by
  unfold bootPorts
  extract_lets skipped fails s1 s2
  have h1 : Canonical s1 := bootEntries_canon (bootEntries_canon hs)
  have h2 : Canonical s2 := ite_canon (bootEntry_canon h1) h1
  clear_value s2
  exact { h2 with }

theorem bootPtp_canon {outs : List BootOut} {before : List LogEntry} (hs : Canonical s) : Canonical (bootPtp s outs before) :=
  ite_canon (bootEntry_canon hs) (ite_canon (bootEntry_canon hs) (bootEntry_canon { hs with }))

theorem bootGuards_canon {outs : List BootOut} (hs : Canonical s) : Canonical (bootGuards s outs) :=
  foldl_canon (fun _ _ h1 => bootEntry_canon h1) { hs with }

theorem bootBad_canon (hs : Canonical s) : Canonical (bootBad s) := by
  simp only [bootBad]
  refine foldl_canon (fun _ _ h1 => foldl_canon (fun _ _ h2 => setBad_canon h2) h1) (bootEntries_canon ?_)
  exact { hs with badnode := hs.flashBad }

theorem bootStep_canon {outs : List BootOut} {prev : List LogEntry} {run : State × Bool} {n : Nat} (hs : Canonical run.1) :
    Canonical (bootStep outs prev run n).1 := by
  simp only [bootStep]
  split
  · exact hs
  · split
    · exact bootAlternate_canon hs
    · exact bootAlternate_canon hs
    · exact bootAlternate_canon hs
    · split
      exacts [bootGuards_canon (bootAlternate_canon hs), bootAlternate_canon hs]
    · split
      exacts [bootBad_canon (bootRequired_canon hs), bootRequired_canon hs]
    · exact bootPorts_canon hs
    · exact bootPtp_canon hs
    · exact { bootRequired_canon (n := 11) hs with }
    · exact bootRequired_canon hs

theorem reset_canon {outs : List BootOut} (hs : Canonical s) : Canonical (reset outs s) :=
  foldl_keeps_prop (P := fun (a : State × Bool) => Canonical a.1) (fun _ _ h1 => bootStep_canon h1) (bootWipe_canon hs)

theorem setThrottle_canon {die n : Nat} (hs : Canonical s) : Canonical (setThrottle s die n) :=
  { hs with throttle := tputD_sorted hs.throttle }

theorem throttle_canon {die : Nat} (hs : Canonical s) : Canonical (throttle s die) := setThrottle_canon hs

/-! ### Value words -/

theorem execSel_canon {t0 t1 : Tgt} {ta : TA} (hs : Canonical s) : NextCanonical (execSel t0 t1 ta s) :=
  onLane_canon hs (fun _ _ h1 => finishValue_canon h1)

/-! ### Every instruction and event -/

theorem exec_canon {i : Instr} (hs : Canonical s) : NextCanonical (exec i s) := by
  unfold exec
  cases i with
  | read => exact execRead_canon hs
  | write => exact execWrite_canon hs
  | mov | movi | nul | retag | abs | neg | addi | muli | teqi | tlti | not | andi | ori | xori
    | shli | shri | sari | clz | popc | sqrt | rcp | rsqrt | exp2 | log2 | tanh | cvt | cvtz
    | fclass => exact value1_canon hs
  | sel => exact execSel_canon hs
  | pld => exact execPld_canon hs
  | tagof | self => exact valueWord_canon hs
  | br => exact execBr_canon hs
  | brr => exact execBrr_canon hs
  | exit => exact execExit_canon hs
  | trap => exact execTrap_canon hs
  | bkpt => exact execBkpt_canon hs
  | fence => exact execFence_canon hs
  | add | sub | mul | mulh | div | rem | min | max | tst | and | or | xor | shl | shr | sar | ldexp => exact value2_canon hs
  | fma | bfx => exact value3_canon hs
  | red => exact execRed_canon hs
  | ld => exact execLd_canon hs
  | st | mst => exact storeReq_canon hs
  | aadd | amin | amax | aand | aor | axor | aswp | acas => exact atomReq_canon hs
  | pref => exact execPref_canon hs
  | lld => exact execLld_canon hs
  | lst => exact execLst_canon hs
  | lamo => exact execLamo_canon hs
  | few => exact execFew_canon hs
  | fes => exact execFes_canon hs
  | binit => exact execBinit_canon hs
  | barr => exact execBarr_canon hs
  | lsz => exact execLsz_canon hs
  | alloc => exact execAlloc_canon hs
  | free => exact execFree_canon hs
  | rels => exact execRels_canon hs
  | cp => exact execCp_canon hs
  | cpg | cps => exact gatherReq_canon hs
  | pset => exact execPset_canon hs
  | cpp => exact execCpp_canon hs
  | twait => exact execTwait_canon hs
  | tread => exact execTread_canon hs
  | wload => exact execWload_canon hs
  | wmma => exact execWmma_canon hs
  | cvtt => exact execCvtt_canon hs
  | spawn => exact execSpawn_canon hs
  | ref | drop => exact refReq_canon hs
  | await => exact execAwait_canon hs
  | launch => exact execLaunch_canon hs
  | waitc => exact execWaitc_canon hs
  | cancel => exact execCancel_canon hs
  | tnow => exact execTnow_canon hs
  | tickw => exact execTickw_canon hs
  | swq => exact execSwq_canon hs
  | kvgrow => exact execKvgrow_canon hs
  | sysrd => exact execSysrd_canon hs
  | syswr => exact execSyswr_canon hs
  | prof => exact execProf_canon hs
  | blockActivate => exact next_canon (blockActivate_canon hs)
  | tokenArrive => exact next_canon (tokenArrive_canon hs)
  | cellIssue => exact next_canon (cellIssue_canon hs)
  | readyPromote => exact next_canon (readyPromote_canon hs)
  | blockCommit => exact next_canon (blockCommit_canon hs)
  | returnValueArrive => exact next_canon (returnValue_canon hs)
  | dealChunk => exact next_canon (dealChunk_canon hs)
  | refChangeArrive => exact next_canon (refChange_canon hs)
  | futureExitArrive => exact next_canon (futureExit_canon hs)
  | colourDrainDone => exact next_canon (colourDrain_canon hs)
  | allocRequestArrive => exact next_canon (allocArrive_canon hs)
  | quietSpill => exact next_canon (quietSpill_canon hs)
  | spillComplete => exact next_canon (spillComplete_canon hs)
  | allocationRelease => exact next_canon (allocationRelease_canon hs)
  | engineCmdStart => exact next_canon (cmdStart_canon hs)
  | gatherRow => exact next_canon (gatherRow_canon hs)
  | wloadRun => exact next_canon (wloadRun_canon hs)
  | wmmaRow => exact next_canon (wmmaRow_canon hs)
  | cvttRow => exact next_canon (cvttRowStep_canon hs)
  | engineCmdEnd => exact next_canon (cmdEnd_canon hs)
  | granuleWake | awaitWake | twaitWake | waitcWake => exact next_canon (ite_canon (wake_canon hs) hs)
  | launchComplete => exact next_canon (launchComplete_canon hs)
  | levelComplete => exact next_canon (levelComplete_canon hs)
  | phaseBegin => exact next_canon (phaseBegin_canon hs)
  | hostInboxWrite => exact next_canon (hostInboxWrite_canon hs)
  | inboxLoad => exact next_canon (inboxLoad_canon hs)
  | inboxSeal => exact next_canon (inboxSeal_canon hs)
  | inboxPhase => exact next_canon (inboxPhase_canon hs)
  | inboxLaunch => exact next_canon (inboxLaunch_canon hs)
  | inboxCancel => exact next_canon (inboxCancel_canon hs)
  | inboxEnd => exact next_canon (inboxEnd_canon hs)
  | shutterRaise => exact next_canon (raiseShutter_canon hs)
  | shutterMarkerArrive => exact next_canon (markerArrive_canon hs)
  | cutComplete => exact next_canon (cutComplete_canon hs)
  | savePagesWrite => exact next_canon (savePages_canon hs)
  | contextResume => exact next_canon (contextResume_canon hs)
  | fwTaskResume => exact next_canon (fwResume_canon hs)
  | fwTaskReclaim => exact execFwTaskReclaim_canon hs
  | parityError => exact next_canon (parityError_canon hs)
  | pageFaultAnswer => exact next_canon (pageFaultAnswer_canon hs)
  | pageWalk => exact next_canon (pageWalk_canon hs)
  | tlbInvalidate => exact next_canon (tlbInvalidate_canon hs)
  | invalidateComplete => exact next_canon (invalidateComplete_canon hs)
  | bindRecordWrite => exact next_canon (bindRecordWrite_canon hs)
  | bindHeldApply => exact next_canon (bindHeldApply_canon hs)
  | homeLineFill => exact next_canon (withGm_canon hs (fillLine_canon hs.gm))
  | globalWritePerform => exact next_canon (globalWrite_canon hs)
  | homeRead => exact next_canon (homeRead_canon hs)
  | atomicPerform => exact next_canon (atomicPerform_canon hs)
  | scrubRow => exact next_canon (scrubRow_canon hs)
  | eccWriteback => exact next_canon (eccWriteback_canon hs)
  | ptpMessage | lifecycleMove => exact next_canon (ite_canon { hs with } hs)
  | tick => exact next_canon (tick_canon hs)
  | graceExpiry => exact next_canon (graceExpiry_canon hs)
  | tickDeferredLaunch => exact next_canon (deferredLaunch_canon hs)
  | ingestPacket => exact next_canon (ingestPacket_canon hs)
  | tickSetWrite => exact next_canon (tickSetWrite_canon hs)
  | streamSetWrite => exact next_canon (streamSetWrite_canon hs)
  | viCtlWrite => exact next_canon (viCtlWrite_canon hs)
  | badnodeWrite => exact next_canon (badnodeWrite_canon hs)
  | perfCntClearRead => exact next_canon (ite_canon (clearOnRead_canon hs) hs)
  | triggerWrite => exact next_canon (triggerWrite_canon hs)
  | ovpWrite => exact next_canon (ovpWrite_canon hs)
  | sysregWrite => exact next_canon (sysregWrite_canon hs)
  | latchPropagate => exact next_canon (latchPropagate_canon hs)
  | mailboxAnswer => exact next_canon (mailboxAnswer_canon hs)
  | grantCacheRefill => exact next_canon (grantRefill_canon hs)
  | remoteMemoryRead => exact next_canon (remoteRead_canon hs)
  | remoteMemoryWrite => exact next_canon (remoteWrite_canon hs)
  | remoteAmo => exact next_canon (remoteAmo_canon hs)
  | remoteMst => exact next_canon (remoteMst_canon hs)
  | remoteSpawn => exact next_canon (remoteSpawn_canon hs)
  | remoteCount => exact next_canon (remoteCount_canon hs)
  | viConfigure => exact next_canon (viConfigure_canon hs)
  | viUnconfigure => exact next_canon (viUnconfigure_canon hs)
  | reset => exact next_canon (reset_canon hs)
  | startLogRead | attestationRequest => exact next_canon (reply_canon hs)
  | powerThrottle | thermalThrottle => exact next_canon (throttle_canon hs)
  | clockRestore => exact next_canon (setThrottle_canon hs)
  | thermalStop | ptpMasterLoss => exact next_canon { hs with }

/-! ### What comes next -/

theorem dropInput_canon (hs : Canonical s) : Canonical (dropInput s) := { hs with }

theorem passCycle_canon (hs : Canonical s) : Canonical (passCycle s) :=
  foldl_canon (fun _ _ h1 => perfPane_canon h1) { hs with }

theorem countChoice_canon (hs : Canonical s) : Canonical (countChoice s) := { hs with }

theorem actStep_canon {a : Act} (hs : Canonical s) : Canonical (actStep s a).2 := by
  unfold actStep
  split
  · exact dropInput_canon hs
  · exact { hs with }
  · exact hs
  · exact engineMove_canon hs
  · exact wake_canon hs
  · exact attemptDue_canon hs
  · exact remoteGo_canon hs
  · dsimp only
    exact passCycle_canon hs

theorem nextAct_canon (hs : Canonical s) : Canonical (nextAct s).2 := by
  have acted (a : Act) : Canonical (actStep (countChoice s) a).2 := actStep_canon (countChoice_canon hs)
  unfold nextAct
  split
  · split
    exacts [acted _, dropInput_canon hs]
  · exact acted _

theorem illegalLane_canon (hs : Canonical s) : Canonical (illegalLane s) := by
  simp only [illegalLane]
  split
  · exact hs
  · split
    exacts [ite_canon (raiseAt_canon (popLane_canon hs)) (popLane_canon hs), popLane_canon hs]

/-! ### One step -/

theorem stoppedStep_canon (hs : Canonical s) : NextCanonical (stoppedStep s) := by
  unfold stoppedStep
  split
  · rintro t ⟨⟩
  · split
    exacts [exec_canon (dropInput_canon hs), next_canon (dropInput_canon hs)]

theorem step_canon (hs : Canonical s) : NextCanonical (step s) := by
  have acted : Canonical (nextAct s).2 := nextAct_canon hs
  unfold step
  split
  · split
    · split
      exacts [exec_canon hs, next_canon (illegalLane_canon hs)]
    · split
      · next h =>
        rw [h] at acted
        exact exec_canon acted
      · next h =>
        rw [h] at acted
        exact next_canon acted
  · exact stoppedStep_canon hs

end Sys2Proof.Machine

/-- Settles O59: the lists are empty, so none of them has two values. -/
theorem resetCanonical : Obligations.ResetCanonical := Sys2Proof.Machine.State.reset_canon

/-- Settles O60: the step function is made of functions that each keep the form. -/
theorem stepKeepsCanonical : Obligations.StepKeepsCanonical := fun _ t hs h => Sys2Proof.Machine.step_canon hs t h

namespace Sys2Proof.Machine

/-! ### What a memory reads after a write (R7, R150) -/

@[simp] theorem bytesAt_length (m : List Host.Cell) (a n : Nat) : (bytesAt m a n).length = n := by
  induction n generalizing a with
  | zero => rfl
  | succ n ih => simp [bytesAt, ih]

theorem bytesAt_getElem (m : List Host.Cell) (a n k : Nat) (h : k < (bytesAt m a n).length) :
    (bytesAt m a n)[k] = byteAt m (a + k) := by
  induction n generalizing a k with
  | zero => simp at h
  | succ n ih =>
    cases k with
    | zero => rfl
    | succ k => simp [bytesAt, ih, Nat.add_assoc, Nat.add_comm 1 k]

theorem bytesAt_setBytes_same (m : List Host.Cell) (a : Nat) (bs : List Byte) (h : Memory.wf m = true) :
    bytesAt (setBytes m a bs) a bs.length = bs :=
  List.ext_getElem (bytesAt_length _ _ _) fun k _ hk => by
    rw [bytesAt_getElem, byteAt_setBytes_inside bs m a k h hk]

theorem byteAt_setByte (m : List Host.Cell) (a b : Nat) (v : Byte) (h : Memory.wf m = true) :
    byteAt (setByte m a v) b = if b = a then v else byteAt m b := by
  split
  · next hb => rw [hb, byteAt_setByte_same m a v h]
  · next hb => exact byteAt_setByte_other m a b v hb h

/-! ### Numbers and the bytes that hold them (R7) -/

theorem natOfBytes_bytesOf (n v : Nat) : natOfBytes (bytesOf n v) = v % 256 ^ n := by
  induction n generalizing v with
  | zero => simp [bytesOf, natOfBytes, Nat.mod_one]
  | succ n ih => simp [bytesOf, natOfBytes, ih, pow_succ', Nat.mod_mul]

/-- The access width of an integer format holds its bits and no more. -/
theorem accessWidth_of_isInt {fmt : Tag} (h : fmt.isInt = true) : 8 * accessWidth fmt = tagBits fmt := by
  revert h
  cases fmt <;> decide

/-- A load takes back the used bits that a store of the same integer format wrote. -/
theorem loadTok_storeBytes {fmt : Tag} (h : fmt.isInt = true) (t : Token) :
    loadTok fmt (storeBytes fmt t) = mkTok fmt (t.val.toNat % 2 ^ tagBits fmt) := by
  have hw : 256 ^ accessWidth fmt = 2 ^ tagBits fmt := by simp [← accessWidth_of_isInt h, pow_mul]
  rw [loadTok, storeBytes, natOfBytes_bytesOf, hw, Nat.mod_mod]

/-- An integer token's value depends on its tag and used bits only. -/
theorem tokInt_eq_of_tokBits {t u : Token} (ht : t.tag = u.tag) (h : tokBits t = tokBits u) : tokInt t = tokInt u := by
  unfold tokInt
  rw [ht, h]
  unfold tokBits at h
  rw [← toSigned_mod _ t.val.toNat, ← toSigned_mod _ u.val.toNat, ← h, ht]

end Sys2Proof.Machine

open Sys2Proof.Machine in
/-- Settles O45: bytes by the lemmas of the map, words because a number's bytes, lowest first, give it back. -/
theorem memoryReads : Obligations.MemoryReads := by
  refine ⟨byteAt_setByte, fun m a bs h => ?_, fun fmt t hf ht => ⟨rfl, tokInt_eq_of_tokBits ht.symm ?_⟩⟩
  · exact ⟨bytesAt_setBytes_same m a bs h, setBytes_wf bs m a h, fun b hb => byteAt_setBytes_outside bs m a b h hb⟩
  · rw [loadTok_storeBytes hf, tokBits_mkTok, Nat.mod_mod, tokBits, ht]

namespace Sys2Proof.Machine

variable {s : State} {f : Firing} {i : Instr}

/-! ### One step (R12, R13, R28, R102) -/

/-- The first word of the lanes is its slot's word, decoded. -/
theorem laneInstr_cons {rest : List Firing} {w : Word} (hi : s.wk.issue = f :: rest) (hw : wordAt s f.tid f.block f.slot = some w) :
    laneInstr s = (decode w).toOption := by
  simp only [laneInstr, hi, instrAt, hw]
  cases decode w <;> rfl

/-- While words lie on the lanes, a step runs the first, or stops its task where it is no instruction. -/
theorem step_of_issue {rest : List Firing} (hr : runs s = true) (hi : s.wk.issue = f :: rest) :
    step s = match laneInstr s with | some i => exec i s | none => .next (illegalLane s) := by
  simp only [step, hr, if_true, hi] <;> rfl

/-- With empty lanes, and no input to drop, a step takes the chosen act. -/
theorem step_of_empty (hr : runs s = true) (hi : s.wk.issue = []) (hin : ∀ x t, s.inp = x :: t → taken s x = true) :
    step s = match actStep (countChoice s) (chosen s) with | (some i, u) => exec i u | (none, u) => .next u := by
  have hn : nextAct s = actStep (countChoice s) (chosen s) := by
    unfold nextAct
    split
    · next x t h => rw [if_pos (hin x t h)]
    · rfl
  simp only [step, hr, if_true, hi, hn] <;> rfl

/-! ### Value words (R13, R65, R103 to R105) -/

/-- Every value word but READ, SEL and RED ends by the value rule, with the result that its operands give. -/
theorem exec_of_valueOf {v : VOut} (hl : OnLane s f i) (hv : valueOf s f i = some v) :
    exec i s = .next (valueEnd s f i v) := by
  cases i with
  | mov =>
    cases hv
    exact value1_on hl .both
  | movi | nul | retag | abs | neg | addi | muli | teqi | tlti | not | andi | ori | xori | shli | shri | sari | clz | popc
  | sqrt | rcp | rsqrt | exp2 | log2 | tanh | cvt | cvtz | fclass =>
    cases hv
    exact value1_on hl _
  | add | sub | mul | mulh | div | rem | min | max | tst | and | or | xor | shl | shr | sar | ldexp =>
    cases hv
    exact value2_on hl _
  | fma | bfx =>
    cases hv
    exact value3_on hl _
  | tagof =>
    cases hv
    rw [exec_tagof, execTagof, valueWord_on hl]
    rfl
  | self =>
    cases hv
    rw [exec_self, execSelf, valueWord_on hl]
    rfl
  | _ => cases hv

/-- A value word carries no POISON on as data. -/
theorem carriesPoison_of_valueOf {v : VOut} (hv : valueOf s f i = some v) : carriesPoison i = [] := by
  cases i with
  | exit | write | st | mst | aadd | amin | amax | aand | aor | axor | aswp | acas | lst | lamo => cases hv
  | _ => rfl

end Sys2Proof.Machine

open Sys2Proof.Machine in
/-- Settles O4: the first word of the lanes is its slot's word, decoded. -/
theorem stepRunsWord : Obligations.StepRunsWord := by
  intro s f rest w i hr hi hw
  refine ⟨fun hd => ?_, fun e x hd hx hb => ?_⟩
  · rw [step_of_issue hr hi, laneInstr_cons hi hw, hd]
    rfl
  · rw [step_of_issue hr hi, laneInstr_cons hi hw, hd]
    simp only [Except.toOption, illegalLane, hi, hx, if_pos hb]

open Sys2Proof.Machine in
/-- Settles O5: with no input to drop, a step takes the chosen act with the counter of the choices gone on. -/
theorem stepTakesChoice : Obligations.StepTakesChoice := by
  intro s hr hi hin c
  have h := step_of_empty hr hi hin
  refine ⟨?input, ?message, ?event, ?move, ?retry, ?attempt, ?remote, ?pass⟩
  case pass =>
    intro hc
    rw [h, hc]
    rfl
  all_goals
    intro x hc
    rw [h, hc]
    rfl

open Sys2Proof.Machine in
/-- Settles O8: the value rule lets the word's result through. -/
theorem valueWordSends : Obligations.ValueWordSends := by
  intro s f i a b fl h hv
  rw [exec_of_valueOf h.lane hv, valueEnd_go h (carriesPoison_of_valueOf hv), finishValue_send]

namespace Sys2Proof.Machine

variable {s : State} {f : Firing} {i : Instr}

/-! ### The gate where POISON does not decide, and where a word is nulled (R65, R90, R104, R144, R170)

`portUse` says how each port of a word with an effect meets POISON, so that one lemma of the gate serves every word. -/

/-- How a data port of a word that is no value word meets POISON. -/
def portUse (i : Instr) (q : Port) : PortUse :=
  if (carriesPoison i).contains q then .data
  else if (steerPorts i).contains q then .steer
  else if (countPorts i).contains q then .count
  else match i with
    | .syswr _ _ | .prof _ _ => .quiet
    | _ => .pass

/-- The data ports of a word, with their uses and tokens. -/
def portUses (i : Instr) (s : State) (f : Firing) : List (PortUse × Token) :=
  (Instr.dataPorts i).map fun q => (portUse i q, portD s f q)

/-- Every store-class word passes the gate of its ports, and is nulled by `nullSlot`. -/
theorem exec_store (h : Instr.cls i = .store) (s : State) : ∃ k, exec i s = storeWord s i (portUses i) k := by
  cases i with
  | trap _ pm | bkpt _ pm =>
    unfold exec
    cases pm <;> exact ⟨_, rfl⟩
  | st | mst =>
    simp only [exec_st, execSt, exec_mst, execMst, storeReq]
    exact ⟨_, rfl⟩
  | aadd | amin | amax | aand | aor | axor | aswp | acas =>
    simp only [exec_aadd, execAadd, exec_amin, execAmin, exec_amax, execAmax, exec_aand, execAand, exec_aor, execAor, exec_axor,
      execAxor, exec_aswp, execAswp, exec_acas, execAcas, atomReq]
    exact ⟨_, rfl⟩
  | cpg | cps =>
    simp only [exec_cpg, execCpg, exec_cps, execCps, gatherReq]
    exact ⟨_, rfl⟩
  | ref | drop =>
    simp only [exec_ref, execRef, exec_drop, execDrop, refReq]
    exact ⟨_, rfl⟩
  | fence | pref | lst | lamo | fes | binit | barr | free | rels | cp | pset | cpp | wload | wmma | cvtt | launch | cancel
  | tickw | kvgrow | syswr | prof =>
    unfold exec
    exact ⟨_, rfl⟩
  | _ => cases h

/-- A fire word on its lane: its gate decides. -/
theorem fireWord_on (h : OnLane s f i) (uses : State → Firing → List (PortUse × Token)) (k : Firing → State → State) :
    fireWord s i uses k = .next (fireGate (popLane s) f i (uses (popLane s) f) (k f)) := onLane_fires h _

/-- Every fire-class word passes the gate of its ports; SYSRD does so in a maintenance graph. -/
theorem exec_fire (h : Instr.cls i = .fire) (hl : OnLane s f i) (hm : ∀ j, i = .sysrd j → taskMaint s (taskD s f.tid) = true) :
    ∃ k, exec i s = .next (fireGate (popLane s) f i (portUses i s f) k) := by
  cases i with
  | sysrd j =>
    have h : taskMaint (popLane s) (taskD s f.tid) = true := hm j rfl
    rw [exec_sysrd, execSysrd, onLane_fires hl]
    simp only [taskD_popLane, h, Bool.not_true, Bool.false_eq_true, if_false]
    exact ⟨_, rfl⟩
  | pld | ld | lld | few | lsz | alloc | twait | tread | spawn | await | waitc | tnow | swq =>
    unfold exec
    exact ⟨_, fireWord_on hl _ _⟩
  | _ => cases h

theorem ports_eq (h : Instr.cls i ≠ .value) :
    Instr.ports i = if Instr.predicate i = .always then Instr.dataPorts i else Instr.dataPorts i ++ [.p] := by
  cases i with
  | sel => exact absurd rfl h
  | _ => rfl

/-- The tokens that the gate looks at are those of the ports that the word reads. -/
theorem gateTokens_eq (h : Instr.cls i ≠ .value) :
    (portUses i s f).map Prod.snd ++ (predTokOf s f (Instr.predicate i)).toList = (Instr.ports i).map (portD s f) := by
  rw [ports_eq h]
  cases Instr.predicate i <;> simp [portUses, predTokOf]

theorem anyTag_ports (g : Tag) : anyTag g ((Instr.ports i).map (portD s f)) = true ↔ ∃ q ∈ Instr.ports i, (portD s f q).tag = g := by
  simp [anyTag]

theorem anyTag_append (g : Tag) (a b : List Token) : anyTag g (a ++ b) = (anyTag g a || anyTag g b) := List.any_append

/-- POISON that stands on data ports alone lets the word proceed. -/
theorem poisonGate_data {us : List PortUse} (h : ∀ u ∈ us, u = .data) : poisonGate us = none := by
  have no : ∀ y : PortUse, y ≠ .data → us.contains y = false := by
    intro y hy
    rw [Bool.eq_false_iff]
    intro hc
    exact hy (h y (List.contains_iff_mem.mp hc))
  simp only [poisonGate, no .steer nofun, no .count nofun, no .quiet nofun, no .pass nofun, Bool.false_eq_true, if_false]

theorem gate_null {pm : Pm} {p : Option Token} {us : List (PortUse × Token)} (hp : anyTag .poison p.toList = false)
    (hu : ∀ u ∈ us, u.2.tag = .poison → u.1 = .data) (hn : anyTag .null (us.map Prod.snd ++ p.toList) = true ∨ predMatch pm p = some false) :
    gate pm p us = .null := by
  have hd : poisonGate ((us.filter fun u => u.2.tag = .poison).map Prod.fst) = none := by
    refine poisonGate_data fun x hx => ?_
    obtain ⟨u, hu', rfl⟩ := List.mem_map.mp hx
    obtain ⟨hm, ht⟩ := List.mem_filter.mp hu'
    exact hu u hm (by simpa using ht)
  unfold gate
  simp only [hp, Bool.false_eq_true, if_false, hd]
  rcases hn with hn | hn
  · simp [hn]
  · simp [hn]

theorem predTag_of_mismatches (h : Mismatches s f i) (g : Tag) (hg : g ≠ .pred) :
    anyTag g (predTokOf s f (Instr.predicate i)).toList = false := by
  unfold Mismatches at h
  cases hp : Instr.predicate i <;> simp only [hp] at h <;> simp [predTokOf, anyTag, h, hg.symm]

theorem predMatch_of_mismatches (h : Mismatches s f i) :
    predMatch (Instr.predicate i) (predTokOf s f (Instr.predicate i)) = some false := by
  unfold Mismatches at h
  cases hp : Instr.predicate i <;> simp only [hp] at h <;> simp [predTokOf, predMatch, h]

/-- POISON on a data port that carries it on is data. -/
theorem portUse_of_carries {q : Port} (h : q ∈ carriesPoison i) : portUse i q = .data := by
  unfold portUse
  exact if_pos (List.contains_iff_mem.mpr h)

theorem portUses_of_clean (h : Clean s f i) : ∀ u ∈ portUses i s f, u.2.tag ≠ .null ∧ (u.2.tag = .poison → u.1 = .data) := by
  intro u hu
  obtain ⟨q, hq, rfl⟩ := List.mem_map.mp hu
  exact ⟨(h q hq).1, fun hp => portUse_of_carries ((h q hq).2 hp)⟩

/-- The gate lets a word through that fires. -/
theorem gate_of_fires (h : Fires s f i) : gate (Instr.predicate i) (predTokOf s f (Instr.predicate i)) (portUses i s f) = .go :=
  gate_go (predTag_of_matches h.matched) (predMatch_of_matches h.matched) (portUses_of_clean h.clean)

/-- Without POISON on a port that the word reads, there is none among the tokens of the gate. -/
theorem gateTokens_unpoisoned (hc : Instr.cls i ≠ .value) (h : ¬ MeetsPoison s f i) :
    anyTag .poison ((portUses i s f).map Prod.snd) = false ∧ anyTag .poison (predTokOf s f (Instr.predicate i)).toList = false := by
  rw [← Bool.or_eq_false_iff, ← anyTag_append, gateTokens_eq hc, Bool.eq_false_iff]
  exact fun hp => h ((anyTag_ports _).mp hp)

/-- P carries no POISON where a word is nulled. -/
theorem predTag_of_nulls (hc : Instr.cls i ≠ .value) (h : MeetsNull s f i ∨ (Clean s f i ∧ Mismatches s f i)) :
    anyTag .poison (predTokOf s f (Instr.predicate i)).toList = false := by
  rcases h with ⟨hp, -⟩ | ⟨-, hm⟩
  · exact (gateTokens_unpoisoned hc hp).2
  · exact predTag_of_mismatches hm _ nofun

/-- A word that meets NULL and no POISON, or whose operands are there and whose predicate does not match, is nulled. -/
theorem gate_nulls (hc : Instr.cls i ≠ .value) (h : MeetsNull s f i ∨ (Clean s f i ∧ Mismatches s f i)) :
    gate (Instr.predicate i) (predTokOf s f (Instr.predicate i)) (portUses i s f) = .null := by
  refine gate_null (predTag_of_nulls hc h) ?_ ?_
  · intro u hu ht
    rcases h with ⟨hp, -⟩ | ⟨hcl, -⟩
    · have none := (gateTokens_unpoisoned hc hp).1
      simp only [anyTag, List.any_map, List.any_eq_false, Function.comp, decide_eq_true_eq] at none
      exact absurd ht (none u hu)
    · exact (portUses_of_clean hcl u hu).2 ht
  · refine h.imp (fun ⟨_, hn⟩ => ?_) fun ⟨_, hm⟩ => predMatch_of_mismatches hm
    rw [gateTokens_eq hc]
    exact (anyTag_ports _).mpr hn

/-- POISON on a port of a word all of whose ports have one use that does not steer or count. -/
theorem gate_poison {u : PortUse} {g : Gate} (hc : Instr.cls i ≠ .value) (hd : Instr.dataPorts i = [.l]) (hu : portUse i .l = u)
    (hg : poisonGate [u] = some g) (h : MeetsPoison s f i) :
    gate (Instr.predicate i) (predTokOf s f (Instr.predicate i)) (portUses i s f) = g := by
  have us : portUses i s f = [(u, portD s f .l)] := by simp [portUses, hd, hu]
  rw [us]
  by_cases hp : anyTag .poison (predTokOf s f (Instr.predicate i)).toList = true
  · simp [gate, hp, hg]
  · have hl : (portD s f .l).tag = .poison := by
      have := (anyTag_ports .poison).mpr h
      rw [← gateTokens_eq hc, us, anyTag_append, Bool.or_eq_true, or_iff_left hp] at this
      simpa [anyTag] using this
    simp [gate, hp, hl, hg]

/-! ### A nulled word (R14, R24) -/

theorem storeWord_null {uses : State → Firing → List (PortUse × Token)} {k : Firing → State → State} (hl : OnLane s f i)
    (hg : gate (Instr.predicate i) (predTokOf s f (Instr.predicate i)) (uses (popLane s) f) = .null) :
    storeWord s i uses k = .next (nullSlot (popLane s) f) := by
  unfold storeWord effectWord
  rw [onLane_fires hl]
  simp [hg]

theorem fireGate_null {us : List (PortUse × Token)} {k : State → State}
    (hg : gate (Instr.predicate i) (predTokOf s f (Instr.predicate i)) us = .null) :
    fireGate (popLane s) f i us k = sent s f i nullTok nullTok 0 := by
  simp [fireGate, hg]
  rfl

theorem fireGate_poison {us : List (PortUse × Token)} {k : State → State}
    (hg : gate (Instr.predicate i) (predTokOf s f (Instr.predicate i)) us = .poison) :
    fireGate (popLane s) f i us k = sent s f i poisonTok poisonTok 0 := by
  simp [fireGate, hg]
  rfl

/-- READs that wait look again: only the lanes and the waits change. -/
@[simp] theorem instAt_wakeReads (s : State) (t tid iter : Nat) : instAt (wakeReads s t) tid iter = instAt s tid iter := rfl

/-- A change of the word's own instance and the READs that follow it keep the frame of a word. -/
theorem wordFrame_wakeReads_modInst (s : State) (f : Firing) (g : Inst → Inst) :
    WordFrame s (wakeReads (modInst (popLane s) f.tid f.iter g) f.tid) f where
  tasks := rfl
  lane := ⟨_, rfl⟩
  others := fun _ _ h => tget_tmod_other _ _ _ _ h
  recs := rfl
  graphs := rfl
  engines := rfl
  jobs := rfl
  times := rfl
  ticks := rfl
  firmware := rfl

/-- A state with the memory and the granules of another. -/
theorem MemFrame.of_eq {t : State} (hg : t.gm = s.gm) (hl : t.ls = s.ls) : MemFrame s t := by
  constructor <;> intro <;> simp only [hg, hl]

/-- What a nulled word leaves: its slot fired and nulled, and nothing else of its frame. -/
theorem nullSlot_ends (s : State) (f : Firing) :
    WordFrame s (nullSlot (popLane s) f) f ∧ MemFrame s (nullSlot (popLane s) f) ∧ (nullSlot (popLane s) f).net = s.net ∧
      instAt (nullSlot (popLane s) f) f.tid f.iter = (instAt s f.tid f.iter).map (nulledInst f) :=
  ⟨wordFrame_wakeReads_modInst s f _, .of_eq rfl rfl, rfl, tget_tmod_same _ _ _⟩

end Sys2Proof.Machine

open Sys2Proof.Machine in
/-- Settles O21: the gate nulls a store-class word, and has a fire-class word send NULL or POISON. -/
theorem effectWordsNulled : Obligations.EffectWordsNulled := by
  constructor
  · intro s f i hl hc nulls
    have hv : Instr.cls i ≠ .value := by simp [hc]
    obtain ⟨k, hk⟩ := exec_store hc s
    have null (hg : gate (Instr.predicate i) (predTokOf s f (Instr.predicate i)) (portUses i s f) = .null) : nulls :=
      ⟨_, hk.trans (storeWord_null hl hg), nullSlot_ends s f⟩
    refine ⟨fun h => null (gate_nulls hv h), ?_⟩
    rintro ⟨imm, pm, rfl | rfl⟩ hp
    · exact null (gate_poison hv rfl rfl rfl hp)
    · exact null (gate_poison hv rfl rfl rfl hp)
  · intro s f i hl hc hm
    have hv : Instr.cls i ≠ .value := by simp [hc]
    obtain ⟨k, hk⟩ := exec_fire hc hl hm
    refine ⟨fun h => by rw [hk, fireGate_null (gate_nulls hv h)], fun h hp => ?_⟩
    rw [hk, fireGate_poison]
    rcases h with ⟨j, rfl | rfl⟩ | ⟨g, rfl⟩
    · exact gate_poison hv rfl rfl rfl hp
    · exact gate_poison hv rfl rfl rfl hp
    · exact gate_poison hv rfl rfl rfl hp

namespace Sys2Proof.Machine

variable {s : State} {f : Firing} {i : Instr}

/-! ### Reads of granules (R220, R225) -/

/-- A correction changes local store's bookkeeping and the start log alone. -/
theorem countCorrection_keeps {β : Type} (p : State → β) (h : ∀ s l b, p { s with ls := l, bt := b } = p s) (s : State)
    (pane bank : Nat) : p (countCorrection s pane bank) = p s := by
  dsimp only [countCorrection, markBank, logEntry]
  split
  · split <;> exact h s _ _
  · exact h s _ s.bt

theorem decodeWord_keeps {β : Type} (p : State → β) (h : ∀ s l b, p { s with ls := l, bt := b } = p s) (s : State) (cw : Nat) :
    p (decodeWord s cw) = p s := by
  dsimp only [decodeWord]
  split
  · rfl
  · split
    · exact (h _ _ _).trans (foldl_keeps p (fun a x => countCorrection_keeps p h a _ _) _ s)
    · exact h s _ s.bt

/-- A correction changes no byte of local store. -/
@[simp] theorem countCorrection_bytes (s : State) (pane bank : Nat) : (countCorrection s pane bank).ls.bytes = s.ls.bytes := by
  dsimp only [countCorrection, markBank, logEntry]
  split
  · split <;> rfl
  · rfl

@[simp] theorem decodeWord_bytes (s : State) (cw : Nat) : (decodeWord s cw).ls.bytes = s.ls.bytes := by
  dsimp only [decodeWord]
  split
  · rfl
  · split
    · exact foldl_keeps (fun a => a.ls.bytes) (fun a x => countCorrection_bytes a _ _) _ s
    · rfl

theorem touchAt_keeps {β : Type} (p : State → β) (h : ∀ s g, p { s with gm := g } = p s) (s : State) (vi va : Nat) :
    p (touchAt vi s va) = p s := by
  have note (a : State) (t : TlbEntry) : p (noteChecked a t) = p a := by
    dsimp only [noteChecked]
    split
    · rfl
    · exact h _ _
  dsimp only [touchAt]
  split
  · rw [note]
    split <;> exact h _ _
  · exact h _ _

/-- A read of a granule, decoding or bringing lines in, leaves every view that is not of the memories or the start log. -/
theorem readCheck_keeps {β : Type} (p : State → β) (h : ∀ s g l b, p { s with gm := g, ls := l, bt := b } = p s) (s : State)
    (l : GLoc) : p (readCheck s l) = p s := by
  cases l with
  | here g => exact decodeWord_keeps p (fun s l b => h s s.gm l b) s _
  | copy vi d st =>
    have t (a : State) (va : Nat) : p (touchAt vi a va) = p a := touchAt_keeps p (fun s g => h s g s.ls s.bt) a vi va
    exact (t _ _).trans (t _ _)

@[simp] theorem readCheck_bytes (s : State) (l : GLoc) : (readCheck s l).ls.bytes = s.ls.bytes := by
  cases l with
  | here g => exact decodeWord_bytes s _
  | copy vi d st =>
    have t (a : State) (va : Nat) : (touchAt vi a va).ls = a.ls := touchAt_keeps State.ls (fun _ _ => rfl) a vi va
    show (touchAt vi (touchAt vi s d) st).ls.bytes = s.ls.bytes
    rw [t, t]

/-- A local granule whose code word is sound is read as it is. -/
theorem readCheck_here (h : s.ls.upset = []) (g : Nat) : readCheck s (.here g) = s := by
  show decodeWord s (g / 2) = s
  unfold decodeWord
  rw [h]
  rfl

theorem regCheck_keeps {β : Type} (p : State → β) (h : ∀ s g l b, p { s with gm := g, ls := l, bt := b } = p s) (s : State)
    (tid r : Nat) : p (regCheck s tid r) = p s := foldl_keeps p (readCheck_keeps p h) _ s

@[simp] theorem regCheck_bytes (s : State) (tid r : Nat) : (regCheck s tid r).ls.bytes = s.ls.bytes :=
  foldl_keeps (fun a => a.ls.bytes) readCheck_bytes _ s

theorem regCheck_gm {tid r : Nat} (h : ∀ g ∈ regGranules s tid r, ∃ n, g = .here n) : (regCheck s tid r).gm = s.gm := by
  refine List.foldlRecOn (motive := fun (a : State) => a.gm = s.gm) _ _ rfl fun a ha l hl => ?_
  obtain ⟨n, rfl⟩ := h l hl
  exact (decodeWord_keeps State.gm (fun _ _ _ => rfl) a _).trans ha

theorem regCheck_sound {tid r : Nat} (hu : s.ls.upset = []) (h : ∀ g ∈ regGranules s tid r, ∃ n, g = .here n) :
    regCheck s tid r = s := by
  refine List.foldlRecOn (motive := fun a => a = s) _ _ rfl fun a ha l hl => ?_
  obtain ⟨n, rfl⟩ := h l hl
  rw [ha, readCheck_here hu]

/-! ### READ (R18, R24, R25, R108) -/

/-- The token that a READ sends for the value it finds (logs 12, 103). -/
def readSends (s : State) (f : Firing) (r : Nat) (v : Token) : Token :=
  if readsCommitted s f r then regRead s f.tid r v else v

/-- The state in which a READ has looked at the granules of its register. -/
def readLooks (s : State) (f : Firing) (r : Nat) : State := if readsCommitted s f r then regCheck s f.tid r else s

theorem readThrough_popLane (s : State) (t : Task) (tid r : Nat) (xs : List Inst) :
    readThrough (popLane s) t tid r xs = readThrough s t tid r xs := by
  induction xs with
  | nil => rfl
  | cons x xs ih =>
    have hx : leftBy (popLane s) x r = leftBy s x r := rfl
    simp only [readThrough, hx, ih]

@[simp] theorem readValue_popLane (s : State) (f : Firing) (r : Nat) : readValue (popLane s) f r = readValue s f r := by
  simp only [readValue, readThrough_popLane]
  rfl

theorem execRead_value {t0 t1 : Tgt} {reg : BitVec 6} {v : Token} (h : OnLane s f (.read t0 t1 reg))
    (hv : readValue s f reg.toNat = .value v) :
    exec (.read t0 t1 reg) s = .next (post (markFired (readLooks (popLane s) f reg.toNat) f 0)
      (tokMsg f f.iter (readsCommitted s f reg.toNat) (readSends s f reg.toNat v) t0 ++
        tokMsg f f.iter (readsCommitted s f reg.toNat) (readSends s f reg.toNat v) t1)) := by
  rw [exec_read, execRead, onLane_fires h]
  simp only [readValue_popLane, hv]
  rfl

theorem execRead_wait {t0 t1 : Tgt} {reg : BitVec 6} (h : OnLane s f (.read t0 t1 reg)) (hv : readValue s f reg.toNat = .wait) :
    exec (.read t0 t1 reg) s = .next (waits s f .reg) := by
  rw [exec_read, execRead, onLane_fires h]
  simp only [readValue_popLane, hv]
  rfl

theorem readLooks_keeps {β : Type} (p : State → β) (h : ∀ s g l b, p { s with gm := g, ls := l, bt := b } = p s) (s : State)
    (f : Firing) (r : Nat) : p (readLooks s f r) = p s := by
  unfold readLooks
  split
  · exact regCheck_keeps p h _ _ _
  · rfl

@[simp] theorem readLooks_wk (s : State) (f : Firing) (r : Nat) : (readLooks s f r).wk = s.wk :=
  readLooks_keeps State.wk (fun _ _ _ _ => rfl) s f r

@[simp] theorem readLooks_net (s : State) (f : Firing) (r : Nat) : (readLooks s f r).net = s.net :=
  readLooks_keeps State.net (fun _ _ _ _ => rfl) s f r

@[simp] theorem readLooks_bytes (s : State) (f : Firing) (r : Nat) : (readLooks s f r).ls.bytes = s.ls.bytes := by
  unfold readLooks
  split
  · exact regCheck_bytes _ _ _
  · rfl

theorem readLooks_gm {r : Nat} (h : ∀ g ∈ regGranules s f.tid r, ∃ n, g = .here n) : (readLooks s f r).gm = s.gm := by
  unfold readLooks
  split
  · exact regCheck_gm h
  · rfl

/-- A READ that has found its value keeps the frame of a word. -/
theorem wordFrame_read (s : State) (f : Firing) (r : Nat) (ms : List Instr) :
    WordFrame s (post (markFired (readLooks (popLane s) f r) f 0) ms) f where
  tasks := by simp
  lane := ⟨[], by simp⟩
  others := fun tid iter h => (instAt_modInst_other _ _ _ _ _ _ h).trans (by simp [instAt])
  recs := readLooks_keeps (fun a => a.al.recs) (fun _ _ _ _ => rfl) (popLane s) f r
  graphs := readLooks_keeps State.cf (fun _ _ _ _ => rfl) (popLane s) f r
  engines := readLooks_keeps State.en (fun _ _ _ _ => rfl) (popLane s) f r
  jobs := readLooks_keeps State.jb (fun _ _ _ _ => rfl) (popLane s) f r
  times := readLooks_keeps State.clk (fun _ _ _ _ => rfl) (popLane s) f r
  ticks := readLooks_keeps State.tm (fun _ _ _ _ => rfl) (popLane s) f r
  firmware := readLooks_keeps State.fw (fun _ _ _ _ => rfl) (popLane s) f r

/-- A register in local store that can be read is read as it is. -/
theorem readSends_of_sound {r : Nat} (v : Token) (h1 : ¬ (readsCommitted s f r = true ∧ (regGranules s f.tid r).any (unreadable s) = true))
    (h2 : ¬ (readsCommitted s f r = true ∧ (regGranules s f.tid r).any (locShared s) = true)) : readSends s f r v = v := by
  unfold readSends regRead tokenRead
  split
  · next hc => rw [if_neg fun h => h1 ⟨hc, h⟩, if_neg fun h => h2 ⟨hc, h⟩]
  · rfl

theorem readSends_of_lost {r : Nat} (v : Token) (h : readsCommitted s f r = true ∧ (regGranules s f.tid r).any (unreadable s) = true) :
    readSends s f r v = poisonTok := by
  unfold readSends regRead tokenRead
  rw [if_pos h.1, if_pos h.2]

/-- Registers in local store without an upset can be read. -/
theorem any_unreadable_here {ls : List GLoc} (hu : s.ls.upset = []) (h : ∀ g ∈ ls, ∃ n, g = .here n) : ls.any (unreadable s) = false := by
  rw [List.any_eq_false]
  intro g hg
  obtain ⟨n, rfl⟩ := h g hg
  simp [unreadable, hu, tgetD, tget]

theorem any_locShared_here {ls : List GLoc} (h : ∀ g ∈ ls, ∃ n, g = .here n) : ls.any (locShared s) = false := by
  rw [List.any_eq_false]
  intro g hg
  obtain ⟨n, rfl⟩ := h g hg
  simp [locShared]

theorem readLooks_sound {r : Nat} (hu : s.ls.upset = []) (h : ∀ g ∈ regGranules s f.tid r, ∃ n, g = .here n) :
    readLooks s f r = s := by
  unfold readLooks
  split
  · exact regCheck_sound hu h
  · rfl

theorem readValue_unlooped {r : Nat} (h : (taskD s f.tid).loop = none) : readValue s f r = .value (regOf (taskD s f.tid) r) := by
  simp [readValue, h]

theorem readValue_unordered {r : Nat} {l : Loop} (h : (taskD s f.tid).loop = some l) (ho : l.ordered = false) :
    readValue s f r = .value (tgetD l.regs r nullTok) := by
  simp [readValue, h, ho]

/-! ### WRITE (R18, R90, R109) -/

/-- The state in which a WRITE has taken a token for the commit. -/
def writeTakes (s : State) (f : Firing) (v : Token) : State :=
  wakeReads (modInst (markFired s f 0) f.tid f.iter fun x => { x with wrote := tput x.wrote f.slot v }) f.tid

theorem tput_tput (t : Table α) (k : Nat) (v w : α) : tput (tput t k v) k w = tput t k w := by
  induction t with
  | nil => simp [tput]
  | cons e t ih =>
    obtain ⟨j, u⟩ := e
    simp only [tput]
    split
    · simp [tput]
    · split
      · simp [tput]
      · simp [tput, *]

theorem tmod_tmod (t : Table α) (k : Nat) (g h : α → α) : tmod (tmod t k g) k h = tmod t k fun x => h (g x) := by
  cases hk : tget t k with
  | none => simp [tmod, hk]
  | some v => simp [tmod, hk, tput_tput]

theorem modInst_modInst (s : State) (tid iter : Nat) (g h : Inst → Inst) :
    modInst (modInst s tid iter g) tid iter h = modInst s tid iter fun x => h (g x) := by
  simp only [modInst, tmod_tmod]

theorem markFired_eq (s : State) (f : Firing) (fl : FlagSet) : markFired s f fl = modInst s f.tid f.iter (firedInst f fl) := rfl

theorem writeTakes_ends (s : State) (f : Firing) (v : Token) :
    WordFrame s (writeTakes (popLane s) f v) f ∧ MemFrame s (writeTakes (popLane s) f v) ∧ (writeTakes (popLane s) f v).net = s.net ∧
      instAt (writeTakes (popLane s) f v) f.tid f.iter =
        (instAt s f.tid f.iter).map fun x => { firedInst f 0 x with wrote := tput x.wrote f.slot v } := by
  rw [writeTakes, markFired_eq, modInst_modInst]
  exact ⟨wordFrame_wakeReads_modInst s f _, .of_eq rfl rfl, rfl, instAt_modInst_same _ _ _ _⟩

/-- POISON on P is written. -/
theorem execWrite_poisonP {wid : BitVec 5} {reg : BitVec 6} {pm : Pm} (h : OnLane s f (.write wid reg pm)) (hpm : pm ≠ .always)
    (hp : (portD s f .p).tag = .poison) : exec (.write wid reg pm) s = .next (writeTakes (popLane s) f poisonTok) := by
  have hany : anyTag .poison (predTokOf (popLane s) f pm).toList = true := by
    cases pm with
    | always => exact absurd rfl hpm
    | onTrue => simp [predTokOf, anyTag, hp]
    | onFalse => simp [predTokOf, anyTag, hp]
  rw [exec_write, execWrite, onLane_fires h]
  simp only [hany, if_true]
  rfl

/-- With no POISON on P the gate decides. -/
theorem execWrite_gate {wid : BitVec 5} {reg : BitVec 6} {pm : Pm} {g : Gate} (h : OnLane s f (.write wid reg pm))
    (hp : anyTag .poison (predTokOf s f pm).toList = false)
    (hg : gate pm (predTokOf s f pm) (portUses (.write wid reg pm) s f) = g) :
    exec (.write wid reg pm) s = .next (match g with
      | .go => if tagTile (portD s f .l).tag then raiseAt (popLane s) f ⟨.format, 0⟩ else writeTakes (popLane s) f (portD s f .l)
      | .null => nullSlot (popLane s) f
      | .poison => nullSlot (popLane s) f
      | .flt c => raiseAt (popLane s) f ⟨c, 0⟩) := by
  have hg' : gate pm (predTokOf s f pm) [(.data, portD s f .l)] = g := hg
  rw [exec_write, execWrite, onLane_fires h]
  simp only [predTokOf_popLane, portD_popLane, hp, Bool.false_eq_true, if_false, hg']
  cases g <;> rfl

end Sys2Proof.Machine

open Sys2Proof.Machine in
/-- Settles O16: a READ looks at its register's granules and sends what it finds, a WRITE keeps its token in its instance. -/
theorem readsAndWrites : Obligations.ReadsAndWrites := by
  constructor
  · intro s f t0 t1 reg hl held
    refine ⟨?sends, ?sound, execRead_wait hl, readValue_unlooped, fun l => readValue_unordered⟩
    case sends =>
      intro v hv lost shared
      refine ⟨readsCommitted s f reg.toNat, _, _, execRead_value hl hv, wordFrame_read s f _ _, readSends_of_sound v, readSends_of_lost v, ?_, ?_, ?_, ?_⟩
      · simp
      · simp [markFired_eq, modInst, instAt]
      · exact readLooks_gm (s := popLane s)
      · simp
    case sound =>
      intro v hu hh hv
      refine ⟨readsCommitted s f reg.toNat, (execRead_value hl hv).trans ?_⟩
      have h1 : held.any (unreadable s) = false := any_unreadable_here hu hh
      have h2 : held.any (locShared s) = false := any_locShared_here hh
      rw [readLooks_sound (s := popLane s) hu hh, readSends_of_sound v (fun h => Bool.false_ne_true (h1.symm.trans h.2))
        (fun h => Bool.false_ne_true (h2.symm.trans h.2))]
      rfl
  · intro s f wid reg pm hl i takes
    refine ⟨fun h ht => ?go, fun hpm hp => ⟨_, execWrite_poisonP hl hpm hp, writeTakes_ends s f _⟩, fun h => ?null, fun h ht => ?tile⟩
    case go =>
      refine ⟨_, execWrite_gate hl (predTag_of_matches h.matched _ nofun) (gate_of_fires h), ?_⟩
      simp only [ht, Bool.false_eq_true, if_false]
      exact writeTakes_ends s f _
    case null =>
      have hv : Instr.cls i ≠ .value := nofun
      have hd : Instr.dataPorts i = [.l] := rfl
      have hc : MeetsNull s f i ∨ (Clean s f i ∧ Mismatches s f i) :=
        h.imp_right fun ⟨hn, hm⟩ => ⟨by simpa [Clean, hd, i, carriesPoison] using hn, hm⟩
      exact ⟨_, execWrite_gate hl (predTag_of_nulls hv hc) (gate_nulls hv hc), nullSlot_ends s f⟩
    case tile =>
      rw [execWrite_gate hl (predTag_of_matches h.matched _ nofun) (gate_of_fires h)]
      simp only [ht, if_true]

namespace Sys2Proof.Machine

variable {s : State} {f : Firing} {i : Instr}

/-! ### Branch words (R15, R117 to R119) -/

/-- A branch word that fires. -/
theorem effectWord_fires {uses : State → Firing → List (PortUse × Token)} (h : Fires s f i) (hu : uses (popLane s) f = portUses i s f)
    (null : State → Firing → State) (k : Firing → State → State) : effectWord s i uses null k = .next (k f (popLane s)) :=
  effectWord_go h.lane h.matched (hu ▸ portUses_of_clean h.clean) null k

theorem effectWord_null {uses : State → Firing → List (PortUse × Token)} {null : State → Firing → State} {k : Firing → State → State}
    (hl : OnLane s f i) (hg : gate (Instr.predicate i) (predTokOf s f (Instr.predicate i)) (uses (popLane s) f) = .null) :
    effectWord s i uses null k = .next (null (popLane s) f) := by
  unfold effectWord
  rw [onLane_fires hl]
  simp [hg]

/-- The trigger of a BR reads L only where P is not read. -/
theorem triggerUses_br (off : BitVec 21) (k : BranchKind) (pm : Pm) :
    triggerUses (.br off k pm) .steer (popLane s) f = portUses (.br off k pm) s f := by
  cases pm <;> rfl

/-- The state in which a block's branch has been resolved by a word, with the messages that this sends. -/
def branchDone (s : State) (f : Firing) (b : Branch) (ms : List Instr) : State :=
  { s with wk := laneDone s f (fun y => { firedInst f 0 y with branch := some b }), net := s.net ++ ms }

theorem resolveBranch_first {x : Inst} (hx : instAt s f.tid f.iter = some x) (hb : x.branch = none) (b : Branch) :
    resolveBranch (popLane s) f b = branchDone s f b [] := by
  have hx' : instAt (popLane s) f.tid f.iter = some x := hx
  unfold resolveBranch
  simp only [hx', hb, Option.isSome_none, Bool.false_eq_true, if_false, markFired_eq, modInst_modInst, branchDone, List.append_nil]
  rfl

theorem resolveBranch_second {x : Inst} (hx : instAt s f.tid f.iter = some x) (hb : x.branch.isSome = true) (b : Branch) :
    resolveBranch (popLane s) f b = raiseAt (popLane s) f ⟨.blockBad, 0⟩ := by
  have hx' : instAt (popLane s) f.tid f.iter = some x := hx
  unfold resolveBranch
  simp only [hx', hb, if_true]

theorem branchNext_first {x : Inst} (hx : instAt s f.tid f.iter = some x) (hb : x.branch = none) (va : Nat) :
    branchNext (popLane s) f va = branchDone s f (.next va)
      (if x.mayNext then [.blockActivate ⟨f.tid, (f.iter + 1) % 65536, va, true, false, true⟩] else []) := by
  have hx' : instAt (popLane s) f.tid f.iter = some x := hx
  unfold branchNext
  simp only [hx', hb, Option.isNone_none, Bool.and_true, resolveBranch_first hx hb]
  split <;> simp [post, branchDone, iterMod]

theorem branchNext_second {x : Inst} (hx : instAt s f.tid f.iter = some x) (hb : x.branch.isSome = true) (va : Nat) :
    branchNext (popLane s) f va = raiseAt (popLane s) f ⟨.blockBad, 0⟩ := by
  have hx' : instAt (popLane s) f.tid f.iter = some x := hx
  have hn : x.branch.isNone = false := by rw [Option.isNone_eq_false_iff]; exact hb
  unfold branchNext
  simp only [hx', hn, Bool.and_false, Bool.false_eq_true, if_false, resolveBranch_second hx hb]

/-- What a BR does with its target. -/
def brGoes (k : BranchKind) (s : State) (f : Firing) (va : Nat) : State :=
  match k with
  | .jump => resolveBranch s f (.goto va false)
  | .call => resolveBranch s f (.goto va true)
  | .next => branchNext s f va

theorem dataPorts_br_contains (off : BitVec 21) (k : BranchKind) (pm : Pm) :
    (Instr.dataPorts (.br off k pm)).contains .l = decide (pm = .always) := by
  cases pm <;> rfl

theorem execBr_fires {off : BitVec 21} {k : BranchKind} {pm : Pm} (h : Fires s f (.br off k pm)) :
    exec (.br off k pm) s = .next (if pm = .always ∧ tagTile (portD s f .l).tag = true then raiseAt (popLane s) f ⟨.format, 0⟩
      else brGoes k (popLane s) f (brTarget f.block off)) := by
  rw [exec_br, execBr, effectWord_fires h (triggerUses_br off k pm)]
  simp only [withTrigger, dataPorts_br_contains, portD_popLane, Bool.and_eq_true, decide_eq_true_eq]
  rfl

theorem execBrr_fires {call : Bool} {pm : Pm} (h : Fires s f (.brr call pm)) :
    exec (.brr call pm) s = .next (if (portD s f .l).tag ≠ .addr then raiseAt (popLane s) f ⟨.format, 0⟩
      else resolveBranch (popLane s) f (.goto (tokBits (portD s f .l)) call)) := by
  rw [exec_brr, execBrr, effectWord_fires h rfl]
  rfl

theorem execExit_fires {pm : Pm} (h : Fires s f (.exit pm)) :
    exec (.exit pm) s = .next (if (portD s f .l).tag = .future ∨ tagTile (portD s f .l).tag = true then
      raiseAt (popLane s) f ⟨.format, 0⟩ else resolveBranch (popLane s) f (.exit (portD s f .l))) := by
  rw [exec_exit, execExit, effectWord_fires h rfl]
  rfl

/-- A branch word that is nulled. -/
theorem exec_branch_null (hc : Instr.cls i = .branch) (hl : OnLane s f i)
    (h : MeetsNull s f i ∨ (Clean s f i ∧ Mismatches s f i)) : exec i s = .next (branchNull (popLane s) f) := by
  have hg := gate_nulls (by simp [hc]) h
  cases i with
  | br off k pm =>
    rw [exec_br, execBr]
    exact effectWord_null hl (triggerUses_br off k pm ▸ hg)
  | brr | exit =>
    unfold exec
    exact effectWord_null hl hg
  | _ => cases hc

/-- Once every branch word of a block is nulled, the branch is the fall-through (R15). -/
theorem branchNull_last {x : Inst} {b : Blk} (hx : instAt s f.tid f.iter = some x) (hn : x.branch = none) (ht : x.tid = f.tid)
    (hi : x.iter = f.iter) (hb : blkOf s x = some b)
    (hs : ∀ e ∈ blockSlots s x, Instr.cls e.2 = .branch → e.1 = f.slot ∨ e.1 ∈ x.nulled) :
    instAt (branchNull (popLane s) f) f.tid f.iter =
      some { nulledInst f x with branch := some (.goto (fallThrough x.block b.header) false) } := by
  have hx1 : instAt (nullSlot (popLane s) f) f.tid f.iter = some (nulledInst f x) := by
    rw [(nullSlot_ends s f).2.2.2, hx]
    rfl
  have hb1 : blkOf (nullSlot (popLane s) f) (nulledInst f x) = some b := hb
  have all : ((blockSlots (nullSlot (popLane s) f) (nulledInst f x)).filter fun e => Instr.cls e.2 = .branch).all
      (fun e => (nulledInst f x).nulled.contains e.1) = true := by
    rw [List.all_eq_true]
    intro e he
    obtain ⟨hm, hc⟩ := List.mem_filter.mp he
    have := hs e hm (by simpa using hc)
    simp [nulledInst, or_comm, this]
  unfold branchNull
  simp only [hx1, hb1, all, Bool.and_true]
  rw [if_pos (by simp [nulledInst, hn])]
  have hk : instKey f.tid f.iter = instKey x.tid x.iter := by rw [ht, hi]
  simp only [instAt, setInst, nulledInst, hk, tget_tput_same]

end Sys2Proof.Machine

open Sys2Proof.Machine in
/-- Settles O17: by the resolution of a branch, first or second, and the fall-through behind the last nulled one. -/
theorem branchesResolve : Obligations.BranchesResolve := by
  constructor
  · intro s f x hx hb done va tile
    have first := resolveBranch_first hx hb
    refine ⟨?jump, ?call, ?next, ?brTile, ?brr, ?brrTag, ?exit, ?exitTag⟩
    case jump | call =>
      intro off pm h ht
      rw [execBr_fires h, if_neg ht]
      exact congrArg _ (first _)
    case next =>
      intro off pm h ht
      rw [execBr_fires h, if_neg ht]
      exact congrArg _ (branchNext_first hx hb _)
    case brTile =>
      intro off k pm h ht
      rw [execBr_fires h, if_pos ht]
    case brr =>
      intro call pm h ht
      rw [execBrr_fires h, if_neg (not_not_intro ht)]
      exact congrArg _ (first _)
    case brrTag =>
      intro call pm h ht
      rw [execBrr_fires h, if_pos ht]
    case exit =>
      intro pm h hf ht
      rw [execExit_fires h, if_neg (by simp [hf, ht])]
      exact congrArg _ (first _)
    case exitTag =>
      intro pm h ht
      rw [execExit_fires h, if_pos ht]
  · intro s f x hx
    refine ⟨fun i hc h hb hbrr hbr hexit => ?second, fun i b hc hl hn hb ht hi hbl hs => ?nulled⟩
    case second =>
      have second := resolveBranch_second hx hb
      cases i with
      | br off k pm =>
        have notTile : ¬ (pm = .always ∧ tagTile (portD s f .l).tag = true) := by
          rintro ⟨rfl, ht⟩
          simp [hbr off k rfl] at ht
        rw [execBr_fires h, if_neg notTile]
        cases k with
        | next => exact congrArg _ (branchNext_second hx hb _)
        | jump | call => exact congrArg _ (second _)
      | brr call pm =>
        rw [execBrr_fires h, if_neg (not_not_intro (hbrr call pm rfl)), second]
      | exit pm =>
        obtain ⟨hf, ht⟩ := hexit pm rfl
        rw [execExit_fires h, if_neg (by simp [hf, ht]), second]
      | _ => cases hc
    case nulled => exact ⟨_, _, exec_branch_null hc hl hn, branchNull_last hx hb ht hi hbl hs, rfl, rfl, rfl⟩

namespace Sys2Proof.Machine

variable {s : State} {f : Firing} {i : Instr} {flt : Flt} {k : ReqKind}

/-! ### Store-class words: a request, or the fault of a check (R14, R140, R157, R161 to R166, R176 to R207)

`StoreWordEnds` says how a firing store-class word ends; one lemma of it for each word, over lemmas of the checks that words share. -/

/-- A firing word produces the request that its operands ask for, or raises the fault of the check that fails. -/
structure StoreWordEnds (s : State) (f : Firing) (i : Instr) : Prop where
  requests : ∀ k, requestOf s f i = some k → exec i s = .next (requested s f i k)
  faults : ∀ flt, CheckFails s f i flt → exec i s = .next (raiseAt (popLane s) f flt)

theorem storeWord_fires {uses : State → Firing → List (PortUse × Token)} (h : Fires s f i) (hu : uses (popLane s) f = portUses i s f)
    (k : Firing → State → State) : storeWord s i uses k = .next (k f (popLane s)) := effectWord_fires h hu _ k

/-! #### Triggers, handles and offsets -/

/-- A word whose trigger, where it has one, carries no tile. -/
theorem withTrigger_eq (i : Instr) (k : State → State) :
    withTrigger i f (popLane s) k = if (Instr.dataPorts i).contains .l = true ∧ tagTile (portD s f .l).tag = true then
      raiseAt (popLane s) f ⟨.format, 0⟩ else k (popLane s) := by
  simp only [withTrigger, portD_popLane, Bool.and_eq_true]

theorem localPlace_eq {width : Nat} {p : Nat × Nat} (h : localPlace s f width = some p) (k : Nat → Nat → GLoc → Nat → State → State)
    {u : State} (hk : ∀ l o, k p.1 p.2 l o (popLane s) = u) : withGranule (popLane s) f width k = u := by
  cases hr : resolve s (tokBits (portD s f .l)) (tokInt (portD s f .r)) width with
  | error e => simp [localPlace, hr] at h
  | ok g =>
    obtain ⟨l, o⟩ := g
    simp only [localPlace, hr, Option.ite_none_right_eq_some, Option.some.injEq] at h
    obtain ⟨⟨hl, hi, hsp⟩, rfl⟩ := h
    have hops : localOperands (popLane s) f = some (tokBits (portD s f .l), tokInt (portD s f .r)) := by
      simp [localOperands, hl, hi]
    have hr' : resolve (popLane s) (tokBits (portD s f .l)) (tokInt (portD s f .r)) width = .ok (l, o) := hr
    simp only [withGranule, hops, hr']
    exact (if_neg fun h => Bool.false_ne_true (hsp.symm.trans h)).trans (hk l o)

/-- A handle that names no live record. -/
theorem liveRec_stale {h : Nat} (hs : staleHandle s h) (off : Nat) : liveRec s h off = .error ⟨.handleStale, handleForm h off⟩ := by
  unfold staleHandle at hs
  cases hk : handleRec h with
  | none => simp only [liveRec, hk]
  | some k =>
    simp only [hk] at hs
    cases hr : tget s.al.recs k with
    | none => simp only [liveRec, hk, hr]
    | some r => simp only [liveRec, hk, hr, hs r hr, Bool.false_eq_true, if_false]

/-- A handle that names a live record. -/
theorem liveRec_live {h : Nat} (hs : ¬ staleHandle s h) (off : Nat) :
    ∃ k r, handleRec h = some k ∧ tget s.al.recs k = some r ∧ liveRec s h off = .ok (k, r) := by
  unfold staleHandle at hs
  cases hk : handleRec h with
  | none => simp [hk] at hs
  | some k =>
    simp only [hk, not_forall] at hs
    obtain ⟨r, hr, hl⟩ := hs
    exact ⟨k, r, rfl, hr, by simp [liveRec, hk, hr, hl]⟩

theorem handleLength_eq {h k : Nat} {r : Rec} (hk : handleRec h = some k) (hr : tget s.al.recs k = some r) :
    handleLength s h = r.granules := by
  simp [handleLength, hk, hr, Rec.granules]

/-- A handle that names no live record, or one of the task pool. -/
theorem ownRec_gone {h : Nat} (hg : staleHandle s h ∨ poolHandle s h) : ownRec s h = .error ⟨.handleStale, handleForm h 0⟩ := by
  unfold ownRec
  by_cases hs : staleHandle s h
  · simp only [liveRec_stale hs]
  · obtain ⟨k, r, hk, hr, hl⟩ := liveRec_live hs 0
    obtain ⟨k', r', hk', hr', hp⟩ := hg.resolve_left hs
    obtain rfl : k' = k := by simpa [hk'] using hk
    obtain rfl : r' = r := by simpa [hr'] using hr
    simp only [hl, hp, if_true]

theorem ownRec_own {h : Nat} (hg : ¬ (staleHandle s h ∨ poolHandle s h)) :
    ∃ k r, ownRec s h = .ok (k, r) ∧ handleLength s h = r.granules := by
  rw [not_or] at hg
  obtain ⟨k, r, hk, hr, hl⟩ := liveRec_live hg.1 0
  have hp : r.pool = false := by
    rw [Bool.eq_false_iff]
    exact fun hp => hg.2 ⟨k, r, hk, hr, hp⟩
  exact ⟨k, r, by simp [ownRec, hl, hp], handleLength_eq hk hr⟩

/-! #### The sides of a copy (R179) -/

theorem sideOf_none {t : Token} (h : ¬ (t.tag = .addr ∨ t.tag = .handle)) : sideOf t = none := by
  rw [not_or] at h
  simp [sideOf, h]

theorem sideOf_some {t : Token} (h : t.tag = .addr ∨ t.tag = .handle) : ∃ a, sideOf t = some a := by
  rcases h with h | h <;> simp [sideOf, h]

theorem sideFault_iff {t : Token} {a : Side} (ha : sideOf t = some a) : sideFault s a = some flt ↔ sideBad s t flt := by
  unfold sideOf at ha
  unfold sideBad
  split at ha
  · next ht =>
    cases ha
    simp only [sideFault, ht, true_and, reduceCtorEq, false_and, or_false]
    split <;> simp_all [eq_comm]
  · split at ha
    · next ht =>
      cases ha
      simp only [sideFault, ht, true_and, reduceCtorEq, false_and, false_or]
      by_cases hs : staleHandle s (tokBits t)
      · simp [liveRec_stale hs, hs, eq_comm]
      · obtain ⟨k, r, -, -, hl⟩ := liveRec_live hs 0
        simp [hl, hs]
    · cases ha

theorem sideFault_none {t : Token} {a : Side} (ha : sideOf t = some a) : sideFault s a = none ↔ ∀ e, ¬ sideBad s t e := by
  simp only [← sideFault_iff ha, Option.eq_none_iff_forall_ne_some, ne_eq]

theorem sideShort_iff {t : Token} {a : Side} {need : Nat} (ha : sideOf t = some a) (hf : sideFault s a = none) :
    sideShort s need a = some flt ↔ sideShortOf s t need flt := by
  unfold sideOf at ha
  unfold sideShortOf
  split at ha
  · next ht =>
    cases ha
    simp [sideShort, ht]
  · split at ha
    · next ht =>
      cases ha
      have hs : ¬ staleHandle s (tokBits t) := fun hs => by simp [sideFault, liveRec_stale hs] at hf
      obtain ⟨k, r, hk, hr, hl⟩ := liveRec_live hs 0
      by_cases hn : r.granules * 16 < need
      · simp [sideShort, hl, ht, handleLength_eq hk hr, hn, eq_comm]
      · simp [sideShort, hl, ht, handleLength_eq hk hr, hn]
    · cases ha

theorem sideShort_none {t : Token} {a : Side} {need : Nat} (ha : sideOf t = some a) (hf : sideFault s a = none) :
    sideShort s need a = none ↔ ∀ e, ¬ sideShortOf s t need e := by
  simp only [← sideShort_iff ha hf, Option.eq_none_iff_forall_ne_some, ne_eq]

theorem sideFits_iff {t : Token} {a : Side} {need : Nat} :
    sideFits s t need = some a ↔ sideOf t = some a ∧ sideFault s a = none ∧ sideShort s need a = none := by
  unfold sideFits sideOf
  split
  · constructor
    · intro h
      split at h
      · cases h
        simp [sideFault, sideShort, *]
      · cases h
    · rintro ⟨h, hf, -⟩
      cases h
      simpa [sideFault] using hf
  · split
    · cases hl : liveRec s (tokBits t) 0 with
      | error e =>
        constructor
        · intro h; cases h
        · rintro ⟨h, hf, -⟩
          cases h
          simp [sideFault, hl] at hf
      | ok x =>
        obtain ⟨k, r⟩ := x
        constructor
        · intro h
          simp only at h
          split at h
          · cases h
            simp [sideFault, sideShort, *]
          · cases h
        · rintro ⟨h, -, hs⟩
          cases h
          simpa [sideShort, hl] using hs
    · simp

/-- The checks of two sides, in their order. -/
theorem firstFlt_of_sidesFail {l r : Token} {a b : Side} {need : Nat} (ha : sideOf l = some a) (hb : sideOf r = some b)
    (h : sidesFail s l r need flt) :
    firstFlt [sideFault s a, sideFault s b, sideShort s need a, sideShort s need b] = some flt := by
  rcases h with h | ⟨h1, h⟩ | ⟨h1, h2, h⟩ | ⟨h1, h2, h3, h⟩
  · rw [(sideFault_iff ha).mpr h]
    rfl
  · rw [(sideFault_none ha).mpr h1, (sideFault_iff hb).mpr h]
    rfl
  · have fa := (sideFault_none ha).mpr h1
    rw [fa, (sideFault_none hb).mpr h2, (sideShort_iff ha fa).mpr h]
    rfl
  · have fa := (sideFault_none ha).mpr h1
    have fb := (sideFault_none hb).mpr h2
    rw [fa, fb, (sideShort_none ha fa).mpr h3, (sideShort_iff hb fb).mpr h]
    rfl

/-! #### Each word -/

@[simp] theorem ownRec_popLane (s : State) (h : Nat) : ownRec (popLane s) h = ownRec s h := rfl
@[simp] theorem sideFault_popLane (s : State) (a : Side) : sideFault (popLane s) a = sideFault s a := by cases a <;> rfl
@[simp] theorem sideShort_popLane (s : State) (n : Nat) (a : Side) : sideShort (popLane s) n a = sideShort s n a := by cases a <;> rfl
@[simp] theorem growable_popLane (s : State) (vi va : Nat) : growable (popLane s) vi va = growable s vi va := rfl

/-- TRAP, BKPT and FENCE: only a tile on the trigger is refused (R66, R120, R121, R153). -/
theorem trigger_ends {k0 : ReqKind} (h : Fires s f i) (e : exec i s = storeWord s i (triggerUses i .steer) fun f s1 =>
      withTrigger i f s1 fun s2 => request s2 f i k0) (hu : triggerUses i .steer (popLane s) f = portUses i s f)
    (hr : requestOf s f i = if (Instr.dataPorts i).contains .l = false ∨ tagTile (portD s f .l).tag = false then some k0 else none)
    (hf : ∀ flt, CheckFails s f i flt → (Instr.dataPorts i).contains .l = true ∧ tagTile (portD s f .l).tag = true ∧ flt = ⟨.format, 0⟩) :
    StoreWordEnds s f i := by
  rw [storeWord_fires h hu, withTrigger_eq, request_popLane] at e
  refine ⟨fun k hk => e.trans ?_, fun flt h => e.trans ?_⟩
  · rw [hr, Option.ite_none_right_eq_some, Option.some.injEq] at hk
    obtain ⟨ht, rfl⟩ := hk
    rw [if_neg]
    rintro ⟨h1, h2⟩
    rw [h1, h2] at ht
    simp at ht
  · obtain ⟨h1, h2, rfl⟩ := hf flt h
    rw [if_pos ⟨h1, h2⟩]

theorem trap_ends {imm : BitVec 12} {pm : Pm} (h : Fires s f (.trap imm pm)) : StoreWordEnds s f (.trap imm pm) :=
  trigger_ends (k0 := .trap imm.toNat) h rfl (by cases pm <;> rfl) rfl fun _ hf => hf

theorem bkpt_ends {imm : BitVec 12} {pm : Pm} (h : Fires s f (.bkpt imm pm)) : StoreWordEnds s f (.bkpt imm pm) :=
  trigger_ends (k0 := .bkpt imm.toNat) h rfl (by cases pm <;> rfl) rfl fun _ hf => hf

theorem fence_ends {sc : Scope} {lsid : BitVec 5} {pm : Pm} (h : Fires s f (.fence sc lsid pm)) :
    StoreWordEnds s f (.fence sc lsid pm) :=
  trigger_ends (k0 := .fence sc) h rfl rfl rfl fun _ hf => hf

/-- A word on a granule: a check of its data, then its place (R140, R157). -/
theorem local_ends {width : Nat} {bad : Prop} [Decidable bad] {kind : Nat → Nat → ReqKind}
    (e : exec i s = .next (if bad then raiseAt (popLane s) f ⟨.format, 0⟩
      else withGranule (popLane s) f width fun h off _ _ s2 => request s2 f i (kind h off)))
    (hr : ∀ k, requestOf s f i = some k → ¬ bad ∧ ∃ p, localPlace s f width = some p ∧ kind p.1 p.2 = k)
    (hf : ∀ flt, CheckFails s f i flt → bad ∧ flt = ⟨.format, 0⟩) : StoreWordEnds s f i := by
  refine ⟨fun k hk => e.trans ?_, fun flt h => e.trans ?_⟩
  · obtain ⟨hb, p, hp, rfl⟩ := hr k hk
    rw [if_neg hb]
    exact congrArg _ (localPlace_eq hp _ fun _ _ => rfl)
  · obtain ⟨hb, rfl⟩ := hf flt h
    rw [if_pos hb]

theorem lst_ends {fmt : Tag} {lsid : BitVec 5} {pm : Pm} (h : Fires s f (.lst fmt lsid pm)) : StoreWordEnds s f (.lst fmt lsid pm) := by
  have e : execLst fmt lsid pm s = _ := storeWord_fires h (by rfl) _
  refine local_ends (kind := fun a b => .lst a b fmt (portD s f .x)) e (fun k hk => ?_) fun flt hf => ?_
  · obtain ⟨p, hp, hk⟩ := Option.bind_eq_some_iff.mp hk
    rw [Option.ite_none_right_eq_some, Option.some.injEq] at hk
    exact ⟨by rcases hk.1 with hx | hx <;> simp [hx], p, hp, hk.2⟩
  · obtain ⟨h1, h2, rfl⟩ := hf
    simp [h1, h2]

theorem lamo_ends {t0 : Tgt} {op : AtomOp} {fmt : Tag} {lsid : BitVec 5} {pm : Pm} (h : Fires s f (.lamo t0 op fmt lsid pm)) :
    StoreWordEnds s f (.lamo t0 op fmt lsid pm) := by
  have e : execLamo t0 op fmt lsid pm s = _ := storeWord_fires h (by rfl) _
  refine local_ends (kind := fun a b => .lamo op a b fmt (portD s f .x)) e (fun k hk => ?_) fun flt hf => ?_
  · obtain ⟨p, hp, hk⟩ := Option.bind_eq_some_iff.mp hk
    rw [Option.ite_none_right_eq_some, Option.some.injEq] at hk
    exact ⟨by rcases hk.1 with hx | hx <;> simp [hx], p, hp, hk.2⟩
  · obtain ⟨h1, h2, rfl⟩ := hf
    simp [h1, h2]

theorem fes_ends {lsid : BitVec 5} {pm : Pm} (h : Fires s f (.fes lsid pm)) : StoreWordEnds s f (.fes lsid pm) := by
  have e : execFes lsid pm s = _ := storeWord_fires h (by rfl) _
  refine local_ends (kind := fun a b => .fes a b (decide (tokInt (portD s f .x) = 1))) e (fun k hk => ?_) fun flt hf => ?_
  · obtain ⟨p, hp, hk⟩ := Option.bind_eq_some_iff.mp hk
    rw [Option.ite_none_right_eq_some, Option.some.injEq] at hk
    obtain ⟨⟨h1, h2⟩, rfl⟩ := hk
    exact ⟨by simpa [h1, or_iff_not_imp_left] using h2, p, hp, rfl⟩
  · obtain ⟨h1, rfl⟩ := hf
    exact ⟨by simpa using h1, rfl⟩

theorem binit_ends {lsid : BitVec 5} {pm : Pm} (h : Fires s f (.binit lsid pm)) : StoreWordEnds s f (.binit lsid pm) := by
  have e : execBinit lsid pm s = _ := storeWord_fires h (by rfl) _
  refine local_ends (kind := fun a b => .binit a b (tokInt (portD s f .x)).toNat) e (fun k hk => ?_) fun flt hf => ?_
  · obtain ⟨p, hp, hk⟩ := Option.bind_eq_some_iff.mp hk
    rw [Option.ite_none_right_eq_some, Option.some.injEq] at hk
    obtain ⟨⟨h1, h2, h3⟩, rfl⟩ := hk
    exact ⟨by simp [h1, h2, h3], p, hp, rfl⟩
  · obtain ⟨h1, rfl⟩ := hf
    exact ⟨by simpa using h1, rfl⟩

theorem barr_ends {t0 : Tgt} {lsid : BitVec 5} {pm : Pm} (h : Fires s f (.barr t0 lsid pm)) : StoreWordEnds s f (.barr t0 lsid pm) := by
  have e : execBarr t0 lsid pm s = _ := storeWord_fires h (by rfl) _
  refine local_ends (bad := False) (kind := fun a b => .barr a b) (e.trans (congrArg _ (if_neg not_false).symm)) (fun k hk => ?_)
    fun flt hf => hf.elim
  obtain ⟨p, hp, hk⟩ := Option.map_eq_some_iff.mp hk
  exact ⟨not_false, p, hp, hk⟩

theorem free_ends {pm : Pm} (h : Fires s f (.free pm)) : StoreWordEnds s f (.free pm) := by
  have e : execFree pm s = _ := storeWord_fires h (by rfl) _
  simp only [portD_popLane, ownRec_popLane, request_popLane] at e
  refine ⟨fun k hk => e.trans ?_, fun flt hf => e.trans ?_⟩
  · simp only [requestOf, Option.ite_none_right_eq_some] at hk
    obtain ⟨hl, hk⟩ := hk
    cases ho : ownRec s (tokBits (portD s f .l)) with
    | error e => simp [ho] at hk
    | ok x =>
      simp only [ho, Option.some.injEq] at hk
      simp [hl, hk]
  · rcases hf with ⟨hl, rfl⟩ | ⟨hl, hg, rfl⟩
    · simp [hl]
    · simp [hl, ownRec_gone hg]

theorem rels_ends {pm : Pm} (h : Fires s f (.rels pm)) : StoreWordEnds s f (.rels pm) := by
  have e : execRels pm s = _ := storeWord_fires h (by rfl) _
  simp only [portD_popLane, ownRec_popLane, request_popLane] at e
  refine ⟨fun k hk => e.trans ?_, fun flt hf => e.trans ?_⟩
  · simp only [requestOf, Option.ite_none_right_eq_some] at hk
    obtain ⟨⟨hl, hr⟩, hk⟩ := hk
    cases ho : ownRec s (tokBits (portD s f .l)) with
    | error e => simp [ho] at hk
    | ok x =>
      obtain ⟨key, y⟩ := x
      simp only [ho, Option.ite_none_right_eq_some, Option.some.injEq] at hk
      obtain ⟨⟨h1, h2⟩, rfl⟩ := hk
      simp [hl, hr, not_lt.mpr h1, not_lt.mpr h2]
  · rcases hf with ⟨ht, rfl⟩ | ⟨⟨hl, hr⟩, hg, rfl⟩ | ⟨⟨hl, hr⟩, hg, h1, rfl⟩ | ⟨⟨hl, hr⟩, hg, h1, h2, rfl⟩
    · exact congrArg _ (if_pos (by simpa [or_iff_not_imp_left] using ht))
    · simp [hl, hr, ownRec_gone hg]
    · obtain ⟨key, y, ho, -⟩ := ownRec_own hg
      simp [hl, hr, ho, h1]
    · obtain ⟨key, y, ho, hy⟩ := ownRec_own hg
      rw [hy] at h1
      simp [hl, hr, ho, h1, not_lt.mpr h2]

theorem cp_ends {t0 : Tgt} {ctx : BitVec 2} {rv : Bool} {ta : TA} {pm : Pm} (h : Fires s f (.cp t0 ctx rv ta pm)) :
    StoreWordEnds s f (.cp t0 ctx rv ta pm) := by
  have e : execCp t0 ctx rv ta pm s = _ := storeWord_fires h (by rfl) _
  simp only [portD_popLane, sideFault_popLane, sideShort_popLane, request_popLane] at e
  refine ⟨fun k hk => e.trans ?_, fun flt hf => e.trans ?_⟩
  · simp only [requestOf, Option.ite_none_right_eq_some, Option.bind_eq_some_iff, Option.map_eq_some_iff, sideFits_iff] at hk
    obtain ⟨⟨h1, h2, h3, h4⟩, a, ⟨ha, fa, sa⟩, b, ⟨hb, fb, sb⟩, rfl⟩ := hk
    simp only [ha, hb, h1, h4, not_lt.mpr h2, not_lt.mpr h3, fa, fb, sa, sb, firstFlt, Bool.not_true, Bool.false_eq_true, ne_eq,
      not_true_eq_false, or_false, if_false]
  · rcases hf with ⟨ho, rfl⟩ | ⟨⟨hl, hr, h1, h2, h3, h4⟩, hf⟩
    · by_cases hl : (portD s f .l).tag = .addr ∨ (portD s f .l).tag = .handle
      · obtain ⟨a, ha⟩ := sideOf_some hl
        by_cases hr : (portD s f .r).tag = .addr ∨ (portD s f .r).tag = .handle
        · obtain ⟨b, hb⟩ := sideOf_some hr
          simp only [ha, hb]
          refine congrArg _ (if_pos ?_)
          by_contra hn
          refine ho ⟨hl, hr, ?_⟩
          simpa [not_or] using hn
        · simp only [ha, sideOf_none hr]
      · simp only [sideOf_none hl]
    · obtain ⟨a, ha⟩ := sideOf_some hl
      obtain ⟨b, hb⟩ := sideOf_some hr
      simp only [ha, hb, h1, h4, not_lt.mpr h2, not_lt.mpr h3, firstFlt_of_sidesFail ha hb hf, Bool.not_true, Bool.false_eq_true,
        ne_eq, not_true_eq_false, or_false, if_false]

theorem pset_ends {t0 : Tgt} {reg : BitVec 3} {ta : TA} {pm : Pm} (h : Fires s f (.pset t0 reg ta pm)) :
    StoreWordEnds s f (.pset t0 reg ta pm) := by
  have e : execPset t0 reg ta pm s = _ := storeWord_fires h (by rfl) _
  simp only [portD_popLane, sideFault_popLane, sideShort_popLane, request_popLane] at e
  refine ⟨fun k hk => e.trans ?_, fun flt hf => e.trans ?_⟩
  · simp only [requestOf, Option.map_eq_some_iff, sideFits_iff] at hk
    obtain ⟨a, ⟨ha, fa, sa⟩, rfl⟩ := hk
    simp only [ha, fa, sa, firstFlt]
  · rcases hf with ⟨hl, rfl⟩ | ⟨hl, hf⟩
    · simp only [sideOf_none hl]
    · obtain ⟨a, ha⟩ := sideOf_some hl
      rcases hf with hf | ⟨ho, hf⟩
      · simp only [ha, (sideFault_iff ha).mpr hf, firstFlt]
      · have fa := (sideFault_none ha).mpr ho
        simp only [ha, fa, (sideShort_iff ha fa).mpr hf, firstFlt]

/-- The fields of a permute's operand, as bits and as quotients (R184). -/
theorem cppFields (v : Int) : bits (v % 2 ^ 64).toNat 0 16 = (v % 2 ^ 64).toNat % 2 ^ 16 ∧
    bits (v % 2 ^ 64).toNat 19 3 = (v % 2 ^ 64).toNat / 2 ^ 19 % 2 ^ 3 ∧
    bits (v % 2 ^ 64).toNat 22 42 = (v % 2 ^ 64).toNat / 2 ^ 22 := by
  refine ⟨by simp [bits], rfl, Nat.mod_eq_of_lt ?_⟩
  omega

theorem cpp_ends {t0 : Tgt} {ctx : BitVec 2} {ta : TA} {pm : Pm} (h : Fires s f (.cpp t0 ctx ta pm)) :
    StoreWordEnds s f (.cpp t0 ctx ta pm) := by
  have e : execCpp t0 ctx ta pm s = _ := storeWord_fires h (by rfl) _
  simp only [portD_popLane, sideFault_popLane, sideShort_popLane, request_popLane] at e
  obtain ⟨e1, e2, e3⟩ := cppFields (tokInt (portD s f .x))
  have hside {t : Token} (ht : t.tag = .handle) : sideOf t = some (.handle (tokBits t)) := by simp [sideOf, ht]
  refine ⟨fun k hk => e.trans ?_, fun flt hf => e.trans ?_⟩
  · simp only [requestOf, Option.ite_none_right_eq_some, Option.some.injEq, Option.isSome_iff_exists, sideFits_iff] at hk
    obtain ⟨⟨hl, hr, hx, h1, h2, h3, ⟨a, ha, fa, sa⟩, b, hb, fb, sb⟩, rfl⟩ := hk
    obtain rfl : _ = a := Option.some.inj ((hside hl).symm.trans ha)
    obtain rfl : _ = b := Option.some.inj ((hside hr).symm.trans hb)
    simp only [hl, hr, hx, h1, not_lt.mpr h2, h3, fa, fb, sa, sb, firstFlt, Bool.not_true, Bool.false_eq_true, ne_eq,
      not_true_eq_false, or_false, if_false]
  · rcases hf with ⟨ho, rfl⟩ | ⟨⟨hl, hr, hx, h1, h2, h3⟩, hf⟩
    · refine congrArg _ (if_pos ?_)
      by_contra hn
      refine ho ?_
      rw [e1, e2, e3] at hn
      simpa [not_or] using hn
    · have hf' := firstFlt_of_sidesFail (hside hl) (hside hr) hf
      rw [← e1, ← e2] at hf'
      rw [← e1] at h1
      rw [← e2] at h2
      rw [← e3] at h3
      simp only [hl, hr, hx, h1, not_lt.mpr h2, h3, hf', Bool.not_true, Bool.false_eq_true, ne_eq,
        not_true_eq_false, or_false, if_false]

/-- A word that only looks at its tags. -/
theorem tags_ends {bad good : Prop} [Decidable bad] [Decidable good] {k0 : ReqKind}
    (e : exec i s = .next (if bad then raiseAt (popLane s) f ⟨.format, 0⟩ else requested s f i k0)) (hb : bad ↔ ¬ good)
    (hr : requestOf s f i = if good then some k0 else none) (hf : ∀ flt, CheckFails s f i flt → ¬ good ∧ flt = ⟨.format, 0⟩) :
    StoreWordEnds s f i := by
  refine ⟨fun k hk => e.trans ?_, fun flt h => e.trans ?_⟩
  · rw [hr, Option.ite_none_right_eq_some, Option.some.injEq] at hk
    obtain ⟨hg, rfl⟩ := hk
    rw [if_neg (hb.not.mpr (not_not_intro hg))]
  · obtain ⟨hg, rfl⟩ := hf flt h
    rw [if_pos (hb.mpr hg)]

/-- The same, where the word asks for the tags that it takes. -/
theorem goodTags_ends {good : Prop} [Decidable good] {k0 : ReqKind}
    (e : exec i s = .next (if good then requested s f i k0 else raiseAt (popLane s) f ⟨.format, 0⟩))
    (hr : requestOf s f i = if good then some k0 else none) (hf : ∀ flt, CheckFails s f i flt → ¬ good ∧ flt = ⟨.format, 0⟩) :
    StoreWordEnds s f i := tags_ends (bad := ¬ good) (e.trans (congrArg _ (ite_not ..).symm)) Iff.rfl hr hf

theorem cpg_ends {t0 : Tgt} {ctx : BitVec 2} {ta : TA} {pm : Pm} (h : Fires s f (.cpg t0 ctx ta pm)) :
    StoreWordEnds s f (.cpg t0 ctx ta pm) :=
  have e : gatherReq s (.cpg t0 ctx ta pm) ctx false = _ := storeWord_fires h (by rfl) _
  tags_ends (k0 := .engine 1 ctx.toNat (.gather false (tokBits (portD s f .l)))) e Iff.rfl rfl fun _ hf => hf

theorem cps_ends {t0 : Tgt} {ctx : BitVec 2} {ta : TA} {pm : Pm} (h : Fires s f (.cps t0 ctx ta pm)) :
    StoreWordEnds s f (.cps t0 ctx ta pm) :=
  have e : gatherReq s (.cps t0 ctx ta pm) ctx true = _ := storeWord_fires h (by rfl) _
  tags_ends (k0 := .engine 1 ctx.toNat (.gather true (tokBits (portD s f .l)))) e Iff.rfl rfl fun _ hf => hf

theorem wload_ends {t0 : Tgt} {k j : BitVec 2} {pm : Pm} (h : Fires s f (.wload t0 k j pm)) : StoreWordEnds s f (.wload t0 k j pm) :=
  have e : execWload t0 k j pm s = _ := storeWord_fires h (by rfl) _
  tags_ends (k0 := .engine (k.toNat + 2) 0 (.wload k.toNat j.toNat (tokBits (portD s f .l)))) e Iff.rfl rfl fun _ hf => hf

theorem wmma_ends {t0 : Tgt} {k j : BitVec 2} {sat : Bool} {pm : Pm} (h : Fires s f (.wmma t0 k j sat pm)) :
    StoreWordEnds s f (.wmma t0 k j sat pm) :=
  have e : execWmma t0 k j sat pm s = _ := storeWord_fires h (by rfl) _
  tags_ends (k0 := .engine (k.toNat + 2) 0 (.wmma k.toNat j.toNat sat (tokBits (portD s f .l)) (tokBits (portD s f .r)))) e
    not_and_or.symm rfl fun _ hf => ⟨not_and_or.mpr hf.1, hf.2⟩

theorem cvtt_ends {t0 : Tgt} {n : BitVec 4} {pm : Pm} (h : Fires s f (.cvtt t0 n pm)) : StoreWordEnds s f (.cvtt t0 n pm) :=
  have e : execCvtt t0 n pm s = _ := storeWord_fires h (by rfl) _
  tags_ends (k0 := .engine 5 0 (.cvtt (n.toNat + 1) (tokBits (portD s f .l)) (tokBits (portD s f .r)))) e not_and_or.symm rfl
    fun _ hf => ⟨not_and_or.mpr hf.1, hf.2⟩

theorem ref_ends {pm : Pm} (h : Fires s f (.ref pm)) : StoreWordEnds s f (.ref pm) :=
  have e : refReq s (.ref pm) .ref = _ := storeWord_fires h (by rfl) _
  tags_ends (k0 := .ref (portD s f .l).val) e Iff.rfl rfl fun _ hf => hf

theorem drop_ends {pm : Pm} (h : Fires s f (.drop pm)) : StoreWordEnds s f (.drop pm) :=
  have e : refReq s (.drop pm) .drop = _ := storeWord_fires h (by rfl) _
  tags_ends (k0 := .drop (portD s f .l).val) e Iff.rfl rfl fun _ hf => hf

theorem launch_ends {t0 : Tgt} {ta : TA} {pm : Pm} (h : Fires s f (.launch t0 ta pm)) : StoreWordEnds s f (.launch t0 ta pm) :=
  have e : execLaunch t0 ta pm s = _ := storeWord_fires h (by rfl) _
  tags_ends (k0 := .launch (tokBits (portD s f .l))) e Iff.rfl rfl fun _ hf => hf

theorem cancel_ends {level : Level} {pm : Pm} (h : Fires s f (.cancel level pm)) : StoreWordEnds s f (.cancel level pm) :=
  have e : execCancel level pm s = _ := storeWord_fires h (by rfl) _
  tags_ends (k0 := .cancel level ((levelId level (portD s f .l)).getD (2 ^ 64))) e (by simp) rfl
    fun _ hf => ⟨Bool.eq_false_iff.mp hf.1, hf.2⟩

theorem syswr_ends {imm : BitVec 12} {pm : Pm} (h : Fires s f (.syswr imm pm)) : StoreWordEnds s f (.syswr imm pm) :=
  have e : execSyswr imm pm s = _ := storeWord_fires h (by rfl) _
  goodTags_ends (k0 := .syswr imm.toNat (portD s f .l).val) e rfl
    fun _ ⟨h1, h2, h3, h4, hf⟩ => ⟨by simp [h1, h2, h3, h4], hf⟩

theorem prof_ends {imm : BitVec 12} {pm : Pm} (h : Fires s f (.prof imm pm)) : StoreWordEnds s f (.prof imm pm) :=
  have e : execProf imm pm s = _ := storeWord_fires h (by rfl) _
  goodTags_ends (k0 := .prof imm.toNat ((portD s f .l).val.toNat % 2 ^ 32)) e rfl fun _ hf => ⟨Bool.eq_false_iff.mp hf.1, hf.2⟩

theorem kvgrow_ends {t0 : Tgt} {ta : TA} {pm : Pm} (h : Fires s f (.kvgrow t0 ta pm)) : StoreWordEnds s f (.kvgrow t0 ta pm) := by
  have e : execKvgrow t0 ta pm s = _ := storeWord_fires h (by rfl) _
  simp only [portD_popLane, taskD_popLane, growable_popLane, request_popLane] at e
  refine ⟨fun k hk => e.trans ?_, fun flt hf => e.trans ?_⟩
  · simp only [requestOf, Option.ite_none_right_eq_some, Option.some.injEq] at hk
    obtain ⟨⟨h1, h2, h3⟩, rfl⟩ := hk
    simp [h1, h2, h3]
  · rcases hf with ⟨h1, rfl⟩ | ⟨h1, h2, rfl⟩ | ⟨h1, h2, h3, rfl⟩
    · simp [h1]
    · simp [h1, h2]
    · simp [h1, h2, h3]

/-- Every store-class word that translates no address ends so when it fires. -/
theorem storeWord_ends (h : Fires s f i) (hw : (∃ k, requestOf s f i = some k) ∨ ∃ flt, CheckFails s f i flt) :
    StoreWordEnds s f i := by
  cases i with
  | trap => exact trap_ends h
  | bkpt => exact bkpt_ends h
  | fence => exact fence_ends h
  | lst => exact lst_ends h
  | lamo => exact lamo_ends h
  | fes => exact fes_ends h
  | binit => exact binit_ends h
  | barr => exact barr_ends h
  | free => exact free_ends h
  | rels => exact rels_ends h
  | cp => exact cp_ends h
  | cpg => exact cpg_ends h
  | cps => exact cps_ends h
  | pset => exact pset_ends h
  | cpp => exact cpp_ends h
  | wload => exact wload_ends h
  | wmma => exact wmma_ends h
  | cvtt => exact cvtt_ends h
  | ref => exact ref_ends h
  | drop => exact drop_ends h
  | launch => exact launch_ends h
  | cancel => exact cancel_ends h
  | kvgrow => exact kvgrow_ends h
  | syswr => exact syswr_ends h
  | prof => exact prof_ends h
  | _ => rcases hw with ⟨_, hk⟩ | ⟨_, hf⟩ <;> contradiction

end Sys2Proof.Machine

open Sys2Proof.Machine in
/-- Settles O19: each word's request and faults, word by word. -/
theorem storeWordRequests : Obligations.StoreWordRequests :=
  ⟨fun _ _ _ k h hk => (storeWord_ends h (.inl ⟨k, hk⟩)).requests k hk,
    fun _ _ _ flt h hf => (storeWord_ends h (.inr ⟨flt, hf⟩)).faults flt hf⟩

namespace Sys2Proof.Machine

variable {s : State}

/-! ### What counters and device writes leave as it is (R225, R247, R262) -/

/-- A hardware event changes counters alone. -/
theorem perfPane_eq (s : State) (pane ev n : Nat) : ∃ r, perfPane s pane ev n = { s with sr := r } := by
  refine List.foldlRecOn (motive := fun a => ∃ r, a = { s with sr := r }) _ _ ⟨s.sr, rfl⟩ fun a ⟨r, ha⟩ k _ => ?_
  subst ha
  unfold perfBump
  split
  · exact ⟨r, rfl⟩
  · exact ⟨_, rfl⟩

theorem perfPane_keeps {β : Type} (p : State → β) (h : ∀ s r, p { s with sr := r } = p s) (s : State) (pane ev n : Nat) :
    p (perfPane s pane ev n) = p s := by
  obtain ⟨r, hr⟩ := perfPane_eq s pane ev n
  rw [hr, h]

theorem devPut_keeps {β : Type} (p : State → β) (h : ∀ s g, p { s with gm := g } = p s) (s : State) (vi va : Nat) (b : Byte) :
    p (devPut s vi va b) = p s := by
  unfold devPut
  split
  · exact h _ _
  · rfl

theorem devPutAll_keeps {β : Type} (p : State → β) (h : ∀ s g, p { s with gm := g } = p s) (bs : List Byte) :
    ∀ (s : State) (vi va : Nat), p (devPutAll s vi va bs) = p s := by
  induction bs with
  | nil => exact fun _ _ _ => rfl
  | cons b t ih => exact fun s vi va => (ih _ _ _).trans (devPut_keeps p h s vi va b)

theorem devTouch_keeps {β : Type} (p : State → β) (h : ∀ s g, p { s with gm := g } = p s) (s : State) (vi va n : Nat) :
    p (devTouch s vi va n) = p s := by
  unfold devTouch
  rw [foldl_keeps p fun a b => touchAt_keeps p h a vi b]
  split
  · rfl
  · exact touchAt_keeps p h _ _ _

/-- A device write changes global memory alone. -/
theorem devStore_keeps {β : Type} (p : State → β) (h : ∀ s g, p { s with gm := g } = p s) (s : State) (vi va : Nat)
    (bs : List Byte) : p (devStore s vi va bs) = p s :=
  (devPutAll_keeps p h _ _ _ _).trans (devTouch_keeps p h _ _ _ _)

/-! ### Tokens that change their place (R21, R221, R223) -/

/-- A token's move to another place changes its entry in the list of tokens, and the bookkeeping of the memories. -/
theorem putTok_keeps {β : Type} (p : State → β)
    (h : ∀ s g l b t, p { s with gm := g, ls := l, bt := b, wk := { s.wk with toks := t } } = p s) (s : State) (e : TokEntry)
    (q : TokPlace) : p (putTok s e q) = p s := by
  have read : p (readTok s e).1 = p s := by
    unfold readTok
    split
    · exact readCheck_keeps p (fun s g l b => h s g l b s.wk.toks) s _
    · rfl
  exact (h _ _ _ _ _).trans read

/-- The tokens after a move: the entry in its new place, the others as they were. -/
theorem putTok_toks (s : State) (e : TokEntry) (q : TokPlace) : (putTok s e q).wk.toks = s.wk.toks.map fun x =>
    if x = e then { x with place := q, msg := { x.msg with tok := (readTok s e).2 } } else x := by
  have read : (readTok s e).1.wk.toks = s.wk.toks := by
    unfold readTok
    split
    · exact readCheck_keeps (fun a => a.wk.toks) (fun _ _ _ _ => rfl) s _
    · rfl
  unfold putTok
  rw [← read]

theorem storeSpill_keeps {β : Type} (p : State → β) (h : ∀ s g l r, p { s with gm := g, ls := l, sr := r } = p s) (s : State)
    (t : Task) (m : TokMsg) (q : TokPlace) : p (storeSpill s t m q) = p s := by
  have count (a : State) (pane ev n : Nat) : p (perfPane a pane ev n) = p a :=
    perfPane_keeps p (fun a r => h a a.gm a.ls r) a pane ev n
  have bytes (a : State) (l : Option GLoc) (ha : a = match l with
      | some (.here g) => setLocBytes s 0 ((List.range 16).map (Config.tokenByte s.nd)) (.here g)
      | some (.copy vi va _) => devStore s vi va ((List.range 16).map (Config.tokenByte s.nd))
      | none => s) : p a = p s := by
    subst ha
    split
    · exact h s s.gm _ s.sr
    · exact devStore_keeps p (fun a g => h a g a.ls a.sr) s _ _ _
    · rfl
  dsimp only [storeSpill]
  split
  · exact bytes _ (placeLoc s t .store) rfl
  · exact bytes _ (placeLoc s t (.spill (.ovp _))) rfl
  · exact (count _ _ _ _).trans (bytes _ (placeLoc s t q) rfl)

/-- What an arrival leaves: no task, instance or message changes, no token is lost, and those in the matching store stay. -/
structure ToksStand (s u : State) : Prop where
  insts : u.wk.insts = s.wk.insts
  tasks : u.wk.tasks = s.wk.tasks
  net : u.net = s.net
  length : u.wk.toks.length = s.wk.toks.length
  stored : ∀ y ∈ s.wk.toks, y.place = .store → y ∈ u.wk.toks

theorem ToksStand.refl (s : State) : ToksStand s s := ⟨rfl, rfl, rfl, rfl, fun _ h _ => h⟩

theorem ToksStand.trans {s t u : State} (a : ToksStand s t) (b : ToksStand t u) : ToksStand s u :=
  ⟨b.insts.trans a.insts, b.tasks.trans a.tasks, b.net.trans a.net, b.length.trans a.length,
    fun y h p => b.stored y (a.stored y h p) p⟩

theorem putTok_stand (s : State) (e : TokEntry) (he : e.place ≠ .store) (q : TokPlace) : ToksStand s (putTok s e q) where
  insts := putTok_keeps (fun a => a.wk.insts) (fun _ _ _ _ _ => rfl) s e q
  tasks := putTok_keeps (fun a => a.wk.tasks) (fun _ _ _ _ _ => rfl) s e q
  net := putTok_keeps State.net (fun _ _ _ _ _ => rfl) s e q
  length := by rw [putTok_toks, List.length_map]
  stored y hy hp := by
    rw [putTok_toks, List.mem_map]
    refine ⟨y, hy, if_neg ?_⟩
    rintro rfl
    exact he hp

theorem restoreTok_stand (s : State) (e : TokEntry) (he : e.place ≠ .store) : ToksStand s (restoreTok s e) := by
  unfold restoreTok
  split
  · exact putTok_stand s e he .store
  · exact .refl s

theorem foldl_stand {g : State → TokEntry → State} (hg : ∀ s e, e.place ≠ .store → ToksStand s (g s e)) (s : State)
    {es : List TokEntry} (hes : ∀ e ∈ es, e.place ≠ .store) : ToksStand s (es.foldl g s) :=
  List.foldlRecOn (motive := ToksStand s) _ _ (.refl s) fun a ha e he => ha.trans (hg a e (hes e he))

theorem partners_place {f : Firing} {e : TokEntry} (h : e ∈ partners s f) : e.place ≠ .store := by
  have := (List.mem_filter.mp h).2
  simp only [Bool.and_eq_true, decide_eq_true_eq] at this
  exact this.2

theorem markReady_stand (s : State) (f : Firing) : ToksStand s (markReady s f) := by
  unfold markReady
  split
  · exact .refl s
  · exact ⟨rfl, rfl, rfl, rfl, fun _ h _ => h⟩

theorem markReady_ready (s : State) (f : Firing) : ∃ r ∈ (markReady s f).wk.ready, r.f = f := by
  unfold markReady
  split
  next h => simpa using h
  next => exact ⟨⟨f, s.clk.cycle, false⟩, by simp, rfl⟩

theorem markReady_toks (s : State) (f : Firing) : (markReady s f).wk.toks = s.wk.toks := by
  unfold markReady
  split <;> rfl

theorem markReady_mem (s : State) (f : Firing) : MemFrame s (markReady s f) := by
  unfold markReady
  split
  · exact .of_eq rfl rfl
  · exact .of_eq rfl rfl

/-- The check of a word's ports: nothing, or the word is ready and its partners are back. -/
theorem checkReady_cases (s : State) (f : Firing) : checkReady s f = s ∨
    checkReady s f = markReady ((partners s f).foldl (fun a e => putTok a e .store) s) f := by
  unfold checkReady
  split
  · split
    · exact .inr rfl
    · exact .inl rfl
  · exact .inl rfl

theorem checkReady_stand (s : State) (f : Firing) : ToksStand s (checkReady s f) := by
  rcases checkReady_cases s f with h | h <;> rw [h]
  · exact .refl s
  · exact (foldl_stand (fun a e he => putTok_stand a e he .store) s fun e he => partners_place he).trans (markReady_stand _ f)

/-- A word without partners: no token moves. -/
theorem checkReady_alone {f : Firing} (h : partners s f = []) :
    (checkReady s f).wk.toks = s.wk.toks ∧ MemFrame s (checkReady s f) := by
  rcases checkReady_cases s f with e | e <;> rw [e]
  · exact ⟨rfl, .of_eq rfl rfl⟩
  · rw [h]
    exact ⟨markReady_toks s f, markReady_mem s f⟩

/-- Partners that are all put into the matching store lie there. -/
theorem partners_back (f : Firing) (es : List TokEntry) : ∀ s : State,
    (∀ y ∈ s.wk.toks, sameWord y f = true → y.place ≠ .store → y ∈ es) →
    ∀ y ∈ (es.foldl (fun a e => putTok a e .store) s).wk.toks, sameWord y f = true → y.place = .store := by
  induction es with
  | nil => exact fun s h y hy hw => by_contra fun hp => List.not_mem_nil (h y hy hw hp)
  | cons e es ih =>
    refine fun s h => ih (putTok s e .store) fun y hy hw hp => ?_
    rw [putTok_toks, List.mem_map] at hy
    obtain ⟨x, hx, rfl⟩ := hy
    split at hw
    next hxe => exact absurd rfl (by rwa [if_pos hxe] at hp)
    next hxe =>
      rw [if_neg hxe] at hp ⊢
      exact (List.mem_cons.mp (h x hx hw hp)).resolve_left hxe

theorem checkReady_full {f : Firing} {i : Instr} (hi : instrAt s f.tid f.block f.slot = some i) (hc : canFire s f i = true)
    (hw : waiting s f = false) (hp : Instr.firePorts i ≠ []) :
    (∀ y ∈ (checkReady s f).wk.toks, sameWord y f = true → y.place = .store) ∧ ∃ r ∈ (checkReady s f).wk.ready, r.f = f := by
  have e : checkReady s f = markReady ((partners s f).foldl (fun a e => putTok a e .store) s) f := by
    unfold checkReady
    rw [hi]
    exact if_pos (by simp [hc, hw, hp])
  rw [e, markReady_toks]
  refine ⟨partners_back f _ s fun y hy hw hp => List.mem_filter.mpr ⟨hy, ?_⟩, markReady_ready _ f⟩
  simp [hw, hp]

/-! ### Arrival of a token (R21, R23, R65, R89, R223, R298) -/

/-- The state in which an arriving token lies in the matching store. -/
def tokStored (s : State) (m : TokMsg) : State :=
  { s with wk := { s.wk with toks := s.wk.toks ++ [⟨m, s.clk.cycle, .store⟩] } }

/-- The count of a match changes counters alone. -/
theorem countMatch_eq (s : State) (t : Task) (m : TokMsg) : ∃ r, countMatch s t m = { s with sr := r } := by
  dsimp only [countMatch]
  split
  · split
    · exact perfPane_eq s _ _ _
    · exact ⟨s.sr, rfl⟩
  · exact ⟨s.sr, rfl⟩

theorem partners_tokStored (s : State) (m : TokMsg) (f : Firing) : partners (tokStored s m) f = partners s f := by
  simp [partners, tokStored]

section
variable {t : Task} {x : Inst} {m : TokMsg}

theorem keepToken_room (h : storeCount s (cellOf s t m.block m.slot) < 256) : keepToken s t m = tokStored s m := if_pos h

theorem keepToken_full {p : TokPlace} (h : ¬ storeCount s (cellOf s t m.block m.slot) < 256)
    (hp : overflowPlace s t m = some p) : keepToken s t m =
      storeSpill { s with wk := { s.wk with toks := s.wk.toks ++ [⟨m, s.clk.cycle, p⟩] } } t m p := by
  rw [keepToken, if_neg h, hp]

/-- A token for which no place is left faults in the live instance that it is for. -/
theorem keepToken_lost (h : ¬ storeCount s (cellOf s t m.block m.slot) < 256) (hp : overflowPlace s t m = none)
    (ht : t.stopped = false) (hx : instAt s m.tid m.iter = some x) (hb : x.block = m.block) : keepToken s t m =
      raise (if (instAt s m.tid m.src).isSome then s else repost s (.tokenArrive m)) m.tid m.iter m.slot ⟨.stackLimit, 0⟩ := by
  rw [keepToken, if_neg h, hp]
  simp [tokenLost, ht, hx, hb]

theorem overflowPlace_ne_store {p : TokPlace} (h : overflowPlace s t m = some p) : p ≠ .store := by
  rintro rfl
  dsimp only [overflowPlace] at h
  split at h
  · simp at h
  · split at h
    · simp at h
    · simp at h

theorem placeToken_complete {i : Instr} (hi : instrAt s m.tid m.block m.slot = some i)
    (hc : canFire (tokStored s m) ⟨m.tid, m.iter, m.block, m.slot⟩ i = true) :
    placeToken s t m = checkReady (tokStored s m) ⟨m.tid, m.iter, m.block, m.slot⟩ := by
  dsimp only [placeToken]
  rw [hi]
  exact if_pos hc

/-- A token that does not complete its word. -/
theorem placeToken_more (h : ∀ i, instrAt s m.tid m.block m.slot = some i →
      canFire (tokStored s m) ⟨m.tid, m.iter, m.block, m.slot⟩ i = false) :
    placeToken s t m = if storeCount s (cellOf s t m.block m.slot) < 256 then
      checkReady ((partners s ⟨m.tid, m.iter, m.block, m.slot⟩).foldl restoreTok (tokStored s m)) ⟨m.tid, m.iter, m.block, m.slot⟩
      else keepToken s t m := by
  dsimp only [placeToken]
  cases hi : instrAt s m.tid m.block m.slot with
  | none => rfl
  | some i => exact if_neg (Bool.eq_false_iff.mp (h i hi))

/-- A token that finds room, in the matching store or with its word's last token, waits there. -/
theorem placeToken_stand (h : storeCount s (cellOf s t m.block m.slot) < 256 ∨ ∃ i, instrAt s m.tid m.block m.slot = some i ∧
      canFire (tokStored s m) ⟨m.tid, m.iter, m.block, m.slot⟩ i = true) :
    ToksStand (tokStored s m) (placeToken s t m) ∧ (partners s ⟨m.tid, m.iter, m.block, m.slot⟩ = [] →
      (placeToken s t m).wk.toks = (tokStored s m).wk.toks ∧ MemFrame (tokStored s m) (placeToken s t m)) := by
  by_cases hc : ∃ i, instrAt s m.tid m.block m.slot = some i ∧
      canFire (tokStored s m) ⟨m.tid, m.iter, m.block, m.slot⟩ i = true
  · obtain ⟨i, hi, hc⟩ := hc
    rw [placeToken_complete hi hc]
    exact ⟨checkReady_stand _ _, fun hp => checkReady_alone ((partners_tokStored s m _).trans hp)⟩
  · rw [placeToken_more fun i hi => Bool.eq_false_iff.mpr fun e => hc ⟨i, hi, e⟩, if_pos (h.resolve_right hc)]
    constructor
    · exact (foldl_stand restoreTok_stand _ fun e he => partners_place he).trans (checkReady_stand _ _)
    · intro hp
      rw [hp]
      exact checkReady_alone ((partners_tokStored s m _).trans hp)

/-- The port that a token is for holds one already (R89). -/
def portTaken (s : State) (m : TokMsg) : Bool :=
  s.wk.toks.any fun e => e.msg.tid = m.tid && e.msg.iter = m.iter && e.msg.block = m.block && e.msg.slot = m.slot
    && e.msg.port = m.port

theorem portTaken_iff : portTaken s m = true ↔ ∃ y ∈ s.wk.toks, y.msg.tid = m.tid ∧ y.msg.iter = m.iter ∧
    y.msg.block = m.block ∧ y.msg.slot = m.slot ∧ y.msg.port = m.port := by
  simp only [portTaken, List.any_eq_true, Bool.and_eq_true, decide_eq_true_eq, and_assoc]

theorem tokenArrive_none (h : taskAt s m.tid = none) : tokenArrive s m = s := by
  unfold tokenArrive
  rw [h]

theorem tokenArrive_marked (h : taskAt s m.tid = some t) (hm : markedAt s t.graph (cellOf s t m.block m.slot) = true) :
    tokenArrive s m = repost s (.tokenArrive m) := by
  unfold tokenArrive
  rw [h]
  exact if_pos hm

/-- A token that is no L of a RED arrives for an iteration that lives. -/
theorem tokenArrive_live (h : taskAt s m.tid = some t) (hm : markedAt s t.graph (cellOf s t m.block m.slot) = false)
    (hr : ¬ ∃ g k, instrAt s m.tid m.block m.slot = some (.red g k) ∧ m.port = .l) (hx : instAt s m.tid m.iter = some x) :
    tokenArrive s m = if x.block ≠ m.block then keepToken s t m
      else if portTaken s m || x.fired.contains m.slot then raise s m.tid m.iter m.slot ⟨.blockBad, 0⟩
      else placeToken (countMatch s t m) t m := by
  unfold tokenArrive
  simp only [h, hm, Bool.false_eq_true, if_false]
  split
  next g k hi hl => exact absurd ⟨g, k, hi, hl⟩ hr
  next => rw [hx]; rfl

/-- A token that is no L of a RED arrives for an iteration that does not live. -/
theorem tokenArrive_early (h : taskAt s m.tid = some t) (hm : markedAt s t.graph (cellOf s t m.block m.slot) = false)
    (hr : ¬ ∃ g k, instrAt s m.tid m.block m.slot = some (.red g k) ∧ m.port = .l) (hx : instAt s m.tid m.iter = none) :
    tokenArrive s m = if addressPast s m then s else placeToken (if portTaken s m then s else countMatch s t m) t m := by
  unfold tokenArrive
  simp only [h, hm, Bool.false_eq_true, if_false]
  split
  next g k hi hl => exact absurd ⟨g, k, hi, hl⟩ hr
  next => rw [hx]; rfl

/-- What an arriving token leaves that finds its place with its word. -/
structure TokArrived (s u : State) (m : TokMsg) : Prop where
  entry : ⟨m, s.clk.cycle, .store⟩ ∈ u.wk.toks
  length : u.wk.toks.length = s.wk.toks.length + 1
  alone : partners s ⟨m.tid, m.iter, m.block, m.slot⟩ = [] →
    u.wk.toks = s.wk.toks ++ [⟨m, s.clk.cycle, .store⟩] ∧ MemFrame s u
  insts : u.wk.insts = s.wk.insts
  tasks : u.wk.tasks = s.wk.tasks
  net : u.net = s.net

theorem placeToken_arrived (r : Sr) (h : storeCount s (cellOf s t m.block m.slot) < 256 ∨
      ∃ i, instrAt s m.tid m.block m.slot = some i ∧
        canFire (tokStored s m) ⟨m.tid, m.iter, m.block, m.slot⟩ i = true) :
    TokArrived s (placeToken { s with sr := r } t m) m := by
  obtain ⟨st, al⟩ := placeToken_stand (s := { s with sr := r }) (t := t) h
  have stored : (tokStored { s with sr := r } m).wk.toks = s.wk.toks ++ [⟨m, s.clk.cycle, .store⟩] := rfl
  refine ⟨st.stored _ ?_ rfl, ?_, fun hp => ?_, st.insts, st.tasks, st.net⟩
  · simp [stored]
  · simp [st.length, stored]
  · obtain ⟨toks, mem⟩ := al hp
    exact ⟨toks, mem.hbm, mem.global, mem.store, mem.granules⟩

end

end Sys2Proof.Machine

open Sys2Proof.Machine in
/-- Settles O30, by the cases of an arrival: `TokArrived` where the token finds its place with its word, the frame, the spill
or the fault of `keepToken` where the store is full. -/
theorem tokensArrive : Obligations.TokensArrive := by
  unfold Obligations.TokensArrive
  intro s m e f entry isRed taken marked room complete
  have run : exec e s = .next (tokenArrive s m) := rfl
  have htaken : taken ↔ portTaken s m = true := portTaken_iff.symm
  have full : ¬ complete → ∀ i, instrAt s m.tid m.block m.slot = some i → canFire (tokStored s m) f i = false :=
    fun hc i hi => Bool.eq_false_iff.mpr fun h => hc ⟨i, hi, h⟩
  refine ⟨?gone, ?behind, ?live, ?early⟩
  case gone => exact fun h => run.trans (congrArg _ (tokenArrive_none h))
  case behind => exact fun t ht hm => run.trans (congrArg _ (tokenArrive_marked ht hm))
  case live =>
    intro t x ht hm hr hx
    have hlive := tokenArrive_live ht hm hr hx
    have hplace (hb : x.block = m.block) (htk : ¬ taken) (hf : m.slot ∉ x.fired) :
        tokenArrive s m = placeToken (countMatch s t m) t m := by
      rw [hlive, if_neg (not_not.mpr hb), if_neg (by simp [← htaken, htk, hf])]
    obtain ⟨r, hcount⟩ := countMatch_eq s t m
    have hkeep (hb : x.block = m.block) (htk : ¬ taken) (hf : m.slot ∉ x.fired) (hroom : ¬ room t) (hc : ¬ complete) :
        tokenArrive s m = keepToken (countMatch s t m) t m := by
      rw [hplace hb htk hf, placeToken_more (by rw [hcount]; exact full hc)]
      exact if_neg (by rw [hcount]; exact hroom)
    refine ⟨?other, ?second, ?placed, ?spilled, ?lost⟩
    case other =>
      intro hb hroom
      rw [run, hlive, if_pos hb, keepToken_room hroom]
      rfl
    case second =>
      intro hb h
      rw [run, hlive, if_neg (not_not.mpr hb), if_pos]
      simpa [htaken] using h
    case placed =>
      intro hb htk hf h
      rw [run, hplace hb htk hf, hcount]
      have ok := placeToken_arrived (t := t) r h
      refine ⟨_, rfl, ok.entry, ok.length, ok.alone, ok.insts, ok.tasks, ok.net, fun i hi hp hw hc => ?_⟩
      rw [placeToken_complete (s := { s with sr := r }) hi hc]
      exact checkReady_full (s := tokStored { s with sr := r } m) hi hc hw hp
    case spilled =>
      intro p hb htk hf hroom hc hp
      rw [run, hkeep hb htk hf hroom hc, keepToken_full (by rw [hcount]; exact hroom) hp, hcount]
      exact ⟨_, rfl, storeSpill_keeps (fun a => a.wk.toks) (fun _ _ _ _ => rfl) _ t m p, overflowPlace_ne_store hp,
        storeSpill_keeps (fun a => a.wk.insts) (fun _ _ _ _ => rfl) _ t m p,
        storeSpill_keeps (fun a => a.wk.tasks) (fun _ _ _ _ => rfl) _ t m p,
        storeSpill_keeps State.net (fun _ _ _ _ => rfl) _ t m p⟩
    case lost =>
      intro hb htk hf hroom hc hst hp
      have hx' : instAt (countMatch s t m) m.tid m.iter = some x := by rw [hcount]; exact hx
      rw [run, hkeep hb htk hf hroom hc, keepToken_lost (by rw [hcount]; exact hroom) hp hst hx' hb]
      rw [hcount]
      rfl
  case early =>
    intro t ht hm hr hx
    have hearly := tokenArrive_early ht hm hr hx
    refine ⟨?past, ?waits⟩
    case past => exact fun hp => run.trans (congrArg _ (hearly.trans (if_pos hp)))
    case waits =>
      intro hp hroom
      obtain ⟨r, hcount⟩ : ∃ r, (if portTaken s m = true then s else countMatch s t m) = { s with sr := r } := by
        split
        · exact ⟨s.sr, rfl⟩
        · exact countMatch_eq s t m
      rw [run, hearly, if_neg (by simp [hp]), hcount]
      have ok := placeToken_arrived (t := t) r (.inl hroom)
      exact ⟨_, rfl, ok.entry, ok.insts, ok.tasks, ok.net⟩

namespace Sys2Proof.Machine

/-! ### Tables under a view of their entries -/

section Tables
variable {α β : Type}

/-- A table seen through a view of its entries. -/
def tview (g : α → β) (t : Table α) : Table β := t.map fun e => (e.1, g e.2)

theorem tget_tview (g : α → β) (t : Table α) (k : Nat) : tget (tview g t) k = (tget t k).map g := by
  induction t with
  | nil => rfl
  | cons e t ih =>
    simp only [tview, List.map_cons, tget]
    split
    · rfl
    · split
      · rfl
      · exact ih

/-- A change of an entry that a view does not show. -/
theorem tview_tmod {g : α → β} {t : Table α} {k : Nat} {f : α → α} (h : ∀ v, g (f v) = g v) :
    tview g (tmod t k f) = tview g t := by
  have put (v : α) : ∀ t : Table α, tget t k = some v → tview g (tput t k (f v)) = tview g t := by
    intro t
    induction t with
    | nil => exact fun h => nomatch h
    | cons e t ih =>
      obtain ⟨j, w⟩ := e
      intro hv
      simp only [tget] at hv
      simp only [tput]
      split at hv
      next he =>
        obtain rfl : w = v := Option.some.inj hv
        simp [he, tview, h]
      next hne =>
        rw [Option.ite_none_left_eq_some] at hv
        rw [if_neg hv.1, if_neg hne]
        exact congrArg (List.cons (j, g w)) (ih hv.2)
  unfold tmod
  split
  next v hv => exact put v t hv
  next => rfl

theorem keys_tview (g : α → β) (t : Table α) : (tview g t).map Prod.fst = t.map Prod.fst := by
  simp [tview, Function.comp_def]

theorem keys_tmod (t : Table α) (k : Nat) (f : α → α) : (tmod t k f).map Prod.fst = t.map Prod.fst := by
  rw [← keys_tview (fun _ => ()) (tmod t k f), tview_tmod (f := f) fun _ => rfl, keys_tview]

/-- A key that no entry has. -/
theorem tget_eq_none {t : Table α} {k : Nat} (h : k ∉ t.map Prod.fst) : tget t k = none := by
  rw [Option.eq_none_iff_forall_ne_some]
  exact fun v hv => h (List.mem_map_of_mem (f := Prod.fst) (mem_of_tget hv))

/-- Removing an entry of a sorted table leaves no entry of its key. -/
theorem key_tdel {t : Table α} {k : Nat} (h : tsorted none t = true) : k ∉ (tdel t k).map Prod.fst := by
  induction t with
  | nil => simp [tdel]
  | cons e t ih =>
    obtain ⟨j, w⟩ := e
    rw [tsorted_iff_pairwise, List.map_cons, List.pairwise_cons, ← tsorted_iff_pairwise] at h
    obtain ⟨above, ht⟩ := h
    simp only [tdel]
    split
    next hk =>
      rw [List.map_cons, List.mem_cons, not_or]
      exact ⟨by omega, fun hm => by have := above k hm; omega⟩
    · split
      next hk _ => exact fun hm => by have := above k hm; omega
      next hk hne =>
        rw [List.map_cons, List.mem_cons, not_or]
        exact ⟨hne, ih ht⟩

end Tables

/-! ### What the allocator and a discard leave of tasks, instances and futures (R17, R19, R39, R178, R231 to R239) -/

/-- What is fixed for a task while it lives: its future, and whether a SPAWN started it. -/
def Task.fixed (t : Task) : Nat × Bool := (t.fut, t.spawned)

/-- The registers but g61, which takes flags at any time (R209). -/
def Task.values (t : Task) (r : Nat) : Token := if r = 61 then nullTok else regOf t r

/-- No task starts, ends or changes what is fixed for it, no instance and no SPAWN starts, an EXIT that is on its way stays so,
and the futures are as they were where task `tid` has no SPAWN under way. -/
structure Stands (tid : Nat) (s₀ s : State) : Prop where
  fixed : tview Task.fixed s.wk.tasks = tview Task.fixed s₀.wk.tasks
  insts : ∀ k ∈ s.wk.insts.map Prod.fst, k ∈ s₀.wk.insts.map Prod.fst
  births : ∀ f ∈ s.wk.births.map Birth.f, f ∈ s₀.wk.births.map Birth.f
  futs : (∀ f ∈ s₀.wk.births.map Birth.f, f.tid ≠ tid) → s.wk.futs = s₀.wk.futs
  exits : ∀ m, .futureExitArrive m ∈ s₀.net → .futureExitArrive m ∈ s.net

/-- Besides, no register but g61 changes. -/
structure StandsRegs (tid : Nat) (s₀ s : State) : Prop extends Stands tid s₀ s where
  values : tview Task.values s.wk.tasks = tview Task.values s₀.wk.tasks

variable {tid : Nat} {s₀ s u : State}

theorem StandsRegs.refl (tid : Nat) (s : State) : StandsRegs tid s s :=
  ⟨⟨rfl, fun _ h => h, fun _ h => h, fun _ => rfl, fun _ h => h⟩, rfl⟩

theorem Stands.trans (a : Stands tid s₀ s) (b : Stands tid s u) : Stands tid s₀ u where
  fixed := b.fixed.trans a.fixed
  insts k h := a.insts k (b.insts k h)
  births f h := a.births f (b.births f h)
  futs h := (b.futs fun f hf => h f (a.births f hf)).trans (a.futs h)
  exits m h := b.exits m (a.exits m h)

theorem StandsRegs.trans (a : StandsRegs tid s₀ s) (b : StandsRegs tid s u) : StandsRegs tid s₀ u :=
  ⟨a.toStands.trans b.toStands, b.values.trans a.values⟩

/-- A change of the state in parts of which `StandsRegs` does not speak. -/
theorem StandsRegs.of_parts (h : StandsRegs tid s₀ s) (ht : u.wk.tasks = s.wk.tasks)
    (hi : u.wk.insts.map Prod.fst = s.wk.insts.map Prod.fst) (hb : u.wk.births.map Birth.f = s.wk.births.map Birth.f)
    (hf : u.wk.futs = s.wk.futs) (hn : ∀ m, .futureExitArrive m ∈ s.net → .futureExitArrive m ∈ u.net) :
    StandsRegs tid s₀ u :=
  ⟨⟨ht ▸ h.fixed, hi ▸ h.insts, hb ▸ h.births, fun q => hf.trans (h.futs q), fun m q => hn m (h.exits m q)⟩, ht ▸ h.values⟩

/-- A change of the state outside the work, with messages added. -/
theorem StandsRegs.of_wk (h : StandsRegs tid s₀ s) (hw : u.wk = s.wk)
    (hn : ∀ m, .futureExitArrive m ∈ s.net → .futureExitArrive m ∈ u.net) : StandsRegs tid s₀ u :=
  h.of_parts (by rw [hw]) (by rw [hw]) (by rw [hw]) (by rw [hw]) hn

theorem post_stands (h : StandsRegs tid s₀ s) (ms : List Instr) : StandsRegs tid s₀ (post s ms) :=
  h.of_wk rfl fun _ hm => List.mem_append_left _ hm

/-- A change of a task that keeps its registers but g61. -/
theorem modTask_stands (h : StandsRegs tid s₀ s) {k : Nat} {f : Task → Task} (hf : ∀ t, (f t).fixed = t.fixed)
    (hv : ∀ t, (f t).values = t.values) : StandsRegs tid s₀ (modTask s k f) :=
  ⟨⟨(tview_tmod hf).trans h.fixed, h.insts, h.births, h.futs, h.exits⟩, (tview_tmod hv).trans h.values⟩

theorem modInst_stands (h : StandsRegs tid s₀ s) (t i : Nat) (f : Inst → Inst) : StandsRegs tid s₀ (modInst s t i f) :=
  h.of_parts rfl (keys_tmod _ _ _) rfl rfl fun _ hm => hm

theorem foldl_stands {α : Type} {f : State → α → State} {l : List α}
    (hf : ∀ s, ∀ a ∈ l, StandsRegs tid s₀ s → StandsRegs tid s₀ (f s a)) (h : StandsRegs tid s₀ s) :
    StandsRegs tid s₀ (l.foldl f s) :=
  List.foldlRecOn (motive := StandsRegs tid s₀) _ _ h fun s h a ha => hf s a ha h

theorem ite_stands {c : Prop} [Decidable c] {v : State} (hu : StandsRegs tid s₀ u) (hv : StandsRegs tid s₀ v) :
    StandsRegs tid s₀ (if c then u else v) := by
  split
  exacts [hu, hv]

/-! #### Granules -/

theorem devPut_stands (h : StandsRegs tid s₀ s) (vi va : Nat) (b : Byte) : StandsRegs tid s₀ (devPut s vi va b) :=
  h.of_wk (devPut_keeps State.wk (fun _ _ => rfl) s vi va b) fun _ hm =>
    (devPut_keeps State.net (fun _ _ => rfl) s vi va b).symm ▸ hm

theorem setLocState_stands (h : StandsRegs tid s₀ s) (v : Nat) (l : GLoc) : StandsRegs tid s₀ (setLocState s v l) := by
  cases l with
  | here g => exact ite_stands (h.of_wk rfl fun _ hm => hm) (h.of_wk rfl fun _ hm => hm)
  | copy vi d st => exact devPut_stands h _ _ _

theorem setLocField_stands (h : StandsRegs tid s₀ s) (l : GLoc) (lo w v : Nat) : StandsRegs tid s₀ (setLocField s l lo w v) :=
  setLocState_stands h _ _

theorem dropHalf_stands (h : StandsRegs tid s₀ s) (src : Option Nat) (l : GLoc) (n : Nat) :
    StandsRegs tid s₀ (dropHalf src s l n) :=
  ite_stands (setLocField_stands (post_stands h _) _ _ _ _) h

theorem freeGranule_stands (h : StandsRegs tid s₀ s) (l : GLoc) : StandsRegs tid s₀ (freeGranule s l) := by
  have h2 := setLocState_stands (dropHalf_stands (dropHalf_stands h none l 0) none l 1) 0 l
  dsimp only [freeGranule]
  split
  · exact h2.of_wk rfl fun _ hm => hm
  · exact h2

theorem clearGranules_stands (h : StandsRegs tid s₀ s) (pane : Nat) (e : Nat × Nat) :
    StandsRegs tid s₀ (clearGranules s pane e) :=
  foldl_stands (fun _ _ _ h => h.of_wk rfl fun _ hm => hm) h

/-! #### Grants (R231 to R236) -/

theorem fireSend_stands (h : StandsRegs tid s₀ s) (f : Firing) (i : Instr) (a b : Token) (fl : FlagSet) :
    StandsRegs tid s₀ (fireSend s f i a b fl) := post_stands (modInst_stands h _ _ _) _

theorem deliverHandle_stands (h : StandsRegs tid s₀ s) (f : Firing) (key : Nat) :
    StandsRegs tid s₀ (deliverHandle s f key) := by
  dsimp only [deliverHandle]
  split
  · refine fireSend_stands (modInst_stands ?_ _ _ _) _ _ _ _ _
    exact h.of_parts rfl rfl rfl rfl fun _ hm => hm
  · exact h

theorem grant_stands (h : StandsRegs tid s₀ s) (k : Nat) (r : AllocReq) (e1 e2 : Nat × Nat) :
    StandsRegs tid s₀ (grant s k r e1 e2) := by
  unfold grant
  extract_lets a s0 cleared _ s1 rec0
  split
  · exact h
  next key more _ =>
    have h0 : StandsRegs tid s₀ s0 := h.of_wk rfl fun _ hm => hm
    have h1 : StandsRegs tid s₀ s1 :=
      (clearGranules_stands (clearGranules_stands h0 _ e1) _ e2).of_wk rfl fun _ hm => hm
    have h2 : StandsRegs tid s₀ (setRec s1 key rec0) := h1.of_wk rfl fun _ hm => hm
    split
    · exact deliverHandle_stands h2 _ _
    · split
      · exact h
      · exact h2.of_wk rfl fun _ hm => hm
    · split
      · exact h
      · refine h2.of_parts rfl rfl ?_ rfl fun _ hm => hm
        dsimp only [setRec]
        rw [List.map_map]
        refine List.map_congr_left fun b _ => ?_
        dsimp only [Function.comp]
        split <;> rfl
    · split
      · exact h
      · exact h2.of_parts rfl rfl rfl rfl fun _ hm => hm

theorem setArena_stands (h : StandsRegs tid s₀ s) (k : Nat) (a : Arena) : StandsRegs tid s₀ (setArena s k a) :=
  h.of_wk rfl fun _ hm => hm

theorem scanGrant_stands (k limit : Nat) {ws older : List AllocReq} (h : StandsRegs tid s₀ s) :
    StandsRegs tid s₀ (scanGrant k limit ws older s).1 := by
  induction ws generalizing s older with
  | nil => exact h
  | cons w rest ih =>
    have h2 (e : Nat × Nat) (a : Arena) : StandsRegs tid s₀ (setArena (grant s k w e (0, 0)) k a) :=
      setArena_stands (grant_stands h k w e (0, 0)) k a
    simp only [scanGrant]
    split
    · exact ih h
    · split
      · exact ih h
      · split
        · simp only [apply_ite Prod.fst]
          exact ite_stands (h2 _ _) (ih (h2 _ _))
        · split
          · simp only [apply_ite Prod.fst]
            exact ite_stands (h2 _ _) (ih (h2 _ _))
          · exact h2 _ _

theorem attemptFuel_stands (k n : Nat) : ∀ s, StandsRegs tid s₀ s → StandsRegs tid s₀ (attemptFuel k n s) := by
  induction n with
  | zero => exact fun _ h => h
  | succ n ih =>
    intro s h
    dsimp only [attemptFuel]
    split
    · exact h
    · split
      · refine ite_stands (setArena_stands h _ _) ?_
        split
        · exact setArena_stands h _ _
        · exact ih _ (setArena_stands (grant_stands (setArena_stands h _ _) _ _ _ _) _ _)
      · exact ite_stands (ih _ (scanGrant_stands _ _ h)) (scanGrant_stands _ _ h)

theorem noteTurn_stands (h : StandsRegs tid s₀ s) (k rank : Nat) : StandsRegs tid s₀ (noteTurn s k rank) :=
  ite_stands (h.of_wk rfl fun _ hm => hm) h

theorem attemptAt_stands (h : StandsRegs tid s₀ s) (rank k : Nat) : StandsRegs tid s₀ (attemptAt rank s k) := by
  rcases attemptAt_cases rank s k with e | e | e <;> rw [e]
  · exact h
  · exact attemptFuel_stands _ _ _ (noteTurn_stands h _ _)
  · exact h.of_wk rfl fun _ hm => hm

/-! #### Releases and withdrawals (R175, R178, R233) -/

theorem releaseRec_stands (h : StandsRegs tid s₀ s) (key : Nat) : StandsRegs tid s₀ (releaseRec s key) := by
  unfold releaseRec
  split
  · exact h
  · extract_lets s1 s2 _ s3
    have h2 : StandsRegs tid s₀ s2 :=
      (foldl_stands (fun _ _ _ h => freeGranule_stands h _) h).of_wk rfl fun _ hm => hm
    have h3 : StandsRegs tid s₀ s3 := ite_stands (h2.of_wk rfl fun _ hm => hm) h2
    exact foldl_stands (fun _ _ _ h => attemptAt_stands h _ _) (attemptAt_stands h3 _ _)

theorem withdraw_stands (h : StandsRegs tid s₀ s) (p : AllocReq → Bool) : StandsRegs tid s₀ (withdraw s p) := by
  refine foldl_stands (fun _ _ _ h => attemptAt_stands h _ _) (h.of_wk rfl fun m hm => List.mem_filter.mpr ⟨hm, rfl⟩)

/-! #### Discards (R17, R19, R293) -/

theorem undoTake_stands (h : StandsRegs tid s₀ s) (r : Request) : StandsRegs tid s₀ (undoTake s r) := by
  unfold undoTake
  split
  · split
    · exact setLocField_stands h _ _ _ _
    · exact h
  · exact h

theorem wakeColour_stands (h : StandsRegs tid s₀ s) : StandsRegs tid s₀ (wakeColour s) :=
  h.of_parts rfl rfl rfl rfl fun _ hm => hm

theorem giveColour_stands (h : StandsRegs tid s₀ s) (die c : Nat) : StandsRegs tid s₀ (giveColour s die c) :=
  wakeColour_stands (h.of_parts rfl rfl rfl rfl fun _ hm => hm)

/-- A record is freed for a task that has a SPAWN under way. -/
theorem freeFut_stands (h : StandsRegs tid s₀ s) (hb : ∃ f ∈ s₀.wk.births.map Birth.f, f.tid = tid) (k : Nat) :
    StandsRegs tid s₀ (freeFut s k) :=
  wakeColour_stands ⟨⟨h.fixed, h.insts, h.births, fun q => by
    obtain ⟨f, hf, e⟩ := hb
    exact absurd e (q f hf), h.exits⟩, h.values⟩

theorem undoBirth_stands (h : StandsRegs tid s₀ s) (hb : ∃ f ∈ s₀.wk.births.map Birth.f, f.tid = tid) (b : Birth) :
    StandsRegs tid s₀ (undoBirth s b) := by
  unfold undoBirth
  extract_lets s0 _ sl s1 s2
  have h0 : StandsRegs tid s₀ s0 := by
    unfold s0
    split
    · exact ite_stands (post_stands h _) h
    · exact h
  have hl : StandsRegs tid s₀ sl := h0.of_parts rfl rfl rfl rfl fun _ hm => hm
  have h1 : StandsRegs tid s₀ s1 := by
    unfold s1
    split
    · exact releaseRec_stands (releaseRec_stands hl _) _
    · exact hl
  have h2 : StandsRegs tid s₀ s2 := by
    unfold s2
    split
    · exact freeFut_stands h1 hb _
    · exact h1
  split
  · exact giveColour_stands h2 _ _
  · exact wakeColour_stands h2

/-- The SPAWNs under way of an instance of the task are undone. -/
theorem undoBirths_stands (h : StandsRegs tid s₀ s) (iter : Nat) :
    StandsRegs tid s₀ ((s.wk.births.filter fun b => ofInst tid iter b.f).foldl undoBirth s) := by
  refine foldl_stands (fun a b hb ha => undoBirth_stands ha ⟨b.f, ?_, ?_⟩ b) h
  · exact h.births _ (List.mem_map_of_mem (f := Birth.f) (List.mem_filter.mp hb).1)
  · have := (List.mem_filter.mp hb).2
    simp only [ofInst, Bool.and_eq_true, decide_eq_true_eq] at this
    exact this.1

theorem keys_tdel_subset {α : Type} (t : Table α) (k : Nat) : (tdel t k).map Prod.fst ⊆ t.map Prod.fst :=
  ((tdel_sublist t k).map _).subset

/-- What goes with an instance that ends, of the messages, the memories' waits and the work. -/
theorem StandsRegs.of_end (h : StandsRegs tid s₀ s) (ht : u.wk.tasks = s.wk.tasks) {k : Nat}
    (hi : u.wk.insts = tdel s.wk.insts k) {p : Birth → Bool} (hb : u.wk.births = s.wk.births.filter p)
    (hf : u.wk.futs = s.wk.futs) (hn : ∀ m, .futureExitArrive m ∈ s.net → .futureExitArrive m ∈ u.net) :
    StandsRegs tid s₀ u :=
  ⟨⟨ht ▸ h.fixed, fun j hj => h.insts j (keys_tdel_subset _ k (hi ▸ hj)),
    fun f hm => h.births f ((List.filter_sublist.map _).subset (hb ▸ hm)), fun q => hf.trans (h.futs q),
    fun m q => hn m (h.exits m q)⟩, ht ▸ h.values⟩

theorem discardInst_stands (h : StandsRegs tid s₀ s) {i : Inst} (hi : i.tid = tid) : StandsRegs tid s₀ (discardInst s i) := by
  subst hi
  have h2 : StandsRegs i.tid s₀ (i.allocs.foldl askRelease (i.requests.foldl undoTake s)) :=
    foldl_stands (fun _ _ _ h => post_stands h _) (foldl_stands (fun _ r _ h => undoTake_stands h r) h)
  have h5 := withdraw_stands (undoBirths_stands (post_stands h2
    (i.refs.map fun f => .refChangeArrive ⟨f, false, some i.tid, none⟩)) i.iter) (askedBy (ofInst i.tid i.iter))
  exact h5.of_end rfl rfl rfl rfl fun m hm => List.mem_filter.mpr ⟨hm, rfl⟩

theorem mem_insInst {base : Nat} {x y : Inst} {l : List Inst} (h : y ∈ insInst base x l) : y = x ∨ y ∈ l := by
  induction l with
  | nil => simpa [insInst] using h
  | cons z t ih =>
    simp only [insInst] at h
    split at h
    · simpa using h
    · rcases List.mem_cons.mp h with rfl | h
      · exact .inr List.mem_cons_self
      · exact (ih h).imp_right (List.mem_cons_of_mem _)

theorem mem_sortInsts {base : Nat} {y : Inst} {l : List Inst} (h : y ∈ sortInsts base l) : y ∈ l := by
  induction l with
  | nil => exact h
  | cons x t ih =>
    rcases mem_insInst h with rfl | h
    · exact List.mem_cons_self
    · exact List.mem_cons_of_mem _ (ih h)

theorem instsOf_tid {i : Inst} {k : Nat} (h : i ∈ instsOf s k) : i.tid = k := by
  obtain ⟨e, he, rfl⟩ := List.mem_map.mp h
  simpa using (List.mem_filter.mp he).2

theorem discardAll_stands (h : StandsRegs tid s₀ s) (stopped : Bool) : StandsRegs tid s₀ (discardAll s tid stopped) := by
  unfold discardAll
  split
  · exact h
  · refine modTask_stands (foldl_stands (fun _ i hi h => discardInst_stands h (instsOf_tid (mem_sortInsts hi))) ?_)
      (fun _ => rfl) fun _ => rfl
    exact h.of_wk rfl fun m hm => List.mem_filter.mpr ⟨hm, rfl⟩

/-! #### Faults (R291) -/

section
variable {β : Type} {p : State → β}

/-- A fault record changes global memory, the held writes, firmware's queue, and of its interface the ring's counts. -/
theorem ringWrite_keeps (h : ∀ s g d w, p { s with gm := g, jb := { s.jb with heldDev := d }, fw := w } = p s)
    (hv : ∀ s k f, (∀ v : Vi, (f v).nextLaunch = v.nextLaunch) → p (modVi s k f) = p s) (s : State) (vi : Nat)
    (recs : List Nat) : p (ringWrite s vi recs) = p s := by
  have page (a : State) (d v va : Nat) (w : Bool) : p (sendPageFault a d v va w) = p a := by
    unfold sendPageFault
    split
    · rfl
    · exact h a a.gm a.jb.heldDev _
  have write (a : State) (v va : Nat) (bs : List Byte) : p (devWriteFault a v va bs) = p a := by
    unfold devWriteFault
    split
    · exact h a a.gm _ a.fw
    · split
      · exact devStore_keeps p (fun a g => h a g a.jb.heldDev a.fw) a _ _ _
      · exact (page _ _ _ _ _).trans (h a a.gm _ a.fw)
      · rfl
  have touch : p (devTouch s vi ((viD s vi).faultBase + 8) 8) = p s :=
    devTouch_keeps p (fun a g => h a g a.jb.heldDev a.fw) s _ _ _
  have ring {g : State × Nat → Nat → State × Nat} (hg : ∀ acc r, p (g acc r).1 = p acc.1) (l : List Nat) (acc : State × Nat) :
      p (l.foldl g acc).1 = p acc.1 :=
    List.foldlRecOn (motive := fun a => p a.1 = p acc.1) _ _ rfl fun a ha r _ => (hg a r).trans ha
  unfold ringWrite
  extract_lets v take s' s1 one sr s2
  split
  · rfl
  · split
    · refine (write _ _ _ _).trans ((hv _ _ _ ?_).trans touch)
      exact fun _ => rfl
    · refine (write _ _ _ _).trans ((hv _ _ _ ?_).trans ((ring (fun acc r => write _ _ _ _) _ _).trans touch))
      exact fun _ => rfl

theorem writeRecord_keeps (h : ∀ s g d w r, p { s with gm := g, jb := { s.jb with heldDev := d }, fw := w, sr := r } = p s)
    (hv : ∀ s k f, (∀ v : Vi, (f v).nextLaunch = v.nextLaunch) → p (modVi s k f) = p s) (s : State) (vi : Nat) (f : Flt)
    (q : Place4) : p (writeRecord s vi f q) = p s :=
  (ringWrite_keeps (fun s g d w => h s g d w s.sr) hv _ _ _).trans (h s s.gm s.jb.heldDev s.fw _)

end

theorem faultLaunch_keeps {β : Type} (p : State → β) (h : ∀ s c j, p { s with cf := c, jb := j } = p s) (s : State) (k : Nat) :
    p (faultLaunch s k) = p s := by
  have job (a : State) (k : Nat) : p (faultJob a k) = p a := h a a.cf _
  have phase (a : State) (k : Nat) : p (faultPhase a k) = p a := (job _ _).trans (h a a.cf _)
  have graph (a : State) (k : Nat) : p (faultGraph a k) = p a := by
    dsimp only [faultGraph]
    split
    · exact (phase _ _).trans (h a _ a.jb)
    · exact (job _ _).trans (h a _ a.jb)
  dsimp only [faultLaunch]
  split
  · split
    · exact (phase _ _).trans (h s s.cf _)
    · exact (graph _ _).trans (h s s.cf _)
  · rfl

/-- The state in which a fault's record is written and counted. -/
theorem faultRecorded_keeps {β : Type} (p : State → β)
    (h : ∀ s g j w r c, p { s with gm := g, jb := j, fw := w, sr := r, cf := c } = p s) (s : State) (vi k : Nat) (f : Flt)
    (q : Place4) : p (faultLaunch (writeRecord s vi f q) k) = p s :=
  (faultLaunch_keeps p (fun s c j => h s s.gm j s.fw s.sr c) _ _).trans
    (writeRecord_keeps (fun s g _ w r => h s g _ w r s.cf) (fun s _ _ _ => h s s.gm _ s.fw s.sr s.cf) _ _ _ _)

theorem stopTask_stands (h : StandsRegs tid s₀ s) (f : Flt) (q : Place4) : StandsRegs tid s₀ (stopTask s tid f q) := by
  unfold stopTask
  split
  · exact h
  · refine discardAll_stands (h.of_wk ?_ ?_) true
    · exact faultRecorded_keeps State.wk (fun _ _ _ _ _ _ => rfl) s _ _ f q
    · intro m hm
      rwa [faultRecorded_keeps State.net (fun _ _ _ _ _ _ => rfl)]

theorem taskAt_of_stands (h : Stands tid s₀ s) {k : Nat} {t : Task} (ht : taskAt s₀ k = some t) :
    ∃ t', taskAt s k = some t' ∧ t'.fixed = t.fixed := by
  have there : (taskAt s k).map Task.fixed = some t.fixed := by
    rw [taskAt, ← tget_tview, h.fixed, tget_tview]
    exact congrArg (Option.map Task.fixed) ht
  exact Option.map_eq_some_iff.mp there

theorem discardAll_stopped {t : Task} (h : taskAt s tid = some t) :
    ∃ t', taskAt (discardAll s tid true) tid = some t' ∧ t'.stopped = true := by
  unfold discardAll
  split
  next hn => exact nomatch hn.symm.trans h
  next t0 h0 =>
    extract_lets live es s1 s2
    have st : StandsRegs tid s1 s2 :=
      foldl_stands (fun _ i hi h => discardInst_stands h (instsOf_tid (mem_sortInsts hi))) (.refl tid s1)
    obtain ⟨t2, ht2, -⟩ := taskAt_of_stands st.toStands (show taskAt s1 tid = some t0 from h0)
    exact ⟨_, (taskAt_modTask_same _ _ _).trans (congrArg _ ht2), by simp⟩

/-- A fault that a task takes stops it (R291, R293). -/
theorem stopTask_stopped {t : Task} (h : taskAt s tid = some t) (f : Flt) (q : Place4) :
    ∃ t', taskAt (stopTask s tid f q) tid = some t' ∧ t'.stopped = true := by
  simp only [stopTask, h]
  exact discardAll_stopped ((faultRecorded_keeps (fun a => taskAt a tid) (fun _ _ _ _ _ _ => rfl) s _ _ f q).trans h)

end Sys2Proof.Machine

namespace Sys2Proof.Machine

variable {s : State}

/-! ### Activation (R12, R22, R27, R84, R223, R353) -/

/-- What the counters, the lanes and the ready list show of a state is all that differs. -/
structure WorkFrame (s u : State) : Prop where
  tasks : u.wk.tasks = s.wk.tasks
  insts : u.wk.insts = s.wk.insts
  toks : u.wk.toks = s.wk.toks
  waits : u.wk.waits = s.wk.waits
  issue : ∀ f ∈ s.wk.issue, f ∈ u.wk.issue
  cf : u.cf = s.cf
  net : u.net = s.net
  gm : u.gm = s.gm
  ls : u.ls = s.ls

theorem WorkFrame.refl (s : State) : WorkFrame s s := ⟨rfl, rfl, rfl, rfl, fun _ h => h, rfl, rfl, rfl, rfl⟩

theorem WorkFrame.trans {s t u : State} (a : WorkFrame s t) (b : WorkFrame t u) : WorkFrame s u :=
  ⟨b.tasks.trans a.tasks, b.insts.trans a.insts, b.toks.trans a.toks, b.waits.trans a.waits, fun f h => b.issue f (a.issue f h),
    b.cf.trans a.cf, b.net.trans a.net, b.gm.trans a.gm, b.ls.trans a.ls⟩

theorem countIssue_eq (s : State) (pane k : Nat) : ∃ r, countIssue s pane k = { s with sr := r } := by
  obtain ⟨r1, h1⟩ := perfPane_eq s pane 0x001 1
  obtain ⟨r2, h2⟩ := perfPane_eq { s with sr := r1 } pane (0x001 + k) 1
  obtain ⟨r3, h3⟩ := perfPane_eq { s with sr := r2 } pane 0x00A k
  exact ⟨r3, by rw [countIssue, h1, h2, h3]⟩

theorem countIssue_keeps {β : Type} (p : State → β) (h : ∀ s r, p { s with sr := r } = p s) (s : State) (pane k : Nat) :
    p (countIssue s pane k) = p s := by
  obtain ⟨r, hr⟩ := countIssue_eq s pane k
  rw [hr, h]

/-- The READs of a block, as they go to the datapath. -/
theorem injectReads_frame (s : State) (a : Activation) (es : List (Nat × Instr)) : WorkFrame s (injectReads s a es) ∧
    ∀ k t0 t1 reg, (k, Instr.read t0 t1 reg) ∈ es → ⟨a.tid, a.iter, a.block, k⟩ ∈ (injectReads s a es).wk.issue := by
  have keep {β : Type} (p : State → β) (h : ∀ s r, p { s with sr := r } = p s) (l : List Firing) :
      p (l.foldl (fun a f => countIssue a (cellPane a f) 1) s) = p s :=
    foldl_keeps p (fun a f => countIssue_keeps p h a _ _) l s
  refine ⟨⟨rfl, rfl, rfl, rfl, fun f hf => List.mem_append_left _ hf, keep State.cf (fun _ _ => rfl) _,
    keep State.net (fun _ _ => rfl) _, keep State.gm (fun _ _ => rfl) _, keep State.ls (fun _ _ => rfl) _⟩, ?_⟩
  intro k t0 t1 reg hk
  exact List.mem_append_right _ (List.mem_map.mpr ⟨_, List.mem_filter.mpr ⟨hk, rfl⟩, rfl⟩)

/-- A check of a word whose tokens all lie in the matching store. -/
theorem checkReady_frame {f : Firing} (h : partners s f = []) : WorkFrame s (checkReady s f) := by
  have ready : WorkFrame s (markReady s f) := by
    unfold markReady
    split
    · exact .refl s
    · exact ⟨rfl, rfl, rfl, rfl, fun _ h => h, rfl, rfl, rfl, rfl⟩
  rcases checkReady_cases s f with e | e <;> rw [e]
  · exact .refl s
  · rw [h]
    exact ready

theorem wakeReads_frame (s : State) (tid : Nat) : (wakeReads s tid).wk.tasks = s.wk.tasks ∧
    (wakeReads s tid).wk.insts = s.wk.insts ∧ (wakeReads s tid).wk.toks = s.wk.toks ∧
    ∀ f ∈ s.wk.issue, f ∈ (wakeReads s tid).wk.issue :=
  ⟨rfl, rfl, rfl, fun _ h => List.mem_append_left _ h⟩

/-- No token waits for an instance that is to start. -/
def noTokens (s : State) (a : Activation) : Prop :=
  ∀ y ∈ s.wk.toks, ¬ (y.msg.tid = a.tid ∧ y.msg.iter = a.iter ∧ y.msg.block = a.block)

theorem noTokens.of_toks {u : State} {a : Activation} (h : noTokens s a) (e : u.wk.toks = s.wk.toks) : noTokens u a := by
  unfold noTokens
  rwa [e]

theorem noTokens.partners {a : Activation} (h : noTokens s a) (k : Nat) : partners s ⟨a.tid, a.iter, a.block, k⟩ = [] := by
  refine List.filter_eq_nil_iff.mpr fun y hy hw => h y hy ?_
  simp only [sameWord, Bool.and_eq_true, decide_eq_true_eq] at hw
  obtain ⟨⟨⟨⟨ht, hi⟩, hb⟩, -⟩, -⟩ := hw
  exact ⟨ht, hi, hb⟩

theorem meetTokens_frame {a : Activation} (h : noTokens s a) (es : List (Nat × Instr)) : WorkFrame s (meetTokens s a es) := by
  have words : WorkFrame s (es.foldl (fun st e => checkReady st ⟨a.tid, a.iter, a.block, e.1⟩) s) :=
    List.foldlRecOn (motive := WorkFrame s) _ _ (.refl s) fun u hu e _ =>
      hu.trans (checkReady_frame ((h.of_toks hu.toks).partners e.1))
  dsimp only [meetTokens]
  split
  next k ks hk =>
    have : k ∈ k :: ks := List.mem_cons_self
    rw [← hk] at this
    obtain ⟨e, he, -⟩ := List.mem_map.mp this
    have hm := (List.mem_filter.mp (List.mem_filter.mp he).1).2
    simp only [Bool.and_eq_true, decide_eq_true_eq] at hm
    obtain ⟨⟨⟨ht, hi⟩, hb⟩, -⟩ := hm
    exact absurd ⟨ht, hi, hb⟩ (h e (List.mem_filter.mp (List.mem_filter.mp he).1).1)
  next => exact words

section
variable {t : Task} {a : Activation} {b : Blk} {frame : Option Place}

/-- The instance that an activation starts. -/
def freshInst (a : Activation) (frame : Option Place) : Inst :=
  { tid := a.tid, iter := a.iter, block := a.block, frame := frame, mayNext := a.mayNext, loopHead := a.loopHead }

/-- The state with the instance in its frame. -/
def withInst (s : State) (t : Task) (a : Activation) (b : Blk) (frame : Option Place) : State :=
  setInst (setTask s a.tid { t with loop := loopOf t a b, born := true }) (freshInst a frame)

/-- The instance falls through where its block has no branch word (R15). -/
def freshBranch (a : Activation) (b : Blk) (frame : Option Place) (es : List (Nat × Instr)) : Inst :=
  if es.any fun e => Instr.cls e.2 = .branch then freshInst a frame
  else { freshInst a frame with branch := some (.goto (fallThrough a.block b.header) false) }

theorem startInst_sound (h : activationBad ⟨(graphOf s t).blocks, (graphOf s t).arenas.length, (graphOf s t).waffles⟩ b = none) :
    startInst s t a b frame =
      wakeReads (meetTokens (injectReads
        (if (blockSlots (withInst s t a b frame) (freshInst a frame)).any fun e => Instr.cls e.2 = .branch
          then withInst s t a b frame
          else setInst (withInst s t a b frame)
            { freshInst a frame with branch := some (.goto (fallThrough a.block b.header) false) })
        a (blockSlots (withInst s t a b frame) (freshInst a frame))) a (blockSlots (withInst s t a b frame) (freshInst a frame)))
        a.tid := by
  dsimp only [startInst]
  rw [h]
  rfl

/-- The slots of a block are those of the graph that its task runs. -/
theorem blockSlots_congr {u : State} {x y : Inst} (ht : u.wk.tasks = s.wk.tasks) (hc : u.cf = s.cf) (hi : y.tid = x.tid)
    (hb : y.block = x.block) : blockSlots u y = blockSlots s x := by
  simp only [blockSlots, blkOf, graphOf, taskD, ht, hc, hi, hb]

theorem freshBranch_fields (a : Activation) (b : Blk) (frame : Option Place) (es : List (Nat × Instr)) :
    let x := freshBranch a b frame es
    x.tid = a.tid ∧ x.block = a.block ∧ x.frame = frame ∧ x.fired = [] ∧ x.nulled = [] ∧ x.requests = [] ∧
      x.mayNext = a.mayNext := by
  unfold freshBranch
  split
  · exact ⟨rfl, rfl, rfl, rfl, rfl, rfl, rfl⟩
  · exact ⟨rfl, rfl, rfl, rfl, rfl, rfl, rfl⟩

/-- A started instance: in its frame, nothing fired, its READs on the lanes. -/
structure Started (s u : State) (a : Activation) (b : Blk) (frame : Option Place) (x : Inst) : Prop where
  at_ : instAt u a.tid a.iter = some x
  fresh : x = freshBranch a b frame (blockSlots u x)
  toks : u.wk.toks = s.wk.toks
  net : u.net = s.net
  mem : MemFrame s u
  reads : ∀ k t0 t1 reg, (k, Instr.read t0 t1 reg) ∈ blockSlots u x → ⟨a.tid, a.iter, a.block, k⟩ ∈ u.wk.issue

theorem startInst_started
    (h : activationBad ⟨(graphOf s t).blocks, (graphOf s t).arenas.length, (graphOf s t).waffles⟩ b = none)
    (hn : noTokens s a) : ∃ x, Started s (startInst s t a b frame) a b frame x := by
  rw [startInst_sound h]
  generalize hes : blockSlots (withInst s t a b frame) (freshInst a frame) = es
  obtain ⟨s2, hs2, hi2, ht2, hw2⟩ : ∃ s2, (if es.any fun e => Instr.cls e.2 = .branch then withInst s t a b frame
      else setInst (withInst s t a b frame)
        { freshInst a frame with branch := some (.goto (fallThrough a.block b.header) false) }) = s2 ∧
      instAt s2 a.tid a.iter = some (freshBranch a b frame es) ∧ s2.wk.tasks = (withInst s t a b frame).wk.tasks ∧
      s2.wk.toks = s.wk.toks ∧ s2.net = s.net ∧ s2.gm = s.gm ∧ s2.ls = s.ls ∧ s2.cf = s.cf := by
    refine ⟨_, rfl, ?_⟩
    unfold freshBranch
    split
    · exact ⟨tget_tput_same _ _ _, rfl, rfl, rfl, rfl, rfl, rfl⟩
    · exact ⟨tget_tput_same _ _ _, rfl, rfl, rfl, rfl, rfl, rfl⟩
  rw [hs2]
  obtain ⟨toks2, net2, gm2, ls2, cf2⟩ := hw2
  obtain ⟨f3, reads3⟩ := injectReads_frame s2 a es
  have f4 := f3.trans (meetTokens_frame (hn.of_toks (f3.toks.trans toks2)) es)
  have slots : blockSlots (wakeReads (meetTokens (injectReads s2 a es) a es) a.tid) (freshBranch a b frame es) = es := by
    obtain ⟨tid, block, -⟩ := freshBranch_fields a b frame es
    exact (blockSlots_congr (f4.tasks.trans ht2) (f4.cf.trans cf2) tid block).trans hes
  refine ⟨freshBranch a b frame es, ?_, ?_, ?_, ?_, ?_, ?_⟩
  · exact (congrArg (fun t => tget t (instKey a.tid a.iter)) f4.insts).trans hi2
  · rw [slots]
  · exact f4.toks.trans toks2
  · exact f4.net.trans net2
  · exact .of_eq (f4.gm.trans gm2) (f4.ls.trans ls2)
  · rw [slots]
    intro k t0 t1 reg hk
    refine (wakeReads_frame _ _).2.2.2 _ ?_
    exact (meetTokens_frame (hn.of_toks (f3.toks.trans toks2)) es).issue _ (reads3 k t0 t1 reg hk)

/-- The activation may start: its task runs, its place in the order has come, and its iteration does not live (R12, R27, R145). -/
structure MayStart (s : State) (t : Task) (a : Activation) : Prop where
  runs : t.stopped = false
  order : a.next = true ∨ outstanding s a.tid = []
  room : (instsOf s a.tid).length < 4096
  fresh : instAt s a.tid a.iter = none

theorem blockActivate_none (h : taskAt s a.tid = none) : blockActivate s a = s := by
  unfold blockActivate
  rw [h]

/-- An activation that has to wait. -/
theorem blockActivate_wait (h : taskAt s a.tid = some t)
    (hw : t.stopped = true ∨ (a.next = false ∧ outstanding s a.tid ≠ []) ∨ 4096 ≤ (instsOf s a.tid).length ∨
      (instAt s a.tid a.iter).isSome = true) : blockActivate s a = repost s (.blockActivate a) := by
  unfold blockActivate
  rw [h]
  refine if_pos ?_
  simp only [Bool.or_eq_true, Bool.and_eq_true, Bool.not_eq_true', decide_eq_true_eq, List.isEmpty_eq_false_iff]
  rcases hw with h | h | h | h
  · exact .inl (.inl (.inl (.inr h)))
  · exact .inl (.inl (.inr h))
  · exact .inl (.inr h)
  · exact .inr h

theorem MayStart.passes (h : MayStart s t a) {words : Nat} (hm : blockMarked s t a.block words = false) :
    ¬ (blockMarked s t a.block words || t.stopped || (!a.next && !(outstanding s a.tid).isEmpty)
        || Config.maxInstances ≤ (instsOf s a.tid).length || (instAt s a.tid a.iter).isSome) = true := by
  have room : ¬ Config.maxInstances ≤ (instsOf s a.tid).length := Nat.not_le.mpr h.room
  rcases h.order with ho | ho <;> simp [hm, h.runs, h.fresh, ho, room]

/-- A target that is no block of the graph. -/
theorem blockActivate_bad (ht : taskAt s a.tid = some t) (h : MayStart s t a) (hb : blockAt (graphOf s t) a.block = none)
    (hm : blockMarked s t a.block 1 = false) : blockActivate s a = badTargetStop s t a := by
  unfold blockActivate
  simp only [ht, hb]
  exact if_neg (h.passes hm)

theorem badTargetStop_stops (ht : taskAt s a.tid = some t) (h : t.spawned = false ∨ t.born = true) :
    ∃ t', taskAt (badTargetStop s t a) a.tid = some t' ∧ t'.stopped = true := by
  have hc : ¬ (t.spawned && !t.born) = true := by rcases h with h | h <;> simp [h]
  dsimp only [badTargetStop]
  rw [if_neg hc]
  exact stopTask_stopped (show taskAt (repost s _) a.tid = some t from ht) _ _

theorem blockActivate_start (ht : taskAt s a.tid = some t) (h : MayStart s t a) (hb : blockAt (graphOf s t) a.block = some b)
    (hm : blockMarked s t a.block b.words.length = false) (hre : hdrRe b.header = true → a.loopHead = true ∨ t.loop.isSome = true)
    (hf : (frameGranules b.header = 0 ∧ frame = none) ∨
      (frameGranules b.header ≠ 0 ∧ framePlace s t a.tid (frameGranules b.header) = frame ∧ frame.isSome = true)) :
    blockActivate s a = startInst s t a b frame := by
  have hloop : ¬ (hdrRe b.header && !a.loopHead && t.loop.isNone) = true := by
    intro hc
    simp only [Bool.and_eq_true, Bool.not_eq_true', Option.isNone_iff_eq_none] at hc
    obtain ⟨⟨hr, hl⟩, hn⟩ := hc
    rcases hre hr with h | h
    · simp [hl] at h
    · simp [hn] at h
  unfold blockActivate
  simp only [ht, hb]
  rw [if_neg (h.passes hm), if_neg hloop]
  rcases hf with ⟨h0, rfl⟩ | ⟨h0, hp, hs⟩
  · exact if_pos h0
  · rw [if_neg h0, hp]
    obtain ⟨p, rfl⟩ := Option.isSome_iff_exists.mp hs
    rfl

end

end Sys2Proof.Machine

open Sys2Proof.Machine in
/-- Settles O31, by the ways of an activation: it waits, its target stops the task, or its instance starts (`Started`). -/
theorem blocksActivate : Obligations.BlocksActivate := by
  unfold Obligations.BlocksActivate
  intro s a e
  have run : exec e s = .next (blockActivate s a) := rfl
  refine ⟨fun h => run.trans (congrArg _ (blockActivate_none h)), fun t ht => ⟨?wait, ?start⟩⟩
  case wait => exact fun hw => run.trans (congrArg _ (blockActivate_wait ht hw))
  case start =>
    intro runs order room fresh
    have may : MayStart s t a := ⟨runs, order, room, fresh⟩
    refine ⟨?bad, ?good⟩
    case bad =>
      intro hb hm hsp
      obtain ⟨t', ht', st⟩ := badTargetStop_stops ht hsp
      exact ⟨_, t', run.trans (congrArg _ (blockActivate_bad ht may hb hm)), ht', st⟩
    case good =>
      intro b frame hb hm hre hf ok hn
      obtain ⟨x, at_, xe, toks, net, mem, reads⟩ := startInst_started (frame := frame) ok hn
      refine ⟨_, x, run.trans (congrArg _ (blockActivate_start ht may hb hm hre hf)), at_, ?_⟩
      generalize blockSlots (startInst s t a b frame) x = es at xe reads ⊢
      have fields := freshBranch_fields a b frame es
      rw [← xe] at fields
      obtain ⟨-, block, fr, fired, nulled, requests, next⟩ := fields
      refine ⟨block, fr, fired, nulled, requests, next, toks, net, mem, reads, fun nobr => ?_⟩
      rw [xe, freshBranch, if_neg]
      simpa using nobr

namespace Sys2Proof.Machine

variable {s : State} {f : Firing}

/-! ### The ready queue of a cell (R28, R29, R240, R241) -/

theorem mem_insQueue {x y : Ready} {l : List Ready} (h : y ∈ insQueue s x l) : y = x ∨ y ∈ l := by
  induction l with
  | nil => simpa [insQueue] using h
  | cons z t ih =>
    simp only [insQueue] at h
    split at h
    · rcases List.mem_cons.mp h with rfl | h
      · exact .inr List.mem_cons_self
      · exact (ih h).imp_right (List.mem_cons_of_mem _)
    · exact List.mem_cons.mp h

theorem mem_readyOn {cell q : Nat} {r : Ready} (h : r ∈ readyOn s cell q) : r ∈ s.wk.ready := by
  have fold : ∀ x ∈ (readyMarked s cell q).foldl (fun l r => insQueue s r l) [], x ∈ s.wk.ready :=
    List.foldlRecOn (motive := fun l => ∀ x ∈ l, x ∈ s.wk.ready) _ _ (fun _ h => nomatch h) fun l hl y hy x hx => by
      rcases mem_insQueue hx with rfl | hx
      · exact List.mem_of_mem_filter hy
      · exact hl x hx
  exact fold r (List.mem_of_mem_take h)

theorem mem_readyHead {h : Ready} {rs : List Ready} (e : readyHead s rs = some h) : h ∈ rs := by
  induction rs generalizing h with
  | nil => simp [readyHead] at e
  | cons r t ih =>
    simp only [readyHead] at e
    split at e
    · simp_all
    next g hg =>
      split at e
      · exact List.mem_cons_of_mem _ (ih (hg.trans e))
      · simp_all

theorem readyHead_isSome {rs : List Ready} (h : rs ≠ []) : readyHead s rs ≠ none := by
  cases rs with
  | nil => exact absurd rfl h
  | cons r t =>
    simp only [readyHead]
    split
    · simp
    · split <;> simp

theorem perm_insReady (base : Nat) (x : Ready) (l : List Ready) : (insReady base x l).Perm (x :: l) := by
  induction l with
  | nil => exact .refl _
  | cons y t ih =>
    simp only [insReady]
    split
    · exact .refl _
    · exact (ih.cons y).trans (.swap x y t)

theorem perm_sortReady (base : Nat) (l : List Ready) : (sortReady base l).Perm l := by
  induction l with
  | nil => exact .refl _
  | cons x t ih => exact (perm_insReady base x _).trans (ih.cons x)

theorem gatherLanes_length (s : State) (h : Ready) (rs : List Ready) :
    0 < (gatherLanes s h rs).length ∧ (gatherLanes s h rs).length ≤ 8 := by
  dsimp only [gatherLanes]
  rw [List.length_map, (perm_sortReady _ _).length_eq, List.length_cons]
  exact ⟨by omega, by have := List.length_take_le 7 (sortReady (oldestIter s h.f.tid)
    (rs.filter fun r => r.f.tid = h.f.tid && r.f.block = h.f.block && r.f.slot = h.f.slot && r.f ≠ h.f)); omega⟩

/-- The lanes of an issue are ready instances of the chosen one's word. -/
theorem mem_gatherLanes {h : Ready} {rs : List Ready} (hh : h ∈ rs) (hf : f ∈ gatherLanes s h rs) :
    (∃ r ∈ rs, r.f = f) ∧ f.tid = h.f.tid ∧ f.block = h.f.block ∧ f.slot = h.f.slot := by
  obtain ⟨r, hr, rfl⟩ := List.mem_map.mp hf
  rcases List.mem_cons.mp ((perm_sortReady _ _).mem_iff.mp hr) with rfl | hr
  · exact ⟨⟨r, hh, rfl⟩, rfl, rfl, rfl⟩
  · obtain ⟨hm, hw⟩ := List.mem_filter.mp ((perm_sortReady _ _).mem_iff.mp (List.mem_of_mem_take hr))
    simp only [Bool.and_eq_true, decide_eq_true_eq] at hw
    obtain ⟨⟨⟨ht, hb⟩, hs⟩, -⟩ := hw
    exact ⟨⟨r, hm, rfl⟩, ht, hb, hs⟩

/-- A context with instances ready and a positive deficit is found, with no refill (R241). -/
theorem search_finds {s : State} {pane key q : Nat} {d : Int} {ds : List Int} (hq : q ∈ boundContexts s pane)
    (hr : readyOn s key q ≠ []) (hd : ds[q]? = some d) (pos : 0 < d) (ptr : Nat) :
    let c := (boundContexts s pane).filter fun q => !(readyOn s key q).isEmpty
    ((List.range 8).map fun k => (ptr + k) % 8).find?
      (fun q => c.contains q && 0 < ((refillLoop s pane (boundContexts s pane) c 2 ds)[q]?).getD 0) ≠ none := by
  intro c
  have hc : q ∈ c := List.mem_filter.mpr ⟨hq, by simpa using hr⟩
  have noRefill : refillLoop s pane (boundContexts s pane) c 2 ds = ds := by
    have : ¬ (c.all fun q => (ds[q]?).getD 0 ≤ 0) = true := by
      intro h
      have := List.all_eq_true.mp h q hc
      simp only [hd, Option.getD_some, decide_eq_true_eq] at this
      omega
    exact if_neg this
  have hq8 : q < 8 := List.mem_range.mp (List.mem_of_mem_filter hq)
  rw [noRefill]
  intro hn
  refine List.find?_eq_none.mp hn q (List.mem_map.mpr ⟨(q + 8 - ptr % 8) % 8, ?_, ?_⟩) ?_
  · exact List.mem_range.mpr (Nat.mod_lt _ (by decide))
  · omega
  · simp [hc, hd, pos]

/-- An instance but for the note of its last issue. -/
def Inst.unnoted (x : Inst) : Inst := { x with last := (0, 0) }

/-- What one issue of a cell leaves: the words `fs` on the lanes. -/
structure CellIssued (s u : State) (fs : List Firing) : Prop where
  issue : u.wk.issue = s.wk.issue ++ fs
  length : fs.length ≤ 8
  ready : ∀ f ∈ fs, (∃ r ∈ s.wk.ready, r.f = f) ∧ ¬ ∃ r ∈ u.wk.ready, r.f = f
  word : ∀ f ∈ fs, ∀ k ∈ fs, f.tid = k.tid ∧ f.block = k.block ∧ f.slot = k.slot
  tasks : u.wk.tasks = s.wk.tasks
  toks : u.wk.toks = s.wk.toks
  net : u.net = s.net
  mem : MemFrame s u
  insts : ∀ tid iter, (instAt u tid iter).map Inst.unnoted = (instAt s tid iter).map Inst.unnoted

theorem CellIssued.none (s : State) : CellIssued s s [] :=
  ⟨(List.append_nil _).symm, Nat.zero_le 8, fun _ h => (nomatch h), fun _ h => (nomatch h), rfl, rfl, rfl, .of_eq rfl rfl,
    fun _ _ => rfl⟩

/-- The last issue of each instance is noted, and no other change is made to it. -/
theorem noteLast_keeps {β : Type} (p : State → β) (h : ∀ s t, p { s with wk := { s.wk with insts := t } } = p s)
    (n : Nat) (fs : List Firing) (s : State) :
    p (fs.foldl (fun a f => modInst a f.tid f.iter fun x => { x with last := (n, f.slot) }) s) = p s :=
  foldl_keeps p (fun _ _ => h _ _) fs s

/-- The cell's state, the lanes and the ready list once words have issued. -/
def issued (s : State) (key : Nat) (st : CellSt) (fs : List Firing) : State :=
  { s with wk := { s.wk with
    cells := tputD {} s.wk.cells key st
    ready := s.wk.ready.filter fun r => !fs.contains r.f
    issue := s.wk.issue ++ fs } }

theorem cellIssued_of_lanes {fs : List Firing} {key pane k n : Nat} {st : CellSt} {h : Ready} (len : fs.length ≤ 8)
    (hf : ∀ f ∈ fs, (∃ r ∈ s.wk.ready, r.f = f) ∧ f.tid = h.f.tid ∧ f.block = h.f.block ∧ f.slot = h.f.slot) :
    CellIssued s (countIssue (fs.foldl (fun a f => modInst a f.tid f.iter fun x => { x with last := (n, f.slot) })
      (issued s key st fs)) pane k) fs := by
  have keep {β : Type} (p : State → β) (hr : ∀ s r, p { s with sr := r } = p s)
      (hi : ∀ s t, p { s with wk := { s.wk with insts := t } } = p s) : p (countIssue (fs.foldl (fun a f =>
        modInst a f.tid f.iter fun x => { x with last := (n, f.slot) }) (issued s key st fs)) pane k) = p (issued s key st fs) :=
    (countIssue_keeps p hr _ _ _).trans (noteLast_keeps p hi n fs _)
  refine ⟨keep (fun a => a.wk.issue) (fun _ _ => rfl) fun _ _ => rfl, len, fun f hm => ⟨(hf f hm).1, ?_⟩, fun f hm g hg => ?_,
    keep (fun a => a.wk.tasks) (fun _ _ => rfl) fun _ _ => rfl, keep (fun a => a.wk.toks) (fun _ _ => rfl) fun _ _ => rfl,
    keep State.net (fun _ _ => rfl) fun _ _ => rfl, .of_eq (keep State.gm (fun _ _ => rfl) fun _ _ => rfl)
      (keep State.ls (fun _ _ => rfl) fun _ _ => rfl), fun tid iter => ?_⟩
  · rw [keep (fun a => a.wk.ready) (fun _ _ => rfl) fun _ _ => rfl]
    rintro ⟨r, hr, rfl⟩
    have := (List.mem_filter.mp hr).2
    simp [hm] at this
  · obtain ⟨-, ht, hb, hs⟩ := hf f hm
    obtain ⟨-, ht', hb', hs'⟩ := hf g hg
    exact ⟨ht.trans ht'.symm, hb.trans hb'.symm, hs.trans hs'.symm⟩
  · have note (a : State) (f : Firing) : tview Inst.unnoted (modInst a f.tid f.iter fun x =>
        { x with last := (n, f.slot) }).wk.insts = tview Inst.unnoted a.wk.insts := by
      unfold modInst
      exact tview_tmod fun _ => rfl
    have view : tview Inst.unnoted (countIssue (fs.foldl (fun a f =>
        modInst a f.tid f.iter fun x => { x with last := (n, f.slot) }) (issued s key st fs)) pane k).wk.insts =
        tview Inst.unnoted s.wk.insts :=
      (countIssue_keeps (fun a => tview Inst.unnoted a.wk.insts) (fun _ _ => rfl) _ _ _).trans
        (foldl_keeps (fun a => tview Inst.unnoted a.wk.insts) note fs _)
    rw [instAt, ← tget_tview, view, tget_tview]
    rfl

/-- One issue of a cell, and when it issues something (R28, R29, R241). -/
theorem cellIssue_issued (s : State) (die pane cell : Nat) :
    ∃ fs, CellIssued s (cellIssue s die pane cell) fs ∧
      ((∀ q, readyOn s ((die * 192 + pane) * 16 + cell) q = []) → cellIssue s die pane cell = s) ∧
      ∀ q ∈ boundContexts s (die * 192 + pane), readyOn s ((die * 192 + pane) * 16 + cell) q ≠ [] →
        (∀ r ∈ s.wk.ready, slotTurn s r.f = true) →
        (∃ d, (tgetD s.wk.cells ((die * 192 + pane) * 16 + cell) {}).deficits[q]? = some d ∧ 0 < d) → fs ≠ [] := by
  unfold cellIssue
  extract_lets p key bound c st ds search
  have empty (h : ∀ q, readyOn s key q = []) : c.isEmpty = true := by
    rw [List.isEmpty_iff]
    exact List.filter_eq_nil_iff.mpr fun q _ => by simp [h]
  have mem {q : Nat} (hq : q ∈ bound) (hr : readyOn s key q ≠ []) : q ∈ c := List.mem_filter.mpr ⟨hq, by simpa using hr⟩
  split
  next hc =>
    refine ⟨[], .none s, fun _ => rfl, fun q hq hr => ?_⟩
    rw [List.isEmpty_iff] at hc
    exact absurd (mem hq hr) (by simp [hc])
  next hc =>
    split
    next hn =>
      refine ⟨[], .none s, fun _ => rfl, fun q hq hr _ hd => ?_⟩
      obtain ⟨d, hd, pos⟩ := hd
      exact absurd hn (search_finds hq hr hd pos st.ptr)
    next q hq =>
      extract_lets rs
      have hqc : q ∈ c := by
        have := List.find?_some hq
        simp only [Bool.and_eq_true, List.contains_iff_mem] at this
        exact this.1
      have hrs : rs ≠ [] := by simpa using (List.mem_filter.mp hqc).2
      split
      next hn => exact absurd hn (readyHead_isSome hrs)
      next h hh =>
        extract_lets lanes cyc st' s1
        have lane (f : Firing) (hf : f ∈ lanes) : (∃ r ∈ s.wk.ready, r.f = f) ∧ f.tid = h.f.tid ∧ f.block = h.f.block ∧
            f.slot = h.f.slot := by
          obtain ⟨⟨r, hr, e⟩, rest⟩ := mem_gatherLanes (mem_readyHead hh) hf
          exact ⟨⟨r, mem_readyOn hr, e⟩, rest⟩
        split
        next hturn =>
          refine ⟨[], .none s, fun _ => rfl, fun q hq hr turn => ?_⟩
          refine absurd (List.all_eq_true.mpr fun f hf => ?_) (by simpa using hturn)
          obtain ⟨⟨r, hr, rfl⟩, -⟩ := lane f hf
          exact turn r hr
        next =>
          refine ⟨lanes, cellIssued_of_lanes (gatherLanes_length s h rs).2 lane, fun h => absurd (empty h) hc, fun _ _ _ _ _ => ?_⟩
          exact List.ne_nil_of_length_pos (gatherLanes_length s h rs).1

/-! ### Waits that end (R158, R185, R196, R199) -/

/-- The word goes back to the datapath. -/
def woken (s : State) (f : Firing) : State :=
  { s with wk := { s.wk with waits := s.wk.waits.filter (fun w => w.1 ≠ f), issue := s.wk.issue ++ [f] } }

theorem wakeIf_due {D : Wait → Bool} {w : Wait} (hw : (f, w) ∈ s.wk.waits) (hd : D w = true) :
    (if s.wk.waits.any fun w => w.1 = f && D w.2 then wake s f else s) = woken s f := by
  rw [if_pos (List.any_eq_true.mpr ⟨_, hw, by simp [hd]⟩), wake, if_pos]
  · rfl
  · exact List.any_eq_true.mpr ⟨_, hw, by simp⟩

theorem wakeIf_idle {D : Wait → Bool} (h : ∀ w, (f, w) ∈ s.wk.waits → D w = false) :
    (if s.wk.waits.any fun w => w.1 = f && D w.2 then wake s f else s) = s := by
  refine if_neg fun hc => ?_
  obtain ⟨⟨g, w⟩, hm, hd⟩ := List.any_eq_true.mp hc
  simp only [Bool.and_eq_true, decide_eq_true_eq] at hd
  obtain ⟨rfl, hd⟩ := hd
  exact absurd hd (by simp [h w hm])

/-- When a TWAIT looks again. -/
def timelineDue (s : State) : Wait → Bool
  | .timeline k n => n ≤ (ctxAt s k).done
  | _ => false

/-- When an AWAIT looks again. -/
def futureDue (s : State) : Wait → Bool
  | .future p => (match futAt s p with | some r => r.state = .resolved | none => true)
  | _ => false

/-- When a WAITC looks again. -/
def levelDue (s : State) (vi job : Nat) : Wait → Bool
  | .level l id => (match levelAt s vi job l id with | some v => v.done | none => true)
  | _ => false

theorem timelineDue_iff {w : Wait} : timelineDue s w = true ↔ ∃ k n, w = .timeline k n ∧ n ≤ (ctxAt s k).done := by
  cases w <;> simp [timelineDue]

theorem futureDue_live {w : Wait} (h : futureDue s w = true) :
    ∃ p, w = .future p ∧ ∀ r, futAt s p = some r → r.state = .resolved := by
  cases w with
  | future p =>
    refine ⟨p, rfl, fun r hr => ?_⟩
    simpa [futureDue, hr] using h
  | _ => exact nomatch h

theorem levelDue_live {w : Wait} {vi job : Nat} (h : levelDue s vi job w = true) :
    ∃ l id, w = .level l id ∧ ∀ v, levelAt s vi job l id = some v → v.done = true := by
  cases w with
  | level l id =>
    refine ⟨l, id, rfl, fun v hv => ?_⟩
    simpa [levelDue, hv] using h
  | _ => exact nomatch h

theorem exec_granuleWake_if (s : State) (f : Firing) :
    exec (.granuleWake f) s = .next (if s.wk.waits.any fun w => w.1 = f && decide (w.2 = .granule) then wake s f else s) := rfl

theorem exec_twaitWake_if (s : State) (f : Firing) :
    exec (.twaitWake f) s = .next (if s.wk.waits.any fun w => w.1 = f && timelineDue s w.2 then wake s f else s) := rfl

theorem exec_awaitWake_if (s : State) (f : Firing) :
    exec (.awaitWake f) s = .next (if s.wk.waits.any fun w => w.1 = f && futureDue s w.2 then wake s f else s) := rfl

theorem exec_waitcWake_if (s : State) (f : Firing) : exec (.waitcWake f) s = .next
    (if s.wk.waits.any fun w => w.1 = f && levelDue s (taskD s f.tid).vi (taskD s f.tid).job w.2 then wake s f else s) := rfl

end Sys2Proof.Machine

open Sys2Proof.Machine in
/-- Settles O32: an issue by `cellIssue_issued`; a wake by whether something that the word waits for is due. -/
theorem cellsIssueAndWaitsEnd : Obligations.CellsIssueAndWaitsEnd := by
  unfold Obligations.CellsIssueAndWaitsEnd
  refine ⟨fun s => ⟨?issue, ?promote⟩, fun s f => ?wake⟩
  case issue =>
    intro die pane cell
    obtain ⟨fs, h, idle, some_⟩ := cellIssue_issued s die pane cell
    exact ⟨_, fs, rfl, h.issue, h.length, h.ready, h.word, h.tasks, h.toks, h.net, h.mem, h.insts, idle, some_⟩
  case promote =>
    intro f
    refine ⟨_, rfl, rfl, rfl, .of_eq rfl rfl, List.length_map _, fun r hr hf hs => ?_, fun r hr => ?_⟩
    · exact List.mem_map.mpr ⟨r, hr, if_pos (by simp [hf, hs])⟩
    · obtain ⟨x, hx, rfl⟩ := List.mem_map.mp hr
      split
      next h =>
        simp only [Bool.and_eq_true, decide_eq_true_eq] at h
        exact .inr ⟨h.1, h.2, rfl⟩
      next => exact .inl hx
  case wake =>
    intro woke
    refine ⟨fun h => ?_, fun h => ?_, fun k n h hn => ?_, fun h => ?_, fun p r h hr hs => ?_, fun h => ?_,
      fun l id v h hv hd => ?_, fun h => ?_⟩
    · rw [exec_granuleWake_if, wakeIf_due (D := fun w => decide (w = .granule)) h (by simp)]
      rfl
    · rw [exec_granuleWake_if, wakeIf_idle (D := fun w => decide (w = .granule))]
      rintro w hw
      exact decide_eq_false fun e => h (e ▸ hw)
    · rw [exec_twaitWake_if, wakeIf_due h (timelineDue_iff.mpr ⟨k, n, rfl, hn⟩)]
      rfl
    · rw [exec_twaitWake_if, wakeIf_idle fun w hw => Bool.eq_false_iff.mpr fun hd => ?_]
      obtain ⟨k, n, rfl, hn⟩ := timelineDue_iff.mp hd
      exact absurd hn (Nat.not_le.mpr (h k n hw))
    · rw [exec_awaitWake_if, wakeIf_due h (by simp [futureDue, hr, hs])]
      rfl
    · rw [exec_awaitWake_if, wakeIf_idle fun w hw => Bool.eq_false_iff.mpr fun hd => ?_]
      obtain ⟨p, rfl, resolved⟩ := futureDue_live hd
      obtain ⟨r, hr, hs⟩ := h p hw
      exact hs (resolved r hr)
    · rw [exec_waitcWake_if, wakeIf_due h (by simp [levelDue, hv, hd])]
      rfl
    · rw [exec_waitcWake_if, wakeIf_idle fun w hw => Bool.eq_false_iff.mpr fun hd => ?_]
      obtain ⟨l, id, rfl, done⟩ := levelDue_live hd
      obtain ⟨v, hv, hf⟩ := h l id hw
      exact absurd (done v hv) (by simp [hf])

namespace Sys2Proof.Machine

variable {s : State}

/-! ### A future's home (R38, R39, R41, R42, R119, R195, R256) -/

theorem tget_of_futAt {p : Payload} {r : Fut} (h : futAt s p = some r) : tget s.wk.futs (futKey p) = some r := by
  unfold futAt at h
  split at h
  next r' hr =>
    rw [Option.ite_none_right_eq_some] at h
    rw [hr, h.2]
  next => exact nomatch h

theorem futAt_of_liveFut {p : Payload} {r : Fut} (h : liveFut s p = some r) : futAt s p = some r := by
  obtain ⟨a, ha, hr⟩ := Option.bind_eq_some_iff.mp h
  rw [Option.ite_none_left_eq_some] at hr
  rwa [hr.2] at ha

theorem tget_modFut {k : Nat} {r : Fut} (h : tget s.wk.futs k = some r) (f : Fut → Fut) :
    tget (modFut s k f).wk.futs k = some (f r) :=
  (tget_tmod_same _ _ _).trans (congrArg _ h)

theorem tget_freeFut {k : Nat} {r : Fut} (h : tget s.wk.futs k = some r) :
    tget (freeFut s k).wk.futs k = some { gen := (r.gen + 1) % 2 ^ 32 } := by
  refine (tget_tput_same _ _ _).trans ?_
  simp only [tgetD, h, Option.getD_some]

/-- A task that is reclaimed is gone (R39). -/
theorem taskAt_endTask (hs : Canonical s) (tid : Nat) : taskAt (endTask s tid) tid = none := by
  unfold endTask
  split
  next h => exact h
  next t h =>
    exact tget_tdel_same _ _ (releaseRec_canon (releaseRec_canon (dropRegs_canon (publish_canon hs)))).tasks

theorem taskAt_reclaimTask (hs : Canonical s) (tid : Nat) : taskAt (reclaimTask s tid) tid = none := by
  unfold reclaimTask
  split
  next h => exact h
  next t h =>
    extract_lets _ s0 s1 s2 mine s3
    have h3 : Canonical s3 :=
      foldl_canon (fun _ _ h1 => askRelease_canon h1) (revokeCmds_canon (discardAll_canon { hs with }))
    exact taskAt_endTask h3 tid

section
variable {m : RefMsg} {r : Fut}

/-- A change for a future whose record is gone is recorded where it has an origin (R195). -/
theorem refChange_late {o : Origin} (h : liveFut s m.fut = none) (ho : m.origin = some o) :
    refChange s m = recordGoOn s o ⟨.futureStale, m.fut.toNat⟩ := by
  simp only [refChange, h, ho]

theorem refChange_gone (h : liveFut s m.fut = none) (ho : m.origin = none) : refChange s m = s := by
  simp only [refChange, h, ho]

theorem refChange_stuck (h : liveFut s m.fut = some r) (hs : r.stuck = true) : refChange s m = s := by
  unfold refChange
  rw [h]
  exact if_pos hs

/-- A count that is not saturated goes up by one, or saturates (R42). -/
theorem refChange_up (h : liveFut s m.fut = some r) (hs : r.stuck = false) (hu : m.up = true) :
    tget (refChange s m).wk.futs (futKey m.fut) = some
      (if r.count = 2 ^ 24 - 1 then { r with stuck := true } else { r with count := r.count + 1 }) := by
  have at_ := tget_of_futAt (futAt_of_liveFut h)
  unfold refChange
  rw [h]
  dsimp only
  rw [if_neg (by simp [hs]), if_pos hu]
  split
  · exact tget_modFut at_ _
  · exact tget_modFut at_ _

theorem refChange_down (h : liveFut s m.fut = some r) (hs : r.stuck = false) (hu : m.up = false) : refChange s m =
    if r.count ≤ 1 then countZero s m.fut r else modFut s (futKey m.fut) fun x => { x with count := x.count - 1 } := by
  unfold refChange
  rw [h]
  simp only [hs, hu, Bool.false_eq_true, if_false]

theorem countZero_resolved {p : Payload} (h : r.state = .resolved) : countZero s p r = freeFut s (futKey p) := by
  simp only [countZero, h]

theorem countZero_running {p : Payload} (h : r.state = .running) : countZero s p r =
    if exitUnderWay s p then modFut s (futKey p) fun x => { x with count := 0 }
    else reclaimTask s (futKey p / 131072 * 65536 + r.colour) := by
  simp only [countZero, h]

end

/-- An effect of the task, or a copy that it has read, has yet to perform (R119, R274). -/
def exitBusy (s : State) (tid : Nat) : Bool :=
  (s.net.any fun x => match effectOf x with | some (t, _) => t = tid | none => false) || (s.gm.seen.any fun e => e.tid = tid)

theorem exitBusy_iff {tid : Nat} : exitBusy s tid = true ↔
    (∃ i ∈ s.net, ∃ q, effectOf i = some (tid, q)) ∨ ∃ y ∈ s.gm.seen, y.tid = tid := by
  simp only [exitBusy, Bool.or_eq_true, List.any_eq_true, decide_eq_true_eq]
  refine or_congr (exists_congr fun i => and_congr_right fun _ => ?_) Iff.rfl
  cases h : effectOf i with
  | none => simp
  | some p => simp [Prod.ext_iff]

section
variable {m : ExitMsg}

theorem futureExit_busy (h : exitBusy s m.tid = true) : futureExit s m = repost s (.futureExitArrive m) := if_pos h

theorem futureExit_gone (h : ¬ exitBusy s m.tid = true) (hf : futAt s m.fut = none) : futureExit s m = s := by
  refine (if_neg h).trans ?_
  rw [hf]

theorem futureExit_there {r : Fut} (h : ¬ exitBusy s m.tid = true) (hf : futAt s m.fut = some r) : futureExit s m =
    if m.dealt || (r.count = 0 && !r.stuck) || (r.stuck && (tget s.jb.jobs r.job).isNone) then freeFut s (futKey m.fut)
    else modFut s (futKey m.fut) fun x => { x with state := .resolved, result := m.tok } := by
  refine (if_neg h).trans ?_
  rw [hf]

end

theorem tgetD_tput_same {α : Type} (d : α) (t : Table α) (k : Nat) (v : α) : tgetD (tput t k v) k d = v := by
  simp only [tgetD, tget_tput_same, Option.getD_some]

/-! ### Colour drains (R43, R250) -/

/-- Something still carries a task's colour. -/
theorem colourCarried_iff (s : State) (tid : Nat) : (s.net.any (carriesColour tid) || (s.wk.toks.any fun e => e.msg.tid = tid)
    || s.gm.seen.any fun e => e.tid = tid) = true ↔
    (∃ i ∈ s.net, carriesColour tid i = true) ∨ (∃ y ∈ s.wk.toks, y.msg.tid = tid) ∨ ∃ y ∈ s.gm.seen, y.tid = tid := by
  simp only [Bool.or_eq_true, List.any_eq_true, decide_eq_true_eq, or_assoc]

/-- The state with a drained colour back in its pool. -/
def drained (s : State) (die colour : Nat) : State :=
  giveColour { s with wk := { s.wk with
    cooling := tputD [] s.wk.cooling die (lerase (tgetD s.wk.cooling die []) colour)
    reds := s.wk.reds.filter fun r => r.tid ≠ die * 65536 + colour } } die colour

theorem colourDrain_eq (s : State) (die colour : Nat) : colourDrain s die colour =
    if colour ∈ (tgetD s.wk.cooling die []).take 64 ∧ ¬ ((∃ i ∈ s.net, carriesColour (die * 65536 + colour) i = true) ∨
      (∃ y ∈ s.wk.toks, y.msg.tid = die * 65536 + colour) ∨ ∃ y ∈ s.gm.seen, y.tid = die * 65536 + colour)
    then drained s die colour else s := by
  have cond (a b c d : Bool) : (a && !b && !c && !d) = true ↔ a = true ∧ ¬ (b || c || d) = true := by
    cases a <;> cases b <;> cases c <;> cases d <;> decide
  unfold colourDrain
  extract_lets tid cool s1
  refine ite_congr (propext ?_) (fun _ => rfl) fun _ => rfl
  rw [cond, colourCarried_iff, List.contains_iff_mem]

end Sys2Proof.Machine

open Sys2Proof.Machine in
/-- Settles O37, by the cases of a change of the count, of an EXIT and of a colour drain. -/
theorem futuresAndColours : Obligations.FuturesAndColours := by
  unfold Obligations.FuturesAndColours
  refine ⟨fun s hs => ⟨fun m => ?change, fun m => ?exit⟩, fun s die colour hs => ?drain⟩
  case change =>
    intro e k
    have run : exec e s = .next (refChange s m) := rfl
    refine ⟨fun o hn ho => ?_, fun hn ho => ?_, fun r hr => ?live⟩
    · rw [run, refChange_late hn ho]
    · rw [run, refChange_gone hn ho]
    case live =>
      have at_ : tget s.wk.futs k = some r := tget_of_futAt (futAt_of_liveFut hr)
      refine ⟨fun st => ?_, fun st up => ?_, fun st up hc => ?_, fun st up hc hres => ?_, fun st up hc hrun hw => ?_,
        fun st up hc hrun hw => ?_⟩
      · rw [run, refChange_stuck hr st]
      · exact ⟨_, run, refChange_up hr st up⟩
      · rw [run, refChange_down hr st up, if_neg (Nat.not_le.mpr hc)]
        exact ⟨_, rfl, tget_modFut at_ _⟩
      · rw [run, refChange_down hr st up, if_pos hc, countZero_resolved hres]
        exact ⟨_, rfl, tget_freeFut at_⟩
      · rw [run, refChange_down hr st up, if_pos hc, countZero_running hrun, if_pos hw]
        exact ⟨_, rfl, tget_modFut at_ _, rfl⟩
      · rw [run, refChange_down hr st up, if_pos hc, countZero_running hrun, hw]
        exact ⟨_, rfl, taskAt_reclaimTask hs _⟩
  case exit =>
    intro e k busy
    have run : exec e s = .next (futureExit s m) := rfl
    have hbusy : busy ↔ exitBusy s m.tid = true := exitBusy_iff.symm
    rw [hbusy]
    refine ⟨fun h => ?_, fun h hn => ?_, fun r h hr hf => ?_, fun r h hr hd hc hj => ?_⟩
    · rw [run, futureExit_busy h]
    · rw [run, futureExit_gone h hn]
    · rw [run, futureExit_there h hr]
      refine ⟨_, congrArg _ (if_pos ?_), tget_freeFut (tget_of_futAt hr)⟩
      simpa [or_assoc] using hf
    · rw [run, futureExit_there h hr]
      refine ⟨_, congrArg _ (if_neg ?_), tget_modFut (tget_of_futAt hr) _, .of_eq rfl rfl⟩
      simp only [hd, Bool.false_or, Bool.or_eq_true, Bool.and_eq_true, decide_eq_true_eq, Bool.not_eq_true',
        Option.isNone_iff_eq_none, not_or, not_and]
      refine ⟨fun h0 hst => ?_, fun hst hn => ?_⟩
      · rcases hc with hc | hc
        · exact hc h0
        · simp [hst] at hc
      · simp [hn] at hj
        simp [hst] at hj
  case drain =>
    intro e tid cool carried
    have run : exec e s = .next (colourDrain s die colour) := rfl
    rw [run, colourDrain_eq]
    refine ⟨fun h => congrArg _ (if_neg ?_), fun hm hc => ⟨_, congrArg _ (if_pos ⟨hm, hc⟩), ?_, ?_, ?_, ?_, .of_eq rfl rfl⟩⟩
    · rintro ⟨hm, hc⟩
      exact h.elim (fun h => h hm) hc
    · exact tgetD_tputD_same [] _ _ _ hs.cooling
    · simp [drained, giveColour, wakeColour, tgetD_tput_same]
    · simp [drained, giveColour, wakeColour, tgetD_tput_same]
    · intro r hr
      simpa using (List.mem_filter.mp hr).2

namespace Sys2Proof.Machine

variable {s : State}

/-! ### Registers in the carve-out (R208, R221) -/

/-- A write to the carve-out changes bytes of memory alone. -/
theorem carvePut_keeps {β : Type} (p : State → β) (h : ∀ s g l, p { s with gm := g, ls := l } = p s) (s : State) (t : Task)
    (j off : Nat) (bs : List Byte) : p (carvePut s t j off bs) = p s := by
  unfold carvePut
  split
  next l _ =>
    cases l with
    | here g => exact h s s.gm _
    | copy vi d st => exact devPutAll_keeps p (fun s g => h s g s.ls) bs s vi _
  next => rfl

@[simp] theorem carvePut_gst (s : State) (t : Task) (j off : Nat) (bs : List Byte) (g : Nat) :
    gstAt (carvePut s t j off bs).ls g = gstAt s.ls g := by
  unfold carvePut
  split
  next l _ =>
    cases l with
    | here g => rfl
    | copy vi d st => exact congrArg (gstAt · g) (devPutAll_keeps State.ls (fun _ _ => rfl) bs s vi _)
  next => rfl

/-- A write within a granule of the carve-out changes no byte outside the granules of registers and spilled tokens. -/
theorem carvePut_outside (hs : Canonical s) {t : Task} {j off : Nat} {bs : List Byte} (hj : j < 52) (ho : off + bs.length ≤ 16)
    {a : Nat} (ha : outsideOwn s t a) : byteAt (carvePut s t j off bs).ls.bytes a = byteAt s.ls.bytes a := by
  unfold carvePut
  split
  next l hl =>
    cases l with
    | here g =>
      refine byteAt_setBytes_outside _ _ _ _ hs.bytes ?_
      have : a / 16 ≠ g := fun e => ha ⟨j, hj, e ▸ hl⟩
      unfold granuleByte
      omega
    | copy vi d st => exact congrArg (fun l => byteAt l.bytes a) (devPutAll_keeps State.ls (fun _ _ => rfl) bs s vi _)
  next => rfl

theorem storeReg_keeps {β : Type} (p : State → β) (h : ∀ s g l, p { s with gm := g, ls := l } = p s) (s : State) (tid r : Nat) :
    p (storeReg s tid r) = p s := by
  unfold storeReg
  split
  · exact (carvePut_keeps p h _ _ _ _ _).trans (carvePut_keeps p h _ _ _ _ _)
  · rfl

theorem storeRegs_keeps {β : Type} (p : State → β) (h : ∀ s g l, p { s with gm := g, ls := l } = p s) (s : State) (tid : Nat) :
    p (storeRegs s tid) = p s := foldl_keeps p (fun a r => storeReg_keeps p h a tid r) _ s

@[simp] theorem storeReg_gst (s : State) (tid r g : Nat) : gstAt (storeReg s tid r).ls g = gstAt s.ls g := by
  unfold storeReg
  split
  · exact (carvePut_gst _ _ _ _ _ _).trans (carvePut_gst _ _ _ _ _ _)
  · rfl

theorem storeRegs_gst (s : State) (tid g : Nat) : gstAt (storeRegs s tid).ls g = gstAt s.ls g :=
  foldl_keeps (fun a => gstAt a.ls g) (fun a r => storeReg_gst a tid r g) _ s

theorem outsideOwn_congr {u : State} (t : Task) (a : Nat) (h : u.al = s.al) : outsideOwn u t a ↔ outsideOwn s t a := by
  simp only [outsideOwn, ownGranule, carveGranule, recGranule, recVi, h]

@[simp] theorem length_bytesOf (n v : Nat) : (bytesOf n v).length = n := by
  induction n generalizing v with
  | zero => rfl
  | succ n ih => exact congrArg Nat.succ (ih _)

/-- The registers lie in the first granules of the carve-out. -/
theorem storeReg_outside (hs : Canonical s) {tid r a : Nat} {t : Task} (ht : taskAt s tid = some t) (hr : r < 64)
    (ha : outsideOwn s t a) : byteAt (storeReg s tid r).ls.bytes a = byteAt s.ls.bytes a := by
  simp only [storeReg, ht]
  rw [carvePut_outside (carvePut_canon hs), carvePut_outside hs]
  · unfold regGranule; omega
  · rw [length_bytesOf]; omega
  · exact ha
  · unfold tagGranule; omega
  · rw [List.length_singleton]; omega
  · exact (outsideOwn_congr t a (carvePut_keeps State.al (fun _ _ _ => rfl) _ _ _ _ _)).mpr ha

theorem storeEach_outside {tid a : Nat} {t : Task} {rs : List Nat} (hr : ∀ r ∈ rs, r < 64) :
    ∀ s, Canonical s → taskAt s tid = some t → outsideOwn s t a →
      byteAt (rs.foldl (fun a r => storeReg a tid r) s).ls.bytes a = byteAt s.ls.bytes a := by
  induction rs with
  | nil => exact fun _ _ _ _ => rfl
  | cons r rs ih =>
    intro s hs ht ha
    have first := storeReg_outside hs ht (hr r List.mem_cons_self) ha
    refine (ih (fun x hx => hr x (List.mem_cons_of_mem r hx)) _ (storeReg_canon hs) ?_ ?_).trans first
    · exact (storeReg_keeps (fun a => taskAt a tid) (fun _ _ _ => rfl) s tid r).trans ht
    · exact (outsideOwn_congr t a (storeReg_keeps State.al (fun _ _ _ => rfl) s tid r)).mpr ha

theorem storeRegs_outside (hs : Canonical s) {tid a : Nat} {t : Task} (ht : taskAt s tid = some t) (ha : outsideOwn s t a) :
    byteAt (storeRegs s tid).ls.bytes a = byteAt s.ls.bytes a := by
  unfold storeRegs
  exact storeEach_outside (fun _ => List.mem_range.mp) s hs ht ha

/-! ### A task that starts (R33, R194, R208, R221) -/

/-- A task as it starts. -/
def freshTask (s : State) (b : Start) : Task :=
  let l := tgetD s.jb.launches b.launch {}
  let stack := twinOf s b.carve
  { die := paneDie b.pane, colour := b.colour, pane := b.pane, q := contextOf s b.pane l.graph, graph := l.graph,
    launch := b.launch, vi := l.vi, job := l.job, carve := b.carve, stack := stack, granules := carveSize l,
    fut := b.fut, order := s.wk.order, wait := b.wait, spawned := b.spawned,
    regs := tput (tput b.regs 60 (mkTok .handle (handleOf stack))) 61 (mkTok .n32 0) }

/-- The state with the task, before its registers are stored. -/
def taskBegun (s : State) (b : Start) : State :=
  setTask { s with wk := { s.wk with order := s.wk.order + 1 } } (paneDie b.pane * 65536 + b.colour) (freshTask s b)

theorem startTask_eq (s : State) (b : Start) :
    startTask s b = storeRegs (taskBegun s b) (paneDie b.pane * 65536 + b.colour) := rfl

theorem startTask_keeps {β : Type} (p : State → β) (h : ∀ s g l, p { s with gm := g, ls := l } = p s) (s : State) (b : Start) :
    p (startTask s b) = p (taskBegun s b) := storeRegs_keeps p h _ _

theorem taskAt_startTask (s : State) (b : Start) :
    taskAt (startTask s b) (paneDie b.pane * 65536 + b.colour) = some (freshTask s b) :=
  (startTask_keeps (fun a => taskAt a _) (fun _ _ _ => rfl) s b).trans (tget_tput_same _ _ _)

theorem startTask_gst (s : State) (b : Start) (g : Nat) : gstAt (startTask s b).ls g = gstAt s.ls g := storeRegs_gst _ _ _

/-- A start changes no byte of local store but those of its registers. -/
theorem startTask_outside (hs : Canonical s) {b : Start} (hr : tsorted none b.regs = true) {a : Nat}
    (ha : outsideOwn s (freshTask s b) a) : byteAt (startTask s b).ls.bytes a = byteAt s.ls.bytes a := by
  have hc : Canonical (taskBegun s b) := setTask_canon { hs with } (tput_sorted _ _ _ (tput_sorted _ _ _ hr))
  rw [startTask_eq, storeRegs_outside hc (tget_tput_same _ _ _) ((outsideOwn_congr (s := s) _ a rfl).mpr ha)]
  rfl

/-! ### The line for colours and records (R193, R250, R256) -/

theorem wakeColour_keeps {β : Type} (p : State → β)
    (h : ∀ s w i, p { s with wk := { s.wk with waits := w, issue := i } } = p s) (s : State) : p (wakeColour s) = p s := h s _ _

theorem leaveLine_keeps {β : Type} (p : State → β)
    (h : ∀ s w i l, p { s with wk := { s.wk with waits := w, issue := i, line := l } } = p s) (s : State) (who : Asker) :
    p (leaveLine s who) = p s := by
  unfold leaveLine
  split
  · exact (wakeColour_keeps p (fun s w i => h s w i s.wk.line) _).trans (h s s.wk.waits s.wk.issue _)
  · rfl

theorem joinLine_keeps {β : Type} (p : State → β) (h : ∀ s l, p { s with wk := { s.wk with line := l } } = p s) (s : State)
    (die : Nat) (record : Bool) (who : Asker) : p (joinLine s die record who) = p s := by
  unfold joinLine
  split
  · rfl
  · exact h _ _

/-- A request that has joined the line stands in it. -/
theorem mem_joinLine (s : State) (die : Nat) (record : Bool) (who : Asker) :
    ∃ q ∈ (joinLine s die record who).wk.line, q.die = die ∧ q.record = record ∧ q.who = who := by
  unfold joinLine
  split
  next h =>
    obtain ⟨q, hq, e⟩ := List.any_eq_true.mp h
    simp only [Bool.and_eq_true, decide_eq_true_eq, and_assoc] at e
    exact ⟨q, hq, e⟩
  next => exact ⟨_, List.mem_append_right _ List.mem_cons_self, rfl, rfl, rfl⟩

theorem takeColour_keeps {β : Type} (p : State → β) (h : ∀ s l, p { s with wk := { s.wk with pools := l } } = p s) {s s1 : State}
    {die c : Nat} (hc : takeColour s die = some (c, s1)) : p s1 = p s := by
  unfold takeColour at hc
  extract_lets pl put at hc
  split at hc
  · cases hc
    exact h _ _
  · split at hc
    · cases hc
      exact h _ _
    · exact nomatch hc

/-! ### The dealer (R32, R33, R242, R260) -/

section
variable {key : Nat} {l : Launch}

theorem dealChunk_idle (hl : tget s.jb.launches key = some l) (h : dealing s l = false ∨ unitsFull s key 1 = true) :
    dealChunk s key = s := by
  simp only [dealChunk, hl]
  exact if_pos (by rcases h with h | h <;> simp [h])

theorem dealChunk_done (hl : tget s.jb.launches key = some l) (hh : l.hand = none) (hd : l.reccount ≤ l.dealt) :
    dealChunk s key = s := by
  have hand : handOf s l = none := by
    simp only [handOf, hh]
    exact if_neg (Nat.not_lt.mpr hd)
  simp only [dealChunk, hl, hand, ite_self]

/-- The chunk that is formed where there is none in hand. -/
def nextChunk (s : State) (l : Launch) : Chunk := ⟨l.dealt, chunkSize s l, none, none, none⟩

theorem dealChunk_ask (hl : tget s.jb.launches key = some l) (hd : dealing s l = true) (hu : unitsFull s key 1 = false)
    (hh : l.hand = none) (hr : l.dealt < l.reccount) :
    dealChunk s key = dealAsk s key { l with dealt := l.dealt + chunkSize s l } (nextChunk s l) := by
  have hand : handOf s l = some (nextChunk s l, { l with dealt := l.dealt + chunkSize s l }) := by
    simp only [handOf, hh]
    exact if_pos hr
  simp only [dealChunk, hl, hd, hu, hand]
  rfl

/-- The pane of a new chunk, of those with fewer than two tasks of the launch the one with the fewest (R242). -/
def dealPane (s : State) (key : Nat) (l : Launch) : Option Nat :=
  fewest (fun p => liveOn s fun t => t.launch = key && t.pane = p)
    ((boundPanes s l.graph).filter fun p => liveOn s (fun t => t.launch = key && t.pane = p) < 2)

/-- The launch with a chunk in the dealer's hand. -/
def withHand (s : State) (key : Nat) (l : Launch) (c : Chunk) : State := modLaunch s key fun _ => { l with hand := some c }

theorem dealAsk_line {p : Nat} {l' : Launch} (hg : l'.graph = l.graph) (hp : dealPane s key l = some p)
    (hc : takeColour s (p / 192) = none ∨ mayTake s (p / 192) false (.deal key) = false) :
    dealAsk s key l' (nextChunk s l) =
      joinLine (withHand s key l' { nextChunk s l with pane := some p }) (p / 192) false (.deal key) := by
  have none_ : (if mayTake s (paneDie p) false (.deal key) then takeColour s (paneDie p) else none) = none := by
    unfold paneDie
    rcases hc with h | h
    · rw [h, ite_self]
    · rw [h]; rfl
  unfold dealPane at hp
  rw [← hg] at hp
  simp only [dealAsk, nextChunk, hp, none_] <;> rfl

theorem dealAsk_colour {p col : Nat} {s1 : State} {l' : Launch} (hg : l'.graph = l.graph) (hp : dealPane s key l = some p)
    (hc : takeColour s (p / 192) = some (col, s1)) (hm : mayTake s (p / 192) false (.deal key) = true) :
    dealAsk s key l' (nextChunk s l) =
      post (leaveLine (withHand s1 key l' { nextChunk s l with pane := some p, colour := some col }) (.deal key))
        [.allocRequestArrive ⟨.deal key, poolKey p, carveSize l', 0, 16, 0, 0, col, s.clk.cycle, 0⟩] := by
  have some_ : (if mayTake s (paneDie p) false (.deal key) then takeColour s (paneDie p) else none) = some (col, s1) := by
    unfold paneDie
    rw [hm, if_pos rfl, hc]
  unfold dealPane at hp
  rw [← hg] at hp
  simp only [dealAsk, nextChunk, hp, some_] <;> rfl

/-- What a dealt task starts with (R33, R208). -/
def dealtStart (key : Nat) (l : Launch) (c : Chunk) (p col carve fut : Nat) : Start :=
  ⟨p, col, key, fut, carve,
    [(56, mkTok .addr ((l.records + c.first * l.recsize) % 2 ^ 52)), (57, mkTok .i32 c.count), (58, mkTok .i32 l.id),
      (59, mkTok .addr l.card)], [], false⟩

theorem dealChunk_start {c : Chunk} {p col carve fut : Nat} (hl : tget s.jb.launches key = some l) (hd : dealing s l = true)
    (hu : unitsFull s key 1 = false) (hh : l.hand = some c) (hp : c.pane = some p) (hc : c.colour = some col)
    (hg : c.granted = some carve) (hf : takeFut s (p / 192) = some fut) (hm : mayTake s (p / 192) true (.deal key) = true) :
    dealChunk s key = post (modLaunch (startTask (putFut (leaveLine s (.deal key)) fut col p l.id (jobKey l.vi l.job))
      (dealtStart key l c p col carve fut)) key fun x => { x with hand := none })
        (entryRun (p / 192 * 65536 + col) l.entry c.count) := by
  have some_ : (if mayTake s (paneDie p) true (.deal key) then takeFut s (paneDie p) else none) = some fut := by
    unfold paneDie
    rw [hm, if_pos rfl, hf]
  have hand : handOf s l = some (c, l) := by simp only [handOf, hh]
  simp only [dealChunk, hl, hd, hu, hand, hp, hc, hg, dealStart, some_]
  rfl

end

end Sys2Proof.Machine

open Sys2Proof.Machine in
/-- Settles O36, by the steps of R242: nothing to deal, the wait for a colour, the request of a carve-out, the start. -/
theorem chunksDealt : Obligations.ChunksDealt := by
  unfold Obligations.ChunksDealt
  intro s key l hs hl e
  have run : exec e s = .next (dealChunk s key) := rfl
  refine ⟨fun h => run.trans (congrArg _ (dealChunk_idle hl h)), fun _ hh hr => run.trans (congrArg _ (dealChunk_done hl hh hr)),
    ?line, ?colour, ?start⟩
  case line =>
    intro p hd hu hh hr hp hc
    rw [run, dealChunk_ask hl hd hu hh hr, dealAsk_line (l := l) (l' := { l with dealt := l.dealt + chunkSize s l }) rfl hp hc]
    obtain ⟨q, hq, die, record, who⟩ := mem_joinLine (withHand s key { l with dealt := l.dealt + chunkSize s l }
      { nextChunk s l with pane := some p }) (p / 192) false (.deal key)
    refine ⟨_, rfl, ?_, ?_, .of_eq ?_ ?_, q, hq, who, die, record⟩
    · exact joinLine_keeps State.net (fun _ _ => rfl) _ _ _ _
    · exact joinLine_keeps (fun a => a.wk.tasks) (fun _ _ => rfl) _ _ _ _
    · exact joinLine_keeps State.gm (fun _ _ => rfl) _ _ _ _
    · exact joinLine_keeps State.ls (fun _ _ => rfl) _ _ _ _
  case colour =>
    intro p col s1 hd hu hh hr hp hc hm
    rw [run, dealChunk_ask hl hd hu hh hr, dealAsk_colour (l := l) (l' := { l with dealt := l.dealt + chunkSize s l }) rfl hp hc hm]
    have took {β : Type} (p : State → β) (h1 : ∀ s l, p { s with wk := { s.wk with pools := l } } = p s) : p s1 = p s :=
      takeColour_keeps p h1 hc
    have hl1 : tget s1.jb.launches key = some l := by rw [took State.jb fun _ _ => rfl, hl]
    refine ⟨_, ⟨.deal key, poolKey p, carveSize l, 0, 16, 0, 0, col, s.clk.cycle, 0⟩,
      { l with dealt := l.dealt + chunkSize s l, hand := some ⟨l.dealt, chunkSize s l, some p, some col, none⟩ },
      rfl, ?_, rfl, rfl, rfl, rfl, ?_, rfl, rfl, .of_eq ?_ ?_⟩
    · exact congrArg (· ++ _) ((leaveLine_keeps State.net (fun _ _ _ _ => rfl) _ _).trans (took State.net fun _ _ => rfl))
    · refine (congrArg (tget · key) (leaveLine_keeps (fun a => a.jb.launches) (fun _ _ _ _ => rfl) _ _)).trans ?_
      exact (tget_tmod_same _ _ _).trans (congrArg _ hl1)
    · exact (leaveLine_keeps State.gm (fun _ _ _ _ => rfl) _ _).trans (took State.gm fun _ _ => rfl)
    · exact (leaveLine_keeps State.ls (fun _ _ _ _ => rfl) _ _).trans (took State.ls fun _ _ => rfl)
  case start =>
    intro c p col carve fut hd hu hh hp hc hg hf hm
    rw [run, dealChunk_start hl hd hu hh hp hc hg hf hm]
    generalize hs1 : putFut (leaveLine s (.deal key)) fut col p l.id (jobKey l.vi l.job) = s1
    have before {β : Type} (p : State → β) (h1 : ∀ s f w i l,
        p { s with wk := { s.wk with futs := f, waits := w, issue := i, line := l } } = p s) : p s1 = p s := by
      rw [← hs1]
      exact (h1 (leaveLine s (.deal key)) _ _ _ _).trans (leaveLine_keeps p (fun s w i l => h1 s s.wk.futs w i l) _ _)
    have hs1c : Canonical s1 := hs1 ▸ { leaveLine_canon hs with }
    have hl1 : tgetD s1.jb.launches key {} = l := by
      rw [before State.jb fun _ _ _ _ _ => rfl, tgetD, hl]
      rfl
    have htask := taskAt_startTask s1 (dealtStart key l c p col carve fut)
    have hnet : (startTask s1 (dealtStart key l c p col carve fut)).net = s.net :=
      (startTask_keeps State.net (fun _ _ _ => rfl) _ _).trans (before State.net fun _ _ _ _ _ => rfl)
    have hls : s1.ls = s.ls := before State.ls fun _ _ _ _ _ => rfl
    have hgst := startTask_gst s1 (dealtStart key l c p col carve fut)
    have hout {a : Nat} := startTask_outside hs1c (b := dealtStart key l c p col carve fut) (a := a) rfl
    have hown (a : Nat) := outsideOwn_congr (s := s) (u := s1) (freshTask s1 (dealtStart key l c p col carve fut)) a
      (before State.al fun _ _ _ _ _ => rfl)
    generalize startTask s1 (dealtStart key l c p col carve fut) = v at htask hnet hgst hout ⊢
    refine ⟨_, freshTask s1 (dealtStart key l c p col carve fut), rfl, htask, rfl, rfl, congrArg Launch.graph hl1, rfl, rfl, rfl,
      rfl, rfl, rfl, rfl, fun r hr => ?_, congrArg (· ++ _) hnet, fun g => ?_, fun a ha => ?_⟩
    · have others : r ≠ 56 ∧ r ≠ 57 ∧ r ≠ 58 ∧ r ≠ 59 ∧ r ≠ 60 ∧ r ≠ 61 := by omega
      obtain ⟨h56, h57, h58, h59, h60, h61⟩ := others
      simp only [regOf, freshTask, dealtStart, tgetD, tget_tput_other _ _ _ _ h61, tget_tput_other _ _ _ _ h60, tget, h56, h57, h58,
        h59, if_false, ite_self, Option.getD_none]
    · exact (hgst g).trans (congrArg (gstAt · g) hls)
    · exact (hout ((hown a).mpr ha)).trans (congrArg (fun l => byteAt l.bytes a) hls)

namespace Sys2Proof.Machine

variable {s : State}

/-! ### Device writes do not look at jobs and launches (R34, R36, R246, R356) -/

/-- A state with other jobs and launches. -/
def withLevels (s : State) (J : Table Job) (L : Table Launch) : State := { s with jb := { s.jb with jobs := J, launches := L } }

section
variable {J : Table Job} {L : Table Launch}

/-- A branch of an operation that commutes with a change of jobs and launches. -/
theorem ite_withLevels {c : Prop} [Decidable c] {a b a' b' : State} (ha : a' = withLevels a J L) (hb : b' = withLevels b J L) :
    (if c then a' else b') = withLevels (if c then a else b) J L := by
  rw [ha, hb]
  exact (apply_ite (withLevels · J L) c a b).symm

theorem foldl_withLevels {α : Type} {f : State → α → State} (hf : ∀ s a, f (withLevels s J L) a = withLevels (f s a) J L)
    (l : List α) (s : State) : l.foldl f (withLevels s J L) = withLevels (l.foldl f s) J L := by
  induction l generalizing s with
  | nil => rfl
  | cons a t ih => rw [List.foldl_cons, hf, ih, List.foldl_cons]

theorem noteChecked_withLevels (t : TlbEntry) : noteChecked (withLevels s J L) t = withLevels (noteChecked s t) J L :=
  ite_withLevels rfl rfl

theorem touchAt_withLevels (vi va : Nat) : touchAt vi (withLevels s J L) va = withLevels (touchAt vi s va) J L := by
  have hw : walk (withLevels s J L) vi va = walk s vi va := rfl
  simp only [touchAt, hw]
  rcases walk s vi va with ⟨w, pas⟩
  cases w with
  | leaf t =>
    refine Eq.trans (congrArg (noteChecked · t) ?_) (noteChecked_withLevels t)
    exact ite_withLevels rfl rfl
  | missing l p e => rfl
  | refused => rfl

theorem devTouch_withLevels (vi va n : Nat) : devTouch (withLevels s J L) vi va n = withLevels (devTouch s vi va n) J L := by
  unfold devTouch
  rw [ite_withLevels rfl (touchAt_withLevels vi _)]
  exact foldl_withLevels (fun a k => touchAt_withLevels vi k) _ _

theorem devPut_withLevels (vi va : Nat) (b : Byte) : devPut (withLevels s J L) vi va b = withLevels (devPut s vi va b) J L := by
  have hx : devXlat (withLevels s J L) vi va .write = devXlat s vi va .write := rfl
  unfold devPut
  rw [hx]
  split <;> rfl

theorem devPutAll_withLevels (bs : List Byte) : ∀ (s : State) (vi va : Nat),
    devPutAll (withLevels s J L) vi va bs = withLevels (devPutAll s vi va bs) J L := by
  induction bs with
  | nil => exact fun _ _ _ => rfl
  | cons b t ih =>
    intro s vi va
    simp only [devPutAll]
    rw [devPut_withLevels, ih]

theorem devStore_withLevels (vi va : Nat) (bs : List Byte) :
    devStore (withLevels s J L) vi va bs = withLevels (devStore s vi va bs) J L := by
  unfold devStore
  rw [devTouch_withLevels, devPutAll_withLevels]

theorem devGet_withLevels (vi va n : Nat) : devGet (withLevels s J L) vi va n = devGet s vi va n := by
  induction n generalizing va with
  | zero => rfl
  | succ n ih => exact congrArg (List.cons _) (ih _)

theorem faultRecord_withLevels (die vi va : Nat) (bs : List Byte) :
    faultRecord (withLevels s J L) die vi va bs = withLevels (faultRecord s die vi va bs) J L := ite_withLevels rfl rfl

theorem devWriteFault_withLevels (vi va : Nat) (bs : List Byte) :
    devWriteFault (withLevels s J L) vi va bs = withLevels (devWriteFault s vi va bs) J L := by
  have hx : devRange (withLevels s J L) vi va .write bs.length = devRange s vi va .write bs.length := rfl
  refine ite_withLevels rfl ?_
  rw [hx]
  split
  · exact devStore_withLevels vi va bs
  · exact faultRecord_withLevels 0 vi va bs
  · rfl

/-- The records of a group go to the ring one after another. -/
theorem ringRecords_withLevels {g : State × Nat → Nat → State × Nat}
    (hg : ∀ a n r, g (withLevels a J L, n) r = (withLevels (g (a, n) r).1 J L, (g (a, n) r).2)) (l : List Nat) (a : State) (n : Nat) :
    (l.foldl g (withLevels a J L, n)).1 = withLevels (l.foldl g (a, n)).1 J L := by
  induction l generalizing a n with
  | nil => rfl
  | cons r t ih =>
    rw [List.foldl_cons, List.foldl_cons, hg]
    exact ih _ _

theorem ringWrite_withLevels (vi : Nat) (recs : List Nat) :
    ringWrite (withLevels s J L) vi recs = withLevels (ringWrite s vi recs) J L := by
  unfold ringWrite
  refine ite_withLevels rfl ?_
  simp only [devGet_withLevels, devTouch_withLevels]
  refine ite_withLevels ?_ ?_
  · exact devWriteFault_withLevels (s := modVi (devTouch s vi _ 8) vi _) _ _ _
  · refine (congrArg (devWriteFault · vi _ _) ?_).trans (devWriteFault_withLevels _ _ _)
    refine (congrArg (modVi · vi _) (ringRecords_withLevels (fun a n r => ?_) recs _ _)).trans rfl
    exact congrArg (·, n + 1) (devWriteFault_withLevels _ _ _)

/-- A device write is the same whatever the jobs and launches, and leaves them as they are. -/
theorem devWrite_withLevels (die vi va : Nat) (bs : List Byte) :
    devWrite (withLevels s J L) die vi va bs = withLevels (devWrite s die vi va bs) J L := by
  have hx : devRange (withLevels s J L) vi va .write bs.length = devRange s vi va .write bs.length := rfl
  unfold devWrite
  rw [hx]
  split
  · exact devStore_withLevels vi va bs
  · exact faultRecord_withLevels die vi va bs
  · exact ite_withLevels rfl (ringWrite_withLevels (s := countFaultInfo s _ _) _ _)

end

/-! ### Grants leave global memory as it is (R231 to R236) -/

theorem deliverHandle_gm (s : State) (f : Firing) (key : Nat) : (deliverHandle s f key).gm = s.gm := by
  dsimp only [deliverHandle]
  split
  · rfl
  · rfl

theorem grant_gm (s : State) (k : Nat) (r : AllocReq) (e1 e2 : Nat × Nat) : (grant s k r e1 e2).gm = s.gm := by
  have clear (a : State) (pane : Nat) (e : Nat × Nat) : (clearGranules a pane e).gm = a.gm := by
    refine foldl_keeps State.gm (fun b g => ?_) (rangeFrom e.1 e.2) a
    rfl
  unfold grant
  extract_lets a s0 cleared _ s1 rec0
  have h1 : s1.gm = s.gm := (clear _ _ _).trans (clear _ _ _)
  split
  · rfl
  · split
    · exact (deliverHandle_gm _ _ _).trans h1
    · split
      exacts [rfl, h1]
    · split
      exacts [rfl, h1]
    · split
      exacts [rfl, h1]

theorem scanGrant_gm (k limit : Nat) (ws : List AllocReq) : ∀ (older : List AllocReq) (s : State),
    (scanGrant k limit ws older s).1.gm = s.gm := by
  induction ws with
  | nil => exact fun _ _ => rfl
  | cons w rest ih =>
    intro older s
    have h2 (e : Nat × Nat) (a : Arena) : (setArena (grant s k w e (0, 0)) k a).gm = s.gm := by rw [setArena_gm, grant_gm]
    simp only [scanGrant]
    split
    · exact ih _ s
    · split
      · exact ih _ s
      · split
        · simp only [apply_ite Prod.fst, apply_ite State.gm, ih, h2, ite_self]
        · split
          · simp only [apply_ite Prod.fst, apply_ite State.gm, ih, h2, ite_self]
          · exact h2 _ _

theorem attemptFuel_gm (k n : Nat) : ∀ s, (attemptFuel k n s).gm = s.gm := by
  induction n with
  | zero => exact fun _ => rfl
  | succ n ih =>
    intro s
    dsimp only [attemptFuel]
    split
    · rfl
    · split
      · split
        · rfl
        · split
          · rfl
          · rw [ih, setArena_gm, grant_gm, setArena_gm]
      · split
        · exact (ih _).trans (scanGrant_gm _ _ _ _ _)
        · exact scanGrant_gm _ _ _ _ _

/-! ### Completion of launches (R34, R36, R199) -/

/-- An entry of a table whose keys a map keeps. -/
theorem tget_map_keys {α : Type} {f : Nat × α → Nat × α} (hf : ∀ e, (f e).1 = e.1) (t : Table α) (k : Nat) :
    tget (t.map f) k = (tget t k).map fun v => (f (k, v)).2 := by
  induction t with
  | nil => rfl
  | cons e t ih =>
    obtain ⟨j, w⟩ := e
    have hfst : f (j, w) = (j, (f (j, w)).2) := Prod.ext (hf _) rfl
    rw [List.map_cons, hfst]
    simp only [tget]
    split
    next h => subst h; rfl
    next => split
            · rfl
            · exact ih

/-- Removing entries of other keys leaves an entry of a sorted table. -/
theorem tget_foldl_tdel {α : Type} {es : List (Nat × α)} {k : Nat} (h : ∀ e ∈ es, e.1 ≠ k) : ∀ t : Table α,
    tsorted none t = true → tget (es.foldl (fun t e => tdel t e.1) t) k = tget t k := by
  induction es with
  | nil => exact fun _ _ => rfl
  | cons e es ih =>
    intro t ht
    rw [List.foldl_cons, ih (fun x hx => h x (List.mem_cons_of_mem e hx)) _ (tdel_sorted _ _ ht)]
    exact tget_tdel_other _ _ _ (h e List.mem_cons_self).symm ht

/-- A sorted table lists one entry for a key. -/
theorem tget_of_mem {α : Type} {t : Table α} (h : tsorted none t = true) {e : Nat × α} (he : e ∈ t) : tget t e.1 = some e.2 := by
  induction t with
  | nil => exact nomatch he
  | cons x t ih =>
    rw [tsorted_iff_pairwise, List.map_cons, List.pairwise_cons, ← tsorted_iff_pairwise] at h
    obtain ⟨above, ht⟩ := h
    rcases List.mem_cons.mp he with rfl | hm
    · exact if_pos rfl
    · have lt := above e.1 (List.mem_map_of_mem (f := Prod.fst) hm)
      exact (if_neg (by omega)).trans ((if_neg (by omega)).trans (ih ht hm))

/-- What the count of later launches looks at. -/
def Launch.place (l : Launch) : Nat × Nat × Nat := (l.vi, l.job, l.id)

theorem issuedAfter_congr {u : State} (hv : (viD u vi).nextLaunch = (viD s vi).nextLaunch)
    (hl : tview Launch.place u.jb.launches = tview Launch.place s.jb.launches) (job id : Nat) :
    issuedAfter u vi job id = issuedAfter s vi job id := by
  have count (s : State) : issuedAfter s vi job id = ((tview Launch.place s.jb.launches).filter fun e =>
      (e.2.1 = vi && e.2.2.1 = job) && ((viD s vi).nextLaunch + 2 ^ 32 - e.2.2.2) % 2 ^ 32 <
        ((viD s vi).nextLaunch + 2 ^ 32 - id) % 2 ^ 32).length := by
    simp only [issuedAfter, launchesOf, tview, List.filter_map, List.length_map, List.filter_filter]
    refine congrArg List.length (List.filter_congr fun e _ => ?_)
    simp only [Function.comp, Launch.place]
    exact Bool.and_comm _ _
  rw [count, count, hv, hl]

section
variable {key : Nat} {l : Launch}

/-- The launch's level, completed. -/
def Launch.completed (l : Launch) : Lvl := { l.lvl with done := true, isOpen := false }

/-- The state with the launch completed and its record on its way, before the oldest launches are forgotten. -/
def launchDone (s : State) (key : Nat) (l : Launch) : State :=
  match l.doneAddr with
  | some a => withLevels (devWrite s (graphDie s l.graph) l.vi a (bytesOf 16 (completionBits l.completed
      (dieTime s (graphDie s l.graph))))) s.jb.jobs (tmod s.jb.launches key fun x => { x with lvl := l.completed })
  | none => modLaunch s key fun x => { x with lvl := l.completed }

theorem launchComplete_idle (hl : tget s.jb.launches key = some l)
    (h : l.lvl.done = true ∨ launchBusy s key = true ∨ launchDealt s l = false) : launchComplete s key = s := by
  simp only [launchComplete, hl]
  exact if_pos (by rcases h with h | h | h <;> simp [h])

theorem launchComplete_done (hl : tget s.jb.launches key = some l) (hd : l.lvl.done = false) (hb : launchBusy s key = false)
    (hr : launchDealt s l = true) : launchComplete s key = pruneLaunches (launchDone s key l) l.vi l.job := by
  simp only [launchComplete, hl, launchDone]
  rw [if_neg (by simp [hd, hb, hr])]
  cases ha : l.doneAddr with
  | none => rfl
  | some a => exact congrArg (pruneLaunches · l.vi l.job) (devWrite_withLevels (s := s) _ _ _ _)

theorem devWrite_keeps {β : Type} {p : State → β}
    (h : ∀ s g d w r, p { s with gm := g, jb := { s.jb with heldDev := d }, fw := w, sr := r } = p s)
    (hv : ∀ s k f, (∀ v : Vi, (f v).nextLaunch = v.nextLaunch) → p (modVi s k f) = p s)
    (s : State) (die vi va : Nat) (bs : List Byte) : p (devWrite s die vi va bs) = p s := by
  unfold devWrite
  split
  · exact devStore_keeps p (fun s g => h s g s.jb.heldDev s.fw s.sr) s vi va bs
  · unfold faultRecord sendPageFault
    split
    · exact h s s.gm _ s.fw s.sr
    · exact h s s.gm _ _ s.sr
  · split
    · rfl
    · exact writeRecord_keeps h hv s vi _ _

/-- The launch ids of an interface go on as before. -/
theorem devWrite_nextLaunch (s : State) (die vi va : Nat) (bs : List Byte) (k : Nat) :
    (viD (devWrite s die vi va bs) k).nextLaunch = (viD s k).nextLaunch := by
  refine devWrite_keeps (p := fun a => (viD a k).nextLaunch) (fun _ _ _ _ _ => rfl) (fun s j f hf => ?_) s die vi va bs
  have view : (tget (modVi s j f).jb.vis k).map Vi.nextLaunch = (tget s.jb.vis k).map Vi.nextLaunch := by
    rw [← tget_tview, ← tget_tview]
    exact congrArg (tget · k) (tview_tmod hf)
  have next (o : Option Vi) : (o.getD {}).nextLaunch = (o.map Vi.nextLaunch).getD ({} : Vi).nextLaunch := by
    cases o <;> rfl
  exact (next _).trans ((congrArg (Option.getD · _) view).trans (next _).symm)

/-- What a completed launch's state has of launches, interfaces and the rest. -/
theorem launchDone_frame (s : State) (key : Nat) (l : Launch) :
    (launchDone s key l).jb.launches = (tmod s.jb.launches key fun x => { x with lvl := l.completed }) ∧
      (launchDone s key l).ls = s.ls ∧ (launchDone s key l).wk = s.wk ∧
      ∀ k, (viD (launchDone s key l) k).nextLaunch = (viD s k).nextLaunch := by
  unfold launchDone
  split
  · exact ⟨rfl, devWrite_keeps (p := State.ls) (fun _ _ _ _ _ => rfl) (fun _ _ _ _ => rfl) _ _ _ _ _,
      devWrite_keeps (p := State.wk) (fun _ _ _ _ _ => rfl) (fun _ _ _ _ => rfl) _ _ _ _ _,
      fun k => devWrite_nextLaunch s _ _ _ _ k⟩
  · exact ⟨rfl, rfl, rfl, fun _ => rfl⟩

/-- A launch with fewer than 4,096 later ones of its job stands, completed, once the oldest are forgotten (R199). -/
theorem tget_launchDone (hs : Canonical s) (hl : tget s.jb.launches key = some l) (hi : issuedAfter s l.vi l.job l.id < 4096) :
    tget (pruneLaunches (launchDone s key l) l.vi l.job).jb.launches key = some { l with lvl := l.completed } := by
  obtain ⟨launches, -, -, next⟩ := launchDone_frame s key l
  have sorted : tsorted none (launchDone s key l).jb.launches = true := launches ▸ tmod_sorted hs.launches
  have there : tget (launchDone s key l).jb.launches key = some { l with lvl := l.completed } := by
    rw [launches, tget_tmod_same, hl]
    rfl
  have after : issuedAfter (launchDone s key l) l.vi l.job l.id = issuedAfter s l.vi l.job l.id := by
    refine issuedAfter_congr (next _) ?_ _ _
    rw [launches]
    exact tview_tmod fun _ => rfl
  refine (tget_foldl_tdel (fun e he => ?_) _ sorted).trans there
  rintro rfl
  obtain ⟨hm, hold⟩ := List.mem_filter.mp he
  have entry : e.2 = { l with lvl := l.completed } :=
    Option.some.inj ((tget_of_mem sorted (List.mem_of_mem_filter hm)).symm.trans there)
  rw [entry] at hold
  simp only [Bool.and_eq_true, decide_eq_true_eq] at hold
  exact absurd (after ▸ hold.2) (Nat.not_le.mpr hi)

end

/-! ### Completion of graphs and phases (R31, R34) -/

section
variable {k n : Nat} {g : Graph}

/-- Whether a launch may count in a graph and has not completed (R198, R260). -/
theorem graphUnits_ne_zero (hg : tget s.cf.graphs k = some g) (hn : g.phase = some n)
    (hc : (tgetD s.jb.phases (phaseKey g.vi g.job n) {}).lvl.isOpen = false) : graphUnits s k ≠ 0 ↔
      ∃ y ∈ s.jb.launches, (y.2.graph = k ∨ (y.2.graph = noGraph ∧ y.2.vi = g.vi ∧ y.2.job = g.job ∧ y.2.phase = n)) ∧
        y.2.lvl.done = false := by
  have hgD : tgetD s.cf.graphs k {} = g := by rw [tgetD, hg]; rfl
  have closed : graphUnits s k = (s.jb.launches.filter fun e => countsIn k g e.2 && !e.2.lvl.done).length := by
    simp only [graphUnits, hgD, hn, hc]
    rfl
  rw [closed, Nat.ne_zero_iff_zero_lt, List.length_pos_iff_exists_mem]
  simp only [List.mem_filter, countsIn, hn, Bool.and_eq_true, Bool.or_eq_true, decide_eq_true_eq, Bool.not_eq_true',
    Option.some.injEq, and_assoc]

theorem graphComplete_idle (hg : tget s.cf.graphs k = some g) (hn : g.phase = some n)
    (h : g.lvl.done = true ∨ ¬ (tgetD s.jb.phases (phaseKey g.vi g.job n) {}).lvl.isOpen = false ∨ graphUnits s k ≠ 0) :
    graphComplete s k = s := by
  simp only [graphComplete, hg, hn]
  refine if_pos ?_
  rcases h with h | h | h
  · simp [h]
  · simp [Bool.not_eq_false _ ▸ h]
  · simp [h]

theorem graphComplete_done (hg : tget s.cf.graphs k = some g) (hn : g.phase = some n) (hd : g.lvl.done = false)
    (hc : (tgetD s.jb.phases (phaseKey g.vi g.job n) {}).lvl.isOpen = false) (hu : graphUnits s k = 0) :
    graphComplete s k = releaseArenas (modGraph s k fun g => { g with lvl := { g.lvl with done := true, isOpen := false } }) k := by
  simp only [graphComplete, hg, hn]
  exact if_neg (by simp [hd, hc, hu])

theorem releaseArenas_keeps {β : Type} (p : State → β) (h : ∀ s n, p { s with net := n } = p s) (s : State) (g : Nat) :
    p (releaseArenas s g) = p s := foldl_keeps p (fun _ _ => h _ _) _ s

end

section
variable {k : Nat} {p : Phase}

/-- A graph or a launch of a phase has not completed. -/
def phaseBusy (s : State) (k : Nat) : Bool :=
  ((graphsOfJob s (k / 2 ^ 32)).any fun e => e.2.phase = some (k % 2 ^ 32) && !e.2.lvl.done)
    || ((launchesOf s (k / 2 ^ 32 / 65536) (k / 2 ^ 32 % 65536)).any fun e => e.2.phase = k % 2 ^ 32 && !e.2.lvl.done)

theorem phaseBusy_iff : phaseBusy s k = true ↔
    (∃ y ∈ s.cf.graphs, y.1 / 65536 = k / 2 ^ 32 ∧ y.2.phase = some (k % 2 ^ 32) ∧ y.2.lvl.done = false) ∨
    ∃ y ∈ s.jb.launches, y.2.vi = k / 2 ^ 32 / 65536 ∧ y.2.job = k / 2 ^ 32 % 65536 ∧ y.2.phase = k % 2 ^ 32 ∧
      y.2.lvl.done = false := by
  simp only [phaseBusy, graphsOfJob, launchesOf, List.any_filter, Bool.or_eq_true, List.any_eq_true, Bool.and_eq_true,
    decide_eq_true_eq, Bool.not_eq_true', and_assoc]

theorem phaseComplete_idle (hp : tget s.jb.phases k = some p)
    (h : p.lvl.done = true ∨ p.lvl.isOpen = true ∨ phaseBusy s k = true) : phaseComplete s k = s := by
  simp only [phaseComplete, hp]
  refine if_pos ?_
  rw [Bool.or_assoc]
  show (p.lvl.done || p.lvl.isOpen || phaseBusy s k) = true
  rcases h with h | h | h <;> simp [h]

theorem phaseComplete_done (hp : tget s.jb.phases k = some p) (hd : p.lvl.done = false) (ho : p.lvl.isOpen = false)
    (hb : phaseBusy s k = false) : phaseComplete s k = modPhase s k fun p => { p with lvl := { p.lvl with done := true } } := by
  simp only [phaseComplete, hp]
  refine if_neg ?_
  rw [Bool.or_assoc]
  show ¬ (p.lvl.done || p.lvl.isOpen || phaseBusy s k) = true
  simp [hd, ho, hb]

end

/-! ### Completion of jobs (R31, R36, R246, R251) -/

section
variable {jk a : Nat} {j : Job}

theorem unbind_gm (s : State) (i : Nat) : (unbind s i).gm = s.gm := by
  have attempt (a : State) (pane : Nat) : (attemptPane a pane).gm = a.gm :=
    foldl_keeps State.gm (fun a k => attemptFuel_gm k _ a) _ a
  exact attempt _ _

theorem dropJob_gm (s : State) (jk : Nat) : (dropJob s jk).gm = s.gm := by
  unfold dropJob
  exact foldl_keeps State.gm unbind_gm _ s

theorem dropFuts_keeps {β : Type} (p : State → β)
    (h : ∀ s f w i, p { s with wk := { s.wk with futs := f, waits := w, issue := i } } = p s) (s : State) (jk : Nat) :
    p (dropFuts s jk) = p s := foldl_keeps p (fun _ _ => h _ _ _ _) _ s

theorem jobGone_keeps {β : Type} (p : State → β) (h : ∀ s v, p { s with jb := { s.jb with vis := v } } = p s) (s : State)
    (vi jk : Nat) : p (jobGone s vi jk) = p s := by
  dsimp only [jobGone]
  split
  · exact (h _ _).trans (h _ _)
  · exact h _ _

/-- A job that leaves: neither it nor a graph of it is left, and global memory is as it was. -/
theorem jobLeave_gone (hs : Canonical s) (hr : recordHeld s j.vi a = false) :
    tget (jobLeave s jk j a).jb.jobs jk = none ∧ (∀ y ∈ (jobLeave s jk j a).cf.graphs, y.1 / 65536 ≠ jk) ∧
      (jobLeave s jk j a).gm = s.gm := by
  have left : jobLeave s jk j a = jobGone (dropFuts (dropJob (disableTicks s j.vi j.job) jk) jk) j.vi jk := if_neg (by simp [hr])
  rw [left]
  refine ⟨?_, ?_, ?_⟩
  · rw [jobGone_keeps (fun a => a.jb.jobs) (fun _ _ => rfl), dropFuts_keeps (fun a => a.jb.jobs) (fun _ _ _ _ => rfl)]
    exact tget_tdel_same _ _ (foldl_canon (fun _ _ h => unbind_canon h) (disableTicks_canon hs)).jobs
  · rw [jobGone_keeps (fun a => a.cf.graphs) (fun _ _ => rfl), dropFuts_keeps (fun a => a.cf.graphs) (fun _ _ _ _ => rfl)]
    intro y hy
    simpa using (List.mem_filter.mp hy).2
  · rw [jobGone_keeps State.gm (fun _ _ => rfl), dropFuts_keeps State.gm (fun _ _ _ _ => rfl), dropJob_gm]
    rfl

theorem jobLeave_held (hr : recordHeld s j.vi a = true) : jobLeave s jk j a = s := if_pos hr

/-- A phase of a job has not completed, or a record of its graphs lives (R246). -/
def jobBusy (s : State) (jk : Nat) : Prop :=
  (∃ y ∈ s.jb.phases, y.1 / 2 ^ 32 = jk ∧ y.2.lvl.done = false) ∨ recsOfGraphs s (fun g => g / 65536 = jk) ≠ []

theorem jobBusy_iff : (((phasesOfJob s jk).any fun e => !e.2.lvl.done) || !(recsOfGraphs s fun g => g / 65536 = jk).isEmpty) = true ↔
    jobBusy s jk := by
  simp only [phasesOfJob, List.any_filter, Bool.or_eq_true, List.any_eq_true, Bool.and_eq_true, decide_eq_true_eq,
    Bool.not_eq_true', List.isEmpty_eq_false_iff, jobBusy]

theorem jobComplete_idle (hj : tget s.jb.jobs jk = some j) (h : j.endAt = none ∨ (j.lvl.done = false ∧ jobBusy s jk)) :
    jobComplete s jk = s := by
  unfold jobComplete
  rw [hj]
  dsimp only
  split
  · rfl
  next a ha =>
    obtain ⟨hd, hb⟩ := h.resolve_left (by simp [ha])
    rw [if_neg (by simp [hd]), if_pos (jobBusy_iff.mpr hb)]

theorem jobComplete_leave (hj : tget s.jb.jobs jk = some j) (ha : j.endAt = some a) (hd : j.lvl.done = true) :
    jobComplete s jk = jobLeave s jk j a := by
  simp only [jobComplete, hj, ha]
  exact if_pos hd

/-- The state with the job completed and its record on its way. -/
def jobDone (s : State) (jk : Nat) (j : Job) (a : Nat) : State :=
  withLevels (devWrite s 0 j.vi a (bytesOf 16 (completionBits j.lvl (dieTime s 0))))
    (tmod s.jb.jobs jk fun x => { x with lvl := { x.lvl with done := true } }) s.jb.launches

theorem jobComplete_done (hj : tget s.jb.jobs jk = some j) (ha : j.endAt = some a) (hd : j.lvl.done = false)
    (hb : ¬ jobBusy s jk) : jobComplete s jk = jobLeave (jobDone s jk j a) jk j a := by
  simp only [jobComplete, hj, ha]
  rw [if_neg (by simp [hd]), if_neg (jobBusy_iff.not.mpr hb)]
  exact congrArg (jobLeave · jk j a) (devWrite_withLevels (s := s) _ _ _ _)

theorem jobDone_canon (hs : Canonical s) : Canonical (jobDone s jk j a) :=
  have h := devWrite_canon (die := 0) (vi := j.vi) (va := a) (bs := bytesOf 16 (completionBits j.lvl (dieTime s 0))) hs
  { h with jobs := tmod_sorted hs.jobs, launches := hs.launches }

end

end Sys2Proof.Machine

open Sys2Proof.Machine in
/-- Settles O46, level by level: what keeps each from completing, and what its completion leaves. -/
theorem levelsComplete : Obligations.LevelsComplete := by
  unfold Obligations.LevelsComplete
  refine fun s hs => ⟨?launch, ?graph, ?phase, ?job⟩
  case launch =>
    intro key l hl e lv rec0
    have run : exec e s = .next (launchComplete s key) := rfl
    refine ⟨fun h => run.trans (congrArg _ (launchComplete_idle hl h)), fun hd hb hr hi => ?_⟩
    obtain ⟨-, hls, hwk, -⟩ := launchDone_frame s key l
    refine ⟨_, _, run.trans (congrArg _ (launchComplete_done hl hd hb hr)), tget_launchDone hs hl hi, rfl, fun ha => ?_,
      fun a ha => ?_, hls, hwk⟩
    · simp only [pruneLaunches, launchDone, ha]
      rfl
    · simp only [pruneLaunches, launchDone, ha]
      rfl
  case graph =>
    intro k g n hg hn e closed mayBe busy
    have run : exec e s = .next (graphComplete s k) := rfl
    refine ⟨fun h => run.trans (congrArg _ (graphComplete_idle hg hn ?_)), fun hd hc hb => ?_⟩
    · by_cases hc : closed
      · rcases h with h | h | h
        · exact .inl h
        · exact absurd hc h
        · exact .inr (.inr ((graphUnits_ne_zero hg hn hc).mpr h))
      · exact .inr (.inl hc)
    · have none_ : graphUnits s k = 0 := by_contra fun h => hb ((graphUnits_ne_zero hg hn hc).mp h)
      refine ⟨_, { g with lvl := { g.lvl with done := true, isOpen := false } },
        run.trans (congrArg _ (graphComplete_done hg hn hd hc none_)), ?_, rfl, .of_eq ?_ ?_⟩
      · rw [releaseArenas_keeps (fun a => a.cf.graphs) fun _ _ => rfl]
        exact (tget_tmod_same _ _ _).trans (congrArg _ hg)
      · exact releaseArenas_keeps State.gm (fun _ _ => rfl) _ _
      · exact releaseArenas_keeps State.ls (fun _ _ => rfl) _ _
  case phase =>
    intro k p hp e jk busy
    have run : exec e s = .next (phaseComplete s k) := rfl
    have hbusy : busy ↔ phaseBusy s k = true := phaseBusy_iff.symm
    rw [hbusy]
    refine ⟨fun h => run.trans (congrArg _ (phaseComplete_idle hp h)), fun hd ho hb => ?_⟩
    exact ⟨_, _, run.trans (congrArg _ (phaseComplete_done hp hd ho (Bool.not_eq_true _ ▸ hb))),
      (tget_tmod_same _ _ _).trans (congrArg _ hp), rfl, .of_eq rfl rfl, rfl⟩
  case job =>
    intro jk j hj e busy gone
    have run : exec e s = .next (jobComplete s jk) := rfl
    refine ⟨fun h => run.trans (congrArg _ (jobComplete_idle hj h)), fun a ha hd hb => ?first, fun a ha hd => ?again, ?begins⟩
    case first =>
      intro w
      refine ⟨_, run.trans (congrArg _ (jobComplete_done hj ha hd hb)), ?_, fun hr => ?_, fun hr => ?_⟩
      · cases hr : recordHeld (jobDone s jk j a) j.vi a with
        | false => exact (jobLeave_gone (jobDone_canon hs) hr).2.2
        | true => exact (congrArg State.gm (jobLeave_held (jk := jk) hr) :)
      · obtain ⟨job, graphs, -⟩ := jobLeave_gone (jk := jk) (jobDone_canon (jk := jk) hs) hr
        exact ⟨job, graphs⟩
      · rw [jobLeave_held (s := jobDone s jk j a) hr]
        exact (tget_tmod_same _ _ _).trans (congrArg _ hj)
    case again =>
      rw [run, jobComplete_leave hj ha hd]
      refine ⟨fun hr => congrArg _ (jobLeave_held hr), fun hr => ?_⟩
      obtain ⟨job, graphs, gm⟩ := jobLeave_gone (jk := jk) hs hr
      exact ⟨_, rfl, ⟨job, graphs⟩, gm⟩
    case begins =>
      intro n p hn hp before
      have key : (jk * 2 ^ 32 + n) / 2 ^ 32 = jk ∧ (jk * 2 ^ 32 + n) % 2 ^ 32 = n := by omega
      have entry : tget (phaseBegin s jk).jb.phases (jk * 2 ^ 32 + n) = some (if n = 0 ∨
          (tgetD s.jb.phases (jk * 2 ^ 32 + n - 1) {}).lvl.done = true then { p with begun := true } else p) := by
        refine (tget_map_keys (fun e => by dsimp only; split <;> rfl) _ _).trans ?_
        rw [hp]
        simp only [Option.map_some, key, decide_true, Bool.true_and, Bool.or_eq_true, decide_eq_true_eq]
        split <;> rfl
      refine ⟨_, rfl, .of_eq rfl rfl, rfl, fun hb => entry.trans (congrArg _ (if_pos hb)), fun hb =>
        entry.trans (congrArg _ (if_neg hb))⟩

namespace Sys2Proof.Machine

variable {s : State}

/-! ### Bytes of a line (R7, R225) -/

/-- A byte replaced: what stands below it and above it stays. -/
theorem setBits_byte (n lo v : Nat) :
    setBits n lo 8 v = 2 ^ lo * (256 * (n / 2 ^ lo / 256) + v % 256) + n % 2 ^ lo := by
  have low := Nat.div_add_mod n (2 ^ lo)
  have high := Nat.div_add_mod (n / 2 ^ lo) 256
  simp only [setBits, bits, Nat.reducePow]
  generalize n / 2 ^ lo = q at *
  rw [← low, Nat.mul_comm (q % 256), Nat.mul_comm (v % 256), Nat.mul_add (2 ^ lo) (256 * (q / 256))]
  have split_ : 2 ^ lo * q = 2 ^ lo * (256 * (q / 256)) + 2 ^ lo * (q % 256) := by rw [← Nat.mul_add, high]
  have small : 2 ^ lo * q + n % 2 ^ lo - 2 ^ lo * (q % 256) = 2 ^ lo * (256 * (q / 256)) + n % 2 ^ lo := by omega
  rw [small, Nat.mul_add_mod, Nat.mod_mod]
  omega

theorem bits_setBits_same (n lo v : Nat) : bits (setBits n lo 8 v) lo 8 = v % 256 := by
  rw [setBits_byte, bits, Nat.mul_add_div (Nat.two_pow_pos lo), Nat.div_eq_of_lt (Nat.mod_lt _ (Nat.two_pow_pos lo))]
  omega

theorem bits_setBits_above (n lo v k : Nat) : bits (setBits n lo 8 v) (lo + 8 + k) 8 = bits n (lo + 8 + k) 8 := by
  have cut (x : Nat) : x / 2 ^ (lo + 8 + k) = x / 2 ^ lo / 256 / 2 ^ k := by
    rw [Nat.div_div_eq_div_mul, Nat.div_div_eq_div_mul, Nat.pow_add, Nat.pow_add, Nat.mul_assoc]
  rw [bits, bits, cut, cut, setBits_byte, Nat.mul_add_div (Nat.two_pow_pos lo),
    Nat.div_eq_of_lt (Nat.mod_lt _ (Nat.two_pow_pos lo))]
  have same : (256 * (n / 2 ^ lo / 256) + v % 256 + 0) / 256 = n / 2 ^ lo / 256 := by omega
  rw [same]

theorem bits_setBits_below (n lo v k : Nat) : bits (setBits n (lo + 8 + k) 8 v) lo 8 = bits n lo 8 := by
  have cut (x : Nat) : x / 2 ^ lo % 256 = x % 2 ^ (lo + 8 + k) / 2 ^ lo % 256 := by
    rw [Nat.pow_add, Nat.pow_add, Nat.mul_assoc, Nat.mod_mul_right_div_self, Nat.mod_mul_right_mod]
  simp only [bits, Nat.reducePow]
  rw [cut, cut n, setBits_byte, Nat.mul_add_mod, Nat.mod_mod]

theorem bits_setBits_other {i j : Nat} (n v : Nat) (h : i ≠ j) : bits (setBits n (8 * i) 8 v) (8 * j) 8 = bits n (8 * j) 8 := by
  rcases Nat.lt_or_gt_of_ne h with h | h
  · rw [show 8 * j = 8 * i + 8 + 8 * (j - i - 1) by omega]
    exact bits_setBits_above _ _ _ _
  · rw [show 8 * i = 8 * j + 8 + 8 * (i - j - 1) by omega]
    exact bits_setBits_below _ _ _ _

theorem patchData_outside (bs : List (Option Byte)) (d off : Nat) {j : Nat} (h : j < off ∨ off + bs.length ≤ j) :
    bits (patchData d off bs) (8 * j) 8 = bits d (8 * j) 8 := by
  induction bs generalizing d off with
  | nil => rfl
  | cons b t ih =>
    rw [List.length_cons] at h
    cases b with
    | none => exact ih _ _ (by omega)
    | some b => exact (ih _ _ (by omega)).trans (bits_setBits_other _ _ (by omega))

theorem patchData_inside (bs : List (Option Byte)) (d off : Nat) {k : Nat} (h : k < bs.length) :
    bits (patchData d off bs) (8 * (off + k)) 8 = ((bs[k]?).bind id).elim (bits d (8 * (off + k)) 8) BitVec.toNat := by
  induction bs generalizing d off k with
  | nil => exact absurd h (Nat.not_lt_zero k)
  | cons b t ih =>
    cases k with
    | zero =>
      cases b with
      | none => exact patchData_outside t d (off + 1) (by omega)
      | some b =>
        refine (patchData_outside t _ _ (by omega)).trans ((bits_setBits_same _ _ _).trans ?_)
        exact Nat.mod_eq_of_lt b.isLt
    | succ k =>
      have hk : k < t.length := Nat.lt_of_succ_lt_succ h
      rw [show off + (k + 1) = off + 1 + k by omega]
      cases b with
      | none => exact ih _ _ hk
      | some b =>
        refine (ih (setBits d (8 * off) 8 b.toNat) (off + 1) hk).trans ?_
        rw [bits_setBits_other _ _ (by omega)]
        rfl

/-- A line of 128 bytes holds each of its bytes. -/
theorem bits_line (n : Nat) {j : Nat} (h : j < 128) : bits (BitVec.ofNat 1024 n).toNat (8 * j) 8 = bits n (8 * j) 8 := by
  rw [BitVec.toNat_ofNat, show 1024 = 8 * j + 8 + (1016 - 8 * j) by omega]
  simp only [bits]
  rw [Nat.pow_add, Nat.pow_add, Nat.mul_assoc, Nat.mod_mul_right_div_self, Nat.mod_mul_right_mod]

/-! ### An access of a line that its home holds (R225, R270) -/

section
variable {g : Gm} {line : Nat}

/-- The home caches read alike: the same HBM, and each line with the same bytes and the same poison. -/
structure SameLines (g g' : Gm) : Prop where
  hbm : g'.hbm = g.hbm
  data : ∀ k, (lineAt g' k).data = (lineAt g k).data
  poison : ∀ k, (lineAt g' k).poison = (lineAt g k).poison

theorem SameLines.paByte {g' : Gm} (h : SameLines g g') (a : Nat) : paByte g' a = paByte g a := by
  simp only [Machine.paByte, h.data]

theorem paBytes_congr {g' : Gm} (h : ∀ a, paByte g' a = paByte g a) (pa n : Nat) : paBytes g' pa n = paBytes g pa n := by
  induction n generalizing pa with
  | zero => rfl
  | succ n ih => exact congrArg₂ _ (h pa) (ih _)

theorem SameLines.homePoison {u : State} (h : SameLines s.gm u.gm) (pa width : Nat) :
    homePoison u pa 0 width = homePoison s pa 0 width := by
  simp only [Machine.homePoison, if_pos, h.poison]

theorem SameLines.memFrame {u : State} (h : SameLines s.gm u.gm) (hl : u.ls = s.ls) : MemFrame s u :=
  ⟨fun _ => congrArg (byteAt · _) h.hbm, h.paByte, fun _ => congrArg (byteAt ·.bytes _) hl, fun _ => congrArg (gstAt · _) hl⟩

theorem withLine_present (h : (tget g.lines line).isSome = true) : withLine g line = touchLine g line := by
  obtain ⟨l, hl⟩ := Option.isSome_iff_exists.mp h
  simp only [withLine, fillLine, hl]

/-- A line that is met keeps its bytes, and an error found in it has become its poison. -/
theorem sameLines_withLine (h : (tget g.lines line).isSome = true) : SameLines g (withLine g line) := by
  rw [withLine_present h]
  obtain ⟨l, hl⟩ := Option.isSome_iff_exists.mp h
  have met : tget (touchLine g line).lines line =
      some { l with stamp := g.stamp, poison := l.poison || lineError g line, dirty := l.dirty || lineError g line } :=
    (tget_tmod_same _ _ _).trans (congrArg _ hl)
  have others (k : Nat) (hk : k ≠ line) : tget (touchLine g line).lines k = tget g.lines k ∧
      lineError (touchLine g line) k = lineError g k :=
    ⟨tget_tmod_other _ _ _ _ hk, by simp [lineError, touchLine, hk]⟩
  refine ⟨rfl, fun k => ?_, fun k => ?_⟩
  · by_cases hk : k = line
    · subst hk; simp only [lineAt, met, hl, Option.getD_some]
    · simp only [lineAt, (others k hk).1]; rfl
  · by_cases hk : k = line
    · subst hk
      simp only [lineAt, met, hl, Option.getD_some]
      simp [lineError, touchLine]
    · simp only [lineAt, others k hk]; rfl

theorem tget_withLine (h : (tget g.lines line).isSome = true) :
    ∃ l, tget (withLine g line).lines line = some l ∧ l.data = (lineAt g line).data := by
  rw [withLine_present h]
  obtain ⟨l, hl⟩ := Option.isSome_iff_exists.mp h
  exact ⟨_, (tget_tmod_same _ _ _).trans (congrArg _ hl), by simp only [lineAt, hl, Option.getD_some]⟩

end

section
variable {g : Gm} {pa : Nat} {bs : List (Option Byte)} {f : Line → Line}

/-- What a write leaves in its line. -/
theorem lineAt_writeLine_same (h : (tget g.lines (pa / 128)).isSome = true) (hf : ∀ l, (f l).data = l.data) :
    (lineAt (writeLine g pa bs f) (pa / 128)).data =
      BitVec.ofNat 1024 (patchData (lineAt g (pa / 128)).data.toNat (pa % 128) bs) := by
  obtain ⟨l, hl, hd⟩ := tget_withLine h
  have now : tget (writeLine g pa bs f).lines (pa / 128) =
      some (f { l with data := BitVec.ofNat 1024 (patchData l.data.toNat (pa % 128) bs), dirty := true }) :=
    (tget_tmod_same _ _ _).trans (congrArg _ hl)
  simp only [lineAt, now, Option.getD_some, hf, hd]

theorem lineAt_writeLine_other (h : (tget g.lines (pa / 128)).isSome = true) {k : Nat} (hk : k ≠ pa / 128) :
    (lineAt (writeLine g pa bs f) k).data = (lineAt g k).data := by
  have now : tget (writeLine g pa bs f).lines k = tget (withLine g (pa / 128)).lines k := tget_tmod_other _ _ _ _ hk
  refine Eq.trans ?_ ((sameLines_withLine h).data k)
  simp only [lineAt, now]
  rfl

/-- A byte outside those written reads as before. -/
theorem paByte_writeLine_outside (h : (tget g.lines (pa / 128)).isSome = true) (hf : ∀ l, (f l).data = l.data)
    {a : Nat} (ha : a < pa ∨ pa + bs.length ≤ a) : paByte (writeLine g pa bs f) a = paByte g a := by
  simp only [paByte]
  by_cases hk : a / 128 = pa / 128
  · rw [hk, lineAt_writeLine_same h hf, bits_line _ (Nat.mod_lt _ (by decide)), patchData_outside _ _ _ (by omega)]
  · rw [lineAt_writeLine_other h hk]

/-- Each byte written reads back; one that is none stays. -/
theorem paByte_writeLine_inside (h : (tget g.lines (pa / 128)).isSome = true) (hf : ∀ l, (f l).data = l.data)
    (fits : pa % 128 + bs.length ≤ 128) {k : Nat} (hk : k < bs.length) :
    paByte (writeLine g pa bs f) (pa + k) = ((bs[k]?).bind id).getD (paByte g (pa + k)) := by
  have line : (pa + k) / 128 = pa / 128 := by omega
  have place : (pa + k) % 128 = pa % 128 + k := by omega
  simp only [paByte, line, place]
  rw [lineAt_writeLine_same h hf, bits_line _ (by omega), patchData_inside _ _ _ hk]
  cases (bs[k]?).bind id with
  | none => rfl
  | some b => exact (BitVec.ofNat_toNat 8 b).trans (BitVec.setWidth_eq b)

theorem writeLine_hbm (h : (tget g.lines (pa / 128)).isSome = true) : (writeLine g pa bs f).hbm = g.hbm :=
  (sameLines_withLine h).hbm

/-- A write at its home, and what it leaves alone. -/
theorem globalFrame_writeLine (h : (tget s.gm.lines (pa / 128)).isSome = true) (hf : ∀ l, (f l).data = l.data) {u : State}
    (hg : u.gm = writeLine s.gm pa bs f) (hl : u.ls = s.ls) : GlobalFrame s u pa bs.length := by
  refine ⟨fun a => ?_, fun a ha => ?_, fun a => congrArg (byteAt ·.bytes a) hl⟩
  · rw [hg, writeLine_hbm h]
  · rw [hg]
    exact paByte_writeLine_outside h hf ha

/-- A write of no bytes, as POISON makes it. -/
theorem memFrame_writeLine_nil (h : (tget s.gm.lines (pa / 128)).isSome = true) (hf : ∀ l, (f l).data = l.data) {u : State}
    (hg : u.gm = writeLine s.gm pa [] f) (hl : u.ls = s.ls) : MemFrame s u :=
  have frame := globalFrame_writeLine h hf hg hl
  ⟨frame.hbm, fun a => frame.global a (Nat.lt_or_ge a pa), frame.store, fun _ => congrArg (gstAt · _) hl⟩

theorem lineAt_poisoned (h : (tget g.lines (pa / 128)).isSome = true) (hf : ∀ l, (f l).poison = true) :
    (lineAt (writeLine g pa bs f) (pa / 128)).poison = true := by
  obtain ⟨l, hl, -⟩ := tget_withLine h
  have now : tget (writeLine g pa bs f).lines (pa / 128) =
      some (f { l with data := BitVec.ofNat 1024 (patchData l.data.toNat (pa % 128) bs), dirty := true }) :=
    (tget_tmod_same _ _ _).trans (congrArg _ hl)
  simp only [lineAt, now, Option.getD_some, hf, Bool.true_or]

end

theorem paBytes_eq {g : Gm} {bs : List Byte} {pa : Nat} (h : ∀ k (hk : k < bs.length), paByte g (pa + k) = bs[k]) :
    paBytes g pa bs.length = bs := by
  induction bs generalizing pa with
  | nil => rfl
  | cons b t ih =>
    refine congrArg₂ _ (h 0 (Nat.zero_lt_succ _)) (ih fun k hk => ?_)
    exact (congrArg _ (by omega)).trans (h (k + 1) (Nat.succ_lt_succ hk))

theorem lineAccess_fits {pa n : Nat} (h : lineAccess pa n = true) : pa % 128 + n ≤ 128 := by
  simp only [lineAccess, Bool.and_eq_true, decide_eq_true_eq] at h
  obtain ⟨⟨-, fits⟩, -⟩ := h
  exact fits

/-! ### Accesses of other devices (R149, R151, R154, R155, R315) -/

theorem remoteRead_present {r : RemoteRead} (ha : lineAccess r.pa r.width = true)
    (hl : (tget s.gm.lines (r.pa / 128)).isSome = true) :
    remoteRead s r = reply { s with gm := withLine s.gm (r.pa / 128) }
      (.remote r.tag (paBytes s.gm r.pa r.width) (homePoison s r.pa 0 r.width) 0) := by
  have same := sameLines_withLine hl
  simp only [remoteRead, ha, if_true]
  rw [same.homePoison (u := { s with gm := withLine s.gm (r.pa / 128) }), paBytes_congr same.paByte]

@[simp] theorem coverLine_data (id off n : Nat) (l : Line) : (coverLine id off n l).data = l.data := by
  unfold coverLine
  split
  · rfl
  · extract_lets old m
    split <;> rfl

@[simp] theorem coverMask_data (id : Nat) (bs : List (Option Byte)) (off : Nat) (l : Line) :
    (coverMask id off bs l).data = l.data := by
  induction bs generalizing off l with
  | nil => rfl
  | cons b t ih =>
    cases b with
    | none => exact ih _ _
    | some b => exact (ih _ _).trans (coverLine_data _ _ _ _)

/-- A line that a store writes: an engine's cover ends (R149). -/
def uncovered (l : Line) : Line := { l with cover := none }

/-- A line that POISON is stored to (R149). -/
def poisoned (l : Line) : Line := { l with poison := true, cover := none }

/-- A remote store's bytes stand in its line, whether or not an engine's command sends them. -/
theorem remoteStore_writes (g : Gm) {w : RemoteWrite} (hp : w.poison = false) :
    ∃ f : Line → Line, (∀ l, (f l).data = l.data) ∧ remoteStore g w = writeLine g w.pa w.bytes f := by
  cases hc : w.cmd with
  | none => exact ⟨uncovered, fun _ => rfl, by simp only [remoteStore, hp, hc]; rfl⟩
  | some n => exact ⟨coverMask (2 ^ 64 + n) (w.pa % 128) w.bytes, fun _ => by simp, by simp only [remoteStore, hp, hc]⟩

theorem remoteStore_poisons (g : Gm) {w : RemoteWrite} (hp : w.poison = true) (hc : w.cmd = none) :
    remoteStore g w = writeLine g w.pa [] poisoned := by
  simp only [remoteStore, hp, hc]
  rfl

theorem storeAt_writes (g : Gm) (pa : Nat) (bs : List Byte) :
    storeAt g pa bs false = writeLine g pa (bs.map some) uncovered := rfl

/-- The bytes of a store read back at its home. -/
theorem paBytes_storeAt {g : Gm} {pa : Nat} {bs : List Byte} (h : (tget g.lines (pa / 128)).isSome = true)
    (fits : pa % 128 + bs.length ≤ 128) : paBytes (storeAt g pa bs false) pa bs.length = bs := by
  refine paBytes_eq fun k hk => ?_
  rw [storeAt_writes, paByte_writeLine_inside (f := uncovered) h (fun _ => rfl) (by simpa using fits) (by simpa using hk)]
  simp [hk]

theorem withLine_isSome {g : Gm} {line : Nat} (h : (tget g.lines line).isSome = true) :
    (tget (withLine g line).lines line).isSome = true := by
  obtain ⟨l, hl, -⟩ := tget_withLine h
  exact Option.isSome_of_eq_some hl

/-- The state with a line met at its home. -/
def metLine (s : State) (pa : Nat) : State := { s with gm := withLine s.gm (pa / 128) }

section
variable {r : RemoteAmo}

/-- The value that a remote atomic finds. -/
def amoOld (s : State) (r : RemoteAmo) : Token := loadTok r.fmt (paBytes s.gm r.pa (accessWidth r.fmt))

/-- The state with a remote atomic's new value stored. -/
def amoStored (s : State) (r : RemoteAmo) : State :=
  let new := (atomNew r.op (amoOld s r) r.r r.x).1
  { metLine s r.pa with gm := storeAt (metLine s r.pa).gm r.pa (storeBytes r.fmt new) false }

/-- The answer of a remote atomic that has performed. -/
def amoReply (s : State) (r : RemoteAmo) : Reply :=
  .remote r.tag (storeBytes r.fmt (amoOld s r)) false (atomNew r.op (amoOld s r) r.r r.x).2

/-- A remote atomic that its home performs (R154, R315). -/
def amoGood (r : RemoteAmo) : Prop :=
  remoteFmtOk r.op r.fmt = true ∧ r.pa % accessWidth r.fmt = 0 ∧ lineAccess r.pa (accessWidth r.fmt) = true

/-- A remote atomic that meets POISON (R149, R155). -/
def amoPoison (s : State) (r : RemoteAmo) : Prop :=
  homePoison s r.pa 0 (accessWidth r.fmt) = true ∨ r.r.tag = .poison ∨ (r.op = .cas ∧ r.x.tag = .poison)

/-- A remote atomic writes, unless it is a CAS that finds another value. -/
def amoWrites (s : State) (r : RemoteAmo) : Prop := r.op ≠ .cas ∨ tokBits (amoOld s r) = tokBits r.r

theorem remoteAmo_refused (h : ¬ amoGood r) : remoteAmo s r = s := by
  refine if_neg ?_
  simpa only [Bool.and_eq_true, decide_eq_true_eq, and_assoc, amoGood] using h

/-- A met line reads alike, so an atomic may be told from the state before. -/
theorem remoteAmo_good (h : amoGood r) (hl : (tget s.gm.lines (r.pa / 128)).isSome = true) :
    remoteAmo s r =
      if homePoison s r.pa 0 (accessWidth r.fmt) || r.r.tag = .poison || (r.op = .cas && r.x.tag = .poison) then
        reply { metLine s r.pa with gm := storeAt (withLine s.gm (r.pa / 128)) r.pa [] true } (.remote r.tag [] true 0)
      else
        reply (if r.op ≠ .cas || tokBits (amoOld s r) = tokBits r.r then amoStored s r else metLine s r.pa) (amoReply s r) := by
  have same := sameLines_withLine hl
  refine (if_pos (by simpa only [Bool.and_eq_true, decide_eq_true_eq, and_assoc, amoGood] using h)).trans ?_
  dsimp only
  rw [same.homePoison (u := { s with gm := withLine s.gm (r.pa / 128) }), paBytes_congr same.paByte]
  rfl

theorem remoteAmo_poisons (h : amoGood r) (hl : (tget s.gm.lines (r.pa / 128)).isSome = true) (hp : amoPoison s r) :
    remoteAmo s r = reply { metLine s r.pa with gm := writeLine (metLine s r.pa).gm r.pa [] poisoned } (.remote r.tag [] true 0) := by
  refine (remoteAmo_good h hl).trans (if_pos ?_)
  simpa only [Bool.or_eq_true, Bool.and_eq_true, decide_eq_true_eq, or_assoc, amoPoison] using hp

theorem remoteAmo_writes (h : amoGood r) (hl : (tget s.gm.lines (r.pa / 128)).isSome = true) (hp : ¬ amoPoison s r)
    (hw : amoWrites s r) :
    remoteAmo s r = reply (amoStored s r) (amoReply s r) := by
  refine (remoteAmo_good h hl).trans ((if_neg ?_).trans (congrArg (reply · _) (if_pos ?_)))
  · simpa only [Bool.or_eq_true, Bool.and_eq_true, decide_eq_true_eq, or_assoc, amoPoison] using hp
  · simpa only [Bool.or_eq_true, decide_eq_true_eq, amoWrites] using hw

theorem remoteAmo_leaves (h : amoGood r) (hl : (tget s.gm.lines (r.pa / 128)).isSome = true) (hp : ¬ amoPoison s r)
    (hw : ¬ amoWrites s r) :
    remoteAmo s r = reply (metLine s r.pa) (amoReply s r) := by
  refine (remoteAmo_good h hl).trans ((if_neg ?_).trans (congrArg (reply · _) (if_neg ?_)))
  · simpa only [Bool.or_eq_true, Bool.and_eq_true, decide_eq_true_eq, or_assoc, amoPoison] using hp
  · simpa only [Bool.or_eq_true, decide_eq_true_eq, amoWrites] using hw

theorem metLine_memFrame {pa : Nat} (hl : (tget s.gm.lines (pa / 128)).isSome = true) : MemFrame s (metLine s pa) :=
  (sameLines_withLine hl).memFrame rfl

theorem MemFrame.trans {t u : State} (h : MemFrame s t) (h' : MemFrame t u) : MemFrame s u :=
  ⟨fun a => (h'.hbm a).trans (h.hbm a), fun a => (h'.global a).trans (h.global a), fun a => (h'.store a).trans (h.store a),
    fun g => (h'.granules g).trans (h.granules g)⟩

theorem MemFrame.globalFrame {t u : State} {pa n : Nat} (h : MemFrame s t) (h' : GlobalFrame t u pa n) : GlobalFrame s u pa n :=
  ⟨fun a => (h'.hbm a).trans (h.hbm a), fun a ha => (h'.global a ha).trans (h.global a), fun a => (h'.store a).trans (h.store a)⟩

@[simp] theorem length_storeBytes (fmt : Tag) (t : Token) : (storeBytes fmt t).length = accessWidth fmt := length_bytesOf _ _

end

/-- The copies of a remote MST at the panes of its graph (R151). -/
def mstCopies (s : State) (w : RemoteWrite) (gk : Nat) : State :=
  if w.poison then s else
    (boundPanes s gk).foldl (pushCopy { pa := w.pa, bytes := w.bytes.filterMap id, tid := remoteTid, seq := s.nd }) s

theorem mstCopies_keep {β : Type} (p : State → β) (h : ∀ s g, p { s with gm := { s.gm with mcast := g } } = p s) (s : State)
    (w : RemoteWrite) (gk : Nat) : p (mstCopies s w gk) = p s := by
  unfold mstCopies
  split
  · rfl
  · exact foldl_keeps p (fun _ _ => h _ _) _ s

/-- The write of a remote MST on its way to its home. -/
def mstWrite (s : State) (w : RemoteWrite) : WriteMsg :=
  ⟨remoteTid, s.nd, 0, 2 ^ 60, 0, 0, w.pa, 0, w.bytes.filterMap id, w.poison, none, false, true, 0, 0⟩

theorem remoteMst_good {w : RemoteWrite} (gk : Nat)
    (h : lineAccess w.pa w.bytes.length = true ∧ ∀ b ∈ w.bytes, b.isSome = true) :
    remoteMst s w gk = post (mstCopies s w gk) [.globalWritePerform (mstWrite s w)] :=
  if_pos (by simpa only [Bool.and_eq_true, List.all_eq_true] using h)

theorem remoteMst_bad {w : RemoteWrite} (gk : Nat)
    (h : ¬ (lineAccess w.pa w.bytes.length = true ∧ ∀ b ∈ w.bytes, b.isSome = true)) : remoteMst s w gk = s :=
  if_neg (by simpa only [Bool.and_eq_true, List.all_eq_true] using h)

/-! ### SPAWN messages of other devices (R35, R193, R315) -/

section
variable {x : Remote}

/-- The number of a SPAWN that joins is none of those that wait. -/
theorem num_lt_fresh {xs : List Remote} {y : Remote} (h : y ∈ xs) : y.num < (xs.map Remote.num).foldl max 0 + 1 := by
  have bound : ∀ (ns : List Nat) (a n : Nat), n ≤ a ∨ n ∈ ns → n ≤ ns.foldl max a := by
    intro ns
    induction ns with
    | nil => intro a n h; simpa using h
    | cons m ns ih =>
      intro a n h
      refine ih (max a m) n ?_
      rcases h with h | h
      · exact .inl (by omega)
      · rcases List.mem_cons.mp h with rfl | h
        · exact .inl (by omega)
        · exact .inr h
  exact Nat.lt_succ_of_le (bound _ 0 _ (.inr (List.mem_map_of_mem h)))

theorem find_num {xs : List Remote} (hx : x ∈ xs) (uniq : ∀ y ∈ xs, y.num = x.num → y = x) :
    xs.find? (fun y => y.num = x.num) = some x := by
  cases hf : xs.find? fun y => y.num = x.num with
  | none => exact absurd (List.find?_eq_none.mp hf x hx) (by simp)
  | some y =>
    have same := of_decide_eq_true (p := y.num = x.num) (List.find?_some hf :)
    exact congrArg some (uniq y (List.mem_of_find?_eq_some hf) same)

theorem mem_setRemote {x' : Remote} (hx : x ∈ s.wk.remotes) (h : x'.num = x.num) : x' ∈ (setRemote s x').wk.remotes :=
  List.mem_map.mpr ⟨x, hx, if_pos h.symm⟩

section
variable (hx : x ∈ s.wk.remotes) (uniq : ∀ y ∈ s.wk.remotes, y.num = x.num → y = x)

include hx uniq

theorem remoteGo_drop (h : remoteLive s x.r.launch = false) : remoteGo s x.num = remoteDrop s x := by
  simp only [remoteGo, find_num hx uniq, h, Bool.not_false, if_true]

theorem remoteGo_held (h : remoteLive s x.r.launch = true)
    (hs : shuttered s (tgetD s.jb.launches x.r.launch {}).graph = true) : remoteGo s x.num = s := by
  simp only [remoteGo, find_num hx uniq, h, hs, Bool.not_true, Bool.false_eq_true, if_true, if_false]

section
variable (live : remoteLive s x.r.launch = true ∧ shuttered s (tgetD s.jb.launches x.r.launch {}).graph = false)
include live

theorem remoteGo_pane (hp : x.pane = none) : remoteGo s x.num = remotePane s x (tgetD s.jb.launches x.r.launch {}) := by
  simp only [remoteGo, find_num hx uniq, live, hp, Bool.not_true, Bool.false_eq_true, if_false]

theorem remoteGo_ask {p : Nat} (hp : x.pane = some p) (hc : x.colour = none) :
    remoteGo s x.num = remoteAsk s x (tgetD s.jb.launches x.r.launch {}) p := by
  simp only [remoteGo, find_num hx uniq, live, hp, hc, Bool.not_true, Bool.false_eq_true, if_false]

theorem remoteGo_start {p col fut carve : Nat} (hp : x.pane = some p) (hc : x.colour = some col) (hf : x.fut = some fut)
    (hg : x.granted = some carve) :
    remoteGo s x.num = remoteStart s x (tgetD s.jb.launches x.r.launch {}) p col fut carve := by
  simp only [remoteGo, find_num hx uniq, live, hp, hc, hf, hg, Bool.not_true, Bool.false_eq_true, if_false]

end
end

/-- A SPAWN that finds a colour and a record takes both, and asks for its carve-out (R193, R231). -/
theorem remoteAsk_got {l : Launch} {p col fut : Nat} {s1 : State} (mc : mayTake s (paneDie p) false (.remote x.num) = true)
    (mr : mayTake s (paneDie p) true (.remote x.num) = true) (hc : takeColour s (paneDie p) = some (col, s1))
    (hf : takeFut s (paneDie p) = some fut) :
    remoteAsk s x l p = post (setRemote (putFut (leaveLine s1 (.remote x.num)) fut col p l.id (jobKey l.vi l.job))
      { x with colour := some col, fut := some fut })
      [.allocRequestArrive ⟨.remote x.num, poolKey p, carveSize l, 0, 17, 0, 0, col, s.clk.cycle, 0⟩] := by
  simp only [remoteAsk, mc, mr, hc, hf, if_true]

theorem mem_joinLine_of_mem {q : Queued} (hq : q ∈ s.wk.line) (hs : queuedStands s q = true) (die : Nat) (record : Bool)
    (who : Asker) : q ∈ (joinLine s die record who).wk.line := by
  unfold joinLine
  split
  · exact hq
  · exact List.mem_append_left _ (List.mem_filter.mpr ⟨hq, hs⟩)

/-- Without a colour, a SPAWN joins its die's line (R250). -/
theorem remoteAsk_line {l : Launch} {p : Nat}
    (h : mayTake s (paneDie p) false (.remote x.num) = false ∨ takeColour s (paneDie p) = none) :
    remoteAsk s x l p = joinLine s (paneDie p) false (.remote x.num) ∨
      remoteAsk s x l p = joinLine (joinLine s (paneDie p) false (.remote x.num)) (paneDie p) true (.remote x.num) := by
  have none_ : (if mayTake s (paneDie p) false (.remote x.num) = true then takeColour s (paneDie p) else none) = none := by
    rcases h with h | h <;> simp [h]
  dsimp only [remoteAsk]
  rw [none_]
  cases takeFut s (paneDie p) with
  | none => exact .inr (by simp)
  | some f =>
    cases mayTake s (paneDie p) true (.remote x.num) with
    | true => exact .inl (by simp)
    | false => exact .inr (by simp)

theorem remoteAsk_line_keeps {β : Type} (pr : State → β) (hp : ∀ s l, pr { s with wk := { s.wk with line := l } } = pr s)
    {l : Launch} {p : Nat}
    (h : mayTake s (paneDie p) false (.remote x.num) = false ∨ takeColour s (paneDie p) = none) :
    pr (remoteAsk s x l p) = pr s := by
  rcases remoteAsk_line (l := l) h with e | e <;> rw [e]
  · exact joinLine_keeps pr hp _ _ _ _
  · exact (joinLine_keeps pr hp _ _ _ _).trans (joinLine_keeps pr hp _ _ _ _)

theorem mem_remoteAsk_line {l : Launch} {p : Nat} (hx : x ∈ s.wk.remotes) (hp : x.pane = some p) (hc : x.colour = none)
    (h : mayTake s (paneDie p) false (.remote x.num) = false ∨ takeColour s (paneDie p) = none) :
    ∃ q ∈ (remoteAsk s x l p).wk.line, q.die = paneDie p ∧ q.record = false ∧ q.who = .remote x.num := by
  obtain ⟨q, hq, die, record, who⟩ := mem_joinLine s (paneDie p) false (.remote x.num)
  have stands : queuedStands (joinLine s (paneDie p) false (.remote x.num)) q = true := by
    simp only [queuedStands, who]
    rw [joinLine_keeps (fun a => a.wk.remotes) fun _ _ => rfl]
    exact List.any_eq_true.mpr ⟨x, hx, by simp [hp, hc, die]⟩
  rcases remoteAsk_line (l := l) h with e | e <;> rw [e]
  · exact ⟨q, hq, die, record, who⟩
  · exact ⟨q, mem_joinLine_of_mem hq stands _ _ _, die, record, who⟩

theorem reply_post_wk (s : State) (ms : List Instr) (r : Reply) : (reply (post s ms) r).wk = s.wk := rfl

theorem reply_post_net (s : State) (ms : List Instr) (r : Reply) : (reply (post s ms) r).net = s.net ++ ms := rfl

theorem reply_post_replies (s : State) (ms : List Instr) (r : Reply) :
    (reply (post s ms) r).bt.replies = s.bt.replies ++ [r] := rfl

/-- What a SPAWN's child starts with (R208). -/
def remoteBegin (x : Remote) (l : Launch) (p col fut carve : Nat) : Start :=
  ⟨p, col, x.r.launch, fut, carve, tputD nullTok (tput (tputD nullTok [] 0 x.r.arg) 58 (mkTok .i32 l.id)) 59 x.r.card, [], true⟩

/-- The state before the child is made: the SPAWN waits no longer, and its unit is given back. -/
def remoteLeft (s : State) (x : Remote) : State :=
  giveUnit { s with wk := { s.wk with remotes := s.wk.remotes.filter fun y => y.num ≠ x.num } } x.r.launch

theorem remoteStart_eq (s : State) (x : Remote) (l : Launch) (p col fut carve : Nat) :
    remoteStart s x l p col fut carve =
      reply (post (startTask (remoteLeft s x) (remoteBegin x l p col fut carve))
        (entryRun (paneDie p * 65536 + col) x.r.entry 1))
        (.remote x.r.tag (bytesOf 8 (futPayload fut (tgetD s.wk.futs fut {}).gen).toNat) false 0) := rfl

theorem tgetD_tput_other {α : Type} (d : α) (t : Table α) {k k' : Nat} (v : α) (h : k' ≠ k) :
    tgetD (tput t k v) k' d = tgetD t k' d := by
  simp only [tgetD, tget_tput_other _ _ _ _ h]

/-- The child's argument, launch and card. -/
theorem remoteBegin_regs (u : State) (x : Remote) (l : Launch) (p col fut carve : Nat) :
    let t := freshTask u (remoteBegin x l p col fut carve)
    regOf t 0 = x.r.arg ∧ regOf t 58 = mkTok .i32 l.id ∧ regOf t 59 = x.r.card := by
  have sorted : tsorted none (tputD nullTok ([] : Table Token) 0 x.r.arg) = true := tputD_sorted rfl
  have sorted' := tput_sorted _ 58 (mkTok .i32 l.id) sorted
  simp only [regOf, freshTask, remoteBegin]
  refine ⟨?_, ?_, ?_⟩ <;>
    rw [tgetD_tput_other _ _ _ (by decide), tgetD_tput_other _ _ _ (by decide)]
  · rw [tgetD_tputD_other _ _ _ _ _ (by decide) sorted', tgetD_tput_other _ _ _ (by decide), tgetD_tputD_same _ _ _ _ rfl]
  · rw [tgetD_tputD_other _ _ _ _ _ (by decide) sorted', tgetD_tput_same]
  · exact tgetD_tputD_same _ _ _ _ sorted'

end

end Sys2Proof.Machine

open Sys2Proof.Machine in
/-- Settles O57: each kind of remote access by what its home does with it, and a remote SPAWN turn by turn. -/
theorem remoteAccess : Obligations.RemoteAccess := by
  unfold Obligations.RemoteAccess
  refine fun s => ⟨?read, ?write, ?amo, ?mst, ?spawn, ?turns, fun _ => rfl, ?level⟩
  case read =>
    intro r e
    have run : exec e s = .next (remoteRead s r) := rfl
    refine ⟨fun h => run.trans (congrArg _ (if_neg (by simp [h]))), fun h hl => ?_⟩
    exact ⟨_, run.trans (congrArg _ (remoteRead_present h hl)), (sameLines_withLine hl).memFrame rfl, rfl, rfl⟩
  case write =>
    intro w e n
    have run : exec e s = .next (remoteWrite s w) := rfl
    refine ⟨fun h => run.trans (congrArg _ (if_neg (by simp [n, h]))), fun h hl => ⟨fun hp => ?_, fun hp hc => ?_⟩⟩
    all_goals have run : exec e s = .next { s with gm := remoteStore s.gm w } := run.trans (congrArg _ (if_pos h))
    · obtain ⟨f, hf, hw⟩ := remoteStore_writes s.gm hp
      refine ⟨_, run, globalFrame_writeLine hl hf hw rfl, rfl, rfl, fun k hk => ?_⟩
      exact (congrArg (paByte · _) hw).trans (paByte_writeLine_inside hl hf (lineAccess_fits h) hk)
    · have hw := remoteStore_poisons s.gm hp hc
      refine ⟨_, run, memFrame_writeLine_nil (f := poisoned) hl (fun _ => rfl) hw rfl, ?_⟩
      exact (congrArg (lineAt · _ |>.poison) hw).trans (lineAt_poisoned hl fun _ => rfl)
  case amo =>
    intro r e w good old new poison writes
    have run : exec e s = .next (remoteAmo s r) := rfl
    refine ⟨fun h => run.trans (congrArg _ (remoteAmo_refused h)), fun h hl hp => ?done, fun h hl hp => ?poisons⟩
    case done =>
      have met := metLine_memFrame hl
      have present : (tget (metLine s r.pa).gm.lines (r.pa / 128)).isSome = true := withLine_isSome hl
      by_cases hw : writes
      · refine ⟨reply (amoStored s r) (amoReply s r), run.trans (congrArg _ (remoteAmo_writes h hl hp hw)), met.globalFrame ?_,
          rfl, fun _ => ?_, fun no => absurd hw no⟩
        · have frame := globalFrame_writeLine (bs := (storeBytes r.fmt new.1).map some) present (f := uncovered) (fun _ => rfl)
            (u := amoStored s r) rfl rfl
          rw [List.length_map, length_storeBytes] at frame
          exact ⟨frame.hbm, frame.global, frame.store⟩
        · have wide : (storeBytes r.fmt new.1).length = w := length_storeBytes _ _
          have fits := lineAccess_fits h.2.2
          exact wide ▸ paBytes_storeAt present (wide.symm ▸ fits)
      · refine ⟨reply (metLine s r.pa) (amoReply s r), run.trans (congrArg _ (remoteAmo_leaves h hl hp hw)), ?_, rfl,
          fun yes => absurd yes hw, fun _ => ?_⟩
        · exact ⟨met.hbm, fun a _ => met.global a, met.store⟩
        · exact ⟨met.hbm, met.global, met.store, met.granules⟩
    case poisons =>
      have met := metLine_memFrame hl
      have present : (tget (metLine s r.pa).gm.lines (r.pa / 128)).isSome = true := withLine_isSome hl
      exact ⟨_, run.trans (congrArg _ (remoteAmo_poisons h hl hp)),
        met.trans (memFrame_writeLine_nil present (f := poisoned) (fun _ => rfl) rfl rfl), rfl,
        lineAt_poisoned present fun _ => rfl⟩
  case mst =>
    intro w gk e good
    have run : exec e s = .next (remoteMst s w gk) := rfl
    refine ⟨fun h => run.trans (congrArg _ (remoteMst_bad gk h)), fun h => ?_⟩
    exact ⟨_, mstWrite s w, run.trans (congrArg _ (remoteMst_good gk h)),
      ⟨fun a => mstCopies_keep (fun u => byteAt u.gm.hbm a) (fun _ _ => rfl) s w gk,
        fun a => mstCopies_keep (fun u => paByte u.gm a) (fun _ _ => rfl) s w gk,
        fun a => mstCopies_keep (fun u => byteAt u.ls.bytes a) (fun _ _ => rfl) s w gk,
        fun g => mstCopies_keep (fun u => gstAt u.ls g) (fun _ _ => rfl) s w gk⟩,
      mstCopies_keep State.wk (fun _ _ => rfl) s w gk, congrArg (· ++ _) (mstCopies_keep State.net (fun _ _ => rfl) s w gk),
      rfl, rfl, rfl, rfl⟩
  case spawn =>
    intro r e
    have run : exec e s = .next (remoteSpawn s r) := rfl
    refine ⟨fun h => run.trans (congrArg _ (if_neg (by simp [h]))), fun h => ?_⟩
    exact ⟨_, _, run.trans (congrArg _ (if_pos h)), rfl, fun y hy => Nat.ne_of_lt (num_lt_fresh hy), rfl, rfl, rfl,
      .of_eq rfl rfl⟩
  case turns =>
    intro x hx uniq turn l live
    refine ⟨remoteGo_drop hx uniq, remoteGo_held hx uniq, fun p hl hp hs => ?pane, fun p hl hp hc mc mr col s1 fut hcol hfut => ?ask,
      fun p hl hp hc h => ?line, fun p col fut carve hl hp hc hf hg => ?start⟩
    case pane =>
      have pane : turn = if poolSize s p < carveSize l then remoteDrop s x else setRemote s { x with pane := some p } := by
        refine (remoteGo_pane hx uniq hl hp).trans ?_
        simp only [remotePane]
        rw [hs]
      refine ⟨fun h => pane.trans (if_pos h), fun h => ?_⟩
      rw [pane, if_neg (Nat.not_lt.mpr h)]
      exact ⟨mem_setRemote hx rfl, rfl, .of_eq rfl rfl⟩
    case ask =>
      have asked : turn = _ := (remoteGo_ask hx uniq hl hp hc).trans (remoteAsk_got mc mr hcol hfut)
      rw [asked]
      refine ⟨mem_setRemote (x := x) ?_ rfl, congrArg (· ++ _) ?_⟩
      · exact ((leaveLine_keeps (fun a => a.wk.remotes) (fun _ _ _ _ => rfl) _ _).trans
          (takeColour_keeps (fun a => a.wk.remotes) (fun _ _ => rfl) hcol)) ▸ hx
      · exact (leaveLine_keeps State.net (fun _ _ _ _ => rfl) _ _).trans (takeColour_keeps State.net (fun _ _ => rfl) hcol)
    case line =>
      have asked : turn = remoteAsk s x l p := remoteGo_ask hx uniq hl hp hc
      rw [asked]
      exact ⟨remoteAsk_line_keeps State.net (fun _ _ => rfl) h, remoteAsk_line_keeps (fun a => a.wk.tasks) (fun _ _ => rfl) h,
        .of_eq (remoteAsk_line_keeps State.gm (fun _ _ => rfl) h) (remoteAsk_line_keeps State.ls (fun _ _ => rfl) h),
        mem_remoteAsk_line hx hp hc h⟩
    case start =>
      have started : turn = _ := (remoteGo_start hx uniq hl hp hc hf hg).trans (remoteStart_eq s x l p col fut carve)
      obtain ⟨arg, id, card⟩ := remoteBegin_regs (remoteLeft s x) x l p col fut carve
      have keep {β : Type} (pr : State → β) (h : ∀ s g l, pr { s with gm := g, ls := l } = pr s) :
        pr (startTask (remoteLeft s x) (remoteBegin x l p col fut carve)) =
          pr (taskBegun (remoteLeft s x) (remoteBegin x l p col fut carve)) := startTask_keeps pr h _ _
      rw [started]
      simp only [taskAt, reply_post_wk, reply_post_net, reply_post_replies]
      refine ⟨_, taskAt_startTask (remoteLeft s x) (remoteBegin x l p col fut carve), rfl, rfl, rfl, rfl, arg, id, card,
        fun a ha => List.mem_append_right _ ha, fun y hy => ?_, ?_⟩
      · have mem : y ∈ (remoteLeft s x).wk.remotes := keep (fun a => a.wk.remotes) (fun _ _ _ => rfl) ▸ hy
        exact of_decide_eq_true (List.mem_filter.mp mem).2
      · rw [keep (fun a => a.bt.replies) fun _ _ _ => rfl]
        rfl
  case level =>
    intro k l up hl e
    have run : exec e s = .next (remoteCount s (.level k up)) := rfl
    refine ⟨fun hu hf => ?_, fun h => ?_⟩
    · rw [run]
      simp [remoteCount, hu, hf, e]
    · cases up with
      | false => exact ⟨_, run, .of_eq rfl rfl, rfl, (tget_tmod_same _ _ _).trans (congrArg _ hl)⟩
      | true =>
        have counted : remoteCount s (.level k true) = modLaunch s k fun x => { x with remote := x.remote + 1 } := by
          simp [remoteCount, h.resolve_left (by decide)]
        exact ⟨_, run.trans (congrArg _ counted), .of_eq rfl rfl, rfl, (tget_tmod_same _ _ _).trans (congrArg _ hl)⟩

namespace Sys2Proof.Machine

variable {tid : Nat} {s₀ s u : State}

/-! ### What the acts of a commit leave of tasks, instances and futures (R16) -/

/-- A change of the state outside the work and the messages. -/
theorem StandsRegs.of_keeps (h : StandsRegs tid s₀ s) (hw : u.wk = s.wk) (hn : u.net = s.net) : StandsRegs tid s₀ u :=
  h.of_wk hw fun _ hm => hn ▸ hm

theorem readCheck_stands (h : StandsRegs tid s₀ s) (l : GLoc) : StandsRegs tid s₀ (readCheck s l) :=
  h.of_keeps (readCheck_keeps State.wk (fun _ _ _ _ => rfl) s l) (readCheck_keeps State.net (fun _ _ _ _ => rfl) s l)

theorem regCheck_stands (h : StandsRegs tid s₀ s) (k r : Nat) : StandsRegs tid s₀ (regCheck s k r) :=
  h.of_keeps (regCheck_keeps State.wk (fun _ _ _ _ => rfl) s k r) (regCheck_keeps State.net (fun _ _ _ _ => rfl) s k r)

theorem storeReg_stands (h : StandsRegs tid s₀ s) (k r : Nat) : StandsRegs tid s₀ (storeReg s k r) :=
  h.of_keeps (storeReg_keeps State.wk (fun _ _ _ => rfl) s k r) (storeReg_keeps State.net (fun _ _ _ => rfl) s k r)

theorem setLocBytes_stands (h : StandsRegs tid s₀ s) (off : Nat) (bs : List Byte) (l : GLoc) :
    StandsRegs tid s₀ (setLocBytes s off bs l) := by
  cases l with
  | here g => exact h.of_keeps rfl rfl
  | copy vi d st =>
    exact h.of_keeps (devPutAll_keeps State.wk (fun _ _ => rfl) bs s vi _) (devPutAll_keeps State.net (fun _ _ => rfl) bs s vi _)

theorem dropHalves_stands (h : StandsRegs tid s₀ s) (src : Option Nat) (l : GLoc) (off n : Nat) :
    StandsRegs tid s₀ (dropHalves src s l off n) :=
  have first := ite_stands (c := off < 8) (dropHalf_stands h src l 0) h
  ite_stands (dropHalf_stands first src l 1) first

/-- Flags change g61 alone. -/
theorem orFlags_values (t : Task) (f : FlagSet) : (orFlags t f).values = t.values := by
  unfold orFlags
  split
  · rfl
  · funext r
    have kept (n : Nat) : mkTok .n32 n ≠ nullTok := by simp [mkTok, nullTok]
    dsimp only [Task.values, setReg, regOf, tputD]
    rw [if_neg (kept _)]
    split
    · rfl
    next h => exact tgetD_tput_other _ _ _ h

theorem flagTask_stands (h : StandsRegs tid s₀ s) (k : Nat) (f : FlagSet) : StandsRegs tid s₀ (flagTask s k f) := by
  refine ite_stands h (storeReg_stands (modTask_stands h (fun t => ?_) fun t => orFlags_values t f) k 61)
  unfold orFlags
  split <;> rfl

/-! #### Tracking (R286 to R288) -/

theorem setTrack_stands (h : StandsRegs tid s₀ s) (v : Nat) (x : TrackUnit) : StandsRegs tid s₀ (setTrack s v x) := by
  cases x <;> exact h.of_keeps rfl rfl

theorem notePub_stands (h : StandsRegs tid s₀ s) (x : TrackUnit) (pane : Nat) : StandsRegs tid s₀ (notePub s x pane) :=
  h.of_parts rfl rfl rfl rfl fun _ hm => hm

theorem publish_stands (h : StandsRegs tid s₀ s) (k scope : Nat) : StandsRegs tid s₀ (publish s k scope) := by
  refine modTask_stands (foldl_stands (fun a x _ ha => ?_) h) (fun _ => rfl) fun _ => rfl
  exact ite_stands (setTrack_stands (ite_stands (notePub_stands ha _ _) ha) _ _) ha

theorem ownUnit_stands (h : StandsRegs tid s₀ s) (k : Nat) (x : TrackUnit) : StandsRegs tid s₀ (ownUnit s k x) := by
  unfold ownUnit
  refine ite_stands h ?_
  split
  · refine ite_stands (setTrack_stands h _ _) (ite_stands (flagTask_stands (setTrack_stands h _ _) _ _) ?_)
    exact modTask_stands (setTrack_stands h _ _) (fun _ => rfl) fun _ => rfl
  · exact setTrack_stands h _ _

/-- What tasks wait for is no part of what stands. -/
theorem waits_stands (h : StandsRegs tid s₀ s) (f : Task → List After) (rels : List After) :
    StandsRegs tid s₀ { s with wk := { s.wk with rels := rels, tasks := s.wk.tasks.map fun e => (e.1, { e.2 with wait := f e.2 }) } } := by
  have view {β : Type} {g : Task → β} (hg : ∀ (t : Task) w, g { t with wait := w } = g t) :
      tview g (s.wk.tasks.map fun e => (e.1, { e.2 with wait := f e.2 })) = tview g s.wk.tasks := by
    simp only [tview, List.map_map]
    exact List.map_congr_left fun e _ => congrArg (Prod.mk e.1) (hg _ _)
  exact ⟨⟨(view fun _ _ => rfl).trans h.fixed, h.insts, h.births, h.futs, h.exits⟩, (view fun _ _ => rfl).trans h.values⟩

theorem openWaits_stands (h : StandsRegs tid s₀ s) : StandsRegs tid s₀ (openWaits s) := by
  unfold openWaits
  extract_lets pub s1 keep
  have h1 : StandsRegs tid s₀ s1 := foldl_stands (fun _ _ _ ha => ite_stands (publish_stands ha _ _) ha) h
  exact ite_stands (waits_stands h1 (fun t => t.wait.filter fun w => !afterDone s w) _) h

theorem settleWaits_stands (h : StandsRegs tid s₀ s) (k iter : Nat) : StandsRegs tid s₀ (settleWaits s k iter) := by
  unfold settleWaits
  extract_lets seq one
  exact ite_stands (openWaits_stands (waits_stands h (fun t => t.wait.map one) _)) h

/-! #### Memory words (R161 to R166, R270) -/

theorem performWrite_stands (h : StandsRegs tid s₀ s) (m : WriteMsg) : StandsRegs tid s₀ (performWrite s m) := by
  unfold performWrite
  extract_lets s1 s2
  have h1 : StandsRegs tid s₀ s1 := ite_stands (h.of_keeps rfl rfl) h
  have h2 : StandsRegs tid s₀ s2 := by
    unfold s2
    split
    · exact publish_stands h1 _ _
    · exact ite_stands (ownUnit_stands h1 _ _) h1
  exact ite_stands (h2.of_keeps rfl rfl) h2

theorem performAtom_stands (h : StandsRegs tid s₀ s) (m : AtomMsg) : StandsRegs tid s₀ (performAtom s m) := by
  unfold performAtom
  extract_lets w old poison s0 s1 new writes s2
  have h0 : StandsRegs tid s₀ s0 := by
    unfold s0
    split
    · exact publish_stands h _ _
    · exact h
  have h1 : StandsRegs tid s₀ s1 := ite_stands (h0.of_keeps rfl rfl) h0
  have h2 : StandsRegs tid s₀ s2 := ite_stands (h0.of_keeps rfl rfl) h0
  exact ite_stands (post_stands h1 _) (post_stands h2 _)

theorem bumpSeq_stands (h : StandsRegs tid s₀ s) (k : Nat) : StandsRegs tid s₀ (bumpSeq s k) :=
  modTask_stands (f := fun t => { t with seq := t.seq + 1 }) h (fun _ => rfl) fun _ => rfl

theorem commitStore_stands (h : StandsRegs tid s₀ s) (t : Task) (va pa rdev : Nat) (fmt : Tag) (tok : Token) (rel : Option Scope)
    (checked mst now : Bool) (k : Nat) : StandsRegs tid s₀ (commitStore s t va pa rdev fmt tok rel checked mst now k) := by
  refine ite_stands (performWrite_stands (bumpSeq_stands h _) _) (post_stands (ite_stands ?_ (bumpSeq_stands h _)) _)
  exact foldl_stands (fun _ _ _ ha => ha.of_keeps rfl rfl) (bumpSeq_stands h _)

theorem commitAtom_stands (h : StandsRegs tid s₀ s) (t : Task) (m : AtomMsg) (now : Bool) :
    StandsRegs tid s₀ (commitAtom s t m now) := by
  have h1 := bumpSeq_stands h m.tid
  have h2 := ite_stands (c := m.release.isSome) (modTask_stands (f := fun x => { x with floor := t.seq + 1 }) (k := m.tid) h1
    (fun _ => rfl) fun _ => rfl) h1
  exact ite_stands (performAtom_stands h2 m) (post_stands h2 _)

theorem publishIf_stands (h : StandsRegs tid s₀ s) (b : Bool) (k scope : Nat) : StandsRegs tid s₀ (publishIf b s k scope) :=
  ite_stands (publish_stands h _ _) h

theorem commitLst_stands (h : StandsRegs tid s₀ s) (t : Task) (k hd off : Nat) (fmt : Tag) (tok : Token) (release : Bool) :
    StandsRegs tid s₀ (commitLst s t k hd off fmt tok release) := by
  unfold commitLst
  split
  · exact h
  · extract_lets s1 a s2 s3
    have h1 : StandsRegs tid s₀ s1 := publishIf_stands h _ _ _
    have ha : StandsRegs tid s₀ a := setLocBytes_stands (dropHalves_stands h1 _ _ _ _) _ _ _
    have h2 : StandsRegs tid s₀ s2 :=
      ite_stands (setLocField_stands h1 _ _ _ _) (ite_stands (setLocField_stands ha _ _ _ _) ha)
    have h3 : StandsRegs tid s₀ s3 := setLocField_stands h2 _ _ _ _
    split
    · exact ownUnit_stands h3 _ _
    · exact h3

theorem commitLamo_stands (h : StandsRegs tid s₀ s) (t : Task) (x : Inst) (op : AtomOp) (hd off : Nat) (fmt : Tag) (v : Token)
    (release : Bool) (reg : Option Nat) : StandsRegs tid s₀ (commitLamo s t x op hd off fmt v release reg) := by
  unfold commitLamo
  split
  · exact h
  next l o _ =>
    have h1 := publishIf_stands (readCheck_stands h l) release x.tid (localScope t hd)
    refine ite_stands (post_stands (setLocField_stands (setLocField_stands h1 _ _ _ _) _ _ _ _) _) ?_
    exact post_stands (setLocField_stands (setLocBytes_stands (dropHalves_stands h1 _ _ _ _) _ _ _) _ _ _ _) _

theorem commitBarr_stands (h : StandsRegs tid s₀ s) (l : GLoc) : StandsRegs tid s₀ (commitBarr s l).1 := by
  have note (a : State) (ha : StandsRegs tid s₀ a) : StandsRegs tid s₀ (commitBarr.noteLoc a l) := by
    cases l with
    | here g => exact ha.of_keeps rfl rfl
    | copy vi d st => exact ha
  exact note _ (setLocBytes_stands (readCheck_stands h l) _ _ l)

theorem commitTake_stands (h : StandsRegs tid s₀ s) (k : Nat) (l : GLoc) : StandsRegs tid s₀ (commitTake s k l) :=
  setLocField_stands (setLocField_stands (setLocField_stands (dropHalves_stands h _ _ _ _) _ _ _ _) _ _ _ _) _ _ _ _

theorem commitFes_stands (h : StandsRegs tid s₀ s) (l : GLoc) (full : Bool) : StandsRegs tid s₀ (commitFes s l full) :=
  ite_stands (setLocField_stands h _ _ _ _) (setLocField_stands (setLocField_stands h _ _ _ _) _ _ _ _)

theorem commitBinit_stands (h : StandsRegs tid s₀ s) (k : Nat) (l : GLoc) (n : Nat) : StandsRegs tid s₀ (commitBinit s k l n) := by
  refine setLocField_stands (setLocField_stands (setLocField_stands ?_ _ _ _ _) _ _ _ _) _ _ _ _
  exact setLocBytes_stands (dropHalves_stands h _ _ _ _) _ _ _

theorem carryUse_stands (h : StandsRegs tid s₀ s) (f : Firing) (n : Nat) : StandsRegs tid s₀ (carryUse s f n) :=
  ite_stands h (h.of_keeps rfl rfl)

/-- Every memory word. -/
theorem memEffect_stands (h : StandsRegs tid s₀ s) (a : State) (x : Inst) (now : Bool) (r : Request) :
    StandsRegs tid s₀ (memEffect a x now s r) := by
  unfold memEffect
  extract_lets t reg rel
  split
  · exact commitStore_stands (carryUse_stands h _ _) _ _ _ _ _ _ _ _ _ _ _
  · exact commitAtom_stands (carryUse_stands h _ _) _ _ _
  · exact ite_stands (h.of_keeps rfl rfl) h
  · exact modTask_stands h (fun _ => rfl) fun _ => rfl
  · exact commitLst_stands h _ _ _ _ _ _ _
  · exact commitLamo_stands h _ _ _ _ _ _ _ _ _
  · split
    · exact commitTake_stands h _ _
    · exact h
  · split
    · exact commitFes_stands (publishIf_stands h _ _ _) _ _
    · exact h
  · split
    · exact commitBinit_stands h _ _ _
    · exact h
  · split
    · exact post_stands (commitBarr_stands (publish_stands h _ _) _) _
    · exact h
  · exact h

theorem perfBumps_keep {β : Type} (p : State → β) (h : ∀ s r, p { s with sr := r } = p s) (s : State) (n : Nat) (ks : List Nat) :
    p (ks.foldl (fun a k => perfBump a n k) s) = p s := by
  refine foldl_keeps p (fun a k => ?_) _ s
  unfold perfBump
  split
  · rfl
  · exact h _ _

theorem perfDie_stands (h : StandsRegs tid s₀ s) (die ev n : Nat) : StandsRegs tid s₀ (perfDie s die ev n) :=
  h.of_keeps (perfBumps_keep State.wk (fun _ _ => rfl) s n _) (perfBumps_keep State.net (fun _ _ => rfl) s n _)

theorem perfProf_stands (h : StandsRegs tid s₀ s) (pane ev n : Nat) : StandsRegs tid s₀ (perfProf s pane ev n) :=
  h.of_keeps (perfBumps_keep State.wk (fun _ _ => rfl) s n _) (perfBumps_keep State.net (fun _ _ => rfl) s n _)

theorem lineRequest_stands (h : StandsRegs tid s₀ s) (die pa rdev : Nat) : StandsRegs tid s₀ (lineRequest s die pa rdev) := by
  unfold lineRequest
  refine ite_stands (perfDie_stands h _ _ _) ?_
  split
  · exact perfDie_stands h _ _ _
  · exact h

theorem countLine_stands (h : StandsRegs tid s₀ s) (a : State) (x : Inst) (r : Request) :
    StandsRegs tid s₀ (countLine a x s r) := by
  unfold countLine
  extract_lets die
  split
  · exact lineRequest_stands h _ _ _
  · exact lineRequest_stands h _ _ _
  · exact lineRequest_stands h _ _ _
  · exact h

theorem memEffects_stands (h : StandsRegs tid s₀ s) (a : State) (x : Inst) : StandsRegs tid s₀ (memEffects a s x) :=
  foldl_stands (fun _ _ _ ha => memEffect_stands (countLine_stands ha _ _ _) _ _ _ _) h

end Sys2Proof.Machine

namespace Sys2Proof.Machine

variable {tid : Nat} {s₀ s u : State}

/-! ### The words without an LSID (R171, R176, R177, R195 to R207) -/

section
variable {β : Type} {p : State → β} (h : ∀ s g j w r c, p { s with gm := g, jb := j, fw := w, sr := r, cf := c } = p s)
include h

theorem emptySlot_keeps (s : State) (vi : Nat) (i : Option Nat) : p (emptySlot s vi i) = p s := by
  cases i with
  | none => rfl
  | some i => exact h s _ s.jb s.fw s.sr s.cf

theorem refuseLaunch_keeps (s : State) (key : Nat) : p (refuseLaunch s key) = p s := by
  unfold refuseLaunch
  split
  · rfl
  · exact (faultRecorded_keeps p h _ _ _ _ _).trans ((h _ _ _ _ _ _).trans (emptySlot_keeps h _ _ _))

theorem launchReady_keeps (s : State) (key : Nat) (l : Launch) : p (launchReady s key l) = p s :=
  (h _ _ _ _ _ _).trans ((h _ _ _ _ _ _).trans (emptySlot_keeps h _ _ _))

theorem holdDev_keeps (s : State) (d : DevAccess) (die vi va : Nat) (write : Bool) : p (holdDev s d die vi va write) = p s := by
  unfold holdDev sendPageFault
  split
  · exact h s s.gm _ s.fw s.sr s.cf
  · exact h s s.gm _ _ s.sr s.cf

/-- The read of a card changes launches, records and bookkeeping alone. -/
theorem readCard_keeps (s : State) (key : Nat) : p (readCard s key) = p s := by
  have touch (a : State) (vi va n : Nat) : p (devTouch a vi va n) = p a :=
    devTouch_keeps p (fun a g => h a g a.jb a.fw a.sr a.cf) a vi va n
  have refused (a : State) (l : Launch) : p (refusedCard a key l) = p a := h a a.gm _ a.fw a.sr a.cf
  unfold readCard
  split
  · rfl
  · split
    · exact holdDev_keeps h _ _ _ _ _ _
    · extract_lets d a l1
      have ha : p a = p s := touch _ _ _ _
      split
      · exact (refuseLaunch_keeps h _ _).trans ((refused _ _).trans ha)
      · split
        · exact (launchReady_keeps h _ _ _).trans ha
        · split
          · refine (launchReady_keeps h _ _ _).trans (Eq.trans ?_ ha)
            exact devStore_keeps p (fun a g => h a g a.jb a.fw a.sr a.cf) a _ _ _
          · exact (holdDev_keeps h _ _ _ _ _ _).trans ha
          · refine (refuseLaunch_keeps h _ _).trans (Eq.trans ?_ ((refused a l1).trans ha))
            exact writeRecord_keeps (fun s g d w r => h s g _ w r s.cf) (fun s k f _ => h s s.gm _ s.fw s.sr s.cf) _ _ _ _
    · exact refuseLaunch_keeps h _ _

theorem newLaunch_keeps (s : State) (l : Launch) : p (newLaunch s l).2 = p s :=
  (readCard_keeps h _ _).trans ((h _ _ _ _ _ _).trans ((h _ _ _ _ _ _).trans (h _ _ _ _ _ _)))

end

theorem newLaunch_stands (h : StandsRegs tid s₀ s) (l : Launch) : StandsRegs tid s₀ (newLaunch s l).2 :=
  h.of_keeps (newLaunch_keeps (p := State.wk) (fun _ _ _ _ _ _ => rfl) s l)
    (newLaunch_keeps (p := State.net) (fun _ _ _ _ _ _ => rfl) s l)

theorem commitFree_stands (h : StandsRegs tid s₀ s) (hd : Nat) : StandsRegs tid s₀ (commitFree s hd) := by
  unfold commitFree
  split
  · exact h
  next k _ =>
    extract_lets r s1
    have h1 : StandsRegs tid s₀ s1 := h.of_keeps rfl rfl
    exact ite_stands (post_stands h1 _) h1

theorem commitRels_stands (h : StandsRegs tid s₀ s) (hd n : Nat) : StandsRegs tid s₀ (commitRels s hd n) := by
  unfold commitRels
  split
  · exact h
  next k _ =>
    extract_lets r len2 len1 cut s1 copies
    have h1 : StandsRegs tid s₀ s1 := h.of_keeps rfl rfl
    exact ite_stands h1 (post_stands h1 _)

theorem growCommit_stands (h : StandsRegs tid s₀ s) (pane : Nat) (m : Mail) : StandsRegs tid s₀ (growCommit s pane m) := by
  have touched : StandsRegs tid s₀ (walkTouch s m.vi m.va) := h.of_keeps rfl rfl
  have mapped (a : State) (ha : StandsRegs tid s₀ a) (vi va page : Nat) : StandsRegs tid s₀ (mapPage a vi va page) := by
    unfold mapPage
    split
    · exact ha.of_keeps rfl rfl
    · exact ha
  refine ite_stands (post_stands touched _) ?_
  split
  · refine post_stands (mapped _ ?_ _ _ _) _
    exact touched.of_keeps rfl rfl
  · exact ite_stands (touched.of_keeps rfl rfl) (touched.of_keeps rfl rfl)

/-- Every word without an LSID but CANCEL, which reaches other tasks (R200). -/
theorem slotEffect_stands (h : StandsRegs tid s₀ s) (a : State) (x : Inst) {r : Request} (hr : ∀ l id, r.kind ≠ .cancel l id) :
    StandsRegs tid s₀ (slotEffect a x s r) := by
  unfold slotEffect
  extract_lets t reg o pane
  split
  · exact commitFree_stands h _
  · exact commitRels_stands h _ _
  · refine post_stands ?_ _
    exact h.of_keeps rfl rfl
  · exact post_stands h _
  · exact post_stands h _
  · exact post_stands (newLaunch_stands (publish_stands h _ _) _) _
  · refine post_stands ?_ _
    exact h.of_keeps rfl rfl
  next l id hk => exact absurd hk (hr l id)
  · exact growCommit_stands h _ _
  · exact post_stands h _
  · exact perfProf_stands h _ _ _
  · exact h

theorem mem_insSlot {x y : Request} {l : List Request} (h : y ∈ insSlot x l) : y = x ∨ y ∈ l := by
  induction l with
  | nil => simpa [insSlot] using h
  | cons z t ih =>
    simp only [insSlot] at h
    split at h
    · simpa using h
    · rcases List.mem_cons.mp h with rfl | h
      · exact .inr List.mem_cons_self
      · exact (ih h).imp_right (List.mem_cons_of_mem _)

theorem mem_bySlot {y : Request} {l : List Request} (h : y ∈ bySlot l) : y ∈ l := by
  induction l with
  | nil => exact h
  | cons x t ih =>
    rcases mem_insSlot h with rfl | h
    · exact List.mem_cons_self
    · exact List.mem_cons_of_mem _ (ih h)

theorem slotEffects_stands (h : StandsRegs tid s₀ s) (a : State) {x : Inst}
    (hx : ∀ r ∈ x.requests, ∀ l id, r.kind ≠ .cancel l id) : StandsRegs tid s₀ (slotEffects a s x) :=
  foldl_stands (fun _ r hr ha => slotEffect_stands ha a x (hx r (List.mem_filter.mp (mem_bySlot hr)).1)) h

/-! ### Registers (R38, R109, R210) -/

theorem supersede_stands (h : StandsRegs tid s₀ s) (k : Nat) (regs : List Nat) : StandsRegs tid s₀ (supersede s k regs) :=
  ite_stands h (h.of_parts rfl rfl rfl rfl fun _ hm => List.mem_map.mpr ⟨_, hm, rfl⟩)

theorem modTask_fixed (s : State) (k : Nat) {f : Task → Task} (hf : ∀ t, (f t).fixed = t.fixed) :
    Stands tid s (modTask s k f) := ⟨tview_tmod hf, fun _ h => h, fun _ h => h, fun _ => rfl, fun _ h => h⟩

/-- What a register holds once it has taken a token (R210). -/
def takenVal (r : Nat) (v : Token) : Token := if r = 61 then mkTok .n32 (v.val.toNat % 256) else v

/-- A register takes a token between two changes that leave the registers. -/
theorem writeReg_split (s : State) (k r : Nat) (v : Token) :
    ∃ a b, (∀ tid, StandsRegs tid s a) ∧ (∀ tid, StandsRegs tid (modTask a k fun t => setReg t r (takenVal r v)) b) ∧
      writeReg s k r v = b ∧ taskAt a k = taskAt s k ∧
      taskAt b k = taskAt (modTask a k fun t => setReg t r (takenVal r v)) k := by
  unfold writeReg
  extract_lets was old a v' s1
  refine ⟨a, _, fun tid => ?_, fun tid => ?_, rfl, ?_, ?_⟩
  · exact ite_stands (regCheck_stands (.refl tid s) _ _) (.refl tid s)
  · have h1 : StandsRegs tid (modTask a k fun t => setReg t r (takenVal r v)) s1 := storeReg_stands (.refl tid _) _ _
    exact ite_stands (post_stands h1 _) h1
  · unfold a
    split
    · exact regCheck_keeps (fun a => taskAt a k) (fun _ _ _ _ => rfl) s k r
    · rfl
  · have h1 : taskAt s1 k = taskAt (modTask a k fun t => setReg t r (takenVal r v)) k :=
      storeReg_keeps (fun a => taskAt a k) (fun _ _ _ => rfl) _ _ _
    split
    · exact h1
    · exact h1

theorem writeReg_stands (s : State) (k r : Nat) (v : Token) : Stands tid s (writeReg s k r v) := by
  obtain ⟨a, b, ha, hb, e, -, -⟩ := writeReg_split s k r v
  rw [e]
  exact ((ha tid).toStands.trans (modTask_fixed a k (f := fun t => setReg t r (takenVal r v)) fun _ => rfl)).trans (hb tid).toStands

theorem taskAt_writeReg (s : State) (k r : Nat) (v : Token) :
    taskAt (writeReg s k r v) k = (taskAt s k).map fun t => setReg t r (takenVal r v) := by
  obtain ⟨a, b, -, -, e, ha, hb⟩ := writeReg_split s k r v
  rw [e, hb, taskAt_modTask_same, ha]

theorem Stands.refl (tid : Nat) (s : State) : Stands tid s s := (StandsRegs.refl tid s).toStands

theorem writeRegs_stands (p : Nat → Bool) (a s : State) (x : Inst) : Stands tid s (writeRegs p a s x) := by
  unfold writeRegs
  extract_lets es put one
  have put_ (b : State) (r : Nat) (v : Token) : Stands tid b (put b r v) := by
    unfold put
    split
    · exact writeReg_stands _ _ _ _
    · exact .refl tid b
  refine List.foldlRecOn (motive := Stands tid s) _ _ (.refl tid s) fun b hb e _ => hb.trans ?_
  unfold one
  split
  · split
    · exact put_ _ _ _
    · exact .refl tid b
  · split
    · exact put_ _ _ _
    · exact .refl tid b

theorem writeLink_stands (a s : State) (x : Inst) : Stands tid s (writeLink a s x) := by
  unfold writeLink
  split
  · exact writeReg_stands _ _ _ _
  · exact .refl tid s

theorem dropRefs_stands (h : StandsRegs tid s₀ s) (x : Inst) : StandsRegs tid s₀ (dropRefs s x) := post_stands h _

/-! ### The instance ends (R17, R21, R23) -/

theorem raise_stands (h : StandsRegs tid s₀ s) (iter slot : Nat) (f : Flt) : StandsRegs tid s₀ (raise s tid iter slot f) := by
  unfold raise
  split
  · exact ite_stands h (stopTask_stands h _ _)
  · exact h

theorem repost_stands (h : StandsRegs tid s₀ s) (m : Instr) : StandsRegs tid s₀ (repost s m) :=
  h.of_wk rfl fun _ hm => List.mem_cons_of_mem _ hm

/-- A token that is lost stops its own task at most. -/
theorem tokenLost_stands (h : StandsRegs tid s₀ s) (t : Task) {m : TokMsg} (hm : m.tid = tid) :
    StandsRegs tid s₀ (tokenLost s t m) := by
  subst hm
  have h1 := ite_stands (c := (instAt s m.tid m.src).isSome) h (repost_stands h (.tokenArrive m))
  refine ite_stands (repost_stands h _) (ite_stands (raise_stands h1 _ _ _) (ite_stands (raise_stands h1 _ _ _) ?_))
  exact stopTask_stands h1 _ _

theorem putTok_stands (h : StandsRegs tid s₀ s) (e : TokEntry) (q : TokPlace) : StandsRegs tid s₀ (putTok s e q) := by
  refine h.of_parts ?_ ?_ ?_ ?_ fun m hm => ?_
  · exact putTok_keeps (fun a => a.wk.tasks) (fun _ _ _ _ _ => rfl) s e q
  · exact putTok_keeps (fun a => a.wk.insts.map Prod.fst) (fun _ _ _ _ _ => rfl) s e q
  · exact putTok_keeps (fun a => a.wk.births.map Birth.f) (fun _ _ _ _ _ => rfl) s e q
  · exact putTok_keeps (fun a => a.wk.futs) (fun _ _ _ _ _ => rfl) s e q
  · exact (putTok_keeps State.net (fun _ _ _ _ _ => rfl) s e q).symm ▸ hm

theorem storeSpill_stands (h : StandsRegs tid s₀ s) (t : Task) (m : TokMsg) (q : TokPlace) :
    StandsRegs tid s₀ (storeSpill s t m q) :=
  h.of_keeps (storeSpill_keeps State.wk (fun _ _ _ _ => rfl) s t m q) (storeSpill_keeps State.net (fun _ _ _ _ => rfl) s t m q)

theorem rehouse_stands (h : StandsRegs tid s₀ s) {x : Inst} (hx : x.tid = tid) : StandsRegs tid s₀ (rehouse s x) := by
  unfold rehouse
  extract_lets mine t move
  refine foldl_stands (fun a e he ha => ?_) h
  have own : e.msg.tid = tid := by
    have := (List.mem_filter.mp he).2
    simp only [Bool.and_eq_true, decide_eq_true_eq] at this
    obtain ⟨⟨⟨-, e⟩, -⟩, -⟩ := this
    exact e.trans hx
  refine ite_stands (putTok_stands ha _ _) ?_
  split
  · exact storeSpill_stands (putTok_stands ha _ _) _ _ _
  · exact tokenLost_stands (s := { a with wk := { a.wk with toks := lerase a.wk.toks e } })
      (ha.of_parts rfl rfl rfl rfl fun _ hm => hm) t own

/-- The state in which an instance has ended, but for the tokens of its REDs. -/
theorem endInst_split (s : State) (x : Inst) : ∃ a b, endInst s x = rehouse b x ∧ (Canonical s → Canonical a) ∧
    b.wk.insts = tdel a.wk.insts (instKey x.tid x.iter) ∧ StandsRegs x.tid s b := by
  unfold endInst
  extract_lets own addressed s1 s2
  refine ⟨s2, _, rfl, fun hs => ?_, rfl, ?_⟩
  · exact withdraw_canon (foldl_canon (fun _ _ h => undoBirth_canon h) hs)
  · have h2 : StandsRegs x.tid s s2 := withdraw_stands (undoBirths_stands (.refl x.tid s) x.iter) _
    exact h2.of_end rfl rfl rfl rfl fun m hm => List.mem_filter.mpr ⟨hm, rfl⟩

theorem endInst_stands (h : StandsRegs tid s₀ s) {x : Inst} (hx : x.tid = tid) : StandsRegs tid s₀ (endInst s x) := by
  subst hx
  obtain ⟨a, b, e, -, -, hb⟩ := endInst_split s x
  rw [e]
  exact h.trans (rehouse_stands hb rfl)

/-- An instance that has ended is no more. -/
theorem endInst_gone (hs : Canonical s) (x : Inst) : instKey x.tid x.iter ∉ (endInst s x).wk.insts.map Prod.fst := by
  obtain ⟨a, b, e, ha, hi, -⟩ := endInst_split s x
  rw [e]
  intro hm
  have hb := (rehouse_stands (.refl x.tid b) rfl).insts _ hm
  rw [hi] at hb
  exact key_tdel (ha hs).insts hb

theorem leaveLoop_stands (h : StandsRegs tid s₀ s) : StandsRegs tid s₀ (leaveLoop s tid) := by
  have h1 : StandsRegs tid s₀ ((instsOf s tid).foldl discardInst s) :=
    foldl_stands (fun _ i hi ha => discardInst_stands ha (instsOf_tid hi)) h
  refine modTask_stands ?_ (fun _ => rfl) fun _ => rfl
  exact h1.of_parts rfl rfl rfl rfl fun m hm => List.mem_filter.mpr ⟨hm, rfl⟩

theorem dropRegs_stands (h : StandsRegs tid s₀ s) (k : Nat) (t : Task) : StandsRegs tid s₀ (dropRegs s k t) :=
  foldl_stands (fun _ _ _ ha => ite_stands (ite_stands (post_stands (regCheck_stands ha _ _) _) (regCheck_stands ha _ _)) ha) h

/-- A task's end removes the task, and of instances none. -/
theorem endTask_split (s : State) (k : Nat) : ∃ b, (∀ tid, StandsRegs tid s b) ∧ (endTask s k).net = b.net ∧
    (endTask s k).wk.insts = b.wk.insts := by
  unfold endTask
  split
  · exact ⟨s, fun tid => .refl tid s, rfl, rfl⟩
  next t _ =>
    refine ⟨releaseRec (releaseRec (dropRegs (publish s k 2) k t) t.stack) t.carve, fun tid => ?_, rfl, rfl⟩
    exact releaseRec_stands (releaseRec_stands (dropRegs_stands (publish_stands (.refl tid s) _ _) _ _) _) _

end Sys2Proof.Machine

namespace Sys2Proof.Machine

variable {tid : Nat} {s₀ s u : State} {x : Inst}

/-! ### The commit, taken apart (R16) -/

/-- The state behind a block's effects and registers, before its instance ends. -/
def committed (s : State) (x : Inst) : State :=
  let s0 := writeRegs (fun r => r = 61) s (supersede s x.tid (regsTaken s x)) x
  let s1 := slotEffects s (memEffects s s0 x) x
  let s2 := writeLink s (writeRegs (fun r => r ≠ 61) s s1 x) x
  flagTask (dropRefs s2 x) x.tid x.flags

theorem commitNow_eq (s : State) (x : Inst) : commitNow s x =
    wakeReads (cancelOwn s (trapStop s (settleWaits (commitBranch (endInst (committed s x) x) x) x.tid x.iter) x) x) x.tid := rfl

theorem committed_canon (hs : Canonical s) : Canonical (committed s x) :=
  flagTask_canon (dropRefs_canon (writeLink_canon (writeRegs_canon (slotEffects_canon (memEffects_canon
    (writeRegs_canon (supersede_canon hs)))))))

theorem committed_stands (hx : ∀ r ∈ x.requests, ∀ l id, r.kind ≠ .cancel l id) : Stands tid s (committed s x) := by
  unfold committed
  extract_lets s0 s1 s2
  have h0 : Stands tid s s0 := (supersede_stands (.refl tid s) _ _).toStands.trans (writeRegs_stands _ _ _ _)
  have h1 : StandsRegs tid s0 s1 := slotEffects_stands (memEffects_stands (.refl tid s0) s x) s hx
  have h2 : Stands tid s1 s2 := (writeRegs_stands _ _ _ _).trans (writeLink_stands _ _ _)
  exact ((h0.trans h1.toStands).trans h2).trans (flagTask_stands (dropRefs_stands (.refl tid s2) x) _ _).toStands

/-! #### The instance is no more -/

theorem commitBranch_insts (s : State) (x : Inst) {k : Nat} (h : k ∈ (commitBranch s x).wk.insts.map Prod.fst) :
    k ∈ s.wk.insts.map Prod.fst := by
  have left : StandsRegs x.tid s (if (taskD s x.tid).loop.isSome then leaveLoop s x.tid else s) :=
    ite_stands (leaveLoop_stands (.refl x.tid s)) (.refl x.tid s)
  unfold commitBranch at h
  extract_lets t s1 at h
  split at h
  · exact h
  · exact left.insts k h
  · obtain ⟨b, hb, -, hi⟩ := endTask_split (post s1 [.futureExitArrive ⟨futPayload t.fut (tgetD s1.wk.futs t.fut {}).gen, x.tid,
      ‹Token›, !t.spawned⟩]) x.tid
    exact left.insts k ((hb x.tid).insts k (hi ▸ h))
  · exact h

theorem trapRecord_stands (h : StandsRegs tid s₀ s) (t : Task) (f : Flt) (q : Place4) :
    StandsRegs tid s₀ (trapRecord s t f q) := by
  refine ite_stands (h.of_keeps rfl rfl) (h.of_keeps ?_ ?_)
  · exact writeRecord_keeps (fun _ _ _ _ _ => rfl) (fun _ _ _ _ => rfl) s t.vi f q
  · exact writeRecord_keeps (fun _ _ _ _ _ => rfl) (fun _ _ _ _ => rfl) s t.vi f q

theorem trapStop_stands (h : StandsRegs x.tid s₀ u) (s : State) : StandsRegs x.tid s₀ (trapStop s u x) := by
  unfold trapStop
  extract_lets t
  split
  · exact h
  next c slot imm _ =>
    have recorded := trapRecord_stands (publish_stands h x.tid 3) t ⟨c, imm⟩ (placeOf s t x slot)
    refine discardAll_stands (recorded.of_keeps ?_ ?_) true
    · exact faultLaunch_keeps State.wk (fun _ _ _ => rfl) _ _
    · exact faultLaunch_keeps State.net (fun _ _ _ => rfl) _ _

theorem reclaimTask_insts (s : State) (tid : Nat) {k : Nat} (h : k ∈ (reclaimTask s tid).wk.insts.map Prod.fst) :
    k ∈ s.wk.insts.map Prod.fst := by
  unfold reclaimTask at h
  split at h
  · exact h
  · extract_lets _ s0 s1 s2 mine s3 at h
    obtain ⟨b, hb, -, hi⟩ := endTask_split s3 tid
    have h3 : k ∈ s3.wk.insts.map Prod.fst := (hb tid).insts k (hi ▸ h)
    have h2 : StandsRegs tid s2 s3 := foldl_stands (fun _ _ _ ha => post_stands ha _) (.refl tid s2)
    exact (discardAll_stands (.refl tid s0) false).insts k (h2.insts k h3)

theorem cancelOwn_insts (s u : State) (x : Inst) {k : Nat} (h : k ∈ (cancelOwn s u x).wk.insts.map Prod.fst) :
    k ∈ u.wk.insts.map Prod.fst := by
  unfold cancelOwn at h
  extract_lets hit at h
  split at h
  · exact reclaimTask_insts u x.tid h
  · exact h

/-- A commit ends its instance (R16). -/
theorem commitNow_gone (hs : Canonical s) (x : Inst) : tget (commitNow s x).wk.insts (instKey x.tid x.iter) = none := by
  rw [commitNow_eq]
  refine tget_eq_none fun h => endInst_gone (committed_canon (x := x) hs) x
    (commitBranch_insts (endInst (committed s x) x) x ?_)
  exact (settleWaits_stands (.refl x.tid _) _ _).insts _ ((trapStop_stands (.refl x.tid _) s).insts _ (cancelOwn_insts _ _ x h))

/-! #### Where control goes (R15, R119) -/

/-- A commit without a trap or a CANCEL. -/
theorem commitNow_plain {t : Task} (ht : taskAt s x.tid = some t) (htrap : trapOf s t x = none)
    (hx : ∀ r ∈ x.requests, ∀ l id, r.kind ≠ .cancel l id) : commitNow s x =
      wakeReads (settleWaits (commitBranch (endInst (committed s x) x) x) x.tid x.iter) x.tid := by
  have noCancel (u : State) : cancelOwn s u x = u := by
    refine if_neg ?_
    rw [Bool.and_eq_true, not_and]
    intro hit
    obtain ⟨r, hr, hk⟩ := List.any_eq_true.mp hit
    split at hk
    next l id hc => exact absurd hc (hx r hr l id)
    next => exact nomatch hk
  have noTrap (u : State) : trapStop s u x = u := by
    simp only [trapStop, taskD, tgetD, show tget s.wk.tasks x.tid = some t from ht, Option.getD_some, htrap]
  rw [commitNow_eq, noTrap, noCancel]

theorem ended_stands (hx : ∀ r ∈ x.requests, ∀ l id, r.kind ≠ .cancel l id) :
    Stands x.tid s (endInst (committed s x) x) :=
  (committed_stands hx).trans (endInst_stands (.refl x.tid _) rfl).toStands

theorem settleWaits_net (s : State) (k iter : Nat) : (settleWaits s k iter).net = s.net := by
  have track (a : State) (v : Nat) (y : TrackUnit) : (setTrack a v y).net = a.net := by cases y <;> rfl
  have pub (a : State) (k scope : Nat) : (publish a k scope).net = a.net := by
    refine foldl_keeps State.net (fun b y => ?_) _ a
    dsimp only
    split
    · refine (track _ _ _).trans ?_
      split <;> rfl
    · rfl
  have opened (a : State) : (openWaits a).net = a.net := by
    unfold openWaits
    extract_lets pub' s1 keep
    split
    · refine foldl_keeps State.net (fun b w => ?_) _ a
      show (if _ then _ else _ : State).net = _
      split
      · exact pub _ _ _
      · rfl
    · rfl
  unfold settleWaits
  extract_lets seq one
  split
  · exact opened _
  · rfl

/-- Control goes on: the next block is to be activated, and nothing else of its task changes. -/
theorem commitBranch_goto {va : Nat} {call : Bool} (hb : x.branch = some (.goto va call)) (s : State) :
    StandsRegs x.tid s (commitBranch s x) ∧ .blockActivate ⟨x.tid, 0, va, true, true, false⟩ ∈ (commitBranch s x).net := by
  have left : StandsRegs x.tid s (if (taskD s x.tid).loop.isSome then leaveLoop s x.tid else s) :=
    ite_stands (leaveLoop_stands (.refl x.tid s)) (.refl x.tid s)
  simp only [commitBranch, hb]
  exact ⟨post_stands left _, List.mem_append_right _ List.mem_cons_self⟩

/-- EXIT: the result is on its way, and the task is no more. -/
theorem commitBranch_exit {v : Token} {t t' : Task} (hb : x.branch = some (.exit v)) (hs : Canonical s)
    (ht : taskAt s x.tid = some t') (hf : t'.fixed = t.fixed) (births : ∀ f ∈ s.wk.births.map Birth.f, f.tid ≠ x.tid) :
    taskAt (commitBranch s x) x.tid = none ∧
      .futureExitArrive ⟨futPayload t.fut (tgetD s.wk.futs t.fut {}).gen, x.tid, v, !t.spawned⟩ ∈ (commitBranch s x).net := by
  obtain ⟨fut, spawned⟩ : t'.fut = t.fut ∧ t'.spawned = t.spawned := Prod.mk.inj hf
  have here : taskD s x.tid = t' := by simp only [taskD, tgetD, show tget s.wk.tasks x.tid = some t' from ht, Option.getD_some]
  have left : StandsRegs x.tid s (if t'.loop.isSome then leaveLoop s x.tid else s) :=
    ite_stands (leaveLoop_stands (.refl x.tid s)) (.refl x.tid s)
  have canon : Canonical (if t'.loop.isSome then leaveLoop s x.tid else s) := ite_canon (leaveLoop_canon hs) hs
  simp only [commitBranch, hb, here, commitExit]
  generalize (if t'.loop.isSome then leaveLoop s x.tid else s) = w at *
  rw [left.futs births, fut, spawned]
  obtain ⟨b, hst, hn, -⟩ := endTask_split (post w [.futureExitArrive ⟨futPayload t.fut (tgetD s.wk.futs t.fut {}).gen, x.tid, v,
    !t.spawned⟩]) x.tid
  exact ⟨taskAt_endTask (post_canon canon) x.tid, hn ▸ (hst x.tid).exits _ (List.mem_append_right _ List.mem_cons_self)⟩

theorem taskAt_none_of_stands (h : Stands tid s₀ s) {k : Nat} (hk : taskAt s₀ k = none) : taskAt s k = none := by
  have none_ : (taskAt s k).map Task.fixed = none := by
    rw [taskAt, ← tget_tview, h.fixed, tget_tview]
    exact congrArg (Option.map Task.fixed) hk
  exact Option.map_eq_none_iff.mp none_

/-! #### The WRITEs of a block (R109) -/

/-- What the word of a slot leaves in a register, where it is a WRITE of it that produced a token. -/
def wroteIn (x : Inst) (r : Nat) (e : Nat × Instr) : Option Token :=
  match e.2 with
  | .write _ r' _ => if r'.toNat = r then tget x.wrote e.1 else none
  | _ => none

section
variable {e : Nat × Instr} {w : BitVec 5} {k : BitVec 6} {pm : Pm}

theorem wroteIn_write (h : e.2 = .write w k pm) (r : Nat) : wroteIn x r e = if k.toNat = r then tget x.wrote e.1 else none := by
  simp only [wroteIn, h]

theorem wroteIn_other (h : ∀ w k pm, e.2 ≠ .write w k pm) (r : Nat) : wroteIn x r e = none := by
  unfold wroteIn
  split
  next he => exact absurd he (h _ _ _)
  next => rfl

end

theorem lastWrite_eq (s : State) (x : Inst) (r : Nat) : lastWrite s x r = (blockSlots s x).reverse.findSome? (wroteIn x r) := by
  rw [lastWrite, writesOf, ← List.filterMap_reverse, ← List.head?_filterMap, List.filterMap_filterMap, List.head?_filterMap]
  congr 1
  funext e
  split
  next h =>
    rw [wroteIn_write h]
    split <;> rfl
  next h => exact (wroteIn_other h r).symm

/-- One slot of a block that asks for nothing, at the commit: a WRITE whose register `p` admits. -/
def writeStep (p : Nat → Bool) (x : Inst) (a : State) (e : Nat × Instr) : State :=
  match e.2 with
  | .write _ r _ => (match tget x.wrote e.1 with | some v => if p r.toNat then writeReg a x.tid r.toNat v else a | none => a)
  | _ => a

section
variable {e : Nat × Instr} {w : BitVec 5} {k : BitVec 6} {pm : Pm} (p : Nat → Bool)

theorem writeStep_none (h : tget x.wrote e.1 = none) (a : State) : writeStep p x a e = a := by
  unfold writeStep
  split
  next => rw [h]
  next => rfl

theorem writeStep_write {v : Token} (h : e.2 = .write w k pm) (hv : tget x.wrote e.1 = some v) (a : State) :
    writeStep p x a e = if p k.toNat then writeReg a x.tid k.toNat v else a := by
  simp only [writeStep, h, hv]

theorem writeStep_other (h : ∀ w k pm, e.2 ≠ .write w k pm) (a : State) : writeStep p x a e = a := by
  unfold writeStep
  split
  next he => exact absurd he (h _ _ _)
  next => rfl

end

theorem writeRegs_plain (p : Nat → Bool) (a s : State) (hx : x.requests = []) :
    writeRegs p a s x = (blockSlots a x).foldl (writeStep p x) s := by
  unfold writeRegs
  extract_lets es put one
  congr 1
  funext b e
  unfold one
  split
  next h =>
    split
    next hv => exact (writeStep_write p h hv b).symm
    next hv => exact (writeStep_none p hv b).symm
  next h =>
    rw [writeStep_other p h]
    simp [hx]

theorem writeStep_canon {p : Nat → Bool} {e : Nat × Instr} (hs : Canonical s) : Canonical (writeStep p x s e) := by
  unfold writeStep
  split
  · split
    · exact ite_canon (writeReg_canon hs) hs
    · exact hs
  · exact hs

theorem regOf_setReg {t : Task} (ht : tsorted none t.regs = true) (r k : Nat) (v : Token) :
    regOf (setReg t r v) k = if k = r then v else regOf t k := by
  split
  next h => exact h ▸ tgetD_tputD_same _ _ _ _ ht
  next h => exact tgetD_tputD_other _ _ _ _ _ h ht

/-- One slot changes the one register of its WRITE. -/
theorem writeStep_regs (p : Nat → Bool) (e : Nat × Instr) (hs : Canonical s) {t : Task} (ht : taskAt s x.tid = some t) :
    ∃ t', taskAt (writeStep p x s e) x.tid = some t' ∧
      ∀ r, r ≠ 61 → regOf t' r = if p r then (wroteIn x r e).getD (regOf t r) else regOf t r := by
  have sorted : tsorted none t.regs = true := hs.regs _ (mem_of_tget ht)
  by_cases hw : ∃ w k pm, e.2 = .write w k pm
  · obtain ⟨w, k, pm, hw⟩ := hw
    cases hv : tget x.wrote e.1 with
    | none => exact ⟨t, by rw [writeStep_none p hv, ht], fun r _ => by simp [wroteIn_write hw, hv]⟩
    | some v =>
      cases hp : p k.toNat with
      | true =>
        have wrote : writeStep p x s e = writeReg s x.tid k.toNat v := (writeStep_write p hw hv s).trans (if_pos hp)
        refine ⟨_, (congrArg (taskAt · x.tid) wrote).trans ((taskAt_writeReg s _ _ v).trans (congrArg _ ht)), fun r hr => ?_⟩
        rw [regOf_setReg sorted, wroteIn_write hw, hv]
        by_cases h : k.toNat = r
        · subst h; simp [hp, takenVal, hr]
        · simp [h, Ne.symm h]
      | false =>
        have left : writeStep p x s e = s := (writeStep_write p hw hv s).trans (if_neg (by simp [hp]))
        refine ⟨t, by rw [left, ht], fun r _ => ?_⟩
        rw [wroteIn_write hw]
        by_cases h : k.toNat = r
        · subst h; simp [hp]
        · simp [h]
  · have other : ∀ w k pm, e.2 ≠ .write w k pm := fun w k pm h => hw ⟨w, k, pm, h⟩
    exact ⟨t, by rw [writeStep_other p other, ht], fun r _ => by simp [wroteIn_other other]⟩

theorem writeSteps_regs (p : Nat → Bool) (es : List (Nat × Instr)) :
    ∀ s t, Canonical s → taskAt s x.tid = some t → ∃ t', taskAt (es.foldl (writeStep p x) s) x.tid = some t' ∧
      ∀ r, r ≠ 61 → regOf t' r = if p r then (es.reverse.findSome? (wroteIn x r)).getD (regOf t r) else regOf t r := by
  induction es with
  | nil => exact fun s t _ ht => ⟨t, ht, fun r _ => by simp⟩
  | cons e es ih =>
    intro s t hs ht
    obtain ⟨t1, h1, r1⟩ := writeStep_regs p e hs ht
    obtain ⟨t2, h2, r2⟩ := ih _ t1 (writeStep_canon hs) h1
    refine ⟨t2, h2, fun r hr => ?_⟩
    rw [r2 r hr, r1 r hr, List.reverse_cons, List.findSome?_append]
    split
    · cases es.reverse.findSome? (wroteIn x r) <;> simp [List.findSome?_cons]
      cases wroteIn x r e <;> rfl
    · rfl

theorem regs_of_stands (h : StandsRegs tid s₀ s) {k : Nat} {t : Task} (ht : taskAt s₀ k = some t) :
    ∃ t', taskAt s k = some t' ∧ ∀ r, r ≠ 61 → regOf t' r = regOf t r := by
  have there : (taskAt s k).map Task.values = some t.values := by
    rw [taskAt, ← tget_tview, h.values, tget_tview]
    exact congrArg (Option.map Task.values) ht
  obtain ⟨t', ht', e⟩ := Option.map_eq_some_iff.mp there
  refine ⟨t', ht', fun r hr => ?_⟩
  have same := congrFun e r
  simpa only [Task.values, hr, if_false] using same

/-- The registers but g61 behind the WRITEs of a block that asks for nothing (R109). -/
theorem committed_regs (hs : Canonical s) (hx : x.requests = []) {va : Nat} (hb : x.branch = some (.goto va false)) {t : Task}
    (ht : taskAt s x.tid = some t) : ∃ t', taskAt (committed s x) x.tid = some t' ∧
      ∀ r, r ≠ 61 → regOf t' r = (lastWrite s x r).getD (regOf t r) := by
  unfold committed
  extract_lets s0 s1 s2
  have h0 : s0 = (blockSlots s x).foldl (writeStep (fun r => r = 61) x) (supersede s x.tid (regsTaken s x)) :=
    writeRegs_plain _ _ _ hx
  have h1 : s1 = s0 := by simp [s1, memEffects, slotEffects, hx, sortReqs, bySlot]
  have h2 : s2 = (blockSlots s x).foldl (writeStep (fun r => r ≠ 61) x) s0 := by
    have link (a : State) : writeLink s a x = a := by simp [writeLink, hb]
    rw [← h1]
    exact (link _).trans (writeRegs_plain _ _ _ hx)
  have canon : Canonical (supersede s x.tid (regsTaken s x)) := supersede_canon hs
  have there : taskAt (supersede s x.tid (regsTaken s x)) x.tid = some t := by
    rw [supersede_keeps (fun a => taskAt a x.tid) fun _ _ _ => rfl]
    exact ht
  obtain ⟨t0, ht0, r0⟩ := writeSteps_regs (fun r => r = 61) (blockSlots s x) _ t canon there
  rw [← h0] at ht0
  have canon0 : Canonical s0 := h0 ▸ foldl_canon (fun _ _ h => writeStep_canon h) canon
  obtain ⟨t2, ht2, r2⟩ := writeSteps_regs (fun r => r ≠ 61) (blockSlots s x) s0 t0 canon0 ht0
  rw [← h2] at ht2
  obtain ⟨t3, ht3, r3⟩ := regs_of_stands (flagTask_stands (dropRefs_stands (.refl x.tid s2) x) x.tid x.flags) ht2
  refine ⟨t3, ht3, fun r hr => ?_⟩
  rw [r3 r hr, r2 r hr, r0 r hr, lastWrite_eq]
  simp [hr]

end Sys2Proof.Machine

open Sys2Proof.Machine in
/-- Settles O33: the commit taken apart into its effects, the end of its instance and its branch, each by what it leaves. -/
theorem blocksCommit : Obligations.BlocksCommit := by
  unfold Obligations.BlocksCommit
  intro s tid iter t x hs ht hi e
  have run : exec e s = .next (blockCommit s tid iter) := rfl
  refine ⟨fun hd => ?_, fun slot f hd hf => ?_, fun hc => ?_⟩
  · simp only [run, blockCommit, ht, hi, hd, Bool.not_false, if_true]
  · simp only [run, blockCommit, ht, hi, hd, hf, Bool.not_true, Bool.false_eq_true, if_false]
  · obtain ⟨-, -, rfl, rfl, due, sound⟩ := hc
    have commits : blockCommit s x.tid x.iter = commitNow s x := by
      simp only [blockCommit, ht, hi, due, sound, Bool.not_true, Bool.false_eq_true, if_false]
    refine ⟨_, run.trans (congrArg _ commits), commitNow_gone hs x, fun htrap hx => ?_⟩
    rw [commitNow_plain ht htrap hx]
    have ended := ended_stands (s := s) hx
    have canon : Canonical (endInst (committed s x) x) := endInst_canon (committed_canon hs)
    refine ⟨fun va call hb => ?goto, fun v hb births => ?exit, fun va hb hr => ?regs⟩
    case goto =>
      obtain ⟨stands, next⟩ := commitBranch_goto hb (endInst (committed s x) x)
      refine ⟨(settleWaits_net _ _ _).symm ▸ next, ?_⟩
      obtain ⟨t', ht', -⟩ := taskAt_of_stands ((ended.trans stands.toStands).trans (settleWaits_stands (.refl x.tid _) _ _).toStands) ht
      exact ⟨t', ht'⟩
    case exit =>
      have noBirth : ∀ f ∈ s.wk.births.map Birth.f, f.tid ≠ x.tid := fun f hf => by
        obtain ⟨b, hb, rfl⟩ := List.mem_map.mp hf
        exact births b hb
      obtain ⟨t', ht', fixed⟩ := taskAt_of_stands ended ht
      obtain ⟨gone, sent⟩ := commitBranch_exit hb canon ht' fixed fun f hf => noBirth f (ended.births f hf)
      rw [ended.futs noBirth] at sent
      exact ⟨taskAt_none_of_stands (settleWaits_stands (.refl x.tid _) _ _).toStands gone, (settleWaits_net _ _ _).symm ▸ sent⟩
    case regs =>
      obtain ⟨t1, ht1, r1⟩ := committed_regs hs hr hb ht
      have later := settleWaits_stands ((endInst_stands (.refl x.tid (committed s x)) rfl).trans
        (commitBranch_goto hb (endInst (committed s x) x)).1) x.tid x.iter
      obtain ⟨t2, ht2, r2⟩ := regs_of_stands later ht1
      exact ⟨t2, ht2, fun r h => (r2 r h).trans (r1 r h)⟩

namespace Sys2Proof.Machine

variable {s : State} {f : Firing} {i : Instr}

/-! ### A value word that meets POISON, NULL or another P than it asks for (R65, R66, R90, R104) -/

/-- A value word with a result of its own reads its operands, and P where it is predicated. -/
theorem ports_of_valueOf (hv : (valueOf s f i).isSome) :
    Instr.ports i = if Instr.predicate i = .always then Instr.dataPorts i else Instr.dataPorts i ++ [.p] := by
  cases i with
  | sel => cases hv
  | _ => rfl

/-- The tokens that the value rule looks at are those of the ports that the word reads. -/
theorem valueTokens_eq (hv : (valueOf s f i).isSome) :
    (Instr.dataPorts i).map (portD s f) ++ (predTokOf s f (Instr.predicate i)).toList = (Instr.ports i).map (portD s f) := by
  rw [ports_of_valueOf hv]
  cases Instr.predicate i <;> simp [predTokOf]

theorem valueRule_poison {pm : Pm} {p : Option Token} {data : List Token} (v : VOut)
    (h : anyTag .poison (data ++ p.toList) = true) : valueRule pm p data v = .both poisonTok := by
  simp [valueRule, h]

theorem valueRule_null {pm : Pm} {p : Option Token} {data : List Token} (v : VOut)
    (hp : anyTag .poison (data ++ p.toList) = false) (h : anyTag .null (data ++ p.toList) = true) :
    valueRule pm p data v = .both nullTok := by
  simp [valueRule, hp, h]

/-- Where no port carries POISON or NULL, P's match decides. -/
theorem valueRule_mismatch {pm : Pm} {p : Option Token} {data : List Token} (v : VOut)
    (h : ∀ g, g = .poison ∨ g = .null → anyTag g (data ++ p.toList) = false) (hm : predMatch pm p = some false) :
    valueRule pm p data v = .both nullTok := by
  simp [valueRule, h .poison (.inl rfl), h .null (.inr rfl), hm]

theorem valueRule_wrongPred {pm : Pm} {p : Option Token} {data : List Token} (v : VOut)
    (h : ∀ g, g = .poison ∨ g = .null → anyTag g (data ++ p.toList) = false) (hm : predMatch pm p = none) :
    valueRule pm p data v = .format := by
  simp [valueRule, h .poison (.inl rfl), h .null (.inr rfl), hm]

/-- The tokens of a value word with clean operands carry no POISON and no NULL where P carries none. -/
theorem valueTokens_of_clean (hv : (valueOf s f i).isSome) (hc : Clean s f i) {g : Tag} (hg : g = .poison ∨ g = .null)
    (hp : anyTag g (predTokOf s f (Instr.predicate i)).toList = false) :
    anyTag g ((Instr.dataPorts i).map (portD s f) ++ (predTokOf s f (Instr.predicate i)).toList) = false := by
  obtain ⟨v, hv⟩ := Option.isSome_iff_exists.mp hv
  have carries : carriesPoison i = [] := carriesPoison_of_valueOf hv
  rw [anyTag_append, hp, Bool.or_false]
  simp only [anyTag, List.any_map, List.any_eq_false, Function.comp, decide_eq_true_eq]
  intro q hq hqg
  obtain ⟨notNull, ofPoison⟩ := hc q hq
  rcases hg with rfl | rfl
  · simpa [carries] using ofPoison hqg
  · exact notNull hqg

/-- A value word on its lane ends as the value rule over its tokens says. -/
theorem exec_of_valueRule {w : VOut} (hl : OnLane s f i) (hv : (valueOf s f i).isSome)
    (h : ∀ v, valueRule (Instr.predicate i) (predTokOf s f (Instr.predicate i)) ((Instr.dataPorts i).map (portD s f)) v = w) :
    exec i s = .next (finishValue (popLane s) f i w) := by
  obtain ⟨v, hv⟩ := Option.isSome_iff_exists.mp hv
  rw [exec_of_valueOf hl hv, valueEnd, h]

theorem exec_value_poison (hl : OnLane s f i) (hv : (valueOf s f i).isSome) (h : MeetsPoison s f i) :
    exec i s = .next (sent s f i poisonTok poisonTok 0) := by
  refine exec_of_valueRule hl hv fun v => valueRule_poison v ?_
  rw [valueTokens_eq hv]
  exact (anyTag_ports _).mpr h

theorem exec_value_null (hl : OnLane s f i) (hv : (valueOf s f i).isSome) (h : MeetsNull s f i) :
    exec i s = .next (sent s f i nullTok nullTok 0) := by
  obtain ⟨noPoison, null⟩ := h
  refine exec_of_valueRule hl hv fun v => valueRule_null v ?_ ?_
  · rw [valueTokens_eq hv, Bool.eq_false_iff]
    exact fun hp => noPoison ((anyTag_ports _).mp hp)
  · rw [valueTokens_eq hv]
    exact (anyTag_ports _).mpr null

theorem exec_value_mismatch (hl : OnLane s f i) (hv : (valueOf s f i).isSome) (hc : Clean s f i) (h : Mismatches s f i) :
    exec i s = .next (sent s f i nullTok nullTok 0) := by
  refine exec_of_valueRule (w := .both nullTok) hl hv fun v => valueRule_mismatch v (fun g hg => ?_) (predMatch_of_mismatches h)
  refine valueTokens_of_clean hv hc hg (predTag_of_mismatches h g ?_)
  rcases hg with rfl | rfl <;> nofun

/-- P with another tag than PRED, NULL and POISON is none that a predicated word may meet. -/
theorem exec_value_wrongPred (hl : OnLane s f i) (hv : (valueOf s f i).isSome) (hc : Clean s f i)
    (ha : Instr.predicate i ≠ .always) (hpred : (portD s f .p).tag ≠ .pred) (hnull : (portD s f .p).tag ≠ .null)
    (hpoison : (portD s f .p).tag ≠ .poison) : exec i s = .next (raiseAt (popLane s) f ⟨.format, 0⟩) := by
  have read : predTokOf s f (Instr.predicate i) = some (portD s f .p) := by
    cases hi : Instr.predicate i with
    | always => exact absurd hi ha
    | onTrue | onFalse => rfl
  have unmatched : predMatch (Instr.predicate i) (some (portD s f .p)) = none := by
    cases hi : Instr.predicate i with
    | always => exact absurd hi ha
    | onTrue | onFalse => exact if_neg hpred
  refine exec_of_valueRule (w := .format) hl hv fun v => valueRule_wrongPred v (fun g hg => ?_) (read ▸ unmatched)
  refine valueTokens_of_clean hv hc hg ?_
  rw [read]
  rcases hg with rfl | rfl <;> simp [anyTag, hnull, hpoison]

end Sys2Proof.Machine

open Sys2Proof.Machine in
/-- Settles O9: POISON, NULL, P's tag and its match are looked at in this order before the word's own tags. -/
theorem valueWordAbsorbsOrFaults : Obligations.ValueWordAbsorbsOrFaults := by
  refine ⟨fun s f i hl hv => ⟨exec_value_poison hl hv, exec_value_null hl hv, exec_value_mismatch hl hv,
    exec_value_wrongPred hl hv⟩, fun s f i h hv => ?_⟩
  rw [exec_of_valueOf h.lane hv, valueEnd_go h (carriesPoison_of_valueOf hv)]
  rfl


namespace Sys2Proof.Machine

/-! ### Codes of the Float tags (R69, R71)

A code is a sign above a magnitude. The magnitude alone decides whether the value is a number, an infinity or a NaN, and its
exponent and fraction are its quotient and remainder by the fraction's weight. -/

/-- The format of a Float tag, field by field. -/
structure FloatTag (t : Tag) (f : FloatFmt) : Prop where
  fmt : fmtOfTag t = some f
  fields : floatBits t = (f.ebits, f.fbits)
  width : tagBits t = f.signPos + 1
  fbits_pos : 0 < f.fbits
  ebits_pos : 2 ≤ f.ebits
  maxFin : f.maxFin + 1 = (2 ^ f.ebits - 1) * 2 ^ f.fbits
  hasInf : f.hasInf = true
  nan : f.nan = some ((2 ^ f.ebits - 1) * 2 ^ f.fbits + 2 ^ (f.fbits - 1))
  canon : canonNan t = (2 ^ f.ebits - 1) * 2 ^ f.fbits + 2 ^ (f.fbits - 1)
  range : 2 ^ f.ebits + f.fbits ≤ 4096

theorem floatTag_of_tagFloat {t : Tag} (h : tagFloat t = true) : ∃ f, FloatTag t f := by
  cases t with
  | fp64 => exact ⟨ieeeFmt 11 52 1023, by constructor <;> decide⟩
  | fp32 => exact ⟨ieeeFmt 8 23 127, by constructor <;> decide⟩
  | fp16 => exact ⟨ieeeFmt 5 10 15, by constructor <;> decide⟩
  | bf16 => exact ⟨ieeeFmt 8 7 127, by constructor <;> decide⟩
  | _ => cases h

/-- The significand and the exponent of a finite magnitude code. -/
def magSig (f : FloatFmt) (mag : Nat) : Nat :=
  if mag / 2 ^ f.fbits = 0 then mag % 2 ^ f.fbits else 2 ^ f.fbits + mag % 2 ^ f.fbits
def magExp (f : FloatFmt) (mag : Nat) : Int := (max 1 (mag / 2 ^ f.fbits) : Nat) - (f.bias : Int) - (f.fbits : Int)

/-- The value of a sign and a magnitude code. -/
def magFVal (f : FloatFmt) (neg : Bool) (mag : Nat) : FVal :=
  if mag ≤ f.maxFin then .fin neg (magSig f mag) (magExp f mag)
  else if mag % 2 ^ f.fbits = 0 then .inf neg
  else .nan (decide (mag % 2 ^ f.fbits < 2 ^ (f.fbits - 1)))

/-- The kind of a value. -/
def FVal.kind : FVal → FKind
  | .nan s => .nan s
  | .inf n => .inf n
  | .fin n m _ => if m = 0 then .zero n else .num n

/-- The special value of a kind. -/
def FKind.special : FKind → Option Special
  | .nan _ => some .nan
  | .inf n => some (.inf n)
  | .zero n => some (.zero n)
  | .num _ => none

section
variable {t : Tag} {f : FloatFmt} {l r : Token}

theorem FloatTag.tagFloat (h : FloatTag t f) : tagFloat t = true := by
  have fields := h.fields
  have pos := h.fbits_pos
  cases t with
  | fp64 | fp32 | fp16 | bf16 => rfl
  | _ => simp [floatBits] at fields; omega

theorem FloatTag.not_isInt (h : FloatTag t f) : t.isInt = false := by
  have ht := h.tagFloat
  cases t with
  | fp64 | fp32 | fp16 | bf16 => rfl
  | _ => cases ht

theorem tokFVal_eq_unpackFmt (h : FloatTag l.tag f) : tokFVal l = unpackFmt f (tokBits l) := by
  obtain ⟨tag, v⟩ := l
  have fmt := h.fmt
  have ht := h.tagFloat
  cases tag with
  | fp64 | fp32 | fp16 | bf16 =>
    cases fmt
    rfl
  | _ => cases ht

theorem floatMag_eq (h : FloatTag l.tag f) : floatMag l = tokBits l % 2 ^ f.signPos := by
  simp only [floatMag, floatExp, floatFrac, h.fields, FloatFmt.signPos]
  rw [Nat.add_comm f.ebits, Nat.pow_add, Nat.mod_mul]
  ring

theorem floatSigned_eq (h : FloatTag l.tag f) : floatSigned l = decide (tokBits l / 2 ^ f.signPos % 2 = 1) := by
  rw [floatSigned, h.fields]
  rfl

theorem floatExp_eq (h : FloatTag l.tag f) : floatExp l = floatMag l / 2 ^ f.fbits := by
  have := Nat.mod_lt (tokBits l) (Nat.two_pow_pos f.fbits)
  simp only [floatMag, floatFrac, h.fields]
  rw [Nat.mul_comm, Nat.mul_add_div (Nat.two_pow_pos _), Nat.div_eq_of_lt this, Nat.add_zero]

theorem floatFrac_eq (h : FloatTag l.tag f) : floatFrac l = floatMag l % 2 ^ f.fbits := by
  simp only [floatMag, floatFrac, h.fields]
  rw [Nat.mul_comm, Nat.mul_add_mod, Nat.mod_mod]

theorem floatMag_lt (h : FloatTag l.tag f) : floatMag l < 2 ^ f.signPos := by
  rw [floatMag_eq h]
  exact Nat.mod_lt _ (Nat.two_pow_pos _)

/-- A float token's value, from its sign and magnitude. -/
theorem tokFVal_eq (h : FloatTag l.tag f) : tokFVal l = magFVal f (floatSigned l) (floatMag l) := by
  rw [tokFVal_eq_unpackFmt h, floatMag_eq h, floatSigned_eq h]
  simp only [unpackFmt, magFVal, h.hasInf, true_and]
  split
  · unfold magSig magExp
    split
    · next e => simp [e]
    · next e => simp [Nat.max_eq_right (Nat.pos_of_ne_zero e)]
  · rfl

theorem magSig_eq_zero {mag : Nat} : magSig f mag = 0 ↔ mag = 0 := by
  have pos := Nat.two_pow_pos f.fbits
  have parts := Nat.div_add_mod mag (2 ^ f.fbits)
  unfold magSig
  split
  · next e =>
    rw [e] at parts
    omega
  · next e => exact ⟨fun h => absurd h (by omega), fun h => absurd (by simp [h]) e⟩

/-- The exponent of a magnitude code is all ones exactly above the finite codes. -/
theorem exp_eq_top_iff (h : FloatTag t f) {mag : Nat} (hm : mag < 2 ^ f.signPos) :
    mag / 2 ^ f.fbits = 2 ^ f.ebits - 1 ↔ ¬ mag ≤ f.maxFin := by
  have pos := Nat.two_pow_pos f.ebits
  have upper : mag / 2 ^ f.fbits < 2 ^ f.ebits :=
    Nat.div_lt_of_lt_mul (by rwa [← Nat.pow_add, Nat.add_comm])
  have lower : 2 ^ f.ebits - 1 ≤ mag / 2 ^ f.fbits ↔ f.maxFin + 1 ≤ mag := by
    rw [h.maxFin, Nat.le_div_iff_mul_le (Nat.two_pow_pos _)]
  omega

/-- The kind by the fields is the kind of the value. -/
theorem kindOf_eq (h : FloatTag l.tag f) : kindOf l = (tokFVal l).kind := by
  have top := exp_eq_top_iff h (floatMag_lt h)
  rw [tokFVal_eq h]
  simp only [kindOf, h.fields, floatExp_eq h, floatFrac_eq h, top, magFVal]
  split
  · split <;> rfl
  · next e =>
    rw [if_pos (not_not.mp e)]
    simp only [FVal.kind, magSig_eq_zero]

theorem specialOf_eq (v : FVal) : specialOf v = v.kind.special := by
  cases v with
  | fin n m e => by_cases h : m = 0 <;> simp [specialOf, FVal.kind, FKind.special, h]
  | _ => rfl

/-! ### Tokens made from a sign and a magnitude (R69, R70) -/

theorem tokBits_packTok (h : FloatTag t f) (neg : Bool) {mag : Nat} (hm : mag < 2 ^ f.signPos) :
    tokBits (packTok t f neg mag) = (if neg then 2 ^ f.signPos else 0) + mag := by
  rw [packTok, tokBits_mkTok, h.width, Nat.mod_eq_of_lt]
  rw [Nat.pow_succ]
  split <;> omega

theorem floatMag_packTok (h : FloatTag t f) (neg : Bool) {mag : Nat} (hm : mag < 2 ^ f.signPos) :
    floatMag (packTok t f neg mag) = mag := by
  rw [floatMag_eq (l := packTok t f neg mag) h, tokBits_packTok h neg hm]
  cases neg
  · simpa using Nat.mod_eq_of_lt hm
  · simpa using Nat.mod_eq_of_lt hm

theorem floatSigned_packTok (h : FloatTag t f) (neg : Bool) {mag : Nat} (hm : mag < 2 ^ f.signPos) :
    floatSigned (packTok t f neg mag) = neg := by
  rw [floatSigned_eq (l := packTok t f neg mag) h, tokBits_packTok h neg hm]
  cases neg
  · simp [Nat.div_eq_of_lt hm]
  · rw [if_pos rfl, Nat.add_div_left _ (Nat.two_pow_pos _), Nat.div_eq_of_lt hm]
    rfl

theorem tokFVal_packTok (h : FloatTag t f) (neg : Bool) {mag : Nat} (hm : mag < 2 ^ f.signPos) :
    tokFVal (packTok t f neg mag) = magFVal f neg mag := by
  rw [tokFVal_eq (l := packTok t f neg mag) h, floatSigned_packTok h neg hm, floatMag_packTok h neg hm]

theorem infMag_lt (h : FloatTag t f) : f.maxFin + 1 + 2 ^ (f.fbits - 1) < 2 ^ f.signPos := by
  have half : 2 ^ (f.fbits - 1) < 2 ^ f.fbits := Nat.pow_lt_pow_right (by decide) (Nat.sub_lt h.fbits_pos (by decide))
  have whole : (2 ^ f.ebits - 1) * 2 ^ f.fbits + 2 ^ f.fbits = 2 ^ f.signPos := by
    rw [FloatFmt.signPos, Nat.pow_add, ← Nat.succ_mul, Nat.succ_eq_add_one, Nat.sub_add_cancel (Nat.one_le_two_pow)]
  rw [h.maxFin]
  omega

theorem nanTok_eq (h : FloatTag t f) : nanTok t f = packTok t f false (f.maxFin + 1 + 2 ^ (f.fbits - 1)) := by
  simp [nanTok, packTok, h.nan, h.maxFin]

/-- A result of this kind with these flags; a quiet NaN is the canonical one. -/
structure GivesKind (t : Tag) (p : Token × FlagSet) (k : FKind) (fl : FlagSet) : Prop where
  tag : p.1.tag = t
  flags : p.2 = fl
  kind : kindOf p.1 = k
  canon : k = .nan false → tokBits p.1 = canonNan t

theorem givesKind_zero (h : FloatTag t f) (neg : Bool) (fl : FlagSet) : GivesKind t (packTok t f neg 0, fl) (.zero neg) fl := by
  refine ⟨rfl, rfl, ?_, nofun⟩
  rw [kindOf_eq (l := packTok t f neg 0) h, tokFVal_packTok h neg (Nat.two_pow_pos _)]
  simp [magFVal, FVal.kind, magSig]

theorem givesKind_inf (h : FloatTag t f) (neg : Bool) (fl : FlagSet) : GivesKind t (infTok t f neg, fl) (.inf neg) fl := by
  have small : f.maxFin + 1 < 2 ^ f.signPos := Nat.lt_of_le_of_lt (Nat.le_add_right _ _) (infMag_lt h)
  refine ⟨rfl, rfl, ?_, nofun⟩
  rw [infTok, kindOf_eq (l := packTok t f neg (f.maxFin + 1)) h, tokFVal_packTok h neg small, magFVal,
    if_neg (Nat.not_succ_le_self _), h.maxFin, Nat.mul_mod_left, if_pos rfl]
  rfl

theorem givesKind_nan (h : FloatTag t f) (fl : FlagSet) : GivesKind t (nanTok t f, fl) (.nan false) fl := by
  have small := infMag_lt h
  have half : 2 ^ (f.fbits - 1) < 2 ^ f.fbits := Nat.pow_lt_pow_right (by decide) (Nat.sub_lt h.fbits_pos (by decide))
  have frac : (f.maxFin + 1 + 2 ^ (f.fbits - 1)) % 2 ^ f.fbits = 2 ^ (f.fbits - 1) := by
    rw [h.maxFin, Nat.mul_add_mod_self_right, Nat.mod_eq_of_lt half]
  have pos := Nat.two_pow_pos (f.fbits - 1)
  refine ⟨rfl, rfl, ?_, fun _ => ?_⟩
  · rw [nanTok_eq h, kindOf_eq (l := packTok t f false _) h, tokFVal_packTok h _ small, magFVal, if_neg (by omega), frac,
      if_neg (by omega)]
    simp [FVal.kind]
  · rw [nanTok_eq h, tokBits_packTok h _ small, h.canon, h.maxFin]
    exact Nat.zero_add _

/-- An infinity or a zero that is handed on. -/
theorem givesKind_self (h : FloatTag l.tag f) {k : FKind} (hk : (tokFVal l).kind = k) (hn : k.isNan = false) (fl : FlagSet) :
    GivesKind l.tag (l, fl) k fl :=
  ⟨rfl, rfl, (kindOf_eq h).trans hk, fun e => by rw [e] at hn; cases hn⟩

end

end Sys2Proof.Machine

namespace Sys2Proof.Machine

/-! ### Arithmetic where the operands' kinds decide the result (R69, R126, R127) -/

@[simp] theorem FVal.isSnan_kind (v : FVal) : v.kind.isSnan = v.isSnan := by
  cases v with
  | fin n m e => by_cases h : m = 0 <;> simp [FVal.kind, FVal.isSnan, FKind.isSnan, h]
  | _ => rfl

@[simp] theorem FVal.isNan_kind (v : FVal) : v.kind.isNan = v.isNan := by
  cases v with
  | fin n m e => by_cases h : m = 0 <;> simp [FVal.kind, FVal.isNan, FKind.isNan, h]
  | _ => rfl

@[simp] theorem FVal.kind_negate (v : FVal) : v.negate.kind = v.kind.flip := by
  cases v with
  | fin n m e => by_cases h : m = 0 <;> simp [FVal.kind, FVal.negate, FKind.flip, h]
  | _ => rfl

@[simp] theorem FKind.isSnan_nan (s : Bool) : (FKind.nan s).isSnan = s := rfl

theorem FVal.kind_fin_zero (n : Bool) (e : Int) : (FVal.fin n 0 e).kind = .zero n := rfl
theorem FVal.kind_fin {m : Nat} (n : Bool) (e : Int) (h : m ≠ 0) : (FVal.fin n m e).kind = .num n := if_neg h

/-- A value is a NaN, an infinity, a zero or a number other than zero. -/
theorem FVal.kindCases {motive : FVal → Prop} (nan : ∀ s, motive (.nan s)) (inf : ∀ n, motive (.inf n))
    (zero : ∀ n e, motive (.fin n 0 e)) (num : ∀ n m e, m ≠ 0 → motive (.fin n m e)) (v : FVal) : motive v := by
  cases v with
  | nan s => exact nan s
  | inf n => exact inf n
  | fin n m e =>
    by_cases h : m = 0
    · exact h ▸ zero n e
    · exact num n m e h

section
variable {t : Tag} {f : FloatFmt} {k : FKind} {fl : FlagSet}

/-- A NaN operand: the canonical NaN, with INVALID where one signals. -/
theorem givesKind_nanOf (h : FloatTag t f) {ks : List FKind} {s : Bool} (hs : ks.any FKind.isSnan = s)
    (hk : some (nanOf ks) = some (k, fl)) : GivesKind t (quietNan t f s) k fl := by
  simp only [nanOf, hs, Option.some.injEq, Prod.mk.injEq] at hk
  obtain ⟨rfl, rfl⟩ := hk
  exact givesKind_nan h _

theorem givesKind_invalid (h : FloatTag t f) (hk : some (FKind.nan false, fInvalid) = some (k, fl)) :
    GivesKind t (invalidNan t f) k fl := by
  cases hk
  exact givesKind_nan h _

theorem givesKind_infTok (h : FloatTag t f) {n : Bool} {fl' : FlagSet} (hk : some (FKind.inf n, fl') = some (k, fl)) :
    GivesKind t (infTok t f n, fl') k fl := by
  cases hk
  exact givesKind_inf h _ _

theorem givesKind_zeroTok (h : FloatTag t f) {n : Bool} {fl' : FlagSet} (hk : some (FKind.zero n, fl') = some (k, fl)) :
    GivesKind t (packTok t f n 0, fl') k fl := by
  cases hk
  exact givesKind_zero h _ _

theorem addDyadic_zero (n1 n2 : Bool) (e1 e2 : Int) : addDyadic n1 0 e1 n2 0 e2 = none := by
  simp [addDyadic]

theorem floatAddV_kind (h : FloatTag t f) (sat : Bool) (a b : FVal) (hk : sumKind a.kind b.kind = some (k, fl)) :
    GivesKind t (floatAddV t f sat a b) k fl := by
  cases a using FVal.kindCases with
  | nan s => exact givesKind_nanOf h (ks := [.nan s, b.kind]) (by simp) hk
  | inf x =>
    cases b using FVal.kindCases with
    | nan s => exact givesKind_nanOf h (ks := [.inf x, .nan s]) (Bool.or_false s) hk
    | inf y =>
      simp only [FVal.kind, sumKind] at hk
      simp only [floatAddV]
      split at hk
      · next e => exact if_pos e ▸ givesKind_infTok h hk
      · next e => exact if_neg e ▸ givesKind_invalid h hk
    | zero n e => exact givesKind_infTok h hk
    | num n m e hm =>
      rw [FVal.kind_fin n e hm] at hk
      exact givesKind_infTok h hk
  | zero n e =>
    cases b using FVal.kindCases with
    | nan s => exact givesKind_nanOf h (ks := [.zero n, .nan s]) (Bool.or_false s) hk
    | inf y => exact givesKind_infTok h hk
    | zero n' e' =>
      simp only [floatAddV, addDyadic_zero, decide_true, Bool.and_true]
      exact givesKind_zeroTok h hk
    | num n' m' e' hm' =>
      rw [FVal.kind_fin n' e' hm'] at hk
      cases hk
  | num n m e hm =>
    rw [FVal.kind_fin n e hm] at hk
    cases b using FVal.kindCases with
    | nan s => exact givesKind_nanOf h (ks := [.num n, .nan s]) (Bool.or_false s) hk
    | inf y => exact givesKind_infTok h hk
    | zero n' e' => cases hk
    | num n' m' e' hm' =>
      rw [FVal.kind_fin n' e' hm'] at hk
      cases hk

theorem floatMulV_kind (h : FloatTag t f) (sat : Bool) (a b : FVal) (hk : productKind a.kind b.kind = some (k, fl)) :
    GivesKind t (floatMulV t f sat a b) k fl := by
  cases a using FVal.kindCases with
  | nan s => exact givesKind_nanOf h (ks := [.nan s, b.kind]) (by simp) hk
  | inf x =>
    cases b using FVal.kindCases with
    | nan s => exact givesKind_nanOf h (ks := [.inf x, .nan s]) (Bool.or_false s) hk
    | inf y => exact givesKind_infTok h hk
    | zero n e => exact givesKind_invalid h hk
    | num n m e hm =>
      rw [FVal.kind_fin n e hm] at hk
      simp only [floatMulV, if_neg hm]
      exact givesKind_infTok h hk
  | zero n e =>
    cases b using FVal.kindCases with
    | nan s => exact givesKind_nanOf h (ks := [.zero n, .nan s]) (Bool.or_false s) hk
    | inf y => exact givesKind_invalid h hk
    | zero n' e' => exact givesKind_zeroTok h hk
    | num n' m' e' hm' =>
      rw [FVal.kind_fin n' e' hm'] at hk
      simp only [floatMulV, if_pos (Nat.zero_mul m')]
      exact givesKind_zeroTok h hk
  | num n m e hm =>
    rw [FVal.kind_fin n e hm] at hk
    cases b using FVal.kindCases with
    | nan s => exact givesKind_nanOf h (ks := [.num n, .nan s]) (Bool.or_false s) hk
    | inf y =>
      simp only [floatMulV, if_neg hm]
      exact givesKind_infTok h hk
    | zero n' e' => exact givesKind_zeroTok h hk
    | num n' m' e' hm' =>
      rw [FVal.kind_fin n' e' hm'] at hk
      cases hk

theorem floatDivV_kind {g : GF} {c : FKind} (h : FloatTag t f) (a b : FVal)
    (hk : kindResult (.div g) a.kind b.kind c = some (k, fl)) : GivesKind t (floatDivV t f a b) k fl := by
  cases a using FVal.kindCases with
  | nan s => exact givesKind_nanOf h (ks := [.nan s, b.kind]) (by simp) hk
  | inf x =>
    cases b using FVal.kindCases with
    | nan s => exact givesKind_nanOf h (ks := [.inf x, .nan s]) (Bool.or_false s) hk
    | inf y => exact givesKind_invalid h hk
    | zero n e => exact givesKind_infTok h hk
    | num n m e hm =>
      rw [FVal.kind_fin n e hm] at hk
      exact givesKind_infTok h hk
  | zero n e =>
    cases b using FVal.kindCases with
    | nan s => exact givesKind_nanOf h (ks := [.zero n, .nan s]) (Bool.or_false s) hk
    | inf y => exact givesKind_zeroTok h hk
    | zero n' e' => exact givesKind_invalid h hk
    | num n' m' e' hm' =>
      rw [FVal.kind_fin n' e' hm'] at hk
      simp only [floatDivV, if_neg hm', if_true]
      exact givesKind_zeroTok h hk
  | num n m e hm =>
    rw [FVal.kind_fin n e hm] at hk
    cases b using FVal.kindCases with
    | nan s => exact givesKind_nanOf h (ks := [.num n, .nan s]) (Bool.or_false s) hk
    | inf y => exact givesKind_zeroTok h hk
    | zero n' e' =>
      simp only [floatDivV, if_neg hm, if_true]
      exact givesKind_infTok h hk
    | num n' m' e' hm' =>
      rw [FVal.kind_fin n' e' hm'] at hk
      cases hk

end

end Sys2Proof.Machine

namespace Sys2Proof.Machine

/-! ### FMA (R126): 0 × ∞ first, then the NaNs, then the sum with the product -/

/-- One factor is an infinity and the other a zero. -/
def zeroTimesInf : FKind → FKind → Bool
  | .inf _, .zero _ | .zero _, .inf _ => true
  | _, _ => false

/-- The exact product of two values that are no NaN. -/
def FVal.times : FVal → FVal → FVal
  | .inf x, .inf y => .inf (x != y)
  | .inf x, .fin n _ _ => .inf (x != n)
  | .fin n _ _, .inf y => .inf (n != y)
  | .fin n1 m1 e1, .fin n2 m2 e2 => .fin (n1 != n2) (m1 * m2) (e1 + e2)
  | x, _ => x

/-- The kind of the exact product of two values that are no NaN, and of which none is 0 where the other is ∞. -/
def FKind.times : FKind → FKind → FKind
  | .inf x, .inf y | .inf x, .num y | .num x, .inf y => .inf (x != y)
  | .zero x, .zero y | .zero x, .num y | .num x, .zero y => .zero (x != y)
  | .num x, .num y => .num (x != y)
  | _, _ => .nan false

section
variable {t : Tag} {f : FloatFmt} {k : FKind} {fl : FlagSet}

theorem floatFmaV_eq (t : Tag) (f : FloatFmt) (a b c : FVal) : floatFmaV t f a b c =
    if zeroTimesInf a.kind b.kind then invalidNan t f
    else if a.isNan || b.isNan || c.isNan then quietNan t f (a.isSnan || b.isSnan || c.isSnan)
    else floatAddV t f false (a.times b) c := by
  cases a using FVal.kindCases with
  | nan | inf | zero =>
    cases b using FVal.kindCases with
    | nan | inf | zero => rfl
    | num n m e hm => simp [floatFmaV, FVal.kind, zeroTimesInf, hm, FVal.times]
  | num n m e hm =>
    cases b using FVal.kindCases with
    | nan | inf | zero => simp [floatFmaV, FVal.kind, zeroTimesInf, hm, FVal.times]
    | num n' m' e' hm' => simp [floatFmaV, FVal.kind, zeroTimesInf, hm, hm', FVal.times]

theorem FVal.kind_times {a b : FVal} (hz : zeroTimesInf a.kind b.kind = false) (ha : a.isNan = false) (hb : b.isNan = false) :
    (a.times b).kind = a.kind.times b.kind := by
  cases a using FVal.kindCases with
  | nan => cases ha
  | inf x =>
    cases b using FVal.kindCases with
    | nan => cases hb
    | zero => cases hz
    | inf y => rfl
    | num n m e hm => rw [FVal.kind_fin n e hm]; rfl
  | zero n e =>
    cases b using FVal.kindCases with
    | nan => cases hb
    | inf => cases hz
    | zero => rfl
    | num n' m e' hm => rw [FVal.kind_fin n' e' hm, FVal.times, Nat.zero_mul]; rfl
  | num n m e hm =>
    rw [FVal.kind_fin n e hm]
    cases b using FVal.kindCases with
    | nan => cases hb
    | inf | zero => rfl
    | num n' m' e' hm' => rw [FVal.kind_fin n' e' hm', FVal.times, FVal.kind_fin _ _ (Nat.mul_ne_zero hm hm')]; rfl

/-- Where no operand is a NaN and the product is valid, the kinds of the product and of X decide. -/
theorem kindResult_fma_sum {g : GF} {a b c : FKind} (hz : zeroTimesInf a b = false)
    (hn : (a.isNan || b.isNan || c.isNan) = false) : kindResult (.fma g) a b c = sumKind (a.times b) c := by
  have no := Bool.eq_false_iff.mp hn
  cases a with
  | nan => cases hn
  | inf x =>
    cases b with
    | nan => cases hn
    | zero => cases hz
    | inf | num => exact if_neg no
  | zero x =>
    cases b with
    | nan => cases hn
    | inf => cases hz
    | zero | num => exact if_neg no
  | num x =>
    cases b with
    | nan => cases hn
    | inf | zero => exact if_neg no
    | num y =>
      cases c with
      | nan => cases hn
      | inf | zero | num => rfl

theorem kindResult_fma_nan {g : GF} {a b c : FKind} (hz : zeroTimesInf a b = false)
    (hn : (a.isNan || b.isNan || c.isNan) = true) : kindResult (.fma g) a b c = some (nanOf [a, b, c]) := by
  cases a with
  | nan => rfl
  | inf x =>
    cases b with
    | zero => cases hz
    | nan => rfl
    | inf | num => exact if_pos hn
  | zero x =>
    cases b with
    | inf => cases hz
    | nan => rfl
    | zero | num => exact if_pos hn
  | num x => exact if_pos hn

theorem kindResult_fma_invalid {g : GF} {a b : FKind} (c : FKind) (hz : zeroTimesInf a b = true) :
    kindResult (.fma g) a b c = some (.nan false, fInvalid) := by
  cases a with
  | nan | num => cases hz
  | inf =>
    cases b with
    | zero => rfl
    | nan | inf | num => cases hz
  | zero =>
    cases b with
    | inf => rfl
    | nan | zero | num => cases hz

theorem floatFmaV_kind {g : GF} (h : FloatTag t f) (a b c : FVal)
    (hk : kindResult (.fma g) a.kind b.kind c.kind = some (k, fl)) : GivesKind t (floatFmaV t f a b c) k fl := by
  rw [floatFmaV_eq]
  split
  · next hz =>
    rw [kindResult_fma_invalid _ hz] at hk
    exact givesKind_invalid h hk
  next hz =>
  rw [Bool.not_eq_true] at hz
  split
  · next hn =>
    rw [kindResult_fma_nan hz (by simpa using hn)] at hk
    exact givesKind_nanOf h (by simp [Bool.or_assoc]) hk
  · next hn =>
    rw [Bool.not_eq_true] at hn
    have ⟨hab, _⟩ := Bool.or_eq_false_iff.mp hn
    have ⟨ha, hb⟩ := Bool.or_eq_false_iff.mp hab
    rw [kindResult_fma_sum hz (by simpa using hn), ← FVal.kind_times hz ha hb] at hk
    exact floatAddV_kind h _ _ _ hk

/-! ### MIN, MAX, ABS, NEG and LDEXP on NaNs, infinities and zeros (R126, R127) -/

variable {l r : Token}

theorem floatMinMax_nan (h : FloatTag l.tag f) (hr : r.tag = l.tag) (mx : Bool)
    (hk : (if (kindOf l).isNan || (kindOf r).isNan then some (nanOf [kindOf l, kindOf r]) else none) = some (k, fl)) :
    GivesKind l.tag (floatMinMax l.tag f mx l r) k fl := by
  rw [kindOf_eq h, kindOf_eq (l := r) (hr ▸ h)] at hk
  simp only [FVal.isNan_kind] at hk
  split at hk
  · next hn =>
    simp only [floatMinMax, hn, if_true]
    exact givesKind_nanOf h (by simp) hk
  · cases hk

/-- The sign of a number, an infinity or a zero changes alone. -/
theorem floatSign_eq (h : FloatTag l.tag f) (neg : Bool) (hn : (kindOf l).isNan = false) :
    floatSign l.tag f neg l = (packTok l.tag f (if neg then !floatSigned l else false) (floatMag l), 0) := by
  rw [kindOf_eq h, FVal.isNan_kind] at hn
  rw [floatSigned_eq h, floatMag_eq h]
  unfold floatSign
  split
  · next e => rw [e] at hn; cases hn
  · rfl

theorem floatMag_of_inf (h : FloatTag l.tag f) {n : Bool} (hl : kindOf l = .inf n) :
    floatMag l = f.maxFin + 1 ∧ floatSigned l = n := by
  simp only [kindOf, h.fields] at hl
  split at hl
  · next top =>
    split at hl
    · next frac =>
      cases hl
      exact ⟨by rw [floatMag, top, frac, h.fields, h.maxFin, Nat.add_zero], rfl⟩
    · cases hl
  · split at hl <;> cases hl

theorem floatMag_of_zero (h : FloatTag l.tag f) {n : Bool} (hl : kindOf l = .zero n) : floatMag l = 0 ∧ floatSigned l = n := by
  simp only [kindOf, h.fields] at hl
  split at hl
  · split at hl <;> cases hl
  · split at hl
    · next none =>
      cases hl
      exact ⟨none, rfl⟩
    · cases hl

theorem floatMag_of_num (h : FloatTag l.tag f) {n : Bool} (hl : kindOf l = .num n) :
    floatMag l ≠ 0 ∧ floatMag l ≤ f.maxFin ∧ floatSigned l = n := by
  have top := exp_eq_top_iff h (floatMag_lt h)
  simp only [kindOf, h.fields, floatExp_eq h] at hl
  split at hl
  · split at hl <;> cases hl
  · next small =>
    split at hl
    · cases hl
    · next some_ =>
      cases hl
      exact ⟨some_, not_not.mp fun big => small (top.mpr big), rfl⟩

/-- The value of a NaN token. -/
theorem tokFVal_of_nan (h : FloatTag l.tag f) {s : Bool} (hl : kindOf l = .nan s) : tokFVal l = .nan s := by
  rw [kindOf_eq h] at hl
  revert hl
  cases tokFVal l using FVal.kindCases with
  | nan => exact fun hl => by cases hl; rfl
  | inf | zero => nofun
  | num n m e hm => rw [FVal.kind_fin n e hm]; nofun

theorem floatSign_nan (h : FloatTag l.tag f) (neg : Bool) {s : Bool} (hl : kindOf l = .nan s)
    (hk : some (nanOf [.nan s]) = some (k, fl)) : GivesKind l.tag (floatSign l.tag f neg l) k fl := by
  rw [floatSign, tokFVal_of_nan h hl]
  exact givesKind_nanOf h (by simp) hk

theorem floatSign_inf (h : FloatTag l.tag f) (neg : Bool) {n : Bool} (hl : kindOf l = .inf n) :
    GivesKind l.tag (floatSign l.tag f neg l) (.inf (if neg then !n else false)) 0 := by
  obtain ⟨mag, sign⟩ := floatMag_of_inf h hl
  rw [floatSign_eq h neg (hl ▸ rfl), mag, sign]
  exact givesKind_inf h _ _

theorem floatSign_zero (h : FloatTag l.tag f) (neg : Bool) {n : Bool} (hl : kindOf l = .zero n) :
    GivesKind l.tag (floatSign l.tag f neg l) (.zero (if neg then !n else false)) 0 := by
  obtain ⟨mag, sign⟩ := floatMag_of_zero h hl
  rw [floatSign_eq h neg (hl ▸ rfl), mag, sign]
  exact givesKind_zero h _ _

theorem floatAbs_kind {g : GF} {b c : FKind} (h : FloatTag l.tag f) (hk : kindResult (.abs g) (kindOf l) b c = some (k, fl)) :
    GivesKind l.tag (floatSign l.tag f false l) k fl := by
  cases hl : kindOf l with
  | nan s => exact floatSign_nan h false hl (by rwa [hl] at hk)
  | inf n => rw [hl] at hk; cases hk; exact floatSign_inf h false hl
  | zero n => rw [hl] at hk; cases hk; exact floatSign_zero h false hl
  | num n => rw [hl] at hk; cases hk

theorem floatNeg_kind {g : GF} {b c : FKind} (h : FloatTag l.tag f) (hk : kindResult (.neg g) (kindOf l) b c = some (k, fl)) :
    GivesKind l.tag (floatSign l.tag f true l) k fl := by
  cases hl : kindOf l with
  | nan s => exact floatSign_nan h true hl (by rwa [hl] at hk)
  | inf n => rw [hl] at hk; cases hk; exact floatSign_inf h true hl
  | zero n => rw [hl] at hk; cases hk; exact floatSign_zero h true hl
  | num n => rw [hl] at hk; cases hk

theorem floatLdexp_kind {g : GF} {b c : FKind} (h : FloatTag l.tag f) (n : Int)
    (hk : kindResult (.ldexp g) (kindOf l) b c = some (k, fl)) : GivesKind l.tag (floatLdexp l.tag f l n) k fl := by
  rw [kindOf_eq h] at hk
  unfold floatLdexp
  cases hl : tokFVal l with
  | nan s =>
    rw [hl] at hk
    exact givesKind_nanOf h (ks := [.nan s]) (by simp) hk
  | inf x =>
    rw [hl] at hk
    cases hk
    exact givesKind_self h (congrArg FVal.kind hl) rfl 0
  | fin x m e =>
    rw [hl] at hk
    by_cases hm : m = 0
    · subst hm
      cases hk
      exact givesKind_self h (congrArg FVal.kind hl) rfl 0
    · rw [FVal.kind_fin x e hm] at hk
      cases hk

end

end Sys2Proof.Machine

namespace Sys2Proof.Machine

/-! ### The order of float values is that of their codes (R70, R126, R129) -/

/-- A magnitude with a sign. -/
def signed (neg : Bool) (m : Nat) : Int := if neg then -(m : Int) else m

theorem floatKey_eq (t : Token) : floatKey t = signed (floatSigned t) (floatMag t) := rfl

/-- The sum of two signed dyadics, over a unit that divides both. -/
def dyadicSum (E : Int) (n1 : Bool) (m1 : Nat) (e1 : Int) (n2 : Bool) (m2 : Nat) (e2 : Int) : Int :=
  signed n1 (m1 * 2 ^ (e1 - E).toNat) + signed n2 (m2 * 2 ^ (e2 - E).toNat)

theorem signed_mul (n : Bool) (m c : Nat) : signed n (m * c) = signed n m * c := by
  cases n <;> simp [signed]

/-- A finer unit scales the sum by a positive factor. -/
theorem dyadicSum_scale {E e1 e2 : Int} (h1 : E ≤ e1) (h2 : E ≤ e2) (n1 n2 : Bool) (m1 m2 : Nat) :
    dyadicSum E n1 m1 e1 n2 m2 e2 = dyadicSum (min e1 e2) n1 m1 e1 n2 m2 e2 * (2 ^ (min e1 e2 - E).toNat : Nat) := by
  have a1 : (e1 - E).toNat = (e1 - min e1 e2).toNat + (min e1 e2 - E).toNat := by omega
  have a2 : (e2 - E).toNat = (e2 - min e1 e2).toNat + (min e1 e2 - E).toNat := by omega
  simp only [dyadicSum, a1, a2, Nat.pow_add, ← Nat.mul_assoc]
  rw [signed_mul _ (m1 * _), signed_mul _ (m2 * _), ← Int.add_mul]

/-- The comparison of two dyadics has the sign of their difference, in any unit that divides both. -/
theorem cmpDyadic_sign {E e1 e2 : Int} (h1 : E ≤ e1) (h2 : E ≤ e2) (n1 n2 : Bool) (m1 m2 : Nat) :
    (cmpDyadic n1 m1 e1 n2 m2 e2 < 0 ↔ signed n1 (m1 * 2 ^ (e1 - E).toNat) < signed n2 (m2 * 2 ^ (e2 - E).toNat)) ∧
    (cmpDyadic n1 m1 e1 n2 m2 e2 = 0 ↔ signed n1 (m1 * 2 ^ (e1 - E).toNat) = signed n2 (m2 * 2 ^ (e2 - E).toNat)) := by
  have flip : signed (!n2) (m2 * 2 ^ (e2 - E).toNat) = -signed n2 (m2 * 2 ^ (e2 - E).toNat) := by
    cases n2 <;> simp [signed]
  have scale := dyadicSum_scale h1 h2 n1 (!n2) m1 m2
  have pos : (0 : Int) < (2 ^ (min e1 e2 - E).toNat : Nat) := Int.natCast_pos.mpr (Nat.two_pow_pos _)
  have cmp : cmpDyadic n1 m1 e1 n2 m2 e2 = (dyadicSum (min e1 e2) n1 m1 e1 (!n2) m2 e2).sign := by
    have sum : addDyadic n1 m1 e1 (!n2) m2 e2 = let d := dyadicSum (min e1 e2) n1 m1 e1 (!n2) m2 e2
        if d = 0 then none else some (decide (d < 0), d.natAbs, min e1 e2) := rfl
    rw [cmpDyadic, sum]
    generalize dyadicSum (min e1 e2) n1 m1 e1 (!n2) m2 e2 = d
    rcases lt_trichotomy d 0 with hd | hd | hd
    · simp [hd, hd.ne, Int.sign_eq_neg_one_of_neg hd]
    · simp [hd]
    · simp [hd.ne', not_lt.mpr hd.le, Int.sign_eq_one_of_pos hd]
  have whole := Int.sign_mul (dyadicSum (min e1 e2) n1 m1 e1 (!n2) m2 e2) (2 ^ (min e1 e2 - E).toNat : Nat)
  rw [← scale, Int.sign_eq_one_of_pos pos, mul_one, ← cmp, dyadicSum, flip] at whole
  rw [← whole, Int.sign_neg_iff, Int.sign_eq_zero_iff_zero]
  omega

section
variable {t : Tag} {f : FloatFmt} {l r : Token}

/-- A finite magnitude code as a multiple of the least subnormal. -/
def magUnits (f : FloatFmt) (mag : Nat) : Nat := magSig f mag * 2 ^ (max 1 (mag / 2 ^ f.fbits) - 1)

theorem magUnits_strictMono (f : FloatFmt) : StrictMono (magUnits f) := by
  refine strictMono_nat_of_lt_succ fun a => ?_
  have pos := Nat.two_pow_pos f.fbits
  have rem := Nat.mod_lt a pos
  have parts := Nat.div_add_mod a (2 ^ f.fbits)
  simp only [magUnits, magSig]
  generalize a / 2 ^ f.fbits = q at *
  generalize a % 2 ^ f.fbits = r at *
  by_cases carry : r + 1 < 2 ^ f.fbits
  · obtain ⟨hq, hr⟩ := (Nat.div_mod_unique pos).mpr ⟨show r + 1 + 2 ^ f.fbits * q = a + 1 by omega, carry⟩
    rw [hq, hr]
    refine Nat.mul_lt_mul_of_pos_right ?_ (Nat.two_pow_pos _)
    split <;> omega
  · have next_ : 2 ^ f.fbits * (q + 1) = 2 ^ f.fbits * q + 2 ^ f.fbits := Nat.mul_succ _ _
    obtain ⟨hq, hr⟩ := (Nat.div_mod_unique pos).mpr ⟨show 0 + 2 ^ f.fbits * (q + 1) = a + 1 by omega, pos⟩
    rw [hq, hr]
    cases q with
    | zero => simp; omega
    | succ q =>
      have twice : 2 ^ (q + 1) = 2 * 2 ^ q := Nat.pow_succ'
      have less : 2 ^ f.fbits + r < 2 * 2 ^ f.fbits := by omega
      have step := Nat.mul_lt_mul_of_pos_right less (Nat.two_pow_pos q)
      simp only [Nat.add_one_ne_zero, if_false, Nat.add_zero, Nat.max_eq_right (Nat.le_add_left 1 _), Nat.add_sub_cancel, twice]
      calc (2 ^ f.fbits + r) * 2 ^ q < 2 * 2 ^ f.fbits * 2 ^ q := step
        _ = 2 ^ f.fbits * (2 * 2 ^ q) := by ring

/-- The least exponent of a format's values. -/
def leastExp (f : FloatFmt) : Int := 1 - (f.bias : Int) - (f.fbits : Int)

theorem magUnits_eq (f : FloatFmt) (mag : Nat) : magSig f mag * 2 ^ (magExp f mag - leastExp f).toNat = magUnits f mag := by
  have : (magExp f mag - leastExp f).toNat = max 1 (mag / 2 ^ f.fbits) - 1 := by
    simp only [magExp, leastExp]
    omega
  rw [this, magUnits]

theorem leastExp_le (f : FloatFmt) (mag : Nat) : leastExp f ≤ magExp f mag := by
  simp only [magExp, leastExp]
  omega

/-- Multiples of the least subnormal with their signs stand in the order of the codes with their signs. -/
theorem signed_magUnits (f : FloatFmt) (n1 n2 : Bool) (a b : Nat) :
    (signed n1 (magUnits f a) < signed n2 (magUnits f b) ↔ signed n1 a < signed n2 b) ∧
    (signed n1 (magUnits f a) = signed n2 (magUnits f b) ↔ signed n1 a = signed n2 b) := by
  have mono := magUnits_strictMono f
  have lt := mono.lt_iff_lt (a := a) (b := b)
  have gt := mono.lt_iff_lt (a := b) (b := a)
  have zero : magUnits f 0 = 0 := by simp [magUnits, magSig]
  have a0 := mono.lt_iff_lt (a := 0) (b := a)
  have b0 := mono.lt_iff_lt (a := 0) (b := b)
  rw [zero] at a0 b0
  cases n1 <;> cases n2 <;> simp only [signed, if_true, if_false, Bool.false_eq_true] <;> omega

/-- A token that is no NaN is finite, or the infinity just above the finite codes. -/
theorem tokFVal_of_not_nan (h : FloatTag l.tag f) (hn : (kindOf l).isNan = false) :
    (floatMag l ≤ f.maxFin ∧ tokFVal l = .fin (floatSigned l) (magSig f (floatMag l)) (magExp f (floatMag l))) ∨
    (floatMag l = f.maxFin + 1 ∧ tokFVal l = .inf (floatSigned l)) := by
  rw [tokFVal_eq h]
  by_cases fin_ : floatMag l ≤ f.maxFin
  · exact .inl ⟨fin_, if_pos fin_⟩
  · have top : (tokFVal l) = if floatMag l % 2 ^ f.fbits = 0 then .inf (floatSigned l)
        else .nan (decide (floatMag l % 2 ^ f.fbits < 2 ^ (f.fbits - 1))) := (tokFVal_eq h).trans (if_neg fin_)
    have noFrac : floatMag l % 2 ^ f.fbits = 0 := by
      by_contra frac
      rw [kindOf_eq h, top, if_neg frac] at hn
      cases hn
    rw [if_pos noFrac] at top
    have inf : kindOf l = .inf (floatSigned l) := by rw [kindOf_eq h, top]; rfl
    exact .inr ⟨(floatMag_of_inf h inf).1, by rw [← tokFVal_eq h, top]⟩

/-- The IEEE comparison of two tokens that are no NaN is that of their keys. -/
theorem cmpFVal_sign (h : FloatTag l.tag f) (hr : FloatTag r.tag f) (ln : (kindOf l).isNan = false)
    (rn : (kindOf r).isNan = false) :
    (cmpFVal (tokFVal l) (tokFVal r) < 0 ↔ floatKey l < floatKey r) ∧
    (cmpFVal (tokFVal l) (tokFVal r) = 0 ↔ floatKey l = floatKey r) := by
  rw [floatKey_eq, floatKey_eq]
  rcases tokFVal_of_not_nan h ln with ⟨lm, lv⟩ | ⟨lm, lv⟩ <;> rcases tokFVal_of_not_nan hr rn with ⟨rm, rv⟩ | ⟨rm, rv⟩
  · rw [lv, rv, ← (signed_magUnits f _ _ _ _).1, ← (signed_magUnits f _ _ _ _).2, ← magUnits_eq, ← magUnits_eq]
    exact cmpDyadic_sign (leastExp_le f _) (leastExp_le f _) _ _ _ _
  · rw [lv, rv, rm]
    cases floatSigned l <;> cases floatSigned r <;> simp [cmpFVal, signed] <;> omega
  · rw [lv, rv, lm]
    cases floatSigned l <;> cases floatSigned r <;> simp [cmpFVal, signed] <;> omega
  · rw [lv, rv, lm, rm]
    cases floatSigned l <;> cases floatSigned r <;> simp [cmpFVal, signed] <;> omega

/-- MIN and MAX of two operands that are no NaN: the one that lies lower, −0 below +0, or the other. -/
theorem floatMinMax_eq (h : FloatTag l.tag f) (hr : FloatTag r.tag f) (ln : (kindOf l).isNan = false)
    (rn : (kindOf r).isNan = false) (mx : Bool) : floatMinMax l.tag f mx l r =
      (if decide (floatKey l < floatKey r ∨ (floatKey l = floatKey r ∧ floatSigned l = true)) != mx then l else r, 0) := by
  obtain ⟨lt, eq⟩ := cmpFVal_sign h hr ln rn
  rw [kindOf_eq h, FVal.isNan_kind] at ln
  rw [kindOf_eq hr, FVal.isNan_kind] at rn
  simp only [floatMinMax, ln, rn, ← floatSigned_eq h, lt, eq]
  simp

/-! ### Results that the kinds do not decide (R70, R126, R127, R128) -/

/-- Equal magnitudes with opposite signs cancel. -/
theorem floatAddV_cancels (t : Tag) (f : FloatFmt) (sat n : Bool) {m : Nat} (e : Int) (hm : m ≠ 0) :
    floatAddV t f sat (.fin n m e) (.fin (!n) m e) = (packTok t f false 0, 0) := by
  have none_ : addDyadic n m e (!n) m e = none := by cases n <;> simp [addDyadic]
  simp only [floatAddV, none_, finishDyadic]
  simp [hm]

/-- The operands' keys cancel where one is the other with its sign changed. -/
theorem tokFVal_of_cancel (h : FloatTag l.tag f) (hr : FloatTag r.tag f) {n : Bool} (hl : kindOf l = .num n) {neg : Bool}
    (hk : floatKey l = if neg then -floatKey r else floatKey r) : ∃ m e, m ≠ 0 ∧ tokFVal l = .fin n m e ∧
      tokFVal r = .fin (if neg then !n else n) m e := by
  obtain ⟨some_, fin_, rfl⟩ := floatMag_of_num h hl
  rw [floatKey_eq, floatKey_eq] at hk
  have same : floatMag r = floatMag l ∧ floatSigned r = if neg then !floatSigned l else floatSigned l := by
    revert hk
    cases floatSigned l <;> cases floatSigned r <;> cases neg <;> simp [signed] <;> omega
  refine ⟨magSig f (floatMag l), magExp f (floatMag l), magSig_eq_zero.not.mpr some_, ?_, ?_⟩
  · rw [tokFVal_eq h, magFVal, if_pos fin_]
  · rw [tokFVal_eq hr, same.1, same.2, magFVal, if_pos fin_]

/-- A magnitude above the range gives an infinity. -/
theorem finishFloat_overflow (h : FloatTag t f) (neg : Bool) {m : Nat} {e : Int}
    (top : (2 ^ f.ebits : Nat) ≤ (m.log2 : Int) + e + f.bias) :
    finishFloat t f false neg ⟨m, e, false⟩ = (infTok t f neg, fOverflow ||| fInexact) := by
  have above : f.maxFin < (roundMag f .nearestEven ⟨m, e, false⟩).code := by
    have big : (2 ^ f.ebits - 1) ≤ (max ((m.log2 : Int) + e - f.fbits) (1 - (f.bias : Int) - f.fbits) + f.fbits + f.bias - 1).toNat := by
      omega
    have scaled := Nat.mul_le_mul_right (2 ^ f.fbits) big
    rw [← h.maxFin] at scaled
    exact Nat.lt_of_lt_of_le (Nat.lt_of_succ_le scaled) (Nat.le_add_right _ _)
  simp only [finishFloat, if_pos above, Bool.false_eq_true, if_false]
  rfl

/-- A magnitude below half of the unit rounds to 0. -/
theorem roundTo_small {m : Nat} {e q : Int} (hm : m ≠ 0) (low : (m.log2 : Int) + e + 1 < q) :
    roundTo .nearestEven ⟨m, e, false⟩ q = (0, true) := by
  have below : m < 2 ^ ((q - e).toNat - 1) :=
    Nat.lt_of_lt_of_le Nat.lt_log2_self (Nat.pow_le_pow_right (by decide) (by omega))
  have whole : m < 2 ^ (q - e).toNat := Nat.lt_of_lt_of_le below (Nat.pow_le_pow_right (by decide) (Nat.sub_le _ _))
  simp only [roundTo, if_neg (show ¬ q ≤ e by omega), Nat.div_eq_of_lt whole, Nat.mod_eq_of_lt whole, if_pos below]
  simp [hm]

/-- A magnitude below half of the least subnormal gives a zero. -/
theorem finishFloat_underflow (t : Tag) (f : FloatFmt) (neg : Bool) {m : Nat} {e : Int} (hm : m ≠ 0)
    (low : (m.log2 : Int) + e + 1 < leastExp f) :
    finishFloat t f false neg ⟨m, e, false⟩ = (packTok t f neg 0, fUnderflow ||| fInexact) := by
  unfold leastExp at low
  have unit : max ((m.log2 : Int) + e - f.fbits) (1 - (f.bias : Int) - f.fbits) = 1 - (f.bias : Int) - f.fbits := by omega
  have rounded : roundMag f .nearestEven ⟨m, e, false⟩ = ⟨0, true, true⟩ := by
    simp only [roundMag, unit, roundTo_small hm low, Rounded.mk.injEq, true_and, decide_eq_true_eq]
    refine ⟨?_, ?_⟩
    · rw [show (1 - (f.bias : Int) - f.fbits + f.fbits + f.bias - 1).toNat = 0 by omega]
      exact Nat.zero_mul _
    · split <;> omega
  simp only [finishFloat, rounded, Nat.not_lt_zero, if_false]
  rfl

/-- A number's significand and exponent, within the bounds of its format. -/
theorem tokFVal_of_num (h : FloatTag l.tag f) {n : Bool} (hl : kindOf l = .num n) :
    ∃ m e, m ≠ 0 ∧ tokFVal l = .fin n m e ∧ m.log2 ≤ f.fbits ∧ leastExp f ≤ e ∧ e + 1 < leastExp f + (2 ^ f.ebits : Nat) := by
  obtain ⟨some_, fin_, rfl⟩ := floatMag_of_num h hl
  have sig : magSig f (floatMag l) ≠ 0 := magSig_eq_zero.not.mpr some_
  refine ⟨magSig f (floatMag l), magExp f (floatMag l), sig, ?_, ?_, leastExp_le f _, ?_⟩
  · rw [tokFVal_eq h, magFVal, if_pos fin_]
  · have rem := Nat.mod_lt (floatMag l) (Nat.two_pow_pos f.fbits)
    have small : magSig f (floatMag l) < 2 ^ (f.fbits + 1) := by
      rw [Nat.pow_succ]
      unfold magSig
      split <;> omega
    exact Nat.le_of_lt_succ ((Nat.log2_lt sig).mpr small)
  · have top := exp_eq_top_iff h (floatMag_lt h)
    have upper : floatMag l / 2 ^ f.fbits < 2 ^ f.ebits :=
      Nat.div_lt_of_lt_mul (by rw [← Nat.pow_add, Nat.add_comm]; exact floatMag_lt h)
    have two : 4 ≤ 2 ^ f.ebits := Nat.pow_le_pow_right (Nat.zero_lt_two) h.ebits_pos
    simp only [magExp, leastExp]
    omega

theorem floatLdexp_over (h : FloatTag l.tag f) {n : Bool} (hl : kindOf l = .num n) {c : Int} (hc : 4096 ≤ c) :
    floatLdexp l.tag f l c = (infTok l.tag f n, fOverflow ||| fInexact) := by
  obtain ⟨m, e, hm, hv, hlog, he, -⟩ := tokFVal_of_num h hl
  have range := h.range
  simp only [floatLdexp, hv, if_neg hm]
  refine finishFloat_overflow h n ?_
  unfold leastExp at he
  omega

theorem floatLdexp_under (h : FloatTag l.tag f) {n : Bool} (hl : kindOf l = .num n) {c : Int} (hc : c ≤ -4096) :
    floatLdexp l.tag f l c = (packTok l.tag f n 0, fUnderflow ||| fInexact) := by
  obtain ⟨m, e, hm, hv, hlog, -, he⟩ := tokFVal_of_num h hl
  have range := h.range
  simp only [floatLdexp, hv, if_neg hm]
  refine finishFloat_underflow _ _ n hm ?_
  omega

theorem floatExp_eq_zero_iff (h : FloatTag l.tag f) : magSig f (floatMag l) < 2 ^ f.fbits ↔ floatExp l = 0 := by
  have rem := Nat.mod_lt (floatMag l) (Nat.two_pow_pos f.fbits)
  rw [floatExp_eq h]
  unfold magSig
  split
  · next e => simp [e, rem]
  · next e => simp [e]

/-- The class by the value is the class by the fields. -/
theorem fclassBit_eq (h : FloatTag l.tag f) : fclassBit f l = classOf l := by
  have sub := floatExp_eq_zero_iff h
  have value := tokFVal_eq h
  simp only [classOf, fclassBit, kindOf_eq h]
  unfold magFVal at value
  split at value
  · rw [value]
    simp only [FVal.kind, magSig_eq_zero, sub]
    split <;> rfl
  · rw [value]
    by_cases frac : floatMag l % 2 ^ f.fbits = 0
    · rw [if_pos frac]
      rfl
    · rw [if_neg frac]
      rfl

theorem classOf_lt (l : Token) : classOf l < 10 := by
  unfold classOf
  repeat' split
  all_goals decide

end
end Sys2Proof.Machine

namespace Sys2Proof.Machine

/-! ### The special values of R136's table -/

/-- The kind of a special value; a NaN result is quiet. -/
def Special.kind : Special → FKind
  | .nan => .nan false
  | .inf n => .inf n
  | .zero n => .zero n

section
variable {t : Tag} {f : FloatFmt} {l : Token} {v : FVal} {g : GF} {r : Special} {fl : FlagSet}

theorem GivesKind.special {p : Token × FlagSet} (h : FloatTag t f) (hk : GivesKind t p r.kind fl) :
    specialOf (tokFVal p.1) = some r := by
  rw [specialOf_eq, ← kindOf_eq (f := f) (hk.tag ▸ h), hk.kind]
  cases r <;> rfl

theorem floatSqrt_special (h : FloatTag l.tag f) (hs : specialResult (.sqrt g) (tokFVal l) = some (r, fl)) :
    GivesKind l.tag (floatSqrt l.tag f l) r.kind fl := by
  unfold floatSqrt
  cases hl : tokFVal l with
  | nan s => rw [hl] at hs; cases hs; exact givesKind_nan h _
  | inf n =>
    rw [hl] at hs
    cases n with
    | true => cases hs; exact givesKind_nan h _
    | false => cases hs; exact givesKind_self h (congrArg FVal.kind hl) rfl 0
  | fin n m e =>
    rw [hl] at hs
    by_cases hm : m = 0
    · subst hm; cases hs; exact givesKind_self h (congrArg FVal.kind hl) rfl 0
    · simp only [specialResult, if_neg hm] at hs ⊢
      cases n with
      | true => cases hs; exact givesKind_nan h _
      | false => cases hs

theorem floatRcp_special (h : FloatTag l.tag f) (hs : specialResult (.rcp g) (tokFVal l) = some (r, fl)) :
    GivesKind l.tag (floatRcp l.tag f l) r.kind fl := by
  unfold floatRcp
  cases hl : tokFVal l with
  | nan s => rw [hl] at hs; cases hs; exact givesKind_nan h _
  | inf n => rw [hl] at hs; cases hs; simpa [floatDivV, Special.kind] using givesKind_zero h n 0
  | fin n m e =>
    rw [hl] at hs
    by_cases hm : m = 0
    · subst hm; cases hs; simpa [floatDivV, Special.kind] using givesKind_inf h n fDivzero
    · simp only [specialResult, if_neg hm] at hs
      cases hs

theorem floatRsqrt_special (h : FloatTag l.tag f) (hs : specialResult (.rsqrt g) (tokFVal l) = some (r, fl)) :
    GivesKind l.tag (floatRsqrt l.tag f l) r.kind fl := by
  unfold floatRsqrt
  cases hl : tokFVal l with
  | nan s => rw [hl] at hs; cases hs; exact givesKind_nan h _
  | inf n =>
    rw [hl] at hs
    cases n with
    | true => cases hs; exact givesKind_nan h _
    | false => cases hs; exact givesKind_zero h _ _
  | fin n m e =>
    rw [hl] at hs
    by_cases hm : m = 0
    · subst hm; cases hs; exact givesKind_inf h _ _
    · simp only [specialResult, if_neg hm] at hs ⊢
      cases n with
      | true => cases hs; exact givesKind_nan h _
      | false => cases hs

theorem floatExp2_special (h : FloatTag l.tag f) (hs : specialResult (.exp2 g) (tokFVal l) = some (r, fl)) :
    GivesKind l.tag (floatExp2 l.tag f l) r.kind fl := by
  unfold floatExp2
  cases hl : tokFVal l with
  | nan s => rw [hl] at hs; cases hs; exact givesKind_nan h _
  | inf n =>
    rw [hl] at hs
    cases n with
    | true => cases hs; exact givesKind_zero h _ _
    | false => cases hs; exact givesKind_self h (congrArg FVal.kind hl) rfl 0
  | fin n m e => rw [hl] at hs; cases hs

theorem floatLog2_special (h : FloatTag l.tag f) (hs : specialResult (.log2 g) (tokFVal l) = some (r, fl)) :
    GivesKind l.tag (floatLog2 l.tag f l) r.kind fl := by
  unfold floatLog2
  cases hl : tokFVal l with
  | nan s => rw [hl] at hs; cases hs; exact givesKind_nan h _
  | inf n =>
    rw [hl] at hs
    cases n with
    | true => cases hs; exact givesKind_nan h _
    | false => cases hs; exact givesKind_self h (congrArg FVal.kind hl) rfl 0
  | fin n m e =>
    rw [hl] at hs
    by_cases hm : m = 0
    · subst hm; cases hs; exact givesKind_inf h _ _
    · simp only [specialResult, if_neg hm] at hs ⊢
      cases n with
      | true => cases hs; exact givesKind_nan h _
      | false => cases hs

theorem floatTanh_special (h : FloatTag l.tag f) (hs : specialResult (.tanh g) (tokFVal l) = some (r, fl)) :
    GivesKind l.tag (floatTanh l.tag f l) r.kind fl := by
  unfold floatTanh
  cases hl : tokFVal l with
  | nan s => rw [hl] at hs; cases hs; exact givesKind_nan h _
  | inf n => rw [hl] at hs; cases hs
  | fin n m e =>
    rw [hl] at hs
    by_cases hm : m = 0
    · subst hm; cases hs; exact givesKind_self h (congrArg FVal.kind hl) rfl 0
    · simp only [specialResult, if_neg hm] at hs
      cases hs

/-! ### Conversions between integer tags (R72, R73) -/

theorem convert_int {mode : Rounding} {s : Token} (hs : s.tag.isInt = true) (ht : t.isInt = true) (hne : s.tag ≠ t) :
    convert mode t s = some (convInt t mode (.fin (decide (tokInt s < 0)) (tokInt s).natAbs 0)) := by
  have value : tokFVal s = .fin (decide (tokInt s < 0)) (tokInt s).natAbs 0 := by
    unfold tokFVal
    cases e : s.tag with
    | i8 | i16 | i32 | i64 | n8 | n16 | n32 | n64 => rfl
    | _ => rw [e] at hs; cases hs
  have plain (u : Tag) (hu : u.isInt = true) : u ≠ .addr ∧ u ≠ .time ∧ tagNumeric u = true := by
    cases u with
    | i8 | i16 | i32 | i64 | n8 | n16 | n32 | n64 => decide
    | _ => cases hu
  obtain ⟨sa, st, sn⟩ := plain _ hs
  obtain ⟨ta, tt, tn⟩ := plain _ ht
  simp only [convert, sa, st, ta, tt, sn, tn, hne, false_and, and_false, or_false, if_false, Bool.not_true, Bool.or_self,
    Bool.false_eq_true, value]
  cases t with
  | i8 | i16 | i32 | i64 | n8 | n16 | n32 | n64 => rfl
  | _ => cases ht

/-- An integer source is exact: it is sent, or the nearer end of the range (R72, R73). -/
theorem convInt_exact (mode : Rounding) (ht : t.isInt = true) (v : Int) : convInt t mode (.fin (decide (v < 0)) v.natAbs 0) =
    if v < intMin t then ⟨mkInt t (intMin t), true, fSat ||| fInexact⟩
    else if intMax t < v then ⟨mkInt t (intMax t), true, fSat ||| fInexact⟩
    else ⟨mkInt t v, false, 0⟩ := by
  have range : intMin t ≤ 0 ∧ 0 ≤ intMax t := by
    cases t with
    | i8 | i16 | i32 | i64 | n8 | n16 | n32 | n64 => decide
    | _ => cases ht
  have unsigned : tagSigned t = false → intMin t = 0 := fun e => by rw [intMin, if_neg (by simp [e])]
  have back : (if v < 0 then -(v.natAbs : Int) else v.natAbs) = v := by split <;> omega
  simp only [convInt, roundTo, Int.le_refl, if_true, Int.sub_self, Int.toNat_zero, Nat.pow_zero, Nat.mul_one, decide_eq_true_eq, back]
  by_cases zero : v = 0
  · subst zero
    rw [if_pos Int.natAbs_zero, if_neg (not_lt.mpr range.1), if_neg (not_lt.mpr range.2)]
  · rw [if_neg (Int.natAbs_ne_zero.mpr zero)]
    by_cases cut : v < 0 ∧ tagSigned t = false
    · have least := unsigned cut.2
      simp [cut.1, cut.2, least]
    · rw [if_neg (by simpa using cut)]
      rfl

end

end Sys2Proof.Machine

namespace Sys2Proof.Machine

/-! ### Value words on Float tags -/

section
variable {s : State} {f : Firing} {i : Instr} {ff : FloatFmt} {l r x : Token}

/-- A value word that fires with a result for both targets sends it. -/
theorem exec_ofPair (h : Fires s f i) {p : Token × FlagSet} (hv : valueOf s f i = some (.ofPair p)) :
    exec i s = .next (sent s f i p.1 p.1 p.2) := valueWordSends s f i _ _ _ h hv

/-- The two operands of a word have one Float tag. -/
theorem addV_float (h : FloatTag l.tag ff) (hr : r.tag = l.tag) (sat : Bool) :
    addV sat l r = .ofPair (floatAddV l.tag ff sat (tokFVal l) (tokFVal r)) := by
  have float := h.tagFloat
  have fmt := h.fmt
  unfold addV
  rw [hr]
  cases e : l.tag with
  | fp64 | fp32 | fp16 | bf16 =>
    rw [e] at fmt
    cases fmt
    rfl
  | _ => rw [e] at float; cases float

theorem subV_float (h : FloatTag l.tag ff) (hr : r.tag = l.tag) (sat : Bool) :
    subV sat l r = .ofPair (floatAddV l.tag ff sat (tokFVal l) (tokFVal r).negate) := by
  have float := h.tagFloat
  have fmt := h.fmt
  unfold subV
  rw [hr]
  cases e : l.tag with
  | fp64 | fp32 | fp16 | bf16 =>
    rw [e] at fmt
    cases fmt
    rfl
  | _ => rw [e] at float; cases float

theorem arith2_float (h : FloatTag l.tag ff) (hr : r.tag = l.tag) (int : VOut) (flt : FloatFmt → Token × FlagSet) :
    arith2 l r int flt = .ofPair (flt ff) := by
  simp [arith2, hr, h.not_isInt, h.tagFloat, h.fmt]

theorem float1_float (h : FloatTag l.tag ff) {ok : Tag → Bool} (hok : ok l.tag = true) (flt : FloatFmt → Token × FlagSet) :
    float1 ok l flt = .ofPair (flt ff) := by
  simp [float1, hok, h.fmt]

theorem fmaV_float (h : FloatTag l.tag ff) (hr : r.tag = l.tag) (hx : x.tag = l.tag) :
    fmaV l r x = .ofPair (floatFmaV l.tag ff (tokFVal l) (tokFVal r) (tokFVal x)) := by
  rw [fmaV, if_neg (not_not.mpr hx)]
  exact arith2_float h hr _ _

theorem absV_float (h : FloatTag l.tag ff) : absV l = .ofPair (floatSign l.tag ff false l) := by
  rw [absV, h.not_isInt]
  exact float1_float h h.tagFloat _

theorem negV_float (h : FloatTag l.tag ff) : negV l = .ofPair (floatSign l.tag ff true l) := by
  rw [negV, h.not_isInt]
  exact float1_float h h.tagFloat _

theorem ldexpV_float (h : FloatTag l.tag ff) (hr : r.tag.isInt = true) :
    ldexpV l r = .ofPair (floatLdexp l.tag ff l (tokInt r)) := by
  rw [ldexpV, hr]
  exact float1_float h h.tagFloat _

/-- Operands that cancel give +0. -/
theorem addV_cancels (h : FloatTag l.tag ff) (hr : r.tag = l.tag) (sat : Bool) {n : Bool} (ln : kindOf l = .num n)
    (key : floatKey l + floatKey r = 0) : addV sat l r = .ofPair (packTok l.tag ff false 0, 0) := by
  obtain ⟨m, e, hm, lv, rv⟩ := tokFVal_of_cancel (neg := true) h (hr ▸ h) ln (eq_neg_of_add_eq_zero_left key)
  rw [addV_float h hr, lv, rv]
  exact congrArg _ (floatAddV_cancels _ _ _ _ _ hm)

theorem subV_cancels (h : FloatTag l.tag ff) (hr : r.tag = l.tag) (sat : Bool) {n : Bool} (ln : kindOf l = .num n)
    (key : floatKey l = floatKey r) : subV sat l r = .ofPair (packTok l.tag ff false 0, 0) := by
  obtain ⟨m, e, hm, lv, rv⟩ := tokFVal_of_cancel (neg := false) h (hr ▸ h) ln key
  rw [subV_float h hr, lv, rv]
  exact congrArg _ (floatAddV_cancels _ _ _ _ _ hm)

theorem minV_numbers (h : FloatTag l.tag ff) (hr : r.tag = l.tag) (ln : (kindOf l).isNan = false) (rn : (kindOf r).isNan = false) :
    minV l r = .ofPair
      (if floatKey l < floatKey r ∨ (floatKey l = floatKey r ∧ floatSigned l = true) then l else r, 0) := by
  rw [minV, arith2_float h hr, floatMinMax_eq h (hr ▸ h) ln rn]
  simp

theorem maxV_numbers (h : FloatTag l.tag ff) (hr : r.tag = l.tag) (ln : (kindOf l).isNan = false) (rn : (kindOf r).isNan = false) :
    maxV l r = .ofPair
      (if floatKey l < floatKey r ∨ (floatKey l = floatKey r ∧ floatSigned l = true) then r else l, 0) := by
  rw [maxV, arith2_float h hr, floatMinMax_eq h (hr ▸ h) ln rn]
  by_cases lower : floatKey l < floatKey r ∨ (floatKey l = floatKey r ∧ floatSigned l = true)
  · simp [lower]
  · simp [lower]

theorem tag_ite {c : Prop} [Decidable c] {t : Tag} (hl : l.tag = t) (hr : r.tag = t) : (if c then l else r).tag = t := by
  split
  exacts [hl, hr]

end

/-- The operands of a word on one Float tag; LDEXP's count is an integer of any tag (R122, R127). -/
structure FloatOperands (s : State) (f : Firing) (i : Instr) (ff : FloatFmt) : Prop where
  fires : Fires s f i
  left : FloatTag (portD s f .l).tag ff
  others : (∃ g, i = .ldexp g) ∨ ∀ q ∈ Instr.dataPorts i, (portD s f q).tag = (portD s f .l).tag
  count : ∀ g, i = .ldexp g → (portD s f .r).tag.isInt = true

section
variable {s : State} {f : Firing} {i : Instr} {ff : FloatFmt} {k : FKind} {fl : FlagSet}

/-- An operand carries the tag of L, and its kind is that of its value. -/
theorem FloatOperands.port (h : FloatOperands s f i ff) (hi : ∀ g, i ≠ .ldexp g) {q : Port} (hq : q ∈ Instr.dataPorts i) :
    (portD s f q).tag = (portD s f .l).tag ∧ kindOf (portD s f q) = (tokFVal (portD s f q)).kind := by
  have tag := h.others.elim (fun ⟨g, e⟩ => absurd e (hi g)) fun all => all q hq
  exact ⟨tag, kindOf_eq (f := ff) (tag ▸ h.left)⟩

/-- What a word sends for operands whose kinds decide its result. -/
theorem valueOf_kind (h : FloatOperands s f i ff)
    (hk : kindResult i (kindOf (portD s f .l)) (kindOf (portD s f .r)) (kindOf (portD s f .x)) = some (k, fl)) :
    ∃ p, valueOf s f i = some (.ofPair p) ∧ GivesKind (portD s f .l).tag p k fl := by
  have hl := h.left
  have kl := kindOf_eq hl
  cases i with
  | add g sat =>
    obtain ⟨hr, kr⟩ := h.port (q := .r) nofun (by simp [Instr.dataPorts])
    rw [kl, kr] at hk
    exact ⟨_, congrArg some (addV_float hl hr sat), floatAddV_kind hl _ _ _ hk⟩
  | sub g sat =>
    obtain ⟨hr, kr⟩ := h.port (q := .r) nofun (by simp [Instr.dataPorts])
    rw [kl, kr] at hk
    exact ⟨_, congrArg some (subV_float hl hr sat), floatAddV_kind hl _ _ _ (by rw [FVal.kind_negate]; exact hk)⟩
  | mul g sat =>
    obtain ⟨hr, kr⟩ := h.port (q := .r) nofun (by simp [Instr.dataPorts])
    rw [kl, kr] at hk
    exact ⟨_, congrArg some (arith2_float hl hr _ _), floatMulV_kind hl _ _ _ hk⟩
  | div g =>
    obtain ⟨hr, kr⟩ := h.port (q := .r) nofun (by simp [Instr.dataPorts])
    rw [kl, kr] at hk
    exact ⟨_, congrArg some (arith2_float hl hr _ _), floatDivV_kind hl _ _ hk⟩
  | fma g =>
    obtain ⟨hr, kr⟩ := h.port (q := .r) nofun (by simp [Instr.dataPorts])
    obtain ⟨hx, kx⟩ := h.port (q := .x) nofun (by simp [Instr.dataPorts])
    rw [kl, kr, kx] at hk
    exact ⟨_, congrArg some (fmaV_float hl hr hx), floatFmaV_kind hl _ _ _ hk⟩
  | min g | max g =>
    obtain ⟨hr, -⟩ := h.port (q := .r) nofun (by simp [Instr.dataPorts])
    exact ⟨_, congrArg some (arith2_float hl hr _ _), floatMinMax_nan hl hr _ hk⟩
  | abs g => exact ⟨_, congrArg some (absV_float hl), floatAbs_kind hl hk⟩
  | neg g => exact ⟨_, congrArg some (negV_float hl), floatNeg_kind hl hk⟩
  | ldexp g => exact ⟨_, congrArg some (ldexpV_float hl (h.count g rfl)), floatLdexp_kind hl _ hk⟩
  | _ => cases hk

/-- A special value goes out with its flags. -/
theorem valueOf_special {r : Special} (h : FloatTag (portD s f .l).tag ff)
    (ht : (portD s f .l).tag = .fp32 ∨ (portD s f .l).tag = .fp16 ∨ (portD s f .l).tag = .bf16
      ∨ ((∃ g, i = .sqrt g) ∧ (portD s f .l).tag = .fp64))
    (hs : specialResult i (tokFVal (portD s f .l)) = some (r, fl)) :
    ∃ p, valueOf s f i = some (.ofPair p) ∧ GivesKind (portD s f .l).tag p r.kind fl := by
  have ok (hi : ∀ g, i ≠ .sqrt g) : specialTag (portD s f .l).tag = true := by
    rcases ht with e | e | e | ⟨⟨g, e⟩, -⟩
    · rw [e]; rfl
    · rw [e]; rfl
    · rw [e]; rfl
    · exact absurd e (hi g)
  cases i with
  | sqrt g => exact ⟨_, congrArg some (float1_float h h.tagFloat _), floatSqrt_special h hs⟩
  | rcp g => exact ⟨_, congrArg some (float1_float h (ok nofun) _), floatRcp_special h hs⟩
  | rsqrt g => exact ⟨_, congrArg some (float1_float h (ok nofun) _), floatRsqrt_special h hs⟩
  | exp2 g => exact ⟨_, congrArg some (float1_float h (ok nofun) _), floatExp2_special h hs⟩
  | log2 g => exact ⟨_, congrArg some (float1_float h (ok nofun) _), floatLog2_special h hs⟩
  | tanh g => exact ⟨_, congrArg some (float1_float h (ok nofun) _), floatTanh_special h hs⟩
  | _ => cases hs

/-- CVT and CVTZ between integer tags send the value, or the nearer end of the range with true on T1. -/
theorem exec_convert_int {c : CF} (h : Fires s f i) (hi : i = .cvt c ∨ i = .cvtz c) (hl : (portD s f .l).tag.isInt = true)
    (hc : c.fmt.isInt = true) (hne : (portD s f .l).tag ≠ c.fmt) : exec i s = .next (
      let v := tokInt (portD s f .l)
      if v < intMin c.fmt then sent s f i (mkInt c.fmt (intMin c.fmt)) (predTok true) (fSat ||| fInexact)
      else if intMax c.fmt < v then sent s f i (mkInt c.fmt (intMax c.fmt)) (predTok true) (fSat ||| fInexact)
      else sent s f i (mkInt c.fmt v) (predTok false) 0) := by
  obtain ⟨mode, hv⟩ : ∃ mode, valueOf s f i = some (cvtV mode c.fmt (portD s f .l)) := by
    rcases hi with rfl | rfl
    · exact ⟨.nearestEven, rfl⟩
    · exact ⟨.towardZero, rfl⟩
  have value := convInt_exact mode hc (tokInt (portD s f .l))
  simp only [cvtV, convert_int hl hc hne] at hv
  rw [valueWordSends s f i _ _ _ h hv, value]
  dsimp only
  split
  · rfl
  · split <;> rfl

end
end Sys2Proof.Machine

open Sys2Proof.Machine in
/-- Settles O15: the values by the fields of their codes, the kinds and special values by the cases of each operation's operands,
the order of MIN and MAX by that of the codes. -/
theorem conversionsAndSpecialValues : Obligations.ConversionsAndSpecialValues := by
  refine ⟨fun s f i c hi h hl hc hne => ?_, fun s f i r fl h ht hs => ?_, fun s f i => ?_⟩
  · have sends := exec_convert_int h hi hl hc hne
    have range : intMin c.fmt ≤ intMax c.fmt := by
      have := tokInt_range (mkInt c.fmt 0) hc
      exact this.1.trans this.2
    refine ⟨fun lo hi => ?_, fun lo => ?_, fun hi => ?_⟩
    · rw [if_neg (not_lt.mpr lo), if_neg (not_lt.mpr hi)] at sends
      exact ⟨_, sends, rfl, tokInt_mkInt_of_range _ _ hc lo hi⟩
    · rw [if_pos lo] at sends
      exact ⟨_, sends, rfl, tokInt_mkInt_of_range _ _ hc le_rfl range⟩
    · rw [if_neg (not_lt.mpr (range.trans hi.le)), if_pos hi] at sends
      exact ⟨_, sends, rfl, tokInt_mkInt_of_range _ _ hc range le_rfl⟩
  · have float : tagFloat (portD s f .l).tag = true := by
      rcases ht with e | e | e | ⟨-, e⟩ <;> rw [e] <;> rfl
    obtain ⟨ff, hf⟩ := floatTag_of_tagFloat float
    obtain ⟨p, hv, hp⟩ := valueOf_special hf ht hs
    exact ⟨p.1, hp.flags ▸ exec_ofPair h hv, hp.tag, hp.special hf⟩
  · intro l r x sends h float same count
    obtain ⟨ff, hl⟩ := floatTag_of_tagFloat float
    have ops : FloatOperands s f i ff := ⟨h, hl, same, count⟩
    refine ⟨?kinds, ?add, ?sub, ?minmax, ?abs, ?neg, ?above, ?below, ?fclass⟩
    case kinds =>
      intro k fl hk
      obtain ⟨p, hv, hp⟩ := valueOf_kind ops hk
      exact ⟨p.1, ⟨hp.flags ▸ exec_ofPair h hv, hp.tag⟩, hp.kind, hp.canon⟩
    case add =>
      rintro g sat n rfl ln key
      obtain ⟨hr, -⟩ := ops.port (q := .r) nofun (by simp [Instr.dataPorts])
      exact ⟨_, ⟨exec_ofPair h (congrArg some (addV_cancels hl hr sat ln key)), rfl⟩, (givesKind_zero hl _ 0).kind⟩
    case sub =>
      rintro g sat n rfl ln key
      obtain ⟨hr, -⟩ := ops.port (q := .r) nofun (by simp [Instr.dataPorts])
      exact ⟨_, ⟨exec_ofPair h (congrArg some (subV_cancels hl hr sat ln key)), rfl⟩, (givesKind_zero hl _ 0).kind⟩
    case minmax =>
      intro ln rn lower upper
      refine ⟨fun g hi => ?_, fun g hi => ?_⟩
      · subst hi
        obtain ⟨hr, -⟩ := ops.port (q := .r) nofun (by simp [Instr.dataPorts])
        exact ⟨lower, ⟨exec_ofPair h (congrArg some (minV_numbers hl hr ln rn)), tag_ite rfl hr⟩, rfl⟩
      · subst hi
        obtain ⟨hr, -⟩ := ops.port (q := .r) nofun (by simp [Instr.dataPorts])
        exact ⟨upper, ⟨exec_ofPair h (congrArg some (maxV_numbers hl hr ln rn)), tag_ite hr rfl⟩, rfl⟩
    case abs =>
      rintro g ln rfl
      have value := (absV_float hl).trans (congrArg _ (floatSign_eq hl false ln))
      exact ⟨_, ⟨exec_ofPair h (congrArg some value), rfl⟩, floatMag_packTok hl _ (floatMag_lt hl), floatSigned_packTok hl _ (floatMag_lt hl)⟩
    case neg =>
      rintro g ln rfl
      have value := (negV_float hl).trans (congrArg _ (floatSign_eq hl true ln))
      exact ⟨_, ⟨exec_ofPair h (congrArg some value), rfl⟩, floatMag_packTok hl _ (floatMag_lt hl), floatSigned_packTok hl _ (floatMag_lt hl)⟩
    case above =>
      rintro g n rfl ln hc
      have value := (ldexpV_float hl (count g rfl)).trans (congrArg _ (floatLdexp_over hl ln hc))
      exact ⟨_, ⟨exec_ofPair h (congrArg some value), rfl⟩, (givesKind_inf hl n 0).kind⟩
    case below =>
      rintro g n rfl ln hc
      have value := (ldexpV_float hl (count g rfl)).trans (congrArg _ (floatLdexp_under hl ln hc))
      exact ⟨_, ⟨exec_ofPair h (congrArg some value), rfl⟩, (givesKind_zero hl n 0).kind⟩
    case fclass =>
      rintro g rfl
      have value : fclassV l = .ofPair (mkTok .n32 (2 ^ classOf l), 0) := by
        rw [fclassV, float1_float hl float, fclassBit_eq hl]
      refine ⟨_, exec_ofPair h (congrArg some value), rfl, ?_⟩
      rw [tokBits_mkTok]
      exact Nat.mod_eq_of_lt (Nat.pow_lt_pow_right (by decide) ((classOf_lt l).trans (by decide)))

namespace Sys2Proof.Machine

variable {s u : State} {k : Nat} {c c' : Cmd}

/-! ### The head of a context (R171) -/

/-- A change of a context's head changes the queues of the engines alone. -/
theorem modHead_keeps {β : Type} (p : State → β) (h : ∀ s q, p { s with en := { s.en with ctxs := q } } = p s) (s : State)
    (k : Nat) (f : Cmd → Cmd) : p (modHead s k f) = p s := by
  dsimp only [modHead]
  split
  · exact h _ _
  · rfl

theorem headOf_modHead (hs : Canonical s) (f : Cmd → Cmd) : headOf (modHead s k f) k = (headOf s k).map f := by
  have now (x : Ctx) : ctxAt (setCtx s k x) k = x := tgetD_tputD_same _ _ _ _ hs.ctxs
  dsimp only [modHead, headOf]
  cases hq : (ctxAt s k).queue with
  | nil => rw [hq]; rfl
  | cons x t => simp [now]

/-- A command as it ends (R173). -/
def ended (st off : Nat) (c : Cmd) : Cmd := { c with status := some st, stopAt := if st = 2 then off else c.stopAt }

theorem finish_eq (s : State) (k st off : Nat) : finish s k st off = modHead s k (ended st off) := rfl

theorem Runs.head (h : Runs s k c) : headOf s k = some c ∧ c.status = none := by
  obtain ⟨run, -⟩ := h
  unfold running at run
  split at run
  next x hx =>
    split at run
    next hb =>
      obtain rfl := Option.some.inj run
      simp only [Bool.and_eq_true, Option.isNone_iff_eq_none] at hb
      exact ⟨hx, hb.2⟩
    next => exact nomatch run
  next => exact nomatch run

/-- A step that changes nothing but the head of a context. -/
structure HeadGoes (s u : State) (k : Nat) (c : Cmd) : Prop where
  head : headOf u k = some c
  memory : MemFrame s u
  net : u.net = s.net
  leaves : u.en.leaves = s.en.leaves

theorem headGoes_refl (h : headOf s k = some c) : HeadGoes s s k c := ⟨h, .of_eq rfl rfl, rfl, rfl⟩

theorem HeadGoes.modHead (h : HeadGoes s u k c) (hu : Canonical u) {f : Cmd → Cmd} : HeadGoes s (modHead u k f) k (f c) where
  head := by rw [headOf_modHead hu, h.head]; rfl
  memory := h.memory.trans (.of_eq (modHead_keeps State.gm (fun _ _ => rfl) _ _ _) (modHead_keeps State.ls (fun _ _ => rfl) _ _ _))
  net := (modHead_keeps State.net (fun _ _ => rfl) _ _ _).trans h.net
  leaves := (modHead_keeps (fun a => a.en.leaves) (fun _ _ => rfl) _ _ _).trans h.leaves

theorem HeadGoes.finish_err (h : HeadGoes s u k c) (hu : Canonical u) {off : Nat} :
    HeadGoes s (finish u k 2 off) k { c with status := some 2, stopAt := off } := h.modHead hu (f := ended 2 off)

theorem HeadGoes.finish_ok (h : HeadGoes s u k c) (hu : Canonical u) {off : Nat} :
    HeadGoes s (finish u k 0 off) k { c with status := some 0 } := h.modHead hu (f := ended 0 off)

/-- The head of a context is a command, but for the lines that it last asked for. -/
def HeadLike (u : State) (k : Nat) (c : Cmd) : Prop := ∃ l, headOf u k = some { c with lines := l }

theorem HeadLike.ends (h : HeadLike u k c) : ∃ x, headOf u k = some x ∧ butLines x c :=
  have ⟨_, hl⟩ := h
  ⟨_, hl, rfl⟩

theorem headLike_of_head (h : headOf u k = some c) : HeadLike u k c := ⟨c.lines, h⟩

theorem HeadLike.congr (h : HeadLike s k c) (he : u.en = s.en) : HeadLike u k c :=
  have ⟨l, hl⟩ := h
  ⟨l, (congrArg (fun e : En => (tgetD e.ctxs k {}).queue.head?) he).trans hl⟩

theorem HeadLike.modHead (h : HeadLike u k c) (hu : Canonical u) {f : Cmd → Cmd}
    (hf : ∀ l, ∃ l', f { c with lines := l } = { c' with lines := l' }) : HeadLike (modHead u k f) k c' := by
  obtain ⟨l, hl⟩ := h
  obtain ⟨l', hf⟩ := hf l
  exact ⟨l', by rw [headOf_modHead hu, hl, Option.map_some, hf]⟩

theorem HeadLike.finish_ok (h : HeadLike u k c) (hu : Canonical u) {off : Nat} :
    HeadLike (finish u k 0 off) k { c with status := some 0 } := h.modHead hu fun l => ⟨l, rfl⟩

end Sys2Proof.Machine

namespace Sys2Proof.Machine

variable {s u v : State} {k : Nat} {c : Cmd}

/-! ### Lines that are met (R225) -/

/-- The home caches read alike, and no line has left them. -/
structure LinesMet (g g' : Gm) : Prop extends SameLines g g' where
  here : ∀ l, (tget g.lines l).isSome = true → (tget g'.lines l).isSome = true

theorem LinesMet.refl (g : Gm) : LinesMet g g := ⟨⟨rfl, fun _ => rfl, fun _ => rfl⟩, fun _ h => h⟩

theorem LinesMet.trans {g g' g'' : Gm} (h : LinesMet g g') (h' : LinesMet g' g'') : LinesMet g g'' :=
  ⟨⟨h'.hbm.trans h.hbm, fun k => (h'.data k).trans (h.data k), fun k => (h'.poison k).trans (h.poison k)⟩,
    fun l hl => h'.here l (h.here l hl)⟩

theorem isSome_tget_tmod {α : Type} {t : Table α} {l j : Nat} {f : α → α} (h : (tget t l).isSome = true) :
    (tget (tmod t j f) l).isSome = true := by
  by_cases e : l = j
  · rw [e, tget_tmod_same, Option.isSome_map, ← e, h]
  · rwa [tget_tmod_other _ _ _ _ e]

theorem linesMet_withLine {g : Gm} {line : Nat} (h : (tget g.lines line).isSome = true) : LinesMet g (withLine g line) :=
  ⟨sameLines_withLine h, fun l hl => by rw [withLine_present h]; exact isSome_tget_tmod hl⟩

theorem linesMet_touchAll {g : Gm} {ps : List Nat} (h : ∀ p ∈ ps, (tget g.lines (p / 128)).isSome = true) :
    LinesMet g (touchAll g ps) := by
  induction ps with
  | nil => exact .refl g
  | cons p t ih =>
    have tail := ih fun q hq => h q (List.mem_cons_of_mem p hq)
    exact tail.trans (linesMet_withLine (tail.here _ (h p List.mem_cons_self)))

/-! ### What a translation and an access of global memory depend on (R254, R355) -/

/-- Two states in which accesses by page tables and overflow copies find the same. -/
structure SeesAlike (s u : State) : Prop where
  lines : LinesMet s.gm u.gm
  jb : u.jb = s.jb
  cf : u.cf = s.cf
  nd : u.nd = s.nd
  ovp : u.sr.ovp = s.sr.ovp

theorem walkFrom_congr {g g' : Gm} (h : SameLines g g') (vi va : Nat) (lvs : List Nat) (table : Nat) (acc : List Nat) :
    walkFrom g' vi va lvs table acc = walkFrom g vi va lvs table acc := by
  induction lvs generalizing table acc with
  | nil => rfl
  | cons lv more ih => simp only [walkFrom, paBytes_congr h.paByte, ih]

theorem SeesAlike.walk (h : SeesAlike s u) (vi va : Nat) : walk u vi va = walk s vi va := by
  simp only [Machine.walk, h.jb, walkFrom_congr h.lines.toSameLines]

theorem SeesAlike.devXlat (h : SeesAlike s u) (vi va : Nat) (a : Access) : devXlat u vi va a = devXlat s vi va a := by
  have allows : permits u = permits s := by
    funext t a va
    simp only [permits, h.jb]
  have xlat : xlatOf u = xlatOf s := by
    unfold xlatOf
    rw [allows]
  simp only [Machine.devXlat, h.walk, xlat]

theorem SeesAlike.present {vi va : Nat} (h : SeesAlike s u) (hp : Present s vi va) : Present u vi va := by
  obtain ⟨tables, page⟩ := hp
  rw [Present, h.walk]
  exact ⟨fun p hp => h.lines.here _ (tables p hp), fun t ht h0 => h.lines.here _ (page t ht h0)⟩

theorem SeesAlike.homeBytes (h : SeesAlike s u) (pa r n : Nat) : homeBytes u pa r n = homeBytes s pa r n := by
  simp only [Machine.homeBytes, paBytes_congr h.lines.paByte, h.nd]

theorem SeesAlike.homePoison (h : SeesAlike s u) (pa r n : Nat) : homePoison u pa r n = homePoison s pa r n := by
  simp only [Machine.homePoison, h.lines.poison, h.nd]

theorem SeesAlike.devGet (h : SeesAlike s u) (vi va n : Nat) : devGet u vi va n = devGet s vi va n := by
  induction n generalizing va with
  | zero => rfl
  | succ n ih => simp only [Machine.devGet, ih, h.devXlat, h.lines.paByte, h.nd]

theorem SeesAlike.devPoison (h : SeesAlike s u) (vi va : Nat) : devPoison u vi va = devPoison s vi va := by
  simp only [Machine.devPoison, h.devXlat, h.lines.poison, h.nd]

theorem SeesAlike.copyBytes (h : SeesAlike s u) (vi a : Nat) (bs : List Byte) : copyBytes u vi a bs = copyBytes s vi a bs := by
  induction bs generalizing a with
  | nil => rfl
  | cons b t ih =>
    have holds : ovpHolds u = ovpHolds s := by
      funext vi a e
      simp only [ovpHolds, h.cf]
    have shared : ovpShared u = ovpShared s := by
      unfold ovpShared
      rw [holds, h.ovp]
    have byte : copyByte u = copyByte s := by
      unfold copyByte
      rw [shared, h.nd]
    rw [Machine.copyBytes, Machine.copyBytes, ih, byte]

/-! ### The lines that an access meets (R225, R263) -/

theorem lineRequest_keeps {β : Type} (p : State → β) (h : ∀ s r, p { s with sr := { s.sr with perfCnt := r } } = p s)
    (s : State) (die pa r : Nat) : p (lineRequest s die pa r) = p s := by
  have bumps (ev : Nat) : p (perfDie s die ev 1) = p s := by
    refine foldl_keeps p (fun a j => ?_) _ s
    unfold perfBump
    split
    · rfl
    · exact h _ _
  unfold lineRequest
  split
  · exact bumps _
  · split
    · exact bumps _
    · rfl

/-- Where a walk and its page are present, an access of the address fills no line. -/
theorem linesMet_touchAt {vi va : Nat} (hp : Present s vi va) : LinesMet s.gm (touchAt vi s va).gm := by
  obtain ⟨tables, page⟩ := hp
  have walked := linesMet_touchAll tables
  have noted {g : Gm} (t : TlbEntry) (hg : LinesMet s.gm g) : LinesMet s.gm (noteChecked { s with gm := g } t).gm := by
    dsimp only [noteChecked]
    split
    exacts [hg, ⟨⟨hg.hbm, hg.data, hg.poison⟩, hg.here⟩]
  dsimp only [touchAt]
  split
  next t ht =>
    split
    next h0 => exact noted t (walked.trans (linesMet_withLine (walked.here _ (page t ht h0))))
    next => exact noted t walked
  next => exact walked

/-- A translation that permits an access of this device's memory: the line of the address is present where its page is. -/
theorem present_hit {vi va pa : Nat} {a : Access} {ck : Bool} (hp : Present s vi va) (hx : devXlat s vi va a = .hit pa 0 ck) :
    (tget s.gm.lines (pa / 128)).isSome = true := by
  obtain ⟨-, page⟩ := hp
  unfold devXlat at hx
  split at hx
  · exact nomatch hx
  · exact nomatch hx
  next t ht =>
    unfold xlatOf at hx
    split at hx
    · obtain ⟨rfl, h0, -⟩ := Xlat.hit.inj hx
      exact page t ht h0
    · exact nomatch hx

end Sys2Proof.Machine

namespace Sys2Proof.Machine

variable {s u : State} {k : Nat} {c : Cmd}

/-! ### Where a handle's granules lie (R157, R237) -/

theorem cmdRec_congr (h : u.al.recs = s.al.recs) (c : Cmd) (hd : Nat) : cmdRec u c hd = cmdRec s c hd := by
  have held : heldRec u = heldRec s := by
    funext q r
    simp only [heldRec, h]
  have live : liveRec u = liveRec s := by
    funext q off
    simp only [liveRec, h]
  unfold cmdRec
  rw [held, live]

theorem cmdGranule_congr (h : u.al = s.al) (c : Cmd) (hd j : Nat) : cmdGranule u c hd j = cmdGranule s c hd j := by
  have place : recGranule u = recGranule s := by
    funext q r j
    simp only [recGranule, recVi, h]
  unfold cmdGranule
  rw [cmdRec_congr (congrArg Al.recs h), place]

/-! ### A command's reads (R172) -/

/-- What the reads of a command leave: lines are met and counted, and all else is as it was. -/
structure Looked (k : Nat) (c : Cmd) (s u : State) : Prop where
  canon : Canonical u
  head : HeadLike u k c
  lines : LinesMet s.gm u.gm
  rest : ∀ {β : Type} (p : State → β),
    (∀ s g q r, p { s with gm := g, en := { s.en with ctxs := q }, sr := { s.sr with perfCnt := r } } = p s) → p u = p s

theorem looked_refl (hs : Canonical s) (hh : HeadLike s k c) : Looked k c s s := ⟨hs, hh, .refl _, fun _ _ => rfl⟩

section
variable (h : Looked k c s u)
include h

theorem Looked.ls : u.ls = s.ls := h.rest State.ls fun _ _ _ _ => rfl
theorem Looked.al : u.al = s.al := h.rest State.al fun _ _ _ _ => rfl
theorem Looked.wk : u.wk = s.wk := h.rest State.wk fun _ _ _ _ => rfl
theorem Looked.net : u.net = s.net := h.rest State.net fun _ _ _ _ => rfl
theorem Looked.nd : u.nd = s.nd := h.rest State.nd fun _ _ _ _ => rfl

theorem Looked.sees : SeesAlike s u where
  lines := h.lines
  jb := h.rest State.jb fun _ _ _ _ => rfl
  cf := h.rest State.cf fun _ _ _ _ => rfl
  nd := h.nd
  ovp := h.rest (fun a => a.sr.ovp) fun _ _ _ _ => rfl

theorem Looked.memFrame : MemFrame s u := h.lines.memFrame h.ls

theorem Looked.granule (hd j : Nat) : cmdGranule u c hd j = cmdGranule s c hd j := cmdGranule_congr h.al c hd j

theorem Looked.state (l : GLoc) : locState u l = locState s l := by
  cases l with
  | here g => exact congrArg (gstAt · g) h.ls
  | copy vi d st => simp only [locState, h.sees.devGet, h.sees.copyBytes]

theorem Looked.fetch16 (side : Side) (off : Nat) : fetch16 u c side off = fetch16 s c side off := by
  have bytes : locBytes u 0 16 = locBytes s 0 16 := by
    funext l
    cases l with
    | here g => exact congrArg (fun x : Ls => bytesAt x.bytes _ 16) h.ls
    | copy vi d st => simp only [locBytes, h.sees.devGet, h.sees.copyBytes]
  have poison : locPoison u = locPoison s := by
    funext l
    unfold locPoison
    rw [h.state]
    cases l with
    | here g => rfl
    | copy vi d st => exact congrArg _ (h.sees.devPoison vi d)
  cases side with
  | addr a => simp only [Machine.fetch16, h.sees.devXlat, h.sees.homeBytes, h.sees.homePoison]
  | handle hd =>
    have field : locStateField u = locStateField s := by
      funext l
      unfold locStateField
      rw [h.state]
    dsimp only [Machine.fetch16]
    rw [h.granule, bytes, poison, field]

theorem Looked.engLine (n pa r : Nat) : Looked k c s (engLine u k n pa r) := by
  have asked : HeadLike (lineRequest u (ctxDie k) pa r) k c := h.head.congr (lineRequest_keeps State.en (fun _ _ => rfl) _ _ _ _)
  unfold Machine.engLine
  extract_lets line
  split
  · exact h
  · refine ⟨modHead_canon (lineRequest_canon h.canon), asked.modHead (lineRequest_canon h.canon) fun l => ⟨tput l n line, rfl⟩,
      ?_, fun p hp => ?_⟩
    · rw [modHead_keeps State.gm (fun _ _ => rfl), lineRequest_keeps State.gm (fun _ _ => rfl)]
      exact h.lines
    · rw [modHead_keeps p fun s q => hp s s.gm q s.sr.perfCnt, lineRequest_keeps p fun s r => hp s s.gm s.en.ctxs r, h.rest p hp]

theorem Looked.touchAt {vi va : Nat} (hp : Present s vi va) : Looked k c s (touchAt vi u va) where
  canon := touchAt_canon h.canon
  head := h.head.congr (touchAt_keeps State.en (fun _ _ => rfl) _ _ _)
  lines := h.lines.trans (linesMet_touchAt (h.sees.present hp))
  rest p hp := (touchAt_keeps p (fun s g => hp s g s.en.ctxs s.sr.perfCnt) _ _ _).trans (h.rest p hp)

theorem Looked.engCopyLine (n : Nat) (l : GLoc) : Looked k c s (engCopyLine u k n l) := by
  dsimp only [Machine.engCopyLine]
  split
  · exact h
  · split
    · refine Looked.engLine ?_ _ _ _
      split
      exacts [h.engLine _ _ _, h]
    · split
      exacts [h.engLine _ _ _, h]

/-- A read of a side whose lines are present only looks. -/
theorem Looked.fetchTouch {side : Side} {off : Nat} (hp : SidePresent s c side off) (hu : s.ls.upset = []) :
    Looked k c s (fetchTouch u k c side off) := by
  cases side with
  | addr a =>
    dsimp only [Machine.fetchTouch]
    split
    exacts [(h.engLine _ _ _).touchAt hp, h]
  | handle hd =>
    dsimp only [Machine.fetchTouch]
    split
    next l hl =>
      have copied := h.engCopyLine 0 l
      rw [h.granule] at hl
      cases l with
      | here g =>
        show Looked k c s (readCheck u (.here g))
        rw [readCheck_here (h.ls ▸ hu)]
        exact h
      | copy vi d st =>
        obtain ⟨hd, hst⟩ := hp vi d st hl
        exact (copied.touchAt hd).touchAt hst
    next => exact h

variable {side : Side} {off at_ : Nat} {f : State → List Byte → Bool → State}

/-- A read that gives bytes goes on with them. -/
theorem Looked.engRead_bytes {b : List Byte} {p : Bool} (hb : Machine.fetch16 s c side off = .bytes b p)
    (hp : SidePresent s c side off) (hu : s.ls.upset = []) :
    ∃ v, Looked k c s v ∧ engRead u k c side off at_ f = f v b p := by
  have look := h.fetchTouch hp hu
  refine ⟨_, look, ?_⟩
  dsimp only [engRead]
  rw [h.fetch16, hb]
  dsimp only
  rw [look.fetch16, hb]

theorem Looked.engRead_wait (hb : Machine.fetch16 s c side off = .wait) : engRead u k c side off at_ f = u := by
  dsimp only [engRead]
  rw [h.fetch16, hb]
  dsimp only
  rw [h.fetch16, hb]

end

/-- A read of a local granule whose code word is sound looks at nothing else. -/
theorem fetchTouch_here {hd off g : Nat} (hg : cmdGranule s c hd (off / 16) = some (.here g)) (hu : s.ls.upset = []) :
    fetchTouch s k c (.handle hd) off = s := by
  dsimp only [fetchTouch]
  rw [hg]
  exact readCheck_here hu g

section
variable {hd off g at_ : Nat} {f : State → List Byte → Bool → State}

theorem fetch16_here (hg : cmdGranule s c hd (off / 16) = some (.here g)) :
    fetch16 s c (.handle hd) off = if gState s.ls g = 1 then .bytes (granuleAt s.ls g) (gPoison s.ls g) else .wait := by
  dsimp only [fetch16]
  rw [hg]
  exact congrArg (ite _ · _) (congrArg (Fetch.bytes _) (Bool.or_false _))

theorem engRead_here (hg : cmdGranule s c hd (off / 16) = some (.here g)) (hu : s.ls.upset = []) (full : gState s.ls g = 1) :
    engRead s k c (.handle hd) off at_ f = f s (granuleAt s.ls g) (gPoison s.ls g) := by
  dsimp only [engRead]
  rw [fetchTouch_here hg hu, fetch16_here hg, if_pos full]
  dsimp only
  rw [fetch16_here hg, if_pos full]

theorem engRead_notFull (hg : cmdGranule s c hd (off / 16) = some (.here g)) (empty : gState s.ls g ≠ 1) :
    engRead s k c (.handle hd) off at_ f = s := by
  dsimp only [engRead]
  rw [fetch16_here hg, if_neg empty]
  dsimp only
  rw [fetch16_here hg, if_neg empty]

theorem engRead_beyond (hg : cmdGranule s c hd (off / 16) = none) :
    engRead s k c (.handle hd) off at_ f = finish s k 2 at_ := by
  have none : fetch16 s c (.handle hd) off = .stop := by
    dsimp only [fetch16]
    rw [hg]
  dsimp only [engRead]
  rw [none]
  dsimp only
  rw [none]

theorem engRead_reads {b : List Byte} (h : Reads s c hd off g b) (hu : s.ls.upset = []) :
    engRead s k c (.handle hd) off at_ f = f s b false := by
  rw [engRead_here h.place hu h.full, h.bytes, h.clean]

end

/-! ### Several reads (R172) -/

section
variable {rs : List (Side × Nat)} {at_ : Nat → Nat} {f : State → List (Nat × Bool) → State}

/-- Where every read gives its bytes, they are made one after another, and find what stands now. -/
theorem Looked.engReadsFrom (h : Looked k c s u) (hu : s.ls.upset = []) (ready : readsReady s c rs = true)
    (hp : ReadsPresent s c rs) (acc : List (Nat × Bool)) :
    ∃ v, Looked k c s v ∧ engReadsFrom u k c at_ rs acc f = f v (acc.reverse ++ fetched s c rs) := by
  induction rs generalizing u acc with
  | nil => exact ⟨u, h, congrArg _ (List.append_nil _).symm⟩
  | cons r t ih =>
    obtain ⟨side, off⟩ := r
    obtain ⟨first, more⟩ : (∃ b p, Machine.fetch16 s c side off = .bytes b p) ∧ readsReady s c t = true := by
      simp only [readsReady, List.all_cons, Bool.and_eq_true] at ready
      obtain ⟨first, more⟩ := ready
      refine ⟨?_, more⟩
      split at first
      next b p hb => exact ⟨b, p, hb⟩
      next => exact nomatch first
    obtain ⟨b, p, hb⟩ := first
    obtain ⟨v, hv, read⟩ := h.engRead_bytes (at_ := at_ off)
      (f := fun s1 b p => Machine.engReadsFrom s1 k c at_ t ((natOfBytes b, p) :: acc) f) hb (hp _ List.mem_cons_self) hu
    obtain ⟨w, hw, rest⟩ := ih hv more (fun e he => hp e (List.mem_cons_of_mem _ he)) ((natOfBytes b, p) :: acc)
    refine ⟨w, hw, read.trans (rest.trans ?_)⟩
    simp only [fetched, List.map_cons, hb, List.reverse_cons, List.append_assoc, List.singleton_append]

theorem readsWait_ready (ready : readsReady s c rs = true) : readsWait s c rs = false := by
  unfold readsWait
  rw [List.findSome?_eq_none_iff.mpr]
  · rfl
  · intro x hx
    have bytes := List.all_eq_true.mp ready x hx
    split at bytes
    next b p hb => rw [hb]
    next => exact nomatch bytes

theorem engReads_ready (hs : Canonical s) (hh : HeadLike s k c) (hu : s.ls.upset = []) (ready : readsReady s c rs = true)
    (hp : ReadsPresent s c rs) : ∃ v, Looked k c s v ∧ engReads s k c at_ rs f = f v (fetched s c rs) := by
  obtain ⟨v, hv, read⟩ := (looked_refl hs hh).engReadsFrom (at_ := at_) (f := f) hu ready hp []
  refine ⟨v, hv, (if_neg ?_).trans read⟩
  rw [readsWait_ready ready]
  exact Bool.false_ne_true

/-- Reads of granules that exist wait as long as one of them is not FULL. -/
theorem engReads_wait (granules : ∀ x ∈ rs, ∃ hd, x.1 = .handle hd) (inside : ∀ x ∈ rs, fetch16 s c x.1 x.2 ≠ .stop)
    (ready : readsReady s c rs = false) : engReads s k c at_ rs f = s := by
  refine if_pos ?_
  have waits (x : Side × Nat) (hx : x ∈ rs) : (∃ b p, fetch16 s c x.1 x.2 = .bytes b p) ∨ fetch16 s c x.1 x.2 = .wait := by
    have not := inside x hx
    obtain ⟨hd, e⟩ := granules x hx
    rw [e] at not ⊢
    dsimp only [fetch16] at not ⊢
    split at not
    · exact absurd rfl not
    · split
      exacts [.inl ⟨_, _, rfl⟩, .inr rfl]
  clear granules inside
  induction rs with
  | nil => exact nomatch ready
  | cons x t ih =>
    rcases waits x List.mem_cons_self with ⟨b, p, hb⟩ | hw
    · simp only [readsReady, List.all_cons, hb, Bool.true_and] at ready
      simp only [readsWait, List.findSome?_cons, hb]
      exact ih ready fun y hy => waits y (List.mem_cons_of_mem x hy)
    · simp only [readsWait, List.findSome?_cons, hw, Option.getD_some]

end

end Sys2Proof.Machine

namespace Sys2Proof.Machine

variable {s u v : State} {k : Nat} {c : Cmd}

/-! ### State bytes of granules (R218) -/

theorem vote3_same (x : BitVec 8) : vote3 x x x = x := by simp [vote3]

theorem tsorted_of_twf {α : Type} [DecidableEq α] {d : α} {t : Table α} (h : twf d t = true) : tsorted none t = true := by
  rw [twf, Bool.and_eq_true] at h
  exact h.1

theorem gstAt_setGst_same {l : Ls} (hl : LsCanonical l) (g x : Nat) : gstAt (setGst l g x) g = votedState (x % 256) := by
  unfold gstAt setGst
  dsimp only
  rw [tgetD_tputD_same _ _ _ _ (tsorted_of_twf hl.granules), tgetD_tputD_same _ _ _ _ (tsorted_of_twf hl.granules1),
    tgetD_tputD_same _ _ _ _ (tsorted_of_twf hl.granules2), vote3_same, BitVec.toNat_ofNat]

theorem gstAt_setGst_other {l : Ls} (hl : LsCanonical l) {g g' : Nat} (x : Nat) (h : g' ≠ g) :
    gstAt (setGst l g x) g' = gstAt l g' := by
  unfold gstAt setGst
  dsimp only
  rw [tgetD_tputD_other _ _ _ _ _ h (tsorted_of_twf hl.granules), tgetD_tputD_other _ _ _ _ _ h (tsorted_of_twf hl.granules1),
    tgetD_tputD_other _ _ _ _ _ h (tsorted_of_twf hl.granules2)]

/-- A vote never yields STATE 11. -/
theorem votedState_not_three (x : Nat) : votedState x % 4 ≠ 3 := by
  unfold votedState setBits bits
  split <;> omega

theorem votedState_of_sound {x : Nat} (h : x % 4 ≠ 3) : votedState x = x := if_neg h

theorem votedState_lt {x : Nat} (h : x < 256) : votedState x < 256 := by
  unfold votedState setBits bits
  split <;> omega

theorem gstAt_lt (l : Ls) (g : Nat) : gstAt l g < 256 := votedState_lt (BitVec.isLt _)

/-- A state byte that is set restarts quiet times, and changes nothing else but the byte (R237). -/
theorem setLocState_here (s : State) (x g : Nat) :
    ∃ q, setLocState s x (.here g) = { s with ls := setGst s.ls g x, al := { s.al with arenas := q } } := by
  dsimp only [setLocState]
  split
  exacts [⟨_, rfl⟩, ⟨_, rfl⟩]

/-- The state byte of a granule in which one field has been set. -/
theorem gstAt_setLocField (hs : Canonical s) (g lo w x : Nat) :
    gstAt (setLocField s (.here g) lo w x).ls g = votedState (setBits (gstAt s.ls g) lo w x % 256) := by
  obtain ⟨q, set⟩ := setLocState_here s (setBits (gstAt s.ls g) lo w x) g
  exact (congrArg (fun a : State => gstAt a.ls g) set).trans (gstAt_setGst_same hs.ls _ _)

/-- A granule's poison is set first, then its state: both stand. -/
theorem gst_poison_then_state (hs : Canonical s) (g : Nat) (p : Bool) :
    let l := (setLocField (setLocField s (.here g) 3 1 (b1 p)) (.here g) 0 2 stFull).ls
    gState l g = 1 ∧ gPoison l g = p := by
  intro l
  have sound := votedState_not_three (vote3 (tgetD s.ls.gst g 0) (tgetD s.ls.gst1 g 0) (tgetD s.ls.gst2 g 0)).toNat
  have small := gstAt_lt s.ls g
  have first := gstAt_setLocField hs g 3 1 (b1 p)
  have second := gstAt_setLocField (setLocField_canon (l := .here g) (lo := 3) (w := 1) (v := b1 p) hs) g 0 2 stFull
  change gstAt s.ls g % 4 ≠ 3 at sound
  have bit : b1 p ≤ 1 := by cases p <;> decide
  have poisoned : setBits (gstAt s.ls g) 3 1 (b1 p) = gstAt s.ls g / 16 * 16 + b1 p * 8 + gstAt s.ls g % 8 := by
    simp only [setBits, bits]
    omega
  rw [poisoned, votedState_of_sound (by omega)] at first
  have full : setBits (gstAt (setLocField s (.here g) 3 1 (b1 p)).ls g) 0 2 stFull =
      gstAt s.ls g / 16 * 16 + b1 p * 8 + gstAt s.ls g % 8 / 4 * 4 + 1 := by
    rw [first]
    simp only [setBits, bits, stFull]
    omega
  rw [full, votedState_of_sound (by omega)] at second
  refine ⟨?_, ?_⟩
  · unfold gState bits
    rw [second]
    omega
  · have third : bits (gstAt l g) 3 1 = b1 p := by
      unfold bits
      rw [second]
      omega
    unfold gPoison
    rw [third]
    cases p <;> rfl

/-- A granule that is emptied is EMPTY. -/
theorem gState_emptied (hs : Canonical s) (g : Nat) : gState (setLocField s (.here g) 0 2 stEmpty).ls g = 0 := by
  have small := gstAt_lt s.ls g
  have emptied : setBits (gstAt s.ls g) 0 2 stEmpty = gstAt s.ls g / 4 * 4 := by
    simp only [setBits, bits, stEmpty]
    omega
  unfold gState bits
  rw [gstAt_setLocField hs, emptied, votedState_of_sound (by omega)]
  omega

end Sys2Proof.Machine

namespace Sys2Proof.Machine

variable {s u v : State} {k : Nat} {c : Cmd}

/-! ### What an engine's write leaves of the tasks and their records (R149, R172, R288) -/

/-- A task but for its write set. -/
def Task.published (t : Task) : Task := { t with writes := [] }

/-- No record, no engine, and of a task no more than its write set has changed. -/
structure RecsKept (s u : State) : Prop where
  canon : Canonical u
  recs : u.al.recs = s.al.recs
  en : u.en = s.en
  tasks : ∀ j, (taskAt u j).map Task.published = (taskAt s j).map Task.published

theorem recsKept_refl (hs : Canonical s) : RecsKept s s := ⟨hs, rfl, rfl, fun _ => rfl⟩

theorem RecsKept.trans (h : RecsKept s u) (h' : RecsKept u v) : RecsKept s v :=
  ⟨h'.canon, h'.recs.trans h.recs, h'.en.trans h.en, fun j => (h'.tasks j).trans (h.tasks j)⟩

theorem RecsKept.cmdTask (h : RecsKept s u) (c : Cmd) : cmdTask u c = cmdTask s c := by
  have view (a : State) : Machine.cmdTask a c =
      ((taskAt a c.tid).map Task.published).bind fun t => if t.order = c.order then some c.tid else none := by
    unfold Machine.cmdTask
    cases taskAt a c.tid <;> rfl
  rw [view, view, h.tasks]

theorem RecsKept.task (h : RecsKept s u) {j : Nat} {t : Task} (ht : taskAt s j = some t) :
    ∃ t', taskAt u j = some t' ∧ t'.published = t.published := by
  have same := h.tasks j
  rw [ht] at same
  exact Option.map_eq_some_iff.mp same

/-- Where a granule lies in local store depends on the records alone. -/
theorem recGranule_here {q j g : Nat} {r : Rec} (h : recGranule s q r j = .here g) : recGranule u q r j = .here g := by
  unfold recGranule at h ⊢
  split at h
  · exact nomatch h
  next hr => exact (if_neg hr).trans h

theorem cmdGranule_here_of (h : u.al.recs = s.al.recs) {hd j g : Nat} (hg : cmdGranule s c hd j = some (.here g)) :
    cmdGranule u c hd j = some (.here g) := by
  unfold cmdGranule at hg ⊢
  rw [cmdRec_congr h]
  split at hg
  next q r hr =>
    split at hg
    next hj => exact (if_pos hj).trans (congrArg some (recGranule_here (Option.some.inj hg)))
    next => exact nomatch hg
  next => exact nomatch hg

theorem cmdGranule_here_iff (h : u.al.recs = s.al.recs) {hd j g : Nat} :
    cmdGranule u c hd j = some (.here g) ↔ cmdGranule s c hd j = some (.here g) :=
  ⟨cmdGranule_here_of h.symm, cmdGranule_here_of h⟩

theorem ownGranule_of (h : u.al.recs = s.al.recs) {t t' : Task} (ht : t'.published = t.published) {g : Nat}
    (hg : ownGranule s t g) : ownGranule u t' g := by
  obtain ⟨j, hj, place⟩ := hg
  refine ⟨j, hj, ?_⟩
  unfold carveGranule at place ⊢
  have carve : t'.carve = t.carve := show t'.published.carve = t.published.carve by rw [ht]
  rw [h, carve]
  split at place
  next r hr =>
    split at place
    next hl => exact (if_pos hl).trans (congrArg some (recGranule_here (Option.some.inj place)))
    next => exact nomatch place
  next => exact nomatch place

/-! ### A granule of local store that is written (R172, R218) -/

/-- The granules of local store are as they were but for one, whose state may have changed; the bytes are these. -/
structure StoreIs (g : Nat) (m : List Host.Cell) (s u : State) : Prop extends RecsKept s u where
  bytes : u.ls.bytes = m
  others : ∀ g', g' ≠ g → gstAt u.ls g' = gstAt s.ls g'

section
variable {g : Nat} {m : List Host.Cell}

theorem storeIs_refl (hs : Canonical s) (g : Nat) : StoreIs g s.ls.bytes s s := ⟨recsKept_refl hs, rfl, fun _ _ => rfl⟩

theorem StoreIs.of_eq (h : StoreIs g m s u) (hv : Canonical v) (ha : v.al.recs = u.al.recs) (he : v.en = u.en)
    (ht : v.wk.tasks = u.wk.tasks) (hb : v.ls.bytes = u.ls.bytes) (hg : ∀ g', g' ≠ g → gstAt v.ls g' = gstAt u.ls g') :
    StoreIs g m s v where
  canon := hv
  recs := ha.trans h.recs
  en := he.trans h.en
  tasks j := (congrArg (fun t : Table Task => (tget t j).map Task.published) ht).trans (h.tasks j)
  bytes := hb.trans h.bytes
  others g' hg' := (hg g' hg').trans (h.others g' hg')

theorem StoreIs.setTrack (h : StoreIs g m s u) (x : Nat) (y : TrackUnit) : StoreIs g m s (setTrack u x y) := by
  cases y <;> exact h.of_eq (setTrack_canon h.canon) rfl rfl rfl rfl fun _ _ => rfl

theorem StoreIs.publish (h : StoreIs g m s u) (tid scope : Nat) : StoreIs g m s (publish u tid scope) := by
  have noted {a : State} (ha : StoreIs g m s a) (x : TrackUnit) (pane : Nat) : StoreIs g m s (notePub a x pane) :=
    ha.of_eq { ha.canon with } rfl rfl rfl rfl fun _ _ => rfl
  unfold Machine.publish
  extract_lets die col one
  have folded : StoreIs g m s ((taskD u tid).writes.foldl one u) := by
    refine List.foldlRecOn (motive := StoreIs g m s) _ _ h fun a ha x _ => ?_
    unfold one
    dsimp only
    split
    · refine StoreIs.setTrack ?_ _ _
      split
      exacts [noted ha _ _, ha]
    · exact ha
  have written (a : State) (j : Nat) :
      (taskAt (modTask a tid fun t => { t with writes := [] }) j).map Task.published = (taskAt a j).map Task.published := by
    by_cases e : j = tid
    · rw [e, taskAt_modTask_same, Option.map_map]
      rfl
    · rw [taskAt_modTask_other _ _ _ _ e]
  exact ⟨⟨modTask_canon folded.canon fun _ h => h, folded.recs, folded.en, fun j => (written _ j).trans (folded.tasks j)⟩,
    folded.bytes, folded.others⟩

theorem StoreIs.setField (h : StoreIs g m s u) (lo w x : Nat) : StoreIs g m s (setLocField u (.here g) lo w x) := by
  have canon : Canonical (setLocField u (.here g) lo w x) := setLocField_canon h.canon
  obtain ⟨q, set⟩ := setLocState_here u (setBits (locState u (.here g)) lo w x) g
  unfold setLocField at canon ⊢
  rw [set] at canon ⊢
  exact h.of_eq canon rfl rfl rfl rfl fun g' hg' => gstAt_setGst_other h.canon.ls _ hg'

theorem StoreIs.dropHalf (h : StoreIs g m s u) (src : Option Nat) (n : Nat) : StoreIs g m s (dropHalf src u (.here g) n) := by
  dsimp only [Machine.dropHalf]
  split
  · exact (h.of_eq (v := post u _) (post_canon h.canon) rfl rfl rfl rfl fun _ _ => rfl).setField _ _ _
  · exact h

theorem StoreIs.setBytes (h : StoreIs g m s u) (bs : List Byte) :
    StoreIs g (setBytes m (granuleByte g) bs) s (setLocBytes u 0 bs (.here g)) where
  canon := setLocBytes_canon h.canon
  recs := h.recs
  en := h.en
  tasks := h.tasks
  bytes := congrArg (Machine.setBytes · (granuleByte g) bs) h.bytes
  others := h.others

/-- A granule of local store that an engine has filled. -/
structure Fills (g : Nat) (b : List Byte) (p : Bool) (s u : State) : Prop
    extends StoreIs g (setBytes s.ls.bytes (granuleByte g) b) s u where
  state : gState u.ls g = 1
  poison : gPoison u.ls g = p

theorem fills_engineFill (hs : Canonical s) (pane : Nat) (b : List Byte) (p : Bool) :
    Fills g b p s (engineFill s c pane (.here g) b p) := by
  unfold engineFill
  extract_lets full s1 s2 s3
  have h1 : StoreIs g s.ls.bytes s s1 := by
    unfold s1
    split
    next tid _ =>
      unfold publishIf
      split
      exacts [(storeIs_refl hs g).publish _ _, storeIs_refl hs g]
    next => exact storeIs_refl hs g
  have h2 : StoreIs g (setBytes s.ls.bytes (granuleByte g) b) s s2 := ((h1.dropHalf none 0).dropHalf none 1).setBytes b
  have h3 := (h2.setField 3 1 (b1 p)).setField 0 2 stFull
  obtain ⟨state, poison⟩ := gst_poison_then_state h2.canon g p
  exact ⟨h3.setTrack _ (.granule g), state, poison⟩

theorem Fills.granule {b : List Byte} {p : Bool} (h : Fills g b p s u) (hs : Canonical s) (hb : b.length = 16) :
    granuleAt u.ls g = b := by
  unfold granuleAt
  rw [h.bytes, ← hb]
  exact bytesAt_setBytes_same _ _ _ hs.bytes

theorem Fills.outside {b : List Byte} {p : Bool} (h : Fills g b p s u) (hs : Canonical s) (hb : b.length = 16) {a : Nat}
    (ha : a < granuleByte g ∨ granuleByte g + 16 ≤ a) : byteAt u.ls.bytes a = byteAt s.ls.bytes a := by
  rw [h.bytes]
  exact byteAt_setBytes_outside _ _ _ _ hs.bytes (hb ▸ ha)

/-- A write to a granule of local store that is no barrier fills it. -/
theorem engWrite_here {hd off at_ : Nat} {b : List Byte} {p : Bool} {f : State → State} (hs : Canonical s)
    (hg : cmdGranule s c hd (off / 16) = some (.here g)) (open_ : gState s.ls g ≠ 2) :
    ∃ u, engWrite s k c (.handle hd) off at_ b p f = f u ∧ Fills g b p s u := by
  refine ⟨_, ?_, fills_engineFill (c := c) hs ((handleRec hd).getD 0 / 4096) b p⟩
  dsimp only [engWrite]
  rw [hg]
  exact if_neg open_

end

/-! ### Several writes to the granules of a handle (R172) -/

/-- Writes of numbers, with poison, to granules of a handle. -/
def granuleWrites (hd : Nat) (ws : List (Nat × Nat × Bool)) : List (Side × Nat × Nat × Bool) :=
  ws.map fun w => (.handle hd, 16 * w.1, w.2)

/-- The granules of a handle hold the numbers written to them, and the rest of local store is as it was. -/
structure FillsAll (s u : State) (c : Cmd) (hd : Nat) (ws : List (Nat × Nat × Bool)) : Prop extends RecsKept s u where
  filled : ∀ w ∈ ws, ∀ g, cmdGranule s c hd w.1 = some (.here g) →
    granuleAt u.ls g = bytesOf 16 w.2.1 ∧ gState u.ls g = 1 ∧ gPoison u.ls g = w.2.2
  bytes : ∀ a, ¬ inGranules s c hd (ws.map Prod.fst) a → byteAt u.ls.bytes a = byteAt s.ls.bytes a
  states : ∀ g, (∀ w ∈ ws, cmdGranule s c hd w.1 ≠ some (.here g)) → gstAt u.ls g = gstAt s.ls g

theorem granuleAt_congr {l l' : Ls} {g : Nat} (h : ∀ a, a / 16 = g → byteAt l'.bytes a = byteAt l.bytes a) :
    granuleAt l' g = granuleAt l g :=
  List.ext_getElem (by simp [granuleAt]) fun i hi _ => by
    have small : i < 16 := by simpa [granuleAt] using hi
    simp only [granuleAt, bytesAt_getElem]
    exact h _ (by unfold granuleByte; omega)

theorem engWrites_fill {hd : Nat} {ws : List (Nat × Nat × Bool)} {f : State → State} (hs : Canonical s)
    (nodup : (ws.map Prod.fst).Nodup) (hw : Writable s c hd (ws.map Prod.fst)) :
    ∃ u, engWrites s k c (granuleWrites hd ws) f = f u ∧ FillsAll s u c hd ws := by
  induction ws generalizing s with
  | nil => exact ⟨s, rfl, recsKept_refl hs, nofun, fun _ _ => rfl, fun _ _ => rfl⟩
  | cons w t ih =>
    obtain ⟨opens, apart⟩ := hw
    rw [List.map_cons, List.nodup_cons] at nodup
    obtain ⟨fresh, nodup⟩ := nodup
    obtain ⟨g, hg, hopen⟩ := opens w.1 List.mem_cons_self
    obtain ⟨s1, first, fills⟩ := engWrite_here (k := k) (off := 16 * w.1) (at_ := 16 * w.1) (b := bytesOf 16 w.2.1) (p := w.2.2)
      (f := fun s1 => engWrites s1 k c (granuleWrites hd t) f) hs (by rwa [Nat.mul_div_cancel_left _ (by decide)]) hopen
    have here {j g'} : cmdGranule s1 c hd j = some (.here g') ↔ cmdGranule s c hd j = some (.here g') :=
      cmdGranule_here_iff fills.recs
    have other {j g'} (hj : j ∈ t.map Prod.fst) (hg' : cmdGranule s c hd j = some (.here g')) : g' ≠ g := by
      rintro rfl
      exact apart w.1 List.mem_cons_self j (List.mem_cons_of_mem _ hj) (fun e => fresh (e ▸ hj)) (hg.trans hg'.symm)
    have tail : Writable s1 c hd (t.map Prod.fst) := by
      refine ⟨fun j hj => ?_, fun i hi j hj hij e => ?_⟩
      · obtain ⟨g', hg', ho⟩ := opens j (List.mem_cons_of_mem _ hj)
        refine ⟨g', here.mpr hg', ?_⟩
        unfold gState
        rw [fills.others _ (other hj hg')]
        exact ho
      · obtain ⟨g', hg', -⟩ := opens i (List.mem_cons_of_mem _ hi)
        exact apart i (List.mem_cons_of_mem _ hi) j (List.mem_cons_of_mem _ hj) hij
          (hg'.trans (here.mp (e.symm.trans (here.mpr hg'))).symm)
    obtain ⟨u, rest, done⟩ := ih fills.canon nodup tail
    refine ⟨u, first.trans rest, fills.toRecsKept.trans done.toRecsKept, ?_, fun a ha => ?_, fun g' hg' => ?_⟩
    · rintro x (_ | ⟨_, hx⟩) g' hg'
      · obtain rfl : g' = g := GLoc.here.inj (Option.some.inj (hg'.symm.trans hg))
        have untouched : gstAt u.ls g' = gstAt s1.ls g' :=
          done.states g' fun x hx e => other (List.mem_map_of_mem hx) (here.mp e) rfl
        refine ⟨(granuleAt_congr fun a ha => done.bytes a ?_).trans (fills.granule hs (length_bytesOf _ _)), ?_, ?_⟩
        · rintro ⟨j, hj, g'', hg'', lo, hi⟩
          refine other hj (here.mp hg'') ?_
          unfold granuleByte at lo hi
          omega
        · exact (congrArg (bits · 0 2) untouched).trans fills.state
        · exact (congrArg (fun x => decide (bits x 3 1 = 1)) untouched).trans fills.poison
      · exact done.filled x hx g' (here.mpr hg')
    · refine (done.bytes a fun ⟨j, hj, g', hg', at_⟩ => ha ⟨j, List.mem_cons_of_mem _ hj, g', here.mp hg', at_⟩).trans ?_
      refine fills.outside hs (length_bytesOf _ _) ?_
      by_contra inside
      exact ha ⟨w.1, List.mem_cons_self, g, hg, by omega, by omega⟩
    · refine (done.states g' fun x hx e => hg' x (List.mem_cons_of_mem _ hx) (here.mp e)).trans (fills.others g' ?_)
      rintro rfl
      exact hg' w List.mem_cons_self hg

end Sys2Proof.Machine

namespace Sys2Proof.Machine

variable {s u v : State} {k : Nat} {c : Cmd}

/-! ### Flags of a command (R81, R192) -/

theorem cmdTask_some {tid : Nat} (h : cmdTask s c = some tid) : ∃ t, taskAt s tid = some t := by
  unfold cmdTask at h
  split at h
  next t ht =>
    split at h
    · exact ⟨t, Option.some.inj h ▸ ht⟩
    · exact nomatch h
  next => exact nomatch h

theorem taskD_of_taskAt {tid : Nat} {t : Task} (h : taskAt s tid = some t) : taskD s tid = t :=
  congrArg (fun o : Option Task => o.getD {}) h

theorem orFlags_congr {t t' : Task} (h : t'.regs = t.regs) (fl : FlagSet) : (orFlags t' fl).regs = (orFlags t fl).regs := by
  unfold orFlags
  split
  · exact h
  · simp only [setReg, regOf, h]

theorem orFlags_carve (t : Task) (fl : FlagSet) : (orFlags t fl).carve = t.carve := by
  unfold orFlags
  split <;> rfl

/-- What the flags of a command change: the register g61 of its task, in the carve-out too. -/
structure FlagsOnly (s u : State) (c : Cmd) (fl : FlagSet) : Prop where
  canon : Canonical u
  en : u.en = s.en
  flags : FlagsGo s u c fl
  states : ∀ g, gstAt u.ls g = gstAt s.ls g
  bytes : ∀ a, ¬ cmdOwn s c (a / 16) → byteAt u.ls.bytes a = byteAt s.ls.bytes a

theorem flagsOnly_cmdFlags (hs : Canonical s) (fl : FlagSet) : FlagsOnly s (cmdFlags s c fl) c fl := by
  have canon : Canonical (cmdFlags s c fl) := cmdFlags_canon hs
  unfold cmdFlags at canon ⊢
  split at canon
  next tid htid =>
    obtain ⟨t, ht⟩ := cmdTask_some htid
    unfold flagTask at canon ⊢
    split at canon
    next h0 =>
      rw [if_pos h0]
      exact ⟨canon, rfl, fun _ _ => by rw [orFlags, if_pos h0], fun _ => rfl, fun _ _ => rfl⟩
    next h0 =>
      rw [if_neg h0]
      have now : taskAt (modTask s tid fun t => orFlags t fl) tid = some (orFlags t fl) := by
        rw [taskAt_modTask_same, ht, Option.map_some]
      refine ⟨canon, storeReg_keeps State.en (fun _ _ _ => rfl) _ _ _, fun j hj => ?_, fun g => storeReg_gst _ _ _ g,
        fun a ha => ?_⟩
      · obtain rfl : j = tid := Option.some.inj (hj.symm.trans htid)
        rw [storeReg_keeps (fun a => taskD a j) (fun _ _ _ => rfl), taskD_of_taskAt now, taskD_of_taskAt ht]
      · refine storeReg_outside (modTask_canon hs fun _ => orFlags_regs) now (by decide) fun own => ha ⟨tid, t, htid, ht, ?_⟩
        obtain ⟨j, hj, place⟩ := own
        refine ⟨j, hj, ?_⟩
        rw [carveGranule, orFlags_carve] at place
        exact place
  next none =>
    exact ⟨canon, rfl, fun _ htid => (nomatch none.symm.trans htid), fun _ => rfl, fun _ _ => rfl⟩

/-! ### A row that is written (R81, R192) -/

/-- The granules of a handle have been written, and the flags have gone to the command's task. -/
structure RowWritten (s u : State) (c : Cmd) (hd : Nat) (ws : List (Nat × Nat × Bool)) (fl : FlagSet) : Prop where
  only : OnlyIn s u c hd (ws.map Prod.fst)
  flags : FlagsGo s u c fl
  filled : ∀ w ∈ ws, Filled s u c hd w.1 w.2.1 w.2.2

theorem cmdOwn_of (recs : u.al.recs = s.al.recs)
    (tasks : ∀ j, (taskAt u j).map Task.published = (taskAt s j).map Task.published) (hc : cmdTask u c = cmdTask s c)
    {g : Nat} (h : cmdOwn u c g) : cmdOwn s c g := by
  obtain ⟨tid, t, htid, ht, own⟩ := h
  have same := tasks tid
  rw [ht] at same
  obtain ⟨t', ht', e⟩ := Option.map_eq_some_iff.mp same.symm
  exact ⟨tid, t', hc.symm.trans htid, ht', ownGranule_of recs.symm e own⟩

theorem rowWritten_cmdFlags {hd : Nat} {ws : List (Nat × Nat × Bool)} {fl : FlagSet} (h : FillsAll s u c hd ws)
    (hf : FlagsOnly u v c fl) : RowWritten s v c hd ws fl := by
  have own {g : Nat} (hg : ¬ cmdOwn s c g) : ¬ cmdOwn u c g := fun o => hg (cmdOwn_of h.recs h.tasks (h.cmdTask c) o)
  refine ⟨fun a ha ho => (hf.bytes a (own ho)).trans (h.bytes a ha), fun tid htid => ?_, fun w hw g hg ho => ?_⟩
  · obtain ⟨t, ht⟩ := cmdTask_some htid
    obtain ⟨t', ht', e⟩ := h.task ht
    have regs : t'.regs = t.regs := show t'.published.regs = t.published.regs by rw [e]
    rw [hf.flags tid ((h.cmdTask c).trans htid), taskD_of_taskAt ht, taskD_of_taskAt ht', orFlags_congr regs]
  · obtain ⟨bytes, state, poison⟩ := h.filled w hw g hg
    have kept : granuleAt v.ls g = granuleAt u.ls g := granuleAt_congr fun a ha => hf.bytes a (ha ▸ own ho)
    exact ⟨kept.trans bytes, (congrArg (bits · 0 2) (hf.states g)).trans state,
      (congrArg (fun x => decide (bits x 3 1 = 1)) (hf.states g)).trans poison⟩

theorem RowWritten.congr {hd : Nat} {ws : List (Nat × Nat × Bool)} {fl : FlagSet} (h : RowWritten s u c hd ws fl)
    (hl : v.ls = u.ls) (hw : v.wk = u.wk) : RowWritten s v c hd ws fl where
  only a ha ho := (congrArg (fun l : Ls => byteAt l.bytes a) hl).trans (h.only a ha ho)
  flags tid htid := (congrArg (fun w : Wk => (tgetD w.tasks tid {}).regs) hw).trans (h.flags tid htid)
  filled w hw g hg ho := by
    rw [hl]
    exact h.filled w hw g hg ho

/-- Reads that came before a row's writes change nothing of what the writes are told by. -/
theorem RowWritten.of_looked {hd : Nat} {ws : List (Nat × Nat × Bool)} {fl : FlagSet} (look : Looked k c s u)
    (h : RowWritten u v c hd ws fl) : RowWritten s v c hd ws fl := by
  have task : cmdTask u c = cmdTask s c := by
    unfold cmdTask taskAt
    rw [look.wk]
  have own {g : Nat} : cmdOwn u c g → cmdOwn s c g :=
    cmdOwn_of (congrArg Al.recs look.al) (fun j => congrArg (fun w : Wk => (tget w.tasks j).map Task.published) look.wk) task
  refine ⟨fun a ha ho => (h.only a (fun hin => ha ?_) (ho ∘ own)).trans (congrArg (fun l : Ls => byteAt l.bytes a) look.ls),
    fun tid htid => (h.flags tid (task.trans htid)).trans ?_,
    fun w hw g hg ho => h.filled w hw g ((look.granule _ _).trans hg) (ho ∘ own)⟩
  · obtain ⟨j, hj, g, hg, place⟩ := hin
    exact ⟨j, hj, g, (look.granule hd j).symm.trans hg, place⟩
  · exact congrArg (fun w : Wk => (orFlags (tgetD w.tasks tid {}) fl).regs) look.wk

/-- A row of distinct granules is written, and then its flags. -/
theorem engWrites_row {hd : Nat} {ws : List (Nat × Nat × Bool)} {fl : FlagSet} {f : State → State} (hs : Canonical s)
    (nodup : (ws.map Prod.fst).Nodup) (hw : Writable s c hd (ws.map Prod.fst)) :
    ∃ u, engWrites s k c (granuleWrites hd ws) (fun s1 => f (cmdFlags s1 c fl)) = f u ∧ Canonical u ∧ u.en = s.en ∧
      RowWritten s u c hd ws fl := by
  obtain ⟨u, wrote, fills⟩ := engWrites_fill (k := k) (f := fun s1 => f (cmdFlags s1 c fl)) hs nodup hw
  have flagged := flagsOnly_cmdFlags (c := c) fills.canon fl
  exact ⟨_, wrote, flagged.canon, flagged.en.trans fills.en, rowWritten_cmdFlags fills flagged⟩

end Sys2Proof.Machine

namespace Sys2Proof.Machine

variable {s u v : State} {k : Nat} {c : Cmd}

/-! ### Writes to global memory (R149, R172, R288) -/

theorem linesMet_setTrack {x line h : Nat} (here : (tget s.gm.lines line).isSome = true) :
    LinesMet s.gm (setTrack s x (.half line h)).gm := by
  obtain ⟨l, hl⟩ := Option.isSome_iff_exists.mp here
  have fill : fillLine s.gm line = s.gm := by
    simp only [fillLine, hl]
  have word : (setTrack s x (.half line h)).gm = { s.gm with lines := tmod s.gm.lines line fun l =>
      if h = 0 then { l with track0 := BitVec.ofNat 24 x, dirty := true }
      else { l with track1 := BitVec.ofNat 24 x, dirty := true } } := by
    dsimp only [setTrack]
    rw [fill]
  rw [word]
  refine ⟨⟨rfl, fun j => ?_, fun j => ?_⟩, fun j hj => isSome_tget_tmod hj⟩
  all_goals
    by_cases e : j = line
    · subst e
      simp only [lineAt, tget_tmod_same, hl, Option.map_some, Option.getD_some]
      split <;> rfl
    · simp only [lineAt, tget_tmod_other _ _ _ _ e]
      rfl

theorem engineStore_eq (g : Gm) (pa : Nat) (bs : List Byte) (p : Bool) (id : Nat) :
    ∃ f : Line → Line, (∀ l, (f l).data = l.data) ∧ (p = true → ∀ l, (f l).poison = true) ∧
      engineStore g pa bs p id = writeLine g pa (bs.map some) f := by
  cases p with
  | false => exact ⟨coverLine id (pa % 128) bs.length, fun l => coverLine_data _ _ _ l, nofun, rfl⟩
  | true => exact ⟨poisoned, fun _ => rfl, fun _ _ => rfl, rfl⟩

/-- Sixteen bytes written to this device's memory by a command that has only looked so far. -/
theorem Looked.engWrite_addr (look : Looked k c s u) {a off at_ pa : Nat} {ck p : Bool} {b : List Byte} {f : State → State}
    (hp : Present s c.origin.vi ((a + off) % 2 ^ 52))
    (hx : devXlat s c.origin.vi ((a + off) % 2 ^ 52) .write = .hit pa 0 ck) (aligned : pa % 16 = 0) (hb : b.length = 16) :
    ∃ v, engWrite u k c (.addr a) off at_ b p f = f v ∧ Canonical v ∧ HeadLike v k c ∧ SideHolds s v c (.addr a) off b p := by
  let s1 := Machine.engLine (Machine.touchAt c.origin.vi u ((a + off) % 2 ^ 52)) k 1 pa 0
  let s2 : State := { s1 with gm := engineStore s1.gm pa b p (cmdId k c) }
  let s3 := if ck then publishUnit s2 c.tid (halfUnit pa) else s2
  have look1 : Looked k c s s1 := (look.touchAt hp).engLine 1 pa 0
  have runs : engWrite u k c (.addr a) off at_ b p f = f s3 := by
    dsimp only [engWrite]
    rw [look.sees.devXlat, hx]
    rfl
  have line1 : (tget s1.gm.lines (pa / 128)).isSome = true := look1.lines.here _ (present_hit hp hx)
  obtain ⟨g, data, poison, store⟩ := engineStore_eq s1.gm pa b p (cmdId k c)
  have fits : pa % 128 + (b.map some).length ≤ 128 := by
    rw [List.length_map, hb]
    omega
  have frame2 : GlobalFrame s1 s2 pa 16 := by
    have := globalFrame_writeLine (s := s1) (bs := b.map some) line1 data (u := s2) store rfl
    rwa [List.length_map, hb] at this
  have bytes2 : paBytes s2.gm pa 16 = b := by
    have : ∀ i (hi : i < b.length), paByte s2.gm (pa + i) = b[i] := by
      intro i hi
      show paByte (engineStore s1.gm pa b p (cmdId k c)) (pa + i) = b[i]
      rw [store, paByte_writeLine_inside line1 data fits (by simpa using hi)]
      simp [hi]
    exact hb ▸ paBytes_eq this
  have poison2 (hp : p = true) : (lineAt s2.gm (pa / 128)).poison = true :=
    (congrArg (fun g => (lineAt g (pa / 128)).poison) store).trans (lineAt_poisoned line1 (poison hp))
  have line2 : (tget s2.gm.lines (pa / 128)).isSome = true := by
    show (tget (engineStore s1.gm pa b p (cmdId k c)).lines (pa / 128)).isSome = true
    rw [store]
    exact isSome_tget_tmod (withLine_isSome line1)
  have canon2 : Canonical s2 := withGm_canon look1.canon (engineStore_canon look1.canon.gm)
  have rest3 : LinesMet s2.gm s3.gm ∧ s3.ls = s2.ls ∧ s3.en = s2.en ∧ Canonical s3 := by
    unfold s3
    split
    · exact ⟨linesMet_setTrack line2, rfl, rfl, setTrack_canon canon2⟩
    · exact ⟨.refl _, rfl, rfl, canon2⟩
  obtain ⟨lines3, ls3, en3, canon3⟩ := rest3
  refine ⟨s3, runs, canon3, look1.head.congr en3, fun pa' ck' hx' => ?_⟩
  obtain ⟨rfl, -, -⟩ := Xlat.hit.inj (hx.symm.trans hx')
  have mem3 := lines3.memFrame (u := s3) ls3
  exact ⟨(paBytes_congr lines3.paByte pa 16).trans bytes2, fun hp => (lines3.poison _).trans (poison2 hp),
    look1.memFrame.globalFrame ⟨fun a => (mem3.hbm a).trans (frame2.hbm a), fun a ha => (mem3.global a).trans (frame2.global a ha),
      fun a => (mem3.store a).trans (frame2.store a)⟩⟩

/-- Sixteen bytes written to an open side by a command that has only looked so far. -/
theorem Looked.engWrite_open (look : Looked k c s u) {side : Side} {off at_ : Nat} {p : Bool} {b : List Byte}
    {f : State → State} (ho : SideOpen s c side off) (hb : b.length = 16) :
    ∃ v, engWrite u k c side off at_ b p f = f v ∧ Canonical v ∧ HeadLike v k c ∧ SideHolds s v c side off b p := by
  cases side with
  | addr a =>
    obtain ⟨hp, pa, ck, hx, aligned⟩ := ho
    exact look.engWrite_addr hp hx aligned hb
  | handle hd =>
    obtain ⟨g, hg, notBarrier⟩ := ho
    obtain ⟨v, runs, fills⟩ := engWrite_here (k := k) (at_ := at_) (b := b) (p := p) (f := f) look.canon
      ((look.granule _ _).trans hg) (by rwa [look.ls])
    refine ⟨v, runs, fills.canon, look.head.congr fills.en, fun g' hg' => ?_⟩
    obtain rfl : g' = g := GLoc.here.inj (Option.some.inj (hg'.symm.trans hg))
    refine ⟨fills.granule look.canon hb, fills.state, fills.poison, fun a ha => ?_⟩
    rw [fills.outside look.canon hb ha, look.ls]

/-- The head moves on after the write. -/
theorem SideHolds.congr {side : Side} {off : Nat} {b : List Byte} {p : Bool} (h : SideHolds s u c side off b p)
    (hg : v.gm = u.gm) (hl : v.ls = u.ls) : SideHolds s v c side off b p := by
  cases side with
  | addr a =>
    intro pa ck hx
    obtain ⟨bytes, poison, frame⟩ := h pa ck hx
    rw [hg]
    exact ⟨bytes, poison, ⟨fun a => hg ▸ frame.hbm a, fun a ha => hg ▸ frame.global a ha, fun a => hl ▸ frame.store a⟩⟩
  | handle hd =>
    intro g hg'
    rw [hl]
    exact h g hg'

theorem fetch16_length {side : Side} {off : Nat} {b : List Byte} {p : Bool} (h : fetch16 s c side off = .bytes b p) :
    b.length = 16 := by
  have pas (g : Gm) (pa n : Nat) : (paBytes g pa n).length = n := by
    induction n generalizing pa with
    | zero => rfl
    | succ n ih => exact congrArg Nat.succ (ih _)
  have gets (vi va n : Nat) : (devGet s vi va n).length = n := by
    induction n generalizing va with
    | zero => rfl
    | succ n ih => exact congrArg Nat.succ (ih _)
  have copies (vi a : Nat) (bs : List Byte) : (copyBytes s vi a bs).length = bs.length := by
    induction bs generalizing a with
    | nil => rfl
    | cons x t ih => exact congrArg Nat.succ (ih _)
  cases side with
  | addr a =>
    dsimp only [fetch16] at h
    split at h
    · obtain ⟨rfl, -⟩ := Fetch.bytes.inj h
      unfold homeBytes
      split
      · exact pas _ _ _
      · simp
    · exact nomatch h
    · exact nomatch h
  | handle hd =>
    dsimp only [fetch16] at h
    split at h
    · exact nomatch h
    next l _ =>
      split at h
      · obtain ⟨rfl, -⟩ := Fetch.bytes.inj h
        cases l with
        | here g => exact bytesAt_length _ _ _
        | copy vi d st => exact (copies _ _ _).trans (gets _ _ _)
      · exact nomatch h

end Sys2Proof.Machine

namespace Sys2Proof.Machine

variable {s u v : State} {k : Nat} {c : Cmd} {g : Gather}

/-! ### GATHER_ROW (R182) -/

/-- The command that goes on to its next row, or ends with its last. -/
def nextRow (g : Gather) (c : Cmd) : Cmd :=
  { c with row := c.row + 1, off := 0, elem := none, status := if c.row + 1 < g.rows then none else some 0 }

/-- The command that goes on to its next granule. -/
def nextGranule (g : Gather) (c : Cmd) : Cmd := if c.off + 16 < g.rowBytes then { c with off := c.off + 16 } else nextRow g c

theorem rowNext_within {off : Nat} (h : off < g.rowBytes) (s : State) (k row : Nat) :
    rowNext s k g row off = modHead s k fun x => { x with off := off } := if_pos h

theorem rowNext_row {off : Nat} (h : ¬ off < g.rowBytes) (s : State) (k row : Nat) :
    rowNext s k g row off =
      if row + 1 < g.rows then modHead s k fun x => { x with row := row + 1, off := 0, elem := none }
      else finish (modHead s k fun x => { x with row := row + 1, off := 0, elem := none }) k 0 0 := if_neg h

theorem rowNext_keeps {β : Type} (p : State → β) (h : ∀ s q, p { s with en := { s.en with ctxs := q } } = p s) (s : State)
    (k row off : Nat) : p (rowNext s k g row off) = p s := by
  unfold rowNext
  split
  · exact modHead_keeps p h _ _ _
  · dsimp only
    split
    · exact modHead_keeps p h _ _ _
    · exact (modHead_keeps p h _ _ _).trans (modHead_keeps p h _ _ _)

/-- The last granule of a row ends the row, and of the last row the command. -/
theorem HeadGoes.rowNext (h : HeadGoes s u k c) (hu : Canonical u) (hc : c.status = none) :
    HeadGoes s (rowNext u k g c.row g.rowBytes) k (nextRow g c) := by
  have moved := h.modHead hu (f := fun x => { x with row := c.row + 1, off := 0, elem := none })
  rw [rowNext_row (Nat.lt_irrefl _), nextRow]
  split
  · rwa [← hc]
  · exact moved.finish_ok (modHead_canon hu)

theorem HeadLike.rowNext (h : HeadLike u k c) (hu : Canonical u) (hc : c.status = none) :
    HeadLike (rowNext u k g c.row (c.off + 16)) k (nextGranule g c) := by
  rw [nextGranule]
  split
  next within =>
    rw [rowNext_within within]
    exact h.modHead hu fun l => ⟨l, rfl⟩
  next past =>
    have moved : HeadLike (Machine.modHead u k fun x => { x with row := c.row + 1, off := 0, elem := none }) k
        { c with row := c.row + 1, off := 0, elem := none } := h.modHead hu fun l => ⟨l, rfl⟩
    rw [rowNext_row past, nextRow]
    split
    · rwa [← hc]
    · exact moved.finish_ok (modHead_canon hu)

theorem exec_gatherRow_runs {sc : Bool} {h : Nat} (hr : Runs s k c) (hk : c.kind = .gather sc h) (hg : c.gat = some g) :
    exec (.gatherRow k) s = .next (gatherStep s k c sc g) := by
  obtain ⟨run, held⟩ := hr
  rw [exec_gatherRow, execGatherRow, gatherRow, held, run]
  simp only [hk, hg]
  rfl

/-! #### The granule of a row (R182) -/

/-- The row that is read, and the row that is written, for an index. -/
def rowSource (sc : Bool) (c : Cmd) (j : Int) : Nat := if sc then c.row else j.toNat
def rowTarget (sc : Bool) (c : Cmd) (j : Int) : Nat := if sc then j.toNat else c.row

/-- A row that lies outside its side. -/
def rowOutside (s : State) (c : Cmd) (sc : Bool) (g : Gather) (j : Int) : Bool :=
  (decide (0 ≤ j) && !rowFits c s g.src (rowSource sc c j) g.rowBytes) || !rowFits c s g.dst (rowTarget sc c j) g.rowBytes

theorem rowOutside_iff {sc : Bool} {j : Int} : rowOutside s c sc g j = true ↔
    (0 ≤ j ∧ rowFits c s g.src (rowSource sc c j) g.rowBytes = false) ∨
      rowFits c s g.dst (rowTarget sc c j) g.rowBytes = false := by
  simp only [rowOutside, Bool.or_eq_true, Bool.and_eq_true, decide_eq_true_eq, Bool.not_eq_true']

/-- The write of a granule of a row, after which the next one follows. -/
def rowPut (k : Nat) (c : Cmd) (g : Gather) (dst : Nat) (s : State) (b : List Byte) (p : Bool) : State :=
  engWrite s k c g.dst (dst * g.rowBytes + c.off) (c.row * g.rowBytes + c.off) b p fun s2 => rowNext s2 k g c.row (c.off + 16)

theorem gatherMove_eq (s : State) (k : Nat) (c : Cmd) (sc : Bool) (g : Gather) (j : Int) :
    gatherMove s k c sc g j =
      if sc && decide (j < 0) then rowNext s k g c.row g.rowBytes
      else if rowOutside s c sc g j then finish s k 2 (c.row * g.rowBytes)
      else if j < 0 then rowPut k c g (rowTarget sc c j) s (List.replicate 16 0) false
      else engRead s k c g.src (rowSource sc c j * g.rowBytes + c.off) (c.row * g.rowBytes + c.off)
        (rowPut k c g (rowTarget sc c j)) := rfl

/-- A granule is put on an open side, and the command goes on. -/
theorem Looked.rowPut (look : Looked k c s u) (hc : c.status = none) {dst : Nat} {b : List Byte} {p : Bool}
    (ho : SideOpen s c g.dst (dst * g.rowBytes + c.off)) (hb : b.length = 16) :
    (∃ x, headOf (rowPut k c g dst u b p) k = some x ∧ butLines x (nextGranule g c)) ∧
      SideHolds s (rowPut k c g dst u b p) c g.dst (dst * g.rowBytes + c.off) b p := by
  obtain ⟨v, runs, canon, head, holds⟩ := look.engWrite_open (at_ := c.row * g.rowBytes + c.off) (b := b) (p := p)
    (f := fun s2 => rowNext s2 k g c.row (c.off + 16)) ho hb
  rw [Machine.rowPut, runs]
  exact ⟨(head.rowNext canon hc).ends,
    holds.congr (rowNext_keeps State.gm (fun _ _ => rfl) _ _ _ _) (rowNext_keeps State.ls (fun _ _ => rfl) _ _ _ _)⟩

/-! #### The rows of a gather (R182) -/

theorem HeadGoes.answers {e : Instr} (h : HeadGoes s u k c) (he : exec e s = .next u) :
    ∃ u, exec e s = .next u ∧ headOf u k = some c ∧ MemFrame s u ∧ u.net = s.net := ⟨u, he, h.head, h.memory, h.net⟩

theorem gatherRows : GatherRows := by
  intro s k c sc h g hs hr hu hk hg e row ends still nextRow' next
  obtain ⟨head, running⟩ := hr.head
  have go := headGoes_refl head
  have look := looked_refl hs (headLike_of_head head)
  have step := exec_gatherRow_runs hr hk hg
  refine ⟨fun helem => ?_, fun j helem => ?_⟩
  · have index : gatherStep s k c sc g = gatherIndex s k c g := by rw [gatherStep, helem]
    rw [index] at step
    unfold gatherIndex at step
    refine ⟨fun gi b hread => ?_, fun gi hgi => ⟨fun notFull => ?_, fun full poison => ?_⟩⟩
    · rw [engRead_reads hread hu] at step
      exact (go.modHead hs).answers step
    · rwa [engRead_notFull (by rwa [Nat.mul_div_cancel _ (by decide)]) notFull] at step
    · rw [engRead_here (by rwa [Nat.mul_div_cancel _ (by decide)]) hu full, poison] at step
      exact (go.finish_err hs).answers step
  · intro src dst fromAt toAt outside
    have move : gatherStep s k c sc g = gatherMove s k c sc g j := by rw [gatherStep, helem]
    rw [move, gatherMove_eq] at step
    refine ⟨fun hsc hj => ?_, fun hj ho => ?_, fun hsc hj ho hdst => ?_, fun b p hj ho hb hsrc hdst => ?_, fun hj ho hw => ?_⟩
    · rw [if_pos (by simp [hsc, hj])] at step
      exact (go.rowNext hs running).answers step
    · rw [if_neg (by simpa using hj), if_pos (rowOutside_iff.mpr ho)] at step
      exact (go.finish_err hs).answers step
    · rw [if_neg (by simp [hsc]), if_neg (ho ∘ rowOutside_iff.mp), if_pos hj] at step
      exact ⟨_, step, look.rowPut running hdst List.length_replicate⟩
    · obtain ⟨v, read, runs⟩ := look.engRead_bytes (at_ := c.row * g.rowBytes + c.off) (f := rowPut k c g dst) hb hsrc hu
      rw [if_neg (by simp [Int.not_lt.mpr hj]), if_neg (ho ∘ rowOutside_iff.mp), if_neg (Int.not_lt.mpr hj)] at step
      exact ⟨_, step.trans (congrArg _ runs), read.rowPut running hdst (fetch16_length hb)⟩
    · rw [if_neg (by simp [Int.not_lt.mpr hj]), if_neg (ho ∘ rowOutside_iff.mp), if_neg (Int.not_lt.mpr hj)] at step
      exact step.trans (congrArg _ (look.engRead_wait hw))

end Sys2Proof.Machine

namespace Sys2Proof.Machine

variable {s u v : State} {k : Nat} {c : Cmd} {w j h : Nat}

/-! ### WLOAD_RUN (R187, R188) -/

theorem exec_wloadRun_runs (hr : Runs s k c) (hk : c.kind = .wload w j h) :
    exec (.wloadRun k) s = .next (wloadStep s k c w j h) := by
  obtain ⟨run, -⟩ := hr
  rw [exec_wloadRun, execWloadRun, wloadRun, run]
  simp only [hk]

/-- What a load does with the granule that it has read. -/
def wloadTake (k : Nat) (c : Cmd) (w j h : Nat) (s : State) (b : List Byte) (p : Bool) : State :=
  let v := natOfBytes b
  if c.row = 0 then
    (match cmdRec s c h with
      | some (_, r) => wloadHeader s k c w j r.granules v p
      | none => finish s k 2 0)
  else if p || bBad c.form c.row v then finish s k 2 (16 * c.row)
  else
    let data := c.loading ++ [(BitVec.ofNat 128 v, false)]
    if c.row + 1 < bGranules c.form then modHead s k fun x => { x with loading := data, row := c.row + 1 }
    else
      let leaf : Leaf := ⟨c.form, h, data.map Prod.fst⟩
      finish { s with en := { s.en with leaves := tput s.en.leaves (leafKey (ctxPane k) w j) leaf } } k 0 0

theorem wloadStep_eq : wloadStep s k c w j h = engRead s k c (.handle h) (16 * c.row) (16 * c.row) (wloadTake k c w j h) := rfl

/-- A poisoned granule stops the load at its offset (log 53). -/
theorem wloadTake_poison (b : List Byte) : wloadTake k c w j h s b true = finish s k 2 (16 * c.row) := by
  unfold wloadTake
  dsimp only
  split
  next h0 =>
    rw [h0]
    split <;> rfl
  next => rfl

theorem wloadTake_header {b : List Byte} {q : Nat} {r : Rec} (h0 : c.row = 0) (hrec : cmdRec s c h = some (q, r)) :
    wloadTake k c w j h s b false = wloadHeader s k c w j r.granules (natOfBytes b) false := by
  unfold wloadTake
  rw [if_pos h0, hrec]

/-- A header that R188 takes for a tile of this form. -/
def headerTakes (hdr j len form : Nat) : Prop :=
  bForm hdr = some form ∧ bSquare hdr = true ∧ bAccepts form j = true ∧ bGranules form ≤ len

theorem wloadHeader_refuses {len hdr : Nat} (hno : ∀ form, ¬ headerTakes hdr j len form) :
    wloadHeader s k c w j len hdr false = finish s k 2 0 := by
  dsimp only [wloadHeader]
  split
  next => rfl
  next form hform =>
    refine if_pos ?_
    by_contra ok
    simp only [Bool.or_eq_true, Bool.not_eq_true', decide_eq_true_eq, not_or, Bool.not_eq_false, Nat.not_lt] at ok
    obtain ⟨⟨square, accepts⟩, fits⟩ := ok
    exact hno form ⟨hform, square, accepts, fits⟩

/-- Another leaf of the waffle holds a tile in one of the quarters of this one. -/
def leafClash (s : State) (k w j form i : Nat) : Bool :=
  match tget s.en.leaves (leafKey (ctxPane k) w i) with
  | some l => i ≠ j && (bQuarters l.form i).any fun q => (bQuarters form j).contains q
  | none => false

theorem leafClash_iff {form i : Nat} : leafClash s k w j form i = true ↔
    i ≠ j ∧ ∃ l, tget s.en.leaves (leafKey (ctxPane k) w i) = some l ∧ ∃ x ∈ bQuarters l.form i, x ∈ bQuarters form j := by
  unfold leafClash
  cases tget s.en.leaves (leafKey (ctxPane k) w i) with
  | none => simp
  | some l => simp

/-- The state without the tiles that lie in the quarters of the one that is loaded. -/
def clearClashes (s : State) (k w j form : Nat) : State :=
  ((List.range 4).filter (leafClash s k w j form)).foldl (fun a i => clearLeaf a (leafKey (ctxPane k) w i)) s

theorem wloadHeader_takes {len hdr form : Nat} (hok : headerTakes hdr j len form) :
    wloadHeader s k c w j len hdr false =
      modHead (clearClashes s k w j form) k fun x => { x with form := form, row := c.row + 1 } := by
  obtain ⟨hform, square, accepts, fits⟩ := hok
  dsimp only [wloadHeader]
  rw [if_neg Bool.false_ne_true, hform]
  dsimp only
  rw [if_neg (by simp [square, accepts, Nat.not_lt.mpr fits])]
  rfl

/-- The state with these leaves. -/
def withLeaves (s : State) (L : Table Leaf) : State := { s with en := { s.en with leaves := L } }

theorem withLeaves_head (h : headOf s k = some c) (L : Table Leaf) : HeadGoes (withLeaves s L) (withLeaves s L) k c :=
  headGoes_refl h

theorem withLeaves_memFrame (s : State) (L : Table Leaf) : MemFrame s (withLeaves s L) := .of_eq rfl rfl

/-- Tiles that are cleared, one after another: these leaves hold none, and nothing else has changed. -/
theorem clearLeaves {pane : Nat} {ks : List Nat} (hs : Canonical s) :
    ∃ L, ks.foldl (fun a i => clearLeaf a (leafKey pane w i)) s = withLeaves s L ∧ Canonical (withLeaves s L) ∧
      ∀ i, tget L (leafKey pane w i) = if i ∈ ks then none else tget s.en.leaves (leafKey pane w i) := by
  induction ks generalizing s with
  | nil => exact ⟨s.en.leaves, rfl, hs, fun _ => rfl⟩
  | cons x t ih =>
    obtain ⟨L, fold, canon, found⟩ := ih (clearLeaf_canon (key := leafKey pane w x) hs)
    refine ⟨L, fold, canon, fun i => (found i).trans ?_⟩
    by_cases hx : i = x
    · have gone : tget (tdel s.en.leaves (leafKey pane w x)) (leafKey pane w x) = none := tget_tdel_same _ _ hs.leaves
      simp [hx, clearLeaf, gone]
    · have apart : leafKey pane w i ≠ leafKey pane w x := by
        unfold leafKey
        omega
      have kept : tget (tdel s.en.leaves (leafKey pane w x)) (leafKey pane w i) = tget s.en.leaves (leafKey pane w i) :=
        tget_tdel_other _ _ _ apart hs.leaves
      simp [hx, clearLeaf, kept]

theorem HeadGoes.answersLeaves {e : Instr} (h : HeadGoes s u k c) (he : exec e s = .next u) :
    ∃ u, exec e s = .next u ∧ headOf u k = some c ∧ MemFrame s u ∧ u.net = s.net ∧ u.en.leaves = s.en.leaves :=
  ⟨u, he, h.head, h.memory, h.net, h.leaves⟩

theorem wloadGranules : WloadGranules := by
  intro s k c w j h hs hr hu hk e leaf still stops
  obtain ⟨head, running⟩ := hr.head
  have go := headGoes_refl head
  have step := exec_wloadRun_runs hr hk
  rw [wloadStep_eq] at step
  have at_ : 16 * c.row / 16 = c.row := Nat.mul_div_cancel_left _ (by decide)
  refine ⟨fun beyond => ?_, fun g hg => ⟨fun notFull => ?_, fun full poison => ?_⟩, fun g b q r h0 hread hrec => ?_,
    fun g b hpos hread => ?_⟩
  · rw [engRead_beyond (by rwa [at_])] at step
    exact (go.finish_err hs).answersLeaves step
  · rwa [engRead_notFull (by rwa [at_]) notFull] at step
  · rw [engRead_here (by rwa [at_]) hu full, poison, wloadTake_poison] at step
    exact (go.finish_err hs).answersLeaves step
  · intro hdr accepted
    rw [engRead_reads (b := b) (g := g) (by rwa [h0]) hu, wloadTake_header h0 hrec] at step
    refine ⟨fun hno => ?_, fun form hok => ?_⟩
    · rw [wloadHeader_refuses hno] at step
      have first : 16 * c.row = 0 := by rw [h0]
      unfold stops
      rw [first]
      exact (go.finish_err hs).answersLeaves step
    · rw [wloadHeader_takes hok, h0] at step
      obtain ⟨L, cleared, canon, found⟩ := clearLeaves (w := w) (pane := ctxPane k)
        (ks := (List.range 4).filter (leafClash s k w j form)) hs
      have moved := (withLeaves_head head L).modHead canon
        (f := fun x => { x with form := form, row := 0 + 1 })
      rw [clearClashes, cleared] at step
      refine ⟨_, step, moved.head, (withLeaves_memFrame s L).trans moved.memory, moved.net, fun i hi => ?_⟩
      have now : leaf _ i = _ := (congrArg (tget · (leafKey (ctxPane k) w i)) moved.leaves).trans (found i)
      intro clash
      have member : i ∈ (List.range 4).filter (leafClash s k w j form) ↔ clash := by
        rw [List.mem_filter, List.mem_range, leafClash_iff, and_iff_right hi]
      exact ⟨fun hc => now.trans (if_pos (member.mpr hc)), fun hc => now.trans (if_neg (hc ∘ member.mp))⟩
  · intro data
    rw [engRead_reads (b := b) (g := g) hread hu, wloadTake] at step
    dsimp only at step
    rw [if_neg (Nat.ne_of_gt hpos), Bool.false_or] at step
    refine ⟨fun hbad => ?_, fun hgood hmore => ?_, fun hgood hlast => ?_⟩
    · rw [if_pos hbad] at step
      exact (go.finish_err hs).answersLeaves step
    · rw [hgood, if_neg Bool.false_ne_true, if_pos hmore] at step
      have moved := go.modHead hs (f := fun x => { x with loading := data, row := c.row + 1 })
      exact moved.answersLeaves step
    · rw [hgood, if_neg Bool.false_ne_true, if_neg (Nat.not_lt.mpr hlast)] at step
      let L := tput s.en.leaves (leafKey (ctxPane k) w j) ⟨c.form, h, data.map Prod.fst⟩
      have canon : Canonical (withLeaves s L) := { hs with leaves := tput_sorted _ _ _ hs.leaves }
      have done := (withLeaves_head head L).finish_ok canon (off := 0)
      exact ⟨_, step, done.head, (withLeaves_memFrame s L).trans done.memory, done.net,
        (congrArg (tget · (leafKey (ctxPane k) w j)) done.leaves).trans (tget_tput_same _ _ _)⟩

end Sys2Proof.Machine

namespace Sys2Proof.Machine

variable {s u v : State} {k : Nat} {c : Cmd} {w j a acc : Nat} {sat : Bool}

/-! ### WMMA_ROW: the accumulators that become EMPTY (R190) -/

theorem setLocState_keeps {β : Type} (p : State → β)
    (h : ∀ s g l q, p { s with gm := g, ls := l, al := { s.al with arenas := q } } = p s) (s : State) (x : Nat) (l : GLoc) :
    p (setLocState s x l) = p s := by
  cases l with
  | here g =>
    obtain ⟨q, set⟩ := setLocState_here s x g
    rw [set]
    exact h s s.gm _ q
  | copy vi d st => exact devPut_keeps p (fun s g => h s g s.ls s.al.arenas) s vi st _

/-- Granules have become EMPTY: no byte of local store, no record, engine or message has changed. -/
structure Empties (s u : State) : Prop where
  canon : Canonical u
  recs : u.al.recs = s.al.recs
  en : u.en = s.en
  net : u.net = s.net
  bytes : u.ls.bytes = s.ls.bytes
  empty : ∀ g, gState s.ls g = 0 → gState u.ls g = 0

theorem Empties.trans (h : Empties s u) (h' : Empties u v) : Empties s v :=
  ⟨h'.canon, h'.recs.trans h.recs, h'.en.trans h.en, h'.net.trans h.net, h'.bytes.trans h.bytes,
    fun g hg => h'.empty g (h.empty g hg)⟩

theorem empties_setLocField (hs : Canonical s) (l : GLoc) : Empties s (setLocField s l 0 2 stEmpty) where
  canon := setLocField_canon hs
  recs := setLocState_keeps (fun a => a.al.recs) (fun _ _ _ _ => rfl) _ _ _
  en := setLocState_keeps State.en (fun _ _ _ _ => rfl) _ _ _
  net := setLocState_keeps State.net (fun _ _ _ _ => rfl) _ _ _
  bytes := by
    unfold setLocField
    cases l with
    | here g =>
      obtain ⟨q, set⟩ := setLocState_here s (setBits (locState s (.here g)) 0 2 stEmpty) g
      rw [set]
      rfl
    | copy vi d st => exact devPut_keeps (fun a => a.ls.bytes) (fun _ _ => rfl) s vi st _
  empty g hg := by
    cases l with
    | here g' =>
      by_cases e : g = g'
      · exact e ▸ gState_emptied hs g
      · exact (congrArg (bits · 0 2) (((storeIs_refl hs g').setField 0 2 stEmpty).others g e)).trans hg
    | copy vi d st =>
      have kept : (setLocField s (.copy vi d st) 0 2 stEmpty).ls = s.ls := devPut_keeps State.ls (fun _ _ => rfl) s vi st _
      rwa [kept]

theorem empties_granules (hs : Canonical s) (hd : Nat) (offs : List Nat) :
    Empties s (emptyGranules s c hd offs) ∧
      ∀ off ∈ offs, ∀ g, cmdGranule s c hd (off / 16) = some (.here g) → gState (emptyGranules s c hd offs).ls g = 0 := by
  induction offs generalizing s with
  | nil => exact ⟨⟨hs, rfl, rfl, rfl, rfl, fun _ h => h⟩, nofun⟩
  | cons x t ih =>
    cases hx : cmdGranule s c hd (x / 16) with
    | none =>
      have step : emptyGranules s c hd (x :: t) = emptyGranules s c hd t := by
        rw [emptyGranules, List.foldl_cons, hx]
        rfl
      obtain ⟨rest, done⟩ := ih hs
      rw [step]
      refine ⟨rest, ?_⟩
      rintro off (_ | ⟨_, hoff⟩) g hg
      · exact nomatch hx.symm.trans hg
      · exact done off hoff g hg
    | some l =>
      have step : emptyGranules s c hd (x :: t) = emptyGranules (setLocField s l 0 2 stEmpty) c hd t := by
        rw [emptyGranules, List.foldl_cons, hx]
        rfl
      have first := empties_setLocField hs l
      obtain ⟨rest, done⟩ := ih first.canon
      rw [step]
      refine ⟨first.trans rest, ?_⟩
      rintro off (_ | ⟨_, hoff⟩) g hg
      · obtain rfl : l = .here g := Option.some.inj (hx.symm.trans hg)
        exact rest.empty g (gState_emptied hs g)
      · exact done off hoff g (cmdGranule_here_of first.recs hg)

/-! ### WMMA_ROW (R81, R190, R191) -/

theorem exec_wmmaRow_runs (hr : Runs s k c) (hk : c.kind = .wmma w j sat a acc) :
    exec (.wmmaRow k) s = .next (wmmaStep s k c w j sat a acc) := by
  obtain ⟨run, -⟩ := hr
  rw [exec_wmmaRow, execWmmaRow, wmmaRow, run]
  simp only [hk]

theorem takesRow_iff : TakesRow s k c a acc ↔
    (c.row < c.rows && !wmmaHeld s k c && c.taken.length < pipeRows c.planes &&
      readsReady s c (wmmaReads a acc c.rows c.planes c.row)) = true := by
  simp only [TakesRow, Bool.and_eq_true, decide_eq_true_eq, Bool.not_eq_true', and_assoc]

theorem wmmaStep_takes {leaf : Leaf} (ht : tget s.en.leaves (leafKey (ctxPane k) w j) = some leaf) (h : TakesRow s k c a acc) :
    wmmaStep s k c w j sat a acc = wmmaTake s k c sat a acc leaf := by
  have row := takesRow_iff.mp h
  dsimp only [wmmaStep]
  rw [ht]
  cases hts : c.taken <;> (rw [hts] at row; exact if_pos row)

theorem wmmaStep_writes {t : TakenRow} {ts : List TakenRow} (hts : c.taken = t :: ts)
    (h : tget s.en.leaves (leafKey (ctxPane k) w j) = none ∨ ¬ TakesRow s k c a acc) :
    wmmaStep s k c w j sat a acc = wmmaWrite s k c acc t := by
  have row := takesRow_iff (s := s) (k := k) (c := c) (a := a) (acc := acc)
  dsimp only [wmmaStep]
  rw [hts] at row ⊢
  cases ht : tget s.en.leaves (leafKey (ctxPane k) w j) with
  | none => rfl
  | some leaf => exact if_neg (row.not.mp (h.resolve_left (by simp [ht])))

theorem wmmaStep_idle (hts : c.taken = []) (h : ¬ TakesRow s k c a acc)
    (ht : tget s.en.leaves (leafKey (ctxPane k) w j) = none → (c.row < c.rows && !wmmaHeld s k c) = false) :
    wmmaStep s k c w j sat a acc = s := by
  have row := takesRow_iff (s := s) (k := k) (c := c) (a := a) (acc := acc)
  dsimp only [wmmaStep]
  rw [hts] at row ⊢
  cases hleaf : tget s.en.leaves (leafKey (ctxPane k) w j) with
  | none => exact if_neg (by rw [ht hleaf]; exact Bool.false_ne_true)
  | some leaf => exact if_neg (row.not.mp h)

/-- The command after a row has been written. -/
def wmmaGoOn (k : Nat) (c : Cmd) (s : State) : State :=
  let s2 := modHead s k fun x => { x with taken := x.taken.tail }
  if c.taken.length ≤ 1 && c.rows ≤ c.row then finish s2 k 0 0 else s2

theorem wmmaGoOn_keeps {β : Type} (p : State → β) (h : ∀ s q, p { s with en := { s.en with ctxs := q } } = p s) (s : State) :
    p (wmmaGoOn k c s) = p s := by
  dsimp only [wmmaGoOn]
  split
  · exact (modHead_keeps p h _ _ _).trans (modHead_keeps p h _ _ _)
  · exact modHead_keeps p h _ _ _

theorem RowWritten.wmmaGoOn {hd : Nat} {ws : List (Nat × Nat × Bool)} {fl : FlagSet} (h : RowWritten s u c hd ws fl) (k : Nat) :
    RowWritten s (wmmaGoOn k c u) c hd ws fl :=
  h.congr (wmmaGoOn_keeps State.ls (fun _ _ => rfl) u) (wmmaGoOn_keeps State.wk (fun _ _ => rfl) u)

theorem headOf_wmmaGoOn {t : TakenRow} {ts : List TakenRow} (hs : Canonical s) (hh : headOf s k = some c) (hc : c.status = none)
    (hts : c.taken = t :: ts) :
    headOf (wmmaGoOn k c s) k = some { c with taken := ts, status := if ts = [] ∧ c.rows ≤ c.row then some 0 else none } := by
  have go := (headGoes_refl hh).modHead hs (f := fun x => { x with taken := x.taken.tail })
  have last : (decide (c.taken.length ≤ 1) && decide (c.rows ≤ c.row)) = true ↔ ts = [] ∧ c.rows ≤ c.row := by
    simp [hts]
  have tail : c.taken.tail = ts := by rw [hts, List.tail_cons]
  dsimp only [wmmaGoOn]
  by_cases h : ts = [] ∧ c.rows ≤ c.row
  · rw [if_pos (last.mpr h), if_pos h, (go.finish_ok (modHead_canon hs)).head, tail]
  · rw [if_neg (h ∘ last.mp), if_neg h, go.head, tail, ← hc]

/-- The accumulators of a row as its values are written to them. -/
def rowValues (t : TakenRow) : List (Nat × Nat × Bool) :=
  (((List.range 32).map fun i => 1 + 32 * t.row + i).zip t.vals).map fun x => (x.1, x.2.1.toNat, x.2.2)

theorem wmmaWrite_eq (s : State) (k : Nat) (c : Cmd) (acc : Nat) (t : TakenRow) :
    wmmaWrite s k c acc t = engWrites s k c (granuleWrites acc (rowValues t)) fun s1 => wmmaGoOn k c (cmdFlags s1 c t.flags) := by
  have same : ((accOffsets t.row).zip t.vals).map (fun x => (Side.handle acc, x.1, x.2.1.toNat, x.2.2)) =
      granuleWrites acc (rowValues t) := by
    have offs : accOffsets t.row = ((List.range 32).map fun i => 1 + 32 * t.row + i).map (16 * ·) := by
      rw [List.map_map]
      rfl
    rw [offs, List.zip_map_left, granuleWrites, rowValues, List.map_map, List.map_map]
    rfl
  unfold wmmaWrite
  rw [same]
  rfl

theorem rowValues_places {t : TakenRow} (h : t.vals.length = 32) :
    (rowValues t).map Prod.fst = (List.range 32).map fun i => 1 + 32 * t.row + i := by
  rw [rowValues, List.map_map]
  exact List.map_fst_zip (by simp [h])

theorem mem_rowValues {t : TakenRow} (h : t.vals.length = 32) {i : Nat} {x : BitVec 128 × Bool} (hx : t.vals[i]? = some x) :
    (1 + 32 * t.row + i, x.1.toNat, x.2) ∈ rowValues t := by
  have hi : i < 32 := h ▸ (List.getElem?_eq_some_iff.mp hx).1
  refine List.mem_map.mpr ⟨(1 + 32 * t.row + i, x), List.mem_iff_getElem?.mpr ⟨i, ?_⟩, rfl⟩
  exact List.getElem?_zip_eq_some.mpr ⟨by simp [hi], hx⟩

theorem nodup_offsets (n b : Nat) : ((List.range n).map fun i => b + i).Nodup :=
  List.nodup_range.map fun _ _ h => Nat.add_left_cancel h

theorem wmmaRows : WmmaRows := by
  intro s k c w j sat a acc hs hr hu hk e tile reads
  obtain ⟨head, running⟩ := hr.head
  have step := exec_wmmaRow_runs hr hk
  refine ⟨fun leaf hleaf takes present => ?_, ?_, fun hnone hts hrow hheld => ?_,
    fun hts hidle => ?_, fun hts hsome hready => ?_⟩
  · have ⟨_, _, _, ready⟩ := takes
    obtain ⟨v, look, runs⟩ := engReads_ready (at_ := fun _ => 0) (f := fun s1 gs =>
      modHead (emptyGranules s1 c acc (accOffsets c.row)) k fun x =>
        { x with row := c.row + 1, taken := x.taken ++ [wmmaResult c sat leaf gs] }) hs (headLike_of_head head) hu ready present
    obtain ⟨empties, done⟩ := empties_granules (c := c) look.canon acc (accOffsets c.row)
    rw [wmmaStep_takes hleaf takes, wmmaTake, runs] at step
    have goes : HeadLike (modHead (emptyGranules v c acc (accOffsets c.row)) k fun x =>
        { x with row := c.row + 1, taken := x.taken ++ [wmmaResult c sat leaf (fetched s c reads)] }) k
        { c with row := c.row + 1, taken := c.taken ++ [wmmaResult c sat leaf (fetched s c reads)] } :=
      (look.head.congr empties.en).modHead empties.canon fun l => ⟨l, rfl⟩
    obtain ⟨x, hx, but⟩ := goes.ends
    refine ⟨_, x, step, ?_, fun b => ?_, hx, but, fun i g hi hg => ?_⟩
    · rw [modHead_keeps State.net fun _ _ => rfl, empties.net, look.net]
    · rw [modHead_keeps State.ls fun _ _ => rfl, empties.bytes, look.ls]
    · rw [modHead_keeps State.ls fun _ _ => rfl]
      refine done (16 * (1 + 32 * c.row + i)) ?_ g ?_
      · exact List.mem_map_of_mem (f := fun g => 16 * (1 + 32 * c.row + g)) (List.mem_range.mpr hi)
      · rw [Nat.mul_div_cancel_left _ (by decide), look.granule, hg]
  · intro t ts hno hts hlen js hw
    rw [wmmaStep_writes hts hno, wmmaWrite_eq] at step
    have places := rowValues_places hlen
    obtain ⟨v, runs, canon, en, wrote⟩ := engWrites_row (k := k) (fl := t.flags) (f := wmmaGoOn k c) hs
      (by rw [places]; exact nodup_offsets 32 _) (by rw [places]; exact hw)
    rw [runs] at step
    obtain ⟨only, flags, filled⟩ := wrote.wmmaGoOn k
    rw [places] at only
    refine ⟨_, step, only, flags, headOf_wmmaGoOn canon ?_ running hts, fun i x hx => filled _ (mem_rowValues hlen hx)⟩
    exact (congrArg (fun e : En => (tgetD e.ctxs k {}).queue.head?) en).trans head
  · have stop : wmmaStep s k c w j sat a acc = finish s k 2 0 := by
      dsimp only [wmmaStep]
      rw [hts, show tget s.en.leaves (leafKey (ctxPane k) w j) = none from hnone]
      exact if_pos (by simp [hrow, hheld])
    rw [stop] at step
    exact ((headGoes_refl head).finish_err hs).answers step
  · rw [wmmaStep_idle hts] at step
    · exact step
    · rintro ⟨hrow, hheld, -⟩
      rcases hidle with h | h
      · omega
      · exact Bool.false_ne_true (hheld.symm.trans h)
    · intro _
      rcases hidle with h | h
      · simp [Nat.not_lt.mpr h]
      · simp [h]
  · rw [wmmaStep_idle hts (fun takes => ?_) fun hnone => absurd hnone hsome] at step
    · exact step
    · obtain ⟨-, -, -, ready⟩ := takes
      exact Bool.false_ne_true (hready.symm.trans ready)

end Sys2Proof.Machine

namespace Sys2Proof.Machine

variable {s u v : State} {k : Nat} {c : Cmd} {n src dst : Nat}

/-! ### CVTT_ROW (R77, R78, R192) -/

theorem exec_cvttRow_runs (hr : Runs s k c) (hk : c.kind = .cvtt n src dst) :
    exec (.cvttRow k) s = .next (cvttStep s k c n src dst) := by
  obtain ⟨run, -⟩ := hr
  rw [exec_cvttRow, execCvttRow, cvttRowStep, run]
  simp only [hk]

/-- The row is the last of its scale granule. -/
abbrev scaleEnds (c : Cmd) : Prop := c.row % 16 = 15 ∨ c.row + 1 = c.rows

/-- The scales of a scale granule so far, with the one of this row. -/
def scalesWith (c : Cmd) (scale : Nat) (bad : Bool) : Nat :=
  let acc := setBits c.acc (8 * (c.row % 16)) 8 scale
  if bad then setBits acc 128 1 1 else acc

/-- The granules that a row writes: its planes, and its scale granule with the last of that granule's rows. -/
def cvttPlaces (c : Cmd) (n : Nat) : List Nat :=
  (List.range n).map (fun p => 1 + scaleGranules c.rows + c.row * n + p) ++ if scaleEnds c then [1 + c.row / 16] else []

/-- What a row writes to them. -/
def cvttWrites (nd : Nat) (c : Cmd) (n : Nat) (r : Nat × List Int × FlagSet) (bad : Bool) : List (Nat × Nat × Bool) :=
  (List.range n).map (fun p => (1 + scaleGranules c.rows + c.row * n + p, planeOf r.2.1 p, bad)) ++
    if scaleEnds c then
      [(1 + c.row / 16, scaleGranule nd c.row (scalesWith c r.1 bad), decide (bits (scalesWith c r.1 bad) 128 1 = 1))]
    else []

/-- The command after a row has been written. -/
def cvttGoOn (k : Nat) (c : Cmd) (scales : Nat) (s : State) : State :=
  let s4 := modHead s k fun x => { x with row := c.row + 1, acc := if scaleEnds c then 0 else scales }
  if c.row + 1 < c.rows then s4 else finish s4 k 0 0

/-- The granules of a source row. -/
def cvttReads (c : Cmd) (src : Nat) : List (Side × Nat) :=
  (List.range c.form).map fun i => (Side.handle src, 16 * (1 + c.row * c.form + i))

/-- A row of what was read is written, and then its flags. -/
def cvttPut (nd k : Nat) (c : Cmd) (n dst : Nat) (s : State) (gs : List (Nat × Bool)) : State :=
  let r := cvttRow n (cvttValues c.form (gs.map Prod.fst))
  let bad := gs.any fun x => x.2
  engWrites s k c (granuleWrites dst (cvttWrites nd c n r bad)) fun s2 => cvttGoOn k c (scalesWith c r.1 bad) (cmdFlags s2 c r.2.2)

theorem cvttStep_eq (s : State) (k : Nat) (c : Cmd) (n src dst : Nat) :
    cvttStep s k c n src dst =
      engReads s k c (fun _ => 16 * (1 + scaleGranules c.rows + c.row * n)) (cvttReads c src) (cvttPut s.nd k c n dst) := by
  have places (r : Nat × List Int × FlagSet) (bad : Bool) : granuleWrites dst (cvttWrites s.nd c n r bad) =
      (List.range n).map (fun p =>
        (.handle dst, 16 * (1 + scaleGranules c.rows + c.row * n) + 16 * p, planeOf r.2.1 p, bad)) ++
      if scaleEnds c then [(.handle dst, 16 * (1 + c.row / 16), scaleGranule s.nd c.row (scalesWith c r.1 bad),
        decide (bits (scalesWith c r.1 bad) 128 1 = 1))] else [] := by
    rw [granuleWrites, cvttWrites, List.map_append, List.map_map, apply_ite (List.map _)]
    refine congrArg (· ++ _) (List.map_congr_left fun p _ => ?_)
    exact congrArg (fun x => (Side.handle dst, x, planeOf r.2.1 p, bad)) (Nat.mul_add 16 _ p)
  unfold cvttPut
  simp only [places]
  rfl

theorem cvttWrites_places (nd : Nat) (c : Cmd) (n : Nat) (r : Nat × List Int × FlagSet) (bad : Bool) :
    (cvttWrites nd c n r bad).map Prod.fst = cvttPlaces c n := by
  rw [cvttWrites, cvttPlaces, List.map_append, List.map_map, apply_ite (List.map _)]
  rfl

/-- The scale granules lie below the planes. -/
theorem nodup_cvttPlaces (c : Cmd) (n : Nat) : (cvttPlaces c n).Nodup := by
  refine List.nodup_append.mpr ⟨nodup_offsets n _, ?_, ?_⟩
  · split
    exacts [List.nodup_singleton _, List.nodup_nil]
  · intro x hx y hy
    obtain ⟨p, hp, rfl⟩ := List.mem_map.mp hx
    split at hy
    next last =>
      obtain rfl := List.mem_singleton.mp hy
      have planes : c.row ≤ c.row * n := Nat.le_mul_of_pos_right _ (by have := List.mem_range.mp hp; omega)
      unfold scaleGranules
      rcases last with h | h <;> omega
    next => exact nomatch hy

theorem cvttGoOn_keeps {β : Type} (p : State → β) (h : ∀ s q, p { s with en := { s.en with ctxs := q } } = p s) (s : State)
    (k scales : Nat) : p (cvttGoOn k c scales s) = p s := by
  dsimp only [cvttGoOn]
  split
  · exact modHead_keeps p h _ _ _
  · exact (modHead_keeps p h _ _ _).trans (modHead_keeps p h _ _ _)

theorem RowWritten.cvttGoOn {hd : Nat} {ws : List (Nat × Nat × Bool)} {fl : FlagSet} (h : RowWritten s u c hd ws fl)
    (k scales : Nat) : RowWritten s (cvttGoOn k c scales u) c hd ws fl :=
  h.congr (cvttGoOn_keeps State.ls (fun _ _ => rfl) u k scales) (cvttGoOn_keeps State.wk (fun _ _ => rfl) u k scales)

theorem HeadLike.cvttGoOn (h : HeadLike u k c) (hu : Canonical u) (hc : c.status = none) (scales : Nat) :
    HeadLike (cvttGoOn k c scales u) k { c with row := c.row + 1, acc := if scaleEnds c then 0 else scales,
                                                status := if c.row + 1 < c.rows then none else some 0 } := by
  have moved : HeadLike (Machine.modHead u k fun x => { x with row := c.row + 1, acc := if scaleEnds c then 0 else scales }) k
      { c with row := c.row + 1, acc := if scaleEnds c then 0 else scales } := h.modHead hu fun l => ⟨l, rfl⟩
  dsimp only [Machine.cvttGoOn]
  split
  · rwa [← hc]
  · exact moved.finish_ok (modHead_canon hu)

theorem cvttRows : CvttRows := by
  intro s k c n src dst hs hr hu hk e reads gs r bad last acc scales first js
  obtain ⟨head, running⟩ := hr.head
  have step := exec_cvttRow_runs hr hk
  rw [cvttStep_eq] at step
  refine ⟨fun ready hw present => ?_, fun inside ready => ?_⟩
  · obtain ⟨v, look, runs⟩ := engReads_ready (at_ := fun _ => 16 * (1 + scaleGranules c.rows + c.row * n))
      (f := cvttPut s.nd k c n dst) hs (headLike_of_head head) hu ready present
    have places := cvttWrites_places s.nd c n r bad
    have writable : Writable v c dst ((cvttWrites s.nd c n r bad).map Prod.fst) := by
      rw [places]
      obtain ⟨opens, apart⟩ := hw
      refine ⟨fun j hj => ?_, fun i hi j hj hij => ?_⟩
      · rw [look.granule, look.ls]
        exact opens j hj
      · rw [look.granule, look.granule]
        exact apart i hi j hj hij
    obtain ⟨u, wrote, canon, en, row⟩ := engWrites_row (k := k) (fl := r.2.2) (f := cvttGoOn k c scales) look.canon
      (by rw [places]; exact nodup_cvttPlaces c n) writable
    have goes := (look.head.congr en).cvttGoOn canon running scales
    obtain ⟨x, hx, but⟩ := goes.ends
    obtain ⟨only, flags, filled⟩ := (row.of_looked look).cvttGoOn k scales
    rw [places] at only
    refine ⟨_, x, step.trans (congrArg _ (runs.trans wrote)), only, flags, hx, but, fun p hp => ?_, fun hlast => ?_⟩
    · exact filled _ (List.mem_append_left _ (List.mem_map_of_mem (List.mem_range.mpr hp)))
    · refine filled (1 + c.row / 16, scaleGranule s.nd c.row scales, decide (bits scales 128 1 = 1)) (List.mem_append_right _ ?_)
      rw [if_pos hlast]
      exact List.mem_singleton_self _
  · refine step.trans (congrArg _ (engReads_wait (fun x hx => ?_) inside ready))
    obtain ⟨i, -, rfl⟩ := List.mem_map.mp hx
    exact ⟨src, rfl⟩

end Sys2Proof.Machine

open Sys2Proof.Machine in
/-- Settles O42: each of the four rows is its step's equation, over the reads, the writes and the head that it moves. -/
theorem commandRowsComplete : Obligations.CommandRowsComplete := ⟨gatherRows, wloadGranules, wmmaRows, cvttRows⟩

namespace Sys2Proof

/-! ### Codes of fields (R64, R89 to R96): each value has one code, and each code that is one stands for one value -/

/-- A code that decodes to a value and is the value's own. -/
theorem ofCode_iff {α : Type} {dec : Nat → α} {code : α → Nat} {n : Nat} {k : α} (hd : ∀ k, dec (code k) = k)
    (hc : code (dec n) = n) : dec n = k ↔ n = code k :=
  ⟨fun h => h ▸ hc.symm, fun h => h ▸ hd k⟩

theorem Scope.ofCode_eq_iff {n : Nat} (hn : n < 4) {k : Scope} : Scope.ofCode n = k ↔ n = k.code :=
  ofCode_iff (fun k => by cases k <;> rfl) (by interval_cases n <;> rfl)

theorem TA.ofCode_eq_iff {n : Nat} (hn : n < 4) {k : TA} : TA.ofCode n = k ↔ n = k.code :=
  ofCode_iff (fun k => by cases k <;> rfl) (by interval_cases n <;> rfl)

theorem Cmp.ofCode_eq_iff {n : Nat} (hn : n < 8) {k : Cmp} : Cmp.ofCode n = k ↔ n = k.code :=
  ofCode_iff (fun k => by cases k <;> rfl) (by interval_cases n <;> rfl)

theorem Port.ofCode_eq_iff {n : Nat} (hn : n < 4) {k : Port} : Port.ofCode n = k ↔ n = k.code :=
  ofCode_iff (fun k => by cases k <;> rfl) (by interval_cases n <;> rfl)

theorem Bool.ofCode_eq_iff {n : Nat} (hn : n < 2) {b : Bool} : Bool.ofCode n = b ↔ n = b2n b :=
  ofCode_iff (fun b => by cases b <;> rfl) (by interval_cases n <;> rfl)

theorem Pm.ofCode_eq_ok_iff {n : Nat} {k : Pm} : Pm.ofCode n = .ok k ↔ n = k.code := by
  refine ⟨fun h => ?_, fun h => h ▸ by cases k <;> rfl⟩
  unfold Pm.ofCode at h
  split at h <;> cases h <;> rfl

theorem BranchKind.ofCode_eq_ok_iff {n : Nat} {k : BranchKind} : BranchKind.ofCode n = .ok k ↔ n = k.code := by
  refine ⟨fun h => ?_, fun h => h ▸ by cases k <;> rfl⟩
  unfold BranchKind.ofCode at h
  split at h <;> cases h <;> rfl

theorem RedKind.ofCode_eq_ok_iff {n : Nat} {k : RedKind} : RedKind.ofCode n = .ok k ↔ n = k.code := by
  refine ⟨fun h => ?_, fun h => h ▸ by cases k <;> rfl⟩
  unfold RedKind.ofCode at h
  split at h <;> cases h <;> rfl

theorem LldWait.ofCode_eq_ok_iff {n : Nat} {k : LldWait} : LldWait.ofCode n = .ok k ↔ n = k.code := by
  refine ⟨fun h => ?_, fun h => h ▸ by cases k <;> rfl⟩
  unfold LldWait.ofCode at h
  split at h <;> cases h <;> rfl

theorem SpawnPlace.ofCode_eq_ok_iff {n : Nat} {k : SpawnPlace} : SpawnPlace.ofCode n = .ok k ↔ n = k.code := by
  refine ⟨fun h => ?_, fun h => h ▸ by cases k <;> rfl⟩
  unfold SpawnPlace.ofCode at h
  split at h <;> cases h <;> rfl

theorem Level.ofCode_eq_ok_iff {n : Nat} {k : Level} : Level.ofCode n = .ok k ↔ n = k.code := by
  refine ⟨fun h => ?_, fun h => h ▸ by cases k <;> rfl⟩
  unfold Level.ofCode at h
  split at h <;> cases h <;> rfl

/-- CAS is no operation of LAMO (R94). -/
theorem AtomOp.ofCode_eq_ok_iff {n : Nat} {k : AtomOp} : AtomOp.ofCode n = .ok k ↔ n = k.code ∧ k ≠ .cas := by
  constructor
  · intro h
    unfold AtomOp.ofCode at h
    split at h <;> cases h <;> exact ⟨rfl, nofun⟩
  · rintro ⟨rfl, h⟩
    cases k with
    | cas => exact absurd rfl h
    | _ => rfl

theorem fmtOf_eq_ok_iff {n : Nat} {t : Tag} : fmtOf n = .ok t ↔ n = t.code := by
  refine ⟨fun h => ?_, fun h => h ▸ by cases t <;> rfl⟩
  unfold fmtOf Tag.ofCode at h
  split at h
  next hn => split at hn <;> cases hn <;> cases h <;> rfl
  next => cases h

theorem Tag.code_lt (k : Tag) : k.code < 32 := by cases k <;> decide
theorem Pm.code_lt (k : Pm) : k.code < 4 := by cases k <;> decide
theorem TA.code_lt (k : TA) : k.code < 4 := by cases k <;> decide
theorem Port.code_lt (k : Port) : k.code < 4 := by cases k <;> decide
theorem Scope.code_lt (k : Scope) : k.code < 4 := by cases k <;> decide
theorem Cmp.code_lt (k : Cmp) : k.code < 8 := by cases k <;> decide
theorem RedKind.code_lt (k : RedKind) : k.code < 8 := by cases k <;> decide
theorem SpawnPlace.code_lt (k : SpawnPlace) : k.code < 8 := by cases k <;> decide
theorem Level.code_lt (k : Level) : k.code < 8 := by cases k <;> decide
theorem LldWait.code_lt (k : LldWait) : k.code < 16 := by cases k <;> decide
theorem AtomOp.code_lt (k : AtomOp) : k.code < 16 := by cases k <;> decide
theorem BranchKind.code_lt (k : BranchKind) : k.code < 4 := by cases k <;> decide
theorem b2n_lt (b : Bool) : b2n b < 2 := by cases b <;> decide

theorem Order.code_lt (o : Order) : o.code < 16 := by
  cases o with
  | plain => decide
  | ordered k => have := k.code_lt; simp only [Order.code]; omega

theorem Order.ofCode_eq_ok_iff {n : Nat} {o : Order} : Order.ofCode n = .ok o ↔ n = o.code := by
  unfold Order.ofCode
  cases o with
  | plain => split_ifs <;> simp_all [Order.code]
  | ordered k =>
    have := k.code_lt
    rw [Order.code]
    split_ifs
    · simp only [Except.ok.injEq, reduceCtorEq, false_iff]
      omega
    · rw [Except.ok.injEq, Order.ordered.injEq, Scope.ofCode_eq_iff (by omega)]
      omega
    · simp only [false_iff]
      omega

theorem toNat_ofNat_of_lt {k n : Nat} (hn : n < 2 ^ k) : (BitVec.ofNat k n).toNat = n :=
  (BitVec.toNat_ofNat n k).trans (Nat.mod_eq_of_lt hn)

theorem ofNat_eq_iff {k n : Nat} (hn : n < 2 ^ k) {x : BitVec k} : BitVec.ofNat k n = x ↔ n = x.toNat := by
  rw [BitVec.toNat_eq, toNat_ofNat_of_lt hn]

theorem tgtCode_lt (t : Tgt) : tgtCode t < 512 := by
  cases t with
  | none => decide
  | some d =>
    have := d.port.code_lt
    have := d.slot.isLt
    simp only [tgtCode]
    omega

/-- Port X of slot 127 has no code of its own: 0x1FF stands for no target (R51, R89). -/
theorem tgtOf_eq_iff {n : Nat} (hn : n < 512) {t : Tgt} : tgtOf n = t ↔ tgtOk t = true ∧ n = tgtCode t := by
  unfold tgtOf
  cases t with
  | none => simp [tgtOk, tgtCode]
  | some d =>
    obtain ⟨slot, port⟩ := d
    have := port.code_lt
    have := slot.isLt
    have hx : port = .x ↔ 3 = port.code := by rw [← Port.ofCode_eq_iff (by decide), eq_comm]; rfl
    have hs : slot = 127#7 ↔ 127 = slot.toNat := by rw [← ofNat_eq_iff (by decide), eq_comm]
    have ok : tgtOk (some ⟨slot, port⟩) = true ↔ ¬ (127 = slot.toNat ∧ 3 = port.code) := by
      rw [← hx, ← hs]
      simp only [tgtOk, Bool.or_eq_true, bne_iff_ne]
      tauto
    rw [Option.ite_none_left_eq_some, Option.some.injEq, Dest.mk.injEq, ofNat_eq_iff (by omega),
      Port.ofCode_eq_iff (Nat.mod_lt _ (by decide)), ok]
    dsimp only [tgtCode]
    omega

end Sys2Proof

namespace Sys2Proof

/-! ### The formats (R87): a word is the sum of its fields, each at its place -/

section
variable {w : Word} {op sub : Nat} {t0 t1 : Tgt} {ta : TA} {pm : Pm}

theorem fld_lt (w : Word) (lo width : Nat) : fld w lo width < 2 ^ width := Nat.mod_lt _ (Nat.two_pow_pos _)

/-- A field as a bit vector of its width. -/
theorem toNat_fld (w : Word) (lo k : Nat) : (BitVec.ofNat k (fld w lo k)).toNat = fld w lo k :=
  toNat_ofNat_of_lt (fld_lt w lo k)

theorem t0Of_eq_none_iff : t0Of w = none ↔ fld w 23 9 = 0x1FF :=
  (tgtOf_eq_iff (fld_lt _ _ _)).trans (and_iff_right rfl)

theorem t1Of_eq_none_iff : t1Of w = none ↔ fld w 14 9 = 0x1FF :=
  (tgtOf_eq_iff (fld_lt _ _ _)).trans (and_iff_right rfl)

/-- A number that the fields of format G make up: T0, T1, SUB, TA, PM and OP. -/
theorem toNat_eq_layoutG_iff {a b c d e : Nat} (ha : a < 512) (hb : b < 512) (hc : c < 8) (hd : d < 4) (he : e < 4)
    (hop : op < 128) : w.toNat = a * 2 ^ 23 + b * 2 ^ 14 + c * 2 ^ 11 + d * 2 ^ 9 + e * 2 ^ 7 + op ↔
      fld w 23 9 = a ∧ fld w 14 9 = b ∧ fld w 11 3 = c ∧ fld w 9 2 = d ∧ fld w 7 2 = e ∧ fld w 0 7 = op := by
  have := w.isLt
  unfold fld
  omega

theorem toNat_eq_layoutI_iff {a b d e : Nat} (ha : a < 512) (hb : b < 4096) (hd : d < 4) (he : e < 4)
    (hop : op < 128) : w.toNat = a * 2 ^ 23 + b * 2 ^ 11 + d * 2 ^ 9 + e * 2 ^ 7 + op ↔
      fld w 23 9 = a ∧ fld w 11 12 = b ∧ fld w 9 2 = d ∧ fld w 7 2 = e ∧ fld w 0 7 = op := by
  have := w.isLt
  unfold fld
  omega

theorem toNat_eq_layoutC_iff {a b d e : Nat} (ha : a < 512) (hb : b < 512) (hd : d < 32) (he : e < 4)
    (hop : op < 128) : w.toNat = a * 2 ^ 23 + b * 2 ^ 14 + d * 2 ^ 9 + e * 2 ^ 7 + op ↔
      fld w 23 9 = a ∧ fld w 14 9 = b ∧ fld w 9 5 = d ∧ fld w 7 2 = e ∧ fld w 0 7 = op := by
  have := w.isLt
  unfold fld
  omega

theorem toNat_eq_layoutM_iff {a b c d e : Nat} (ha : a < 512) (hb : b < 16) (hc : c < 32) (hd : d < 32) (he : e < 4)
    (hop : op < 128) : w.toNat = a * 2 ^ 23 + b * 2 ^ 19 + c * 2 ^ 14 + d * 2 ^ 9 + e * 2 ^ 7 + op ↔
      fld w 23 9 = a ∧ fld w 19 4 = b ∧ fld w 14 5 = c ∧ fld w 9 5 = d ∧ fld w 7 2 = e ∧ fld w 0 7 = op := by
  have := w.isLt
  unfold fld
  omega

theorem toNat_eq_layoutRead_iff {a b c : Nat} (ha : a < 512) (hb : b < 512) (hc : c < 64) (hop : op < 128) :
    w.toNat = a * 2 ^ 23 + b * 2 ^ 14 + c * 2 ^ 7 + op ↔
      fld w 23 9 = a ∧ fld w 14 9 = b ∧ fld w 13 1 = 0 ∧ fld w 7 6 = c ∧ fld w 0 7 = op := by
  have := w.isLt
  unfold fld
  omega

theorem toNat_eq_layoutWrite_iff {a b e : Nat} (ha : a < 32) (hb : b < 64) (he : e < 4) (hop : op < 128) :
    w.toNat = a * 2 ^ 15 + b * 2 ^ 9 + e * 2 ^ 7 + op ↔
      fld w 20 12 = 0 ∧ fld w 15 5 = a ∧ fld w 9 6 = b ∧ fld w 7 2 = e ∧ fld w 0 7 = op := by
  have := w.isLt
  unfold fld
  omega

theorem toNat_eq_layoutBr_iff {a d e : Nat} (ha : a < 2 ^ 21) (hd : d < 4) (he : e < 4) (hop : op < 128) :
    w.toNat = a * 2 ^ 11 + d * 2 ^ 9 + e * 2 ^ 7 + op ↔
      fld w 11 21 = a ∧ fld w 9 2 = d ∧ fld w 7 2 = e ∧ fld w 0 7 = op := by
  have := w.isLt
  unfold fld
  omega

/-- The FMT field of WLOAD and WMMA: K, J and one bit more (R96). -/
theorem fld_fmt_tile (w : Word) : fld w 9 5 = fld w 12 2 * 8 + fld w 10 2 * 2 + fld w 9 1 := by
  unfold fld
  omega

/-- The FMT field of CVTT: a bit that is 0, and N (R96). -/
theorem fld_fmt_cvtt (w : Word) : fld w 9 5 = fld w 13 1 * 16 + fld w 9 4 := by
  unfold fld
  omega

theorem gfOf_eq_ok_iff {g : GF} :
    gfOf w = .ok g ↔ t0Of w = g.t0 ∧ t1Of w = g.t1 ∧ taOf w = g.ta ∧ pmOf w = .ok g.pm := by
  obtain ⟨t0, t1, ta, pm⟩ := g
  unfold gfOf
  cases pmOf w <;> simp

theorem ifOf_eq_ok_iff {x : IF} :
    ifOf w = .ok x ↔ t0Of w = x.t0 ∧ BitVec.ofNat 12 (fld w 11 12) = x.imm ∧ taOf w = x.ta ∧ pmOf w = .ok x.pm := by
  obtain ⟨t0, imm, ta, pm⟩ := x
  unfold ifOf
  cases pmOf w <;> simp

theorem toNat_eq_encG_iff {g : GF} (hsub : sub < 8) (hop : op < 128) :
    (tgtOk g.t0 = true ∧ tgtOk g.t1 = true) ∧ w.toNat = encG op sub g ↔
      gfOf w = .ok g ∧ subOf w = sub ∧ fld w 0 7 = op := by
  rw [gfOf_eq_ok_iff, encG, toNat_eq_layoutG_iff (tgtCode_lt _) (tgtCode_lt _) hsub g.ta.code_lt g.pm.code_lt hop, t0Of, t1Of,
    taOf, pmOf, subOf, tgtOf_eq_iff (fld_lt _ _ _), tgtOf_eq_iff (fld_lt _ _ _), TA.ofCode_eq_iff (fld_lt _ _ _), Pm.ofCode_eq_ok_iff]
  tauto

theorem toNat_eq_encI_iff {i : IF} (hop : op < 128) :
    tgtOk i.t0 = true ∧ w.toNat = encI op i ↔ ifOf w = .ok i ∧ fld w 0 7 = op := by
  rw [ifOf_eq_ok_iff, encI, toNat_eq_layoutI_iff (tgtCode_lt _) i.imm.isLt i.ta.code_lt i.pm.code_lt hop, t0Of, taOf, pmOf,
    tgtOf_eq_iff (fld_lt _ _ _), ofNat_eq_iff (fld_lt _ _ _), TA.ofCode_eq_iff (fld_lt _ _ _), Pm.ofCode_eq_ok_iff]
  tauto

theorem toNat_eq_encC_iff {fmt : Nat} (hf : fmt < 32) (hop : op < 128) :
    (tgtOk t0 = true ∧ tgtOk t1 = true) ∧ w.toNat = encC op t0 t1 fmt pm ↔
      t0Of w = t0 ∧ t1Of w = t1 ∧ fld w 9 5 = fmt ∧ pmOf w = .ok pm ∧ fld w 0 7 = op := by
  rw [encC, toNat_eq_layoutC_iff (tgtCode_lt _) (tgtCode_lt _) hf pm.code_lt hop, t0Of, t1Of, pmOf,
    tgtOf_eq_iff (fld_lt _ _ _), tgtOf_eq_iff (fld_lt _ _ _), Pm.ofCode_eq_ok_iff]
  tauto

theorem toNat_eq_encM_iff {q fmt : Nat} {lsid : BitVec 5} (hq : q < 16) (hf : fmt < 32) (hop : op < 128) :
    tgtOk t0 = true ∧ w.toNat = encM op t0 q fmt lsid pm ↔ t0Of w = t0 ∧ fld w 19 4 = q ∧ fld w 14 5 = fmt ∧
      BitVec.ofNat 5 (fld w 9 5) = lsid ∧ pmOf w = .ok pm ∧ fld w 0 7 = op := by
  rw [encM, toNat_eq_layoutM_iff (tgtCode_lt _) hq hf lsid.isLt pm.code_lt hop, t0Of, pmOf,
    tgtOf_eq_iff (fld_lt _ _ _), ofNat_eq_iff (fld_lt _ _ _), Pm.ofCode_eq_ok_iff]
  tauto

end

end Sys2Proof

namespace Sys2Proof

/-! ### A word that decodes is the one word of its instruction (R88) -/

theorem need_eq_ok {b : Bool} {e : Except Reject Instr} {i : Instr} : need b e = .ok i ↔ b = true ∧ e = .ok i := by
  cases b <;> simp [need]

theorem need_decide_eq_ok {p : Prop} [Decidable p] {e : Except Reject Instr} {i : Instr} :
    need (decide p) e = .ok i ↔ p ∧ e = .ok i := by
  rw [need_eq_ok, decide_eq_true_iff]

theorem map_eq_ok {ε α β : Type} {f : α → β} {e : Except ε α} {b : β} : e.map f = .ok b ↔ ∃ a, e = .ok a ∧ f a = b := by
  cases e <;> simp [Except.map]

theorem bind_eq_ok {ε α β : Type} {f : α → Except ε β} {e : Except ε α} {b : β} :
    e.bind f = .ok b ↔ ∃ a, e = .ok a ∧ f a = .ok b := by
  cases e <;> simp [Except.bind]

section
variable {w : Word} {op : Nat} {pm : Pm} {i : Instr}

/-- The word encodes the instruction. -/
def IsWordOf (w : Word) (i : Instr) : Prop := encodeNat i = some w.toNat

variable (hop : fld w 0 7 = op)
include hop

theorem encG_of_gfOf {g : GF} (h : gfOf w = .ok g) : encG op (subOf w) g = w.toNat :=
  ((toNat_eq_encG_iff (fld_lt _ _ _) (hop ▸ fld_lt _ _ _)).mpr ⟨h, rfl, hop⟩).2.symm

theorem encI_of_ifOf {x : IF} (h : ifOf w = .ok x) : encI op x = w.toNat :=
  ((toNat_eq_encI_iff (hop ▸ fld_lt _ _ _)).mpr ⟨h, hop⟩).2.symm

theorem encC_of_pmOf (h : pmOf w = .ok pm) : encC op (t0Of w) (t1Of w) (fld w 9 5) pm = w.toNat :=
  ((toNat_eq_encC_iff (fld_lt _ _ _) (hop ▸ fld_lt _ _ _)).mpr ⟨rfl, rfl, rfl, h, hop⟩).2.symm

theorem encM_of_pmOf (h : pmOf w = .ok pm) :
    encM op (t0Of w) (fld w 19 4) (fld w 14 5) (BitVec.ofNat 5 (fld w 9 5)) pm = w.toNat :=
  ((toNat_eq_encM_iff (fld_lt _ _ _) (fld_lt _ _ _) (hop ▸ fld_lt _ _ _)).mpr ⟨rfl, rfl, rfl, rfl, h, hop⟩).2.symm

omit hop in
theorem fld_t0Of (w : Word) : fld w 23 9 = tgtCode (t0Of w) := ((tgtOf_eq_iff (fld_lt _ _ _)).mp rfl).2

omit hop in
theorem fld_t1Of (w : Word) : fld w 14 9 = tgtCode (t1Of w) := ((tgtOf_eq_iff (fld_lt _ _ _)).mp rfl).2

/-- A word of format G whose value is made of its common fields and of SUB. -/
theorem gfOf_map_isWordOf {k : GF → Instr} (he : ∀ g, encodeNat (k g) = some (encG op (subOf w) g))
    (h : (gfOf w).map k = .ok i) : IsWordOf w i := by
  obtain ⟨g, hg, rfl⟩ := map_eq_ok.mp h
  exact (he g).trans (congrArg some (encG_of_gfOf hop hg))

theorem plainG_isWordOf {k : GF → Instr} (he : ∀ g, encodeNat (k g) = some (encG op 0 g)) (h : plainG w k = .ok i) :
    IsWordOf w i := by
  obtain ⟨hs, h⟩ := need_decide_eq_ok.mp h
  exact gfOf_map_isWordOf hop (fun g => by rw [hs, he]) h

theorem satG_isWordOf {k : GF → Bool → Instr} (he : ∀ g s, encodeNat (k g s) = some (encG op (b2n s) g))
    (h : satG w k = .ok i) : IsWordOf w i := by
  obtain ⟨hs, h⟩ := need_decide_eq_ok.mp h
  exact gfOf_map_isWordOf hop (fun g => (he g _).trans (by rw [← (Bool.ofCode_eq_iff hs).mp rfl])) h

/-- A word of format G with a context in SUB, whose value does not return after commit. -/
theorem ctxOf_isWordOf {k : GF → BitVec 2 → Instr} (he : ∀ g c, encodeNat (k g c) = some (encG op c.toNat g))
    (h : need (subOf w < 4) ((gfOf w).map fun g => k g (BitVec.ofNat 2 (subOf w))) = .ok i) : IsWordOf w i := by
  obtain ⟨hs, h⟩ := need_decide_eq_ok.mp h
  exact gfOf_map_isWordOf hop (fun g => by rw [he, toNat_ofNat_of_lt hs]) h

theorem ifOf_map_isWordOf {k : IF → Instr} (he : ∀ x, encodeNat (k x) = some (encI op x)) (h : (ifOf w).map k = .ok i) :
    IsWordOf w i := by
  obtain ⟨x, hx, rfl⟩ := map_eq_ok.mp h
  exact (he x).trans (congrArg some (encI_of_ifOf hop hx))

theorem cfOf_map_isWordOf {k : CF → Instr} (he : ∀ c, encodeNat (k c) = some (encC op c.t0 c.t1 c.fmt.code c.pm))
    (h : (cfOf w).map k = .ok i) : IsWordOf w i := by
  obtain ⟨c, hc, rfl⟩ := map_eq_ok.mp h
  unfold cfOf at hc
  split at hc
  next pm f hpm hf =>
    cases hc
    exact (he _).trans (congrArg some (fmtOf_eq_ok_iff.mp hf ▸ encC_of_pmOf hop hpm))
  all_goals cases hc

theorem encMF_of_mfOf {m : MF} (h : mfOf w = .ok m) : encMF op m = w.toNat := by
  unfold mfOf at h
  split at h
  next pm f o hpm hf ho =>
    cases h
    have := encM_of_pmOf hop hpm
    rwa [fmtOf_eq_ok_iff.mp hf, Order.ofCode_eq_ok_iff.mp ho] at this
  all_goals cases h

theorem mfOf_map_isWordOf {k : MF → Instr} (he : ∀ m, encodeNat (k m) = some (encMF op m)) (h : (mfOf w).map k = .ok i) :
    IsWordOf w i := by
  obtain ⟨m, hm, rfl⟩ := map_eq_ok.mp h
  exact (he m).trans (congrArg some (encMF_of_mfOf hop hm))

/-- A word of format M with a format and an order, without a target. -/
theorem storeM_isWordOf {k : Order → Tag → BitVec 5 → Pm → Instr}
    (he : ∀ o f l pm, encodeNat (k o f l pm) = some (encM op none o.code f.code l pm))
    (h : need (fld w 23 9 = 0x1FF) ((mfOf w).map fun m => k m.ord m.fmt m.lsid m.pm) = .ok i) : IsWordOf w i := by
  obtain ⟨ht, h⟩ := need_decide_eq_ok.mp h
  obtain ⟨m, hm, rfl⟩ := map_eq_ok.mp h
  have word := encMF_of_mfOf hop hm
  have t0 : m.t0 = none := by
    unfold mfOf at hm
    split at hm <;> cases hm
    exact t0Of_eq_none_iff.mpr ht
  rw [encMF, t0] at word
  exact (he _ _ _ _).trans (congrArg some word)

/-- A word of format G whose T1 is none. -/
theorem encR_of_gfOf {g : GF} (h1 : fld w 14 9 = 0x1FF) (h : gfOf w = .ok g) :
    encR op (subOf w) g.t0 g.ta g.pm = w.toNat := by
  have t1 := t1Of_eq_none_iff.mpr h1
  have := encG_of_gfOf hop h
  unfold gfOf at h
  split at h <;> cases h
  rwa [t1] at this

theorem retG_isWordOf {k : Tgt → TA → Pm → Except Reject Instr}
    (hk : ∀ t0 ta pm, k t0 ta pm = .ok i → encodeNat i = some (encR op (subOf w) t0 ta pm)) (h : retG w k = .ok i) :
    IsWordOf w i := by
  unfold retG noT1 at h
  split at h
  next h1 =>
    obtain ⟨g, hg, h⟩ := bind_eq_ok.mp h
    exact (hk _ _ _ h).trans (congrArg some (encR_of_gfOf hop h1 hg))
  next => cases h

theorem ctxG_isWordOf {k : Tgt → BitVec 2 → TA → Pm → Instr}
    (he : ∀ t0 c ta pm, encodeNat (k t0 c ta pm) = some (encR op c.toNat t0 ta pm)) (h : ctxG w k = .ok i) :
    IsWordOf w i := by
  refine retG_isWordOf hop (fun t0 ta pm h => ?_) h
  obtain ⟨hs, h⟩ := need_decide_eq_ok.mp h
  cases h
  rw [he, toNat_ofNat_of_lt hs]

/-- A returning word whose SUB is 000. -/
theorem retG_plain_isWordOf {k : Tgt → TA → Pm → Instr}
    (he : ∀ t0 ta pm, encodeNat (k t0 ta pm) = some (encR op 0 t0 ta pm))
    (h : retG w (fun t0 ta pm => need (subOf w = 0) (.ok (k t0 ta pm))) = .ok i) : IsWordOf w i := by
  refine retG_isWordOf hop (fun t0 ta pm h => ?_) h
  obtain ⟨hs, h⟩ := need_decide_eq_ok.mp h
  cases h
  rw [he, hs]

/-- A word of format G without targets, whose TA is 00. -/
theorem bareG_isWordOf {k : Pm → Except Reject Instr} (hta : i.bare = true → fld w 9 2 = 0)
    (hk : ∀ pm, k pm = .ok i → i.bare = true ∧ encodeNat i = some (encR op (subOf w) none .same pm))
    (h : bareG w k = .ok i) : IsWordOf w i := by
  obtain ⟨ht, h⟩ := need_eq_ok.mp h
  obtain ⟨pm, hpm, h⟩ := bind_eq_ok.mp h
  obtain ⟨bare, he⟩ := hk pm h
  simp only [Bool.and_eq_true, decide_eq_true_eq] at ht
  have t0 := t0Of_eq_none_iff.mpr ht.2
  have ta : taOf w = .same := (TA.ofCode_eq_iff (fld_lt _ _ _)).mpr (hta bare)
  have hg : gfOf w = .ok ⟨none, t1Of w, .same, pm⟩ := by rw [gfOf, hpm, t0, ta]
  have := encR_of_gfOf hop ht.1 hg
  exact he.trans (congrArg some this)

theorem bareG_plain_isWordOf {k : Pm → Instr} (hta : i.bare = true → fld w 9 2 = 0) (hb : ∀ pm, (k pm).bare = true)
    (he : ∀ pm, encodeNat (k pm) = some (encR op 0 none .same pm))
    (h : bareG w (fun pm => need (subOf w = 0) (.ok (k pm))) = .ok i) : IsWordOf w i := by
  refine bareG_isWordOf hop hta (fun pm h => ?_) h
  obtain ⟨hs, h⟩ := need_decide_eq_ok.mp h
  cases h
  exact ⟨hb pm, by rw [hs, he]⟩

theorem bareI_isWordOf {k : BitVec 12 → Pm → Instr} (hta : i.bare = true → fld w 9 2 = 0) (hb : ∀ x pm, (k x pm).bare = true)
    (he : ∀ x pm, encodeNat (k x pm) = some (encI op ⟨none, x, .same, pm⟩)) (h : bareI w k = .ok i) : IsWordOf w i := by
  obtain ⟨ht, h⟩ := need_decide_eq_ok.mp h
  obtain ⟨pm, hpm, rfl⟩ := map_eq_ok.mp h
  have t0 := t0Of_eq_none_iff.mpr ht
  have ta : taOf w = .same := (TA.ofCode_eq_iff (fld_lt _ _ _)).mpr (hta (hb _ _))
  refine (he _ _).trans (congrArg some (encI_of_ifOf hop ?_))
  rw [ifOf, hpm, t0, ta]

theorem bareM_isWordOf {free : Bool} {k : Tgt → BitVec 5 → Pm → Instr}
    (he : ∀ t0 l pm, (free = false → t0 = none) → encodeNat (k t0 l pm) = some (encM op t0 0 0 l pm))
    (h : bareM w free k = .ok i) : IsWordOf w i := by
  obtain ⟨ht, h⟩ := need_eq_ok.mp h
  split at h
  next hz =>
    obtain ⟨pm, hpm, rfl⟩ := map_eq_ok.mp h
    have t0 : free = false → t0Of w = none := fun hf =>
      t0Of_eq_none_iff.mpr (by rwa [hf, Bool.false_or, decide_eq_true_iff] at ht)
    have := encM_of_pmOf hop hpm
    rw [hz.1, hz.2] at this
    exact (he _ _ _ t0).trans (congrArg some this)
  next => cases h

/-- A word of format C whose T1 is none. -/
theorem tileC_isWordOf {k : Tgt → Pm → Except Reject Instr}
    (hk : ∀ t0 pm, k t0 pm = .ok i → encodeNat i = some (encC op t0 none (fld w 9 5) pm)) (h : tileC w k = .ok i) :
    IsWordOf w i := by
  unfold tileC noT1 at h
  split at h
  next h1 =>
    obtain ⟨pm, hpm, h⟩ := bind_eq_ok.mp h
    have t1 := t1Of_eq_none_iff.mpr h1
    exact (hk _ _ h).trans (congrArg some (t1 ▸ encC_of_pmOf hop hpm))
  next => cases h

/-! #### The opcodes (R97)

The cases of a match stand in the order of the opcodes. -/

theorem decode0_isWordOf (hta : i.bare = true → fld w 9 2 = 0) (h : decode0 op w = .ok i) : IsWordOf w i := by
  unfold decode0 at h
  split at h
  case h_1 => -- READ
    obtain ⟨hz, h⟩ := need_decide_eq_ok.mp h
    cases h
    refine congrArg some ((toNat_eq_layoutRead_iff (tgtCode_lt _) (tgtCode_lt _) (BitVec.isLt _) (by decide)).mpr ?_).symm
    exact ⟨fld_t0Of w, fld_t1Of w, hz, (toNat_fld _ _ _).symm, hop⟩
  case h_2 => -- WRITE
    obtain ⟨hz, h⟩ := need_decide_eq_ok.mp h
    obtain ⟨pm, hpm, rfl⟩ := map_eq_ok.mp h
    refine congrArg some ((toNat_eq_layoutWrite_iff (BitVec.isLt _) (BitVec.isLt _) pm.code_lt (by decide)).mpr ?_).symm
    exact ⟨hz, (toNat_fld _ _ _).symm, (toNat_fld _ _ _).symm, Pm.ofCode_eq_ok_iff.mp hpm, hop⟩
  case h_4 | h_8 => exact ifOf_map_isWordOf hop (fun _ => rfl) h
  case h_6 => -- SEL
    obtain ⟨hs, h⟩ := need_decide_eq_ok.mp h
    split at h
    next hpm =>
      cases h
      have hg : gfOf w = .ok ⟨t0Of w, t1Of w, taOf w, .always⟩ := by rw [gfOf, pmOf, hpm]; rfl
      rw [IsWordOf, ← encG_of_gfOf hop hg, hs]
      rfl
    next => cases h
  case h_7 => exact cfOf_map_isWordOf hop (fun _ => rfl) h
  case h_10 => -- BR
    split at h
    next pm bk hpm hbk =>
      cases h
      refine congrArg some ((toNat_eq_layoutBr_iff (BitVec.isLt _) bk.code_lt pm.code_lt (by decide)).mpr ?_).symm
      exact ⟨(toNat_fld _ _ _).symm, BranchKind.ofCode_eq_ok_iff.mp hbk, Pm.ofCode_eq_ok_iff.mp hpm, hop⟩
    all_goals cases h
  case h_11 => -- BRR
    refine bareG_isWordOf hop hta (fun pm h => ?_) h
    split at h
    next hs =>
      cases h
      exact ⟨rfl, congrArg (fun c => some (encR 0x0B c none .same pm)) ((Bool.ofCode_eq_iff hs).mp rfl).symm⟩
    next => cases h
  case h_12 => exact bareG_plain_isWordOf hop hta (fun _ => rfl) (fun _ => rfl) h
  case h_13 | h_14 => exact bareI_isWordOf hop hta (fun _ _ => rfl) (fun _ _ => rfl) h
  case h_15 => -- FENCE
    obtain ⟨ht, h⟩ := need_decide_eq_ok.mp h
    split at h
    next hz =>
      obtain ⟨pm, hpm, rfl⟩ := map_eq_ok.mp h
      obtain ⟨hf, lo, hi⟩ := hz
      have hq : fld w 19 4 = 8 + (Scope.ofCode (fld w 19 4 - 8)).code := by
        rw [← (Scope.ofCode_eq_iff (n := fld w 19 4 - 8) (by omega)).mp rfl]
        omega
      rw [IsWordOf, ← encM_of_pmOf hop hpm, t0Of_eq_none_iff.mpr ht, hf]
      exact congrArg (fun q => some (encM 0x0F none q 0 _ pm)) hq.symm
    next => cases h
  case h_16 => cases h -- no opcode
  case h_3 | h_5 | h_9 => exact plainG_isWordOf hop (fun _ => rfl) h

theorem decode1_isWordOf (h : decode1 op w = .ok i) : IsWordOf w i := by
  unfold decode1 at h
  split at h
  case h_1 | h_2 | h_3 => exact satG_isWordOf hop (fun _ _ => rfl) h
  case h_12 | h_13 | h_15 | h_16 => exact ifOf_map_isWordOf hop (fun _ => rfl) h
  case h_14 => -- TST
    refine gfOf_map_isWordOf hop (fun g => ?_) h
    exact congrArg (fun c => some (encG 0x1D c g)) ((Cmp.ofCode_eq_iff (fld_lt w 11 3)).mp rfl).symm
  case h_17 => cases h -- no opcode
  all_goals exact plainG_isWordOf hop (fun _ => rfl) h

theorem decode2_isWordOf (h : decode2 op w = .ok i) : IsWordOf w i := by
  unfold decode2 at h
  split at h
  case h_5 | h_6 | h_7 | h_11 | h_12 | h_13 => exact ifOf_map_isWordOf hop (fun _ => rfl) h
  case h_17 => cases h -- no opcode
  all_goals exact plainG_isWordOf hop (fun _ => rfl) h

theorem decode3_isWordOf (h : decode3 op w = .ok i) : IsWordOf w i := by
  unfold decode3 at h
  split at h
  case h_7 | h_8 => exact cfOf_map_isWordOf hop (fun _ => rfl) h
  case h_11 => -- RED
    split at h
    next g k hg hk =>
      cases h
      rw [IsWordOf, ← encG_of_gfOf hop hg, RedKind.ofCode_eq_ok_iff.mp hk]
      rfl
    all_goals cases h
  case h_12 => cases h -- no opcode
  all_goals exact plainG_isWordOf hop (fun _ => rfl) h

theorem decode4_isWordOf (h : decode4 op w = .ok i) : IsWordOf w i := by
  unfold decode4 at h
  split at h
  case h_2 | h_11 => exact storeM_isWordOf hop (fun _ _ _ _ => rfl) h -- ST, MST
  case h_12 => exact bareM_isWordOf hop (fun t0 l pm h => by rw [h rfl]; rfl) h -- PREF
  case h_13 => cases h -- no opcode
  all_goals exact mfOf_map_isWordOf hop (fun _ => rfl) h

theorem decode5_isWordOf (h : decode5 op w = .ok i) : IsWordOf w i := by
  unfold decode5 at h
  split at h
  case h_1 => -- LLD
    split at h
    next pm f q hpm hf hq =>
      cases h
      rw [IsWordOf, ← encM_of_pmOf hop hpm, fmtOf_eq_ok_iff.mp hf, LldWait.ofCode_eq_ok_iff.mp hq]
      rfl
    all_goals cases h
  case h_2 => -- LST
    obtain ⟨ht, h⟩ := need_decide_eq_ok.mp h
    split at h
    next pm f hpm hf =>
      split at h
      next hq =>
        cases h
        rw [IsWordOf, ← encM_of_pmOf hop hpm, fmtOf_eq_ok_iff.mp hf, hq, t0Of_eq_none_iff.mpr ht]
        rfl
      next => cases h
    all_goals cases h
  case h_3 => -- LAMO
    split at h
    next pm f q hpm hf hq =>
      cases h
      rw [IsWordOf, ← encM_of_pmOf hop hpm, fmtOf_eq_ok_iff.mp hf, (AtomOp.ofCode_eq_ok_iff.mp hq).1]
      rfl
    all_goals cases h
  case h_5 | h_6 => exact bareM_isWordOf hop (fun t0 l pm h => by rw [h rfl]; rfl) h
  case h_4 | h_7 | h_8 => exact bareM_isWordOf hop (fun t0 l pm h => rfl) h
  case h_9 => cases h -- no opcode

theorem decode6_isWordOf (hta : i.bare = true → fld w 9 2 = 0) (h : decode6 op w = .ok i) : IsWordOf w i := by
  unfold decode6 at h
  split at h
  case h_1 => -- ALLOC
    refine gfOf_map_isWordOf hop (fun g => ?_) h
    exact congrArg (fun c => some (encG 0x60 c g)) (toNat_fld w 11 3)
  case h_2 | h_3 => exact bareG_plain_isWordOf hop hta (fun _ => rfl) (fun _ => rfl) h
  case h_4 => -- CP
    refine retG_isWordOf hop (fun t0 ta pm h => ?_) h
    cases h
    have lt : subOf w < 8 := fld_lt _ _ _
    have hs : (BitVec.ofNat 2 (subOf w)).toNat + 4 * b2n (Bool.ofCode (subOf w / 4)) = subOf w := by
      rw [← (Bool.ofCode_eq_iff (by omega)).mp rfl, BitVec.toNat_ofNat]
      omega
    exact congrArg (fun c => some (encR 0x63 c t0 ta pm)) hs
  case h_5 | h_6 | h_8 => exact ctxG_isWordOf hop (fun _ _ _ _ => rfl) h
  case h_7 => -- PSET
    refine retG_isWordOf hop (fun t0 ta pm h => ?_) h
    cases h
    exact congrArg (fun c => some (encR 0x66 c t0 ta pm)) (toNat_fld w 11 3)
  case h_9 | h_10 => exact ctxOf_isWordOf hop (fun _ _ => rfl) h
  case h_11 => -- WLOAD
    refine tileC_isWordOf hop (fun t0 pm h => ?_) h
    split at h
    next hz =>
      cases h
      exact congrArg (fun c => some (encC 0x6A t0 none c pm)) (by rw [fld_fmt_tile, hz, toNat_fld, toNat_fld]; rfl)
    next => cases h
  case h_12 => -- WMMA
    refine tileC_isWordOf hop (fun t0 pm h => ?_) h
    cases h
    have sat := (Bool.ofCode_eq_iff (fld_lt w 9 1)).mp rfl
    exact congrArg (fun c => some (encC 0x6B t0 none c pm)) (by rw [fld_fmt_tile, toNat_fld, toNat_fld, ← sat])
  case h_13 => -- CVTT
    refine tileC_isWordOf hop (fun t0 pm h => ?_) h
    split at h
    next hz =>
      cases h
      exact congrArg (fun c => some (encC 0x6C t0 none c pm)) (by rw [fld_fmt_cvtt, hz, toNat_fld, Nat.zero_mul, Nat.zero_add])
    next => cases h
  case h_14 => cases h -- no opcode

theorem decode7_isWordOf (hta : i.bare = true → fld w 9 2 = 0) (h : decode7 op w = .ok i) : IsWordOf w i := by
  unfold decode7 at h
  split at h
  case h_1 => -- SPAWN
    split at h
    next g p hg hp =>
      cases h
      rw [IsWordOf, ← encG_of_gfOf hop hg, SpawnPlace.ofCode_eq_ok_iff.mp hp]
      rfl
    all_goals cases h
  case h_6 => -- WAITC
    split at h
    next g l hg hl =>
      cases h
      rw [IsWordOf, ← encG_of_gfOf hop hg, Level.ofCode_eq_ok_iff.mp hl]
      rfl
    all_goals cases h
  case h_2 | h_3 => exact bareG_plain_isWordOf hop hta (fun _ => rfl) (fun _ => rfl) h
  case h_5 | h_9 | h_11 => exact retG_plain_isWordOf hop (fun _ _ _ => rfl) h
  case h_7 => -- CANCEL
    refine bareG_isWordOf hop hta (fun pm h => ?_) h
    obtain ⟨l, hl, rfl⟩ := map_eq_ok.mp h
    exact ⟨rfl, by rw [Level.ofCode_eq_ok_iff.mp hl]; rfl⟩
  case h_12 => exact ifOf_map_isWordOf hop (fun _ => rfl) h
  case h_13 | h_14 => exact bareI_isWordOf hop hta (fun _ _ => rfl) (fun _ _ => rfl) h
  case h_16 => cases h -- no opcode
  case h_4 | h_8 | h_10 | h_15 => exact plainG_isWordOf hop (fun _ => rfl) h

end

/-! #### The decoder -/

section
variable {w : Word} {i : Instr}

/-- The rows of an opcode. -/
def decodeOp (op : Nat) (w : Word) : Except Reject Instr :=
  match op / 16 with
  | 0 => decode0 op w
  | 1 => decode1 op w
  | 2 => decode2 op w
  | 3 => decode3 op w
  | 4 => decode4 op w
  | 5 => decode5 op w
  | 6 => decode6 op w
  | _ => decode7 op w

theorem decodeRaw_eq (w : Word) : decodeRaw w = decodeOp (fld w 0 7) w := by
  have row : fld w 4 3 = fld w 0 7 / 16 := by
    unfold fld
    omega
  unfold decodeRaw decodeOp
  exact row ▸ rfl

/-- The layout, the field limits and a TA of 00 on the words without targets make a word an instruction (R88, R91, R102). -/
theorem decode_eq_ok_iff :
    decode w = .ok i ↔ decodeRaw w = .ok i ∧ i.fieldsOk = true ∧ (i.bare = true → fld w 9 2 = 0) := by
  unfold decode
  split
  next j hj =>
    rw [hj, Except.ok.injEq]
    split_ifs with hf ht
    · simp only [false_iff]
      rintro ⟨rfl, ok, -⟩
      simp [ok] at hf
    · simp only [false_iff]
      rintro ⟨rfl, -, ta⟩
      simp only [Bool.and_eq_true, decide_eq_true_eq] at ht
      exact ht.2 (ta ht.1)
    · simp only [Bool.not_eq_true', Bool.not_eq_false, Bool.and_eq_true, decide_eq_true_eq, not_and, not_not] at hf ht
      rw [Except.ok.injEq]
      exact ⟨by rintro rfl; exact ⟨rfl, hf, ht⟩, And.left⟩
  next h =>
    rw [h]
    split
    · split_ifs <;> simp
    · simp
  next e _ he => simp [he]

theorem decodeRaw_isWordOf (hta : i.bare = true → fld w 9 2 = 0) (h : decodeRaw w = .ok i) : IsWordOf w i := by
  rw [decodeRaw_eq, decodeOp] at h
  split at h
  · exact decode0_isWordOf rfl hta h
  · exact decode1_isWordOf rfl h
  · exact decode2_isWordOf rfl h
  · exact decode3_isWordOf rfl h
  · exact decode4_isWordOf rfl h
  · exact decode5_isWordOf rfl h
  · exact decode6_isWordOf rfl hta h
  · exact decode7_isWordOf rfl hta h

end

end Sys2Proof

namespace Sys2Proof

/-! ### The word of an instruction decodes to it (R87 to R97) -/

section
variable {w : Word} {op sub n : Nat} {t0 t1 : Tgt} {ta : TA} {pm : Pm} {i : Instr}

/-- The instruction has a word, whose layout decodes to it. -/
def RoundTrip (i : Instr) : Prop := ∃ w : Word, encode i = some w ∧ decodeRaw w = .ok i

theorem roundTrip_of (he : encodeNat i = some n) (hn : n < 2 ^ 32)
    (hd : ∀ w : Word, w.toNat = n → fld w 0 7 = op ∧ decodeOp op w = .ok i) : RoundTrip i := by
  refine ⟨BitVec.ofNat 32 n, congrArg (Option.map (BitVec.ofNat 32)) he, ?_⟩
  obtain ⟨hop, h⟩ := hd _ (toNat_ofNat_of_lt hn)
  rw [decodeRaw_eq, hop, h]

/-- A word of format G. -/
theorem roundTrip_encG {g : GF} (he : encodeNat i = some (encG op sub g)) (hsub : sub < 8) (hop : op < 128)
    (ht : tgtOk g.t0 = true ∧ tgtOk g.t1 = true) (hd : ∀ w, gfOf w = .ok g → subOf w = sub → decodeOp op w = .ok i) :
    RoundTrip i := by
  refine roundTrip_of (op := op) he ?_ fun w hw => ?_
  · have := tgtCode_lt g.t0
    have := tgtCode_lt g.t1
    have := g.ta.code_lt
    have := g.pm.code_lt
    unfold encG
    omega
  · obtain ⟨hg, hs, hop⟩ := (toNat_eq_encG_iff hsub hop).mp ⟨ht, hw⟩
    exact ⟨hop, hd w hg hs⟩

theorem roundTrip_encI {x : IF} (he : encodeNat i = some (encI op x)) (hop : op < 128) (ht : tgtOk x.t0 = true)
    (hd : ∀ w, ifOf w = .ok x → decodeOp op w = .ok i) : RoundTrip i := by
  refine roundTrip_of (op := op) he ?_ fun w hw => ?_
  · have := tgtCode_lt x.t0
    have := x.imm.isLt
    have := x.ta.code_lt
    have := x.pm.code_lt
    unfold encI
    omega
  · obtain ⟨hx, hop⟩ := (toNat_eq_encI_iff hop).mp ⟨ht, hw⟩
    exact ⟨hop, hd w hx⟩

theorem roundTrip_encC {fmt : Nat} (he : encodeNat i = some (encC op t0 t1 fmt pm)) (hf : fmt < 32) (hop : op < 128)
    (ht : tgtOk t0 = true ∧ tgtOk t1 = true)
    (hd : ∀ w, t0Of w = t0 → t1Of w = t1 → fld w 9 5 = fmt → pmOf w = .ok pm → decodeOp op w = .ok i) : RoundTrip i := by
  refine roundTrip_of (op := op) he ?_ fun w hw => ?_
  · have := tgtCode_lt t0
    have := tgtCode_lt t1
    have := pm.code_lt
    unfold encC
    omega
  · obtain ⟨h0, h1, h9, hpm, hop⟩ := (toNat_eq_encC_iff hf hop).mp ⟨ht, hw⟩
    exact ⟨hop, hd w h0 h1 h9 hpm⟩

theorem roundTrip_encM {q fmt : Nat} {lsid : BitVec 5} (he : encodeNat i = some (encM op t0 q fmt lsid pm)) (hq : q < 16)
    (hf : fmt < 32) (hop : op < 128) (ht : tgtOk t0 = true)
    (hd : ∀ w, t0Of w = t0 → fld w 19 4 = q → fld w 14 5 = fmt → BitVec.ofNat 5 (fld w 9 5) = lsid → pmOf w = .ok pm →
      decodeOp op w = .ok i) : RoundTrip i := by
  refine roundTrip_of (op := op) he ?_ fun w hw => ?_
  · have := tgtCode_lt t0
    have := lsid.isLt
    have := pm.code_lt
    unfold encM
    omega
  · obtain ⟨h0, h19, h14, h9, hpm, hop⟩ := (toNat_eq_encM_iff hq hf hop).mp ⟨ht, hw⟩
    exact ⟨hop, hd w h0 h19 h14 h9 hpm⟩

/-! #### What the rows read from the fields -/

theorem map_ok {α : Type} {e : Except Reject α} {a : α} (k : α → Instr) (h : e = .ok a) : e.map k = .ok (k a) := by rw [h]; rfl

theorem plainG_ok {g : GF} (k : GF → Instr) (hg : gfOf w = .ok g) (hs : subOf w = 0) : plainG w k = .ok (k g) :=
  need_decide_eq_ok.mpr ⟨hs, map_ok k hg⟩

theorem satG_ok {g : GF} {b : Bool} (k : GF → Bool → Instr) (hg : gfOf w = .ok g) (hs : subOf w = b2n b) :
    satG w k = .ok (k g b) := by
  refine need_decide_eq_ok.mpr ⟨hs ▸ b2n_lt b, ?_⟩
  rw [hg, (Bool.ofCode_eq_iff (hs ▸ b2n_lt b)).mpr hs]
  rfl

/-- A context in SUB[1:0]. -/
theorem ctxOf_ok {g : GF} {c : BitVec 2} (k : GF → BitVec 2 → Instr) (hg : gfOf w = .ok g) (hs : subOf w = c.toNat) :
    need (subOf w < 4) ((gfOf w).map fun g => k g (BitVec.ofNat 2 (subOf w))) = .ok (k g c) := by
  refine need_decide_eq_ok.mpr ⟨hs ▸ c.isLt, ?_⟩
  rw [hg, (ofNat_eq_iff (hs ▸ c.isLt)).mpr hs]
  rfl

theorem cfOf_ok {c : CF} (h0 : t0Of w = c.t0) (h1 : t1Of w = c.t1) (h9 : fld w 9 5 = c.fmt.code) (hpm : pmOf w = .ok c.pm) :
    cfOf w = .ok c := by
  rw [cfOf, hpm, fmtOf_eq_ok_iff.mpr h9, h0, h1]

theorem mfOf_ok {m : MF} (h0 : t0Of w = m.t0) (h19 : fld w 19 4 = m.ord.code) (h14 : fld w 14 5 = m.fmt.code)
    (h9 : BitVec.ofNat 5 (fld w 9 5) = m.lsid) (hpm : pmOf w = .ok m.pm) : mfOf w = .ok m := by
  rw [mfOf, hpm, fmtOf_eq_ok_iff.mpr h14, Order.ofCode_eq_ok_iff.mpr h19, h0, h9]

theorem storeM_ok {o : Order} {f : Tag} {l : BitVec 5} (k : Order → Tag → BitVec 5 → Pm → Instr) (h0 : t0Of w = none)
    (h19 : fld w 19 4 = o.code) (h14 : fld w 14 5 = f.code) (h9 : BitVec.ofNat 5 (fld w 9 5) = l) (hpm : pmOf w = .ok pm) :
    need (fld w 23 9 = 0x1FF) ((mfOf w).map fun m => k m.ord m.fmt m.lsid m.pm) = .ok (k o f l pm) :=
  need_decide_eq_ok.mpr ⟨t0Of_eq_none_iff.mp h0, map_ok _ (mfOf_ok (m := ⟨none, o, f, l, pm⟩) h0 h19 h14 h9 hpm)⟩

theorem bareM_ok {l : BitVec 5} (k : Tgt → BitVec 5 → Pm → Instr) (h0 : t0Of w = t0) (h19 : fld w 19 4 = 0)
    (h14 : fld w 14 5 = 0) (h9 : BitVec.ofNat 5 (fld w 9 5) = l) (hpm : pmOf w = .ok pm) :
    bareM w true k = .ok (k t0 l pm) := by
  refine need_eq_ok.mpr ⟨rfl, ?_⟩
  rw [if_pos ⟨h14, h19⟩, hpm, h0, h9]
  rfl

theorem bareM_noTarget_ok {l : BitVec 5} (k : BitVec 5 → Pm → Instr) (h0 : t0Of w = none) (h19 : fld w 19 4 = 0)
    (h14 : fld w 14 5 = 0) (h9 : BitVec.ofNat 5 (fld w 9 5) = l) (hpm : pmOf w = .ok pm) :
    bareM w false (fun _ l pm => k l pm) = .ok (k l pm) := by
  refine need_eq_ok.mpr ⟨decide_eq_true (t0Of_eq_none_iff.mp h0), ?_⟩
  rw [if_pos ⟨h14, h19⟩, hpm, h9]
  rfl

theorem retG_ok {k : Tgt → TA → Pm → Except Reject Instr} (hg : gfOf w = .ok ⟨t0, none, ta, pm⟩) (h : k t0 ta pm = .ok i) :
    retG w k = .ok i := by
  rw [retG, noT1, if_pos (t1Of_eq_none_iff.mp (gfOf_eq_ok_iff.mp hg).2.1), hg]
  exact h

theorem ctxG_ok {c : BitVec 2} (k : Tgt → BitVec 2 → TA → Pm → Instr) (hg : gfOf w = .ok ⟨t0, none, ta, pm⟩)
    (hs : subOf w = c.toNat) : ctxG w k = .ok (k t0 c ta pm) := by
  refine retG_ok hg (need_decide_eq_ok.mpr ⟨hs ▸ c.isLt, ?_⟩)
  rw [(ofNat_eq_iff (hs ▸ c.isLt)).mpr hs]

theorem retG_plain_ok (k : Tgt → TA → Pm → Instr) (hg : gfOf w = .ok ⟨t0, none, ta, pm⟩) (hs : subOf w = 0) :
    retG w (fun t0 ta pm => need (subOf w = 0) (.ok (k t0 ta pm))) = .ok (k t0 ta pm) :=
  retG_ok hg (need_decide_eq_ok.mpr ⟨hs, rfl⟩)

theorem bareG_ok {k : Pm → Except Reject Instr} (hg : gfOf w = .ok ⟨none, none, ta, pm⟩) (h : k pm = .ok i) :
    bareG w k = .ok i := by
  obtain ⟨h0, h1, -, hpm⟩ := gfOf_eq_ok_iff.mp hg
  refine need_eq_ok.mpr ⟨?_, bind_eq_ok.mpr ⟨pm, hpm, h⟩⟩
  rw [t0Of_eq_none_iff.mp h0, t1Of_eq_none_iff.mp h1]
  rfl

theorem bareI_ok {imm : BitVec 12} (k : BitVec 12 → Pm → Instr) (hx : ifOf w = .ok ⟨none, imm, ta, pm⟩) :
    bareI w k = .ok (k imm pm) := by
  obtain ⟨h0, himm, -, hpm⟩ := ifOf_eq_ok_iff.mp hx
  refine need_decide_eq_ok.mpr ⟨t0Of_eq_none_iff.mp h0, ?_⟩
  rw [himm, hpm]
  rfl

theorem tileC_ok {k : Tgt → Pm → Except Reject Instr} (h0 : t0Of w = t0) (h1 : t1Of w = none) (hpm : pmOf w = .ok pm)
    (h : k t0 pm = .ok i) : tileC w k = .ok i := by
  rw [tileC, noT1, if_pos (t1Of_eq_none_iff.mp h1), hpm, h0]
  exact h

theorem targets_of_ok {g : GF} (h : g.ok = true) : tgtOk g.t0 = true ∧ tgtOk g.t1 = true := by
  simp only [GF.ok, Bool.and_eq_true] at h
  exact ⟨h.1.1.1, h.1.1.2⟩

end

/-! #### Words with a layout of their own -/

theorem roundTrip_read {t0 t1 : Tgt} {reg : BitVec 6} (h0 : tgtOk t0 = true) (h1 : tgtOk t1 = true) :
    RoundTrip (.read t0 t1 reg) := by
  have a := tgtCode_lt t0
  have b := tgtCode_lt t1
  refine roundTrip_of (op := 0x01) rfl (by omega) fun w hw => ?_
  obtain ⟨h23, h14, h13, h7, hop⟩ := (toNat_eq_layoutRead_iff a b reg.isLt (by decide)).mp hw
  refine ⟨hop, need_decide_eq_ok.mpr ⟨h13, ?_⟩⟩
  rw [t0Of, t1Of, (tgtOf_eq_iff (fld_lt _ _ _)).mpr ⟨h0, h23⟩, (tgtOf_eq_iff (fld_lt _ _ _)).mpr ⟨h1, h14⟩,
    (ofNat_eq_iff (fld_lt _ _ _)).mpr h7]

theorem roundTrip_write {wid : BitVec 5} {reg : BitVec 6} {pm : Pm} : RoundTrip (.write wid reg pm) := by
  have e := pm.code_lt
  refine roundTrip_of (op := 0x02) rfl (by omega) fun w hw => ?_
  obtain ⟨h20, h15, h9, h7, hop⟩ := (toNat_eq_layoutWrite_iff wid.isLt reg.isLt e (by decide)).mp hw
  refine ⟨hop, need_decide_eq_ok.mpr ⟨h20, ?_⟩⟩
  rw [(ofNat_eq_iff (fld_lt _ _ _)).mpr h15, (ofNat_eq_iff (fld_lt _ _ _)).mpr h9]
  exact map_ok _ (Pm.ofCode_eq_ok_iff.mpr h7)

theorem roundTrip_br {off : BitVec 21} {bk : BranchKind} {pm : Pm} : RoundTrip (.br off bk pm) := by
  have d := bk.code_lt
  have e := pm.code_lt
  refine roundTrip_of (op := 0x0A) rfl (by omega) fun w hw => ?_
  obtain ⟨h11, h9, h7, hop⟩ := (toNat_eq_layoutBr_iff off.isLt d e (by decide)).mp hw
  refine ⟨hop, ?_⟩
  show decode0 0x0A w = _
  rw [decode0, pmOf, Pm.ofCode_eq_ok_iff.mpr h7, BranchKind.ofCode_eq_ok_iff.mpr h9, (ofNat_eq_iff (fld_lt _ _ _)).mpr h11]

/-- SEL reads no PM, whose field is 00 (R90). -/
theorem selRow_ok {w : Word} {t0 t1 : Tgt} {ta : TA} (hg : gfOf w = .ok ⟨t0, t1, ta, .always⟩) (hs : subOf w = 0) :
    decode0 0x06 w = .ok (.sel t0 t1 ta) := by
  obtain ⟨h0, h1, hta, hpm⟩ := gfOf_eq_ok_iff.mp hg
  refine need_decide_eq_ok.mpr ⟨hs, ?_⟩
  rw [if_pos (show fld w 7 2 = 0 from Pm.ofCode_eq_ok_iff.mp hpm), h0, h1, hta]

theorem roundTrip_fence {scope : Scope} {l : BitVec 5} {pm : Pm} : RoundTrip (.fence scope l pm) := by
  have lt := scope.code_lt
  refine roundTrip_encM rfl (by omega) (by decide) (by decide) rfl fun w h0 h19 h14 h9 hpm =>
    need_decide_eq_ok.mpr ⟨t0Of_eq_none_iff.mp h0, ?_⟩
  rw [if_pos (by omega), h9, (Scope.ofCode_eq_iff (k := scope) (by omega)).mpr (by omega)]
  exact map_ok _ hpm

theorem roundTrip_lst {fmt : Tag} {l : BitVec 5} {pm : Pm} : RoundTrip (.lst fmt l pm) := by
  refine roundTrip_encM rfl (by decide) fmt.code_lt (by decide) rfl fun w h0 h19 h14 h9 hpm =>
    need_decide_eq_ok.mpr ⟨t0Of_eq_none_iff.mp h0, ?_⟩
  rw [hpm, fmtOf_eq_ok_iff.mpr h14]
  exact (if_pos h19).trans (by rw [h9])

theorem roundTrip_cp {t0 : Tgt} {c : BitVec 2} {rv : Bool} {ta : TA} {pm : Pm} (ht : tgtOk t0 = true) :
    RoundTrip (.cp t0 c rv ta pm) := by
  have := c.isLt
  have := b2n_lt rv
  refine roundTrip_encG rfl (by omega) (by decide) ⟨ht, rfl⟩ fun w hg hs => ?_
  have hc : BitVec.ofNat 2 (subOf w) = c := by rw [BitVec.toNat_eq, BitVec.toNat_ofNat]; omega
  have hr : Bool.ofCode (subOf w / 4) = rv := (Bool.ofCode_eq_iff (by omega)).mpr (by omega)
  exact retG_ok (k := fun t0 ta pm => .ok (.cp t0 (BitVec.ofNat 2 (subOf w)) (Bool.ofCode (subOf w / 4)) ta pm)) hg
    (by rw [hc, hr])

theorem roundTrip_wload {t0 : Tgt} {k j : BitVec 2} {pm : Pm} (ht : tgtOk t0 = true) : RoundTrip (.wload t0 k j pm) := by
  have := k.isLt
  have := j.isLt
  refine roundTrip_encC rfl (by omega) (by decide) ⟨ht, rfl⟩ fun w h0 h1 h9 hpm => ?_
  rw [fld_fmt_tile] at h9
  have a : fld w 10 2 < 4 := fld_lt _ _ _
  have b : fld w 9 1 < 2 := fld_lt _ _ _
  refine tileC_ok (k := fun t0 pm => if fld w 9 1 = 0 then
    .ok (.wload t0 (BitVec.ofNat 2 (fld w 12 2)) (BitVec.ofNat 2 (fld w 10 2)) pm) else .error .field) h0 h1 hpm ?_
  rw [if_pos (by omega), (ofNat_eq_iff (x := k) (by omega)).mpr (by omega), (ofNat_eq_iff (x := j) (by omega)).mpr (by omega)]

theorem roundTrip_wmma {t0 : Tgt} {k j : BitVec 2} {sat : Bool} {pm : Pm} (ht : tgtOk t0 = true) :
    RoundTrip (.wmma t0 k j sat pm) := by
  have := k.isLt
  have := j.isLt
  have := b2n_lt sat
  refine roundTrip_encC rfl (by omega) (by decide) ⟨ht, rfl⟩ fun w h0 h1 h9 hpm => ?_
  rw [fld_fmt_tile] at h9
  have a : fld w 10 2 < 4 := fld_lt _ _ _
  have b : fld w 9 1 < 2 := fld_lt _ _ _
  refine tileC_ok (k := fun t0 pm => .ok (.wmma t0 (BitVec.ofNat 2 (fld w 12 2)) (BitVec.ofNat 2 (fld w 10 2))
    (Bool.ofCode (fld w 9 1)) pm)) h0 h1 hpm ?_
  rw [(ofNat_eq_iff (x := k) (by omega)).mpr (by omega), (ofNat_eq_iff (x := j) (by omega)).mpr (by omega),
    (Bool.ofCode_eq_iff (b := sat) (by omega)).mpr (by omega)]

theorem roundTrip_cvtt {t0 : Tgt} {n : BitVec 4} {pm : Pm} (ht : tgtOk t0 = true) : RoundTrip (.cvtt t0 n pm) := by
  have := n.isLt
  refine roundTrip_encC rfl (by omega) (by decide) ⟨ht, rfl⟩ fun w h0 h1 h9 hpm => ?_
  rw [fld_fmt_cvtt] at h9
  have a : fld w 9 4 < 16 := fld_lt _ _ _
  refine tileC_ok (k := fun t0 pm => if fld w 13 1 = 0 then .ok (.cvtt t0 (BitVec.ofNat 4 (fld w 9 4)) pm)
    else .error .field) h0 h1 hpm ?_
  rw [if_pos (by omega), (ofNat_eq_iff (x := n) (by omega)).mpr (by omega)]

/-! #### Every word (R97) -/

theorem roundTrip {i : Instr} (hw : i.wf = true) (hc : Machine.Instr.cls i ≠ .event) : RoundTrip i := by
  obtain ⟨hf, ht⟩ := (Bool.and_eq_true _ _).mp hw
  cases i with
  | mov | nul | tagof | mulh | div | rem | fma | min | max | abs | neg | and | or | xor | not | shl | shr | sar | clz | popc
  | bfx | sqrt | rcp | rsqrt | exp2 | log2 | tanh | ldexp | fclass | await | tnow | swq | self =>
    exact roundTrip_encG rfl (by decide) (by decide) (targets_of_ok ht) fun w hg hs => plainG_ok _ hg hs
  | add | sub | mul =>
    exact roundTrip_encG rfl ((b2n_lt _).trans (by decide)) (by decide) (targets_of_ok ht) fun w hg hs => satG_ok _ hg hs
  | twait g c | tread g c =>
    exact roundTrip_encG rfl (c.isLt.trans (by decide)) (by decide) (targets_of_ok ht) fun w hg hs => ctxOf_ok _ hg hs
  | movi | addi | muli | teqi | tlti | andi | ori | xori | shli | shri | sari | pld | sysrd =>
    exact roundTrip_encI rfl (by decide) ((Bool.and_eq_true _ _).mp ht).1 fun w hx => map_ok _ hx
  | retag c | cvt c | cvtz c =>
    simp only [Instr.targetsOk, CF.ok, Bool.and_eq_true] at ht
    exact roundTrip_encC rfl c.fmt.code_lt (by decide) ht.1 fun w h0 h1 h9 hpm => map_ok _ (cfOf_ok h0 h1 h9 hpm)
  | ld m =>
    exact roundTrip_encM rfl m.ord.code_lt m.fmt.code_lt (by decide) ht fun w h0 h19 h14 h9 hpm =>
      map_ok _ (mfOf_ok h0 h19 h14 h9 hpm)
  | aadd m | amin m | amax m | aand m | aor m | axor m | aswp m | acas m =>
    exact roundTrip_encM rfl m.ord.code_lt m.fmt.code_lt (by decide) ((Bool.and_eq_true _ _).mp ht).1
      fun w h0 h19 h14 h9 hpm => map_ok _ (mfOf_ok h0 h19 h14 h9 hpm)
  | st o f | mst o f =>
    exact roundTrip_encM rfl o.code_lt f.code_lt (by decide) rfl fun w h0 h19 h14 h9 hpm => storeM_ok _ h0 h19 h14 h9 hpm
  | pref | fes | binit =>
    exact roundTrip_encM rfl (by decide) (by decide) (by decide) rfl fun w h0 h19 h14 h9 hpm =>
      bareM_noTarget_ok _ h0 h19 h14 h9 hpm
  | few | lsz =>
    exact roundTrip_encM rfl (by decide) (by decide) (by decide) ht fun w h0 h19 h14 h9 hpm =>
      bareM_ok _ h0 h19 h14 h9 hpm
  | barr =>
    exact roundTrip_encM rfl (by decide) (by decide) (by decide) ((Bool.and_eq_true _ _).mp ht).1 fun w h0 h19 h14 h9 hpm =>
      bareM_ok _ h0 h19 h14 h9 hpm
  | exit | free | rels | ref | drop =>
    exact roundTrip_encG rfl (by decide) (by decide) ⟨rfl, rfl⟩ fun w hg hs =>
      bareG_ok hg (need_decide_eq_ok.mpr ⟨hs, rfl⟩)
  | trap | bkpt | syswr | prof => exact roundTrip_encI rfl (by decide) rfl fun w hx => bareI_ok _ hx
  | cpg t0 c | cps t0 c | cpp t0 c =>
    simp only [Instr.targetsOk, Bool.and_eq_true] at ht
    exact roundTrip_encG rfl (c.isLt.trans (by decide)) (by decide) ⟨ht.1.1, rfl⟩ fun w hg hs => ctxG_ok _ hg hs
  | launch | tickw | kvgrow =>
    simp only [Instr.targetsOk, Bool.and_eq_true] at ht
    exact roundTrip_encG rfl (by decide) (by decide) ⟨ht.1.1, rfl⟩ fun w hg hs => retG_plain_ok _ hg hs
  | read t0 t1 reg =>
    simp only [Instr.targetsOk, Bool.and_eq_true] at ht
    exact roundTrip_read ht.1.1 ht.1.2
  | write => exact roundTrip_write
  | br => exact roundTrip_br
  | sel t0 t1 ta =>
    simp only [Instr.targetsOk, Bool.and_eq_true] at ht
    exact roundTrip_encG rfl (by decide) (by decide) ht.1.1 fun w hg hs => selRow_ok hg hs
  | brr call pm =>
    refine roundTrip_encG rfl ((b2n_lt call).trans (by decide)) (by decide) ⟨rfl, rfl⟩ fun w hg hs => bareG_ok hg ?_
    rw [if_pos (hs ▸ b2n_lt call), (Bool.ofCode_eq_iff (hs ▸ b2n_lt call)).mpr hs]
  | cancel l pm =>
    refine roundTrip_encG rfl l.code_lt (by decide) ⟨rfl, rfl⟩ fun w hg hs => bareG_ok hg ?_
    rw [Level.ofCode_eq_ok_iff.mpr hs]
    rfl
  | tst g cc =>
    refine roundTrip_encG rfl cc.code_lt (by decide) (targets_of_ok ht) fun w hg hs => ?_
    exact (map_ok _ hg).trans (by rw [(Cmp.ofCode_eq_iff (hs ▸ cc.code_lt)).mpr hs])
  | alloc g a =>
    refine roundTrip_encG rfl a.isLt (by decide) (targets_of_ok ht) fun w hg hs => ?_
    exact (map_ok _ hg).trans (by rw [(ofNat_eq_iff (hs ▸ a.isLt)).mpr hs])
  | pset t0 reg ta pm =>
    simp only [Instr.targetsOk, Bool.and_eq_true] at ht
    exact roundTrip_encG rfl reg.isLt (by decide) ⟨ht.1.1, rfl⟩ fun w hg hs =>
      retG_ok (k := fun t0 ta pm => .ok (.pset t0 (BitVec.ofNat 3 (subOf w)) ta pm)) hg
        (by rw [(ofNat_eq_iff (hs ▸ reg.isLt)).mpr hs])
  | cp =>
    simp only [Instr.targetsOk, Bool.and_eq_true] at ht
    exact roundTrip_cp ht.1.1
  | red g k =>
    refine roundTrip_encG rfl k.code_lt (by decide) (targets_of_ok ht) fun w hg hs => ?_
    show decode3 0x3A w = _
    rw [decode3, hg, RedKind.ofCode_eq_ok_iff.mpr hs]
  | spawn g p =>
    refine roundTrip_encG rfl p.code_lt (by decide) (targets_of_ok ht) fun w hg hs => ?_
    show decode7 0x70 w = _
    rw [decode7, hg, SpawnPlace.ofCode_eq_ok_iff.mpr hs]
  | waitc g l =>
    refine roundTrip_encG rfl l.code_lt (by decide) (targets_of_ok ht) fun w hg hs => ?_
    show decode7 0x75 w = _
    rw [decode7, hg, Level.ofCode_eq_ok_iff.mpr hs]
  | fence => exact roundTrip_fence
  | lld t0 wait fmt l pm =>
    refine roundTrip_encM rfl wait.code_lt fmt.code_lt (by decide) ht fun w h0 h19 h14 h9 hpm => ?_
    show decode5 0x50 w = _
    rw [decode5, hpm, fmtOf_eq_ok_iff.mpr h14, LldWait.ofCode_eq_ok_iff.mpr h19, h0, h9]
  | lst => exact roundTrip_lst
  | lamo t0 o fmt l pm =>
    have noCas : o ≠ .cas := by
      rintro rfl
      exact nomatch hf
    refine roundTrip_encM rfl o.code_lt fmt.code_lt (by decide) ((Bool.and_eq_true _ _).mp ht).1
      fun w h0 h19 h14 h9 hpm => ?_
    show decode5 0x52 w = _
    rw [decode5, hpm, fmtOf_eq_ok_iff.mpr h14, AtomOp.ofCode_eq_ok_iff.mpr ⟨h19, noCas⟩, h0, h9]
  | wload => exact roundTrip_wload ((Bool.and_eq_true _ _).mp ht).1
  | wmma => exact roundTrip_wmma ((Bool.and_eq_true _ _).mp ht).1
  | cvtt => exact roundTrip_cvtt ((Bool.and_eq_true _ _).mp ht).1
  | _ => exact absurd rfl hc

/-! #### TA of the words without targets (R93, R95) -/

theorem fld_ta_encR {op sub : Nat} {pm : Pm} (hop : op < 128) : fld (BitVec.ofNat 32 (encR op sub none .same pm)) 9 2 = 0 := by
  have := pm.code_lt
  simp only [fld, encR, encG, TA.code, BitVec.toNat_ofNat]
  omega

theorem fld_ta_encI {op : Nat} {imm : BitVec 12} {pm : Pm} (hop : op < 128) :
    fld (BitVec.ofNat 32 (encI op ⟨none, imm, .same, pm⟩)) 9 2 = 0 := by
  have := pm.code_lt
  simp only [fld, encI, TA.code, BitVec.toNat_ofNat]
  omega

theorem fld_ta_of_bare {i : Instr} {w : Word} (hb : i.bare = true) (h : encode i = some w) : fld w 9 2 = 0 := by
  cases i with
  | brr | exit | free | rels | ref | drop | cancel =>
    cases h
    exact fld_ta_encR (by decide)
  | trap | bkpt | syswr | prof =>
    cases h
    exact fld_ta_encI (by decide)
  | _ => cases hb

end Sys2Proof

open Sys2Proof in
/-- Settles O1: the fields of the sum that encodes a word are those that its row of the opcode map reads. -/
theorem decodeEncode : Obligations.DecodeEncode := by
  intro i hw hc
  obtain ⟨w, he, raw⟩ := roundTrip hw hc
  obtain ⟨hf, -⟩ := (Bool.and_eq_true _ _).mp hw
  exact ⟨w, he, decode_eq_ok_iff.mpr ⟨raw, hf, fun hb => fld_ta_of_bare hb he⟩⟩

open Sys2Proof in
/-- Settles O2: each row of the opcode map gives back the sum of the fields that it has read. -/
theorem decodedIsEncoded : Obligations.DecodedIsEncoded := by
  intro w i h
  obtain ⟨raw, -, ta⟩ := decode_eq_ok_iff.mp h
  have word : encodeNat i = some w.toNat := decodeRaw_isWordOf ta raw
  rw [encode, word]
  exact congrArg some (BitVec.eq_of_toNat_eq (toNat_ofNat_of_lt w.isLt))

/-- Settles O3 by running the decoder on each word. -/
theorem decodeSanity : Obligations.DecodeSanity := by
  unfold Obligations.DecodeSanity
  decide

namespace Sys2Proof.Machine

variable {s : State} {f : Firing} {i : Instr}

/-! ### POISON on ports that steer a word or count for it (R90, R144, R170) -/

/-- The words that the gate of their ports lets through or stops: SYSRD looks at its graph first (R205). -/
def gated (i : Instr) : Bool :=
  match i with
  | .sysrd _ => false
  | i => Instr.cls i = .store || Instr.cls i = .fire || Instr.cls i = .branch

theorem effectWord_flt {uses : State → Firing → List (PortUse × Token)} {null : State → Firing → State} {k : Firing → State → State}
    {c : Code} (hl : OnLane s f i)
    (hg : gate (Instr.predicate i) (predTokOf s f (Instr.predicate i)) (uses (popLane s) f) = .flt c) :
    effectWord s i uses null k = .next (raiseAt (popLane s) f ⟨c, 0⟩) := by
  unfold effectWord
  rw [onLane_fires hl]
  simp [hg]

theorem fireGate_flt {us : List (PortUse × Token)} {k : State → State} {c : Code}
    (hg : gate (Instr.predicate i) (predTokOf s f (Instr.predicate i)) us = .flt c) :
    fireGate (popLane s) f i us k = raiseAt (popLane s) f ⟨c, 0⟩ := by
  simp [fireGate, hg]

theorem exec_branch_flt {c : Code} (h : Instr.cls i = .branch) (hl : OnLane s f i)
    (hg : gate (Instr.predicate i) (predTokOf s f (Instr.predicate i)) (portUses i s f) = .flt c) :
    exec i s = .next (raiseAt (popLane s) f ⟨c, 0⟩) := by
  cases i with
  | br off k pm =>
    rw [exec_br, execBr]
    exact effectWord_flt hl (triggerUses_br off k pm ▸ hg)
  | brr | exit =>
    unfold exec
    exact effectWord_flt hl hg
  | _ => cases h

/-- A fault that the gate finds is raised at the word's slot, and the word does nothing. -/
theorem exec_flt {c : Code} (h : gated i = true) (hl : OnLane s f i)
    (hg : gate (Instr.predicate i) (predTokOf s f (Instr.predicate i)) (portUses i s f) = .flt c) :
    exec i s = .next (raiseAt (popLane s) f ⟨c, 0⟩) := by
  have noSysrd : ∀ j, i ≠ .sysrd j := by
    rintro j rfl
    cases h
  have cls : (Instr.cls i = .store ∨ Instr.cls i = .fire) ∨ Instr.cls i = .branch := by
    unfold gated at h
    split at h
    · cases h
    · simpa using h
  obtain (store | fire) | branch := cls
  · obtain ⟨k, hk⟩ := exec_store store s
    exact hk.trans (effectWord_flt hl hg)
  · obtain ⟨k, hk⟩ := exec_fire fire hl fun j hj => absurd hj (noSysrd j)
    exact hk.trans (congrArg _ (fireGate_flt hg))
  · exact exec_branch_flt branch hl hg

/-! #### The ports by their uses -/

theorem steerPorts_table (i : Instr) :
    ((steerPorts i).all fun q => gated i && (Instr.dataPorts i).contains q && portUse i q = .steer) = true := by
  cases i with
  | br _ _ pm | trap _ pm | bkpt _ pm => cases pm <;> rfl
  | _ => rfl

theorem countPorts_table (i : Instr) :
    ((countPorts i).all fun q => gated i && (Instr.dataPorts i).contains q && portUse i q = .count) = true := by
  cases i with
  | _ => rfl

theorem steerPorts_spec {q : Port} (h : q ∈ steerPorts i) :
    gated i = true ∧ q ∈ Instr.dataPorts i ∧ portUse i q = .steer := by
  have := List.all_eq_true.mp (steerPorts_table i) q h
  simpa [and_assoc] using this

theorem countPorts_spec {q : Port} (h : q ∈ countPorts i) :
    gated i = true ∧ q ∈ Instr.dataPorts i ∧ portUse i q = .count := by
  have := List.all_eq_true.mp (countPorts_table i) q h
  simpa [and_assoc] using this

theorem mem_steerPorts_of_portUse {q : Port} (h : portUse i q = .steer) : q ∈ steerPorts i := by
  unfold portUse at h
  split_ifs at h with _ hs
  · exact List.contains_iff_mem.mp hs
  · split at h <;> cases h

/-! #### The uses that POISON counts for -/

/-- The uses of the ports that carry POISON; P's counts as POISON on every port (R90). -/
def poisonUses (p : Option Token) (us : List (PortUse × Token)) : List PortUse :=
  if anyTag .poison p.toList then us.map Prod.fst else (us.filter fun u => u.2.tag = .poison).map Prod.fst

theorem gate_of_poisonGate {pm : Pm} {p : Option Token} {us : List (PortUse × Token)} {g : Gate}
    (h : poisonGate (poisonUses p us) = some g) : gate pm p us = g := by
  unfold poisonUses at h
  simp only [gate, h]

theorem gate_steer {pm : Pm} {p : Option Token} {us : List (PortUse × Token)} (h : .steer ∈ poisonUses p us) :
    gate pm p us = .flt .poisonUse :=
  gate_of_poisonGate (if_pos (List.contains_iff_mem.mpr h))

theorem gate_count {pm : Pm} {p : Option Token} {us : List (PortUse × Token)} (h : .count ∈ poisonUses p us)
    (hs : .steer ∉ poisonUses p us) : gate pm p us = .flt .format :=
  gate_of_poisonGate ((if_neg (hs ∘ List.contains_iff_mem.mp)).trans (if_pos (List.contains_iff_mem.mpr h)))

/-- POISON on P alone, of a word that carries it on every data port or reads none (R90). -/
theorem gate_predicate {pm : Pm} {p : Option Token} {us : List (PortUse × Token)} (hp : anyTag .poison p.toList = true)
    (h : ∀ u ∈ us, u.1 = .data) : gate pm p us = .flt .poisonUse := by
  have data : poisonGate (us.map Prod.fst) = none := by
    refine poisonGate_data fun x hx => ?_
    obtain ⟨u, hu, rfl⟩ := List.mem_map.mp hx
    exact h u hu
  simp only [gate, hp, if_true, data]

/-- P is read and carries POISON. -/
def PredPoison (s : State) (f : Firing) (i : Instr) : Prop := Instr.predicate i ≠ .always ∧ (portD s f .p).tag = .poison

theorem anyTag_predTokOf : anyTag .poison (predTokOf s f (Instr.predicate i)).toList = true ↔ PredPoison s f i := by
  unfold PredPoison
  cases Instr.predicate i <;> simp [predTokOf, anyTag]

theorem mem_poisonUses {u : PortUse} : u ∈ poisonUses (predTokOf s f (Instr.predicate i)) (portUses i s f) ↔
    ∃ q ∈ Instr.dataPorts i, portUse i q = u ∧ (PredPoison s f i ∨ (portD s f q).tag = .poison) := by
  unfold poisonUses
  split
  next hp => simp [portUses, anyTag_predTokOf.mp hp]
  next hp =>
    rw [anyTag_predTokOf] at hp
    simp only [portUses, List.filter_map, List.map_map, List.mem_map, List.mem_filter, Function.comp, decide_eq_true_eq, hp,
      false_or]
    grind

/-- Without POISON on P or on a port that steers, none steers the word. -/
theorem steer_notMem_poisonUses (hp : ¬ PredPoison s f i) (h : ∀ q ∈ steerPorts i, (portD s f q).tag ≠ .poison) :
    .steer ∉ poisonUses (predTokOf s f (Instr.predicate i)) (portUses i s f) := by
  rw [mem_poisonUses]
  rintro ⟨q, -, hu, hq | hq⟩
  · exact hp hq
  · exact h q (mem_steerPorts_of_portUse hu) hq

theorem exec_steer_poison {q : Port} (hl : OnLane s f i) (hq : q ∈ steerPorts i)
    (h : PredPoison s f i ∨ (portD s f q).tag = .poison) : exec i s = .next (raiseAt (popLane s) f ⟨.poisonUse, 0⟩) := by
  obtain ⟨words, data, use⟩ := steerPorts_spec hq
  exact exec_flt words hl (gate_steer (mem_poisonUses.mpr ⟨q, data, use, h⟩))

theorem exec_count_poison {q : Port} (hl : OnLane s f i) (hq : q ∈ countPorts i)
    (h : PredPoison s f i ∨ (portD s f q).tag = .poison)
    (hs : .steer ∉ poisonUses (predTokOf s f (Instr.predicate i)) (portUses i s f)) :
    exec i s = .next (raiseAt (popLane s) f ⟨.format, 0⟩) := by
  obtain ⟨words, data, use⟩ := countPorts_spec hq
  exact exec_flt words hl (gate_count (mem_poisonUses.mpr ⟨q, data, use, h⟩) hs)

theorem exec_predicate_poison (hl : OnLane s f i) (hw : gated i = true) (hp : PredPoison s f i)
    (h : ∀ q ∈ Instr.dataPorts i, portUse i q = .data) : exec i s = .next (raiseAt (popLane s) f ⟨.poisonUse, 0⟩) := by
  refine exec_flt hw hl (gate_predicate (anyTag_predTokOf.mpr hp) fun u hu => ?_)
  obtain ⟨q, hq, rfl⟩ := List.mem_map.mp hu
  exact h q hq

end Sys2Proof.Machine

open Sys2Proof.Machine in
/-- Settles O22: the gate looks at the uses of the ports that POISON counts for, those that steer first. -/
theorem poisonFaults : Obligations.PoisonFaults := by
  intro s f i hl
  refine ⟨?steer, ?count, ?predicate, ?predicateCounts⟩
  case steer =>
    rintro ⟨q, hq, h⟩
    exact exec_steer_poison hl hq (.inr h)
  case count =>
    rintro ⟨q, hq, h⟩ hs hp
    exact exec_count_poison hl hq (.inr h) (steer_notMem_poisonUses hp hs)
  case predicate =>
    intro hpm htag hw
    have hp : PredPoison s f i := ⟨hpm, htag⟩
    have noPorts (words : gated i = true) (h : Instr.dataPorts i = if Instr.predicate i = .always then [.l] else []) :
        exec i s = .next (raiseAt (popLane s) f ⟨.poisonUse, 0⟩) := by
      refine exec_predicate_poison hl words hp fun q hq => ?_
      rw [h, if_neg hpm] at hq
      cases hq
    obtain steers | ⟨pm, rfl⟩ | ⟨v, pm, rfl | rfl⟩ | ⟨o, k, pm, rfl⟩ := hw
    · obtain ⟨q, hq⟩ := List.exists_mem_of_ne_nil _ steers
      exact exec_steer_poison hl hq (.inl hp)
    · refine exec_predicate_poison hl rfl hp fun q hq => ?_
      obtain rfl := List.mem_singleton.mp hq
      rfl
    all_goals exact noPorts rfl rfl
  case predicateCounts =>
    intro hpm htag hs hc
    obtain ⟨q, hq⟩ := List.exists_mem_of_ne_nil _ hc
    refine exec_count_poison hl hq (.inl ⟨hpm, htag⟩) ?_
    rw [mem_poisonUses]
    rintro ⟨q, -, hu, -⟩
    have := mem_steerPorts_of_portUse hu
    rw [hs] at this
    cases this

namespace Sys2Proof.Machine

variable {own : Firing → Bool} {s₀ s u : State}

/-! ### The words of an instance that is discarded do not come back (R17, R19, R293)

A discard wakes and grants what others wait for. A word comes onto a lane only from a wait, or with the grant of a request
of its own: with neither left, none of its instance does. -/

/-- No list of an arena holds a request of such a word. -/
def NoAsk (own : Firing → Bool) (s : State) : Prop := ∀ e ∈ s.al.arenas, ∀ r ∈ e.2.waiting, askedBy own r = false

/-- No word of an instance is on a lane, waits or asks. -/
structure Gone (own : Firing → Bool) (s : State) : Prop where
  asks : NoAsk own s
  waits : ∀ w ∈ s.wk.waits, own w.1 = false
  issue : ∀ k ∈ s.wk.issue, own k = false

/-- Tasks and system registers are as they were, no instance has come, and a word of an instance that asks for nothing is on a
lane only where it was there or waited. -/
structure Leaves (own : Firing → Bool) (s₀ s : State) : Prop where
  tasks : s.wk.tasks = s₀.wk.tasks
  sr : s.sr = s₀.sr
  keys : (s.wk.insts.map Prod.fst).Sublist (s₀.wk.insts.map Prod.fst)
  asks : NoAsk own s₀ → NoAsk own s
  waits : ∀ w ∈ s.wk.waits, w ∈ s₀.wk.waits
  issue : NoAsk own s₀ → ∀ k ∈ s.wk.issue, own k = true → k ∈ s₀.wk.issue ∨ ∃ w ∈ s₀.wk.waits, w.1 = k

theorem Leaves.refl (own : Firing → Bool) (s : State) : Leaves own s s :=
  ⟨rfl, rfl, .refl _, id, fun _ h => h, fun _ _ h _ => .inl h⟩

theorem Leaves.gone (h : Leaves own s₀ s) (g : Gone own s₀) : Gone own s where
  asks := h.asks g.asks
  waits w hw := g.waits w (h.waits w hw)
  issue k hk := by
    by_contra hne
    rw [Bool.not_eq_false] at hne
    obtain hi | ⟨w, hw, rfl⟩ := h.issue g.asks k hk hne
    · exact absurd (g.issue k hi) (by simp [hne])
    · exact absurd (g.waits w hw) (by simp [hne])

/-- A change in parts of which `Leaves` does not speak, or that wakes words that wait. -/
theorem Leaves.of_parts (h : Leaves own s₀ s) (ht : u.wk.tasks = s.wk.tasks) (hs : u.sr = s.sr)
    (hk : (u.wk.insts.map Prod.fst).Sublist (s.wk.insts.map Prod.fst)) (ha : NoAsk own s → NoAsk own u)
    (hw : ∀ w ∈ u.wk.waits, w ∈ s.wk.waits)
    (hi : NoAsk own s₀ → ∀ k ∈ u.wk.issue, own k = true → k ∈ s.wk.issue ∨ ∃ w ∈ s.wk.waits, w.1 = k) : Leaves own s₀ u where
  tasks := ht.trans h.tasks
  sr := hs.trans h.sr
  keys := hk.trans h.keys
  asks := ha ∘ h.asks
  waits w hu := h.waits w (hw w hu)
  issue hn k hu hk := (hi hn k hu hk).elim (fun q => h.issue hn k q hk) fun ⟨w, hw', e⟩ => .inr ⟨w, h.waits w hw', e⟩

/-- A change outside the work, the registers and the waiting lists. -/
theorem Leaves.of_wk (h : Leaves own s₀ s) (hw : u.wk = s.wk) (hs : u.sr = s.sr)
    (ha : u.al.arenas.map (fun e => e.2.waiting) = s.al.arenas.map fun e => e.2.waiting) : Leaves own s₀ u := by
  refine h.of_parts (by rw [hw]) hs (by rw [hw]) (fun hn e he r hr => ?_) (by simp [hw]) (by rw [hw]; exact fun _ k hk _ => .inl hk)
  have he' : e.2.waiting ∈ u.al.arenas.map fun e => e.2.waiting := List.mem_map_of_mem he
  rw [ha] at he'
  obtain ⟨e', hm, hl⟩ := List.mem_map.mp he'
  exact hn e' hm r (hl ▸ hr)

theorem foldl_leaves {α : Type} {f : State → α → State} {l : List α}
    (hf : ∀ s, ∀ a ∈ l, Leaves own s₀ s → Leaves own s₀ (f s a)) (h : Leaves own s₀ s) : Leaves own s₀ (l.foldl f s) :=
  List.foldlRecOn (motive := Leaves own s₀) _ _ h fun s h a ha => hf s a ha h

theorem ite_leaves {c : Prop} [Decidable c] {v : State} (hu : Leaves own s₀ u) (hv : Leaves own s₀ v) :
    Leaves own s₀ (if c then u else v) := by
  split
  exacts [hu, hv]

theorem modInst_leaves (h : Leaves own s₀ s) (t i : Nat) (f : Inst → Inst) : Leaves own s₀ (modInst s t i f) :=
  h.of_parts rfl rfl (by rw [modInst_insts, keys_tmod]) id (fun _ h => h) fun _ _ h _ => .inl h

/-! #### Granules -/

theorem setLocState_leaves (h : Leaves own s₀ s) (v : Nat) (l : GLoc) : Leaves own s₀ (setLocState s v l) := by
  cases l with
  | here g =>
    refine ite_leaves (h.of_wk rfl rfl rfl) (h.of_wk rfl rfl ?_)
    dsimp only [noteChange]
    rw [List.map_map]
    refine List.map_congr_left fun e _ => ?_
    rw [Function.comp, apply_ite (fun e : Nat × Arena => e.2.waiting), ite_self]
  | copy vi d st =>
    exact h.of_wk (devPut_keeps State.wk (fun _ _ => rfl) s vi st _) (devPut_keeps State.sr (fun _ _ => rfl) s vi st _)
      (devPut_keeps (fun s => s.al.arenas.map fun e => e.2.waiting) (fun _ _ => rfl) s vi st _)

theorem setLocField_leaves (h : Leaves own s₀ s) (l : GLoc) (lo w v : Nat) : Leaves own s₀ (setLocField s l lo w v) :=
  setLocState_leaves h _ _

theorem post_leaves (h : Leaves own s₀ s) (ms : List Instr) : Leaves own s₀ (post s ms) := h.of_wk rfl rfl rfl

theorem dropHalf_leaves (h : Leaves own s₀ s) (src : Option Nat) (l : GLoc) (n : Nat) : Leaves own s₀ (dropHalf src s l n) :=
  ite_leaves (setLocField_leaves (post_leaves h _) _ _ _ _) h

theorem freeGranule_leaves (h : Leaves own s₀ s) (l : GLoc) : Leaves own s₀ (freeGranule s l) := by
  have h2 := setLocState_leaves (dropHalf_leaves (dropHalf_leaves h none l 0) none l 1) 0 l
  dsimp only [freeGranule]
  split
  · exact h2.of_wk rfl rfl rfl
  · exact h2

theorem clearGranules_keeps {β : Type} (p : State → β) (h : ∀ s l, p { s with ls := l } = p s) (s : State) (pane : Nat)
    (e : Nat × Nat) : p (clearGranules s pane e) = p s := foldl_keeps p (fun s _ => h s _) (rangeFrom e.1 e.2) s

/-! #### Waiting lists (R231 to R236) -/

theorem mem_tput {α : Type} {t : Table α} {k : Nat} {v : α} {e : Nat × α} (h : e ∈ tput t k v) : e = (k, v) ∨ e ∈ t := by
  induction t with
  | nil => exact .inl (List.mem_singleton.mp h)
  | cons x t ih =>
    simp only [tput] at h
    split_ifs at h
    · exact List.mem_cons.mp h
    · exact (List.mem_cons.mp h).imp_right (List.mem_cons_of_mem _)
    · rcases List.mem_cons.mp h with rfl | h
      · exact .inr List.mem_cons_self
      · exact (ih h).imp_right (List.mem_cons_of_mem _)

theorem mem_of_mem_lerase {α : Type} [DecidableEq α] {l : List α} {x y : α} (h : y ∈ lerase l x) : y ∈ l := by
  induction l with
  | nil => exact h
  | cons a t ih =>
    simp only [lerase] at h
    split at h
    · exact List.mem_cons_of_mem _ h
    · exact List.mem_cons.mpr ((List.mem_cons.mp h).imp_right ih)

theorem NoAsk.arenaAt (h : NoAsk own s) (k : Nat) : ∀ r ∈ (arenaAt s k).waiting, askedBy own r = false := by
  unfold Machine.arenaAt
  cases ha : tget s.al.arenas k with
  | none =>
    rw [Option.getD_none]
    split <;> exact fun _ hr => nomatch hr
  | some a => exact h _ (mem_of_tget ha)

/-- An arena is set whose list, where nobody of the instance asked, holds no request of it. -/
theorem setArena_leaves (h : Leaves own s₀ s) (k : Nat) {a : Arena} (ha : NoAsk own s₀ → ∀ r ∈ a.waiting, askedBy own r = false) :
    Leaves own s₀ (setArena s k a) where
  tasks := h.tasks
  sr := h.sr
  keys := h.keys
  asks hn e he := by
    rcases mem_tput he with rfl | he
    · exact ha hn
    · exact h.asks hn e he
  waits := h.waits
  issue := h.issue

/-- An arena is set whose list is unchanged. -/
theorem setArena_same_leaves (h : Leaves own s₀ s) (k : Nat) {a : Arena} (ha : a.waiting = (arenaAt s k).waiting) :
    Leaves own s₀ (setArena s k a) := setArena_leaves h k fun hn => ha ▸ (h.asks hn).arenaAt k

theorem setReserve_leaves (h : Leaves own s₀ s) (k : Nat) (b : Bool) :
    Leaves own s₀ (setArena s k { arenaAt s k with reserve := b }) := setArena_same_leaves h k rfl

theorem fireSend_leaves (h : Leaves own s₀ s) (f : Firing) (i : Instr) (a b : Token) (fl : FlagSet) :
    Leaves own s₀ (fireSend s f i a b fl) := post_leaves (modInst_leaves h _ _ _) _

theorem deliverHandle_leaves (h : Leaves own s₀ s) (f : Firing) (key : Nat) : Leaves own s₀ (deliverHandle s f key) := by
  dsimp only [deliverHandle]
  split
  · refine fireSend_leaves (modInst_leaves ?_ _ _ _) _ _ _ _ _
    exact h.of_parts rfl rfl (.refl _) id (fun _ hw => (List.mem_filter.mp hw).1) fun _ _ hk _ => .inl hk
  · exact h

theorem grant_leaves (h : Leaves own s₀ s) (k : Nat) {r : AllocReq} (hr : NoAsk own s₀ → askedBy own r = false)
    (e1 e2 : Nat × Nat) : Leaves own s₀ (grant s k r e1 e2) := by
  unfold grant
  extract_lets a s0 cleared _ s1 rec0
  split
  · exact h
  next key more _ =>
    have h0 : Leaves own s₀ s0 :=
      setArena_leaves h k fun hn q hq => (h.asks hn).arenaAt k q (mem_of_mem_lerase hq)
    have clears {β : Type} (p : State → β) (hp : ∀ s l, p { s with ls := l } = p s) : p (cleared) = p s0 :=
      (clearGranules_keeps p hp _ _ e2).trans (clearGranules_keeps p hp _ _ e1)
    have h1 : Leaves own s₀ s1 := h0.of_wk (clears State.wk fun _ _ => rfl) (clears State.sr fun _ _ => rfl) rfl
    have h2 : Leaves own s₀ (setRec s1 key rec0) := h1.of_wk rfl rfl rfl
    split
    · exact deliverHandle_leaves h2 _ _
    · split
      · exact h
      · exact h2.of_wk rfl rfl rfl
    next f asker =>
      split
      · exact h
      · refine h2.of_parts rfl rfl (.refl _) id (fun _ hw => (List.mem_filter.mp hw).1) fun hn q hq ho => ?_
        rcases List.mem_append.mp hq with hq | hq
        · exact .inl hq
        · have : own f = false := by simpa [askedBy, asker] using hr hn
          rw [List.mem_singleton.mp hq, this] at ho
          cases ho
    · split
      · exact h
      · exact h2.of_parts rfl rfl (.refl _) id (fun _ h => h) fun _ _ h _ => .inl h

theorem scanGrant_leaves (k limit : Nat) {ws older : List AllocReq} (h : Leaves own s₀ s)
    (hw : NoAsk own s₀ → ∀ r ∈ ws, askedBy own r = false) (ho : NoAsk own s₀ → ∀ r ∈ older, askedBy own r = false) :
    Leaves own s₀ (scanGrant k limit ws older s).1 := by
  induction ws generalizing s older with
  | nil => exact h
  | cons w rest ih =>
    have first (hn : NoAsk own s₀) : askedBy own w = false := hw hn w List.mem_cons_self
    have others (hn : NoAsk own s₀) : ∀ r ∈ rest, askedBy own r = false := fun r hr => hw hn r (List.mem_cons_of_mem _ hr)
    have passed (hn : NoAsk own s₀) : ∀ r ∈ older ++ [w], askedBy own r = false := by
      simpa [or_imp, forall_and] using ⟨ho hn, first hn⟩
    have overtaken (hn : NoAsk own s₀) :
        ∀ r ∈ older.map fun v => { v with overtakes := v.overtakes + 1 }, askedBy own r = false := by
      simpa [askedBy] using ho hn
    have h2 (e : Nat × Nat) : Leaves own s₀ (setArena (grant s k w e (0, 0)) k
        { arenaAt (grant s k w e (0, 0)) k with
          waiting := (older.map fun v => { v with overtakes := v.overtakes + 1 }) ++ rest }) := by
      refine setArena_leaves (grant_leaves h k first e (0, 0)) k fun hn r hr => ?_
      exact (List.mem_append.mp hr).elim (overtaken hn r) (others hn r)
    simp only [scanGrant]
    split
    · exact ih h others passed
    · split
      · exact ih h others passed
      · split
        · simp only [apply_ite Prod.fst]
          exact ite_leaves (h2 _) (ih (h2 _) others overtaken)
        · split
          · simp only [apply_ite Prod.fst]
            exact ite_leaves (h2 _) (ih (h2 _) others overtaken)
          · exact h2 _

theorem attemptFuel_leaves (k n : Nat) : ∀ s, Leaves own s₀ s → Leaves own s₀ (attemptFuel k n s) := by
  induction n with
  | zero => exact fun _ h => h
  | succ n ih =>
    intro s h
    have list (hn : NoAsk own s₀) := (h.asks hn).arenaAt k
    dsimp only [attemptFuel]
    split
    · exact h
    next o rest hw =>
      have head (hn : NoAsk own s₀) : askedBy own o = false := list hn o (hw ▸ List.mem_cons_self)
      have reserves : Leaves own s₀ (setArena s k { arenaAt s k with reserve := true }) := setReserve_leaves h k true
      split
      · refine ite_leaves reserves ?_
        split
        · exact reserves
        · exact ih _ (setReserve_leaves (grant_leaves reserves _ head _ _) k false)
      · have scanned := scanGrant_leaves k (arenaAt s k).limit h list (older := []) fun _ _ hr => nomatch hr
        exact ite_leaves (ih _ scanned) scanned

theorem noteTurn_leaves (h : Leaves own s₀ s) (k rank : Nat) : Leaves own s₀ (noteTurn s k rank) :=
  ite_leaves (setArena_same_leaves h k rfl) h

theorem attemptAt_leaves (h : Leaves own s₀ s) (rank k : Nat) : Leaves own s₀ (attemptAt rank s k) := by
  rcases attemptAt_cases rank s k with e | e | e <;> rw [e]
  · exact h
  · exact attemptFuel_leaves _ _ _ (noteTurn_leaves h _ _)
  · exact setArena_same_leaves h k rfl

/-! #### Releases, withdrawals, discards (R17, R19, R175, R178) -/

theorem releaseRec_leaves (h : Leaves own s₀ s) (key : Nat) : Leaves own s₀ (releaseRec s key) := by
  unfold releaseRec
  split
  · exact h
  · extract_lets s1 s2 _ s3
    have h2 : Leaves own s₀ s2 := (foldl_leaves (fun _ _ _ h => freeGranule_leaves h _) h).of_wk rfl rfl rfl
    have h3 : Leaves own s₀ s3 := ite_leaves (setArena_same_leaves h2 _ rfl) h2
    exact foldl_leaves (fun _ _ _ h => attemptAt_leaves h _ _) (attemptAt_leaves h3 _ _)

/-- The lists without the withdrawn requests. -/
theorem withdraw_from (s : State) (p : AllocReq → Bool) : ∃ (net : List Instr) (arenas : Table Arena) (hit : List Nat),
    withdraw s p = hit.foldl (attemptAt withdrawRank) { s with net := net, al := { s.al with arenas := arenas } } ∧
      (∀ e ∈ arenas, ∀ r ∈ e.2.waiting, p r = false) ∧ ∀ e ∈ arenas, ∃ e' ∈ s.al.arenas, ∀ r ∈ e.2.waiting, r ∈ e'.2.waiting := by
  refine ⟨_, _, _, rfl, fun e he r hr => ?_, fun e he => ?_⟩
  · obtain ⟨e', -, rfl⟩ := List.mem_map.mp he
    split at hr
    · simpa using (List.mem_filter.mp hr).2
    next none =>
      rw [Bool.not_eq_true, List.any_eq_false] at none
      simpa using none r hr
  · obtain ⟨e', hm, rfl⟩ := List.mem_map.mp he
    refine ⟨e', hm, fun r hr => ?_⟩
    split at hr
    · exact (List.mem_filter.mp hr).1
    · exact hr

theorem withdraw_leaves (h : Leaves own s₀ s) (p : AllocReq → Bool) : Leaves own s₀ (withdraw s p) := by
  obtain ⟨net, arenas, hit, he, -, less⟩ := withdraw_from s p
  rw [he]
  refine foldl_leaves (fun _ _ _ h => attemptAt_leaves h _ _)
    (h.of_parts rfl rfl (.refl _) (fun hn e hm r hr => ?_) (fun _ h => h) fun _ _ h _ => .inl h)
  obtain ⟨e', hm', sub⟩ := less e hm
  exact hn e' hm' r (sub r hr)

/-- Once its requests are withdrawn, an instance asks for nothing. -/
theorem withdraw_noAsk (own : Firing → Bool) (s : State) : NoAsk own (withdraw s (askedBy own)) := by
  obtain ⟨net, arenas, hit, he, none, -⟩ := withdraw_from s (askedBy own)
  rw [he]
  exact (foldl_leaves (fun _ _ _ h => attemptAt_leaves h _ _) (.refl own _)).asks none

theorem undoTake_leaves (h : Leaves own s₀ s) (r : Request) : Leaves own s₀ (undoTake s r) := by
  unfold undoTake
  split
  · split
    · exact setLocField_leaves h _ _ _ _
    · exact h
  · exact h

theorem wakeColour_leaves (h : Leaves own s₀ s) : Leaves own s₀ (wakeColour s) := by
  refine h.of_parts rfl rfl (.refl _) id (fun _ hw => (List.mem_filter.mp hw).1) fun _ k hk _ => ?_
  refine (List.mem_append.mp hk).imp_right fun hk => ?_
  obtain ⟨w, hw, e⟩ := List.mem_map.mp hk
  exact ⟨w, (List.mem_filter.mp hw).1, e⟩

theorem undoBirth_leaves (h : Leaves own s₀ s) (b : Birth) : Leaves own s₀ (undoBirth s b) := by
  have same {s u : State} (h : Leaves own s₀ s) (ht : u.wk.tasks = s.wk.tasks) (hi : u.wk.insts = s.wk.insts)
      (hw : u.wk.waits = s.wk.waits) (hl : u.wk.issue = s.wk.issue) (hs : u.sr = s.sr) (ha : u.al = s.al) : Leaves own s₀ u :=
    h.of_parts ht hs (by rw [hi]) (by rw [NoAsk, NoAsk, ha]; exact id) (by simp [hw]) fun _ k hk _ => .inl (hl ▸ hk)
  unfold undoBirth
  extract_lets s0 _ sl s1 s2
  have h0 : Leaves own s₀ s0 := by
    unfold s0
    split
    · exact ite_leaves (post_leaves h _) h
    · exact h
  have hl : Leaves own s₀ sl := same h0 rfl rfl rfl rfl rfl rfl
  have h1 : Leaves own s₀ s1 := by
    unfold s1
    split
    · exact releaseRec_leaves (releaseRec_leaves hl _) _
    · exact hl
  have h2 : Leaves own s₀ s2 := by
    unfold s2
    split
    · exact wakeColour_leaves (same h1 rfl rfl rfl rfl rfl rfl)
    · exact h1
  split
  · exact wakeColour_leaves (same h2 rfl rfl rfl rfl rfl rfl)
  · exact wakeColour_leaves h2

/-- The state of a discard in which its acts are undone and its requests withdrawn. -/
def undone (s : State) (i : Inst) : State :=
  let own := ofInst i.tid i.iter
  let s2 := i.allocs.foldl askRelease (i.requests.foldl undoTake s)
  let s3 := post s2 (i.refs.map fun f => .refChangeArrive ⟨f, false, some i.tid, none⟩)
  withdraw ((s3.wk.births.filter fun b => own b.f).foldl undoBirth s3) (askedBy own)

theorem undone_leaves (h : Leaves own s₀ s) (i : Inst) : Leaves own s₀ (undone s i) :=
  withdraw_leaves (foldl_leaves (fun _ _ _ h => undoBirth_leaves h _) (post_leaves (foldl_leaves (fun _ _ _ h => post_leaves h _)
    (foldl_leaves (fun _ _ _ h => undoTake_leaves h _) h)) _)) _

theorem discardInst_insts (s : State) (i : Inst) :
    (discardInst s i).wk.insts = tdel (undone s i).wk.insts (instKey i.tid i.iter) := rfl

theorem discardInst_leaves (h : Leaves own s₀ s) (i : Inst) : Leaves own s₀ (discardInst s i) :=
  (undone_leaves h i).of_parts rfl rfl ((tdel_sublist _ _).map _) id (fun _ hw => (List.mem_filter.mp hw).1)
    fun _ _ hk _ => .inl (List.mem_filter.mp hk).1

theorem discards_leaves (own : Firing → Bool) (l : List Inst) (s : State) : Leaves own s (l.foldl discardInst s) :=
  foldl_leaves (fun _ i _ h => discardInst_leaves h i) (.refl own s)

theorem discardInst_gone (s : State) (i : Inst) : Gone (ofInst i.tid i.iter) (discardInst s i) where
  asks := withdraw_noAsk _ _
  waits w hw := by simpa using (List.mem_filter.mp hw).2
  issue k hk := by simpa using (List.mem_filter.mp hk).2

/-- A discarded instance is no more. -/
theorem discardInst_key (h : tsorted none s.wk.insts = true) (i : Inst) :
    instKey i.tid i.iter ∉ (discardInst s i).wk.insts.map Prod.fst := by
  rw [discardInst_insts]
  refine key_tdel ?_
  rw [tsorted_iff_pairwise] at h ⊢
  exact h.sublist (undone_leaves (.refl (fun _ => false) s) i).keys

/-- Of the instances that are discarded one after the other, none is left, and no word of them is on a lane. -/
theorem discards_gone {i : Inst} {l : List Inst} (hi : i ∈ l) : ∀ s, tsorted none s.wk.insts = true →
    Gone (ofInst i.tid i.iter) (l.foldl discardInst s) ∧
      instKey i.tid i.iter ∉ (l.foldl discardInst s).wk.insts.map Prod.fst := by
  induction l with
  | nil => exact nomatch hi
  | cons x t ih =>
    intro s hs
    have rest := discards_leaves (ofInst i.tid i.iter) t (discardInst s x)
    rcases List.mem_cons.mp hi with rfl | ht
    · exact ⟨rest.gone (discardInst_gone s i), fun hk => discardInst_key hs i (rest.keys.subset hk)⟩
    · refine ih ht _ ?_
      rw [tsorted_iff_pairwise] at hs ⊢
      exact hs.sublist (discardInst_leaves (.refl (fun _ => false) s) x).keys

/-! ### A fault stops its task (R216, R291 to R293) -/

theorem insInst_perm (base : Nat) (x : Inst) (l : List Inst) : (insInst base x l).Perm (x :: l) := by
  induction l with
  | nil => exact .refl _
  | cons y t ih =>
    simp only [insInst]
    split
    · exact .refl _
    · exact (ih.cons y).trans (.swap x y t)

theorem sortInsts_perm (base : Nat) (l : List Inst) : (sortInsts base l).Perm l := by
  induction l with
  | nil => exact .refl _
  | cons x t ih => exact (insInst_perm base x _).trans (ih.cons x)

theorem mem_instsOf {e : Nat × Inst} (he : e ∈ s.wk.insts) : e.2 ∈ instsOf s e.2.tid :=
  List.mem_map_of_mem (List.mem_filter.mpr ⟨he, decide_eq_true rfl⟩)

/-- Every instance of a task is discarded, and the task, which keeps its registers, is marked. -/
theorem discardAll_eq {tid : Nat} {t : Task} (ht : taskAt s tid = some t) : ∃ (net : List Instr) (g : Task → Task),
    discardAll s tid true =
        modTask ((sortInsts (oldestIter s tid) (instsOf s tid)).foldl discardInst { s with net := net }) tid g ∧
      ∀ y, (g y).stopped = true ∧ (g y).regs = y.regs := by
  unfold discardAll
  rw [ht]
  exact ⟨_, _, rfl, fun y => ⟨Bool.or_true _, rfl⟩⟩

/-- A task all of whose instances are discarded as it stops keeps its registers, and no word of it is on a lane. -/
theorem discardAll_stops {tid : Nat} {t : Task} (ht : taskAt s tid = some t) (hs : tsorted none s.wk.insts = true) :
    let u := discardAll s tid true
    (∃ t', taskAt u tid = some t' ∧ t'.stopped = true ∧ t'.regs = t.regs) ∧
    (∀ e ∈ s.wk.insts, e.2.tid = tid → instAt u tid e.2.iter = none ∧ ∀ k ∈ u.wk.issue, k.tid = tid → k.iter ≠ e.2.iter) ∧
    u.sr = s.sr := by
  obtain ⟨net, g, eq, marks⟩ := discardAll_eq ht
  have discards := discards_leaves (fun _ => false) (sortInsts (oldestIter s tid) (instsOf s tid)) { s with net := net }
  rw [eq]
  refine ⟨⟨g t, ?_, marks t⟩, fun e he htid => ?_, discards.sr⟩
  · rw [taskAt_modTask_same, taskAt, discards.tasks]
    exact congrArg (Option.map g) ht
  · subst htid
    obtain ⟨gone, key⟩ := discards_gone ((sortInsts_perm _ _).mem_iff.mpr (mem_instsOf he)) { s with net := net } hs
    refine ⟨tget_eq_none key, fun k hk htid hiter => ?_⟩
    have := gone.issue k hk
    simp [ofInst, htid, hiter] at this

theorem Code.num_lt (c : Code) : c.num < 64 := by cases c <;> decide

/-- FAULT_INFO holds the code and the count of a fault that is recorded (R216). -/
theorem countFaultInfo_faultInfo (s : State) (die : Nat) (c : Code) :
    tgetD (countFaultInfo s die c.num).sr.faultInfo die 0 =
      BitVec.ofNat 64 (c.num + min (2 ^ 32 - 1) (bits (tgetD s.sr.faultInfo die 0).toNat 8 32 + 1) * 2 ^ 8) := by
  have lt := c.num_lt
  dsimp only [countFaultInfo]
  rw [Nat.mod_eq_of_lt lt]
  generalize hv : c.num + min (2 ^ 32 - 1) (bits (tgetD s.sr.faultInfo die 0).toNat 8 32 + 1) * 2 ^ 8 = v
  have small : v ≠ 0 ∧ v < 2 ^ 64 := by omega
  have pos : BitVec.ofNat 64 v ≠ 0 := mt (ofNat_eq_iff small.2).mp small.1
  rw [tputD, if_neg pos, tgetD, tget_tput_same, Option.getD_some]

/-- The record of a fault counts it in FAULT_INFO of its die, and leaves the other registers as they are. -/
theorem faultRecorded_sr (s : State) (vi k : Nat) (f : Flt) (q : Place4) :
    (faultLaunch (writeRecord s vi f q) k).sr = (countFaultInfo s q.die f.code.num).sr :=
  (faultLaunch_keeps State.sr (fun _ _ _ => rfl) _ _).trans
    (ringWrite_keeps (fun _ _ _ _ => rfl) (fun _ _ _ _ => rfl) (countFaultInfo s q.die f.code.num) _ _)

end Sys2Proof.Machine

open Sys2Proof.Machine in
/-- Settles O29: the fault's record is counted, and then every instance of the task is discarded, after which no wait and no
request of its words is left that could bring one back onto a lane. -/
theorem faultStopsTask : Obligations.FaultStopsTask := by
  intro s f c t x ht hx _ _ canon hlate p u
  have wk : (faultLaunch (writeRecord s t.vi c p) t.launch).wk = s.wk :=
    faultRecorded_keeps State.wk (fun _ _ _ _ _ _ => rfl) s _ _ c p
  have hu : u = discardAll (faultLaunch (writeRecord s t.vi c p) t.launch) f.tid true := by
    simp only [u, p, raiseAt, raise, ht, hx, hlate, stopTask, Bool.false_eq_true, if_false]
  obtain ⟨task, insts, sr⟩ := discardAll_stops (s := faultLaunch (writeRecord s t.vi c p) t.launch) (tid := f.tid) (t := t)
    (by rw [taskAt, wk]; exact ht) (by rw [wk]; exact canon.insts)
  rw [wk] at insts
  rw [hu]
  refine ⟨task, insts, ?_⟩
  rw [sr, faultRecorded_sr]
  exact countFaultInfo_faultInfo s p.die c.code

namespace Sys2Proof.Machine

variable {s : State} {f : Firing} {i : Instr}

/-! ### A value word with one result, or with none (R103, R104) -/

theorem exec_both (h : Fires s f i) {tok : Token} {fl : FlagSet} (hv : valueOf s f i = some (.both tok fl)) :
    exec i s = .next (sent s f i tok tok fl) := valueWordSends s f i tok tok fl h hv

theorem exec_format (h : Fires s f i) (hv : valueOf s f i = some .format) :
    exec i s = .next (raiseAt (popLane s) f ⟨.format, 0⟩) := valueWordAbsorbsOrFaults.2 s f i h hv

/-! ### Tokens that hold a number exactly (R64, R67) -/

theorem intMin_nonpos (t : Tag) : intMin t ≤ 0 := by
  unfold intMin
  split
  · exact neg_nonpos.mpr (by positivity)
  · exact le_rfl

theorem intMax_nonneg (t : Tag) : 0 ≤ intMax t := by
  unfold intMax
  split
  · exact Int.sub_nonneg.mpr (one_le_pow₀ (by decide))
  · exact Int.sub_nonneg.mpr (one_le_pow₀ (by decide))

theorem mkInt_natCast (t : Tag) (n : Nat) : mkInt t n = mkTok t n := by
  have back : ((n : Int) % 2 ^ tagBits t).toNat = n % 2 ^ tagBits t := by
    rw [← Int.toNat_natCast (n % 2 ^ tagBits t)]
    push_cast
    rfl
  simp only [mkInt, back, mkTok, canonical, toSigned_mod, Nat.mod_mod]

/-- A number in the tag's range is the value of the token made from it. -/
theorem tokInt_mkTok_of_le {t : Tag} {n : Nat} (h : t.isInt = true) (hn : (n : Int) ≤ intMax t) : tokInt (mkTok t n) = n := by
  rw [← mkInt_natCast]
  exact tokInt_mkInt_of_range t n h ((intMin_nonpos t).trans (Int.natCast_nonneg n)) hn

/-- Under a tag that is not signed the payload is the number itself. -/
theorem payload_mkTok {t : Tag} (h : tagSigned t = false) (n : Nat) : (mkTok t n).val.toNat = n % 2 ^ tagBits t := by
  have small : n % 2 ^ tagBits t < 2 ^ 64 :=
    (Nat.mod_lt _ (Nat.two_pow_pos _)).trans_le (Nat.pow_le_pow_right (by decide) (tagBits_le t))
  simp only [mkTok, canonical, h, Bool.false_eq_true, if_false, BitVec.toNat_ofNat, Nat.mod_eq_of_lt small]

/-! ### The words that move and select (R110 to R115) -/

theorem trigV_plain {l : Token} (h : tagTile l.tag = false) (t : Token) : trigV t l = .both t := by
  simp [trigV, h]

theorem retagV_plain {t : Tag} {l : Token} (h : tagTile l.tag = false) (hf : t = .future → l.tag = .future) :
    retagV t l = .both (mkTok t l.val.toNat) := by
  have kept : ¬ (t = .future ∧ l.tag ≠ .future) := fun ⟨ht, hl⟩ => hl (hf ht)
  simp [retagV, h, kept]

theorem retagV_future {l : Token} (h : l.tag ≠ .future) : retagV .future l = .format := by
  unfold retagV
  split
  · rfl
  · simp [h]

theorem imm_range (imm : BitVec 12) : intMin .i32 ≤ imm.toInt ∧ imm.toInt ≤ intMax .i32 := by
  have lo := BitVec.le_toInt imm
  have hi := BitVec.toInt_lt (x := imm)
  simp only [intMin, intMax, tagSigned, tagBits, if_true]
  omega

theorem exec_sel_on {t0 t1 : Tgt} {ta : TA} (hl : OnLane s f (.sel t0 t1 ta)) : exec (.sel t0 t1 ta) s =
    .next (finishValue (popLane s) f (.sel t0 t1 ta) (selV (portD s f .l) (portD s f .r) (portD s f .p))) := by
  rw [exec_sel, execSel, onLane_fires hl]
  simp only [portD_popLane]

/-- SEL looks for POISON and NULL on the three ports that it reads. -/
theorem sel_anyTag (s : State) (f : Firing) (t0 t1 : Tgt) (ta : TA) (g : Tag) :
    anyTag g [portD s f .l, portD s f .r, portD s f .p] = true ↔
      ∃ q ∈ Instr.ports (.sel t0 t1 ta), (portD s f q).tag = g := anyTag_ports (i := .sel t0 t1 ta) g

theorem sel_clean {t0 t1 : Tgt} {ta : TA} (hp : ¬ MeetsPoison s f (.sel t0 t1 ta)) (hn : ¬ MeetsNull s f (.sel t0 t1 ta)) :
    anyTag .poison [portD s f .l, portD s f .r, portD s f .p] = false ∧
      anyTag .null [portD s f .l, portD s f .r, portD s f .p] = false := by
  rw [Bool.eq_false_iff, Bool.eq_false_iff, ne_eq, ne_eq, sel_anyTag s f t0 t1 ta, sel_anyTag s f t0 t1 ta]
  exact ⟨hp, fun h => hn ⟨hp, h⟩⟩

end Sys2Proof.Machine

open Sys2Proof.Machine in
/-- Settles O10: the triggered words and RETAG by the token that each makes, SEL by the order in which its three ports are looked
at. -/
theorem moveAndSelectWords : Obligations.MoveAndSelectWords := by
  refine ⟨⟨fun s f => ⟨?mov, ?movi, ?nul, ?nulPoison⟩, fun s f => ⟨?retag, ?future, ?tagof⟩⟩, ?sel⟩
  case mov => exact fun g h => exec_both h rfl
  case movi =>
    intro i h plain
    exact ⟨_, exec_both h (congrArg some (trigV_plain plain _)), rfl,
      tokInt_mkInt_of_range _ _ rfl (imm_range i.imm).1 (imm_range i.imm).2⟩
  case nul => exact fun g h plain => exec_both h (congrArg some (trigV_plain plain _))
  case nulPoison =>
    intro g hl hp
    refine exec_value_poison hl rfl ⟨.l, ?_, hp⟩
    rw [ports_of_valueOf (s := s) (f := f) (i := .nul g) rfl]
    split
    exacts [List.mem_cons_self, List.mem_cons_self]
  case retag =>
    intro c h plain kept
    exact ⟨_, exec_both h (congrArg some (retagV_plain plain kept)), rfl, tokBits_mkTok _ _,
      fun unsigned => (payload_mkTok unsigned _).trans_lt (Nat.mod_lt _ (Nat.two_pow_pos _))⟩
  case future =>
    intro c h hc hl
    refine exec_format h (congrArg some ?_)
    rw [hc]
    exact retagV_future hl
  case tagof =>
    intro g h plain small
    refine ⟨_, exec_both h (congrArg some (trigV_plain plain _)), rfl, tokInt_mkTok_of_le rfl ?_⟩
    simp only [intMax, tagSigned, tagBits, if_true]
    omega
  case sel =>
    intro s f t0 t1 ta hl i
    refine ⟨?poison, ?null, ?format, ?chosen⟩
    case poison =>
      intro hp
      rw [exec_sel_on hl, selV, if_pos ((sel_anyTag s f t0 t1 ta _).mpr hp)]
      rfl
    case null =>
      rintro ⟨hp, hn⟩
      rw [exec_sel_on hl, selV, if_neg ((sel_anyTag s f t0 t1 ta _).not.mpr hp), if_pos ((sel_anyTag s f t0 t1 ta _).mpr hn)]
      rfl
    case format =>
      intro hp hn wrong
      obtain ⟨noPoison, noNull⟩ := sel_clean hp hn
      rw [exec_sel_on hl, selV, noPoison, noNull]
      simp only [Bool.false_eq_true, if_false]
      rw [if_pos wrong]
      rfl
    case chosen =>
      intro hp hn pred ltile rtile
      obtain ⟨noPoison, noNull⟩ := sel_clean hp hn
      rw [exec_sel_on hl, selV, noPoison, noNull]
      simp only [Bool.false_eq_true, if_false, pred, ltile, rtile, ne_eq, not_true, or_self]
      split <;> rfl

namespace Sys2Proof.Machine

/-! ### Integer arithmetic (R123) -/

/-- The outcome is a token of tag `t` for both targets, with these flags, whose value agrees with `v` modulo the tag's width. -/
def SendsInt (o : VOut) (t : Tag) (v : Int) (fl : FlagSet) : Prop :=
  ∃ tok, o = .both tok fl ∧ tok.tag = t ∧ agree (tagBits t) (tokInt tok) v

section
variable {s : State} {f : Firing} {i : Instr} {t : Tag} {l r x : Token}

theorem sendsInt_mkInt (t : Tag) (v : Int) (fl : FlagSet) : SendsInt (.both (mkInt t v) fl) t v fl :=
  ⟨_, rfl, rfl, tokInt_mkInt_agree t v⟩

theorem sendsInt_self (h : l.tag = t) (fl : FlagSet) : SendsInt (.both l fl) t (tokInt l) fl :=
  ⟨l, rfl, h, by simp [agree]⟩

/-- A word that fires with such an outcome sends it. -/
theorem SendsInt.exec {o : VOut} {v : Int} {fl : FlagSet} (h : SendsInt o t v fl) (hf : Fires s f i)
    (hv : valueOf s f i = some o) :
    ∃ tok, exec i s = .next (sent s f i tok tok fl) ∧ tok.tag = t ∧ agree (tagBits t) (tokInt tok) v := by
  obtain ⟨tok, rfl, tag, value⟩ := h
  exact ⟨tok, exec_both hf hv, tag, value⟩

/-- A result wraps, or is the nearer end of the range with SAT. -/
theorem intFinish_eq (t : Tag) (sat : Bool) (v : Int) :
    intFinish t sat v = .both (mkInt t (intClamp t sat v).1) (intClamp t sat v).2 := by
  unfold intFinish intClamp
  cases sat with
  | false => rfl
  | true =>
    simp only [if_true, true_and]
    split
    · rfl
    · split <;> rfl

theorem intFinish_sends (t : Tag) (sat : Bool) (v : Int) :
    SendsInt (intFinish t sat v) t (intClamp t sat v).1 (intClamp t sat v).2 := by
  rw [intFinish_eq]
  exact sendsInt_mkInt _ _ _

/-- An integer tag is none that R125 or R122's Float forms treat by themselves. -/
theorem isInt_plain (h : t.isInt = true) : t ≠ .addr ∧ t ≠ .time := by
  constructor <;> rintro rfl <;> cases h

theorem addV_int (h : t.isInt = true) (hl : l.tag = t) (hr : r.tag = t) (sat : Bool) :
    addV sat l r = intFinish t sat (tokInt l + tokInt r) := by
  obtain ⟨notAddr, notTime⟩ := isInt_plain h
  simp [addV, hl, hr, h, notAddr, notTime]

theorem subV_int (h : t.isInt = true) (hl : l.tag = t) (hr : r.tag = t) (sat : Bool) :
    subV sat l r = intFinish t sat (tokInt l - tokInt r) := by
  obtain ⟨notAddr, notTime⟩ := isInt_plain h
  simp [subV, hl, hr, h, notAddr, notTime]

theorem arith2_int (h : t.isInt = true) (hl : l.tag = t) (hr : r.tag = t) (int : VOut) (flt : FloatFmt → Token × FlagSet) :
    arith2 l r int flt = int := by
  simp [arith2, hl, hr, h]

theorem mulhV_int (h : t.isInt = true) (hl : l.tag = t) (hr : r.tag = t) :
    mulhV l r = .both (mkInt t (tokInt l * tokInt r / 2 ^ tagBits t)) := by
  have floor : (tokInt l * tokInt r).fdiv (2 ^ tagBits t) = tokInt l * tokInt r / 2 ^ tagBits t :=
    Int.fdiv_eq_ediv_of_nonneg _ (by positivity)
  simp [mulhV, intMulh, hl, hr, h, floor]

theorem fmaV_int (h : t.isInt = true) (hl : l.tag = t) (hr : r.tag = t) (hx : x.tag = t) :
    fmaV l r x = .both (mkInt t (tokInt l * tokInt r + tokInt x)) := by
  rw [fmaV, if_neg (not_not.mpr (hx.trans hl.symm)), arith2_int h hl hr, hl]

theorem intDiv_sends (hl : l.tag = t) : SendsInt (intDiv l r) t (if tokInt r = 0 then -1 else (tokInt l).tdiv (tokInt r))
    (if tokInt r = 0 then fDivzero else 0) := by
  rw [intDiv, hl]
  split
  · exact sendsInt_mkInt _ _ _
  · exact sendsInt_mkInt _ _ _

theorem intRem_sends (hl : l.tag = t) : SendsInt (intRem l r) t
    (if tokInt r = 0 then tokInt l else tokInt l - tokInt r * (tokInt l).tdiv (tokInt r))
    (if tokInt r = 0 then fDivzero else 0) := by
  rw [intRem, hl]
  split
  · exact sendsInt_self hl _
  · rw [← Int.tmod_def]
    exact sendsInt_mkInt _ _ _

/-- The absolute value of an N tag's operand is the operand. -/
theorem natAbs_tokInt (l : Token) :
    ((tokInt l).natAbs : Int) = if tagSigned l.tag then ((tokInt l).natAbs : Int) else tokInt l := by
  split
  · rfl
  · next unsigned => simp [tokInt, unsigned]

/-- R123's table gives what each word sends. -/
theorem valueOf_int {p : Int × FlagSet} (ht : t.isInt = true) (ports : ∀ q ∈ Instr.dataPorts i, (portD s f q).tag = t)
    (hp : intSpec i t (tokInt (portD s f .l)) (tokInt (portD s f .r)) (tokInt (portD s f .x)) = some p) :
    ∃ o, valueOf s f i = some o ∧ SendsInt o t p.1 p.2 := by
  have one (h : Instr.dataPorts i = [.l]) : (portD s f .l).tag = t := ports .l (by simp [h])
  have two (h : Instr.dataPorts i = [.l, .r]) : (portD s f .l).tag = t ∧ (portD s f .r).tag = t :=
    ⟨ports .l (by simp [h]), ports .r (by simp [h])⟩
  cases i with
  | add g sat =>
    cases hp
    obtain ⟨hl, hr⟩ := two rfl
    exact ⟨_, congrArg some (addV_int ht hl hr sat), intFinish_sends _ _ _⟩
  | sub g sat =>
    cases hp
    obtain ⟨hl, hr⟩ := two rfl
    exact ⟨_, congrArg some (subV_int ht hl hr sat), intFinish_sends _ _ _⟩
  | mul g sat =>
    cases hp
    obtain ⟨hl, hr⟩ := two rfl
    exact ⟨_, congrArg some (arith2_int ht hl hr _ _), hl ▸ intFinish_sends _ _ _⟩
  | mulh g =>
    cases hp
    obtain ⟨hl, hr⟩ := two rfl
    exact ⟨_, congrArg some (mulhV_int ht hl hr), sendsInt_mkInt _ _ _⟩
  | div g =>
    cases hp
    obtain ⟨hl, hr⟩ := two rfl
    refine ⟨_, congrArg some (arith2_int ht hl hr _ _), ?_⟩
    simpa only [apply_ite Prod.fst, apply_ite Prod.snd] using intDiv_sends hl
  | rem g =>
    cases hp
    obtain ⟨hl, hr⟩ := two rfl
    refine ⟨_, congrArg some (if_pos ⟨hl.trans hr.symm, hl.symm ▸ ht⟩), ?_⟩
    simpa only [apply_ite Prod.fst, apply_ite Prod.snd] using intRem_sends hl
  | fma g =>
    cases hp
    have hl := ports .l (by simp [Instr.dataPorts])
    have hr := ports .r (by simp [Instr.dataPorts])
    have hx := ports .x (by simp [Instr.dataPorts])
    exact ⟨_, congrArg some (fmaV_int ht hl hr hx), sendsInt_mkInt _ _ _⟩
  | min g =>
    cases hp
    obtain ⟨hl, hr⟩ := two rfl
    refine ⟨_, congrArg some (arith2_int ht hl hr _ _), ?_⟩
    split
    exacts [sendsInt_self hl _, sendsInt_self hr _]
  | max g =>
    cases hp
    obtain ⟨hl, hr⟩ := two rfl
    refine ⟨_, congrArg some (arith2_int ht hl hr _ _), ?_⟩
    split
    exacts [sendsInt_self hr _, sendsInt_self hl _]
  | abs g =>
    cases hp
    have hl := one rfl
    refine ⟨_, congrArg some (if_pos (hl.symm ▸ ht)), ?_⟩
    have value := natAbs_tokInt (portD s f .l)
    rw [hl] at value ⊢
    simp only [← value]
    exact sendsInt_mkInt _ _ _
  | neg g =>
    cases hp
    have hl := one rfl
    refine ⟨_, congrArg some (if_pos (hl.symm ▸ ht)), ?_⟩
    rw [hl, ← Int.zero_sub]
    exact sendsInt_mkInt _ _ _
  | _ => cases hp

end
end Sys2Proof.Machine

open Sys2Proof.Machine in
/-- Settles O11: each word's integer form is made from the table's result, which `mkInt` reduces modulo 2^w. -/
theorem integerArithmetic : Obligations.IntegerArithmetic := by
  intro s f i t v fl h ht ports hs
  obtain ⟨o, hv, sends⟩ := valueOf_int ht ports hs
  exact sends.exec h hv

namespace Sys2Proof.Machine

/-! ### Immediates, addresses and times (R124, R125, R307) -/

section
variable {s : State} {f : Firing} {i : Instr} {l r : Token}

/-- The used bits of a token made from an integer are that integer modulo the tag's width. -/
theorem tokBits_mkInt (t : Tag) (v : Int) : (tokBits (mkInt t v) : Int) = v % 2 ^ tagBits t := by
  have reduced : (0 : Int) ≤ v % 2 ^ tagBits t := Int.emod_nonneg _ (by positivity)
  rw [mkInt, tokBits_mkTok]
  push_cast
  rw [Int.toNat_of_nonneg reduced, Int.emod_emod_of_dvd _ dvd_rfl]

theorem tokBits_mkInt_agree (t : Tag) (v : Int) : agree (tagBits t) (tokBits (mkInt t v)) v := by
  rw [tokBits_mkInt]
  simp [agree, Int.sub_emod]

/-- The outcome is an ADDR for both targets, with no flag, that agrees with `v` modulo 2^52. -/
def SendsAddr (o : VOut) (v : Int) : Prop := ∃ tok, o = .both tok ∧ tok.tag = .addr ∧ agree 52 (tokBits tok) v

theorem addrAdd_sends (l : Token) (v : Int) : SendsAddr (.both (addrAdd l v)) (tokBits l + v) :=
  ⟨_, rfl, rfl, tokBits_mkInt_agree .addr _⟩

theorem SendsAddr.exec {o : VOut} {v : Int} (h : SendsAddr o v) (hf : Fires s f i) (hv : valueOf s f i = some o) :
    ∃ tok, exec i s = .next (sent s f i tok tok 0) ∧ tok.tag = .addr ∧ agree 52 (tokBits tok) v := by
  obtain ⟨tok, rfl, tag, value⟩ := h
  exact ⟨tok, exec_both hf hv, tag, value⟩

/-- A normalised time holds its whole seconds modulo 2^32 above its nanoseconds. -/
theorem timeOfNs_fields (v : Int) : (((timeOfNs v).toNat / 2 ^ 32 : Nat) : Int) = v / 10 ^ 9 % 2 ^ 32 ∧
    (((timeOfNs v).toNat % 2 ^ 32 : Nat) : Int) = v % 10 ^ 9 := by
  have payload : (timeOfNs v).toNat = (v / 1000000000 % 2 ^ 32).toNat * 2 ^ 32 + (v % 1000000000).toNat := by
    rw [timeOfNs, BitVec.toNat_ofNat, Nat.mod_eq_of_lt (by omega)]
  rw [payload]
  omega

/-- The outcome is a TIME for both targets, with no flag: `v` nanoseconds, normalised. -/
def SendsTime (o : VOut) (v : Int) : Prop := o = .both ⟨.time, timeOfNs v⟩

theorem SendsTime.exec {o : VOut} {v : Int} (h : SendsTime o v) (hf : Fires s f i) (hv : valueOf s f i = some o) :
    ∃ tok, exec i s = .next (sent s f i tok tok 0) ∧ tok.tag = .time ∧
      ((tok.val.toNat / 2 ^ 32 : Nat) : Int) = v / 10 ^ 9 % 2 ^ 32 ∧ ((tok.val.toNat % 2 ^ 32 : Nat) : Int) = v % 10 ^ 9 :=
  ⟨_, exec_both hf (h ▸ hv), rfl, timeOfNs_fields v⟩

/-! #### ADDI and MULI -/

theorem addiV_int (h : l.tag.isInt = true) (imm : BitVec 12) : addiV imm l = .both (mkInt l.tag (tokInt l + imm.toInt)) :=
  if_pos h

theorem addiV_addr (h : l.tag = .addr) (imm : BitVec 12) : addiV imm l = .both (addrAdd l imm.toInt) := by
  simp [addiV, h, Tag.isInt]

theorem addiV_time (h : l.tag = .time) (imm : BitVec 12) :
    addiV imm l = .both ⟨.time, timeOfNs (timeNs l.val + imm.toInt)⟩ := by
  simp [addiV, h, Tag.isInt]

/-- A Float tag is no integer, address or time. -/
theorem tagFloat_plain {t : Tag} (h : tagFloat t = true) : t.isInt = false ∧ t ≠ .addr ∧ t ≠ .time := by
  cases t with
  | fp64 | fp32 | fp16 | bf16 => exact ⟨rfl, nofun, nofun⟩
  | _ => cases h

theorem addiV_float (h : tagFloat l.tag = true) (imm : BitVec 12) : addiV imm l = .format := by
  obtain ⟨notInt, notAddr, notTime⟩ := tagFloat_plain h
  simp [addiV, notInt, notAddr, notTime]

theorem muliV_int (h : l.tag.isInt = true) (imm : BitVec 12) : muliV imm l = .both (mkInt l.tag (tokInt l * imm.toInt)) :=
  if_pos h

/-- The tags that R124, R129 and R130 name beside the integers are none. -/
theorem not_isInt_of_special {t : Tag} (h : tagFloat t = true ∨ t = .addr ∨ t = .time) : t.isInt = false := by
  rcases h with h | rfl | rfl
  · exact (tagFloat_plain h).1
  · rfl
  · rfl

theorem muliV_format (h : l.tag.isInt = false) (imm : BitVec 12) : muliV imm l = .format := if_neg (by simp [h])

/-! #### ADD and SUB on ADDR and TIME -/

theorem isAddrOffset_iff {t : Tag} : isAddrOffset t = true ↔ t = .i32 ∨ t = .i64 := by simp [isAddrOffset]

theorem addV_addr (hl : l.tag = .addr) (hr : r.tag = .i32 ∨ r.tag = .i64) (sat : Bool) :
    addV sat l r = .both (addrAdd l (tokInt r)) := if_pos ⟨hl, isAddrOffset_iff.mpr hr⟩

theorem addV_addr_right (hr : r.tag = .addr) (hl : l.tag = .i32 ∨ l.tag = .i64) (sat : Bool) :
    addV sat l r = .both (addrAdd r (tokInt l)) := by
  have notLeft : l.tag ≠ .addr := by rcases hl with h | h <;> simp [h]
  rw [addV, if_neg fun h => notLeft h.1, if_pos ⟨hr, isAddrOffset_iff.mpr hl⟩]

theorem subV_addr (hl : l.tag = .addr) (hr : r.tag = .i32 ∨ r.tag = .i64) (sat : Bool) :
    subV sat l r = .both (addrAdd l (-tokInt r)) := if_pos ⟨hl, isAddrOffset_iff.mpr hr⟩

theorem addV_time (hl : l.tag = .time) (hr : r.tag = .i64) (sat : Bool) : SendsTime (addV sat l r) (timeNs l.val + tokInt r) := by
  simp [SendsTime, addV, hl, hr]

theorem addV_time_right (hr : r.tag = .time) (hl : l.tag = .i64) (sat : Bool) :
    SendsTime (addV sat l r) (timeNs r.val + tokInt l) := by
  simp [SendsTime, addV, hl, hr]

theorem subV_time (hl : l.tag = .time) (hr : r.tag = .i64) (sat : Bool) : SendsTime (subV sat l r) (timeNs l.val - tokInt r) := by
  simp [SendsTime, subV, hl, hr]

theorem subV_times (hl : l.tag = .time) (hr : r.tag = .time) (sat : Bool) :
    subV sat l r = .both (mkInt .i64 (timeDiff l.val r.val)) := by
  simp [subV, hl, hr]

/-- Two operands of one tag, ADDR or TIME, have no sum. -/
theorem special_notArith {t : Tag} (h : t = .addr ∨ t = .time) : t.isInt = false ∧ tagFloat t = false := by
  rcases h with rfl | rfl <;> exact ⟨rfl, rfl⟩

theorem addV_format (hs : (l.tag = .addr ∨ l.tag = .time) ∨ (r.tag = .addr ∨ r.tag = .time))
    (h1 : ¬ (l.tag = .addr ∧ (r.tag = .i32 ∨ r.tag = .i64))) (h2 : ¬ (r.tag = .addr ∧ (l.tag = .i32 ∨ l.tag = .i64)))
    (h3 : ¬ (l.tag = .time ∧ r.tag = .i64)) (h4 : ¬ (r.tag = .time ∧ l.tag = .i64)) (sat : Bool) : addV sat l r = .format := by
  rw [addV, if_neg (by rwa [isAddrOffset_iff]), if_neg (by rwa [isAddrOffset_iff]), if_neg h3, if_neg h4]
  by_cases same : l.tag = r.tag
  · obtain ⟨notInt, notFloat⟩ : l.tag.isInt = false ∧ tagFloat l.tag = false :=
      special_notArith (hs.elim id fun h => same ▸ h)
    rw [if_neg (not_not.mpr same)]
    simp [notInt, notFloat]
  · exact if_pos same

theorem subV_format (hs : (l.tag = .addr ∨ l.tag = .time) ∨ (r.tag = .addr ∨ r.tag = .time))
    (h1 : ¬ (l.tag = .addr ∧ (r.tag = .i32 ∨ r.tag = .i64)))
    (h2 : ¬ (l.tag = .time ∧ (r.tag = .i64 ∨ r.tag = .time))) (sat : Bool) : subV sat l r = .format := by
  rw [subV, if_neg (by rwa [isAddrOffset_iff]), if_neg fun h => h2 ⟨h.1, .inl h.2⟩, if_neg fun h => h2 ⟨h.1, .inr h.2⟩]
  by_cases same : l.tag = r.tag
  · obtain ⟨notInt, notFloat⟩ : l.tag.isInt = false ∧ tagFloat l.tag = false :=
      special_notArith (hs.elim id fun h => same ▸ h)
    rw [if_neg (not_not.mpr same)]
    simp [notInt, notFloat]
  · exact if_pos same

end
end Sys2Proof.Machine

open Sys2Proof.Machine in
/-- Settles O12, by the tags of the operands: each pair that R124, R125 or R307 lists has its sum, every other one FORMAT. -/
theorem immediateAndAddressArithmetic : Obligations.ImmediateAndAddressArithmetic := by
  refine ⟨fun s f i => ?imm, fun s f g sat => ?pair⟩
  case imm =>
    intro t l
    refine ⟨?addi, ?muli, ?addr, ?time, ?float, ?refused⟩
    case addi => exact fun h ht => (sendsInt_mkInt t _ 0).exec h (congrArg some (addiV_int ht _))
    case muli => exact fun h ht => (sendsInt_mkInt t _ 0).exec h (congrArg some (muliV_int ht _))
    case addr => exact fun h ht => (addrAdd_sends _ _).exec h (congrArg some (addiV_addr ht _))
    case time => exact fun h ht => exec_both h (congrArg some (addiV_time ht _))
    case float => exact fun h ht => exec_format h (congrArg some (addiV_float ht _))
    case refused => exact fun h ht => exec_format h (congrArg some (muliV_format (not_isInt_of_special ht) _))
  case pair =>
    intro l r special offset nanos gives
    refine ⟨?addAddr, ?addAddrRight, ?subAddr, ?times, ?addTime, ?addTimeRight, ?subTime, ?addFormat, ?subFormat⟩
    case addAddr => exact fun h hl hr => (addrAdd_sends l _).exec h (congrArg some (addV_addr hl hr sat))
    case addAddrRight => exact fun h hr hl => (addrAdd_sends r _).exec h (congrArg some (addV_addr_right hr hl sat))
    case subAddr => exact fun h hl hr => (addrAdd_sends l _).exec h (congrArg some (subV_addr hl hr sat))
    case times => exact fun h hl hr => (sendsInt_mkInt .i64 _ 0).exec h (congrArg some (subV_times hl hr sat))
    case addTime => exact fun h hl hr => (addV_time hl hr sat).exec h rfl
    case addTimeRight => exact fun h hr hl => (addV_time_right hr hl sat).exec h rfl
    case subTime => exact fun h hl hr => (subV_time hl hr sat).exec h rfl
    case addFormat => exact fun h hs h1 h2 h3 h4 => exec_format h (congrArg some (addV_format hs h1 h2 h3 h4 sat))
    case subFormat => exact fun h hs h1 h2 => exec_format h (congrArg some (subV_format hs h1 h2 sat))

namespace Sys2Proof.Machine

/-! ### Tests (R129, R130) -/

/-- What a comparison says of two numbers: the ordered ones by their order, UN false and ORD true. -/
def Orders (cc : Cmp) (b : Bool) (x y : Int) : Prop :=
  (cc = .eq → (b = true ↔ x = y)) ∧ (cc = .ne → (b = true ↔ x ≠ y)) ∧
  (cc = .lt → (b = true ↔ x < y)) ∧ (cc = .le → (b = true ↔ x ≤ y)) ∧
  (cc = .gt → (b = true ↔ y < x)) ∧ (cc = .ge → (b = true ↔ y ≤ x)) ∧
  (cc = .un → b = false) ∧ (cc = .ord → b = true)

theorem cmpInt_orders (cc : Cmp) (x y : Int) : Orders cc (cmpInt cc x y) x y := by
  cases cc <;> simp [Orders, cmpInt]

theorem cmpInt_eq_iff (x y : Int) : cmpInt .eq x y = true ↔ x = y := decide_eq_true_iff

theorem cmpInt_lt_iff (x y : Int) : cmpInt .lt x y = true ↔ x < y := decide_eq_true_iff

/-- Numbers whose difference has the sign of another are ordered like it. -/
theorem Orders.of_sign {cc : Cmp} {b : Bool} {c x y : Int} (h : Orders cc b c 0) (lt : c < 0 ↔ x < y) (eq : c = 0 ↔ x = y) :
    Orders cc b x y := by
  have le : c ≤ 0 ↔ x ≤ y := by omega
  have gt : 0 < c ↔ y < x := by omega
  have ge : 0 ≤ c ↔ y ≤ x := by omega
  unfold Orders at h ⊢
  rwa [lt, le, gt, ge, ne_eq, eq] at h

/-- Without a NaN a float test compares as IEEE orders the values. -/
theorem floatTest_numbers {a b : FVal} (ha : a.isNan = false) (hb : b.isNan = false) (cc : Cmp) :
    floatTest cc a b = cmpInt cc (cmpFVal a b) 0 := by
  simp only [floatTest, ha, hb, Bool.or_self, Bool.false_eq_true, if_false]
  cases cc <;> rfl

theorem floatTest_nan {a b : FVal} (h : (a.isNan || b.isNan) = true) (cc : Cmp) :
    floatTest cc a b = true ↔ cc = .ne ∨ cc = .un := by
  unfold floatTest
  rw [if_pos h]
  cases cc <;> simp

section
variable {s : State} {f : Firing} {i : Instr} {l r : Token}

theorem tstV_int (h : l.tag.isInt = true) (hr : r.tag = l.tag) (cc : Cmp) :
    tstV cc l r = .both (predTok (cmpInt cc (tokInt l) (tokInt r))) := by
  simp [tstV, hr, h]

theorem tstV_bits (h : l.tag = .addr ∨ l.tag = .time) (hr : r.tag = l.tag) (cc : Cmp) :
    tstV cc l r = .both (predTok (cmpInt cc (tokBits l) (tokBits r))) := by
  simp [tstV, hr, h, (special_notArith h).1]

theorem tstV_float (h : tagFloat l.tag = true) (hr : r.tag = l.tag) (cc : Cmp) : tstV cc l r =
    .both (predTok (floatTest cc (tokFVal l) (tokFVal r))) (flagIf ((tokFVal l).isSnan || (tokFVal r).isSnan) fInvalid) := by
  obtain ⟨notInt, notAddr, notTime⟩ := tagFloat_plain h
  simp [tstV, hr, h, notInt, notAddr, notTime]

theorem tstV_format (h : l.tag ≠ r.tag ∨ (l.tag.isInt = false ∧ tagFloat l.tag = false ∧ l.tag ≠ .addr ∧ l.tag ≠ .time))
    (cc : Cmp) : tstV cc l r = .format := by
  rcases h with differ | ⟨notInt, notFloat, notAddr, notTime⟩
  · exact if_pos differ
  · simp [tstV, notInt, notFloat, notAddr, notTime]

/-- TST on two tokens of one Float tag: a NaN by R129, the others by their keys. -/
theorem floatTest_tokens (h : tagFloat l.tag = true) (hr : r.tag = l.tag) (cc : Cmp) :
    (((kindOf l).isNan || (kindOf r).isNan) = true →
      (floatTest cc (tokFVal l) (tokFVal r) = true ↔ cc = .ne ∨ cc = .un)) ∧
    ((kindOf l).isNan = false → (kindOf r).isNan = false →
      Orders cc (floatTest cc (tokFVal l) (tokFVal r)) (floatKey l) (floatKey r)) := by
  obtain ⟨ff, hl⟩ := floatTag_of_tagFloat h
  have hr : FloatTag r.tag ff := hr ▸ hl
  refine ⟨fun nan => floatTest_nan ?_ cc, fun ln rn => ?_⟩
  · rwa [kindOf_eq hl, kindOf_eq hr, FVal.isNan_kind, FVal.isNan_kind] at nan
  · obtain ⟨lt, eq⟩ := cmpFVal_sign hl hr ln rn
    rw [kindOf_eq hl, FVal.isNan_kind] at ln
    rw [kindOf_eq hr, FVal.isNan_kind] at rn
    rw [floatTest_numbers ln rn]
    exact (cmpInt_orders cc _ 0).of_sign lt eq

/-- The signalling NaNs of a test, by the fields of the codes. -/
theorem isSnan_kindOf (h : tagFloat l.tag = true) : (kindOf l).isSnan = (tokFVal l).isSnan := by
  obtain ⟨ff, hl⟩ := floatTag_of_tagFloat h
  rw [kindOf_eq hl, FVal.isSnan_kind]

theorem testImmV_int (h : l.tag.isInt = true) (cc : Cmp) (imm : BitVec 12) :
    testImmV cc imm l = .both (predTok (cmpInt cc (tokInt l) imm.toInt)) := if_pos h

theorem testImmV_format (h : l.tag.isInt = false) (cc : Cmp) (imm : BitVec 12) : testImmV cc imm l = .format :=
  if_neg (by simp [h])

/-! ### Bitwise words (R131) -/

theorem tokBits_lt (l : Token) : tokBits l < 2 ^ tagBits l.tag := Nat.mod_lt _ (Nat.two_pow_pos _)

/-- The immediate of a bitwise word, reduced into a tag's width. -/
theorem tokBits_mkInt_toNat (t : Tag) (v : Int) : tokBits (mkInt t v) = (v % 2 ^ tagBits t).toNat := by
  rw [← tokBits_mkInt, Int.toNat_natCast]

/-- A word that fires with a number within the width of a tag sends a token with these bits. -/
theorem exec_bits (h : Fires s f i) {t : Tag} {n : Nat} (hn : n < 2 ^ tagBits t) (hv : valueOf s f i = some (.both (mkTok t n))) :
    ∃ tok, exec i s = .next (sent s f i tok tok 0) ∧ tok.tag = t ∧ tokBits tok = n :=
  ⟨_, exec_both h hv, rfl, (tokBits_mkTok t n).trans (Nat.mod_eq_of_lt hn)⟩

theorem logicV_both (h : l.tag.isInt = true ∨ l.tag = .pred) (hr : r.tag = l.tag) (op : Nat → Nat → Nat) :
    logicV op l r = .both (mkTok l.tag (op (tokBits l) (tokBits r))) := if_pos ⟨hr.symm, h⟩

theorem notV_both (h : l.tag.isInt = true ∨ l.tag = .pred) : notV l = .both (mkTok l.tag (2 ^ tagBits l.tag - 1 - tokBits l)) :=
  if_pos h

theorem logicImmV_int (h : l.tag.isInt = true) (op : Nat → Nat → Nat) (imm : BitVec 12) :
    logicImmV op imm l = .both (mkTok l.tag (op (tokBits l) (imm.toInt % 2 ^ tagBits l.tag).toNat)) := by
  rw [← tokBits_mkInt_toNat]
  exact if_pos h

theorem logicImmV_pred (h : l.tag = .pred) (op : Nat → Nat → Nat) (imm : BitVec 12) : logicImmV op imm l = .format := by
  simp [logicImmV, h, Tag.isInt]

theorem imm_lt (t : Tag) (v : Int) : (v % 2 ^ tagBits t).toNat < 2 ^ tagBits t := by
  rw [← tokBits_mkInt_toNat]
  exact tokBits_lt (mkInt t v)

end
end Sys2Proof.Machine

open Sys2Proof.Machine in
/-- Settles O13: the tests compare by `Orders`, the float ones through the keys of their codes, and the bitwise words stay within
the width of their tag. -/
theorem testAndLogicWords : Obligations.TestAndLogicWords := by
  refine ⟨fun s f => ?tests, fun s f t ht => ?logic⟩
  case tests =>
    intro l r orders
    refine ⟨?int, ?bits, ?float, ?refused, ?teqi, ?tlti, ?teqiRefused, ?tltiRefused⟩
    case int =>
      rintro g cc t h rfl hr ht
      exact ⟨_, exec_both h (congrArg some (tstV_int ht hr cc)), cmpInt_orders cc _ _⟩
    case bits =>
      rintro g cc t h rfl hr ht
      exact ⟨_, exec_both h (congrArg some (tstV_bits ht hr cc)), cmpInt_orders cc _ _⟩
    case float =>
      rintro g cc t h rfl hr ht
      rw [isSnan_kindOf ht, isSnan_kindOf (hr.symm ▸ ht)]
      exact ⟨_, exec_both h (congrArg some (tstV_float ht hr cc)), floatTest_tokens ht hr cc⟩
    case refused => exact fun g cc h wrong => exec_format h (congrArg some (tstV_format wrong cc))
    case teqi => exact fun i h ht => ⟨_, exec_both h (congrArg some (testImmV_int ht .eq _)), cmpInt_eq_iff _ _⟩
    case tlti => exact fun i h ht => ⟨_, exec_both h (congrArg some (testImmV_int ht .lt _)), cmpInt_lt_iff _ _⟩
    case teqiRefused =>
      exact fun i h ht => exec_format h (congrArg some (testImmV_format (not_isInt_of_special ht) .eq _))
    case tltiRefused =>
      exact fun i h ht => exec_format h (congrArg some (testImmV_format (not_isInt_of_special ht) .lt _))
  case logic =>
    subst ht
    intro l r imm gives
    have left : l < 2 ^ tagBits (portD s f .l).tag := tokBits_lt _
    refine ⟨fun ht => ⟨?and, ?or, ?xor, ?not⟩, fun ht => ⟨?andi, ?ori, ?xori⟩,
      fun ht w => ⟨?andiPred, ?oriPred, ?xoriPred⟩⟩
    case and =>
      exact fun g hr h => exec_bits h (Nat.and_lt_two_pow _ (hr ▸ tokBits_lt _)) (congrArg some (logicV_both ht hr (· &&& ·)))
    case or =>
      exact fun g hr h => exec_bits h (Nat.or_lt_two_pow left (hr ▸ tokBits_lt _)) (congrArg some (logicV_both ht hr (· ||| ·)))
    case xor =>
      exact fun g hr h => exec_bits h (Nat.xor_lt_two_pow left (hr ▸ tokBits_lt _)) (congrArg some (logicV_both ht hr (· ^^^ ·)))
    case not => exact fun g h => exec_bits h (by omega) (congrArg some (notV_both ht))
    case andi =>
      exact fun i h => exec_bits h (Nat.and_lt_two_pow _ (imm_lt _ _)) (congrArg some (logicImmV_int ht (· &&& ·) i.imm))
    case ori =>
      exact fun i h => exec_bits h (Nat.or_lt_two_pow left (imm_lt _ _)) (congrArg some (logicImmV_int ht (· ||| ·) i.imm))
    case xori =>
      exact fun i h => exec_bits h (Nat.xor_lt_two_pow left (imm_lt _ _)) (congrArg some (logicImmV_int ht (· ^^^ ·) i.imm))
    case andiPred => exact fun h => exec_format h (congrArg some (logicImmV_pred ht _ _))
    case oriPred => exact fun h => exec_format h (congrArg some (logicImmV_pred ht _ _))
    case xoriPred => exact fun h => exec_format h (congrArg some (logicImmV_pred ht _ _))

namespace Sys2Proof.Machine

/-! ### Shifts (R132) -/

/-- A shift of the used bits `l` of width `w` by a count, before it is reduced modulo 2^w. -/
def shiftResult (k : Shift) (w l : Nat) (c : Int) : Int :=
  match k with
  | .shl => (l * 2 ^ shiftCount w c : Nat)
  | .shr => (l / 2 ^ shiftCount w c : Nat)
  | .sar => toSigned w l / 2 ^ shiftCount w c

section
variable {s : State} {f : Firing} {i : Instr} {t : Tag} {l r x : Token}

theorem tokBits_mkTok_agree (t : Tag) (n : Nat) : agree (tagBits t) (tokBits (mkTok t n)) n := by
  rw [tokBits_mkTok]
  push_cast
  simp [agree, Int.sub_emod]

theorem shiftVal_tag (k : Shift) (l : Token) (c : Int) : (shiftVal k l c).tag = l.tag := by cases k <;> rfl

theorem shiftVal_agree (k : Shift) (l : Token) (c : Int) :
    agree (tagBits l.tag) (tokBits (shiftVal k l c)) (shiftResult k (tagBits l.tag) (tokBits l) c) := by
  cases k with
  | shl => exact tokBits_mkTok_agree _ _
  | shr => exact tokBits_mkTok_agree _ _
  | sar => exact tokBits_mkInt_agree _ _

/-- A word that shifts L by a count sends the result under L's tag. -/
theorem exec_shift (h : Fires s f i) (ht : (portD s f .l).tag = t) {k : Shift} {c : Int}
    (hv : valueOf s f i = some (.both (shiftVal k (portD s f .l) c))) :
    ∃ tok, exec i s = .next (sent s f i tok tok 0) ∧ tok.tag = t ∧
      agree (tagBits t) (tokBits tok) (shiftResult k (tagBits t) (tokBits (portD s f .l)) c) := by
  subst ht
  exact ⟨_, exec_both h hv, shiftVal_tag _ _ _, shiftVal_agree _ _ _⟩

theorem shiftV_int (hl : l.tag.isInt = true) (hr : r.tag.isInt = true) (k : Shift) :
    shiftV k l r = .both (shiftVal k l (tokInt r)) :=
  if_pos ⟨hl, hr⟩

theorem shiftImmV_int (hl : l.tag.isInt = true) (k : Shift) (imm : BitVec 12) :
    shiftImmV k imm l = .both (shiftVal k l imm.toInt) := if_pos hl

/-! ### CLZ and POPC (R133) -/

/-- Leading zero bits within a width. -/
def leadingZeros (w l : Nat) : Nat := if l = 0 then w else w - 1 - l.log2

theorem leadingZeros_spec {w l : Nat} (hl : l < 2 ^ w) : leadingZeros w l ≤ w ∧ l < 2 ^ (w - leadingZeros w l) ∧
    (leadingZeros w l < w → 2 ^ (w - leadingZeros w l - 1) ≤ l) := by
  unfold leadingZeros
  split
  next zero => exact ⟨le_rfl, by simp [zero], fun h => absurd h (lt_irrefl _)⟩
  next some_ =>
    have top : l.log2 < w := (Nat.log2_lt some_).mpr hl
    have place : w - (w - 1 - l.log2) = l.log2 + 1 := by omega
    rw [place]
    exact ⟨by omega, Nat.lt_log2_self, fun _ => Nat.log2_self_le some_⟩

theorem clzV_int (h : l.tag.isInt = true) : clzV l = .both (mkTok .i32 (leadingZeros (tagBits l.tag) (tokBits l))) := if_pos h

/-- The ones counted bit by bit are the bits that are set. -/
theorem popcount_eq (w n : Nat) : popcount w n = ((List.range w).filter fun k => n.testBit k).length := by
  induction w generalizing n with
  | zero => rfl
  | succ w ih =>
    have rest : ((List.range w).filter ((fun k => n.testBit k) ∘ Nat.succ)).length = popcount w (n / 2) := by
      rw [ih]
      congr 2
      funext k
      exact Nat.testBit_succ n k
    rw [List.range_succ_eq_map, List.filter_cons, List.filter_map, popcount, ← rest, Nat.testBit_zero]
    rcases Nat.mod_two_eq_zero_or_one n with bit | bit
    · simp [bit]
    · simp [bit, Nat.add_comm]

theorem popcount_le (w n : Nat) : popcount w n ≤ w := by
  rw [popcount_eq]
  exact (List.length_filter_le _ _).trans_eq List.length_range

theorem popcV_int (h : l.tag.isInt = true) : popcV l = .both (mkTok .i32 (popcount (tagBits l.tag) (tokBits l))) := if_pos h

/-- A number of bits of a token fits I32. -/
theorem bitCount_le_intMax {t : Tag} {n : Nat} (h : n ≤ tagBits t) : (n : Int) ≤ intMax .i32 := by
  have := tagBits_le t
  simp only [intMax, tagSigned, tagBits, if_true]
  omega

/-! ### BFX (R134) -/

/-- The length of BFX's field, and the field. -/
def fieldLen (w : Nat) (b n : Int) : Nat := (min n ((w : Int) - b)).toNat
def fieldOf (w l : Nat) (b n : Int) : Nat := l / 2 ^ b.toNat % 2 ^ fieldLen w b n

/-- The value of the field, extended as the tag says. -/
def fieldValue (t : Tag) (l : Nat) (b n : Int) : Int :=
  if tagSigned t then toSigned (fieldLen (tagBits t) b n) (fieldOf (tagBits t) l b n) else fieldOf (tagBits t) l b n

/-- A field within the width of an integer tag has a value of that tag. -/
theorem fieldValue_range (t : Tag) (l : Nat) {b n : Int} (hb : 0 ≤ b) (hw : b < tagBits t) (hn : 0 < n) :
    intMin t ≤ fieldValue t l b n ∧ fieldValue t l b n ≤ intMax t := by
  have len : 0 < fieldLen (tagBits t) b n ∧ fieldLen (tagBits t) b n ≤ tagBits t := by
    unfold fieldLen
    omega
  unfold fieldValue intMin intMax
  split
  · obtain ⟨lo, hi⟩ := toSigned_bounds (fieldLen (tagBits t) b n) (fieldOf (tagBits t) l b n) len.1
    have wider : (2 : Int) ^ (fieldLen (tagBits t) b n - 1) ≤ 2 ^ (tagBits t - 1) :=
      pow_le_pow_right₀ (by decide) (Nat.sub_le_sub_right len.2 1)
    omega
  · have small : fieldOf (tagBits t) l b n < 2 ^ tagBits t :=
      (Nat.mod_lt _ (Nat.two_pow_pos _)).trans_le (Nat.pow_le_pow_right (by decide) len.2)
    have cast : ((2 ^ tagBits t : Nat) : Int) = 2 ^ tagBits t := by push_cast; rfl
    omega

/-- BFX sends 0 where the field lies outside the width or is empty, and the field's value else. -/
theorem bfxV_int (hl : l.tag.isInt = true) (hr : r.tag.isInt = true) (hx : x.tag.isInt = true) :
    ∃ tok, bfxV l r x = .both tok ∧ tok.tag = l.tag ∧ (tokInt r < 0 ∨ (tagBits l.tag : Int) ≤ tokInt r ∨ tokInt x ≤ 0 → tokInt tok = 0) ∧
    (0 ≤ tokInt r → tokInt r < tagBits l.tag → 0 < tokInt x →
      tokInt tok = fieldValue l.tag (tokBits l) (tokInt r) (tokInt x)) := by
  by_cases outside : tokInt r < 0 ∨ (tagBits l.tag : Int) ≤ tokInt r ∨ tokInt x ≤ 0
  · refine ⟨mkTok l.tag 0, ?_, rfl, fun _ => tokInt_mkTok_of_le hl (intMax_nonneg _), fun hb hw hn => by omega⟩
    simp only [bfxV, hl, hr, hx, Bool.and_self, Bool.not_true, Bool.false_eq_true, if_false, if_pos outside]
  · refine ⟨mkInt l.tag (fieldValue l.tag (tokBits l) (tokInt r) (tokInt x)), ?_, rfl, fun h => absurd h outside,
      fun hb hw hn => ?_⟩
    · simp only [bfxV, hl, hr, hx, Bool.and_self, Bool.not_true, Bool.false_eq_true, if_false, if_neg outside]
      unfold fieldValue
      split
      · rfl
      · rw [mkInt_natCast]
        rfl
    · obtain ⟨lo, hi⟩ := fieldValue_range l.tag (tokBits l) hb hw hn
      exact tokInt_mkInt_of_range _ _ hl lo hi

end
end Sys2Proof.Machine

open Sys2Proof.Machine in
/-- Settles O14: the shifts by `shiftVal_agree`, CLZ by the place of the highest one, POPC by induction on the width, BFX by the
range of its field's value. -/
theorem shiftAndBitWords : Obligations.ShiftAndBitWords := by
  refine ⟨fun s f t hl ht => ?shifts, fun s f t hl ht => ?counts, fun s f g t h hl ht hr hx => ?bfx⟩
  case shifts =>
    intro w l c ceff gives
    have left : (portD s f .l).tag.isInt = true := hl.symm ▸ ht
    refine ⟨?shl, ?shr, ?sar, ?shli, ?shri, ?sari⟩
    case shl => exact fun g hr h => exec_shift h hl (congrArg some (shiftV_int left hr .shl))
    case shr => exact fun g hr h => exec_shift h hl (congrArg some (shiftV_int left hr .shr))
    case sar => exact fun g hr h => exec_shift h hl (congrArg some (shiftV_int left hr .sar))
    case shli => exact fun i h => exec_shift h hl (congrArg some (shiftImmV_int left .shl _))
    case shri => exact fun i h => exec_shift h hl (congrArg some (shiftImmV_int left .shr _))
    case sari => exact fun i h => exec_shift h hl (congrArg some (shiftImmV_int left .sar _))
  case counts =>
    subst hl
    intro w l
    refine ⟨fun g h => ?clz, fun g h => ?popc⟩
    case clz =>
      obtain ⟨within, below, top⟩ := leadingZeros_spec (tokBits_lt (portD s f .l))
      exact ⟨_, _, exec_both h (congrArg some (clzV_int ht)), rfl, tokInt_mkTok_of_le rfl (bitCount_le_intMax within), within,
        below, top⟩
    case popc =>
      refine ⟨_, exec_both h (congrArg some (popcV_int ht)), rfl, ?_⟩
      rw [tokInt_mkTok_of_le rfl (bitCount_le_intMax (popcount_le _ _)), popcount_eq]
  case bfx =>
    subst hl
    obtain ⟨tok, value, tag, outside, inside⟩ := bfxV_int ht hr hx
    exact ⟨tok, exec_both h (congrArg some value), tag, outside, inside⟩

namespace Sys2Proof.Machine

variable {s : State} {f : Firing} {i : Instr}

/-! ### Flags of a task (R105, R209) -/

/-- Flags that go to a task change its registers and their bytes alone. -/
theorem flagTask_keeps {β : Type} (p : State → β)
    (h : ∀ s g l ts, p { s with gm := g, ls := l, wk := { s.wk with tasks := ts } } = p s) (s : State) (tid : Nat) (fl : FlagSet) :
    p (flagTask s tid fl) = p s := by
  unfold flagTask
  split
  · rfl
  · exact (storeReg_keeps p (fun s g l => h s g l s.wk.tasks) _ _ _).trans (h s s.gm s.ls _)

theorem flagTask_task (s : State) (tid : Nat) (fl : FlagSet) :
    taskAt (flagTask s tid fl) tid = (taskAt s tid).map fun t => orFlags t fl := by
  unfold flagTask
  split
  next none_ => simp [none_, orFlags]
  next => exact (storeReg_keeps (fun a => taskAt a tid) (fun _ _ _ => rfl) _ _ _).trans (taskAt_modTask_same _ _ _)

@[simp] theorem flagTask_zero (s : State) (tid : Nat) : flagTask s tid 0 = s := if_pos rfl

/-! ### The reductions of a RED (R138, R139) -/

theorem redAt_fields {tid block slot m : Nat} {r : Red} (h : redAt s tid block slot m = some r) :
    r.tid = tid ∧ r.block = block ∧ r.slot = slot ∧ r.m = m := by
  have := List.find?_some h
  simpa only [Bool.and_eq_true, decide_eq_true_eq, and_assoc] using this

/-- A reduction that has been set is found. -/
theorem redAt_setRed (s : State) (r : Red) : redAt (setRed s r) r.tid r.block r.slot r.m = some r := by
  have gone : (s.wk.reds.filter fun x => !(x.tid = r.tid && x.block = r.block && x.slot = r.slot && x.m = r.m)).find?
      (fun x => x.tid = r.tid && x.block = r.block && x.slot = r.slot && x.m = r.m) = none := by
    rw [List.find?_eq_none]
    intro x hx
    simpa only [Bool.not_eq_true, Bool.not_eq_true'] using (List.mem_filter.mp hx).2
  simp only [redAt, setRed, List.find?_append, gone]
  simp

theorem redAt_markReady (s : State) (g : Firing) (tid block slot m : Nat) :
    redAt (markReady s g) tid block slot m = redAt s tid block slot m := by
  unfold markReady
  split <;> rfl

/-! ### The marker (R138) -/

section
variable {g : GF} {kind : RedKind}

/-- A marker that is neither POISON nor NULL: the number of iterations, or FORMAT. -/
def markRule (mark : Token) : VOut :=
  if mark.tag.isInt && 0 ≤ tokInt mark && tokInt mark ≤ 65536 then .both mark else .format

/-- The reduction that a marker has opened: complete, it sends its result. -/
def redGathered (s : State) (f : Firing) (g : GF) (kind : RedKind) : State :=
  match redAt s f.tid f.block f.slot f.iter with
  | some r => if r.sent.isSome || r.toks.length = r.n then redSend s f (.red g kind) r else s
  | none => s

/-- What a RED leaves, by what the value rule says of its marker. -/
def redEnd (s : State) (f : Firing) (g : GF) (kind : RedKind) : VOut → State
  | .format => raiseAt s f ⟨.format, 0⟩
  | .send a b fl =>
    if blankTag a.tag then fireSend s f (.red g kind) a b fl
    else redGathered (redOpen s f kind (portD s f .r).tag (tokInt (portD s f .r)).toNat) f g kind

/-- A RED on its lane: the value rule over its marker. -/
theorem execRed_on (hl : OnLane s f (.red g kind)) : exec (.red g kind) s = .next (redEnd (popLane s) f g kind
    (valueRule g.pm (predTokOf s f g.pm) [portD s f .r] (markRule (portD s f .r)))) := by
  rw [exec_red, execRed, onLane_fires hl]
  rfl

/-- P of a RED whose predicate matches carries neither POISON nor NULL. -/
theorem redPred_plain (hm : Matches s f (.red g kind)) {t : Tag} (ht : t ≠ .pred) :
    anyTag t (predTokOf s f g.pm).toList = false :=
  predTag_of_matches hm t ht

theorem execRed_poison (hl : OnLane s f (.red g kind)) (h : (portD s f .r).tag = .poison) :
    exec (.red g kind) s = .next (sent s f (.red g kind) poisonTok poisonTok 0) := by
  rw [execRed_on hl, valueRule_poison _ (by simp [anyTag, h])]
  rfl

theorem execRed_null (hl : OnLane s f (.red g kind)) (hm : Matches s f (.red g kind)) (h : (portD s f .r).tag = .null) :
    exec (.red g kind) s = .next (sent s f (.red g kind) nullTok nullTok 0) := by
  rw [execRed_on hl, valueRule_null _ ?_ (by simp [anyTag, h])]
  · rfl
  · rw [anyTag_append, redPred_plain (t := .poison) hm nofun]
    simp [anyTag, h]

/-- The value rule lets the marker through. -/
theorem execRed_marked (hl : OnLane s f (.red g kind)) (hm : Matches s f (.red g kind)) (hp : (portD s f .r).tag ≠ .poison)
    (hn : (portD s f .r).tag ≠ .null) :
    exec (.red g kind) s = .next (redEnd (popLane s) f g kind (markRule (portD s f .r))) := by
  have through : valueRule g.pm (predTokOf s f g.pm) [portD s f .r] (markRule (portD s f .r)) = markRule (portD s f .r) :=
    valueRule_go (fun t ht => redPred_plain hm ht) (predMatch_of_matches hm) (by simpa using ⟨hp, hn⟩)
  rw [execRed_on hl, through]

theorem execRed_format (hl : OnLane s f (.red g kind)) (hm : Matches s f (.red g kind)) (hp : (portD s f .r).tag ≠ .poison)
    (hn : (portD s f .r).tag ≠ .null)
    (h : (portD s f .r).tag.isInt = false ∨ tokInt (portD s f .r) < 0 ∨ 65536 < tokInt (portD s f .r)) :
    exec (.red g kind) s = .next (raiseAt (popLane s) f ⟨.format, 0⟩) := by
  have wrong : markRule (portD s f .r) = .format := by
    refine if_neg fun all => ?_
    simp only [Bool.and_eq_true, decide_eq_true_eq] at all
    obtain ⟨⟨int, lo⟩, hi⟩ := all
    rcases h with h | h | h
    · exact Bool.false_ne_true (h.symm.trans int)
    · omega
    · omega
  rw [execRed_marked hl hm hp hn, wrong]
  rfl

/-- A number of iterations opens the reduction. -/
theorem execRed_int (hl : OnLane s f (.red g kind)) (hm : Matches s f (.red g kind)) (ht : (portD s f .r).tag.isInt = true)
    (lo : 0 ≤ tokInt (portD s f .r)) (hi : tokInt (portD s f .r) ≤ 65536) : exec (.red g kind) s = .next
      (redGathered (redOpen (popLane s) f kind (portD s f .r).tag (tokInt (portD s f .r)).toNat) f g kind) := by
  have plain : (portD s f .r).tag ≠ .poison ∧ (portD s f .r).tag ≠ .null := by
    constructor <;> intro h <;> simp [h, Tag.isInt] at ht
  have number : markRule (portD s f .r) = .both (portD s f .r) := if_pos (by simp [ht, lo, hi])
  rw [execRed_marked hl hm plain.1 plain.2, number]
  exact congrArg Host.Outcome.next (if_neg (by simp [blankTag, plain]))

/-- The reduction that a marker opens, before any token has joined it. -/
def openedRed (f : Firing) (kind : RedKind) (mark : Tag) (n : Nat) : Red :=
  ⟨f.tid, f.block, f.slot, f.iter, n, mark, kind, [], none, [], []⟩

/-- A marker's reduction stands open, and the waiting tokens are `ts`. -/
def redOpened (s : State) (ts : List TokEntry) (f : Firing) (kind : RedKind) (mark : Tag) (n : Nat) : State :=
  setRed { s with wk := { s.wk with toks := ts } } (openedRed f kind mark n)

theorem redAt_redOpened (s : State) (ts : List TokEntry) (f : Firing) (kind : RedKind) (mark : Tag) (n : Nat) :
    redAt (redOpened s ts f kind mark n) f.tid f.block f.slot f.iter = some (openedRed f kind mark n) :=
  redAt_setRed _ (openedRed f kind mark n)

theorem redOpened_mem (s : State) (ts : List TokEntry) (f : Firing) (kind : RedKind) (mark : Tag) (n : Nat) :
    MemFrame s (redOpened s ts f kind mark n) := .of_eq rfl rfl

theorem redOpen_again {mark : Tag} {n : Nat} {r : Red} (h : redAt s f.tid f.block f.slot f.iter = some r) :
    redOpen s f kind mark n = s := by
  rw [redOpen, h]

/-- A marker for which no token waits opens its reduction, and changes nothing but the lists of tokens and reductions. -/
theorem redOpen_empty {mark : Tag} {n : Nat} (h : redAt s f.tid f.block f.slot f.iter = none) (hw : redWaiting s f n = []) :
    ∃ ts, redOpen s f kind mark n = redOpened s ts f kind mark n := by
  rw [redOpen, h, hw]
  exact ⟨_, rfl⟩

theorem redWaiting_zero (s : State) (f : Firing) : redWaiting s f 0 = [] := by simp [redWaiting]

/-- What a complete reduction leaves that has sent its result. -/
structure RedSent (s t : State) (f : Firing) (i : Instr) (r : Red) : Prop where
  net : t.net = s.net ++ resultMsgs f i (redResult r).1 (redResult r).1
  task : taskAt t f.tid = (taskAt s f.tid).map fun u => orFlags u (redResult r).2
  inst : instAt t f.tid f.iter = (instAt s f.tid f.iter).map (firedInst f 0)
  mem : (redResult r).2 = 0 → MemFrame s t

theorem redSend_sent {r : Red} (hs : r.sent = none) : RedSent s (redSend s f i r) f i r := by
  let a : State := setRed s { r with sent := some (redResult r) }
  have eq : redSend s f i r = fireSend (flagTask a f.tid (redResult r).2) f i (redResult r).1 (redResult r).1 0 := by
    rw [redSend, hs]
  rw [eq]
  refine ⟨?net, ?task, ?inst, fun flags => ?mem⟩
  case net => exact congrArg (· ++ _) (flagTask_keeps State.net (fun _ _ _ _ => rfl) a f.tid _)
  case task => exact flagTask_task a f.tid _
  case inst =>
    refine (instAt_modInst_same _ _ _ _).trans (congrArg (Option.map (firedInst f 0)) ?_)
    exact flagTask_keeps (fun a => instAt a f.tid f.iter) (fun _ _ _ _ => rfl) a f.tid _
  case mem =>
    rw [flags, flagTask_zero]
    exact .of_eq rfl rfl

/-- A reduction that is there and complete sends its result. -/
theorem redGathered_complete {r : Red} (h : redAt s f.tid f.block f.slot f.iter = some r) (hn : r.toks.length = r.n) :
    redGathered s f g kind = redSend s f (.red g kind) r := by
  rw [redGathered, h]
  exact if_pos (by simp [hn])

/-- An open reduction waits for its tokens. -/
theorem redGathered_open {r : Red} (h : redAt s f.tid f.block f.slot f.iter = some r) (hs : r.sent = none)
    (hn : r.toks.length ≠ r.n) : redGathered s f g kind = s := by
  rw [redGathered, h]
  exact if_neg (by simp [hs, hn])

end

/-! ### L tokens of a RED (R138, R139) -/

section
variable {t : Task} {m : TokMsg} {g : GF} {kind : RedKind} {r : Red}

theorem blankTag_iff {t : Tag} : blankTag t = true ↔ t = .null ∨ t = .poison := by simp [blankTag]

theorem tokenArrive_red (ht : taskAt s m.tid = some t) (hm : markedAt s t.graph (cellOf s t m.block m.slot) = false)
    (hp : m.port = .l) (hi : instrAt s m.tid m.block m.slot = some (.red g kind)) :
    tokenArrive s m = redData (countMatch s t m) kind m := by
  unfold tokenArrive
  simp only [ht, hm, hi, hp, Bool.false_eq_true, if_false]

theorem redData_format (hb : ¬ (m.tok.tag = .null ∨ m.tok.tag = .poison)) (hk : redTagOk kind m.tok.tag = false) :
    redData s kind m = raise s m.tid m.src m.slot ⟨.format, 0⟩ := by
  rw [← blankTag_iff] at hb
  exact if_pos (by simp [hb, hk])

theorem redData_covered (h : (m.tok.tag = .null ∨ m.tok.tag = .poison) ∨ redTagOk kind m.tok.tag = true)
    (hr : redCovering s m = some r) : redData s kind m = redJoin s r m := by
  rw [← blankTag_iff] at h
  unfold redData
  rw [if_neg (by rcases h with h | h <;> simp [h]), hr]

/-- A second token of an iteration whose instance lives. -/
theorem redJoin_second {x : Inst} (there : (tget r.toks (iterRank r.m m.iter)).isSome = true)
    (fresh : iterRank r.m m.iter ∉ r.stale) (hx : instAt s m.tid m.iter = some x) (hb : x.block = m.block) :
    redJoin s r m = raise s m.tid m.iter m.slot ⟨.blockBad, 0⟩ := by
  unfold redJoin
  rw [if_pos (by simp [there, fresh]), secondToken, hx]
  simp [hb]

/-- The reduction with the token of an iteration in its place. -/
def joinedRed (r : Red) (m : TokMsg) : Red :=
  let k := iterRank r.m m.iter
  { r with toks := tput r.toks k m.tok, srcs := tput r.srcs k m.src, stale := r.stale.filter fun j => j ≠ k }

/-- What is left of a table is what stood under the other keys. -/
theorem mem_tdel {α : Type} {t : Table α} (h : tsorted none t = true) {k : Nat} {e : Nat × α} (he : e ∈ tdel t k) :
    e ∈ t ∧ e.1 ≠ k := by
  refine ⟨(tdel_sublist t k).subset he, fun same => ?_⟩
  have listed := tget_of_mem (tdel_sorted t k h) he
  rw [same, tget_tdel_same t k h] at listed
  cases listed

/-- The tag that the other tokens carry, where they carry one, is the new token's. -/
theorem redTag_others {k : Nat} {u : Tag} (hs : tsorted none r.toks = true)
    (same : ∀ y ∈ r.toks, y.1 ≠ k → y.2.tag = .null ∨ y.2.tag = .poison ∨ y.2.tag = u) {v : Tag}
    (hv : redTag { r with toks := tdel r.toks k } = some v) : v = u := by
  obtain ⟨carried, plain⟩ := List.mem_filter.mp (List.mem_of_mem_head? hv)
  obtain ⟨y, hy, rfl⟩ := List.mem_map.mp carried
  obtain ⟨listed, other⟩ := mem_tdel hs hy
  have notBlank : ¬ (y.2.tag = .null ∨ y.2.tag = .poison) := by simpa [blankTag] using plain
  rcases same y listed other with h | h | h
  · exact absurd (.inl h) notBlank
  · exact absurd (.inr h) notBlank
  · exact h

/-- A token joins the reduction in the place of its iteration. -/
theorem redJoin_joins (hs : tsorted none r.toks = true)
    (free : tget r.toks (iterRank r.m m.iter) = none ∨ iterRank r.m m.iter ∈ r.stale)
    (same : ∀ y ∈ r.toks, y.1 ≠ iterRank r.m m.iter →
      (m.tok.tag = .null ∨ m.tok.tag = .poison) ∨ y.2.tag = .null ∨ y.2.tag = .poison ∨ y.2.tag = m.tok.tag) :
    redJoin s r m = setRed s (joinedRed r m) ∨
      redJoin s r m = markReady (setRed s (joinedRed r m)) ⟨m.tid, r.m, m.block, m.slot⟩ := by
  have first : ¬ ((tget r.toks (iterRank r.m m.iter)).isSome && !r.stale.contains (iterRank r.m m.iter)) = true := by
    rcases free with h | h <;> simp [h]
  unfold redJoin
  rw [if_neg first]
  dsimp only
  split
  next v hv =>
    have agrees : blankTag m.tok.tag = true ∨ v = m.tok.tag := by
      rw [blankTag_iff]
      exact or_iff_not_imp_left.mpr fun notBlank => redTag_others hs (fun y hy hk => (same y hy hk).resolve_left notBlank) hv
    rw [if_neg (by rcases agrees with h | h <;> simp [h])]
    split
    exacts [.inr rfl, .inl rfl]
  next =>
    rw [if_neg (by simp)]
    split
    exacts [.inr rfl, .inl rfl]

/-- What an L token leaves that has joined its reduction: no instance, message or byte changes. -/
structure RedJoined (s u : State) (r : Red) (m : TokMsg) : Prop where
  red : redAt u r.tid r.block r.slot r.m = some (joinedRed r m)
  net : u.net = s.net
  insts : u.wk.insts = s.wk.insts
  mem : MemFrame s u

theorem setRed_joined (s : State) (r : Red) (m : TokMsg) : RedJoined s (setRed s (joinedRed r m)) r m :=
  ⟨redAt_setRed s (joinedRed r m), rfl, rfl, .of_eq rfl rfl⟩

theorem RedJoined.markReady {u : State} (h : RedJoined s u r m) (g : Firing) : RedJoined s (markReady u g) r m := by
  have stand := markReady_stand u g
  exact ⟨(redAt_markReady u g _ _ _ _).trans h.red, stand.net.trans h.net, stand.insts.trans h.insts,
    h.mem.trans (markReady_mem u g)⟩

theorem redJoin_joined (hs : tsorted none r.toks = true)
    (free : tget r.toks (iterRank r.m m.iter) = none ∨ iterRank r.m m.iter ∈ r.stale)
    (same : ∀ y ∈ r.toks, y.1 ≠ iterRank r.m m.iter →
      (m.tok.tag = .null ∨ m.tok.tag = .poison) ∨ y.2.tag = .null ∨ y.2.tag = .poison ∨ y.2.tag = m.tok.tag) :
    RedJoined s (redJoin s r m) r m := by
  rcases redJoin_joins (s := s) hs free same with h | h
  · exact h ▸ setRed_joined s r m
  · exact h ▸ (setRed_joined s r m).markReady _

end
end Sys2Proof.Machine

open Sys2Proof.Machine in
/-- Settles O18: the marker by the value rule and by whether its reduction is complete, an L token by whether it joins the
reduction that covers it. -/
theorem redReduces : Obligations.RedReduces := by
  refine ⟨fun s f g kind hl hm => ?marker, fun s m t g kind ht hp hi hmk => ?token⟩
  case marker =>
    intro i mark
    refine ⟨?complete, ?zero, ?opens, fun h => execRed_poison hl h, fun h => execRed_null hl hm h,
      fun hp hn h => execRed_format hl hm hp hn h⟩
    case complete =>
      intro r hint lo hi hr hn hs
      have sent := redSend_sent (s := popLane s) (f := f) (i := i) hs
      refine ⟨_, execRed_int hl hm hint lo hi, ?_⟩
      rw [redOpen_again (s := popLane s) hr, redGathered_complete (s := popLane s) hr hn]
      exact ⟨sent.net, sent.task, sent.inst, fun flags => MemFrame.trans (t := popLane s) (.of_eq rfl rfl) (sent.mem flags)⟩
    case zero =>
      intro hint zero hr
      obtain ⟨ts, opened⟩ := redOpen_empty (s := popLane s) (kind := kind) (mark := mark.tag) hr (redWaiting_zero _ f)
      refine ⟨_, execRed_int hl hm hint zero.ge (zero.trans_le (by decide)), ?_⟩
      rw [show (tokInt (portD s f .r)).toNat = 0 from congrArg Int.toNat zero, opened,
        redGathered_complete (redAt_redOpened _ ts f kind mark.tag 0) rfl]
      have sent := redSend_sent (s := redOpened (popLane s) ts f kind mark.tag 0) (f := f) (i := i)
        (r := openedRed f kind mark.tag 0) rfl
      have mem : MemFrame s (popLane s) := .of_eq rfl rfl
      exact ⟨sent.net, (mem.trans (redOpened_mem _ _ _ _ _ _)).trans (sent.mem rfl)⟩
    case opens =>
      intro hint lo hi hr hw
      obtain ⟨ts, opened⟩ := redOpen_empty (s := popLane s) (kind := kind) (mark := mark.tag) hr hw
      have there := redAt_redOpened (popLane s) ts f kind mark.tag (tokInt mark).toNat
      refine ⟨_, openedRed f kind mark.tag (tokInt mark).toNat, execRed_int hl hm hint lo.le hi, ?_⟩
      rw [opened, redGathered_open there rfl (by simp only [openedRed, List.length_nil]; omega)]
      exact ⟨there, rfl, rfl, rfl, .of_eq rfl rfl⟩
  case token =>
    intro e blank n
    have run : exec e s = .next (redData n kind m) := congrArg Host.Outcome.next (tokenArrive_red ht hmk hp hi)
    obtain ⟨sr, counted⟩ : ∃ r, n = { s with sr := r } := countMatch_eq s t m
    refine ⟨fun hb hk => run.trans (congrArg _ (redData_format hb hk)), fun r hc hr hok => ?covered⟩
    intro k stale
    refine ⟨?second, ?joins⟩
    case second =>
      rintro there fresh ⟨x, hx, hb⟩
      rw [run, redData_covered hok (by rw [counted]; exact hc), redJoin_second there fresh (by rw [counted]; exact hx) hb]
    case joins =>
      intro hs free same
      obtain ⟨tid, block, slot, -⟩ := redAt_fields hr
      rw [run, redData_covered hok (by rw [counted]; exact hc)]
      obtain ⟨red, net, insts, mem⟩ := redJoin_joined (s := n) hs free same
      rw [tid, block, slot] at red
      refine ⟨_, joinedRed r m, rfl, red, tget_tput_same _ _ _, rfl, by simp [joinedRed, k],
        fun j hj => tget_tput_other _ _ _ _ hj, ?_, ?_, ?_⟩
      · rw [net, counted]
      · rw [insts, counted]
      · exact (MemFrame.of_eq (by rw [counted]) (by rw [counted])).trans mem

namespace Sys2Proof.Machine

variable {s : State} {tid r g k : Nat} {t : Task} {v : Token}

/-! ### The bytes of a register (R221) -/

theorem carveGranule_congr {u : State} (h : u.al = s.al) (t : Task) (j : Nat) : carveGranule u t j = carveGranule s t j := by
  simp only [carveGranule, recGranule, recVi, h]

/-- The granules of a carve-out that has not been spilled lie in local store. -/
theorem carveGranule_here (h : ∀ x, tget s.al.recs t.carve = some x → x.spilled = false) {j : Nat} {l : GLoc}
    (hl : carveGranule s t j = some l) : ∃ n, l = .here n := by
  unfold carveGranule at hl
  split at hl
  next x hx =>
    split at hl
    · cases hl
      exact ⟨_, if_neg (by simp [h x hx])⟩
    · cases hl
  next => cases hl

theorem carvePut_gm (h : ∀ x, tget s.al.recs t.carve = some x → x.spilled = false) (j off : Nat) (bs : List Byte) :
    (carvePut s t j off bs).gm = s.gm := by
  unfold carvePut
  split
  next l hl =>
    obtain ⟨n, rfl⟩ := carveGranule_here h hl
    rfl
  next => rfl

theorem carvePut_bytes {j : Nat} (h : carveGranule s t j = some (.here g)) (off : Nat) (bs : List Byte) :
    (carvePut s t j off bs).ls.bytes = setBytes s.ls.bytes (granuleByte g + off) bs := by
  rw [carvePut, h]
  rfl

/-- A write of a granule leaves no symbol in error where none was (R220). -/
theorem upsetAfter_sound {l : Ls} (h : l.upset = []) (g off n : Nat) : upsetAfter l g off n = [] := by
  unfold upsetAfter
  rw [h]
  split <;> rfl

theorem carvePut_sound (h : s.ls.upset = []) (t : Task) (j off : Nat) (bs : List Byte) :
    (carvePut s t j off bs).ls.upset = [] := by
  unfold carvePut
  split
  next l _ =>
    cases l with
    | here g => exact upsetAfter_sound h g off bs.length
    | copy vi d st => exact (congrArg Ls.upset (devPutAll_keeps State.ls (fun _ _ => rfl) bs s vi _)).trans h
  next => exact h

theorem storeReg_sound (h : s.ls.upset = []) (tid r : Nat) : (storeReg s tid r).ls.upset = [] := by
  unfold storeReg
  split
  · exact carvePut_sound (carvePut_sound h _ _ _ _) _ _ _ _
  · exact h

theorem storeReg_gm (ht : taskAt s tid = some t) (h : ∀ x, tget s.al.recs t.carve = some x → x.spilled = false) (r : Nat) :
    (storeReg s tid r).gm = s.gm := by
  simp only [storeReg, ht]
  rw [carvePut_gm, carvePut_gm h]
  rwa [carvePut_keeps State.al fun _ _ _ => rfl]

/-- Bytes that a write does not reach read as before. -/
theorem bytesAt_setBytes_outside {m : List Host.Cell} (h : Memory.wf m = true) {a b n : Nat} {bs : List Byte}
    (apart : b + n ≤ a ∨ a + bs.length ≤ b) : bytesAt (setBytes m a bs) b n = bytesAt m b n :=
  List.ext_getElem (by simp) fun i hi _ => by
    rw [bytesAt_length] at hi
    rw [bytesAt_getElem, bytesAt_getElem, byteAt_setBytes_outside bs m a (b + i) h (by omega)]

/-- A register that is stored stands in the carve-out: its payload in half `r` mod 2 of its granule, its tag in its byte. -/
theorem storeReg_bytes (hs : Canonical s) (ht : taskAt s tid = some t) (hg : carveGranule s t (r / 2) = some (.here g))
    (hk : carveGranule s t (32 + r / 16) = some (.here k)) (apart : g ≠ k) :
    bytesAt (storeReg s tid r).ls.bytes (granuleByte g + 8 * (r % 2)) 8 = bytesOf 8 (regOf t r).val.toNat ∧
      byteAt (storeReg s tid r).ls.bytes (granuleByte k + r % 16) = BitVec.ofNat 8 (Tag.code (regOf t r).tag) := by
  have payload := carvePut_bytes hg (8 * (r % 2)) (bytesOf 8 (regOf t r).val.toNat)
  have canon : Canonical (carvePut s t (r / 2) (8 * (r % 2)) (bytesOf 8 (regOf t r).val.toNat)) := carvePut_canon hs
  have tag := carvePut_bytes ((carveGranule_congr (carvePut_keeps State.al (fun _ _ _ => rfl) s t (r / 2) (8 * (r % 2))
    (bytesOf 8 (regOf t r).val.toNat)) t _).trans hk) (r % 16) [BitVec.ofNat 8 (Tag.code (regOf t r).tag)]
  simp only [storeReg, ht, regGranule, tagGranule]
  rw [tag]
  constructor
  · rw [bytesAt_setBytes_outside canon.bytes, payload]
    · simpa only [length_bytesOf] using
        bytesAt_setBytes_same s.ls.bytes (granuleByte g + 8 * (r % 2)) (bytesOf 8 (regOf t r).val.toNat) hs.bytes
    · rw [List.length_singleton]
      unfold granuleByte
      omega
  · simpa using byteAt_setBytes_inside [BitVec.ofNat 8 (Tag.code (regOf t r).tag)] _ (granuleByte k + r % 16) 0
      canon.bytes (by simp)

/-! ### The granules of a register that gives up a FUTURE (R38, R220) -/

theorem readCheck_ls (h : s.ls.upset = []) (l : GLoc) : (readCheck s l).ls = s.ls := by
  cases l with
  | here g => rw [readCheck_here h]
  | copy vi d st =>
    have touched (a : State) (va : Nat) : (touchAt vi a va).ls = a.ls := touchAt_keeps State.ls (fun _ _ => rfl) a vi va
    exact (touched _ _).trans (touched _ _)

theorem regCheck_ls (h : s.ls.upset = []) (tid r : Nat) : (regCheck s tid r).ls = s.ls :=
  List.foldlRecOn (motive := fun (a : State) => a.ls = s.ls) _ _ rfl fun _ ha l _ => (readCheck_ls (ha ▸ h) l).trans ha

/-- The state in which a register that is to take a token has given up what it held. -/
def regLooks (s : State) (tid r : Nat) : State := if (regOf (taskD s tid) r).tag = .future then regCheck s tid r else s

/-- The state in which a register has its new token, in the task and in the carve-out. -/
def regStored (s : State) (tid r : Nat) (v : Token) : State :=
  storeReg (modTask (regLooks s tid r) tid fun t => setReg t r (takenVal r v)) tid r

theorem regLooks_keeps {β : Type} (p : State → β) (h : ∀ s g l b, p { s with gm := g, ls := l, bt := b } = p s) (s : State)
    (tid r : Nat) : p (regLooks s tid r) = p s := by
  unfold regLooks
  split
  · exact regCheck_keeps p h s tid r
  · rfl

theorem regLooks_bytes (s : State) (tid r : Nat) : (regLooks s tid r).ls.bytes = s.ls.bytes := by
  unfold regLooks
  split
  · exact regCheck_bytes s tid r
  · rfl

theorem regLooks_canon (hs : Canonical s) : Canonical (regLooks s tid r) := ite_canon (regCheck_canon hs) hs

/-- Beyond the state with the register stored, a written register only sends the change of a count (R38). -/
theorem writeReg_keeps {β : Type} (p : State → β) (h : ∀ s n, p { s with net := n } = p s) (s : State) (tid r : Nat) (v : Token) :
    p (writeReg s tid r v) = p (regStored s tid r v) := by
  unfold writeReg
  extract_lets was old s0 v' s1
  split
  · exact h s1 _
  · rfl

/-- The task and the carve-out of the state in which the register is stored. -/
theorem regStored_task (ht : taskAt s tid = some t) (r : Nat) (v : Token) :
    taskAt (modTask (regLooks s tid r) tid fun t => setReg t r (takenVal r v)) tid = some (setReg t r (takenVal r v)) := by
  rw [taskAt_modTask_same, regLooks_keeps (fun a => taskAt a tid) fun _ _ _ _ => rfl, ht]
  rfl

theorem regStored_al (s : State) (tid r : Nat) (v : Token) :
    (modTask (regLooks s tid r) tid fun t => setReg t r (takenVal r v)).al = s.al :=
  regLooks_keeps State.al (fun _ _ _ _ => rfl) s tid r

theorem regStored_canon (hs : Canonical s) (v : Token) :
    Canonical (modTask (regLooks s tid r) tid fun t => setReg t r (takenVal r v)) :=
  modTask_canon (regLooks_canon hs) fun _ h => setReg_regs h

theorem writeReg_gst (ht : taskAt s tid = some t) (h : s.ls.upset = [] ∨ (regOf t r).tag ≠ .future) (v : Token) (g : Nat) :
    gstAt (writeReg s tid r v).ls g = gstAt s.ls g := by
  have looks : (regLooks s tid r).ls = s.ls := by
    have task : taskD s tid = t := congrArg (Option.getD · _) ht
    unfold regLooks
    rw [task]
    split
    next future => exact regCheck_ls (h.resolve_right (not_not.mpr future)) tid r
    next => rfl
  rw [writeReg_keeps (fun a => gstAt a.ls g) fun _ _ => rfl]
  exact (storeReg_gst _ _ _ _).trans (congrArg (gstAt · g) looks)

theorem writeReg_outside (hs : Canonical s) (ht : taskAt s tid = some t) (hr : r < 64) (v : Token) {a : Nat}
    (ha : outsideOwn s t a) : byteAt (writeReg s tid r v).ls.bytes a = byteAt s.ls.bytes a := by
  rw [writeReg_keeps (fun a => a.ls.bytes) fun _ _ => rfl]
  refine (storeReg_outside (regStored_canon hs v) (regStored_task ht r v) hr ?_).trans
    (congrArg (byteAt · a) (regLooks_bytes s tid r))
  exact (outsideOwn_congr _ _ (regStored_al s tid r v)).mpr ha

theorem writeReg_gm (ht : taskAt s tid = some t) (h : ∀ x, tget s.al.recs t.carve = some x → x.spilled = false) (r : Nat)
    (v : Token) : (writeReg s tid r v).gm = s.gm := by
  have looks : (regLooks s tid r).gm = s.gm := by
    unfold regLooks
    split
    · refine regCheck_gm fun l hl => ?_
      simp only [regGranules, ht] at hl
      obtain ⟨j, -, hj⟩ := List.mem_filterMap.mp hl
      exact carveGranule_here h hj
    · rfl
  rw [writeReg_keeps State.gm fun _ _ => rfl]
  exact (storeReg_gm (regStored_task ht r v) (by rw [regStored_al]; exact h) r).trans looks

theorem writeReg_bytes (hs : Canonical s) (ht : taskAt s tid = some t) (hr : r ≠ 61) (v : Token)
    (hg : carveGranule s t (r / 2) = some (.here g)) (hk : carveGranule s t (32 + r / 16) = some (.here k)) (apart : g ≠ k) :
    bytesAt (writeReg s tid r v).ls.bytes (granuleByte g + 8 * (r % 2)) 8 = bytesOf 8 v.val.toNat ∧
      byteAt (writeReg s tid r v).ls.bytes (granuleByte k + r % 16) = BitVec.ofNat 8 (Tag.code v.tag) := by
  have sorted : tsorted none t.regs = true := hs.regs _ (mem_of_tget ht)
  have stored : regOf (setReg t r (takenVal r v)) r = v := by
    rw [regOf_setReg sorted, if_pos rfl, takenVal, if_neg hr]
  have place (j : Nat) : carveGranule (modTask (regLooks s tid r) tid fun t => setReg t r (takenVal r v))
      (setReg t r (takenVal r v)) j = carveGranule s t j := carveGranule_congr (regStored_al s tid r v) _ j
  have bytes := storeReg_bytes (regStored_canon hs v) (regStored_task ht r v) ((place _).trans hg) ((place _).trans hk) apart
  rw [stored] at bytes
  rwa [writeReg_keeps (fun a => a.ls.bytes) fun _ _ => rfl]

theorem writeReg_insts (s : State) (tid r : Nat) (v : Token) : (writeReg s tid r v).wk.insts = s.wk.insts := by
  rw [writeReg_keeps (fun a => a.wk.insts) fun _ _ => rfl]
  exact (storeReg_keeps (fun a => a.wk.insts) (fun _ _ _ => rfl) _ _ _).trans
    (regLooks_keeps (fun a => a.wk.insts) (fun _ _ _ _ => rfl) s tid r)

/-! ### Flags in the carve-out (R105, R209, R221) -/

/-- Flags change g61 alone, which keeps what it had below the new ones. -/
theorem regOf_orFlags_other (ht : tsorted none t.regs = true) (fl : FlagSet) (hr : r ≠ 61) :
    regOf (orFlags t fl) r = regOf t r := by
  unfold orFlags
  split
  · rfl
  · rw [regOf_setReg ht, if_neg hr]

theorem regOf_orFlags_flags (ht : tsorted none t.regs = true) {fl : FlagSet} (h : fl ≠ 0) :
    regOf (orFlags t fl) 61 = mkTok .n32 ((regOf t 61).val.toNat % 256 ||| fl.toNat) := by
  rw [orFlags, if_neg h, regOf_setReg ht, if_pos rfl]

theorem orFlags_zero (t : Task) : orFlags t 0 = t := if_pos rfl

/-- Flags bring no FUTURE into a register. -/
theorem regOf_orFlags_future (ht : tsorted none t.regs = true) (fl : FlagSet) (h : (regOf t r).tag ≠ .future) :
    (regOf (orFlags t fl) r).tag ≠ .future := by
  by_cases hr : r = 61
  · subst hr
    by_cases hf : fl = 0
    · rwa [hf, orFlags_zero]
    · rw [regOf_orFlags_flags ht hf]
      nofun
  · rwa [regOf_orFlags_other ht fl hr]

theorem flagTask_gst (s : State) (tid : Nat) (fl : FlagSet) (g : Nat) : gstAt (flagTask s tid fl).ls g = gstAt s.ls g := by
  unfold flagTask
  split
  · rfl
  · exact storeReg_gst _ _ _ _

theorem flagTask_sound (h : s.ls.upset = []) (tid : Nat) (fl : FlagSet) : (flagTask s tid fl).ls.upset = [] := by
  unfold flagTask
  split
  · exact h
  · exact storeReg_sound (s := modTask s tid fun t => orFlags t fl) h tid 61

theorem flagged_task (ht : taskAt s tid = some t) (fl : FlagSet) :
    taskAt (modTask s tid fun t => orFlags t fl) tid = some (orFlags t fl) := by
  rw [taskAt_modTask_same, ht]
  rfl

theorem outsideOwn_orFlags (fl : FlagSet) (a : Nat) : outsideOwn s (orFlags t fl) a ↔ outsideOwn s t a := by
  simp only [outsideOwn, ownGranule, carveGranule, orFlags_carve]

theorem flagTask_outside (hs : Canonical s) (ht : taskAt s tid = some t) (fl : FlagSet) {a : Nat} (ha : outsideOwn s t a) :
    byteAt (flagTask s tid fl).ls.bytes a = byteAt s.ls.bytes a := by
  unfold flagTask
  split
  · rfl
  · exact storeReg_outside (s := modTask s tid fun t => orFlags t fl) (modTask_canon hs fun _ h => orFlags_regs h) (flagged_task ht fl)
      (by decide) ((outsideOwn_congr (s := s) _ a rfl).mpr ((outsideOwn_orFlags fl a).mpr ha))

theorem flagTask_gm (ht : taskAt s tid = some t) (h : ∀ x, tget s.al.recs t.carve = some x → x.spilled = false) (fl : FlagSet) :
    (flagTask s tid fl).gm = s.gm := by
  unfold flagTask
  split
  · rfl
  · exact storeReg_gm (s := modTask s tid fun t => orFlags t fl) (flagged_task ht fl) (by rw [orFlags_carve]; exact h) 61

/-! ### A value that returns (R105, R145, R147) -/

section
variable {m : RetMsg}

/-- The register that takes a returned value: g61 takes no value that is not an integer (log 44). -/
def retTaken (m : RetMsg) : Option Nat := m.reg.filter fun r => !(r = 61 && !m.tok.tag.isInt)

theorem retTaken_reg (h : retTaken m = some r) : m.reg = some r := (Option.filter_eq_some_iff.mp h).1

theorem retTaken_of_reg (h : m.reg = some r) (hr : r ≠ 61) : retTaken m = some r := by simp [retTaken, h, hr]

theorem retTaken_ne (h : m.reg ≠ some r) : retTaken m ≠ some r := fun e => h (retTaken_reg e)

/-- The state and the task in which the flags of a returned value have gone to its task. -/
abbrev flagged (s : State) (m : RetMsg) : State := flagTask s m.tid m.flags

theorem taskAt_flagged (ht : taskAt s m.tid = some t) : taskAt (flagged s m) m.tid = some (orFlags t m.flags) := by
  rw [flagTask_task, ht]
  rfl

theorem taskAt_wakeReads (s : State) (k tid : Nat) : taskAt (wakeReads s k) tid = taskAt s tid := rfl
theorem wakeReads_insts (s : State) (k : Nat) : (wakeReads s k).wk.insts = s.wk.insts := rfl
theorem wakeReads_ls (s : State) (k : Nat) : (wakeReads s k).ls = s.ls := rfl
theorem wakeReads_gm (s : State) (k : Nat) : (wakeReads s k).gm = s.gm := rfl

theorem returnValue_none (h : retTaken m = none) : returnValue s m = wakeReads (flagged s m) m.tid := by
  unfold returnValue
  refine congrArg (wakeReads · m.tid) ?_
  split
  next r u hr _ =>
    rw [retTaken, hr, Option.filter_some] at h
    exact if_pos (by simpa using h)
  next => rfl

theorem returnValue_some (ht : taskAt s m.tid = some t) (h : retTaken m = some r) :
    returnValue s m = wakeReads (writeReg (flagged s m) m.tid r m.tok) m.tid := by
  obtain ⟨reg, taken⟩ := Option.filter_eq_some_iff.mp h
  unfold returnValue
  simp only [reg, taskAt_flagged ht]
  exact congrArg (wakeReads · m.tid) (if_neg (by simpa only [Bool.not_eq_true, Bool.not_eq_true'] using taken))

/-- The task that a returned value leaves. -/
def returnedTask (t : Task) (m : RetMsg) : Task :=
  match retTaken m with
  | some r => setReg (orFlags t m.flags) r (takenVal r m.tok)
  | none => orFlags t m.flags

theorem taskAt_returnValue (ht : taskAt s m.tid = some t) : taskAt (returnValue s m) m.tid = some (returnedTask t m) := by
  unfold returnedTask
  split
  next r h =>
    rw [returnValue_some ht h, taskAt_wakeReads, taskAt_writeReg, taskAt_flagged ht]
    rfl
  next h => rw [returnValue_none h, taskAt_wakeReads, taskAt_flagged ht]

/-- A returned value gives its register its token, and leaves every other one with what it has beside the flags. -/
theorem regOf_returnedTask (ht : tsorted none t.regs = true) (r : Nat) : regOf (returnedTask t m) r =
    if retTaken m = some r then takenVal r m.tok else regOf (orFlags t m.flags) r := by
  unfold returnedTask
  split
  next k h =>
    rw [h, regOf_setReg (orFlags_regs ht)]
    by_cases same : r = k
    · simp [same]
    · simp [same, Ne.symm same]
  next h => simp [h]

theorem returnValue_insts (ht : taskAt s m.tid = some t) : (returnValue s m).wk.insts = s.wk.insts := by
  have first : (flagged s m).wk.insts = s.wk.insts := flagTask_keeps (fun a => a.wk.insts) (fun _ _ _ _ => rfl) s m.tid _
  cases h : retTaken m with
  | none => rw [returnValue_none h, wakeReads_insts]; exact first
  | some r => rw [returnValue_some ht h, wakeReads_insts]; exact (writeReg_insts _ _ _ _).trans first

theorem returnValue_gst (hs : Canonical s) (ht : taskAt s m.tid = some t)
    (h : s.ls.upset = [] ∨ ∀ r, m.reg = some r → (regOf t r).tag ≠ .future) (g : Nat) :
    gstAt (returnValue s m).ls g = gstAt s.ls g := by
  have sorted : tsorted none t.regs = true := hs.regs _ (mem_of_tget ht)
  have first : gstAt (flagged s m).ls g = gstAt s.ls g := flagTask_gst _ _ _ _
  cases taken : retTaken m with
  | none => rw [returnValue_none taken, wakeReads_ls]; exact first
  | some r =>
    rw [returnValue_some ht taken, wakeReads_ls]
    refine (writeReg_gst (taskAt_flagged ht) ?_ _ g).trans first
    exact h.imp (fun sound => flagTask_sound sound _ _) fun plain => regOf_orFlags_future sorted _ (plain r (retTaken_reg taken))

theorem flagged_al (s : State) (m : RetMsg) : (flagged s m).al = s.al := flagTask_keeps State.al (fun _ _ _ _ => rfl) s m.tid _

theorem returnValue_outside (hs : Canonical s) (ht : taskAt s m.tid = some t) (hr : ∀ r, m.reg = some r → r < 64) {a : Nat}
    (ha : outsideOwn s t a) : byteAt (returnValue s m).ls.bytes a = byteAt s.ls.bytes a := by
  have first : byteAt (flagged s m).ls.bytes a = byteAt s.ls.bytes a := flagTask_outside hs ht _ ha
  have still : outsideOwn (flagged s m) (orFlags t m.flags) a :=
    (outsideOwn_congr _ _ (flagged_al s m)).mpr ((outsideOwn_orFlags _ a).mpr ha)
  cases taken : retTaken m with
  | none => rw [returnValue_none taken, wakeReads_ls]; exact first
  | some r =>
    rw [returnValue_some ht taken, wakeReads_ls]
    exact (writeReg_outside (flagTask_canon hs) (taskAt_flagged ht) (hr r (retTaken_reg taken)) _ still).trans first

theorem returnValue_gm (ht : taskAt s m.tid = some t) (h : ∀ x, tget s.al.recs t.carve = some x → x.spilled = false) :
    (returnValue s m).gm = s.gm := by
  have first : (flagged s m).gm = s.gm := flagTask_gm ht h _
  cases taken : retTaken m with
  | none => rw [returnValue_none taken, wakeReads_gm]; exact first
  | some r =>
    rw [returnValue_some ht taken, wakeReads_gm]
    refine (writeReg_gm (taskAt_flagged ht) ?_ r _).trans first
    rwa [flagged_al, orFlags_carve]

theorem returnValue_bytes (hs : Canonical s) (ht : taskAt s m.tid = some t) (hm : m.reg = some r) (hr : r ≠ 61)
    (hg : carveGranule s t (r / 2) = some (.here g)) (hk : carveGranule s t (32 + r / 16) = some (.here k)) (apart : g ≠ k) :
    bytesAt (returnValue s m).ls.bytes (granuleByte g + 8 * (r % 2)) 8 = bytesOf 8 m.tok.val.toNat ∧
      byteAt (returnValue s m).ls.bytes (granuleByte k + r % 16) = BitVec.ofNat 8 (Tag.code m.tok.tag) := by
  have place (j : Nat) : carveGranule (flagged s m) (orFlags t m.flags) j = carveGranule s t j := by
    rw [carveGranule_congr (flagged_al s m), carveGranule, orFlags_carve]
    rfl
  rw [returnValue_some ht (retTaken_of_reg hm hr), wakeReads_ls]
  exact writeReg_bytes (flagTask_canon hs) (taskAt_flagged ht) hr _ ((place _).trans hg) ((place _).trans hk) apart

end
end Sys2Proof.Machine

open Sys2Proof.Machine in
/-- Settles O35: the flags go to the task, then the register takes its token, in the task's registers and in the carve-out. -/
theorem valuesReturn : Obligations.ValuesReturn := by
  intro s m t hs ht
  have sorted : tsorted none t.regs = true := hs.regs _ (mem_of_tget ht)
  have reg := regOf_returnedTask (m := m) sorted
  refine ⟨returnValue s m, returnedTask t m, rfl, taskAt_returnValue ht, returnValue_insts ht, returnValue_gst hs ht,
    fun hr a => returnValue_outside hs ht hr, returnValue_gm ht, fun r g k hm _ hr hg hk => returnValue_bytes hs ht hm hr hg hk,
    fun r hm hr => ?taken, fun r hm hr => ?other, fun hm hf => ?flags, fun hm hf => ?noFlags⟩
  case taken => rw [reg, if_pos (retTaken_of_reg hm hr), takenVal, if_neg hr]
  case other => rw [reg, if_neg (retTaken_ne hm), regOf_orFlags_other sorted _ hr]
  case flags => rw [reg, if_neg (retTaken_ne hm), regOf_orFlags_flags sorted hf]
  case noFlags => rw [reg, if_neg (retTaken_ne hm), hf, orFlags_zero]
